-- ==== Sys2Proof/Word.lean ====
section
/-! DEFINITION. The word types of the block, and nothing else. Bit vectors are used where the manual treats a value as bits
(bytes in memory, lanes, code words); counts, indices, times and addresses once computed are plain `Nat`. -/
namespace Sys2Proof

/-- One byte, the smallest unit the manual addresses (R4). -/
abbrev Byte := BitVec 8

/-- A sequence of bytes in ascending address order; multi-byte values in it are little-endian (R4). -/
abbrev Bytes := List Byte

/-- A time in nanoseconds: a reading of the package time base (R4, R60), or a length of time. -/
abbrev Ns := Nat

end Sys2Proof
end

