-- ==== Sys2Proof/Syntax.lean ====
section
/-! DEFINITION. The commands of the block: one constructor of `Instr` per row of spec/opcode_table.json, with the operands
that its rule gives or that its event carries from outside. Every constructor's first operand `dt` is the time in nanoseconds
that has passed since the previous command (in `StrayArrival` for `foreignFrameDiscard`, notes/assumptions/1.md); the row's own effect follows at that instant. -/
namespace Sys2Proof

/-- The three transport classes (R31). -/
inductive Transport where
  | host | board | rack
  deriving DecidableEq, Repr

/-- An Edtal frame of R42 but for its dictionary message: the Ethernet addresses and EtherType, the Edtal header with its message
length, and, when Signed is 1, the signature; empty otherwise. -/
structure Edtal where
  dest : Bytes
  source : Bytes
  etherType : Nat
  version : Nat
  signed : Bool
  length : Nat
  session : Nat
  sequence : Nat
  signature : Bytes
  deriving DecidableEq, Repr

/-- An MCTP message of R46 but for its dictionary message: endpoint identifiers, message tag and enterprise number, and of each packet
it came in, in order of arrival, whether it starts a message, whether it ends one, and its packet sequence. -/
structure Mctp where
  dest : Nat
  source : Nat
  tag : Nat
  enterprise : Nat
  packets : List (Bool × Bool × Nat)
  deriving DecidableEq, Repr

/-- How a dictionary message arrives: the CXL mailbox, MCTP over I3C (R46), or Edtal (R42). -/
inductive Via where
  | host
  | board (header : Mctp)
  | rack (header : Edtal)
  deriving DecidableEq, Repr

/-- What reaches a management port and is for another: an Ethernet frame by its destination and EtherType (R42), or an MCTP message by
its enterprise number (R46). -/
inductive Stray where
  | frame (dest : Bytes) (etherType : Nat)
  | message (enterprise : Nat)
  deriving DecidableEq, Repr

/-- What reaches a management port and is for another, `dt` nanoseconds after the command before. -/
structure StrayArrival where
  dt : Nat
  stray : Stray
  deriving DecidableEq, Repr

/-- The dictionary message of R40 without its Operation, which the row gives. `length` is the Length field as sent; `value` is
what follows byte 15. -/
structure DictMsg where
  version : Nat
  transaction : Nat
  index : Nat
  sub : Nat
  type : Nat
  offset : Nat
  length : Nat
  value : Bytes
  deriving DecidableEq, Repr

/-- A request at its place in the serial order (R35). `held` is the number of replies of its transport that the medium has still to
take when it arrives: those owed beyond it have been sent by then, oldest first (R37). `waits`: its own reply has to wait for
the medium as well. `whole` is false for a message shorter than the 16-byte header (R40); `store` is false when the
configuration area fails to take a durable write (R41, status 0x0F). -/
structure Request where
  via : Via
  held : Nat
  waits : Bool
  whole : Bool
  store : Bool
  msg : DictMsg
  deriving DecidableEq, Repr

/-- The parts of the function's configuration space that the manual names (R378, R381, R382, R390, R392, R397, R401): those a host
writes, the identity and capabilities it reads, and the Discovery and CDAT objects behind its DOE mailbox. -/
inductive ConfigField where
  | memorySpace | busMaster | msixEnable | uioEnable | functionReset
  | vendorId | deviceId | classCode | cxlCapability | memoryStatus | doeDiscovery | cdat
  | other
  deriving DecidableEq, Repr

/-- What a start-up step finds (R454, R456): whether it passed and, when it did not, the number of the module or stack; the unit
codes of the checkers that failed; and which areas of the NOR hold valid digests: copies 0 and 1 of the configuration, of the
retirement lists and of the boot control, and the identity area. -/
structure StageOutcome where
  passed : Bool
  unit : Nat
  failed : List Nat
  copy0 : Bool
  copy1 : Bool
  lists0 : Bool
  lists1 : Bool
  boot0 : Bool
  boot1 : Bool
  chain : Bool
  deriving DecidableEq, Repr

/-- How the adapter retries of a UCIe module stand (R20, R28): over, with the data through; still under way; or used up. -/
inductive Retries where
  | over | underWay | exhausted
  deriving DecidableEq, Repr

/-- The adapter retries that a UCIe module has counted since its last report, by direction (R28, 0x1259). -/
structure RetryCounts where
  received : Nat
  transmitted : Nat
  deriving DecidableEq, Repr

/-- A pass of a capture on a core's array: the cycles it waited for weights (R175) and whether a parity error met it (R193). -/
structure ArrayTurn where
  core : Nat
  stalls : Nat
  parity : Bool
  deriving DecidableEq, Repr

/-- A read-out of a core's weight banks, and whether a parity error met it (R193). -/
structure BankTurn where
  core : Nat
  parity : Bool
  deriving DecidableEq, Repr

/-- The transport's medium when a message of the mailbox arrives: `held` and `waits` as in `Request`. -/
structure Medium where
  held : Nat
  waits : Bool
  deriving DecidableEq, Repr

/-- A step of IDE key management for a stream (R378, R393): its keys are programmed, or the stream becomes active, the CXL IDE stream
in skid mode or in containment mode. -/
inductive IdeStep where
  | program
  | activate (skid : Bool)
  deriving DecidableEq, Repr

/-- What happens to a code word of stacked memory (R257): some of its 288 stored bits change, data bits 0 to 255 and check bits 256 to
287; or a read of it comes to return the code word stored at another address. -/
inductive Upset where
  | flip (word : Nat) (which : List Nat)
  | misread (word other : Nat)
  deriving DecidableEq, Repr

/-- What precedes a step of a scrubber: what has happened to code words, of any stack (R257), and the intervals of R263 on this stack
since its last step in which the floor carried class 2. -/
structure ScrubFinding where
  upsets : List Upset
  floored : Nat
  deriving DecidableEq, Repr

/-- The commands. Operand names say what a number names: `core` 0 to 255, `cluster` 0 to 31, `die` 0 to 7, `stack` 0 to 31, `queue` 0 to
1,023, `job` 0 to 63, `table` 0 to 1,023, `engine` a lookup engine 0 to 63, `unit` a row-merge unit 0 to 31, `channel` 0 to 15,
`port` 0 to 5, `group` a digest group 0 to 7, `pair` a verify pair 0 to 15, `kind` an engine kind of R411 with its `num`,
`command` the identifier of a command in flight, `tag` 0 to 255. What only the outside or the silicon decides (a reading, an
error found, a frame's contents) is an operand too. -/
inductive Instr where
  /-- SUPPLIES_VALID (R451). -/
  | suppliesValid (dt : Nat)
  /-- STARTUP_STAGE_COMPLETE (R454). The step in progress ends with `outcome`. -/
  | startupStageComplete (dt : Nat) (outcome : StageOutcome)
  /-- STARTUP_USABLE (R454). -/
  | startupUsable (dt : Nat)
  /-- TRIAL_TIMEOUT (R468). -/
  | trialTimeout (dt : Nat)
  /-- SUPPLY_LOSS (R453). `main` is the 12 V input, otherwise VIO. -/
  | supplyLoss (dt : Nat) (main : Bool)
  /-- VMGT_LOSS (R453). -/
  | vmgtLoss (dt : Nat)
  /-- SUPPLY_OUT_OF_RANGE (R435). `absolute`: outside the absolute range. -/
  | supplyOutOfRange (dt : Nat) (absolute : Bool)
  /-- SUPPLY_RESTORED (R435). `within`: nanoseconds for which every input has been in range. -/
  | supplyRestored (dt : Nat) (within : Nat)
  /-- PERST_DEASSERT (R458). -/
  | perstDeassert (dt : Nat)
  /-- RESTART (R457). `arg`: 0 normal, 1 forced. -/
  | restart (dt : Nat) (arg : Nat) (request : Request)
  /-- OBJECT_READ (R40). -/
  | objectRead (dt : Nat) (request : Request)
  /-- OBJECT_WRITE (R32). -/
  | objectWrite (dt : Nat) (request : Request)
  /-- OBJECT_DESCRIBE (R40). -/
  | objectDescribe (dt : Nat) (request : Request)
  /-- OBJECT_ENUMERATE (R40). -/
  | objectEnumerate (dt : Nat) (request : Request)
  /-- SEGMENT_READ (R40). -/
  | segmentRead (dt : Nat) (request : Request)
  /-- SEGMENT_WRITE (R40). -/
  | segmentWrite (dt : Nat) (request : Request)
  /-- SESSION_OPEN (R44). -/
  | sessionOpen (dt : Nat) (request : Request)
  /-- SESSION_PROVE (R44). -/
  | sessionProve (dt : Nat) (request : Request)
  /-- SESSION_CLOSE (R44). -/
  | sessionClose (dt : Nat) (request : Request)
  /-- SESSION_IDLE_TIMEOUT (R44). -/
  | sessionIdleTimeout (dt : Nat) (session : Nat)
  /-- FOREIGN_FRAME_DISCARD (R42). -/
  | foreignFrameDiscard (arrival : StrayArrival)
  /-- PLCA_CHANGE_APPLY (R45). -/
  | plcaChangeApply (dt : Nat)
  /-- RACK_KEY_WRITE (R49). -/
  | rackKeyWrite (dt : Nat) (slot : Nat) (key : Bytes) (request : Request)
  /-- I3C_ENTDAA (R46). -/
  | i3cEntdaa (dt : Nat) (address : Nat)
  /-- RESTORE_DEFAULTS (R49). -/
  | restoreDefaults (dt : Nat) (arg : Nat) (request : Request)
  /-- CORE_CLOCK_SET (R23). -/
  | coreClockSet (dt : Nat) (core : Nat) (mhz : Nat) (request : Request)
  /-- VOLTAGE_SETTLED (R446). -/
  | voltageSettled (dt : Nat) (cluster : Nat)
  /-- CLOCK_CHANGE_APPLY (R24). -/
  | clockChangeApply (dt : Nat) (core : Nat)
  /-- CLOCK_RELOCK_DONE (R24). -/
  | clockRelockDone (dt : Nat) (core : Nat)
  /-- TENANCY_START (R51). -/
  | tenancyStart (dt : Nat) (owner : Nat) (request : Request)
  /-- TENANCY_END (R52). -/
  | tenancyEnd (dt : Nat) (arg : Nat) (request : Request)
  /-- TENANCY_END_DRAINED (R52). -/
  | tenancyEndDrained (dt : Nat)
  /-- TENANCY_END_COMPLETE (R52). -/
  | tenancyEndComplete (dt : Nat)
  /-- JOB_OPEN (R55). -/
  | jobOpen (dt : Nat) (job : Nat) (arg : Nat) (request : Request)
  /-- JOB_CLOSE (R55). -/
  | jobClose (dt : Nat) (job : Nat) (arg : Nat) (request : Request)
  /-- JOB_CLOSE_COMPLETE (R55). -/
  | jobCloseComplete (dt : Nat) (job : Nat)
  /-- ACCOUNTING_SNAPSHOT (R59). -/
  | accountingSnapshot (dt : Nat) (account : Nat) (request : Request)
  /-- EPOCHS_START (R62). -/
  | epochsStart (dt : Nat) (running : Bool) (request : Request)
  /-- BOUNDARY_COMMIT (R66). -/
  | boundaryCommit (dt : Nat)
  /-- SYNC_IN_EDGE (R67). -/
  | syncInEdge (dt : Nat)
  /-- WINDOW_DECIDE (R68). -/
  | windowDecide (dt : Nat)
  /-- EPOCH_BOUNDARY (R65). -/
  | epochBoundary (dt : Nat)
  /-- APPLY_TABLE_START (R156). -/
  | applyTableStart (dt : Nat) (unit : Nat) (table : Nat)
  /-- APPLY_ROW (R157). -/
  | applyRow (dt : Nat) (unit : Nat)
  /-- APPLY_BUDGET_EXPIRE (R158). -/
  | applyBudgetExpire (dt : Nat) (unit : Nat) (table : Nat)
  /-- SLOT_RELEASE (R89). -/
  | slotRelease (dt : Nat) (table : Nat)
  /-- REFRESH_SLOT_RECEIVE (R159). A slot of a shard row, in its tier's format. -/
  | refreshSlotReceive (dt : Nat) (table : Nat) (row : Nat) (tier : Nat) (slot : Bytes)
  /-- REFRESH_MARKER_RECEIVE (R159). -/
  | refreshMarkerReceive (dt : Nat) (table : Nat) (chip : Nat) (unit : Nat)
  /-- TIME_MESSAGE_RECEIVE (R72). The answer of the parent: when it received the question and when it answered. -/
  | timeMessageReceive (dt : Nat) (port : Nat) (t2 : Nat) (t3 : Nat)
  /-- ALIGNMENT_LOSS (R73). -/
  | alignmentLoss (dt : Nat)
  /-- TABLE_CREATE (R100). -/
  | tableCreate (dt : Nat) (engine : Nat)
  /-- TABLE_INIT_COMPLETE (R100). -/
  | tableInitComplete (dt : Nat) (table : Nat)
  /-- TABLE_DESTROY (R100). -/
  | tableDestroy (dt : Nat) (engine : Nat)
  /-- TABLE_DESTROY_COMPLETE (R100). -/
  | tableDestroyComplete (dt : Nat) (table : Nat)
  /-- TABLE_LOAD (R101). -/
  | tableLoad (dt : Nat) (engine : Nat)
  /-- TABLE_READ (R101). -/
  | tableRead (dt : Nat) (engine : Nat)
  /-- TABLE_SWAP (R102). -/
  | tableSwap (dt : Nat) (engine : Nat)
  /-- TABLE_REPLICATE (R103). -/
  | tableReplicate (dt : Nat) (engine : Nat)
  /-- TABLE_PIN (R103). -/
  | tablePin (dt : Nat) (engine : Nat)
  /-- EPOCH_FENCE (R104). -/
  | epochFence (dt : Nat) (engine : Nat)
  /-- EPOCH_READ (R104). -/
  | epochRead (dt : Nat) (engine : Nat)
  /-- TABLE_SNAPSHOT (R105). -/
  | tableSnapshot (dt : Nat) (table : Nat) (request : Request)
  /-- LOOKUP (R115). -/
  | lookup (dt : Nat) (command : Nat)
  /-- SHARDED_LOOKUP (R121). -/
  | shardedLookup (dt : Nat) (command : Nat)
  /-- ROW_READ_RETURN (R115). The `read`-th row read outstanding of a lookup command returns. -/
  | rowReadReturn (dt : Nat) (command : Nat) (read : Nat)
  /-- REQUEST_SLICE_ARRIVE (R125). -/
  | requestSliceArrive (dt : Nat) (channel : Nat) (slice : Bytes)
  /-- RETURN_SLICE_ARRIVE (R126). -/
  | returnSliceArrive (dt : Nat) (channel : Nat) (slice : Bytes)
  /-- EXCHANGE_TIMEOUT (R129). -/
  | exchangeTimeout (dt : Nat) (command : Nat)
  /-- GRADIENT_PUSH (R135). -/
  | gradientPush (dt : Nat) (unit : Nat)
  /-- CONTRIBUTION_FOLD (R141). -/
  | contributionFold (dt : Nat) (unit : Nat)
  /-- UPDATE_EXCHANGE (R149). -/
  | updateExchange (dt : Nat) (unit : Nat)
  /-- UPDATE_SLICE_ARRIVE (R149). -/
  | updateSliceArrive (dt : Nat) (channel : Nat) (slice : Bytes)
  /-- UPDATE_EXCHANGE_TIMEOUT (R150). -/
  | updateExchangeTimeout (dt : Nat) (unit : Nat)
  /-- TRAIN_CONFIGURE (R166). -/
  | trainConfigure (dt : Nat) (unit : Nat)
  /-- MATRIX_MULTIPLY (R177). `stalls` cycles waited for weights; `parity`: an error on the data path. -/
  | matrixMultiply (dt : Nat) (core : Nat) (stalls : Nat) (parity : Bool)
  /-- MATRIX_CAPTURE (R195). -/
  | matrixCapture (dt : Nat) (turn : ArrayTurn)
  /-- WEIGHT_BANK_READ (R196). -/
  | weightBankRead (dt : Nat) (turn : BankTurn)
  /-- VECTOR_RUN (R207). -/
  | vectorRun (dt : Nat) (core : Nat)
  /-- LANE_PROGRAM_RUN (R217). -/
  | laneProgramRun (dt : Nat) (core : Nat)
  /-- LANE_PROGRAM_LOAD (R216). -/
  | laneProgramLoad (dt : Nat) (core : Nat)
  /-- VECTOR_GROUP (R206). `holds` cycles waited; `parity`: an error on the data path. -/
  | vectorGroup (dt : Nat) (core : Nat) (holds : Nat) (parity : Bool)
  /-- STREAM_ARM (R297). -/
  | streamArm (dt : Nat) (core : Nat)
  /-- STREAM_REGULATE (R303). -/
  | streamRegulate (dt : Nat) (core : Nat)
  /-- STREAM_TILE (R304). -/
  | streamTile (dt : Nat) (core : Nat) (slot : Nat)
  /-- STREAM_REQUEST_ISSUE (R300). -/
  | streamRequestIssue (dt : Nat) (core : Nat) (slot : Nat)
  /-- STREAM_WRITE_PERFORMED (R299). The write of a tile's request that begins at byte `number`. -/
  | streamWritePerformed (dt : Nat) (core : Nat) (slot : Nat) (tile : Nat) (number : Nat) (parity : Bool)
  /-- QUEUE_ENABLE (R312). The value written to the queue's configuration register. -/
  | queueEnable (dt : Nat) (queue : Nat) (value : Nat)
  /-- QUEUE_DISABLE (R311). The value written to the queue's configuration register. -/
  | queueDisable (dt : Nat) (queue : Nat) (value : Nat)
  /-- REGISTER_WRITE (R312). `width` bytes at an offset of BAR0. -/
  | registerWrite (dt : Nat) (offset : Nat) (value : Nat) (width : Nat)
  /-- DOORBELL (R316). `whole`: a 64-bit write. -/
  | doorbell (dt : Nat) (queue : Nat) (value : Nat) (whole : Bool)
  /-- SLOT_FETCH (R317). -/
  | slotFetch (dt : Nat) (queue : Nat)
  /-- SLOT_REREAD (R319). -/
  | slotReread (dt : Nat) (queue : Nat)
  /-- COMMAND_FETCH (R323). -/
  | commandFetch (dt : Nat) (queue : Nat)
  /-- COMMAND_START (R323). -/
  | commandStart (dt : Nat) (kind : Nat) (num : Nat)
  /-- COMMAND_COMPLETE (R322). -/
  | commandComplete (dt : Nat) (command : Nat)
  /-- LAUNCH_COMPLETE (R330). -/
  | launchComplete (dt : Nat) (queue : Nat)
  /-- QUEUE_DRAIN_DONE (R336). -/
  | queueDrainDone (dt : Nat) (queue : Nat)
  /-- NO_OP (R327). -/
  | noOp (dt : Nat) (command : Nat)
  /-- FENCE_SIGNAL (R325). -/
  | fenceSignal (dt : Nat) (command : Nat)
  /-- FENCE_WAIT (R329). -/
  | fenceWait (dt : Nat) (command : Nat)
  /-- FENCE_WAIT_TIMEOUT (R329). -/
  | fenceWaitTimeout (dt : Nat) (command : Nat)
  /-- TAG_INVALIDATE (R327). -/
  | tagInvalidate (dt : Nat) (command : Nat)
  /-- HOST_FENCE (R388). -/
  | hostFence (dt : Nat) (command : Nat)
  /-- BARRIER (R327). -/
  | barrier (dt : Nat) (command : Nat)
  /-- FENCE_VALUE_WRITE (R326). `whole`: a 64-bit write. -/
  | fenceValueWrite (dt : Nat) (fence : Nat) (value : Nat) (whole : Bool)
  /-- QUEUE_SNAPSHOT (R337). -/
  | queueSnapshot (dt : Nat) (queue : Nat) (request : Request)
  /-- FLOOR_INTERVAL_END (R341). -/
  | floorIntervalEnd (dt : Nat) (kind : Nat) (num : Nat)
  /-- WATCHDOG_EXPIRY (R344). -/
  | watchdogExpiry (dt : Nat) (command : Nat)
  /-- RECOVERY_COMPLETE (R345). `failed`: unit codes of checkers that failed their self-test. -/
  | recoveryComplete (dt : Nat) (failed : List Nat)
  /-- TRN_INVAL (R284). -/
  | trnInval (dt : Nat) (value : Nat)
  /-- TRN_INVAL_OVERRUN_CLEAR (R284). -/
  | trnInvalOverrunClear (dt : Nat) (tag : Nat)
  /-- INVALIDATE_TAG (R283). -/
  | invalidateTag (dt : Nat) (tag : Nat) (request : Request)
  /-- INVALIDATION_COMPLETE (R283). -/
  | invalidationComplete (dt : Nat) (tag : Nat)
  /-- WALK_COMPLETE (R281). -/
  | walkComplete (dt : Nat) (cluster : Nat) (tag : Nat) (page : Nat)
  /-- TRN_RESUME (R282). -/
  | trnResume (dt : Nat) (value : Nat)
  /-- MIGRATION_GO (R285). -/
  | migrationGo (dt : Nat) (value : Nat)
  /-- MIGRATION_COMPLETE (R285). -/
  | migrationComplete (dt : Nat)
  /-- SCRUB_STEP (R264). -/
  | scrubStep (dt : Nat) (stack : Nat) (finding : ScrubFinding)
  /-- RETIRE_NOW (R267). -/
  | retireNow (dt : Nat) (page : Nat) (request : Request)
  /-- STACK_TEMP_SAMPLE (R269). In °C. -/
  | stackTempSample (dt : Nat) (stack : Nat) (temp : Int)
  /-- SRAM_SCRUB (R405). `struck` names the SRAM words that have come to hold an uncorrectable error before the step. -/
  | sramScrub (dt : Nat) (address : Nat) (struck : List Nat)
  /-- RECORDER_START (R412). -/
  | recorderStart (dt : Nat)
  /-- DIGEST_REGION_READ (R418). -/
  | digestRegionRead (dt : Nat) (group : Nat)
  /-- DIGEST_MESSAGE_RECEIVE (R419). -/
  | digestMessageReceive (dt : Nat) (group : Nat) (index : Nat)
  /-- DIGEST_TIMEOUT (R419). -/
  | digestTimeout (dt : Nat) (group : Nat)
  /-- VERIFY_DIGEST (R421). -/
  | verifyDigest (dt : Nat) (pair : Nat)
  /-- VERIFY_VALUE_RECEIVE (R422). -/
  | verifyValueReceive (dt : Nat) (pair : Nat) (seq : Nat)
  /-- VERIFY_TIMEOUT (R422). -/
  | verifyTimeout (dt : Nat) (pair : Nat)
  /-- DECLARE_WINDOW (R429). -/
  | declareWindow (dt : Nat) (code : Nat) (request : Request)
  /-- TEST_DEFERRAL_EXPIRE (R429). -/
  | testDeferralExpire (dt : Nat) (code : Nat)
  /-- IFT_START (R429). -/
  | iftStart (dt : Nat) (code : Nat)
  /-- IFT_COMPLETE (R428). `runs`: whether each run of the test passed, in order. -/
  | iftComplete (dt : Nat) (code : Nat) (runs : List Bool)
  /-- CLEAR_SUSPICION (R426). -/
  | clearSuspicion (dt : Nat) (arg : Nat) (request : Request)
  /-- POWER_SAMPLE (R437). The 12 V, VMGT and VIO inputs in mV, and the 12 V current in 0.1 A. -/
  | powerSample (dt : Nat) (mv : Nat) (mgt : Nat) (vio : Nat) (current : Nat)
  /-- FENNEL_GRANT (R443). -/
  | fennelGrant (dt : Nat) (die : Nat)
  /-- ENGINE_CLOCK_GATE (R444). -/
  | engineClockGate (dt : Nat) (kind : Nat) (num : Nat)
  /-- LOGIC_TEMP_SAMPLE (R448). In °C; cluster 32 is the sensor of the I/O die. -/
  | logicTempSample (dt : Nat) (cluster : Nat) (temp : Int)
  /-- COOLANT_REPORT (R447). `flow`: the flow object, otherwise the inlet temperature. -/
  | coolantReport (dt : Nat) (flow : Bool) (value : Nat) (request : Request)
  /-- COOLANT_REPORT_STALE (R447). -/
  | coolantReportStale (dt : Nat)
  /-- COOLANT_CAP_RELEASE (R447). -/
  | coolantCapRelease (dt : Nat)
  /-- UCIE_RETRY_EXHAUSTED (R20). `number` is the module's (R411), with the adapter retries it has counted since its last report
and how they stand. -/
  | ucieRetryExhausted (dt : Nat) (number : Nat) (counts : RetryCounts) (retries : Retries)
  /-- VARX_LINK_UP (R350). -/
  | varxLinkUp (dt : Nat) (port : Nat)
  /-- VARX_LINK_DOWN (R350). `lockLost`: the link lost lock; otherwise its oldest frame exhausted its replays. -/
  | varxLinkDown (dt : Nat) (port : Nat) (lockLost : Bool)
  /-- VARX_RETRAIN (R350). `trained`: the attempt succeeded. -/
  | varxRetrain (dt : Nat) (port : Nat) (trained : Bool)
  /-- SEQUENCED_FRAME_RECEIVE (R350). A frame as received, with the FEC's counts. -/
  | sequencedFrameReceive (dt : Nat) (port : Nat) (corrected : Nat) (uncorrectable : Nat) (frame : Bytes)
  /-- ACKNOWLEDGE_RECEIVE (R350). `kind`: 0 acknowledge, 1 negative, 2 of a discovery report. -/
  | acknowledgeReceive (dt : Nat) (port : Nat) (kind : Nat) (value : Nat)
  /-- CREDIT_RECEIVE (R364). -/
  | creditReceive (dt : Nat) (port : Nat) (dest : Nat) (source : Nat) (channel : Nat) (number : Nat) (index : Nat)
  /-- BEACON_TIMER (R354). -/
  | beaconTimer (dt : Nat) (port : Nat)
  /-- BEACON_RECEIVE (R354). -/
  | beaconReceive (dt : Nat) (port : Nat) (serial : Nat) (partnerPort : Nat) (candidate : Nat) (hops : Nat) (settled : Bool)
      (coords : List (Option Nat)) (shape : Nat × Nat × Nat × Nat) (present : List Nat)
  /-- DISCOVERY_REPORT (R356). -/
  | discoveryReport (dt : Nat) (port : Nat) (chip : Nat) (serial : Nat)
  /-- REPORT_RESEND (R356). -/
  | reportResend (dt : Nat)
  /-- ROOT_LOSS_TIMEOUT (R358). -/
  | rootLossTimeout (dt : Nat)
  /-- REMOTE_REQUEST_RECEIVE (R360). A request of package `source` to this one. -/
  | remoteRequestReceive (dt : Nat) (source : Nat) (request : Nat) (owner : Nat) (write : Bool) (offset : Nat) (length : Nat)
      (data : Bytes)
  /-- REMOTE_RESPONSE_RECEIVE (R361). `status`: 0 performed, else the code of the bus error, or 1. -/
  | remoteResponseReceive (dt : Nat) (request : Nat) (status : Nat) (data : Bytes)
  /-- REMOTE_REQUEST_TIMEOUT (R362). -/
  | remoteRequestTimeout (dt : Nat) (request : Nat)
  /-- ALL_REDUCE (R369). -/
  | allReduce (dt : Nat) (command : Nat)
  /-- REDUCE_SCATTER (R369). -/
  | reduceScatter (dt : Nat) (command : Nat)
  /-- ALL_GATHER (R369). -/
  | allGather (dt : Nat) (command : Nat)
  /-- CHANNEL_ACQUIRE (R363). -/
  | channelAcquire (dt : Nat) (channel : Nat)
  /-- CHANNEL_WAIT_TIMEOUT (R363). -/
  | channelWaitTimeout (dt : Nat) (channel : Nat) (owner : Nat)
  /-- COLLECTIVE_CHUNK (R372). -/
  | collectiveChunk (dt : Nat) (command : Nat)
  /-- COLLECTIVE_DATA_RECEIVE (R365). -/
  | collectiveDataReceive (dt : Nat) (port : Nat) (channel : Nat) (number : Nat) (format : Nat) (elements : Nat) (axes : Nat)
      (phase : Nat) (segment : Nat) (chunk : Nat) (data : Bytes)
  /-- COLLECTIVE_TIMEOUT (R373). -/
  | collectiveTimeout (dt : Nat) (command : Nat)
  /-- HOST_LINK_UP (R401). -/
  | hostLinkUp (dt : Nat) (width : Nat) (rate : Nat)
  /-- HOST_LINK_LOSS (R398). `perst`: by assertion of PERST_N. -/
  | hostLinkLoss (dt : Nat) (perst : Bool)
  /-- LINK_RECOVERY (R379). -/
  | linkRecovery (dt : Nat) (replays : Nat)
  /-- HDM_COMMIT (R382). -/
  | hdmCommit (dt : Nat) (base : Nat)
  /-- HOST_ATTACH (R401). -/
  | hostAttach (dt : Nat)
  /-- HOST_CLEAR_LOG (R381). -/
  | hostClearLog (dt : Nat)
  /-- HOST_MEM_READ (R384). -/
  | hostMemRead (dt : Nat) (address : Nat) (length : Nat)
  /-- HOST_MEM_WRITE (R384). `uio`: from a peer by UIO. -/
  | hostMemWrite (dt : Nat) (address : Nat) (data : Bytes) (uio : Bool)
  /-- PEER_MEM_REQUEST (R391). -/
  | peerMemRequest (dt : Nat) (address : Nat)
  /-- HOST_READ_DATA (R386). The `read`-th device read without data yet; `error`: completed with an error. -/
  | hostReadData (dt : Nat) (read : Nat) (error : Bool) (data : Bytes)
  /-- HOST_GO_RECEIVE (R386). The GO of the write issued under `number`; `error`: answered with an error. -/
  | hostGoReceive (dt : Nat) (number : Nat) (error : Bool)
  /-- HOST_SNOOP (R386). -/
  | hostSnoop (dt : Nat) (address : Nat)
  /-- VECTOR_SEND (R396). -/
  | vectorSend (dt : Nat) (vector : Nat)
  /-- MAILBOX_DICTIONARY_REQUEST (R47). The payload; `store` as in `Request`. -/
  | mailboxDictionaryRequest (dt : Nat) (medium : Medium) (store : Bool) (payload : Bytes)
  /-- MAILBOX_ACTION_STATUS (R47). -/
  | mailboxActionStatus (dt : Nat) (index : Nat) (sub : Nat)
  /-- IDENTIFY_MEMORY_DEVICE (R394). -/
  | identifyMemoryDevice (dt : Nat)
  /-- GET_SUPPORTED_LOGS (R394). -/
  | getSupportedLogs (dt : Nat)
  /-- GET_LOG (R394). -/
  | getLog (dt : Nat) (uuid : Bytes) (offset : Nat) (length : Nat)
  /-- GET_EVENT_RECORDS (R395). -/
  | getEventRecords (dt : Nat) (log : Nat)
  /-- CLEAR_EVENT_RECORDS (R394). -/
  | clearEventRecords (dt : Nat) (log : Nat) (all : Bool) (handles : List Nat)
  /-- GET_EVENT_INTERRUPT_POLICY (R394). -/
  | getEventInterruptPolicy (dt : Nat)
  /-- SET_EVENT_INTERRUPT_POLICY (R394). -/
  | setEventInterruptPolicy (dt : Nat) (policy : Bytes)
  /-- GET_POISON_LIST (R395). A range of local offsets, its length in units of 64 bytes. -/
  | getPoisonList (dt : Nat) (address : Nat) (length : Nat)
  /-- GET_TIMESTAMP (R394). -/
  | getTimestamp (dt : Nat)
  /-- SET_TIMESTAMP (R394). -/
  | setTimestamp (dt : Nat) (timestamp : Nat)
  /-- GET_FW_INFO (R467). -/
  | getFwInfo (dt : Nat)
  /-- TRANSFER_FW (R467). -/
  | transferFw (dt : Nat) (action : Nat) (slot : Nat) (offset : Nat) (data : Bytes)
  /-- ACTIVATE_FW (R467). -/
  | activateFw (dt : Nat) (action : Nat) (slot : Nat)
  /-- SLOT_ERASE (R467). -/
  | slotErase (dt : Nat) (request : Request)
  /-- SLOT_ERASE_COMPLETE (R467). -/
  | slotEraseComplete (dt : Nat)
  /-- SLOT_ACTIVATE (R468). -/
  | slotActivate (dt : Nat) (request : Request)
  /-- COMMIT_SECURITY_VERSION (R469). -/
  | commitSecurityVersion (dt : Nat) (version : Nat) (request : Request)
  /-- SPDM_GET_VERSION (R461). `body`: the message after its first two bytes, here and in every SPDM row. -/
  | spdmGetVersion (dt : Nat) (transport : Transport) (body : Bytes)
  /-- SPDM_GET_CAPABILITIES (R461). -/
  | spdmGetCapabilities (dt : Nat) (transport : Transport) (body : Bytes)
  /-- SPDM_NEGOTIATE_ALGORITHMS (R461). -/
  | spdmNegotiateAlgorithms (dt : Nat) (transport : Transport) (body : Bytes)
  /-- SPDM_GET_DIGESTS (R461). -/
  | spdmGetDigests (dt : Nat) (transport : Transport) (body : Bytes)
  /-- SPDM_GET_CERTIFICATE (R460). -/
  | spdmGetCertificate (dt : Nat) (transport : Transport) (body : Bytes)
  /-- SPDM_CHALLENGE (R461). -/
  | spdmChallenge (dt : Nat) (transport : Transport) (body : Bytes)
  /-- SPDM_GET_MEASUREMENTS (R462). -/
  | spdmGetMeasurements (dt : Nat) (transport : Transport) (body : Bytes)
  /-- SPDM_KEY_EXCHANGE (R461). -/
  | spdmKeyExchange (dt : Nat) (transport : Transport) (body : Bytes)
  /-- SPDM_FINISH (R461). -/
  | spdmFinish (dt : Nat) (transport : Transport) (session : Nat) (body : Bytes)
  /-- SPDM_HEARTBEAT (R461). -/
  | spdmHeartbeat (dt : Nat) (transport : Transport) (session : Nat)
  /-- SPDM_KEY_UPDATE (R461). -/
  | spdmKeyUpdate (dt : Nat) (transport : Transport) (session : Nat) (op : Nat) (tag : Nat)
  /-- SPDM_END_SESSION (R461). -/
  | spdmEndSession (dt : Nat) (transport : Transport) (session : Nat)
  /-- VMGT_VALID (R453). -/
  | vmgtValid (dt : Nat)
  /-- REGULATORS_SWITCH_ON (R457). -/
  | regulatorsSwitchOn (dt : Nat)
  /-- CONFIGURATION_REQUEST (R458). A read, or with `write` a write of `value`. -/
  | configurationRequest (dt : Nat) (field : ConfigField) (write : Bool) (value : Bool)
  /-- IDE_KM_MESSAGE (R393). Over a secure session, for one of the four streams. -/
  | ideKmMessage (dt : Nat) (session : Nat) (stream : Nat) (step : IdeStep)
  /-- SYNC_OUT_PULSE_END (R480). -/
  | syncOutPulseEnd (dt : Nat)
  /-- TIME_MESSAGE_SEND (R72). -/
  | timeMessageSend (dt : Nat)
  deriving DecidableEq, Repr

end Sys2Proof
end

