-- ==== Sys2Proof/Machine/Data.lean ====
section
/-! DEFINITION. Plain data helpers: byte order, bit fields, two's complement, and the sparse map in its one canonical form
(keys strictly rising, no entry equal to what an unlisted key reads as). Everything here is about data, not about the block. -/
namespace Sys2Proof

/-- Bits [hi:lo] of a number (R4). -/
def bits (v hi lo : Nat) : Nat := (v >>> lo) % 2 ^ (hi + 1 - lo)

/-- Bit `i` of a number. -/
def bit (v i : Nat) : Bool := v.testBit i

/-- The number a little-endian byte sequence holds (R4). -/
def leNat : Bytes → Nat
  | [] => 0
  | b :: bs => b.toNat + 256 * leNat bs

/-- `n` bytes, little-endian, of a number taken modulo 256^n (R4). -/
def natLe : Nat → Nat → Bytes
  | 0, _ => []
  | n + 1, v => BitVec.ofNat 8 v :: natLe n (v / 256)

/-- `n` bytes, most significant first. -/
def natBe (n v : Nat) : Bytes := (natLe n v).reverse

/-- The number a big-endian byte sequence holds. -/
def beNat (b : Bytes) : Nat := leNat b.reverse

/-- The `n` bytes from position `i` of a record; positions past its end read zero. -/
def sub (b : Bytes) (i n : Nat) : Bytes :=
  let t := (b.drop i).take n
  t ++ List.replicate (n - t.length) 0

/-- The `n`-byte little-endian number at byte `i` of a record. -/
def fieldLe (b : Bytes) (i n : Nat) : Nat := leNat (sub b i n)

/-- Two's complement value of the low `w` bits of a number. -/
def toSigned (w v : Nat) : Int :=
  let u := v % 2 ^ w
  if u < 2 ^ (w - 1) then (u : Int) else (u : Int) - (2 ^ w : Nat)

/-- The low `w` bits of an integer, as a two's complement pattern. -/
def ofSigned (w : Nat) (i : Int) : Nat := (i % (2 ^ w : Nat)).toNat

/-- ⌈a / b⌉. -/
def ceilDiv (a b : Nat) : Nat := (a + b - 1) / b

/-- `v` rounded up to a multiple of `m`. -/
def roundUp (v m : Nat) : Nat := ceilDiv v m * m

/-- ⌊log₂ n⌋, 0 for 0. -/
def log2 (n : Nat) : Nat := Nat.log2 n

/-- A number of bytes as ASCII text of a string. -/
def ascii (s : String) : Bytes := s.toList.map (fun c => BitVec.ofNat 8 c.toNat)

/-- `n` numbers from `a` upward. -/
def rangeFrom (a n : Nat) : List Nat := (List.range n).map (a + ·)

/-- Write `src` over `dst` from position `i`; what would fall past the end is dropped. -/
def overlay (dst : Bytes) (i : Nat) (src : Bytes) : Bytes :=
  (dst.take i ++ src ++ dst.drop (i + src.length)).take dst.length

/-- The sparse map: a list of key and value pairs. -/
abbrev Map (α : Type) := List (Nat × α)

/-- What key `k` reads as; `d` for an unlisted key. -/
def Map.get {α : Type} (d : α) : Map α → Nat → α
  | [], _ => d
  | (k', v) :: m, k => if k = k' then v else Map.get d m k

/-- Put `v` at `k`, keeping keys strictly rising; `none` removes the entry. -/
def Map.put {α : Type} : Map α → Nat → Option α → Map α
  | [], k, some v => [(k, v)]
  | [], _, none => []
  | (k', w) :: m, k, v =>
    if k = k' then
      match v with
      | some v => (k, v) :: m
      | none => Map.put m k none
    else if k < k' then
      match v with
      | some v => (k, v) :: (k', w) :: m
      | none => (k', w) :: Map.put m k none
    else (k', w) :: Map.put m k v

/-- Write `v` at `k`; writing what an unlisted key reads as removes the entry, so equal maps are equal lists. -/
def Map.set {α : Type} [DecidableEq α] (d : α) (m : Map α) (k : Nat) (v : α) : Map α :=
  Map.put m k (if v = d then none else some v)

/-- The entry at `k`, if one is listed. -/
def Map.find {α : Type} (m : Map α) (k : Nat) : Option α := (m.find? (·.1 == k)).map (·.2)

/-- Keep the entries whose key passes. -/
def Map.keep {α : Type} (m : Map α) (p : Nat → Bool) : Map α := m.filter (fun e => p e.1)

/-- The canonical form: keys strictly rising and no entry equal to the default. -/
def Map.wf {α : Type} [DecidableEq α] (d : α) : Map α → Bool
  | [] => true
  | [(_, v)] => v ≠ d
  | (k, v) :: (k', v') :: m => (v ≠ d) && (k < k') && Map.wf d ((k', v') :: m)

/-- Insert into a list of numbers kept strictly ascending. -/
def insertAsc (n : Nat) : List Nat → List Nat
  | [] => [n]
  | m :: ms => if n < m then n :: m :: ms else if n = m then m :: ms else m :: insertAsc n ms

/-- Insertion into an association list sorted by key, keeping earlier entries of an equal key first. -/
def insertBy {α : Type} (key : α → Nat) (a : α) : List α → List α
  | [] => [a]
  | b :: bs => if key a < key b then a :: b :: bs else b :: insertBy key a bs

/-- Sort by a key, stable. -/
def sortBy {α : Type} (key : α → Nat) (l : List α) : List α := l.foldl (fun acc a => insertBy key a acc) []

/-- Replace the element at position `i`. -/
def setAt {α : Type} : List α → Nat → α → List α
  | [], _, _ => []
  | _ :: l, 0, v => v :: l
  | a :: l, i + 1, v => a :: setAt l i v

/-- Change every element that passes. -/
def mapIf {α : Type} (p : α → Bool) (f : α → α) (l : List α) : List α := l.map (fun a => if p a then f a else a)

/-- The least of a list, or `d` when it is empty. -/
def minOr (d : Nat) : List Nat → Nat
  | [] => d
  | a :: l => l.foldl min a

/-- Cut a list into pieces of `n`; `fuel` bounds the number of pieces. -/
def chunks {α : Type} (n : Nat) : Nat → List α → List (List α)
  | 0, _ => []
  | _ + 1, [] => []
  | fuel + 1, l => l.take n :: chunks n fuel (l.drop n)

end Sys2Proof
end

