-- ==== Sys2Proof/Machine/Float.lean ====
section
/-! DEFINITION. Number formats, rounding and conversions (R228 to R239). A float value is taken apart into an exact dyadic
number, arithmetic on it is exact (or, for quotients and roots, exact to far more bits than any format keeps), and one
function rounds to a format: to nearest, ties away from zero (R231). -/
namespace Sys2Proof

/-- A floating-point format of R228. `ebits` and `fbits` are the widths of the exponent and fraction fields. -/
structure Fmt where
  ebits : Nat
  fbits : Nat
  bias : Nat
  /-- FP8 E4M3 has no infinities, and only the all-ones code is a NaN. -/
  hasInf : Bool
  deriving DecidableEq, Repr

def Fmt.fp32 : Fmt := { ebits := 8, fbits := 23, bias := 127, hasInf := true }
def Fmt.bf16 : Fmt := { ebits := 8, fbits := 7, bias := 127, hasInf := true }
def Fmt.fp16 : Fmt := { ebits := 5, fbits := 10, bias := 15, hasInf := true }
def Fmt.e5m2 : Fmt := { ebits := 5, fbits := 2, bias := 15, hasInf := true }
def Fmt.e4m3 : Fmt := { ebits := 4, fbits := 3, bias := 7, hasInf := false }

/-- Width of a format in bits. -/
def Fmt.width (f : Fmt) : Nat := 1 + f.ebits + f.fbits

/-- A float value: a NaN, an infinity, or ±m × 2^e exactly. A zero keeps its sign. -/
inductive FV where
  | nan
  | inf (neg : Bool)
  | fin (neg : Bool) (m : Nat) (e : Int)
  deriving DecidableEq, Repr

/-- The value +0. -/
def FV.zero : FV := .fin false 0 0

def FV.isNan : FV → Bool
  | .nan => true
  | _ => false

/-- A NaN or an infinity. -/
def FV.nonFinite : FV → Bool
  | .fin _ _ _ => false
  | _ => true

def FV.neg : FV → Bool
  | .nan => false
  | .inf n => n
  | .fin n _ _ => n

def FV.isZero : FV → Bool
  | .fin _ 0 _ => true
  | _ => false

/-- The value an encoding has in a format (R228). -/
def Fmt.decode (f : Fmt) (v : Nat) : FV :=
  let neg := bit v (f.ebits + f.fbits)
  let e := bits v (f.ebits + f.fbits - 1) f.fbits
  let m := bits v (f.fbits - 1) 0
  let top := 2 ^ f.ebits - 1
  if f.hasInf && e = top then (if m = 0 then .inf neg else .nan)
  else if !f.hasInf && e = top && m = 2 ^ f.fbits - 1 then .nan
  else if e = 0 then .fin neg m (1 - (f.bias : Int) - f.fbits)
  else .fin neg (m + 2 ^ f.fbits) ((e : Int) - f.bias - f.fbits)

/-- The canonical NaN of a format (R230). -/
def Fmt.canonNan (f : Fmt) : Nat :=
  let top := (2 ^ f.ebits - 1) <<< f.fbits
  if f.hasInf then top + 2 ^ (f.fbits - 1) else top + 2 ^ f.fbits - 1

/-- The largest finite encoding of a format, without its sign (R228). -/
def Fmt.maxFinite (f : Fmt) : Nat :=
  if f.hasInf then ((2 ^ f.ebits - 1) <<< f.fbits) - 1 else 2 ^ (f.ebits + f.fbits) - 2

/-- An infinity of a format; only formats that have one are asked. -/
def Fmt.infBits (f : Fmt) : Nat := (2 ^ f.ebits - 1) <<< f.fbits

def Fmt.signBit (f : Fmt) (neg : Bool) : Nat := if neg then 2 ^ (f.ebits + f.fbits) else 0

/-- m × 2^-sh rounded to an integer, nearest with ties away from zero (R231). -/
def rna (m : Nat) (sh : Int) : Nat :=
  if sh ≤ 0 then m <<< (-sh).toNat else (m + 2 ^ (sh.toNat - 1)) >>> sh.toNat

/-- How a stored value is counted (R236). -/
inductive Stored where
  | plain | nonFinite | saturated
  deriving DecidableEq, Repr

/-- The magnitude code of m × 2^e in a format as though its exponent had no upper bound (R231 steps 1 to 4):
the encoding without sign, which exceeds the largest finite one exactly on overflow. -/
def Fmt.roundMag (f : Fmt) (m : Nat) (e : Int) : Nat :=
  if m = 0 then 0
  else
    let emin : Int := 1 - (f.bias : Int)
    let t : Int := (log2 m : Int) + e
    let q : Int := max t emin - f.fbits
    let r := rna m (q - e)
    if r < 2 ^ f.fbits then r
    else (r - 2 ^ f.fbits) + ((q + f.fbits + f.bias).toNat <<< f.fbits)

/-- The conversion of a value to a format (R231, R234), with how it counts when it is stored (R236). -/
def Fmt.convert (f : Fmt) : FV → Nat × Stored
  | .nan => (f.canonNan, .nonFinite)
  | .inf neg => if f.hasInf then (f.infBits + f.signBit neg, .nonFinite) else (f.canonNan, .nonFinite)
  | .fin neg m e =>
    let r := f.roundMag m e
    if r ≤ f.maxFinite then (r + f.signBit neg, .plain)
    else if f.hasInf then (f.infBits + f.signBit neg, .nonFinite)
    else (f.maxFinite + f.signBit neg, .saturated)

/-- The encoding a value converts to. -/
def Fmt.encode (f : Fmt) (v : FV) : Nat := (f.convert v).1

/-- A value rounded to a format and read back. -/
def Fmt.round (f : Fmt) (v : FV) : FV := f.decode (f.encode v)

/-- Exact sum of two values under IEEE 754; an exact zero of unlike signs is +0 (R180). -/
def FV.add : FV → FV → FV
  | .nan, _ => .nan
  | _, .nan => .nan
  | .inf a, .inf b => if a = b then .inf a else .nan
  | .inf a, _ => .inf a
  | _, .inf b => .inf b
  | .fin na ma ea, .fin nb mb eb =>
    let e := min ea eb
    let a : Int := (ma <<< (ea - e).toNat : Nat)
    let b : Int := (mb <<< (eb - e).toNat : Nat)
    let s : Int := (if na then -a else a) + (if nb then -b else b)
    if s = 0 then .fin (na && nb) 0 0 else .fin (s < 0) s.natAbs e

def FV.negate : FV → FV
  | .nan => .nan
  | .inf n => .inf (!n)
  | .fin n m e => .fin (!n) m e

def FV.abs : FV → FV
  | .nan => .nan
  | .inf _ => .inf false
  | .fin _ m e => .fin false m e

def FV.sub (a b : FV) : FV := a.add b.negate

/-- Exact product under IEEE 754; zero times an infinity is a NaN (R180). -/
def FV.mul : FV → FV → FV
  | .nan, _ => .nan
  | _, .nan => .nan
  | .inf a, .inf b => .inf (a != b)
  | .inf a, .fin b m _ => if m = 0 then .nan else .inf (a != b)
  | .fin a m _, .inf b => if m = 0 then .nan else .inf (a != b)
  | .fin a m e, .fin b n g => .fin (a != b) (m * n) (e + g)

/-- a × 2^k exactly. -/
def FV.scale (k : Int) : FV → FV
  | .fin n m e => .fin n m (e + k)
  | v => v

/-- How many bits beyond any format's precision a quotient or a root is carried. With ties away from zero a truncated
expansion rounds as the exact value does, because adding half a unit and truncating looks at no later bit. -/
def guardBits : Nat := 96

/-- a / b, truncated far beyond any format's precision. -/
def FV.div : FV → FV → FV
  | .nan, _ => .nan
  | _, .nan => .nan
  | .inf _, .inf _ => .nan
  | .inf a, .fin b _ _ => .inf (a != b)
  | .fin a _ _, .inf b => .fin (a != b) 0 0
  | .fin a m e, .fin b n g =>
    if n = 0 then (if m = 0 then .nan else .inf (a != b))
    else
      let k := guardBits + log2 n
      .fin (a != b) ((m <<< k) / n) (e - g - k)

/-- One bit of an integer square root at a time, from bit `i` down. -/
def isqrtFrom : Nat → Nat → Nat → Nat
  | 0, n, r => if (r + 1) * (r + 1) ≤ n then r + 1 else r
  | i + 1, n, r => isqrtFrom i n (if (r + 2 ^ (i + 1)) * (r + 2 ^ (i + 1)) ≤ n then r + 2 ^ (i + 1) else r)

/-- ⌊√n⌋. -/
def isqrt (n : Nat) : Nat := isqrtFrom (log2 n / 2 + 1) n 0

/-- √a, truncated far beyond any format's precision; √-0 is -0 and the root of a negative number is a NaN. -/
def FV.sqrt : FV → FV
  | .nan => .nan
  | .inf neg => if neg then .nan else .inf false
  | .fin neg m e =>
    if m = 0 then .fin neg 0 0
    else if neg then .nan
    else
      let k : Int := 2 * guardBits + (e % 2)
      .fin false (isqrt (m <<< k.toNat)) ((e - k) / 2)

/-- 1/a. -/
def FV.rcp (a : FV) : FV := FV.div (.fin false 1 0) a

/-- 1/√a by the recommended operation rSqrt: of ±0 an infinity of the same sign, of a negative number a NaN. One
truncated root of the reciprocal of a far longer quotient, so no double rounding. -/
def FV.rsqrt : FV → FV
  | .nan => .nan
  | .inf neg => if neg then .nan else .zero
  | .fin neg m e =>
    if m = 0 then .inf neg
    else if neg then .nan
    else
      -- 1/√(m 2^e) = √(2^(2k) / m) 2^(-k - e/2), with e made even
      let m' := if e % 2 = 0 then m else 2 * m
      let e' := if e % 2 = 0 then e else e - 1
      let k := guardBits + log2 m'
      .fin false (isqrt ((1 <<< (2 * k)) / m')) (-(k : Int) - e' / 2)

/-- Fractional bits carried by exp2 and log2. -/
def expBits : Nat := 256

/-- Multiply `acc` by 2^(2^-i) for every set bit of the `k`-bit fraction, from its highest bit down; `root` is 2^(2^-i). -/
def exp2Frac : Nat → Nat → Nat → Nat → Nat
  | 0, _, _, acc => acc
  | k + 1, f, root, acc =>
    let root' := isqrt (root <<< expBits)
    exp2Frac k f root' (if f.testBit k then (acc * root') >>> expBits else acc)

/-- 2^a (R211: the exact result, here to 256 fractional bits, before its one rounding). Whole exponents are exact. -/
def FV.exp2 : FV → FV
  | .nan => .nan
  | .inf neg => if neg then .zero else .inf false
  | .fin neg m e =>
    if m = 0 then .fin false 1 0
    else if (log2 m : Int) + e ≥ 15 then (if neg then .fin false 1 (-40000) else .fin false 1 40000)
    else if e ≥ 0 then
      let n : Int := (m <<< e.toNat : Nat)
      .fin false 1 (if neg then -n else n)
    else
      let k := (-e).toNat
      let v : Int := if neg then -(m : Int) else m
      let n := v / (2 ^ k : Nat)
      let f := (v % (2 ^ k : Nat)).toNat
      .fin false (exp2Frac k f (2 <<< expBits) (1 <<< expBits)) (n - expBits)

/-- Fractional bits of log2 produced, and working bits. -/
def logBits : Nat := 192
def logWork : Nat := 448

/-- The next `k` bits of the base-2 logarithm of y / 2^logWork, for y from 1 up to 2, appended to `acc`. -/
def log2Frac : Nat → Nat → Nat → Nat
  | 0, _, acc => acc
  | k + 1, y, acc =>
    let y2 := (y * y) >>> logWork
    if y2 ≥ 2 <<< logWork then log2Frac k (y2 / 2) (2 * acc + 1) else log2Frac k y2 (2 * acc)

/-- log₂ a (R211: the exact result, here to 192 fractional bits, before its one rounding). Powers of two are exact. -/
def FV.log2 : FV → FV
  | .nan => .nan
  | .inf neg => if neg then .nan else .inf false
  | .fin neg m e =>
    if m = 0 then .inf true
    else if neg then .nan
    else
      let b := Sys2Proof.log2 m
      let t : Int := b + e
      let y := (m <<< logWork) >>> b
      let f := log2Frac logBits y 0
      let v : Int := t * (2 ^ logBits : Nat) + f
      if v = 0 then .zero else .fin (v < 0) v.natAbs (-(logBits : Int))

/-- Comparison of two values that are not NaNs, -0 taken as +0. -/
def FV.lt : FV → FV → Bool
  | .nan, _ => false
  | _, .nan => false
  | .inf a, .inf b => a && !b
  | .inf a, .fin _ _ _ => a
  | .fin _ _ _, .inf b => !b
  | .fin na ma ea, .fin nb mb eb =>
    let e := min ea eb
    let a : Int := (ma <<< (ea - e).toNat : Nat)
    let b : Int := (mb <<< (eb - e).toNat : Nat)
    (if na then -a else a) < (if nb then -b else b)

/-- Equal in value, -0 equal to +0; a NaN equals nothing. -/
def FV.eq (a b : FV) : Bool := !a.isNan && !b.isNan && !a.lt b && !b.lt a

/-- IEEE 754-2019 minimum: a NaN propagates and -0 counts as less than +0 (R211, R79). -/
def FV.min (a b : FV) : FV :=
  if a.isNan || b.isNan then .nan
  else if a.lt b then a else if b.lt a then b else if a.neg then a else b

/-- IEEE 754-2019 maximum: a NaN propagates and -0 counts as less than +0 (R211, R79). -/
def FV.max (a b : FV) : FV :=
  if a.isNan || b.isNan then .nan
  else if a.lt b then b else if b.lt a then a else if a.neg then b else a

/-- An integer as a value. -/
def FV.ofInt (i : Int) : FV := .fin (i < 0) i.natAbs 0

/-- A finite value rounded to an integer, ties away from zero (R231). -/
def FV.toInt : FV → Int
  | .fin neg m e => let r : Int := (rna m (-e) : Nat); if neg then -r else r
  | _ => 0

/-- Range of a `w`-bit two's complement format. -/
def intMin (w : Nat) : Int := -((2 ^ (w - 1) : Nat) : Int)
def intMax (w : Nat) : Int := (2 ^ (w - 1) : Nat) - 1

/-- Saturate an integer to `w` bits; true when it was clamped. -/
def satInt (w : Nat) (i : Int) : Int × Bool :=
  if i < intMin w then (intMin w, true) else if intMax w < i then (intMax w, true) else (i, false)

/-- Conversion of a float value to a `w`-bit integer (R235). -/
def FV.toIntSat (w : Nat) : FV → Int × Stored
  | .nan => (0, .saturated)
  | .inf neg => (if neg then intMin w else intMax w, .saturated)
  | v =>
    let r := satInt w v.toInt
    (r.1, if r.2 then .saturated else .plain)

/-- An integer times 2^k: left with saturation, right to nearest with ties away (R186 step 1, R211). -/
def intScale (w : Nat) (k : Int) (i : Int) : Int × Bool :=
  if k ≥ 0 then (if i = 0 then (0, false) else if k ≥ w then satInt w (i * (2 ^ w : Nat)) else satInt w (i * (2 ^ k.toNat : Nat)))
  else
    let r : Int := (rna i.natAbs (-k) : Nat)
    (if i < 0 then -r else r, false)

/-- Two FP32 encodings added, one rounding. -/
def f32Add (a b : Nat) : Nat := Fmt.fp32.encode ((Fmt.fp32.decode a).add (Fmt.fp32.decode b))
def f32Sub (a b : Nat) : Nat := Fmt.fp32.encode ((Fmt.fp32.decode a).sub (Fmt.fp32.decode b))
def f32Mul (a b : Nat) : Nat := Fmt.fp32.encode ((Fmt.fp32.decode a).mul (Fmt.fp32.decode b))
def f32Div (a b : Nat) : Nat := Fmt.fp32.encode ((Fmt.fp32.decode a).div (Fmt.fp32.decode b))
def f32Sqrt (a : Nat) : Nat := Fmt.fp32.encode (Fmt.fp32.decode a).sqrt
def f32OfNat (n : Nat) : Nat := Fmt.fp32.encode (FV.ofInt n)

/-- True when an FP32 encoding is a NaN or an infinity. -/
def f32NonFinite (a : Nat) : Bool := (Fmt.fp32.decode a).nonFinite

/-- The largest magnitude among the finite values of a row, zero when there is none. -/
def maxMag (row : List FV) : FV :=
  row.foldl (fun a v => if v.nonFinite then a else if a.lt v.abs then v.abs else a) FV.zero

/-- The per-row shift of a row for an FP8 target (R238): the least s for which A × 2^-s rounds to at most the largest
finite value, held to -128 and 127. -/
def rowShiftFp8 (f : Fmt) (row : List FV) : Int :=
  match maxMag row with
  | .fin _ m e =>
    if m = 0 then 0
    else
      let k : Int := if f.hasInf then 15 else 8
      let s := (Sys2Proof.log2 m : Int) + e - k
      let s := if f.roundMag m (e - s) ≤ f.maxFinite then s else s + 1
      max (-128) (min 127 s)
  | _ => 0

/-- The least s from 0 to 127 for which every value times 2^-s rounds into `w` bits, searched upward (R187). -/
def rowShiftIntFrom (w : Nat) (vals : List FV) : Nat → Nat → Int
  | 0, s => s
  | n + 1, s =>
    if vals.all (fun v => !(satInt w (v.scale (-(s : Int))).toInt).2) then s else rowShiftIntFrom w vals n (s + 1)

/-- The computed shift of a row for an INT8 or INT16 output (R187); infinities and NaNs take no part. -/
def rowShiftInt (w : Nat) (row : List FV) : Int := rowShiftIntFrom w (row.filter (fun v => !v.nonFinite)) 127 0

end Sys2Proof
end

