-- ==== Sys2Proof/Machine/Hash.lean ====
section
/-! DEFINITION. The published hash functions the manual names: SHA-512 (R33, R403, R464) and SHA-512/256 (R418, R421, R465).
Their constants are computed from the primes they are defined by. PRESUMED: the standards themselves (FIPS 180-4); log 9. -/
namespace Sys2Proof

/-- Bits of one hash word. -/
def hw : Nat := 2 ^ 64

def isPrime (n : Nat) : Bool := n ≥ 2 && (rangeFrom 2 (n - 2)).all (fun d => n % d ≠ 0)

/-- The first `n` primes found from `p` upward; `fuel` bounds the search. -/
def primesFrom : Nat → Nat → Nat → List Nat
  | 0, _, _ => []
  | _, 0, _ => []
  | fuel + 1, n + 1, p => if isPrime p then p :: primesFrom fuel n (p + 1) else primesFrom fuel (n + 1) (p + 1)

/-- ⌊∛n⌋, one bit at a time from bit `i`. -/
def icbrtFrom : Nat → Nat → Nat → Nat
  | 0, n, r => if (r + 1) ^ 3 ≤ n then r + 1 else r
  | i + 1, n, r => icbrtFrom i n (if (r + 2 ^ (i + 1)) ^ 3 ≤ n then r + 2 ^ (i + 1) else r)

/-- The 80 round constants of SHA-512: fractional bits of the cube roots of the first 80 primes. -/
def shaK : List Nat := (primesFrom 410 80 2).map (fun p => icbrtFrom 67 (p <<< 192) 0 % hw)

/-- The initial state of SHA-512: fractional bits of the square roots of the first 8 primes. -/
def shaIv : List Nat := (primesFrom 20 8 2).map (fun p => isqrtFrom 67 (p <<< 128) 0 % hw)

def rotr (n v : Nat) : Nat := (v >>> n) ||| ((v <<< (64 - n)) % hw)

/-- The message schedule, newest word first, extended by `n` words. -/
def shaExtend : Nat → List Nat → List Nat
  | 0, w => w
  | n + 1, w =>
    let w2 := w.getD 1 0
    let w7 := w.getD 6 0
    let w15 := w.getD 14 0
    let w16 := w.getD 15 0
    let s0 := (rotr 1 w15 ^^^ rotr 8 w15) ^^^ (w15 >>> 7)
    let s1 := (rotr 19 w2 ^^^ rotr 61 w2) ^^^ (w2 >>> 6)
    shaExtend n (((w16 + s0 + w7 + s1) % hw) :: w)

/-- The eight working words of a round. -/
structure Sha8 where
  a : Nat
  b : Nat
  c : Nat
  d : Nat
  e : Nat
  f : Nat
  g : Nat
  h : Nat

def shaRound (s : Sha8) (kw : Nat × Nat) : Sha8 :=
  let s1 := (rotr 14 s.e ^^^ rotr 18 s.e) ^^^ rotr 41 s.e
  let ch := (s.e &&& s.f) ^^^ ((hw - 1 - s.e) &&& s.g)
  let t1 := s.h + s1 + ch + kw.1 + kw.2
  let s0 := (rotr 28 s.a ^^^ rotr 34 s.a) ^^^ rotr 39 s.a
  let maj := ((s.a &&& s.b) ^^^ (s.a &&& s.c)) ^^^ (s.b &&& s.c)
  { a := (t1 + s0 + maj) % hw, b := s.a, c := s.b, d := s.c, e := (s.d + t1) % hw, f := s.e, g := s.f, h := s.g }

/-- One 128-byte block folded into the state. -/
def shaBlock (k : List Nat) (st : List Nat) (blk : Bytes) : List Nat :=
  let w := ((chunks 8 16 blk).map beNat).reverse
  let ws := (shaExtend 64 w).reverse
  let r := (k.zip ws).foldl shaRound
    { a := st.getD 0 0, b := st.getD 1 0, c := st.getD 2 0, d := st.getD 3 0, e := st.getD 4 0, f := st.getD 5 0,
      g := st.getD 6 0, h := st.getD 7 0 }
  [(st.getD 0 0 + r.a) % hw, (st.getD 1 0 + r.b) % hw, (st.getD 2 0 + r.c) % hw, (st.getD 3 0 + r.d) % hw,
   (st.getD 4 0 + r.e) % hw, (st.getD 5 0 + r.f) % hw, (st.getD 6 0 + r.g) % hw, (st.getD 7 0 + r.h) % hw]

/-- The padded message of SHA-512. -/
def shaPad (m : Bytes) : Bytes :=
  m ++ [0x80] ++ List.replicate ((239 - m.length % 128) % 128) 0 ++ natBe 16 (8 * m.length)

/-- The SHA-512 compression from an initial state, as 64 bytes. -/
def shaWith (iv : List Nat) (m : Bytes) : Bytes :=
  let p := shaPad m
  let k := shaK
  let st := (chunks 128 (p.length / 128) p).foldl (shaBlock k) iv
  (st.map (natBe 8)).flatten

/-- SHA-512. -/
def sha512 (m : Bytes) : Bytes := shaWith shaIv m

/-- The initial state of SHA-512/256, by its generation function. -/
def sha256Iv : List Nat :=
  (chunks 8 8 (shaWith (shaIv.map (· ^^^ 0xA5A5A5A5A5A5A5A5)) (ascii "SHA-512/256"))).map beNat

/-- SHA-512/256. -/
def sha512t256 (m : Bytes) : Bytes := (shaWith sha256Iv m).take 32

/-- One byte into a reflected CRC-32 register. -/
def crcByte (c : Nat) (b : Byte) : Nat :=
  (List.range 8).foldl (fun c _ => if c % 2 = 1 then (c / 2) ^^^ 0xEDB88320 else c / 2) (c ^^^ b.toNat)

/-- CRC-32 of IEEE 802.3: polynomial 0x04C11DB7 taken least significant bit first, preset to ones and complemented
(R349). -/
def crc32 (m : Bytes) : Nat := m.foldl crcByte 0xFFFFFFFF ^^^ 0xFFFFFFFF

end Sys2Proof
end

