-- ==== Sys2Proof/Config.lean ====
section
/-! DEFINITION. What an implementation fixes and the manual does not give, and the free values. Every constant here is opaque:
nothing in Lean can evaluate it, so a claim holds whatever it is. -/
namespace Sys2Proof

/-- The 128-bit serial number in fuses (R49), at least its low bytes; read through `Config.serial`. (notes/assumptions/5.md) -/
opaque Config.serialSource : Nat

/-- The 32-byte seed of the fused Ed25519 identity key (R459). (notes/assumptions/5.md) -/
opaque Config.identitySeedSource : Nat

/-- Silicon stepping, 0x1000.05 (R49). (notes/assumptions/5.md) -/
opaque Config.steppingSource : Nat

/-- Yobisko's IANA enterprise number, 0x1000.06 (R49). (notes/assumptions/5.md) -/
opaque Config.enterpriseSource : Nat

/-- Byte `i` of the `n`-th nonce or random value the device draws (R44, R461). (notes/assumptions/7.md) -/
opaque Config.randomByte : Nat → Nat → Byte

/-- What a counter object reads once a count passes its width: object key, exact count. (notes/assumptions/8.md) -/
opaque Config.counterPast : Nat → Nat → Nat

/-- A fresh value the manual leaves undefined, numbered by the state's free-value counter. (notes/assumptions/8.md) -/
opaque Config.freeNat : Nat → Nat

/-- A fresh undefined byte: free-value number and position. (notes/assumptions/8.md) -/
opaque Config.freeByte : Nat → Nat → Byte

/-- The hash of the tier sketch (R87), which the manual does not give: row, sketch row number. (notes/assumptions/10.md) -/
opaque Config.sketchHash : Nat → Nat → Nat

/-- The fused SHA-512/256 digest of the signing key at a key index, as a number (R465). (notes/assumptions/5.md) -/
opaque Config.fusedKeySource : Nat → Nat

/-- The SHA-512 digest of the boot ROM image, as a number (R462). (notes/assumptions/5.md) -/
opaque Config.romDigestSource : Nat

/-- The certificate chain of the identity area (R460), byte by byte, and its length. (notes/assumptions/5.md) -/
opaque Config.chainByte : Nat → Byte
opaque Config.chainLength : Nat

/-- What the dictionary definitions of an image (part type 5 of R464, whose format the manual does not give) say of a persistent object
(R34): whether they define it, and whether they hold a stored number or stored bytes to be within its range.
(notes/assumptions/102.md) -/
opaque Config.imageDefines : List Byte → Nat → Bool
opaque Config.imageAdmits : List Byte → Nat → Nat → Bool
opaque Config.imageAdmitsBytes : List Byte → Nat → List Byte → Bool

/-- PCI vendor ID, 0x3100.06 (R402). (notes/assumptions/5.md) -/
opaque Config.vendorSource : Nat

/-- What of SPDM rests on secrets or is left to the implementation (R461): byte `i` of the device's secp384r1 public value for the
`n`-th key exchange; byte `i` of the SHA-512 HMAC that the keys of the `n`-th exchange give over a transcript; the heartbeat
period in seconds; and the data transfer size. (notes/assumptions/49.md) -/
opaque Config.dheByte : Nat → Nat → Byte
opaque Config.macByte : Nat → List Byte → Nat → Byte
opaque Config.heartbeatPeriod : Nat
opaque Config.dataTransferSize : Nat

/-- What the mailbox's standard commands leave to the implementation (R394): byte `i` of the 16-byte revision text of a firmware
version; the event log (0 to 3) that records of a code go to; the records a log holds; the command effects of an opcode; and
byte `i` of the UUID of the vendor-defined record. (notes/assumptions/51.md) -/
opaque Config.revisionByte : Nat → Nat → Byte
opaque Config.eventLogOf : Nat → Nat
opaque Config.eventLogSize : Nat → Nat
opaque Config.commandEffects : Nat → Nat
opaque Config.vendorEventByte : Nat → Byte

/-- The 16-byte serial number, little-endian (R4, R49). -/
def Config.serial : Bytes := (List.range 16).map (fun i => BitVec.ofNat 8 (Config.serialSource / 256 ^ i))

/-- The identity key's seed as 32 bytes. -/
def Config.identitySeed : Bytes := (List.range 32).map (fun i => BitVec.ofNat 8 (Config.identitySeedSource / 256 ^ i))

/-- The fused digest of the signing key at a key index. -/
def Config.fusedKey (k : Nat) : Bytes := (List.range 32).map (fun i => BitVec.ofNat 8 (Config.fusedKeySource k / 256 ^ i))

/-- The digest of the boot ROM image. -/
def Config.romDigest : Bytes := (List.range 64).map (fun i => BitVec.ofNat 8 (Config.romDigestSource / 256 ^ i))

/-- The certificate chain. -/
def Config.certChain : Bytes := (List.range Config.chainLength).map Config.chainByte

/-- A 32-byte nonce, the `n`-th value drawn. -/
def Config.nonce (n : Nat) : Bytes := (List.range 32).map (fun i => Config.randomByte n i)

/-- `len` undefined bytes under free-value number `n`. -/
def Config.freeBytes (n len : Nat) : Bytes := (List.range len).map (fun i => Config.freeByte n i)

end Sys2Proof
end

