-- ==== Sys2Proof/Machine/ObjectTable.lean ====
section
/-! DEFINITION. The object dictionary's descriptors (R29 to R34): one row per line of the manual's object tables, with its
index range, subindex range, type, rights, default, range and persistence. The rows are the tables of R28, R49, R74, R105,
R133, R168, R197, R227, R272, R290, R309, R337, R347, R377, R402, R432, R450 and R470. -/
namespace Sys2Proof.Machine

/-- The object types of R30. -/
inductive ObjType where
  | bool | u8 | u16 | u32 | u64 | i8 | i16 | i32 | i64 | f32 | time | string | octets | domain | action
  deriving DecidableEq, Repr

/-- The conditions a Range column may state (R32). -/
inductive ObjRange where
  /-- Any value of the type. -/
  | any
  /-- A span, both ends included. -/
  | span (lo hi : Nat)
  /-- A span, or one further value. -/
  | spanOr (lo hi x : Nat)
  /-- A span in steps from its low end. -/
  | step (lo hi st : Nat)
  /-- The listed codes of an enumerated object; another code is a reserved value. -/
  | codes (l : List Nat)
  /-- The defined bits of a bit-field object; another bit set is a reserved value. -/
  | bits (mask : Nat)
  /-- An alignment and an upper bound, excluded. -/
  | aligned (a below : Nat)
  /-- The length of a string. -/
  | length (lo hi : Nat)
  deriving DecidableEq, Repr

/-- One row of an object table: `base` to `base + n - 1` by `s0` to `s1`, rights coded 0 none, 1 r, 2 w, 3 rw (R40). -/
structure ObjRow where
  base : Nat
  n : Nat
  s0 : Nat
  s1 : Nat
  ty : ObjType
  size : Nat
  host : Nat
  board : Nat
  rack : Nat
  dflt : Nat
  range : ObjRange
  persistent : Bool
  name : String
  deriving DecidableEq, Repr

/-- Objects of R49. -/
def objRows49 : List ObjRow := [
  ⟨0x1000, 1, 1, 1, .string, 0, 1, 1, 1, 0, .any, false, "Vendor"⟩,
  ⟨0x1000, 1, 2, 2, .string, 0, 1, 1, 1, 0, .any, false, "Product"⟩,
  ⟨0x1000, 1, 3, 3, .string, 0, 1, 1, 1, 0, .any, false, "Part number"⟩,
  ⟨0x1000, 1, 4, 4, .octets, 16, 1, 1, 1, 0, .any, false, "Serial number"⟩,
  ⟨0x1000, 1, 5, 5, .u16, 0, 1, 1, 1, 0, .any, false, "Silicon stepping"⟩,
  ⟨0x1000, 1, 6, 6, .u32, 0, 1, 1, 1, 0, .any, false, "Enterprise number"⟩,
  ⟨0x1000, 1, 7, 7, .octets, 32, 1, 1, 1, 0, .any, false, "Identity public key"⟩,
  ⟨0x1001, 1, 1, 1, .u8, 0, 1, 1, 1, 0, .codes [0, 1], false, "Active slot"⟩,
  ⟨0x1001, 1, 2, 2, .u32, 0, 1, 1, 1, 0, .any, false, "Firmware version, slot A"⟩,
  ⟨0x1001, 1, 3, 3, .u32, 0, 1, 1, 1, 0, .any, false, "Firmware version, slot B"⟩,
  ⟨0x1001, 1, 4, 4, .u16, 0, 1, 1, 1, 1, .any, false, "Dictionary version"⟩,
  ⟨0x1001, 1, 5, 5, .u32, 0, 1, 1, 1, 0, .any, true, "Start-up count"⟩,
  ⟨0x1001, 1, 6, 6, .time, 0, 1, 1, 1, 0, .any, false, "Time since start-up"⟩,
  ⟨0x1002, 1, 1, 1, .string, 0, 3, 3, 3, 0, .length 0 64, true, "Asset tag"⟩,
  ⟨0x1002, 1, 2, 2, .string, 0, 3, 3, 3, 0, .length 0 64, true, "Location"⟩,
  ⟨0x1010, 1, 0, 0, .action, 0, 2, 2, 0, 0, .span 0xD5F0 0xD5F0, false, "Restore defaults"⟩,
  ⟨0x1011, 1, 1, 1, .u64, 0, 1, 1, 1, 0, .any, true, "Store writes"⟩,
  ⟨0x1011, 1, 2, 2, .u8, 0, 1, 1, 1, 0, .bits 3, false, "Store copy valid"⟩,
  ⟨0x1080, 1, 1, 1, .u16, 0, 3, 3, 1, 0x88B5, .span 0x600 0xFFFF, true, "Edtal EtherType"⟩,
  ⟨0x1080, 1, 2, 2, .octets, 6, 1, 1, 1, 0, .any, false, "Management MAC"⟩,
  ⟨0x1080, 1, 3, 3, .u16, 0, 3, 3, 1, 60, .span 5 3600, true, "Session idle time"⟩,
  ⟨0x1080, 1, 4, 4, .u8, 0, 1, 1, 1, 0, .span 0 4, false, "Open sessions"⟩,
  ⟨0x1081, 1, 1, 1, .bool, 0, 3, 3, 1, 0, .any, true, "PLCA enable"⟩,
  ⟨0x1081, 1, 2, 2, .u8, 0, 3, 3, 1, 255, .any, true, "PLCA node identifier"⟩,
  ⟨0x1081, 1, 3, 3, .u8, 0, 3, 3, 1, 8, .span 1 255, true, "PLCA node count"⟩,
  ⟨0x1081, 1, 4, 4, .u8, 0, 3, 3, 1, 32, .span 1 255, true, "PLCA transmit opportunity timer"⟩,
  ⟨0x1081, 1, 5, 5, .u8, 0, 3, 3, 1, 0, .any, true, "PLCA maximum burst"⟩,
  ⟨0x1082, 1, 1, 1, .u8, 0, 1, 1, 1, 0, .any, false, "I3C dynamic address"⟩,
  ⟨0x1083, 1, 1, 3, .u64, 0, 1, 1, 1, 0, .any, false, "Requests served"⟩,
  ⟨0x1083, 1, 4, 4, .u64, 0, 1, 1, 1, 0, .any, false, "Authentication failures"⟩,
  ⟨0x1083, 1, 5, 5, .u64, 0, 1, 1, 1, 0, .any, false, "Replays"⟩,
  ⟨0x1083, 1, 6, 6, .u64, 0, 1, 1, 1, 0, .any, false, "Busy refusals"⟩,
  ⟨0x1083, 1, 7, 7, .u64, 0, 1, 1, 1, 0, .any, false, "Foreign frames"⟩,
  ⟨0x5020, 1, 1, 8, .octets, 32, 3, 3, 1, 0, .any, true, "Rack key"⟩]

/-- Objects of R450. -/
def objRows450 : List ObjRow := [
  ⟨0x1100, 1, 1, 1, .u16, 0, 3, 3, 3, 1500, .span 700 1650, true, "Sustained limit"⟩,
  ⟨0x1100, 1, 2, 2, .u16, 0, 1, 1, 1, 1500, .any, false, "Effective limit"⟩,
  ⟨0x1100, 1, 3, 3, .u16, 0, 1, 1, 1, 0, .any, false, "Package power"⟩,
  ⟨0x1100, 1, 4, 4, .u16, 0, 1, 1, 1, 0, .any, false, "Peak power"⟩,
  ⟨0x1100, 1, 5, 5, .u8, 0, 1, 1, 1, 0, .bits 0xF, false, "Levers engaged"⟩,
  ⟨0x1100, 1, 6, 6, .u32, 0, 1, 1, 1, 0, .any, false, "Excess time"⟩,
  ⟨0x1100, 1, 7, 7, .u32, 0, 1, 1, 1, 0, .any, false, "Longest excess"⟩,
  ⟨0x1100, 1, 8, 11, .u64, 0, 1, 1, 1, 0, .any, false, "Lever engagements"⟩,
  ⟨0x1100, 1, 12, 12, .u64, 0, 1, 1, 1, 0, .any, false, "Guarantee suspended"⟩,
  ⟨0x1100, 1, 13, 13, .u64, 0, 1, 1, 1, 0, .any, false, "Metered wait"⟩,
  ⟨0x1110, 8, 1, 1, .i16, 0, 1, 1, 1, 0x8000, .any, false, "Logic temperature"⟩,
  ⟨0x1110, 8, 2, 2, .u8, 0, 1, 1, 1, 0, .bits 0xF, false, "Throttled clusters"⟩,
  ⟨0x1118, 1, 1, 1, .i16, 0, 1, 1, 1, 0x8000, .any, false, "IOD temperature"⟩,
  ⟨0x1120, 1, 1, 1, .i16, 0, 1, 3, 3, 0, .any, false, "Coolant inlet"⟩,
  ⟨0x1120, 1, 2, 2, .u16, 0, 1, 3, 3, 0, .any, false, "Coolant flow"⟩,
  ⟨0x1120, 1, 3, 3, .bool, 0, 1, 1, 1, 0, .any, false, "Coolant report fresh"⟩,
  ⟨0x1130, 1, 1, 3, .u16, 0, 1, 1, 1, 65535, .any, false, "Supply voltage"⟩,
  ⟨0x1130, 1, 4, 4, .u16, 0, 1, 1, 1, 65535, .any, false, "Input current"⟩,
  ⟨0x1260, 1, 1, 1, .u64, 0, 1, 1, 1, 0, .any, false, "Fennel grants"⟩,
  ⟨0x1260, 1, 2, 2, .u64, 0, 1, 1, 1, 0, .any, false, "Grant wait"⟩,
  ⟨0x1260, 1, 3, 3, .u64, 0, 1, 1, 1, 0, .any, false, "Clock gatings"⟩,
  ⟨0x1270, 32, 1, 1, .u16, 0, 1, 1, 1, 840, .any, false, "Cluster voltage"⟩,
  ⟨0x1270, 32, 2, 2, .u16, 0, 1, 1, 1, 2100, .any, false, "Delivered rate"⟩]

/-- Objects of R28. -/
def objRows28 : List ObjRow := [
  ⟨0x1200, 1, 1, 1, .u16, 0, 1, 1, 1, 1600, .any, false, "Fabric clock"⟩,
  ⟨0x1200, 1, 2, 2, .u16, 0, 1, 1, 1, 1200, .any, false, "IOD clock"⟩,
  ⟨0x1200, 1, 3, 3, .u16, 0, 1, 1, 1, 1000, .any, false, "Time base rate"⟩,
  ⟨0x1201, 1, 0, 0, .u64, 0, 1, 1, 1, 0, .any, false, "Time base"⟩,
  ⟨0x1210, 32, 0, 0, .u8, 0, 1, 1, 1, 8, .any, false, "Core count"⟩,
  ⟨0x1210, 32, 1, 8, .u16, 0, 3, 3, 1, 2100, .step 1260 2100 105, false, "Core clock setting"⟩,
  ⟨0x1230, 32, 1, 8, .u16, 0, 1, 1, 1, 2100, .span 1260 2100, false, "Core clock effective"⟩,
  ⟨0x1250, 8, 1, 4, .u8, 0, 1, 1, 1, 4, .codes [0, 1, 2, 3, 4], false, "Compute die module state"⟩,
  ⟨0x1258, 1, 1, 2, .u8, 0, 1, 1, 1, 4, .codes [0, 1, 2, 3, 4], false, "IOD module state"⟩,
  ⟨0x1259, 1, 1, 2, .u64, 0, 1, 1, 1, 0, .any, false, "Module retry count"⟩]

/-- Objects of R470. -/
def objRows470 : List ObjRow := [
  ⟨0x12A0, 1, 1, 1, .u8, 0, 1, 1, 1, 0, .codes [0, 1, 2, 3], false, "Start-up state"⟩,
  ⟨0x12A0, 1, 2, 2, .u16, 0, 1, 1, 1, 0, .any, false, "Stop code"⟩,
  ⟨0x12A0, 1, 3, 3, .time, 0, 1, 1, 1, 0, .any, false, "Usable at"⟩,
  ⟨0x12A0, 1, 4, 4, .u8, 0, 1, 1, 1, 0, .codes [0, 1, 2], false, "Start-up cause"⟩,
  ⟨0x12A1, 1, 0, 0, .action, 0, 2, 2, 0, 0, .span 0 1, false, "Restart"⟩,
  ⟨0x5000, 1, 1, 1, .u8, 0, 1, 1, 1, 0, .codes [0, 1], false, "Preferred slot"⟩,
  ⟨0x5000, 1, 2, 2, .bool, 0, 1, 1, 1, 0, .any, false, "Trial pending"⟩,
  ⟨0x5000, 1, 3, 3, .u32, 0, 1, 1, 1, 0, .any, true, "Fallbacks"⟩,
  ⟨0x5000, 1, 4, 4, .u16, 0, 1, 1, 1, 0, .span 0 64, false, "Running security version"⟩,
  ⟨0x5000, 1, 5, 5, .u16, 0, 1, 1, 1, 0, .span 0 64, false, "Minimum security version"⟩,
  ⟨0x5000, 1, 6, 6, .u8, 0, 1, 1, 1, 0, .bits 0xF, false, "Key revocations"⟩,
  ⟨0x5001, 1, 0, 0, .domain, 0, 2, 2, 0, 0, .any, false, "Image staging"⟩,
  ⟨0x5002, 1, 0, 0, .action, 0, 2, 2, 0, 0, .span 1 2, false, "Slot action"⟩,
  ⟨0x5003, 1, 0, 0, .action, 0, 2, 2, 0, 0, .span 0 64, false, "Commit security version"⟩,
  ⟨0x5004, 1, 0, 0, .domain, 0, 1, 1, 1, 0, .any, false, "Certificate chain"⟩,
  ⟨0x5005, 1, 1, 1, .u8, 0, 1, 1, 1, 0, .span 0 4, false, "SPDM sessions"⟩]

/-- Objects of R74. -/
def objRows74 : List ObjRow := [
  ⟨0x2000, 1, 1, 1, .action, 0, 2, 2, 0, 0, .any, false, "Tenancy start"⟩,
  ⟨0x2000, 1, 2, 2, .action, 0, 2, 2, 0, 0, .any, false, "Tenancy end"⟩,
  ⟨0x2000, 1, 3, 3, .u8, 0, 1, 1, 1, 0, .codes [0, 1, 2], false, "Tenancy state"⟩,
  ⟨0x2000, 1, 4, 4, .u32, 0, 1, 1, 1, 0, .any, true, "Tenancy number"⟩,
  ⟨0x2000, 1, 5, 5, .u32, 0, 1, 1, 1, 0, .any, false, "Owner identifier"⟩,
  ⟨0x2000, 1, 6, 6, .time, 0, 1, 1, 1, 0, .any, false, "Tenancy start time"⟩,
  ⟨0x2000, 1, 7, 7, .u8, 0, 1, 1, 1, 0, .span 0 64, false, "Open jobs"⟩,
  ⟨0x2000, 1, 8, 8, .u32, 0, 1, 1, 1, 0, .any, false, "Execution faults"⟩,
  ⟨0x2010, 64, 1, 1, .u8, 0, 1, 1, 1, 0, .codes [0, 1, 2, 3], false, "Job state"⟩,
  ⟨0x2010, 64, 2, 2, .u8, 0, 3, 3, 1, 1, .codes [0, 1], false, "Job class"⟩,
  ⟨0x2010, 64, 3, 3, .bool, 0, 3, 3, 0, 0, .any, false, "Verified"⟩,
  ⟨0x2010, 64, 4, 4, .action, 0, 2, 2, 0, 0, .span 0 0, false, "Open"⟩,
  ⟨0x2010, 64, 5, 5, .action, 0, 2, 2, 0, 0, .span 0 0, false, "Close"⟩,
  ⟨0x2010, 64, 6, 6, .time, 0, 1, 1, 1, 0, .any, false, "Opened at"⟩,
  ⟨0x2100, 1, 1, 1, .u32, 0, 3, 1, 1, 100000, .span 1000 60000000, false, "Epoch period"⟩,
  ⟨0x2100, 1, 2, 2, .time, 0, 3, 1, 1, 0, .any, false, "Epoch origin"⟩,
  ⟨0x2100, 1, 3, 3, .bool, 0, 3, 1, 1, 0, .any, false, "Epochs running"⟩,
  ⟨0x2100, 1, 4, 4, .u64, 0, 1, 1, 1, 0, .any, false, "Current epoch"⟩,
  ⟨0x2100, 1, 5, 5, .time, 0, 1, 1, 1, 0, .any, false, "Current boundary"⟩,
  ⟨0x2100, 1, 6, 6, .time, 0, 1, 1, 1, 0, .any, false, "Next boundary"⟩,
  ⟨0x2100, 1, 7, 7, .bool, 0, 1, 1, 1, 0, .any, false, "Apply phase active"⟩,
  ⟨0x2101, 1, 1, 1, .u8, 0, 3, 3, 1, 0, .codes [0, 1], true, "Sync mode"⟩,
  ⟨0x2101, 1, 2, 2, .u32, 0, 3, 3, 1, 0, .span 0 10000, true, "Sync delay"⟩,
  ⟨0x2101, 1, 3, 3, .u64, 0, 1, 1, 1, 0, .any, false, "Pulses accepted"⟩,
  ⟨0x2101, 1, 4, 4, .u64, 0, 1, 1, 1, 0, .any, false, "Pulses ignored"⟩,
  ⟨0x2101, 1, 6, 6, .u64, 0, 1, 1, 1, 0, .any, false, "Windows missed"⟩,
  ⟨0x2101, 1, 7, 7, .time, 0, 1, 1, 1, 0, .any, false, "Last pulse"⟩,
  ⟨0x2101, 1, 8, 8, .bool, 0, 3, 3, 1, 0, .any, true, "SYNC_OUT enable"⟩,
  ⟨0x2102, 1, 1, 1, .bool, 0, 1, 1, 1, 0, .any, false, "Time aligned"⟩,
  ⟨0x2102, 1, 2, 2, .i32, 0, 1, 1, 1, 0, .any, false, "Parent offset"⟩,
  ⟨0x2102, 1, 3, 3, .octets, 16, 1, 1, 1, 0, .any, false, "Root serial"⟩,
  ⟨0x2102, 1, 4, 4, .u64, 0, 1, 1, 1, 0, .any, false, "Alignment losses"⟩,
  ⟨0x6000, 65, 1, 1, .u64, 0, 1, 1, 1, 0, .any, false, "Matrix engine time"⟩,
  ⟨0x6000, 65, 2, 2, .u64, 0, 1, 1, 1, 0, .any, false, "Vector engine time"⟩,
  ⟨0x6000, 65, 3, 3, .u64, 0, 1, 1, 1, 0, .any, false, "Stream engine time"⟩,
  ⟨0x6000, 65, 4, 4, .u64, 0, 1, 1, 1, 0, .any, false, "Lookup engine time"⟩,
  ⟨0x6000, 65, 5, 5, .u64, 0, 1, 1, 1, 0, .any, false, "Row-merge unit time"⟩,
  ⟨0x6000, 65, 6, 6, .u64, 0, 1, 1, 1, 0, .any, false, "Commands completed"⟩,
  ⟨0x6000, 65, 7, 7, .u64, 0, 1, 1, 1, 0, .any, false, "Memory bytes read"⟩,
  ⟨0x6000, 65, 8, 8, .u64, 0, 1, 1, 1, 0, .any, false, "Memory bytes written"⟩]

/-- Objects of R74. -/
def objRows74part1 : List ObjRow := [
  ⟨0x6000, 65, 9, 9, .u64, 0, 1, 1, 1, 0, .any, false, "Varx bytes sent"⟩,
  ⟨0x6000, 65, 10, 10, .u64, 0, 1, 1, 1, 0, .any, false, "Host bytes"⟩,
  ⟨0x6000, 65, 11, 11, .u64, 0, 1, 1, 1, 0, .any, false, "Rows gathered"⟩,
  ⟨0x6000, 65, 12, 12, .u64, 0, 1, 1, 1, 0, .any, false, "Overrun charged"⟩,
  ⟨0x6041, 1, 0, 0, .action, 0, 2, 2, 0, 0, .span 0 64, false, "Accounting snapshot"⟩,
  ⟨0x6042, 1, 1, 12, .u64, 0, 1, 1, 1, 0, .any, false, "Snapshot counters"⟩,
  ⟨0x6042, 1, 13, 13, .time, 0, 1, 1, 1, 0, .any, false, "Snapshot time"⟩,
  ⟨0x6042, 1, 14, 14, .u8, 0, 1, 1, 1, 0, .span 0 64, false, "Snapshot account"⟩]

/-- Objects of R105. -/
def objRows105 : List ObjRow := [
  ⟨0x2200, 1, 1, 1, .u16, 0, 1, 1, 1, 0, .span 0 1024, false, "Tables ready"⟩,
  ⟨0x2200, 1, 2, 2, .u32, 0, 1, 1, 1, 0, .span 0 65536, false, "Replicated rows"⟩,
  ⟨0x2201, 1, 0, 0, .action, 0, 2, 2, 0, 0, .span 0 1023, false, "Table snapshot"⟩,
  ⟨0x2202, 1, 1, 1, .u16, 0, 1, 1, 1, 0, .span 0 1023, false, "Snapshot table"⟩,
  ⟨0x2202, 1, 2, 2, .u8, 0, 1, 1, 1, 0, .codes [0, 1, 2, 3], false, "State"⟩,
  ⟨0x2202, 1, 3, 3, .u8, 0, 1, 1, 1, 0, .codes [0, 1, 2, 3], false, "Class"⟩,
  ⟨0x2202, 1, 4, 4, .u64, 0, 1, 1, 1, 0, .any, false, "Rows"⟩,
  ⟨0x2202, 1, 5, 5, .u64, 0, 1, 1, 1, 0, .any, false, "Sentinel reads"⟩,
  ⟨0x2202, 1, 6, 6, .u64, 0, 1, 1, 1, 0, .any, false, "Negative reads"⟩,
  ⟨0x2202, 1, 7, 7, .u64, 0, 1, 1, 1, 0, .any, false, "Out-of-range reads"⟩,
  ⟨0x2202, 1, 8, 8, .u64, 0, 1, 1, 1, 0, .any, false, "Unallocated reads"⟩,
  ⟨0x2202, 1, 9, 11, .u32, 0, 1, 1, 1, 0, .any, false, "Slots in use"⟩,
  ⟨0x2202, 1, 12, 12, .u64, 0, 1, 1, 1, 0, .any, false, "Promotions"⟩,
  ⟨0x2202, 1, 13, 13, .u64, 0, 1, 1, 1, 0, .any, false, "Demotions"⟩,
  ⟨0x2202, 1, 14, 14, .u64, 0, 1, 1, 1, 0, .any, false, "Moves deferred"⟩,
  ⟨0x2202, 1, 15, 15, .u64, 0, 1, 1, 1, 0, .any, false, "Allocation failures"⟩,
  ⟨0x2202, 1, 16, 16, .u64, 0, 1, 1, 1, 0, .any, false, "Rows skipped or rejected"⟩,
  ⟨0x2202, 1, 17, 17, .u32, 0, 1, 1, 1, 0, .span 0 65536, false, "Replicated rows"⟩,
  ⟨0x2202, 1, 18, 18, .time, 0, 1, 1, 1, 0, .any, false, "Snapshot time"⟩]

/-- Objects of R133. -/
def objRows133 : List ObjRow := [
  ⟨0x2202, 1, 19, 19, .u64, 0, 1, 1, 1, 0, .any, false, "Remote skips"⟩,
  ⟨0x2202, 1, 20, 20, .u64, 0, 1, 1, 1, 0, .any, false, "Entries dropped"⟩,
  ⟨0x2202, 1, 21, 21, .u64, 0, 1, 1, 1, 0, .any, false, "Members timed out"⟩,
  ⟨0x2202, 1, 22, 22, .u64, 0, 1, 1, 1, 0, .any, false, "Late slices"⟩,
  ⟨0x2202, 1, 23, 23, .u64, 0, 1, 1, 1, 0, .any, false, "Malformed bags"⟩,
  ⟨0x2202, 1, 24, 24, .u64, 0, 1, 1, 1, 0, .any, false, "Non-finite bags"⟩,
  ⟨0x2203, 1, 0, 0, .domain, 0, 1, 1, 1, 0, .any, false, "Drops by destination"⟩,
  ⟨0x2210, 1, 1, 1, .u32, 0, 3, 3, 1, 2000, .span 100 8000, true, "Exchange timeout"⟩,
  ⟨0x6100, 64, 1, 1, .u64, 0, 1, 1, 1, 0, .any, false, "Rows gathered"⟩,
  ⟨0x6100, 64, 2, 2, .u64, 0, 1, 1, 1, 0, .any, false, "Bytes gathered"⟩,
  ⟨0x6100, 64, 3, 3, .u64, 0, 1, 1, 1, 0, .any, false, "Commands completed"⟩,
  ⟨0x6100, 64, 4, 4, .u64, 0, 1, 1, 1, 0, .any, false, "Default reads"⟩,
  ⟨0x6100, 64, 5, 5, .u64, 0, 1, 1, 1, 0, .any, false, "Slices sent"⟩,
  ⟨0x6100, 64, 6, 6, .u64, 0, 1, 1, 1, 0, .any, false, "Slices served"⟩,
  ⟨0x6100, 64, 7, 7, .u16, 0, 1, 1, 1, 0, .span 0 1024, false, "Peak rows in flight"⟩]

/-- Objects of R168. -/
def objRows168 : List ObjRow := [
  ⟨0x2300, 1, 1, 1, .u8, 0, 3, 3, 1, 2, .span 0 12, true, "Merge area size"⟩,
  ⟨0x2300, 1, 2, 2, .u32, 0, 1, 1, 1, 0, .any, false, "Largest update budget"⟩,
  ⟨0x2300, 1, 3, 3, .u64, 0, 1, 1, 1, 0, .any, false, "Apply phases"⟩,
  ⟨0x2300, 1, 4, 4, .u32, 0, 1, 1, 1, 0, .any, false, "Last apply duration"⟩,
  ⟨0x2302, 1, 1, 1, .u64, 0, 1, 1, 1, 0, .any, false, "Pushes admitted"⟩,
  ⟨0x2302, 1, 2, 2, .u64, 0, 1, 1, 1, 0, .any, false, "Sequence refusals"⟩,
  ⟨0x2302, 1, 3, 3, .u64, 0, 1, 1, 1, 0, .any, false, "Contributions delivered"⟩,
  ⟨0x2302, 1, 4, 4, .u64, 0, 1, 1, 1, 0, .any, false, "Default-row contributions"⟩,
  ⟨0x2302, 1, 5, 5, .u64, 0, 1, 1, 1, 0, .any, false, "Gradient rows rejected"⟩,
  ⟨0x2302, 1, 6, 6, .u64, 0, 1, 1, 1, 0, .any, false, "Merge overflow"⟩,
  ⟨0x2302, 1, 7, 7, .u64, 0, 1, 1, 1, 0, .any, false, "Rows applied"⟩,
  ⟨0x2302, 1, 8, 8, .u64, 0, 1, 1, 1, 0, .any, false, "Rows carried"⟩,
  ⟨0x2302, 1, 9, 9, .u64, 0, 1, 1, 1, 0, .any, false, "Non-finite updates"⟩,
  ⟨0x2302, 1, 10, 10, .u64, 0, 1, 1, 1, 0, .any, false, "State saturations"⟩,
  ⟨0x2302, 1, 11, 11, .u64, 0, 1, 1, 1, 0, .any, false, "Conversion failures"⟩,
  ⟨0x2302, 1, 12, 12, .u64, 0, 1, 1, 1, 0, .any, false, "Entries left outbound"⟩,
  ⟨0x2302, 1, 13, 13, .u64, 0, 1, 1, 1, 0, .any, false, "Late update slices"⟩,
  ⟨0x2302, 1, 14, 14, .u64, 0, 1, 1, 1, 0, .any, false, "Epoch skew slices"⟩,
  ⟨0x2302, 1, 15, 15, .u64, 0, 1, 1, 1, 0, .any, false, "Exchange members timed out"⟩,
  ⟨0x2302, 1, 16, 16, .u64, 0, 1, 1, 1, 0, .any, false, "Refresh markers missing"⟩,
  ⟨0x2302, 1, 17, 17, .u64, 0, 1, 1, 1, 0, .any, false, "Budget overruns"⟩,
  ⟨0x2302, 1, 18, 18, .f32, 0, 1, 1, 1, 0, .any, false, "Learning rate"⟩,
  ⟨0x2302, 1, 19, 19, .f32, 0, 1, 1, 1, 0x322BCC77, .any, false, "Epsilon"⟩,
  ⟨0x2302, 1, 20, 20, .u32, 0, 1, 1, 1, 500, .any, false, "Update budget"⟩,
  ⟨0x2302, 1, 21, 21, .u32, 0, 1, 1, 1, 0, .any, false, "Entries spilled"⟩,
  ⟨0x2310, 1, 1, 1, .u32, 0, 3, 3, 1, 2000, .span 100 8000, true, "Update exchange timeout"⟩,
  ⟨0x6200, 32, 1, 1, .u64, 0, 1, 1, 1, 0, .any, false, "Contributions folded"⟩,
  ⟨0x6200, 32, 2, 2, .u64, 0, 1, 1, 1, 0, .any, false, "Rows applied"⟩,
  ⟨0x6200, 32, 3, 3, .u64, 0, 1, 1, 1, 0, .any, false, "Apply time"⟩,
  ⟨0x6200, 32, 4, 4, .u32, 0, 1, 1, 1, 0, .any, false, "Peak entries"⟩,
  ⟨0x6200, 32, 5, 5, .u64, 0, 1, 1, 1, 0, .any, false, "Spill bytes"⟩]

/-- Objects of R197. -/
def objRows197 : List ObjRow := [
  ⟨0x2400, 1, 1, 1, .u64, 0, 1, 1, 1, 0, .any, false, "Non-finite outputs"⟩,
  ⟨0x2400, 1, 2, 2, .u64, 0, 1, 1, 1, 0, .any, false, "Saturated outputs"⟩,
  ⟨0x2401, 1, 1, 1, .bool, 0, 3, 3, 0, 0, .any, false, "Matrix debug"⟩,
  ⟨0x6300, 256, 1, 1, .u64, 0, 1, 1, 1, 0, .any, false, "Passes"⟩,
  ⟨0x6300, 256, 2, 2, .u64, 0, 1, 1, 1, 0, .any, false, "MACs issued"⟩,
  ⟨0x6300, 256, 3, 3, .u64, 0, 1, 1, 1, 0, .any, false, "MACs gated"⟩,
  ⟨0x6300, 256, 4, 4, .u64, 0, 1, 1, 1, 0, .any, false, "Feeder stall cycles"⟩,
  ⟨0x6300, 256, 5, 5, .u64, 0, 1, 1, 1, 0, .any, false, "Weight tiles loaded"⟩,
  ⟨0x6300, 256, 6, 6, .u64, 0, 1, 1, 1, 0, .any, false, "Weight loads skipped"⟩,
  ⟨0x6300, 256, 7, 7, .u64, 0, 1, 1, 1, 0, .any, false, "Non-finite outputs"⟩,
  ⟨0x6300, 256, 8, 8, .u64, 0, 1, 1, 1, 0, .any, false, "Saturated outputs"⟩]

/-- Objects of R227. -/
def objRows227 : List ObjRow := [
  ⟨0x2410, 1, 1, 1, .u64, 0, 1, 1, 1, 0, .any, false, "Non-finite stores"⟩,
  ⟨0x2410, 1, 2, 2, .u64, 0, 1, 1, 1, 0, .any, false, "Saturated stores"⟩,
  ⟨0x6400, 256, 1, 1, .u64, 0, 1, 1, 1, 0, .any, false, "Groups"⟩,
  ⟨0x6400, 256, 2, 2, .u64, 0, 1, 1, 1, 0, .any, false, "Instructions"⟩,
  ⟨0x6400, 256, 3, 3, .u64, 0, 1, 1, 1, 0, .any, false, "Elements suppressed"⟩,
  ⟨0x6400, 256, 4, 4, .u64, 0, 1, 1, 1, 0, .any, false, "Row sums"⟩,
  ⟨0x6400, 256, 5, 5, .u64, 0, 1, 1, 1, 0, .any, false, "Reduction hold cycles"⟩,
  ⟨0x6400, 256, 6, 6, .u64, 0, 1, 1, 1, 0, .any, false, "Slot mismatches"⟩,
  ⟨0x6400, 256, 7, 7, .u64, 0, 1, 1, 1, 0, .any, false, "Non-finite stores"⟩,
  ⟨0x6400, 256, 8, 8, .u64, 0, 1, 1, 1, 0, .any, false, "Saturated stores"⟩,
  ⟨0x6400, 256, 9, 9, .u64, 0, 1, 1, 1, 0, .any, false, "Programs loaded"⟩]

/-- Objects of R272. -/
def objRows272 : List ObjRow := [
  ⟨0x2500, 1, 1, 1, .u8, 0, 3, 3, 1, 0, .span 0 32, true, "Package-spread size"⟩,
  ⟨0x2500, 1, 2, 2, .u64, 0, 1, 1, 1, 0x1800000000, .any, false, "Spread region offset"⟩,
  ⟨0x2500, 1, 3, 3, .u64, 0, 1, 1, 1, 0, .any, false, "Usable memory"⟩,
  ⟨0x2501, 1, 1, 1, .u16, 0, 3, 3, 1, 480, .span 15 1440, true, "Scrub period"⟩,
  ⟨0x2501, 1, 2, 2, .u64, 0, 1, 1, 1, 0, .any, false, "Scrub passes"⟩,
  ⟨0x2501, 1, 3, 3, .time, 0, 1, 1, 1, 0, .any, false, "Last pass completed"⟩,
  ⟨0x2502, 1, 1, 1, .u8, 0, 3, 3, 1, 2, .span 2 20, true, "Class-2 floor"⟩,
  ⟨0x2503, 1, 1, 1, .u8, 0, 3, 3, 1, 3, .span 2 16, true, "Retirement threshold"⟩,
  ⟨0x2503, 1, 2, 2, .u16, 0, 1, 1, 1, 0, .span 0 1024, false, "Retired pages"⟩,
  ⟨0x2503, 1, 3, 3, .u16, 0, 1, 1, 1, 0, .any, false, "Pending pages"⟩,
  ⟨0x2503, 1, 4, 4, .domain, 0, 1, 1, 1, 0, .any, false, "Retired list"⟩,
  ⟨0x2503, 1, 5, 5, .domain, 0, 1, 1, 1, 0, .any, false, "Pending list"⟩,
  ⟨0x2503, 1, 6, 6, .action, 0, 2, 2, 0, 0, .span 0 393215, false, "Retire now"⟩,
  ⟨0x2510, 32, 1, 1, .i16, 0, 1, 1, 1, 0x8000, .any, false, "Stack temperature"⟩,
  ⟨0x2510, 32, 2, 2, .u8, 0, 1, 1, 1, 1, .codes [1, 2], false, "Refresh rate"⟩,
  ⟨0x6500, 32, 1, 1, .u64, 0, 1, 1, 1, 0, .any, false, "Corrected errors"⟩,
  ⟨0x6500, 32, 2, 2, .u64, 0, 1, 1, 1, 0, .any, false, "Uncorrectable errors"⟩,
  ⟨0x6500, 32, 3, 3, .u64, 0, 1, 1, 1, 0, .any, false, "Narrow writes rejected"⟩,
  ⟨0x6500, 32, 4, 6, .u64, 0, 1, 1, 1, 0, .any, false, "Bytes read"⟩,
  ⟨0x6500, 32, 7, 9, .u64, 0, 1, 1, 1, 0, .any, false, "Bytes written"⟩,
  ⟨0x6500, 32, 10, 10, .u64, 0, 1, 1, 1, 0, .any, false, "Class-2 floor intervals"⟩,
  ⟨0x6500, 32, 11, 11, .u64, 0, 1, 1, 1, 0, .any, false, "Doubled refresh time"⟩]

/-- Objects of R290. -/
def objRows290 : List ObjRow := [
  ⟨0x2600, 1, 1, 1, .u64, 0, 1, 1, 1, 0, .any, false, "HDM base"⟩,
  ⟨0x2600, 1, 2, 2, .u64, 0, 1, 1, 1, 0, .any, false, "Invalidations completed"⟩,
  ⟨0x2600, 1, 3, 3, .action, 0, 2, 2, 0, 0, .span 0 255, false, "Invalidate tag"⟩,
  ⟨0x2601, 1, 1, 1, .u64, 0, 1, 1, 1, 0, .any, false, "Migrations completed"⟩,
  ⟨0x2601, 1, 2, 2, .u64, 0, 1, 1, 1, 0, .any, false, "Migrations failed"⟩,
  ⟨0x2601, 1, 3, 3, .u32, 0, 1, 1, 1, 0, .any, false, "Last migration time"⟩,
  ⟨0x2601, 1, 4, 4, .u64, 0, 1, 1, 1, 0, .any, false, "Migration starts ignored"⟩,
  ⟨0x2610, 64, 1, 1, .u64, 0, 3, 3, 0, 0, .aligned 0x1000 0xC000000000, false, "Page-table root"⟩,
  ⟨0x6600, 64, 1, 1, .u64, 0, 1, 1, 1, 0, .any, false, "TLB misses"⟩,
  ⟨0x6600, 64, 2, 2, .u64, 0, 1, 1, 1, 0, .any, false, "Walks"⟩,
  ⟨0x6600, 64, 3, 3, .u64, 0, 1, 1, 1, 0, .any, false, "Resolvable faults"⟩,
  ⟨0x6600, 64, 4, 4, .u64, 0, 1, 1, 1, 0, .any, false, "Unresolvable faults"⟩,
  ⟨0x6600, 64, 5, 5, .u64, 0, 1, 1, 1, 0, .any, false, "Resumes"⟩,
  ⟨0x6600, 64, 6, 6, .u64, 0, 1, 1, 1, 0, .any, false, "Pages migrated"⟩]

/-- Objects of R337. -/
def objRows337 : List ObjRow := [
  ⟨0x2700, 1, 1, 1, .u32, 0, 3, 3, 1, 100000, .span 100 60000000, true, "Fence timeout"⟩,
  ⟨0x2700, 1, 2, 2, .u32, 0, 3, 3, 1, 100, .span 10 10000, true, "Visibility window"⟩,
  ⟨0x2700, 1, 3, 3, .u16, 0, 1, 1, 1, 0, .span 0 1024, false, "Queues enabled"⟩,
  ⟨0x2701, 1, 0, 0, .action, 0, 2, 2, 0, 0, .span 0 1023, false, "Queue snapshot"⟩,
  ⟨0x2702, 1, 1, 1, .u16, 0, 1, 1, 1, 0, .span 0 1023, false, "Snapshot queue"⟩,
  ⟨0x2702, 1, 2, 2, .u8, 0, 1, 1, 1, 0, .codes [0, 1, 2, 3, 4, 5], false, "State"⟩,
  ⟨0x2702, 1, 3, 3, .u64, 0, 1, 1, 1, 0, .any, false, "Head"⟩,
  ⟨0x2702, 1, 4, 4, .u64, 0, 1, 1, 1, 0, .any, false, "Accepted tail"⟩,
  ⟨0x2702, 1, 5, 5, .u16, 0, 1, 1, 1, 0, .any, false, "Error"⟩,
  ⟨0x2702, 1, 6, 6, .time, 0, 1, 1, 1, 0, .any, false, "Snapshot time"⟩,
  ⟨0x2710, 1, 0, 0, .domain, 0, 1, 1, 1, 0, .any, false, "Fences"⟩,
  ⟨0x6800, 1024, 1, 1, .u64, 0, 1, 1, 1, 0, .any, false, "Launches completed"⟩,
  ⟨0x6800, 1024, 2, 2, .u64, 0, 1, 1, 1, 0, .any, false, "Commands completed"⟩,
  ⟨0x6800, 1024, 3, 3, .u64, 0, 1, 1, 1, 0, .any, false, "Doorbells accepted"⟩,
  ⟨0x6800, 1024, 4, 4, .u64, 0, 1, 1, 1, 0, .any, false, "Duplicate doorbells"⟩,
  ⟨0x6800, 1024, 5, 5, .u64, 0, 1, 1, 1, 0, .any, false, "Doorbells ignored"⟩,
  ⟨0x6800, 1024, 6, 6, .u64, 0, 1, 1, 1, 0, .any, false, "Slot re-reads"⟩,
  ⟨0x6800, 1024, 7, 7, .u64, 0, 1, 1, 1, 0, .any, false, "Queue errors"⟩]

/-- Objects of R347. -/
def objRows347 : List ObjRow := [
  ⟨0x2711, 1, 1, 1, .u8, 0, 3, 3, 1, 5, .span 0 50, true, "Background floor"⟩,
  ⟨0x2711, 1, 2, 2, .u64, 0, 1, 1, 1, 0, .any, false, "Watchdog expiries"⟩,
  ⟨0x2711, 1, 3, 3, .u64, 0, 1, 1, 1, 0, .any, false, "Recoveries completed"⟩,
  ⟨0x2711, 1, 4, 4, .u32, 0, 1, 1, 1, 0, .any, false, "Last recovery duration"⟩,
  ⟨0x2711, 1, 5, 5, .bool, 0, 1, 1, 1, 0, .any, false, "Recovery in progress"⟩,
  ⟨0x2720, 64, 1, 1, .u16, 0, 3, 3, 1, 20, .span 1 10000, false, "Slice"⟩,
  ⟨0x6C00, 64, 1, 1, .u64, 0, 1, 1, 1, 0, .any, false, "Turns"⟩,
  ⟨0x6C00, 64, 2, 2, .u64, 0, 1, 1, 1, 0, .any, false, "Turns skipped"⟩,
  ⟨0x6C00, 64, 3, 3, .u64, 0, 1, 1, 1, 0, .any, false, "Yields"⟩,
  ⟨0x6C00, 64, 4, 4, .u64, 0, 1, 1, 1, 0, .any, false, "Floor turns"⟩]

/-- Objects of R377. -/
def objRows377 : List ObjRow := [
  ⟨0x3000, 1, 1, 1, .u8, 0, 3, 3, 1, 1, .span 1 16, true, "X extent"⟩,
  ⟨0x3000, 1, 2, 2, .u8, 0, 3, 3, 1, 1, .span 1 16, true, "Y extent"⟩,
  ⟨0x3000, 1, 3, 3, .u8, 0, 3, 3, 1, 1, .span 1 16, true, "Z extent"⟩,
  ⟨0x3000, 1, 4, 4, .u8, 0, 3, 3, 1, 0, .bits 7, true, "Ring axes"⟩,
  ⟨0x3001, 1, 1, 1, .u8, 0, 1, 1, 1, 0, .codes [0, 1, 2, 3, 4], false, "Discovery state"⟩,
  ⟨0x3001, 1, 2, 2, .u16, 0, 1, 1, 1, 0, .span 0 4095, false, "Chip id"⟩,
  ⟨0x3001, 1, 3, 5, .u8, 0, 1, 1, 1, 0, .span 0 15, false, "Coordinates"⟩,
  ⟨0x3001, 1, 6, 6, .u16, 0, 1, 1, 1, 1, .span 1 4096, false, "Packages present"⟩,
  ⟨0x3001, 1, 7, 7, .u16, 0, 1, 1, 1, 0, .bits 0xFF07, false, "Discovery error"⟩,
  ⟨0x3001, 1, 8, 8, .domain, 0, 1, 1, 1, 0, .any, false, "Present set"⟩,
  ⟨0x3001, 1, 9, 9, .time, 0, 1, 1, 1, 0, .any, false, "Settled at"⟩,
  ⟨0x3010, 1, 1, 1, .u32, 0, 3, 3, 1, 2000, .span 100 8000, true, "Collective timeout"⟩,
  ⟨0x3020, 6, 1, 1, .u8, 0, 1, 1, 1, 0, .codes [0, 1, 2, 3], false, "Port state"⟩,
  ⟨0x3020, 6, 2, 2, .octets, 16, 1, 1, 1, 0, .any, false, "Partner serial"⟩,
  ⟨0x3020, 6, 3, 3, .u8, 0, 1, 1, 1, 0, .span 0 5, false, "Partner port"⟩,
  ⟨0x6D00, 6, 1, 1, .u64, 0, 1, 1, 1, 0, .any, false, "Frames sent"⟩,
  ⟨0x6D00, 6, 2, 2, .u64, 0, 1, 1, 1, 0, .any, false, "Frames received"⟩,
  ⟨0x6D00, 6, 3, 3, .u64, 0, 1, 1, 1, 0, .any, false, "CRC errors"⟩,
  ⟨0x6D00, 6, 4, 4, .u64, 0, 1, 1, 1, 0, .any, false, "Replays"⟩,
  ⟨0x6D00, 6, 5, 5, .u64, 0, 1, 1, 1, 0, .any, false, "FEC corrected codewords"⟩,
  ⟨0x6D00, 6, 6, 6, .u64, 0, 1, 1, 1, 0, .any, false, "FEC uncorrectable codewords"⟩,
  ⟨0x6D00, 6, 7, 7, .u64, 0, 1, 1, 1, 0, .any, false, "Payload bytes sent"⟩,
  ⟨0x6D00, 6, 8, 8, .u64, 0, 1, 1, 1, 0, .any, false, "Payload bytes received"⟩,
  ⟨0x6D00, 6, 9, 9, .u64, 0, 1, 1, 1, 0, .any, false, "Link downs"⟩,
  ⟨0x6D00, 6, 10, 10, .u64, 0, 1, 1, 1, 0, .any, false, "Leek slot waits"⟩,
  ⟨0x6D10, 16, 1, 1, .u64, 0, 1, 1, 1, 0, .any, false, "Operations completed"⟩,
  ⟨0x6D10, 16, 2, 2, .u64, 0, 1, 1, 1, 0, .any, false, "Collectives timed out"⟩,
  ⟨0x6D10, 16, 3, 3, .u64, 0, 1, 1, 1, 0, .any, false, "Late frames"⟩,
  ⟨0x6D10, 16, 4, 4, .u64, 0, 1, 1, 1, 0, .any, false, "Mismatched frames"⟩,
  ⟨0x6D10, 16, 5, 5, .u64, 0, 1, 1, 1, 0, .any, false, "Credit wait"⟩]

/-- Objects of R402. -/
def objRows402 : List ObjRow := [
  ⟨0x3100, 1, 1, 1, .u8, 0, 1, 1, 1, 0, .codes [0, 1, 2], false, "Host state"⟩,
  ⟨0x3100, 1, 2, 2, .u8, 0, 1, 1, 1, 0, .codes [0, 4, 8, 16], false, "Link width"⟩,
  ⟨0x3100, 1, 3, 3, .u8, 0, 1, 1, 1, 0, .codes [0, 8, 16, 32, 64], false, "Link rate"⟩,
  ⟨0x3100, 1, 4, 4, .u8, 0, 3, 3, 0, 0, .bits 3, true, "IDE required"⟩,
  ⟨0x3100, 1, 5, 5, .u8, 0, 1, 1, 1, 0, .bits 3, false, "IDE active"⟩,
  ⟨0x3100, 1, 6, 6, .u16, 0, 1, 1, 1, 0, .any, false, "PCI vendor ID"⟩,
  ⟨0x3101, 1, 1, 1, .u64, 0, 1, 1, 1, 0, .any, false, "Link losses"⟩,
  ⟨0x3101, 1, 2, 2, .u64, 0, 1, 1, 1, 0, .any, false, "Recoveries"⟩,
  ⟨0x3101, 1, 3, 3, .u64, 0, 1, 1, 1, 0, .any, false, "Attachments"⟩,
  ⟨0x3101, 1, 4, 4, .u64, 0, 1, 1, 1, 0, .any, false, "Writes discarded"⟩,
  ⟨0x3101, 1, 5, 5, .u64, 0, 1, 1, 1, 0, .any, false, "Bytes discarded"⟩,
  ⟨0x3101, 1, 6, 6, .u16, 0, 1, 1, 1, 0, .span 0 4096, false, "Log records"⟩,
  ⟨0x3101, 1, 7, 7, .u64, 0, 1, 1, 1, 0, .any, false, "Ranges lost"⟩,
  ⟨0x3101, 1, 8, 8, .time, 0, 1, 1, 1, 0, .any, false, "First lost"⟩,
  ⟨0x3101, 1, 9, 9, .time, 0, 1, 1, 1, 0, .any, false, "Last lost"⟩,
  ⟨0x3102, 1, 0, 0, .domain, 0, 1, 1, 1, 0, .any, false, "Discard log"⟩,
  ⟨0x3103, 1, 1, 1, .u64, 0, 1, 1, 1, 0, .any, false, "Partial host writes"⟩,
  ⟨0x3103, 1, 2, 2, .u64, 0, 1, 1, 1, 0, .any, false, "Poisoned returns"⟩,
  ⟨0x3103, 1, 3, 3, .u64, 0, 1, 1, 1, 0, .any, false, "Peer requests refused"⟩,
  ⟨0x3103, 1, 4, 4, .u64, 0, 1, 1, 1, 0, .any, false, "Host writes outside a tenancy"⟩,
  ⟨0x6E00, 1, 1, 1, .u64, 0, 1, 1, 1, 0, .any, false, "Host reads served"⟩,
  ⟨0x6E00, 1, 2, 2, .u64, 0, 1, 1, 1, 0, .any, false, "Host writes served"⟩,
  ⟨0x6E00, 1, 3, 3, .u64, 0, 1, 1, 1, 0, .any, false, "Device reads issued"⟩,
  ⟨0x6E00, 1, 4, 4, .u64, 0, 1, 1, 1, 0, .any, false, "Device writes issued"⟩,
  ⟨0x6E00, 1, 5, 5, .u64, 0, 1, 1, 1, 0, .any, false, "Flit retries"⟩]

/-- Objects of R432. -/
def objRows432 : List ObjRow := [
  ⟨0x4000, 1, 1, 1, .u64, 0, 3, 3, 0, 0, .aligned 0x40000 0xC000000000, true, "Fault queue base"⟩,
  ⟨0x4000, 1, 2, 2, .u64, 0, 1, 1, 1, 0, .any, false, "Records produced"⟩,
  ⟨0x4000, 1, 3, 3, .u64, 0, 3, 3, 0, 0, .any, false, "Records consumed"⟩,
  ⟨0x4000, 1, 4, 4, .u16, 0, 3, 3, 0, 0, .span 0 2047, true, "Fault vector"⟩,
  ⟨0x4000, 1, 5, 5, .bool, 0, 3, 3, 0, 0, .any, true, "Fault interrupt"⟩,
  ⟨0x4000, 1, 6, 6, .u64, 0, 1, 1, 1, 0, .any, false, "Records lost"⟩,
  ⟨0x4000, 1, 7, 7, .u64, 0, 1, 1, 1, 0, .any, false, "Reports lost"⟩,
  ⟨0x4000, 1, 8, 8, .time, 0, 1, 1, 1, 0, .any, false, "First lost"⟩,
  ⟨0x4000, 1, 9, 9, .time, 0, 1, 1, 1, 0, .any, false, "Last lost"⟩,
  ⟨0x4000, 1, 10, 10, .u64, 0, 1, 1, 1, 0, .any, false, "Reports coalesced"⟩,
  ⟨0x4002, 1, 0, 0, .domain, 0, 1, 1, 1, 0, .any, false, "Firmware log"⟩,
  ⟨0x4003, 1, 1, 1, .u64, 0, 1, 1, 1, 0, .any, false, "Log overwrites"⟩,
  ⟨0x4004, 1, 1, 1, .u32, 0, 3, 3, 1, 50, .span 1 10000, true, "Digest timeout"⟩,
  ⟨0x4004, 1, 2, 2, .u32, 0, 3, 3, 1, 10, .span 1 1000, true, "Verify timeout"⟩,
  ⟨0x4005, 1, 1, 1, .bool, 0, 1, 1, 1, 0, .any, true, "Service required"⟩,
  ⟨0x4005, 1, 2, 2, .action, 0, 2, 2, 0, 0, .span 0 0, false, "Clear suspicion"⟩,
  ⟨0x4010, 32, 1, 8, .u8, 0, 1, 1, 1, 0, .bits 0x9F, true, "Core state"⟩,
  ⟨0x4010, 32, 9, 10, .u8, 0, 1, 1, 1, 0, .bits 0x83, true, "Lookup engine state"⟩,
  ⟨0x4030, 32, 1, 1, .u8, 0, 1, 1, 1, 0, .span 0 45, true, "Voltage offset"⟩,
  ⟨0x4030, 32, 2, 2, .u8, 0, 1, 1, 1, 0, .span 0 3, true, "Cluster-unit suspicions"⟩,
  ⟨0x4050, 8, 1, 1, .bool, 0, 3, 3, 0, 0, .any, false, "Group enable"⟩,
  ⟨0x4050, 8, 2, 2, .octets, 16, 3, 3, 0, 0, .any, false, "Members"⟩,
  ⟨0x4050, 8, 3, 3, .octets, 32, 3, 3, 0, 0, .any, false, "Tables"⟩,
  ⟨0x4050, 8, 4, 4, .octets, 128, 3, 3, 0, 0, .any, false, "Dense regions"⟩,
  ⟨0x4050, 8, 5, 5, .u64, 0, 3, 3, 0, 0, .aligned 0x1000 0xC000000000, false, "Digest area"⟩,
  ⟨0x4050, 8, 6, 6, .u16, 0, 3, 3, 0, 8, .span 1 1024, false, "Interval"⟩,
  ⟨0x4050, 8, 7, 7, .u16, 0, 3, 3, 0, 0xFFFF, .spanOr 0 4095 0xFFFF, false, "Digest fence"⟩,
  ⟨0x4050, 8, 8, 8, .u8, 0, 1, 1, 1, 0, .codes [0, 1, 2], false, "Group state"⟩,
  ⟨0x4050, 8, 9, 9, .u64, 0, 1, 1, 1, 0, .any, false, "Last compared"⟩,
  ⟨0x4050, 8, 10, 10, .octets, 32, 1, 1, 1, 0, .any, false, "Last digest"⟩,
  ⟨0x4060, 16, 1, 1, .bool, 0, 3, 3, 0, 0, .any, false, "Pair enable"⟩,
  ⟨0x4060, 16, 2, 2, .u16, 0, 3, 3, 0, 0, .bits 0x13F, false, "Role and job"⟩,
  ⟨0x4060, 16, 3, 3, .u16, 0, 3, 3, 0, 0, .span 0 1023, false, "Queue"⟩,
  ⟨0x4060, 16, 4, 4, .u32, 0, 3, 3, 0, 0, .bits 0xF0FFF, false, "Peer"⟩,
  ⟨0x4060, 16, 5, 5, .u64, 0, 3, 3, 0, 0, .any, false, "Range list"⟩,
  ⟨0x4060, 16, 6, 6, .u16, 0, 3, 3, 0, 0, .span 0 4095, false, "Commit fence"⟩,
  ⟨0x4060, 16, 7, 7, .u64, 0, 3, 3, 0, 0, .aligned 0x1000 0x10000000000, false, "Verify area"⟩,
  ⟨0x4060, 16, 8, 8, .u8, 0, 1, 1, 1, 0, .codes [0, 1, 2], false, "Pair state"⟩,
  ⟨0x4060, 16, 9, 9, .u64, 0, 1, 1, 1, 0, .any, false, "Last committed"⟩,
  ⟨0x4100, 1, 1, 1, .u16, 0, 3, 3, 1, 4, .span 1 72, true, "Maximum deferral"⟩]

/-- Objects of R432. -/
def objRows432part1 : List ObjRow := [
  ⟨0x4100, 1, 2, 2, .u64, 0, 1, 1, 1, 0, .any, false, "Tests run"⟩,
  ⟨0x4100, 1, 3, 3, .u64, 0, 1, 1, 1, 0, .any, false, "Tests forced"⟩,
  ⟨0x4100, 1, 4, 4, .u64, 0, 1, 1, 1, 0, .any, false, "Tests failed"⟩,
  ⟨0x4101, 1, 0, 0, .action, 0, 2, 2, 0, 0, .any, false, "Declare window"⟩,
  ⟨0x4110, 32, 1, 8, .time, 0, 1, 1, 1, 0, .any, false, "Core last test"⟩,
  ⟨0x4110, 32, 9, 10, .time, 0, 1, 1, 1, 0, .any, false, "Lookup engine last test"⟩,
  ⟨0x4110, 32, 11, 11, .time, 0, 1, 1, 1, 0, .any, false, "Cluster units last test"⟩]

/-- Objects of R309. -/
def objRows309 : List ObjRow := [
  ⟨0x6700, 256, 1, 1, .u64, 0, 1, 1, 1, 0, .any, false, "Tiles delivered"⟩,
  ⟨0x6700, 256, 2, 2, .u64, 0, 1, 1, 1, 0, .any, false, "Bytes moved"⟩,
  ⟨0x6700, 256, 3, 3, .u64, 0, 1, 1, 1, 0, .any, false, "Arms refused"⟩,
  ⟨0x6700, 256, 4, 4, .u64, 0, 1, 1, 1, 0, .any, false, "Translation halts"⟩,
  ⟨0x6700, 256, 5, 5, .u64, 0, 1, 1, 1, 0, .any, false, "Host halts"⟩,
  ⟨0x6700, 256, 6, 6, .u64, 0, 1, 1, 1, 0, .any, false, "Regulator wait"⟩,
  ⟨0x6700, 256, 7, 7, .u16, 0, 1, 1, 1, 0, .span 0 256, false, "Peak tags in use"⟩,
  ⟨0x6700, 256, 8, 8, .u64, 0, 1, 1, 1, 0, .any, false, "Arms abandoned"⟩]

/-- Every object row of the manual. -/
def objRows : List ObjRow :=
  List.flatten [
    objRows49, objRows450, objRows28, objRows470, objRows74, objRows74part1, objRows105, objRows133,
    objRows168, objRows197, objRows227, objRows272, objRows290, objRows337, objRows347, objRows377,
    objRows402, objRows432, objRows432part1, objRows309]

end Sys2Proof.Machine
end

