-- ==== Sys2Proof/Machine/State.lean ====
section
/-! DEFINITION. The state of the package as plain data: every register, object, queue, table, counter, mode and pin that the
manual gives the block, and the queue of waiting commands. Dictionary objects have one home, `Dict`, keyed by index and
subindex; everything else stands in the substructure of its chapter. A sparse map
answers its default for a key it does not list; memory keeps the one canonical form of notes/assumptions/3.md. -/
namespace Sys2Proof.Machine

/-! ### Object dictionary and management network (R29 to R49) -/

/-- The values of the dictionary objects that differ from their defaults: numbers (integers, booleans, times, action statuses)
by key `index * 256 + subindex`, and byte values (STRING and OCTETS). Of the two configuration copies (R33) the newer one holds
the persistent objects among these, and `older` and `olderBlobs` are the other one. -/
structure Dict where
  nums : Map Nat
  blobs : Map Bytes
  older : Map Nat
  olderBlobs : Map Bytes
  deriving DecidableEq, Repr

/-- A rack session (R44): half open until proved. -/
structure Session where
  id : Nat
  slot : Nat
  clientNonce : Bytes
  deviceNonce : Bytes
  proved : Bool
  lastSequence : Nat
  lastAccepted : Ns
  deriving DecidableEq, Repr

/-- The PLCA settings that the port works under (R45). -/
structure Plca where
  enable : Bool
  node : Nat
  count : Nat
  timer : Nat
  burst : Nat
  deriving DecidableEq, Repr

/-- The management ports: sessions, the next session identifier, the nonces drawn so far, PLCA in force, and which configuration
copy, 0 or 1, is the newer one. -/
structure Net where
  /-- Replies that wait for their medium, in the order of their requests, with the frames or packets of each (R37). -/
  owed : List (Transport × List Bytes)
  /-- When the last request took its place in the serial order, and the rank of its transport (R35). -/
  lastPlace : Option (Ns × Nat)
  sessions : List Session
  nextSession : Nat
  draws : Nat
  plca : Plca
  plcaPending : Bool
  newestCopy : Nat
  deriving DecidableEq, Repr

/-! ### Clocks (R23, R24, R446) -/

/-- A core's clock generator: the ceiling steps stand in 0x4010, the setting and effective clock in 0x1210 and 0x1230. -/
structure CoreClock where
  /-- A requested effective clock that has not yet taken effect (R24). -/
  pending : Option Nat
  /-- The generator relocks (R24). -/
  relocking : Bool
  deriving DecidableEq, Repr

/-! ### Tenancy and epochs (R50 to R74) -/

/-- How far an accepted tenancy end has come (R52). -/
inductive EndStage where
  | none
  /-- Accepted during recovery: begins at step 1 once recovery completes. -/
  | waiting
  /-- Steps 1 and 2: running commands finish. -/
  | draining
  /-- Steps 3 to 5 done, zeroing in progress. -/
  | zeroing
  deriving DecidableEq, Repr

/-- Tenancy and epoch state beside the objects of R74. -/
structure Epochs where
  ending : EndStage
  /-- Epoch period in µs and sync mode that govern the next boundary (R63, R66). -/
  period : Nat
  mode : Nat
  /-- SYNC_OUT level and when it rose; the value of the enable before its last change and the time of that change (R480). -/
  syncOutHigh : Bool
  syncOutRose : Ns
  syncOutBefore : Bool
  syncOutChanged : Ns
  /-- The first alignment step has been made (R60, R72). -/
  stepped : Bool
  /-- What rate correction has still to take from the time base, ns, positive when this package is ahead, and the part of a
  nanosecond, in millionths, that it has gathered (R72, R73). -/
  toCorrect : Int
  rateFraction : Nat
  /-- When the measured offset first exceeded 50 ns without a break (R73). -/
  offsetSince : Option Ns
  /-- Measured link delay towards the parent, ns (R72). -/
  linkDelay : Nat
  /-- Transmit time of the last time frame sent to the parent and not yet answered (R72). -/
  timeSent : Option Ns
  deriving DecidableEq, Repr

/-! ### Units, faults and engines (R13, R320 to R347, R403 to R416) -/

/-- Unit kinds, in the code order of R411 [15:12]. -/
inductive UnitKind where
  | matrix | vector | stream | lookup | rowMerge | digest | walker | memory | tester | frontEnd | ucie | varx | cxl | iod
  | core | cluster
  deriving DecidableEq, Repr

/-- A unit by kind and global number (R411). -/
structure UnitId where
  kind : UnitKind
  num : Nat
  deriving DecidableEq, Repr

/-- A pending report of a detecting unit (R412), with the fields of R411. -/
structure Report where
  unit : UnitId
  code : Nat
  effect : Nat
  tag : Nat
  queue : Nat
  opcode : Option Nat
  count : Nat
  first : Ns
  last : Ns
  address : Nat
  physical : Nat
  detail : Nat
  deriving DecidableEq, Repr

/-- Where a translated address leads (R278): in this package (`here`), another package, or the host. -/
inductive Target where
  | here (offset : Nat)
  | remote (chip offset : Nat)
  | host (address : Nat)
  deriving DecidableEq, Repr

/-- Where a command stands (R323). -/
inductive Phase where
  /-- Fetched, in the front end. -/
  | fetched
  /-- Handed to its engine. -/
  | handed
  /-- Started on its engine, or running in the front end. -/
  | running
  /-- Every effect performed, the engine may complete it. -/
  | finished
  deriving DecidableEq, Repr

/-- A command of a launch that has been fetched and has not completed (R320 to R323). -/
structure Cmd where
  id : Nat
  queue : Nat
  index : Nat
  job : Nat
  bytes : Bytes
  /-- The engine; none for a control command. -/
  unit : Option UnitId
  phase : Phase
  /-- When it became ready (control commands) or its engine started it. -/
  started : Ns
  /-- Time that counts towards the watchdog (R343). -/
  watched : Ns
  /-- Held on a resolvable translation fault at this virtual address (R281). -/
  held : Option Nat
  /-- Pages translated for it: page number (address >> 21), target of the page's first byte, write permission (R113, R304). -/
  xl : List (Nat × Target × Bool)
  /-- The command has taken its effect up to waiting for others (an arm in flight, an exchange awaiting slices). -/
  armed : Bool
  /-- In an interval that does not count towards the watchdog (R343), or that is charged to no job (R306). -/
  unwatched : Bool
  uncharged : Bool
  /-- A progress count of the command's engine: groups done, bags done, chunk number. -/
  progress : Nat
  /-- Words its engine keeps for it while it runs. -/
  scratch : List Nat
  deriving DecidableEq, Repr

/-- The queue states of R311. -/
inductive QState where
  | disabled | idle | active | draining | error | lost
  deriving DecidableEq, Repr

/-- The launch in progress (R330, R336). -/
structure Launch where
  seq : Nat
  firstRead : Ns
  lastRead : Ns
  /-- The first read of the slot has returned. -/
  read : Bool
  /-- A read has found the sequence and the slot is not malformed. -/
  taken : Bool
  slot : Bytes
  started : Ns
  /-- Commands fetched so far and commands completed so far. -/
  fetched : Nat
  completed : Nat
  /-- Indices of completed commands not below every uncompleted one are found in `done`. -/
  done : List Nat
  /-- Clusters whose engines executed its commands (R421). -/
  clusters : List Nat
  /-- The queue error that stopped it, 0 for none. -/
  error : Nat
  /-- Held on a resolvable translation fault (R334). -/
  held : Bool
  /-- Held for the absent host since `heldAt` (R333). -/
  hostHeld : Bool
  heldAt : Ns
  deriving DecidableEq, Repr

/-- A queue's registers and position (R311 to R317). -/
structure Queue where
  ring : Nat
  config : Nat
  state : QState
  error : Nat
  head : Nat
  tail : Nat
  /-- Enable was cleared while draining or active: become disabled at the end (R311). -/
  disableAfter : Bool
  launch : Option Launch
  deriving DecidableEq, Repr

/-- The background-floor interval of an engine (R341). -/
structure FloorInterval where
  start : Ns
  floor : Nat
  busy : Ns
  background : Ns
  deriving DecidableEq, Repr

/-- An engine's scheduling, power and test state (R338 to R341, R429, R443, R444). -/
structure Engine where
  turn : Option Nat
  /-- The current turn was taken under the floor and does not yield. -/
  floorTurn : Bool
  lastLatency : Nat
  lastBackground : Nat
  balances : Map Int
  interval : Option FloorInterval
  idleSince : Ns
  gated : Bool
  granted : Bool
  waitingSince : Option Ns
  /-- Since when the governor has withheld its grant (R438, R439). -/
  meteredSince : Option Ns
  /-- Paused for an in-field test (R429). -/
  paused : Bool
  deriving DecidableEq, Repr

/-! ### Translation (R273 to R290) -/

/-- A TLB entry (R280): tag, page base, page size in bits (21 or 30), target page and write permission. -/
structure TlbEntry where
  tag : Nat
  base : Nat
  bits : Nat
  target : Target
  write : Bool
  deriving DecidableEq, Repr

/-- A requester waiting on a walk: its TLB, the command, the exact address and the access kind. -/
structure Waiter where
  unit : UnitId
  cmd : Nat
  va : Nat
  write : Bool
  deriving DecidableEq, Repr

/-- A walk in progress, shared by its requesters (R280). -/
structure Walk where
  cluster : Nat
  tag : Nat
  page : Nat
  waiters : List Waiter
  deriving DecidableEq, Repr

/-- Who asked for an invalidation (R283). -/
inductive InvalSource where
  | register | action | command (id : Nat) | close (job : Nat) | device
  deriving DecidableEq, Repr

/-- An invalidation waiting or running. -/
structure Inval where
  tag : Nat
  source : InvalSource
  started : Ns
  deriving DecidableEq, Repr

/-- Translation state: TLBs by unit, walks, invalidations in start order, and the registers of R288. -/
structure Xlat where
  tlbs : Map (List TlbEntry)
  walks : List Walk
  invals : List Inval
  overrun : Bool
  done : Nat
  migSrc : Nat
  migDst : Nat
  migCtl : Nat
  migState : Nat
  migReason : Nat
  migStarted : Ns
  /-- TRN_MIG_SRC, TRN_MIG_DST and TRN_MIG_CTL as the copy started with them (R285). -/
  copySrc : Nat
  copyDst : Nat
  copyCtl : Nat
  deriving DecidableEq, Repr

/-! ### Memory (R249 to R272, R405) -/

/-- Stacked memory, scratchpads and cluster buffers by local offset, the code words that hold an uncorrectable error, those that hold
a single wrong bit with its place in the 288 bits of the word (R257), the SRAM words that are uncorrectable and those recorded so
(R405), corrected errors by code word with the time of the last, the page lists of R267, and the scrubber positions. -/
structure Memory where
  cells : List Host.Cell
  bad : List Nat
  flips : Map Nat
  sramBad : List Nat
  sramSeen : List Nat
  corrected : List (Nat × Ns)
  retired : List Nat
  pendingPages : List Nat
  /-- The other copy of the two lists in the NOR, and which copy, 0 or 1, is the newer one (R33, R267). -/
  olderRetired : List Nat
  olderPending : List Nat
  newestLists : Nat
  /-- Granules scrubbed so far in the present pass, by stack, and passes completed, by stack. -/
  scrubPos : Map Nat
  scrubPasses : Map Nat
  deriving DecidableEq, Repr

/-- The canonical form of memory: addresses strictly rising, and no cell that holds what an unlisted address reads as, zero
(R270, notes/assumptions/3.md). -/
def Memory.wf (m : Memory) : Bool := Map.wf 0 m.cells

/-! ### Streams (R291 to R309) -/

/-- A descriptor in a slot, active or shadowed (R292, R297): its arm's command; the next tile, whether its pages are
translated and the byte of the tile that issues next; tiles delivered and bytes moved; the halts of its status record; and
the tiles under way with the start of their translation (R343); and the ranges that its requests have read and written, by tile,
latest first (R293). -/
structure Desc where
  bytes : Bytes
  cmd : Nat
  job : Nat
  tile : Nat
  translated : Bool
  issued : Nat
  delivered : Nat
  moved : Nat
  xlatHalts : Nat
  hostHalts : Nat
  underWay : List (Nat × Ns)
  reads : List (Nat × Target × Nat)
  writes : List (Nat × Target × Nat)
  deriving DecidableEq, Repr

/-- The slot states of R291. -/
inductive SlotState where
  | idle | running | haltedTranslation | haltedHost
  deriving DecidableEq, Repr

/-- A descriptor slot (R291). -/
structure StreamSlot where
  state : SlotState
  active : Option Desc
  shadow : Option Desc
  deriving DecidableEq, Repr

/-- The part of a request's source that lies in one page: where it is, its place in the request, its length, and its data once read. -/
structure StreamPart where
  source : Target
  offset : Nat
  length : Nat
  data : Option Bytes
  deriving DecidableEq, Repr

/-- A request in flight: core, slot, tile, byte of the tile it begins at, what it reads, and where it goes. Slot 16 holds the
status writes of arms by command, slot 17 the descriptor reads. -/
structure StreamReq where
  core : Nat
  slot : Nat
  tile : Nat
  number : Nat
  parts : List StreamPart
  dest : Target
  length : Nat
  /-- What it writes is undefined: a source byte is a destination byte of its descriptor (R293). -/
  undefined : Bool
  /-- A remote destination has acknowledged the write (R299). -/
  acked : Bool
  deriving DecidableEq, Repr

/-- A regulator: rate in MB/s, depth, and the tokens (in bytes times 1000) at the last fill (R302). -/
structure Regulator where
  rate : Nat
  depth : Nat
  tokens : Nat
  filled : Ns
  /-- Requests that wait for tokens: slot (16 a collective), bytes, and since when. -/
  wanted : List (Nat × Nat × Ns)
  deriving DecidableEq, Repr

/-- Stream engines: slots by 16 × core + slot, requests in flight, regulators by core, and by 2 × core, plus 1 for background, the slot
that issued last (R341). -/
structure Streams where
  slots : Map StreamSlot
  requests : List StreamReq
  regulators : Map Regulator
  turns : Map Nat
  deriving DecidableEq, Repr

/-! ### Integrity (R410 to R432) -/

/-- A digest group at work (R417 to R419). -/
structure DigestGroup where
  /-- Enabled at a digest boundary and active. -/
  active : Bool
  /-- Enable accepted, waiting for the first digest boundary. -/
  armed : Bool
  /-- The digest boundary whose interval was closed last. -/
  epoch : Nat
  regionsPending : Bool
  sums : List Nat
  /-- Own digests not yet compared, oldest first: epoch, when formed, D. -/
  due : List (Nat × Ns × Bytes)
  /-- Messages held: member index, epoch, digest. -/
  messages : List (Nat × Nat × Bytes)
  /-- Members dropped from the comparison. -/
  expelled : List Nat
  deriving DecidableEq, Repr

/-- A side's digest of one launch (R421). -/
structure SideDigest where
  seq : Nat
  value : Bytes
  readable : Bool
  clusters : List Nat
  at_ : Ns
  deriving DecidableEq, Repr

/-- A verify pair at work (R420 to R422). -/
structure VerifyPair where
  own : List SideDigest
  peer : List SideDigest
  /-- Launches of the pair's queue that have completed and whose digest is still to be formed, with their cluster sets. -/
  due : List (Nat × List Nat)
  deriving DecidableEq, Repr

/-- The recorder, the firmware log, digest groups, verify pairs and the in-field test windows. -/
structure Integrity where
  /-- Pending reports, oldest first (R412). -/
  reports : List Report
  /-- Reports a unit could not hold, by unit code. -/
  unheld : Map Nat
  /-- Records lost since the last one written (R413). -/
  lostBefore : Nat
  lastRecord : Option Ns
  /-- The firmware log, oldest first, 64-byte records. -/
  log : List Bytes
  groups : Map DigestGroup
  pairs : Map VerifyPair
  /-- Unit codes of R429 declared for test, and units paused or under test. -/
  windows : List Nat
  testing : List Nat
  /-- Of these, the units whose next test is a search for margin (R424). -/
  suspects : List Nat
  /-- Detection of the execution fault whose recovery runs, and the clusters to be self-tested (R345). -/
  recoverySince : Option Ns
  faultClusters : List Nat
  deriving DecidableEq, Repr
/-! ### Varx fabric and collectives (R348 to R377) -/

/-- A beacon as last heard on a port (R354, R355). -/
structure Beacon where
  serial : Nat
  port : Nat
  candidate : Nat
  hops : Nat
  settled : Bool
  /-- By axis, as far as the sender knows them. -/
  coords : List (Option Nat)
  shape : Nat × Nat × Nat × Nat
  heard : Ns
  deriving DecidableEq, Repr

/-- A port's link layer (R350): next sequence to send and to accept, the replay buffer, and replays of its oldest frame. -/
structure Port where
  nextSend : Nat
  nextAccept : Nat
  unacked : List (Nat × Bytes)
  /-- Frames waiting for room in the replay buffer, their sequence still zero: a buffer for each class (R359). -/
  requests : List Bytes
  responses : List Bytes
  data : List Bytes
  replays : Nat
  beacon : Option Beacon
  /-- When the last beacon was sent, and when the link went down or last failed to retrain. -/
  beaconAt : Ns
  downAt : Ns
  /-- The channel that the port's Leek last granted a slot to (R365). -/
  leekTurn : Nat
  deriving DecidableEq, Repr

/-- The operations that a channel carries (R363). -/
inductive OpKind where
  | collective | lookup | update | refresh
  deriving DecidableEq, Repr

/-- An operation on a channel: its number, and the command or table it belongs to. -/
structure ChannelOp where
  kind : OpKind
  number : Nat
  owner : Nat
  waitingSince : Ns
  deriving DecidableEq, Repr

/-- A collective channel (R363, R364). -/
structure Channel where
  running : Option ChannelOp
  waiting : List ChannelOp
  last : Option Nat
  deriving DecidableEq, Repr

/-- A collective in flight (R366 to R375): the channel and number, the timeout it started under in µs, the phase it is in, the
chunks of its parts read, the vector its pipeline holds as encodings, the transfers of the phase queued so far by their place in
the phase's own list, the chunks received and the slots granted by port, segment and chunk, and the counts of its status
record. -/
structure Collective where
  cmd : Nat
  channel : Nat
  number : Nat
  timeout : Nat
  phase : Nat
  read : Nat
  /-- Pieces of the output that are written: segment and chunk of the last phase. -/
  written : List (Nat × Nat)
  /-- Bytes already issued of the parts' chunk that is read next, and of the piece that is written next. -/
  paid : Nat
  paidOut : Nat
  vector : List Nat
  /-- Where this package's rounding to BF16 overflowed. -/
  overflow : List Nat
  queued : Nat
  got : List (Nat × Nat × Nat)
  /-- Slots granted, with the time. -/
  granted : List ((Nat × Nat × Nat) × Ns)
  sent : Nat
  received : Nat
  nonFinite : Nat
  saturated : Nat
  deriving DecidableEq, Repr

/-- Data of an operation that waits at its source for the destination's credit (R364): a slice, or a collective chunk that a
neighbour's Leek takes. -/
structure Outgoing where
  channel : Nat
  chip : Nat
  number : Nat
  index : Nat
  /-- What a chunk carries before its elements (R364); nothing before a slice. -/
  header : Bytes
  data : Bytes
  job : Nat
  chunk : Bool
  since : Ns
  deriving DecidableEq, Repr

/-- A remote request awaiting its response (R360 to R362). -/
structure RemoteReq where
  id : Nat
  core : Nat
  slot : Nat
  number : Nat
  write : Bool
  chip : Nat
  issued : Ns
  deriving DecidableEq, Repr

/-- The fabric: ports by number, discovery (R354 to R358), channels, collectives and remote requests. -/
structure Fabric where
  /-- Extents and ring axes in force since start-up (R352). -/
  shape : Nat × Nat × Nat × Nat
  ports : Map Port
  candidate : Nat
  candidateSettled : Bool
  hops : Nat
  parent : Option Nat
  coords : List (Option Nat)
  /-- This package is settled, and its own report has been handed on (R356). -/
  settled : Bool
  reported : Bool
  /-- As root: reports held, chip id and serial (R356). -/
  reports : List (Nat × Nat)
  /-- Own report and reports passed on, not yet acknowledged by the parent. -/
  unreported : List (Nat × Nat)
  present : List Nat
  rootHeard : Ns
  channels : Map Channel
  collectives : List Collective
  requests : List RemoteReq
  nextRequest : Nat
  outgoing : List Outgoing
  deriving DecidableEq, Repr

/-! ### Host port (R378 to R402) -/

/-- What asked the port for a host line or wrote one: requester and tag. -/
inductive HostUser where
  | slot (queue : Nat)
  | command (queue index : Nat)
  | cmd (id : Nat)
  | stream (core slot number : Nat)
  | record (queue : Nat)
  | migration
  /-- The zero-length read of a host fence behind the posted writes to a window numbered below `after` (R390). -/
  | flush (cmd window after : Nat)
  deriving DecidableEq, Repr

/-- A device read of host memory outstanding, or returned and not yet used (R386). -/
structure HostRead where
  user : HostUser
  address : Nat
  length : Nat
  issued : Ns
  data : Option Bytes
  deriving DecidableEq, Repr

/-- A device write to the host awaiting GO (R386, R388): tag, source and unit of R399, range, data, and its order of issue. -/
structure HostWrite where
  number : Nat
  tag : Nat
  source : Nat
  unit : Nat
  address : Nat
  data : Bytes
  posted : Bool
  deriving DecidableEq, Repr

/-- A vector raised and not yet sent, with the writes that must get their GO first (R388, R396). -/
structure HeldVector where
  vector : Nat
  after : Nat
  deriving DecidableEq, Repr

/-- The host port's registers and traffic. -/
structure HostPort where
  /-- PERST_N deasserted, the PHY ready, and DL_Up. -/
  perst : Bool
  phy : Bool
  dlUp : Bool
  /-- Configuration: memory space, bus master, MSI-X enable, UIO enable. -/
  memSpace : Bool
  busMaster : Bool
  msix : Bool
  uio : Bool
  committed : Bool
  refusal : Nat
  vec : Nat
  p2pBase : Map Nat
  p2pSize : Map Nat
  /-- MSI-X table by byte (R380). A vector control word's bit 0 masks; after reset every vector is masked. -/
  msixTable : Map Byte
  held : List HeldVector
  reads : List HostRead
  writes : List HostWrite
  issued : Nat
  discards : List Bytes
  /-- IDE streams: keys programmed in bits 0 to 3, streams active in bits 8 to 11; 0 CXL IDE, 1 the PCIe link stream, 2 and 3 the
  selective streams. -/
  ideKeys : Nat
  /-- The CXL IDE stream is active in skid mode rather than in containment mode (R378, R393). -/
  ideSkid : Bool
  /-- Jobs that have had their notice of the present absence (R398). -/
  notified : List Nat
  deriving DecidableEq, Repr

/-- The mailbox's event log, policy and timestamp (R394, R395). -/
structure Mailbox where
  /-- Event records: handle and 16-bit fault code or media address, oldest first. -/
  events : List (Nat × Nat × Nat × Ns)
  nextHandle : Nat
  policy : Bytes
  /-- Timestamp set and the time base then. -/
  timestamp : Nat
  timestampAt : Ns
  deriving DecidableEq, Repr

/-! ### Power, cooling and pins (R433 to R449, R473 to R483) -/

/-- The governor and Fennel. -/
structure Power where
  runStart : Option Ns
  /-- The first sample at or below L since the last one above it (R437). -/
  calmSince : Option Ns
  goodSamples : Nat
  /-- Rated power granted since the last sample, in mW × 2100 × 840² (R436), and the last sample, mW. -/
  granted : Nat
  sampleMw : Nat
  /-- MHz withheld from every core by L3, and from a cluster's cores by R448. -/
  skip : Nat
  clusterSkip : Map Nat
  lastGrant : Map Ns
  /-- When the grants that the governor withholds were last brought up to date. -/
  noted : Ns
  supplyCap : Bool
  coolantCap : Bool
  coolantBack : Option Ns
  coolantAt : Option Ns
  /-- Metering steps of a stack's controller under R448: 1 classes 1 and 2, 2 class 0 as well. -/
  throttledStacks : Map Nat
  logicHot : Map Ns
  stackHot : Map Ns
  /-- Logic temperatures by cluster, °C as read. -/
  logicTemps : Map Int
  /-- Clock changes waiting for a cluster voltage: cluster and core. -/
  raising : List (Nat × Nat)
  deriving DecidableEq, Repr

/-- The output pins that carry meaning (R474): asserted FAULT_N and THERM_TRIP_N, and the last SYNC_IN edge accepted stands
in 0x2101.07. -/
structure Pins where
  fault : Bool
  thermTrip : Bool
  deriving DecidableEq, Repr

/-! ### Start-up, firmware and attestation (R451 to R470) -/

/-- The steps of R454 that an event completes, in order. -/
inductive Stage where
  /-- No start-up has run, or its supplies were lost. -/
  | off
  | fuses | ucie | cxlPhy | slot | otherSlot | firmware | checkers | stacks | retirement | zeroing | engines
  | usable
  /-- Regulators off for a restart (R457). -/
  | restarting
  deriving DecidableEq, Repr

/-- An image slot of the NOR: its bytes where programmed, and the bytes programmed since the last erase as (start, end). -/
structure ImageSlot where
  bytes : Map Byte
  programmed : List (Nat × Nat)
  deriving DecidableEq, Repr

/-- Start-up and the firmware store. -/
structure Startup where
  stage : Stage
  supply12 : Bool
  supplyMgt : Bool
  supplyIo : Bool
  regulators : Bool
  /-- The cause the next start-up takes (R457, R468). -/
  cause : Nat
  /-- Boot control (R463): preferred slot, trial flag, and the preference before the trial. -/
  preferred : Nat
  trial : Bool
  previous : Nat
  /-- The other copy of the boot control, and which copy, 0 or 1, is the newer (R463). -/
  olderBoot : Nat × Bool × Nat
  newestBoot : Nat
  /-- The slot booted, none when neither was valid. -/
  booted : Option Nat
  /-- This start-up is a trial start-up. -/
  trialRun : Bool
  slotA : ImageSlot
  slotB : ImageSlot
  erasing : Bool
  /-- Fused minimum security version and revocation bits. -/
  minSecurity : Nat
  revoked : Nat
  /-- The identity area verified (R460). -/
  chainValid : Bool
  /-- Measurement blocks 1 to 3 as taken (R462). -/
  measurements : List Bytes
  deriving DecidableEq, Repr

/-- How far a requester has come with SPDM (R461). -/
inductive SpdmStage where
  | start | version | capabilities | algorithms
  deriving DecidableEq, Repr

/-- One connection state per transport: stage, and the transcripts that signatures cover. -/
structure SpdmConn where
  stage : SpdmStage
  transcriptA : Bytes
  transcriptB : Bytes
  transcriptL : Bytes
  deriving DecidableEq, Repr

/-- A secure session (R461): identifier, transport, and whether FINISH has completed it. -/
structure SpdmSession where
  id : Nat
  transport : Transport
  established : Bool
  transcript : Bytes
  keyUpdates : Nat
  /-- The nonce count of its key exchange. -/
  exchange : Nat
  deriving DecidableEq, Repr

/-- The SPDM responder. -/
structure Spdm where
  board : SpdmConn
  host : SpdmConn
  sessions : List SpdmSession
  deriving DecidableEq, Repr
/-! ### Tables and lookup (R75 to R133) -/

/-- The states of a table number (R75). -/
inductive TableState where
  | absent | initialising | ready | retiring
  deriving DecidableEq, Repr

/-- A tier move decided at a boundary (R88): shard row, source and destination tier codes, destination slot. -/
structure Move where
  row : Nat
  source : Nat
  dest : Nat
  slot : Nat
  deriving DecidableEq, Repr

/-- A slot or replica set to be returned to its free list (R89, R94): tier code (4 for a replica set), number, and the epoch
number of the boundary at which it returns. -/
structure Release where
  tier : Nat
  slot : Nat
  epoch : Nat
  deriving DecidableEq, Repr

/-- A status record owed: opcode, status and count, the job and engine of its command, and the local offset it goes to. -/
structure Owed where
  op : Nat
  status : Nat
  count : Nat
  job : Nat
  engine : Nat
  address : Nat
  deriving DecidableEq, Repr

/-- A pin or replicate command that waits for the next apply phase (R103): action code, the rows it still has to take (shard rows to
pin, row numbers to replicate), the rows taken and skipped so far, whether the list or the replica sets ran out, the epoch it
executed in, and its status record. Replicate: 0 add, 1 remove. Pin: a tier code, or 3 to unpin. -/
structure Change where
  pin : Bool
  action : Nat
  rows : List Nat
  taken : Nat
  skipped : Nat
  full : Bool
  epoch : Nat
  owed : Option Owed
  deriving DecidableEq, Repr

/-- A swap under way (R102): two table numbers, its command, the epoch number of the boundary it takes effect at, known once the
command has completed, and the record owed. -/
structure Swap where
  a : Nat
  b : Nat
  cmd : Nat
  epoch : Option Nat
  owed : Option Owed
  deriving DecidableEq, Repr

/-- A table number's record: the descriptor, the physical pages recorded at creation (R97), the metadata that is internal to
the device (R100), pending directory changes, training parameters (R151, R166) and counters. -/
structure Table where
  state : TableState
  desc : Bytes
  /-- Page numbers (local offset >> 21) of each extent, and of the replica region. -/
  extents : List (List Nat)
  replica : List Nat
  defaultRow : Bytes
  /-- Slots in use by pool: hot, warm, cold. -/
  hot : List Nat
  warm : List Nat
  cold : List Nat
  /-- Pinned shard rows with their tier; replicated rows with their set and the tier code their copies are stored in. -/
  pins : List (Nat × Nat)
  replicas : List (Nat × Nat × Nat)
  /-- Pin and replicate commands that wait (R103), and rows loaded since their copies were last refreshed, with the epoch of the
  first such load (R95). -/
  changes : List Change
  dirty : List (Nat × Nat)
  candidates : List Nat
  sketch : Map Nat
  moves : List Move
  releases : List Release
  /-- Status records owed for deferred effects (R99). -/
  owed : List Owed
  /-- When initialisation began. -/
  since : Ns
  rate : Nat
  epsilon : Nat
  budget : Nat
  channel : Nat
  spill : List Nat
  /-- Counters by object key of 0x2202 and 0x2302, and drops by destination chip. -/
  counts : Map Nat
  drops : Map Nat
  deriving DecidableEq, Repr

/-- An entry of a lookup in list order (R115, R117): its bag, the granules its row read touches, the row's stored format
(0 BF16, 1 8-bit codes, 2 4-bit codes), the row number and copy when a copy is read (R115), and the row's FP32 elements once
it is there. -/
structure RowRead where
  bag : Nat
  granules : List (Nat × Nat)
  code : Nat
  copy : Option (Nat × Nat)
  values : Option (List Nat)
  deriving DecidableEq, Repr

/-- A Lookup or Sharded lookup in flight from its stamp on (R106 to R130). -/
structure LookupRun where
  cmd : Nat
  engine : Nat
  /-- The record that holds its storage (R102), and the table number it names. -/
  table : Nat
  number : Nat
  stamp : Ns
  deadline : Ns
  offsets : List Nat
  /-- Bag and list position resolved next. -/
  nextBag : Nat
  nextPos : Nat
  reads : List RowRead
  /-- The bag being summed, and its FP32 sum. -/
  bag : Nat
  sum : List Nat
  /-- Sharded: local partials by bag, entries for other packages (chip, row, bag), partials received (shard, bag, values),
  members whose return slice has come and members served. -/
  locals : List (Nat × List Nat)
  entries : List (Nat × Nat × Nat)
  partials : List (Nat × Nat × List Nat)
  returned : List Nat
  served : List Nat
  /-- Request slices that wait for an apply phase at this home (R164). -/
  waiting : List Bytes
  /-- The default row as this command read it, once (R130). -/
  default : Option (List Nat)
  /-- Local ranges of its output whose bytes are undefined (R113). -/
  clash : List (Nat × Nat)
  slicesSent : Bool
  combined : Bool
  timedOut : Bool
  /-- Counts of R130: rows, defaults, malformed, skips, dropped, members timed out, non-finite. -/
  rows : Nat
  defaults : Nat
  malformed : Nat
  skips : Nat
  dropped : Nat
  missing : Nat
  nonFinite : Nat
  deriving DecidableEq, Repr

/-! ### Update path (R134 to R168) -/

/-- The three kinds of merge entry (R141). -/
inductive EntryKind where
  | home | outbound | carried
  deriving DecidableEq, Repr

/-- A merge entry of a row-merge unit (R141, R143): `row` is the shard row, or the row number of an outbound entry; `chip` the
source chip of a home entry. `place` is the local offset of a spilled entry in its table's spill pages. An outbound entry that an
exchange has sealed keeps that command's identifier with the sum sealed, and the sum of what has come since (R149). -/
structure MergeEntry where
  table : Nat
  kind : EntryKind
  epoch : Nat
  chip : Nat
  row : Nat
  sum : List Nat
  place : Option Nat
  taken : Option (Nat × List Nat)
  since : Option (List Nat)
  deriving DecidableEq, Repr

/-- A contribution of an admitted push on its way to its unit (R136, R138), in delivery order. -/
structure Contribution where
  unit : Nat
  table : Nat
  row : Nat
  home : Bool
  epoch : Nat
  job : Nat
  cmd : Nat
  values : List Nat
  deriving DecidableEq, Repr

/-- A Gradient push or Update exchange in flight on a unit, with the counts of its summary record (R139, R147). -/
structure PushRun where
  cmd : Nat
  unit : Nat
  table : Nat
  exchange : Bool
  number : Nat
  refused : Bool
  /-- An exchange's slices have been handed to its channel. -/
  handed : Bool
  stamp : Ns
  /-- The epoch of the stamp (R148). -/
  epoch : Nat
  deadline : Ns
  contributions : Nat
  defaults : Nat
  rejected : Nat
  overflow : Nat
  malformed : Nat
  sent : Nat
  left : Nat
  received : Nat
  missing : Nat
  heard : List Nat
  deriving DecidableEq, Repr

/-- A table's part of the apply phase on one unit (R156 to R159). -/
structure Part where
  unit : Nat
  table : Nat
  /-- The three conditions of R156 have held. -/
  open_ : Bool
  /-- Its last row and its changes are done and its end markers sent. -/
  marked : Bool
  ended : Bool
  /-- The parameters that govern this phase (R166): learning rate, epsilon, budget in µs and refresh channel. -/
  rate : Nat
  epsilon : Nat
  budget : Nat
  channel : Nat
  deriving DecidableEq, Repr

/-- The update path. -/
structure Update where
  /-- Merge entries by unit, in ascending order of last fold (least recent first). -/
  entries : Map (List MergeEntry)
  deliveries : List Contribution
  runs : List PushRun
  /-- Last admitted sequence by table (R138). -/
  sequences : Map Nat
  /-- Exchanges that have completed: channel, table, exchange number and job (R150). -/
  exchanges : List (Nat × Nat × Nat × Nat)
  /-- The apply phase: the epoch number of the boundary that began it, when, the parts, and row-merge time by unit. -/
  applyEpoch : Nat
  applyStart : Ns
  parts : List Part
  /-- By unit: the table number its next row is sought from, and since when its present apply work runs. -/
  turns : Map Nat
  busySince : Map Ns
  /-- Apply time by unit in this phase. -/
  busy : Map Nat
  /-- Swaps that wait (R102). -/
  swaps : List Swap
  /-- End markers held: table, chip, unit (R159). -/
  markers : List (Nat × Nat × Nat)
  /-- Gradient rows delivered in an epoch: unit, epoch, job, rows (R58). -/
  delivered : List (Nat × Nat × Nat × Nat)
  /-- Epoch fences waiting (R104): event, epoch, fence, value. -/
  epochFences : List (Nat × Nat × Nat × Nat)
  deriving DecidableEq, Repr

/-! ### Matrix and vector engines (R169 to R227) -/

/-- A weight bank (R174, R196): the record of the tile it holds (the scratchpad offset of its first weight line, the stride in 64-byte
units, mode, INT4 flag and tile position), the tile widened, 64 bytes a line, and where its bytes lie: the offset of the first
byte, the bytes of a line, and the lines. -/
structure Bank where
  valid : Bool
  active : Bool
  offset : Nat
  stride : Nat
  mode : Nat
  int4 : Bool
  row : Nat
  col : Nat
  bytes : Bytes
  first : Nat
  lineBytes : Nat
  lines : Nat
  deriving DecidableEq, Repr

/-- A slot of a core's lane-program store (R216). -/
structure ProgramSlot where
  loaded : Bool
  job : Nat
  program : Nat
  words : List Nat
  deriving DecidableEq, Repr

/-- A read or write that a vector run has made: what of its streams it is for, and where it went (R207). -/
structure VAccess where
  write : Bool
  key : Nat
  target : Target
  length : Nat
  deriving DecidableEq, Repr

/-- A vector or lane-program run in flight: its bindings and program; the vector registers and the masks k1 to k3 as the last group
left them; the values of stride-zero inputs by register; the group it comes to next, the sum of the row in progress, whether
its outputs overlap its inputs, what it has read and written, the stores of its present group (or of its state outputs) that the
port has not yet taken, the status it ends with, and the counts of that status. -/
structure VectorRun where
  cmd : Nat
  core : Nat
  bindings : List Bytes
  program : List Nat
  regs : Map Bytes
  masks : List Nat
  fixed : List (Nat × Nat)
  group : Nat
  carry : Nat
  undefined : Bool
  seen : List VAccess
  storing : Bool
  left : List (Target × Bytes)
  ending : Option Nat
  suppressed : Nat
  nonFinite : Nat
  saturated : Nat
  deriving DecidableEq, Repr

/-- A matrix command in flight: the number of the pass it comes to next, and the accumulator block (R177): by row of the block its words
by column, with whether anything that went into one saturated. -/
structure MatrixRun where
  cmd : Nat
  core : Nat
  pass : Nat
  acc : List (List (Nat × Bool))
  deriving DecidableEq, Repr

/-- The arithmetic engines' state: bank 0 by 2 × core, bank 1 by 2 × core + 1; program slots by 16 × core + slot. The vector
registers and accumulators hold their contents only while a command runs (R198, R405). -/
structure Arith where
  banks : Map Bank
  slots : Map ProgramSlot
  runs : List VectorRun
  passes : List MatrixRun
  deriving DecidableEq, Repr

/-! ### Outputs -/

/-- The form of a device access to the host: over CXL.cache as whole lines (RdCurr, WOWrInvF) or as part of one with byte enables
(WOWrInv), as a CXL.io memory request, or as a UIO request (R386, R390). -/
inductive HostForm where
  | lines | bytes | io | uio
  deriving DecidableEq, Repr

/-- What the package sends out, in order: the model's record of it, which no rule of the manual reads back. -/
inductive Output where
  /-- A dictionary reply on a transport; on the rack, header, message and signature. -/
  | reply (t : Transport) (bytes : Bytes)
  /-- A status on the CXL mailbox: return code and payload. -/
  | mailbox (code : Nat) (payload : Bytes)
  /-- An MSI-X message. -/
  | msi (vector : Nat)
  /-- A Varx frame on a port: header, payload and CRC (R349). -/
  | frame (port : Nat) (bytes : Bytes)
  /-- A slice or refresh handed to a channel: channel, destination chip, operation number, bytes. -/
  | slice (channel dest number : Nat) (bytes : Bytes)
  /-- Data, poison or completion for a host or peer request. -/
  | hostData (bytes : Bytes) (poison : Bool)
  | hostDone (abort : Bool)
  | unsupportedRequest
  /-- Request Retry Status, or a normal completion with what is read, of a configuration request. -/
  | configRetry
  | configDone (data : Bytes)
  /-- A device read or write of host memory, in the form it takes on the link (R386, R390). -/
  | hostRead (form : HostForm) (address length : Nat)
  | hostWrite (form : HostForm) (address : Nat) (bytes : Bytes)
  /-- The answer to a snoop: no line held. -/
  | snoopMiss
  /-- An SPDM response on a transport. -/
  | spdm (t : Transport) (bytes : Bytes)
  /-- SYNC_OUT driven high or low. -/
  | syncOut (high : Bool)
  deriving DecidableEq, Repr

/-- Why the machine stops with a fault. -/
inductive Fault where
  /-- REGISTER_WRITE, DOORBELL: an offset outside BAR0's 8 MiB; the manual gives the block no such address (R380). Safe. -/
  | outsideBar
  /-- HOST_MEM_READ, HOST_MEM_WRITE: a host address outside B to B + 768 GiB, which no decoder routes to this block
  (R382). Safe. -/
  | outsideDeviceMemory
  deriving DecidableEq, Repr

/-- Why a command is refused. -/
inductive Refusal where
  /-- An arm of `exec` that has no meaning yet. Safe. -/
  | notModelled (mnemonic : String)
  /-- REGISTER_WRITE to the CXL component or device register blocks, whose registers the CXL standard gives and the manual
  does not (R380). Safe. -/
  | cxlStandardRegister
  deriving DecidableEq, Repr

/-- The package. -/
structure State where
  /-- The package time base (R60). -/
  now : Ns
  dict : Dict
  net : Net
  clocks : Map CoreClock
  epochs : Epochs
  queues : Map Queue
  cmds : List Cmd
  nextCmd : Nat
  engines : Map Engine
  fences : Map Nat
  xlat : Xlat
  mem : Memory
  streams : Streams
  integ : Integrity
  fabric : Fabric
  host : HostPort
  mailbox : Mailbox
  power : Power
  pins : Pins
  startup : Startup
  spdm : Spdm
  tables : Map Table
  lookups : List LookupRun
  update : Update
  arith : Arith
  /-- Free values drawn so far: the model's own counter (notes/assumptions/8.md). -/
  free : Nat
  out : List Output
  /-- Commands waiting, first in, first out. -/
  pending : List Instr
  deriving DecidableEq, Repr

/-! ### Defaults of the sparse maps, and reset -/

/-- A core's generator at start-up: no change pending. -/
def CoreClock.init : CoreClock := { pending := none, relocking := false }

/-- A queue at start-up (R312 to R316). -/
def Queue.init : Queue :=
  { ring := 0, config := 0, state := .disabled, error := 0, head := 0, tail := 0, disableAfter := false, launch := none }

/-- An engine at start-up: no turn, zero balances, idle. Turn order starts so that job 0 comes first. -/
def Engine.init : Engine :=
  { turn := none, floorTurn := false, lastLatency := 63, lastBackground := 63, balances := [], interval := none,
    idleSince := 0, gated := false, granted := false, waitingSince := none, meteredSince := none, paused := false }

/-- A stream slot at start-up (R291). -/
def StreamSlot.init : StreamSlot := { state := .idle, active := none, shadow := none }

/-- A regulator at start-up: unregulated (R302). -/
def Regulator.init : Regulator := { rate := 0, depth := 0, tokens := 0, filled := 0, wanted := [] }

/-- A digest group at start-up. -/
def DigestGroup.init : DigestGroup :=
  { active := false, armed := false, epoch := 0, regionsPending := false, sums := [], due := [], messages := [], expelled := [] }

/-- A verify pair at start-up. -/
def VerifyPair.init : VerifyPair := { own := [], peer := [], due := [] }

/-- A port at start-up (R350). -/
def Port.init : Port :=
  { nextSend := 0, nextAccept := 0, unacked := [], requests := [], responses := [], data := [], replays := 0, beacon := none, beaconAt := 0,
    downAt := 0, leekTurn := 0 }

/-- A channel at start-up (R363). -/
def Channel.init : Channel := { running := none, waiting := [], last := none }

/-- An absent table number (R75) with the training defaults of R151. -/
def Table.init : Table :=
  { state := .absent, desc := [], extents := [], replica := [], defaultRow := [], hot := [], warm := [], cold := [],
    pins := [], replicas := [], changes := [], dirty := [], candidates := [], sketch := [], moves := [],
    releases := [], owed := [], rate := 0, epsilon := 0x322BCC77, budget := 500, channel := 0, spill := [],
    since := 0, counts := [], drops := [] }

/-- An empty weight bank. -/
def Bank.init : Bank :=
  { valid := false, active := false, offset := 0, stride := 0, mode := 0, int4 := false, row := 0, col := 0, bytes := [],
    first := 0, lineBytes := 0, lines := 0 }

/-- An empty program slot (R216). -/
def ProgramSlot.init : ProgramSlot := { loaded := false, job := 0, program := 0, words := [] }

/-- An erased image slot. -/
def ImageSlot.init : ImageSlot := { bytes := [], programmed := [] }

/-- A connection before GET_VERSION. -/
def SpdmConn.init : SpdmConn := { stage := .start, transcriptA := [], transcriptB := [], transcriptL := [] }

/-- PLCA as the defaults of R49 give it. -/
def Plca.init : Plca := { enable := false, node := 255, count := 8, timer := 32, burst := 0 }

/-- The package before its first start-up, as manufactured: no supply valid, every object at its default, no image in
either slot, no memory cell written. -/
def State.reset : State :=
  { now := 0
    dict := { nums := [], blobs := [], older := [], olderBlobs := [] }
    net := { owed := [], lastPlace := none, sessions := [], nextSession := 1, draws := 0, plca := Plca.init, plcaPending := false, newestCopy := 0 }
    clocks := []
    epochs := { ending := .none, period := 100000, mode := 0, syncOutHigh := false, syncOutRose := 0,
                syncOutBefore := false, syncOutChanged := 0, stepped := false, toCorrect := 0, rateFraction := 0, offsetSince := none,
                linkDelay := 0, timeSent := none }
    queues := []
    cmds := []
    nextCmd := 1
    engines := []
    fences := []
    xlat := { tlbs := [], walks := [], invals := [], overrun := false, done := 0, migSrc := 0, migDst := 0, migCtl := 0,
              migState := 0, migReason := 0, migStarted := 0, copySrc := 0, copyDst := 0, copyCtl := 0 }
    mem := { cells := [], bad := [], flips := [], sramBad := [], sramSeen := [], corrected := [], retired := [], pendingPages := [],
             olderRetired := [], olderPending := [], newestLists := 0,
             scrubPos := [], scrubPasses := [] }
    streams := { slots := [], requests := [], regulators := [], turns := [] }
    integ := { reports := [], unheld := [], lostBefore := 0, lastRecord := none, log := [], groups := [], pairs := [],
               windows := [], testing := [], suspects := [], recoverySince := none, faultClusters := [] }
    fabric := { shape := (1, 1, 1, 0), ports := [], candidate := 0, candidateSettled := false, hops := 0, parent := none,
                coords := [], settled := false, reported := false, reports := [], unreported := [], present := [0], rootHeard := 0, channels := [],
                collectives := [], requests := [], nextRequest := 0, outgoing := [] }
    host := { perst := false, phy := false, dlUp := false, memSpace := false, busMaster := false, msix := false,
              uio := false, committed := false, refusal := 0, vec := 0, p2pBase := [], p2pSize := [], msixTable := [],
              held := [], reads := [], writes := [], issued := 0, discards := [], ideKeys := 0, ideSkid := false, notified := [] }
    mailbox := { events := [], nextHandle := 1, policy := [0, 0, 0, 0, 0], timestamp := 0, timestampAt := 0 }
    power := { runStart := none, calmSince := none, goodSamples := 0, granted := 0, sampleMw := 0, skip := 0, clusterSkip := [],
               lastGrant := [], noted := 0, supplyCap := false, coolantCap := false, coolantBack := none,
               coolantAt := none, throttledStacks := [], logicHot := [], stackHot := [],
               logicTemps := [], raising := [] }
    pins := { fault := false, thermTrip := false }
    startup := { stage := .off, supply12 := false, supplyMgt := false, supplyIo := false, regulators := false, cause := 0,
                 preferred := 0, trial := false, previous := 0, olderBoot := (0, false, 0), newestBoot := 0, booted := none, trialRun := false,
                 slotA := ImageSlot.init, slotB := ImageSlot.init, erasing := false, minSecurity := 0, revoked := 0,
                 chainValid := false, measurements := [] }
    spdm := { board := SpdmConn.init, host := SpdmConn.init, sessions := [] }
    tables := []
    lookups := []
    update := { entries := [], deliveries := [], runs := [], sequences := [], exchanges := [], applyEpoch := 0,
                applyStart := 0, parts := [], turns := [], busySince := [], busy := [], swaps := [], markers := [],
                delivered := [], epochFences := [] }
    arith := { banks := [], slots := [], runs := [], passes := [] }
    free := 0
    out := []
    pending := [] }

end Sys2Proof.Machine
end

