-- ==== Sys2Proof/Machine/Objects.lean ====
section
/-! DEFINITION. Access to dictionary objects by key (R29 to R34): descriptors, defaults, reading and writing a value, counters,
and the checks of R32 that do not depend on the object's owner. -/
namespace Sys2Proof.Machine

/-- The key of an object: index * 256 + subindex. -/
def objKey (index sub : Nat) : Nat := index * 256 + sub

/-- A row covers an index and subindex. -/
def ObjRow.covers (r : ObjRow) (index sub : Nat) : Bool :=
  r.base ≤ index && index < r.base + r.n && r.s0 ≤ sub && sub ≤ r.s1

/-- Some row covers the index. -/
def indexExists (index : Nat) : Bool := objRows.any (fun r => r.base ≤ index && index < r.base + r.n)

/-- The highest member subindex of a record or array (R29); 0 for a single variable. -/
def highestSub (index : Nat) : Nat :=
  objRows.foldl (fun m r => if r.base ≤ index && index < r.base + r.n && m < r.s1 then r.s1 else m) 0

/-- Subindex 0 of a record or array (R29): U8, read-only on every transport. The manual gives it no name but once; the name that
describe gives is the model's choice (notes/assumptions/104.md). -/
def countRow (index : Nat) : ObjRow :=
  ⟨index, 1, 0, 0, .u8, 0, 1, 1, 1, highestSub index, .any, false, "Highest subindex"⟩

/-- The descriptor of an object, none when it does not exist. -/
def objRow (index sub : Nat) : Option ObjRow :=
  match objRows.find? (fun r => r.covers index sub) with
  | some r => some r
  | none => if sub = 0 ∧ indexExists index then some (countRow index) else none

/-- The default of a number object. The E modules of CD3 and CD7 read 0, not connected (R28). -/
def dfltNum (k : Nat) : Nat :=
  if k = 0x125302 ∨ k = 0x125702 then 0
  else match objRow (k / 256) (k % 256) with
    | some r => r.dflt
    | none => 0

/-- The default of a STRING or OCTETS object (R49, R432); OCTETS default to zeros. -/
def dfltBlob (k : Nat) : Bytes :=
  if k = 0x100001 then ascii "Yobisko"
  else if k = 0x100002 then ascii "Mladrok MD-3"
  else if k = 0x100003 then ascii "YBK-MD3-768L"
  else match objRow (k / 256) (k % 256) with
    | some r =>
      if r.ty = .octets then List.replicate r.size (if r.base = 0x4050 ∧ k % 256 ≤ 3 then 0xFF else 0) else []
    | none => []

/-- The value of a number object. -/
def State.num (s : State) (k : Nat) : Nat := Map.get (dfltNum k) s.dict.nums k

/-- Store a number object's value; a value equal to the default is not listed. -/
def State.setNum (s : State) (k v : Nat) : State :=
  { s with dict := { s.dict with nums := Map.put s.dict.nums k (if v = dfltNum k then none else some v) } }

/-- The value of a STRING or OCTETS object. -/
def State.blob (s : State) (k : Nat) : Bytes := Map.get (dfltBlob k) s.dict.blobs k

/-- Store a STRING or OCTETS object's value. -/
def State.setBlob (s : State) (k : Nat) (v : Bytes) : State :=
  { s with dict := { s.dict with blobs := Map.put s.dict.blobs k (if v = dfltBlob k then none else some v) } }

/-- A BOOL object's value. -/
def State.flag (s : State) (k : Nat) : Bool := s.num k != 0

/-- Store a BOOL object's value. -/
def State.setFlag (s : State) (k : Nat) (b : Bool) : State := s.setNum k (if b then 1 else 0)

/-- Size in bytes of a type's encoding (R30); 0 where the length varies. -/
def ObjType.size : ObjType → Nat
  | .bool => 1 | .u8 => 1 | .u16 => 2 | .u32 => 4 | .u64 => 8
  | .i8 => 1 | .i16 => 2 | .i32 => 4 | .i64 => 8
  | .f32 => 4 | .time => 8 | .string => 0 | .octets => 0 | .domain => 0 | .action => 4

/-- The type code of R30. -/
def ObjType.code : ObjType → Nat
  | .bool => 0x01 | .u8 => 0x02 | .u16 => 0x03 | .u32 => 0x04 | .u64 => 0x05
  | .i8 => 0x06 | .i16 => 0x07 | .i32 => 0x08 | .i64 => 0x09
  | .f32 => 0x0A | .time => 0x0B | .string => 0x0C | .octets => 0x0D | .domain => 0x0E | .action => 0x0F

/-- Values a number object can hold: 256 to the power of its size. -/
def objSpan (k : Nat) : Nat :=
  match objRow (k / 256) (k % 256) with
  | some r => 256 ^ r.ty.size
  | none => 2 ^ 64

/-- Advance a counter object. A count that passes the object's width reads a free value, since the manual does not say what
it reads then (notes/assumptions/8.md). -/
def State.bump (s : State) (k n : Nat) : State :=
  let v := s.num k + n
  s.setNum k (if v < objSpan k then v else Config.counterPast k v % objSpan k)

/-- The object of a key is persistent (R33). -/
def persistentKey (k : Nat) : Bool := (objRow (k / 256) (k % 256)).any (fun r => r.persistent)

/-- A configuration copy is written with the persistent objects as they stand now: what they held before (`old`) stays in the other
copy, and the writes are counted (R33, 0x1011.01). -/
def State.durable (s old : State) : State :=
  let s : State := { s with
    dict := { s.dict with older := old.dict.nums.keep persistentKey, olderBlobs := old.dict.blobs.keep persistentKey }
    net := { s.net with newestCopy := 1 - s.net.newestCopy } }
  s.bump (objKey 0x1011 1) 1

/-- Zero the number objects from `lo` to `hi`, both included. -/
def State.clearNums (s : State) (lo hi : Nat) : State :=
  { s with dict := { s.dict with nums := Map.keep s.dict.nums (fun k => k < lo || hi < k) } }

/-- The rights of a transport on an object: 0 none, 1 r, 2 w, 3 rw (R31). -/
def ObjRow.right (r : ObjRow) : Transport → Nat
  | .host => r.host
  | .board => r.board
  | .rack => r.rack

def ObjRow.readable (r : ObjRow) (t : Transport) : Bool := bit (r.right t) 0
def ObjRow.writable (r : ObjRow) (t : Transport) : Bool := bit (r.right t) 1

/-- Valid UTF-8 (R30): well-formed sequences, no overlong form, no surrogate, nothing above U+10FFFF. `need` continuation
bytes are still due, the next of them within `lo` to `hi`. -/
def utf8Ok : Nat → Nat → Nat → Bytes → Bool
  | need, _, _, [] => need = 0
  | 0, _, _, b :: bs =>
    let v := b.toNat
    if v < 0x80 then utf8Ok 0 0 0 bs
    else if 0xC2 ≤ v && v ≤ 0xDF then utf8Ok 1 0x80 0xBF bs
    else if v = 0xE0 then utf8Ok 2 0xA0 0xBF bs
    else if v = 0xED then utf8Ok 2 0x80 0x9F bs
    else if 0xE1 ≤ v && v ≤ 0xEF then utf8Ok 2 0x80 0xBF bs
    else if v = 0xF0 then utf8Ok 3 0x90 0xBF bs
    else if 0xF1 ≤ v && v ≤ 0xF3 then utf8Ok 3 0x80 0xBF bs
    else if v = 0xF4 then utf8Ok 3 0x80 0x8F bs
    else false
  | need + 1, lo, hi, b :: bs =>
    lo ≤ b.toNat && b.toNat ≤ hi && utf8Ok need 0x80 0xBF bs

/-- A value of the type and length carries a reserved value (R5, R30, R32). -/
def reservedValue (r : ObjRow) (value : Bytes) : Bool :=
  let v := leNat value
  (r.ty = .bool && 1 < v) ||
  (r.ty = .string && !utf8Ok 0 0 0 value) ||
  (match r.range with
   | .codes l => !l.contains v
   | .bits mask => v &&& mask != v
   | _ => false)

/-- A value lies outside the object's range (R30, R32). A signed object's bounds do not occur in the manual's writable rows;
an F32 NaN or infinity is out of range. -/
def outOfRange (r : ObjRow) (value : Bytes) : Bool :=
  let v := leNat value
  (r.ty = .f32 && bits v 30 23 = 255) ||
  (match r.range with
   | .span lo hi => v < lo || hi < v
   | .spanOr lo hi x => (v < lo || hi < v) && v != x
   | .step lo hi st => v < lo || hi < v || (v - lo) % st != 0
   | .aligned a below => v % a != 0 || below ≤ v
   | .length lo hi => value.length < lo || hi < value.length
   | _ => false)

/-- The length of a value matches the type (R30, R32). -/
def lengthOk (r : ObjRow) (value : Bytes) : Bool :=
  match r.ty with
  | .string => value.length ≤ 255
  | .octets => value.length = r.size
  | .domain => value.length ≤ 1024
  | t => value.length = t.size

end Sys2Proof.Machine
end

