-- ==== Sys2Proof/Machine/Ops.lean ====
section
/-! DEFINITION. The named operations that the meanings share: outputs and free values, units and engines, reports and interrupts,
time and its accounting, accesses to memory, and the execution fault. -/
namespace Sys2Proof.Machine

/-! ### Outputs and free values -/

/-- Send something out of the package. -/
def State.emit (s : State) (o : Output) : State := { s with out := s.out ++ [o] }

/-- Draw a free number: a value the manual leaves undefined (notes/assumptions/8.md). -/
def State.drawNat (s : State) : Nat × State := (Config.freeNat s.free, { s with free := s.free + 1 })

/-- Draw `n` undefined bytes (notes/assumptions/8.md). -/
def State.drawBytes (s : State) (n : Nat) : Bytes × State := (Config.freeBytes s.free n, { s with free := s.free + 1 })

/-- Draw a 32-byte nonce (notes/assumptions/7.md). -/
def State.drawNonce (s : State) : Bytes × State :=
  (Config.nonce s.net.draws, { s with net := { s.net with draws := s.net.draws + 1 } })

/-! ### Units (R13, R411) -/

/-- The kind code of R411. -/
def UnitKind.code : UnitKind → Nat
  | .matrix => 0 | .vector => 1 | .stream => 2 | .lookup => 3 | .rowMerge => 4 | .digest => 5 | .walker => 6 | .memory => 7
  | .tester => 8 | .frontEnd => 9 | .ucie => 10 | .varx => 11 | .cxl => 12 | .iod => 13 | .core => 14 | .cluster => 15

/-- The unit code of R411 bytes 4–5. -/
def UnitId.code (u : UnitId) : Nat := u.kind.code * 0x1000 + u.num

/-- The cluster that holds a unit (R13); cluster 0 for a queue front end, whose walker the manual does not name
(notes/assumptions/12.md), and for IOD units. -/
def UnitId.cluster (u : UnitId) : Nat :=
  match u.kind with
  | .matrix => u.num / 8 | .vector => u.num / 8 | .stream => u.num / 8 | .core => u.num / 8
  | .lookup => u.num / 2
  | .rowMerge => u.num | .digest => u.num | .walker => u.num | .memory => u.num | .tester => u.num | .cluster => u.num
  | _ => 0

/-- Units of R13 that have their own clock and gate it (R444). -/
def UnitId.gates (u : UnitId) : Bool := u.kind = .matrix || u.kind = .vector || u.kind = .stream

/-- The kind of engine is one that executes commands (R8). -/
def UnitKind.isEngine : UnitKind → Bool
  | .matrix => true | .vector => true | .stream => true | .lookup => true | .rowMerge => true | _ => false

/-- The count of R13 of a kind of engine. -/
def UnitKind.count : UnitKind → Nat
  | .matrix => 256 | .vector => 256 | .stream => 256 | .core => 256 | .lookup => 64 | _ => 32

/-- The accounting subindex of an engine kind (R74). -/
def UnitKind.account : UnitKind → Nat
  | .matrix => 1 | .vector => 2 | .stream => 3 | .lookup => 4 | _ => 5

/-! ### Engines, queues, jobs by number -/

def State.engine (s : State) (u : UnitId) : Engine := Map.get Engine.init s.engines u.code

def State.setEngine (s : State) (u : UnitId) (e : Engine) : State :=
  { s with engines := Map.set Engine.init s.engines u.code e }

def State.queue (s : State) (q : Nat) : Queue := Map.get Queue.init s.queues q

def State.setQueue (s : State) (q : Nat) (v : Queue) : State := { s with queues := Map.set Queue.init s.queues q v }

def State.core (s : State) (c : Nat) : CoreClock := Map.get CoreClock.init s.clocks c

def State.setCore (s : State) (c : Nat) (v : CoreClock) : State := { s with clocks := Map.set CoreClock.init s.clocks c v }

def State.table (s : State) (t : Nat) : Table := Map.get Table.init s.tables t

def State.setTable (s : State) (t : Nat) (v : Table) : State := { s with tables := Map.set Table.init s.tables t v }

def State.streamSlot (s : State) (core slot : Nat) : StreamSlot := Map.get StreamSlot.init s.streams.slots (16 * core + slot)

def State.setStreamSlot (s : State) (core slot : Nat) (v : StreamSlot) : State :=
  { s with streams := { s.streams with slots := Map.set StreamSlot.init s.streams.slots (16 * core + slot) v } }

def State.channel (s : State) (c : Nat) : Channel := Map.get Channel.init s.fabric.channels c

def State.setChannel (s : State) (c : Nat) (v : Channel) : State :=
  { s with fabric := { s.fabric with channels := Map.set Channel.init s.fabric.channels c v } }

def State.port (s : State) (p : Nat) : Port := Map.get Port.init s.fabric.ports p

def State.setPort (s : State) (p : Nat) (v : Port) : State :=
  { s with fabric := { s.fabric with ports := Map.set Port.init s.fabric.ports p v } }

/-- Codes of the job states (R55). -/
def jobFree : Nat := 0
def jobOpen : Nat := 1
def jobClosing : Nat := 2
def jobLost : Nat := 3

/-- Job j's state, class (0 latency, 1 background) and close status objects (R74). -/
def jobStateKey (j : Nat) : Nat := objKey (0x2010 + j) 1
def jobClassKey (j : Nat) : Nat := objKey (0x2010 + j) 2
def jobVerifiedKey (j : Nat) : Nat := objKey (0x2010 + j) 3
def jobOpenKey (j : Nat) : Nat := objKey (0x2010 + j) 4
def jobCloseKey (j : Nat) : Nat := objKey (0x2010 + j) 5
def jobOpenedKey (j : Nat) : Nat := objKey (0x2010 + j) 6

def State.job (s : State) (j : Nat) : Nat := s.num (jobStateKey j)

/-- A job is of the latency class. -/
def State.latency (s : State) (j : Nat) : Bool := s.num (jobClassKey j) = 0

/-- Tenancy state codes (R74): none, active, ending. -/
def tenancyKey : Nat := objKey 0x2000 3
def State.tenancy (s : State) : Nat := s.num tenancyKey

/-- The start-up state codes of 0x12A0.01. -/
def startupKey : Nat := objKey 0x12A0 1
def State.usable (s : State) : Bool := s.num startupKey = 1 && s.startup.stage = .usable

/-- Epochs are running (0x2100.03); the current epoch and boundaries (0x2100.04 to .06). -/
def State.epochsRunning (s : State) : Bool := s.flag (objKey 0x2100 3)
def State.epoch (s : State) : Nat := s.num (objKey 0x2100 4)

/-- The account counters of a job (R74). -/
def acctKey (a sub : Nat) : Nat := objKey (0x6000 + a) sub

/-- Advance a counter of an account: a job's stops advancing once its slot is free or lost (R59). -/
def State.acct (s : State) (a sub n : Nat) : State :=
  if a = 64 ∨ s.job a = jobOpen ∨ s.job a = jobClosing then s.bump (acctKey a sub) n else s

/-- Find a command in flight or waiting by its identifier. -/
def State.cmd? (s : State) (id : Nat) : Option Cmd := s.cmds.find? (fun c => c.id = id)

/-- Replace a command. -/
def State.setCmd (s : State) (c : Cmd) : State := { s with cmds := mapIf (fun d => d.id = c.id) (fun _ => c) s.cmds }

/-- Commands that hold their engine: started and not completed. -/
def Cmd.inFlight (c : Cmd) : Bool := c.phase = .running || c.phase = .finished

/-! ### Interrupts (R388, R396) -/

/-- Raise a vector: it is held until it can be sent, after the writes issued so far have their GO. A vector already held
stays held once. -/
def State.raise (s : State) (v : Nat) : State :=
  { s with host := { s.host with
      held := s.host.held.filter (fun h => h.vector ≠ v) ++ [{ vector := v, after := s.host.issued }] } }

/-! ### Reports (R411, R412) -/

/-- A report of a unit with no queue, opcode or addresses, at this instant. -/
def State.newReport (s : State) (unit : UnitId) (code effect tag : Nat) : Report :=
  { unit := unit, code := code, effect := effect, tag := tag, queue := 0xFFFF, opcode := none, count := 1, first := s.now,
    last := s.now, address := 0, physical := 0, detail := 0 }

/-- A report about a command of an engine or of the front end. -/
def State.cmdReport (s : State) (c : Cmd) (code effect : Nat) : Report :=
  { s.newReport (c.unit.getD ⟨.frontEnd, c.queue⟩) code effect c.job with
    queue := c.queue, opcode := some (fieldLe c.bytes 0 1) }

/-- The pending reports of a unit. -/
def State.pendingOf (s : State) (u : UnitId) : List Report := s.integ.reports.filter (fun r => r.unit = u)

/-- Hold a report, fold it into the pending one of its unit and code, or count it as unheld when four distinct codes are
pending (R412). -/
def State.report (s : State) (r : Report) : State :=
  if (s.pendingOf r.unit).any (fun p => p.code = r.code) then
    { s with integ := { s.integ with
        reports := mapIf (fun p => p.unit = r.unit ∧ p.code = r.code)
          (fun p => { p with count := min (p.count + r.count) 0xFFFFFFFF, last := r.last }) s.integ.reports } }
  else if (s.pendingOf r.unit).length < 4 then
    { s with integ := { s.integ with reports := s.integ.reports ++ [r] } }
  else
    ({ s with integ := { s.integ with
        unheld := Map.set 0 s.integ.unheld r.unit.code (min (Map.get 0 s.integ.unheld r.unit.code + 1) 0xFFFF) } }).bump
      (objKey 0x4000 7) 1

/-- A fault record of 64 bytes (R411). -/
def faultRecord (r : Report) (unheld lostBefore seq : Nat) : Bytes :=
  natLe 2 r.code ++ natLe 1 (r.effect + (if 1 < r.count then 8 else 0)) ++ natLe 1 r.tag ++ natLe 2 r.unit.code ++ natLe 2 r.queue ++
    natLe 1 (r.opcode.getD 0) ++ natLe 1 (if r.opcode.isSome then 1 else 0) ++ natLe 2 unheld ++ natLe 4 r.count ++
    natLe 8 r.first ++ natLe 8 r.last ++ natLe 8 r.address ++ natLe 8 r.physical ++ natLe 4 r.detail ++ natLe 4 lostBefore ++
    natLe 8 seq

/-- Records that the firmware log copies (R414). -/
def logCopies (r : Report) : Bool :=
  r.effect = 4 || r.effect = 5 || r.effect = 6 || (0x1004 ≤ r.code && r.code ≤ 0x1006) || (0x3005 ≤ r.code && r.code ≤ 0x3009) ||
  r.code / 0x1000 = 4 || r.code / 0x1000 = 8 || r.code / 0x1000 = 9

/-- Write a record to the firmware log, overwriting its oldest when it holds 256 (R414). -/
def State.firmwareLog (s : State) (b : Bytes) : State :=
  let s := if s.integ.log.length < 256 then s else s.bump (objKey 0x4003 1) 1
  { s with integ := { s.integ with log := (if s.integ.log.length < 256 then s.integ.log else s.integ.log.drop 1) ++ [b] } }

/-! ### Time and its accounting (R57, R338, R341, R343) -/

/-- A command is the oldest in flight on its engine: the one that started first. -/
def oldestOn (cmds : List Cmd) (c : Cmd) : Bool :=
  c.inFlight && cmds.all (fun d => !d.inFlight || d.unit ≠ c.unit || c.started < d.started ||
    (c.started = d.started && c.id ≤ d.id))

/-- An engine every command of which in flight is halted for the host is charged to no job (R306). -/
def engineUncharged (cmds : List Cmd) (u : UnitId) : Bool :=
  cmds.all (fun d => !(d.inFlight && d.unit = some u) || d.uncharged)

/-- What a charge adds to the amount by which a balance lies below zero: the overrun (R339), counted as it is charged
(notes/assumptions/15.md). -/
def overrunOf (balance : Int) (dt : Nat) : Nat := (max 0 (dt - balance)).toNat - (max 0 (-balance)).toNat

/-- Engine time: charge `dt` to the job of the oldest command in flight, lower its balance, count its overrun, and add to the
busy time of a running background-floor interval. -/
def State.chargeCmd (s : State) (dt : Nat) (c : Cmd) : State :=
  match c.unit with
  | none => s
  | some u =>
    if engineUncharged s.cmds u then s
    else
      let e := s.engine u
      let interval := e.interval.map (fun i =>
        { i with busy := i.busy + dt, background := i.background + (if s.latency c.job then 0 else dt) })
      let b := Map.get 0 e.balances c.job
      let s := s.setEngine u { e with balances := Map.set 0 e.balances c.job (b - dt), interval := interval }
      (s.acct c.job u.kind.account dt).acct c.job 0x0C (overrunOf b dt)

/-- Stacks at the doubled refresh rate count their time there (0x6500 + s .0B). -/
def State.chargeRefresh (s : State) (dt : Nat) : State :=
  (List.range 32).foldl (fun s k => if s.num (objKey (0x2510 + k) 2) = 2 then s.bump (objKey (0x6500 + k) 0x0B) dt else s) s

/-- Time with L4 or L5 engaged, in which the guarantees of R441 are suspended. -/
def State.chargeSuspended (s : State) (dt : Nat) : State :=
  if s.num (objKey 0x1100 5) / 4 = 0 then s else s.bump (objKey 0x1100 0x0C) dt

/-- The engine times that the test of a unit counts in: those of a core's three engines, of a lookup engine, or of the row-merge unit for a
cluster's units (notes/assumptions/125.md). -/
def testAccounts (code : Nat) : List Nat := if code < 0x100 then [1, 2, 3] else if code < 0x140 then [4] else [5]

/-- In-field test is firmware work: its time is charged to the firmware account and to no job (R58, R430). -/
def State.chargeTests (s : State) (dt : Nat) : State :=
  (s.integ.testing.flatMap testAccounts).foldl (fun s k => s.acct 64 k dt) s

/-! Time and the boundary ahead (R60, R64, R66, R68, R72) -/

def epochKey : Nat := objKey 0x2100 4
def boundaryKey : Nat := objKey 0x2100 5
def nextBoundaryKey : Nat := objKey 0x2100 6

/-- The period that governs the next boundary, ns. -/
def State.periodNs (s : State) : Nat := s.epochs.period * 1000

/-- The nominal next boundary N. -/
def State.nominal (s : State) : Nat := s.num boundaryKey + s.periodNs

/-- The next boundary is not yet committed. -/
def State.uncommitted (s : State) : Bool := s.epochsRunning && s.num nextBoundaryKey = 0

/-- The last instant that time may reach before the next boundary is dealt with: the nanosecond before a committed boundary, which falls
at exactly its time by EPOCH_BOUNDARY (R64); the latest instant at which a free-running boundary is committed (R66); the instant
at which a steered window is decided (R68). -/
def State.horizon (s : State) : Option Ns :=
  if !s.epochsRunning then none
  else if s.num nextBoundaryKey ≠ 0 then some (s.num nextBoundaryKey - 1)
  else if s.epochs.mode = 0 then some (s.nominal - 1000)
  else some (s.nominal + s.periodNs / 4 - 1000)

/-- The whole nanoseconds that a rate 100 ppm off gains or loses in `dt`, with what is gathered of the next one. -/
def State.slip (s : State) (dt : Nat) : Nat := (s.epochs.rateFraction + dt * 100) / 1000000

/-- The rate correction in force, ppm: at its limit while an offset is left to remove (R72, R73). -/
def State.ratePpm (s : State) : Int := if 0 < s.epochs.toCorrect then -100 else if s.epochs.toCorrect < 0 then 100 else 0

/-- How far the time base advances in `dt` nanoseconds of its oscillator: slower or faster by 100 ppm while an offset is left to
remove, and no further than the horizon (R60, R72, R73). -/
def State.lapse (s : State) (dt : Nat) : Nat :=
  let free :=
    if 0 < s.epochs.toCorrect then dt - min (s.slip dt) s.epochs.toCorrect.toNat
    else dt + min (s.slip dt) (-s.epochs.toCorrect).toNat
  match s.horizon with
  | some h => min free (h - s.now)
  | none => free

/-- What is left of the rate correction after `dt` nanoseconds. -/
def Epochs.corrected (e : Epochs) (slip dt : Nat) : Epochs :=
  if e.toCorrect = 0 then e
  else if e.toCorrect.natAbs ≤ slip then { e with toCorrect := 0, rateFraction := 0 }
  else { e with
    toCorrect := if 0 < e.toCorrect then e.toCorrect - slip else e.toCorrect + slip
    rateFraction := (e.rateFraction + dt * 100) % 1000000 }

/-- The time base advances by `dt` nanoseconds: engine time is charged, and running commands come nearer their watchdog. There is one
time base: every cluster's and core's copy of it reads exactly the master, where R25 lets it differ by 2 ns, which is the model's
choice (notes/assumptions/114.md). -/
def State.pass (s : State) (dt : Nat) : State :=
  if dt = 0 then s
  else
    let t := (s.cmds.filter (oldestOn s.cmds)).foldl (fun s c => s.chargeCmd dt c) s
    let t := ((t.chargeRefresh dt).chargeSuspended dt).chargeTests dt
    { t with
      now := s.now + dt
      cmds := mapIf (fun c => c.inFlight && !c.unwatched && c.unit.isSome) (fun c => { c with watched := c.watched + dt })
        t.cmds }

/-- Let `dt` nanoseconds pass. Time stops short of a boundary that has still to be committed or to fall
(notes/assumptions/113.md). -/
def State.tick (s : State) (dt : Nat) : State :=
  if dt = 0 then s
  else
    let t := s.pass (s.lapse dt)
    { t with epochs := s.epochs.corrected (s.slip dt) dt }

/-! ### Address ranges (R252, R274) and the interleave (R253 to R255) -/

/-- The guaranteed capacities of R26, in bytes: 32 × 24 GiB of stacked memory, 256 × 8 MiB of scratchpad, 32 × 16 MiB of buffer. -/
def stackedBytes : Nat := 0xC000000000
def scratchBytes : Nat := 0x80000000
def bufferBytes : Nat := 0x20000000

/-- The storage of R26 at its place in the local layout (R252, R274). -/
def isStacked (a : Nat) : Bool := a < stackedBytes
def isScratch (a : Nat) : Bool := 0xF000000000 ≤ a && a < 0xF000000000 + scratchBytes
def isBuffer (a : Nat) : Bool := 0xF100000000 ≤ a && a < 0xF100000000 + bufferBytes
def isSram (a : Nat) : Bool := isScratch a || isBuffer a

/-- `n` bytes from `a` lie wholly in one kind of storage. -/
def spanIn (p : Nat → Bool) (a n : Nat) : Bool := p a && p (a + n - 1)

def scratchBase (core : Nat) : Nat := 0xF000000000 + core * 0x800000
def bufferBase (cluster : Nat) : Nat := 0xF100000000 + cluster * 0x1000000

/-- The merge area of every cluster buffer is its top (0x2300.01) MiB (R143). -/
def State.mergeSize (s : State) : Nat := s.num (objKey 0x2300 1) * 0x100000

/-- An offset within a cluster buffer lies in the merge area. -/
def State.inMergeOffset (s : State) (o : Nat) : Bool := 0x1000000 - s.mergeSize ≤ o && o < 0x1000000

/-- A local offset lies in the merge area of a cluster buffer. -/
def State.inMerge (s : State) (a : Nat) : Bool := isBuffer a && s.inMergeOffset ((a - 0xF100000000) % 0x1000000)

/-- Any byte of a range lies in a merge area. -/
def State.meetsMerge (s : State) (a n : Nat) : Bool := n ≠ 0 && (s.inMerge a || s.inMerge (a + n - 1))

/-- The stack that holds a stacked-memory byte (R253 to R255), with `g` GiB of package-spread region per window. -/
def stackOf (g a : Nat) : Nat :=
  let d := a / 0x1800000000
  let w := a % 0x1800000000
  let base := 0x1800000000 - g * 0x40000000
  if w < base then
    let q := w >>> 8
    let t := bits q 6 0 ^^^ bits q 13 7 ^^^ bits q 20 14 ^^^ bits q 27 21 ^^^ bits q 28 28
    4 * d + bits t 6 5
  else
    let h := d * (g * 0x400000) + ((w - base) >>> 8)
    let u := bits h 9 0 ^^^ bits h 19 10 ^^^ bits h 29 20
    bits u 9 5

/-- Pseudo-channel and position within it of a stacked-memory byte (R254, R255). -/
def placeOf (g a : Nat) : Nat × Nat :=
  let d := a / 0x1800000000
  let w := a % 0x1800000000
  let base := 0x1800000000 - g * 0x40000000
  if w < base then
    let q := w >>> 8
    let t := bits q 6 0 ^^^ bits q 13 7 ^^^ bits q 20 14 ^^^ bits q 27 21 ^^^ bits q 28 28
    (bits t 4 0, q >>> 7)
  else
    let h := d * (g * 0x400000) + ((w - base) >>> 8)
    let u := bits h 9 0 ^^^ bits h 19 10 ^^^ bits h 29 20
    (bits u 4 0, (0x1800000000 - g * 0x40000000) / 0x8000 + (h >>> 10))

/-- Column quarter, bank and row of a position (R256). -/
def rowOf (q : Nat) : Nat × Nat × Nat := (bits q 1 0, bits q 6 2 ^^^ bits q 11 7, q >>> 7)

/-- The spread size in force, in GiB (R253): the object is fixed while a tenancy exists. -/
def State.spread (s : State) : Nat := s.num (objKey 0x2500 1)

def State.stackOf (s : State) (a : Nat) : Nat := Machine.stackOf s.spread a

/-! ### Memory accesses (R257 to R268, R405) -/

/-- Priority classes of R262. -/
inductive Class where
  | c0 | c1 | c2
  deriving DecidableEq, Repr

def Class.num : Class → Nat
  | .c0 => 0 | .c1 => 1 | .c2 => 2

/-- Who a memory access is for: its class, the account its bytes are counted in (64 firmware), and its tag. -/
structure Access where
  cls : Class
  account : Option Nat
  deriving DecidableEq, Repr

/-- One byte of memory; an unlisted byte reads zero, as initialised (R270, R51). -/
def State.byte (s : State) (a : Nat) : Byte := Map.get 0 s.mem.cells a

/-- `n` bytes from `a`, in address order. -/
def State.bytes (s : State) (a n : Nat) : Bytes := (List.range n).map (fun i => s.byte (a + i))

/-- Store bytes from `a`, keeping the canonical form. -/
def storeCells : List Host.Cell → Nat → Bytes → List Host.Cell
  | m, _, [] => m
  | m, a, b :: bs => storeCells (Map.set 0 m a b) (a + 1) bs

/-- The granules of 256 bytes that a range touches, as their first addresses. -/
def granules (a n : Nat) : List Nat :=
  if n = 0 then [] else (rangeFrom (a / 256) ((a + n - 1) / 256 + 1 - a / 256)).map (· * 256)

/-- The part of a range within the granule at `g`. -/
def inGranule (a n g : Nat) : Nat := min (a + n) (g + 256) - max a g

/-- Count bytes read (subindex 4 to 6) or written (7 to 9) by class on every stack of a range (R272), and in an account
(R74 .07 and .08). -/
def State.countBytes (s : State) (acc : Access) (write : Bool) (a n : Nat) : State :=
  let s := (granules a n).foldl (fun s g =>
    s.bump (objKey (0x6500 + s.stackOf g) ((if write then 7 else 4) + acc.cls.num)) (inGranule a n g)) s
  match acc.account with
  | some j => s.acct j (if write then 8 else 7) n
  | none => s

/-- Any page of a range is retired. -/
def State.meetsRetired (s : State) (a n : Nat) : Bool :=
  n ≠ 0 && s.mem.retired.any (fun p => a / 0x200000 ≤ p && p ≤ (a + n - 1) / 0x200000)

/-- The first code word of a range that is uncorrectable. -/
def State.firstBad (s : State) (a n : Nat) : Option Nat := s.mem.bad.find? (fun w => a / 32 * 32 ≤ w && w < a + n)

/-- The first 8-byte SRAM word of a range that is uncorrectable. -/
def State.firstSramBad (s : State) (a n : Nat) : Option Nat := s.mem.sramBad.find? (fun w => a / 8 * 8 ≤ w && w < a + n)

/-- The retirement lists are about to be written to the copy that is not the newer one (R33, R267). -/
def Memory.otherLists (m : Memory) : Memory :=
  { m with olderRetired := m.retired, olderPending := m.pendingPages, newestLists := 1 - m.newestLists }

/-- The page of a code word becomes pending retirement (R266): it is listed once, and the transition is recorded (0x1004) by
the controller that found the error. A full retired list does not matter here. -/
def State.makePending (s : State) (word : Nat) : State :=
  let page := word / 0x200000
  if s.mem.pendingPages.contains page || s.mem.retired.contains page then s
  else
    ({ s with mem := { s.mem.otherLists with pendingPages := insertAsc page s.mem.pendingPages } }).report
      { s.newReport ⟨.memory, s.stackOf word⟩ 0x1004 0 0xF0 with physical := page * 0x200000 }

/-- What an access answers: data, or the code of the bus error (0x1001 uncorrectable, 0x1002 partial code word, 0x1003 retired
page, 0x1007 SRAM). -/
inductive MemResult where
  | ok (data : Bytes)
  | bad (code : Nat)
  deriving DecidableEq, Repr

/-- Corrected code words of a page within the last 24 h (R266). -/
def State.recentCorrections (s : State) (page : Nat) : Nat :=
  (s.mem.corrected.filter (fun x => x.1 / 0x200000 = page && s.now < x.2 + 86400000000000)).length

/-- A correctable error found at a code word: rewritten once at class 2, counted, and the page pending when the error recurs or the
threshold is reached (R260, R264, R266). `account` is the firmware's when the scrubber finds it (R58). -/
def State.correct (s : State) (account : Option Nat) (word : Nat) : State :=
  let again := s.mem.corrected.any (fun x => x.1 = word)
  let s := (s.bump (objKey (0x6500 + s.stackOf word) 1) 1).countBytes ⟨.c2, account⟩ true word 32
  let s : State := { s with mem := { s.mem with
    flips := Map.put s.mem.flips word none
    corrected := s.mem.corrected.filter (fun x => x.1 ≠ word) ++ [(word, s.now)] } }
  if again || s.num (objKey 0x2503 1) ≤ s.recentCorrections (word / 0x200000) then s.makePending word else s

/-- An uncorrectable error found at a code word by a read: counted, and its page pending (R261, R266). -/
def State.foundBad (s : State) (word : Nat) : State := (s.bump (objKey (0x6500 + s.stackOf word) 2) 1).makePending word

/-- The code words of a range that hold a correctable error. -/
def State.flipped (s : State) (a n : Nat) : List Nat :=
  (s.mem.flips.filter (fun e => a / 32 * 32 ≤ e.1 && e.1 < a + n)).map (fun e => e.1)

/-- Every correctable error that a read of a range meets is corrected (R260). -/
def State.correctRange (s : State) (a n : Nat) : State := (s.flipped a n).foldl (fun s w => s.correct none w) s

/-- Read `n` bytes at a local offset. A correctable error is corrected and does not reach the requester; an uncorrectable code word
is counted, makes its page pending and answers a bus error; a retired page answers a bus error (R260, R261, R266, R268). -/
def State.read (s : State) (acc : Access) (a n : Nat) : MemResult × State :=
  if isStacked a then
    if s.meetsRetired a n then (.bad 0x1003, s)
    else
      match s.firstBad a n with
      | some w => (.bad 0x1001, s.foundBad w)
      | none => (.ok (s.bytes a n), (s.correctRange a n).countBytes acc false a n)
  else
    match s.firstSramBad a n with
    | some _ => (.bad 0x1007, s)
    | none => (.ok (s.bytes a n), s)

/-- A scratchpad range overlaps the bytes of a banked tile. -/
def Bank.overlaps (b : Bank) (lo n : Nat) : Bool :=
  (List.range b.lines).any (fun l => lo < b.first + l * b.stride * 64 + b.lineBytes && b.first + l * b.stride * 64 < lo + n)

/-- A scratchpad write invalidates every weight bank of its core that was loaded from the bytes written (R174). -/
def State.touchBanks (s : State) (a n : Nat) : State :=
  if isScratch a then
    { s with arith := { s.arith with
        banks := s.arith.banks.map (fun e =>
          if e.1 / 2 = (a - 0xF000000000) / 0x800000 ∧ e.2.valid ∧ e.2.overlaps ((a - 0xF000000000) % 0x800000) n then
            (e.1, { e.2 with valid := false })
          else e) } }
  else s

/-- The cells, codes and banks after a write that is performed: whole code words and whole SRAM words take a fresh code. -/
def State.store (s : State) (a : Nat) (data : Bytes) : State :=
  let n := data.length
  ({ s with mem := { s.mem with
      cells := storeCells s.mem.cells a data
      bad := s.mem.bad.filter (fun w => !(a ≤ w && w + 32 ≤ a + n))
      flips := s.mem.flips.filter (fun e => !(a ≤ e.1 && e.1 + 32 ≤ a + n))
      sramBad := s.mem.sramBad.filter (fun w => !(a ≤ w && w + 8 ≤ a + n))
      sramSeen := s.mem.sramSeen.filter (fun w => !(a ≤ w && w + 8 ≤ a + n)) } }).touchBanks a n

/-- A write covers whole code words (R258). -/
def wholeWords (a n : Nat) : Bool := a % 32 = 0 && n % 32 = 0

/-- Write bytes at a local offset. A retired page comes before the code-word rule (R268); a partial code word in stacked
memory writes nothing and is counted (R258); a partial write to an uncorrectable SRAM word is not performed (R405). -/
def State.write (s : State) (acc : Access) (a : Nat) (data : Bytes) : MemResult × State :=
  let n := data.length
  if isStacked a then
    if s.meetsRetired a n then (.bad 0x1003, s)
    else if wholeWords a n then (.ok [], (s.store a data).countBytes acc true a n)
    else (.bad 0x1002, s.bump (objKey (0x6500 + s.stackOf a) 3) 1)
  else if s.mem.sramBad.any (fun w => a / 8 * 8 ≤ w && w < a + n && !(a ≤ w && w + 8 ≤ a + n)) then (.bad 0x1007, s)
  else (.ok [], s.store a data)

/-- The code words that a range covers only in part: its first, its last, or none. -/
def partWords (a n : Nat) : List Nat :=
  if n = 0 then []
  else
    (if a % 32 = 0 && 32 ≤ n then [] else [a / 32 * 32]) ++
      (if (a + n) % 32 = 0 || (a + n - 1) / 32 = a / 32 then [] else [(a + n) / 32 * 32])

/-- The bytes of the code words that a range touches. -/
def wordSpan (a n : Nat) : Nat := if n = 0 then 0 else ((a + n - 1) / 32 + 1 - a / 32) * 32

/-- The row-merge unit's indivisible write of part of a code word (R145, R258): read, merge, rewrite. What the read of a word that is
covered in part finds is treated as a read's finding is (R260, R261). Whole code words move. -/
def State.mergeWrite (s : State) (acc : Access) (a : Nat) (data : Bytes) : MemResult × State :=
  let n := data.length
  if s.meetsRetired a n then (.bad 0x1003, s)
  else
    match (partWords a n).find? (fun w => s.mem.bad.contains w) with
    | some w => (.bad 0x1001, s.foundBad w)
    | none =>
      let s := (partWords a n).foldl (fun s w => (s.correctRange w 32).countBytes acc false w 32) s
      (.ok [], (s.store a data).countBytes acc true (a / 32 * 32) (wordSpan a n))

/-- Read one byte of stacked memory and rewrite it, as one indivisible read-merge-write of its code word (R145, R258). -/
def State.updateByte (s : State) (acc : Access) (a : Nat) (f : Byte → Byte) : MemResult × State :=
  if s.meetsRetired a 1 then (.bad 0x1003, s)
  else
    match s.firstBad a 1 with
    | some w => (.bad 0x1001, s.foundBad w)
    | none => s.mergeWrite acc a [f (s.byte a)]

/-! ### Execution fault (R56, R345, R346) -/

/-- A queue front end at an execution fault: every queue that is not disabled becomes lost, its launch and its position dropped
(R345, R346). -/
def loseQueue (q : Queue) : Queue :=
  if q.state = .disabled then q else { q with state := .lost, head := 0, tail := 0, launch := none, disableAfter := false }

/-- A job at an execution fault: open or closing becomes lost, and a close in progress fails (R55). -/
def State.loseJob (s : State) (j : Nat) : State :=
  if s.job j = jobOpen then s.setNum (jobStateKey j) jobLost
  else if s.job j = jobClosing then (s.setNum (jobStateKey j) jobLost).setNum (jobCloseKey j) 3
  else s

/-- The part of a channel's operations that an execution fault discards: everything but the refresh of the apply phase. -/
def keepRefresh (c : Channel) : Channel :=
  { c with
    running := if c.running.any (fun o => o.kind = .refresh) then c.running else none
    waiting := c.waiting.filter (fun o => o.kind = .refresh) }

/-- Drop what engines hold: commands, lookups, pushes, runs, streams, collectives, walks, TLBs of job tags, weight banks, waits for tokens,
and the package's part in exchanges (R345, R346). Writes already issued to the CXL port, fences, memory, tables, merge entries and
the apply phase stay. -/
def State.dropEngineState (s : State) : State :=
  { s with
    cmds := []
    lookups := []
    queues := s.queues.map (fun e => (e.1, loseQueue e.2))
    update := { s.update with
      runs := [], deliveries := []
      swaps := s.update.swaps.filter (fun x => x.epoch.isSome)
      entries := s.update.entries.map (fun (e : Nat × List MergeEntry) =>
        (e.1, e.2.map (fun m => { m with taken := none, since := none }))) }
    streams := { s.streams with
      slots := [], requests := [], regulators := s.streams.regulators.map (fun e => (e.1, { e.2 with wanted := [] })), turns := [] }
    arith := { s.arith with banks := [], runs := [], passes := [] }
    engines := s.engines.map (fun e => (e.1, { e.2 with turn := none, floorTurn := false, waitingSince := none, granted := false }))
    xlat := { s.xlat with
      tlbs := s.xlat.tlbs.map (fun e => (e.1, e.2.filter (fun t => 0x40 ≤ t.tag)))
      walks := s.xlat.walks.filter (fun w => 0x40 ≤ w.tag) }
    fabric := { s.fabric with
      collectives := []
      requests := []
      outgoing := s.fabric.outgoing.filter (fun o => 2 ≤ o.index && !o.chunk)
      channels := s.fabric.channels.map (fun e => (e.1, keepRefresh e.2)) }
    host := { s.host with
      reads := s.host.reads.filter (fun r => r.user = .migration) } }

/-- Close the background-floor intervals, turns and clock state of engines at an execution fault, and zero idle times. -/
def State.idleEngines (s : State) : State :=
  { s with engines := s.engines.map (fun e => (e.1, { e.2 with idleSince := s.now })) }

/-- An execution fault (R345): every open or closing job becomes lost, every queue that is not disabled is lost, engine state
is dropped, job tags are invalidated, the fault is reported with effect 4, counted in 0x2000.08, and recovery begins. A
further fault joins the recovery in progress. -/
def State.execFault (s : State) (r : Report) : State :=
  let s := (List.range 64).foldl State.loseJob s
  let s := (s.dropEngineState.idleEngines).bump (objKey 0x2600 2) 64
  let s := (s.report { r with effect := 4 }).bump (objKey 0x2000 8) 1
  let s := s.setFlag (objKey 0x2711 5) true
  { s with integ := { s.integ with
      recoverySince := some (s.integ.recoverySince.getD s.now)
      faultClusters := insertAsc r.unit.cluster s.integ.faultClusters } }

/-- An execution fault that a command meets, by code (R416). -/
def State.cmdFault (s : State) (c : Cmd) (code : Nat) : State := s.execFault (s.cmdReport c code 4)

/-- An illegal operation (R6). -/
def State.illegal (s : State) (c : Cmd) : State := s.cmdFault c 0x3001

end Sys2Proof.Machine
end

