-- ==== Sys2Proof/Machine/Xlat.lean ====
section
/-! DEFINITION. Translation: the page-table walk, TLBs, held and unresolvable faults, invalidation, and the migration copier
(R273 to R290). -/
namespace Sys2Proof.Machine

/-! ### The walk (R276 to R278) -/

/-- What a walk finds. -/
inductive WalkResult where
  /-- A valid leaf: page size in bits, target of the page's first byte, write permission. -/
  | leaf (size : Nat) (target : Target) (write : Bool)
  /-- An entry whose Valid bit is 0, with its Service bit. -/
  | invalid (service : Bool)
  /-- An unresolvable fault with the detail of R416. -/
  | fault (detail : Nat)
  deriving DecidableEq, Repr

/-- A local offset in a reserved range of R274. -/
def reservedOffset (a : Nat) : Bool := !(isStacked a || isSram a)

/-- Own chip id (R353). -/
def State.chip (s : State) : Nat := s.num (objKey 0x3001 2)

/-- The target of a leaf entry for a page of `size` bits (R277, R278). A remote entry that names this package is local. -/
def State.leafTarget (s : State) (entry size : Nat) : WalkResult :=
  let addr := bits entry 51 12 * 0x1000 / 2 ^ size * 2 ^ size
  let write := bit entry 2
  match bits entry 5 4 with
  | 0 => .leaf size (.here (addr % 0x10000000000)) write
  | 1 =>
    let chip := addr / 0x10000000000
    if chip = s.chip then .leaf size (.here (addr % 0x10000000000)) write
    else .leaf size (.remote chip (addr % 0x10000000000)) write
  | 2 => .leaf size (.host addr) write
  | _ => .fault 3

/-- Read an entry of the table at `base`, in the class of the request that needs it (R262); the walker's bus error is detail 5, a
table outside stacked memory detail 4. -/
def State.walkEntry (s : State) (cls : Class) (base index : Nat) : Except Nat Nat × State :=
  if !isStacked base then (.error 4, s)
  else
    match s.read ⟨cls, none⟩ (base + 8 * index) 8 with
    | (.ok d, s) => (.ok (leNat d), s)
    | (.bad _, s) => (.error 5, s)

/-- A non-leaf entry is well formed: Target local, address bits [51:40] zero. -/
def tableEntryOk (entry : Nat) : Bool := bits entry 5 4 = 0 && bits entry 51 40 = 0

/-- Walk job j's page table for a virtual address below 2^48 (R276 to R278). -/
def State.walk (s : State) (cls : Class) (j va : Nat) : WalkResult × State :=
  match s.walkEntry cls (s.num (objKey (0x2610 + j) 1)) (bits va 47 39) with
  | (.error d, s) => (.fault d, s)
  | (.ok e, s) =>
    if !bit e 0 then (.invalid (bit e 3), s)
    else if bit e 1 || !tableEntryOk e then (.fault 3, s)
    else
      match s.walkEntry cls (bits e 39 12 * 0x1000) (bits va 38 30) with
      | (.error d, s) => (.fault d, s)
      | (.ok e, s) =>
        if !bit e 0 then (.invalid (bit e 3), s)
        else if bit e 1 then (s.leafTarget e 30, s)
        else if !tableEntryOk e then (.fault 3, s)
        else
          match s.walkEntry cls (bits e 39 12 * 0x1000) (bits va 29 21) with
          | (.error d, s) => (.fault d, s)
          | (.ok e, s) =>
            if !bit e 0 then (.invalid (bit e 3), s)
            else if !bit e 1 then (.fault 3, s)
            else (s.leafTarget e 21, s)

/-! ### TLBs (R280) -/

/-- The TLB a unit uses: its own, or the one of the queue front end (R310). -/
def tlbCode (u : UnitId) : Nat := if u.kind = .frontEnd then (UnitId.mk .frontEnd 0).code else u.code

def State.tlb (s : State) (u : UnitId) : List TlbEntry := Map.get [] s.xlat.tlbs (tlbCode u)

def State.setTlb (s : State) (u : UnitId) (t : List TlbEntry) : State :=
  { s with xlat := { s.xlat with tlbs := Map.set [] s.xlat.tlbs (tlbCode u) t } }

/-- An entry maps an address. -/
def TlbEntry.maps (e : TlbEntry) (tag va : Nat) : Bool := e.tag = tag && e.base = va / 2 ^ e.bits * 2 ^ e.bits

/-- Put an entry in front, the most recently used place, keeping 64. -/
def tlbUse (t : List TlbEntry) (e : TlbEntry) : List TlbEntry :=
  (e :: t.filter (fun x => !(x.tag = e.tag && x.base = e.base && x.bits = e.bits))).take 64

/-- A target moved on by an offset. -/
def Target.plus (t : Target) (o : Nat) : Target :=
  match t with
  | .here a => .here (a + o)
  | .remote c a => .remote c (a + o)
  | .host a => .host (a + o)

/-- Two targets share a byte. -/
def Target.meets (a : Target) (n : Nat) (b : Target) (m : Nat) : Bool :=
  match a, b with
  | .here x, .here y => x < y + m && y < x + n
  | .host x, .host y => x < y + m && y < x + n
  | .remote c x, .remote d y => c = d && x < y + m && y < x + n
  | _, _ => false

/-- An access to a target may reach no storage: a reserved local range, or a chip outside the torus found (R274, R278). -/
def State.badTarget (s : State) (t : Target) : Bool :=
  match t with
  | .here a => reservedOffset a
  | .remote c a => reservedOffset a || !s.fabric.present.contains c
  | .host _ => false

/-- What a TLB says of one access. -/
inductive Trans where
  | hit (target : Target) (e : TlbEntry)
  | miss
  | fault (detail : Nat)
  deriving DecidableEq, Repr

/-- Look an access up in a unit's TLB (R273, R274, R281). -/
def State.translate (s : State) (u : UnitId) (tag va : Nat) (write : Bool) : Trans :=
  if 0x1000000000000 ≤ va then .fault 4
  else
    match (s.tlb u).find? (fun e => e.maps tag va) with
    | none => .miss
    | some e =>
      if write && !e.write then .fault 2
      else
        let t := e.target.plus (va - e.base)
        if s.badTarget t then .fault 4 else .hit t e

/-- The exact first address of each 2 MiB page that a range touches. -/
def pagesOf (va n : Nat) : List Nat :=
  if n = 0 then []
  else (rangeFrom (va / 0x200000) ((va + n - 1) / 0x200000 + 1 - va / 0x200000)).map (fun p => max va (p * 0x200000))

/-- An unresolvable translation fault of a unit's access (R281): counted, recorded with its detail, an execution fault. -/
def State.xlatFault (s : State) (r : Report) (tag va detail : Nat) : State :=
  (s.bump (objKey (0x6600 + tag) 4) 1).execFault { r with code := 0x2002, tag := tag, address := va, detail := detail }

/-- The tables as they stand map an address by a page of 1 GiB. -/
def State.gibPage (s : State) (tag va : Nat) : Bool :=
  match (s.walk .c1 tag va).1 with
  | .leaf size _ _ => size = 30
  | _ => false

/-- A walk is for the tag and page of an address: the same 2 MiB, or the same 1 GiB where that is the page (R280). -/
def State.sharesWalk (s : State) (cluster tag va : Nat) (k : Walk) : Bool :=
  k.cluster = cluster && k.tag = tag &&
  (k.page = va / 0x200000 || (k.page / 512 = va / 0x40000000 && s.gibPage tag va))

/-- A miss (R280): join the walk of the same cluster, tag and page, or ask for one of its own, which waits behind those asked for
before it while the walker runs its 16. -/
def State.startWalk (s : State) (w : Waiter) (tag : Nat) : State :=
  let same := s.sharesWalk w.unit.cluster tag w.va
  let s := s.bump (objKey (0x6600 + tag) 1) 1
  if s.xlat.walks.any same then
    { s with xlat := { s.xlat with
        walks := mapIf same (fun k => { k with waiters := if k.waiters.contains w then k.waiters else k.waiters ++ [w] }) s.xlat.walks } }
  else
    ({ s with xlat := { s.xlat with walks := s.xlat.walks ++ [⟨w.unit.cluster, tag, w.va / 0x200000, [w]⟩] } } : State).bump
      (objKey (0x6600 + tag) 2) 1

/-- A walker runs a walk: it is one of the first 16 of its cluster (R280). -/
def State.walkRuns (s : State) (k : Walk) : Bool :=
  ((s.xlat.walks.filter (fun x => x.cluster = k.cluster)).take 16).contains k

/-- A waiter is already on a walk. -/
def State.walking (s : State) (w : Waiter) (tag : Nat) : Bool :=
  s.xlat.walks.any (fun k => k.tag = tag && k.waiters.contains w)

/-- How a command stands with the pages it needs. -/
inductive Pages where
  /-- Every page is translated and kept with the command. -/
  | ready (s : State) (c : Cmd)
  /-- Walks are under way, or the command is held. -/
  | wait (s : State)
  /-- An unresolvable fault: the execution fault has been taken. -/
  | fault (s : State)
  deriving DecidableEq, Repr

/-- Translate one page of a command, by what it keeps, its TLB, or a walk. -/
def State.needPage (s : State) (c : Cmd) (u : UnitId) (va : Nat) (write : Bool) : Pages :=
  match c.xl.find? (fun x => x.1 = va / 0x200000) with
  | some x => if write && !x.2.2 then .fault (s.xlatFault (s.cmdReport c 0x2002 4) c.job va 2) else .ready s c
  | none =>
    match s.translate u c.job va write with
    | .fault d => .fault (s.xlatFault (s.cmdReport c 0x2002 4) c.job va d)
    | .miss =>
      let w : Waiter := ⟨u, c.id, va, write⟩
      .wait (if s.walking w c.job then s else s.startWalk w c.job)
    | .hit _ e =>
      let s := s.setTlb u (tlbUse (s.tlb u) e)
      let base : Target := e.target.plus (va / 0x200000 * 0x200000 - e.base)
      let c := { c with xl := c.xl ++ [(va / 0x200000, base, e.write)] }
      .ready (s.setCmd c) c

/-- Translate every page of a command's ranges (address, length, write). A missing page starts its walk and the rest are
still looked up, so that walks overlap; a held command waits. -/
def State.needRanges (s : State) (c : Cmd) (u : UnitId) (ranges : List (Nat × Nat × Bool)) : Pages :=
  if c.held.isSome then .wait s
  else
    (ranges.flatMap (fun r => (pagesOf r.1 r.2.1).map (fun va => (va, r.2.2)))).foldl
      (fun p a =>
        match p with
        | .fault s => .fault s
        | .wait s => match s.needPage ((s.cmd? c.id).getD c) u a.1 a.2 with
          | .ready s _ => .wait s
          | q => q
        | .ready s c => s.needPage c u a.1 a.2)
      (.ready s c)

/-- The target of a translated address of a command. -/
def Cmd.target (c : Cmd) (va : Nat) : Option Target :=
  (c.xl.find? (fun x => x.1 = va / 0x200000)).map (fun x => x.2.1.plus (va % 0x200000))

/-- The targets of the pages of a range, with the part of the range in each: address, length, target. -/
def Cmd.pieces (c : Cmd) (va n : Nat) : List (Nat × Nat × Option Target) :=
  (pagesOf va n).map (fun p => (p, min (va + n) ((p / 0x200000 + 1) * 0x200000) - p, c.target p))

/-- The local ranges that a translated range leads to. -/
def Cmd.localPieces (c : Cmd) (va n : Nat) : List (Nat × Nat) :=
  (c.pieces va n).filterMap (fun x => match x.2.2 with
    | some (.here a) => some (a, x.2.1)
    | _ => none)

/-- What two lists of ranges (address, length) have in common. -/
def meetRanges (l m : List (Nat × Nat)) : List (Nat × Nat) :=
  l.flatMap (fun x => m.filterMap (fun y =>
    let lo := max x.1 y.1
    let hi := min (x.1 + x.2) (y.1 + y.2)
    if lo < hi then some (lo, hi - lo) else none))

/-- The contents of local ranges become undefined: free values (notes/assumptions/8.md). -/
def State.blur (s : State) (l : List (Nat × Nat)) : State :=
  l.foldl (fun s r =>
    let x := s.drawBytes r.2
    x.2.store r.1 x.1) s

/-- Every page of a range leads here and passes. -/
def Cmd.allHere (c : Cmd) (va n : Nat) (p : Nat → Nat → Bool) : Bool :=
  (c.pieces va n).all (fun x => match x.2.2 with
    | some (.here a) => p a x.2.1
    | _ => false)

/-- Read a range of local targets page by page. -/
def State.readPieces (s : State) (acc : Access) : List (Nat × Nat × Option Target) → MemResult × State
  | [] => (.ok [], s)
  | (_, n, t) :: rest =>
    match t with
    | some (.here a) =>
      match s.read acc a n with
      | (.bad e, s) => (.bad e, s)
      | (.ok d, s) =>
        match s.readPieces acc rest with
        | (.bad e, s) => (.bad e, s)
        | (.ok d', s) => (.ok (d ++ d'), s)
    | _ => (.bad 0x1001, s)

/-- Write a range of local targets page by page. -/
def State.writePieces (s : State) (acc : Access) : List (Nat × Nat × Option Target) → Bytes → MemResult × State
  | [], _ => (.ok [], s)
  | (_, n, t) :: rest, d =>
    match t with
    | some (.here a) =>
      match s.write acc a (d.take n) with
      | (.bad e, s) => (.bad e, s)
      | (.ok _, s) => s.writePieces acc rest (d.drop n)
    | _ => (.bad 0x1001, s)

/-- Read a translated range of a command. -/
def State.readVa (s : State) (acc : Access) (c : Cmd) (va n : Nat) : MemResult × State := s.readPieces acc (c.pieces va n)

/-- Write a translated range of a command. -/
def State.writeVa (s : State) (acc : Access) (c : Cmd) (va : Nat) (d : Bytes) : MemResult × State :=
  s.writePieces acc (c.pieces va d.length) d

/-! ### Faults at the end of a walk (R281, R282) -/

/-- The tenancy fault queue can take a record (R410). -/
def State.faultQueueRoom (s : State) : Bool := s.num (objKey 0x4000 2) - s.num (objKey 0x4000 3) < 4096

/-- The report a waiter's fault makes. -/
def State.waiterReport (s : State) (w : Waiter) (tag : Nat) : Report :=
  match s.cmd? w.cmd with
  | some c => { s.cmdReport c 0x2001 1 with address := w.va, detail := if w.write then 1 else 0 }
  | none => { s.newReport w.unit 0x2001 1 tag with
      queue := if w.unit.kind = .frontEnd then w.unit.num else 0xFFFF, address := w.va, detail := if w.write then 1 else 0 }

/-- The time that a slot's request has waited for tokens is counted, up to the instant at which the bucket first held enough (R302). -/
def State.endWait (s : State) (core slot : Nat) : State :=
  let r := Map.get Regulator.init s.streams.regulators core
  match r.wanted.find? (fun w => w.1 = slot) with
  | none => s
  | some (_, n, t) =>
    let ready := r.filled + ceilDiv (n * 1000 - r.tokens) (max r.rate 1)
    let s := s.bump (objKey (0x6700 + core) 6) (min s.now ready - t)
    { s with streams := { s.streams with
        regulators := Map.set Regulator.init s.streams.regulators core { r with wanted := r.wanted.filter (fun w => w.1 ≠ slot) } } }

/-- Take back the requests of a slot from tile `t` on: their tags are free, and no answer of the host or of another package counts for
them any more. -/
def State.dropRequests (s : State) (core slot t : Nat) : State :=
  let s := s.endWait core slot
  { s with
    streams := { s.streams with requests := s.streams.requests.filter (fun r => !(r.core = core && r.slot = slot && t ≤ r.tile)) }
    fabric := { s.fabric with
      requests := s.fabric.requests.filter (fun r => !(r.core = core && r.slot = slot && t * 65536 ≤ r.number)) }
    host := { s.host with
      reads := s.host.reads.filter (fun r => match r.user with
        | .stream c k number => !(c = core && k = slot && t * 65536 ≤ number)
        | _ => true) } }

/-- A running stream slot whose active descriptor's arm is held halts before its tile, once for that tile (R304). A tile of which part
had issued, before an invalidation, is reissued whole. -/
def State.haltSlots (s : State) (cmd : Nat) : State :=
  s.streams.slots.foldl (fun s e =>
    match e.2.active with
    | some d =>
      if d.cmd = cmd ∧ e.2.state = .running then
        ((s.setStreamSlot (e.1 / 16) (e.1 % 16)
          { e.2 with state := .haltedTranslation, active := some { d with issued := 0, xlatHalts := d.xlatHalts + 1 } }).dropRequests
            (e.1 / 16) (e.1 % 16) d.tile).bump (objKey (0x6700 + e.1 / 16) 4) 1
      else s
    | none => s) s

/-- Hold a waiter's command, or the launch of its queue (R281, R334). -/
def State.holdWaiter (s : State) (w : Waiter) : State :=
  match s.cmd? w.cmd with
  | some c => (s.setCmd { c with held := some w.va }).haltSlots c.id
  | none =>
    let q := s.queue w.unit.num
    s.setQueue w.unit.num { q with launch := q.launch.map (fun l => { l with held := true }) }

/-- A resolvable fault of one waiter: recorded and held; unresolvable with detail 6 when the fault queue is full. -/
def State.resolvable (s : State) (tag : Nat) (w : Waiter) : State :=
  if s.faultQueueRoom then
    ((s.bump (objKey (0x6600 + tag) 3) 1).report (s.waiterReport w tag)).holdWaiter w
  else s.xlatFault (s.waiterReport w tag) tag w.va 6

/-- Give a waiter its page: the TLB takes the entry, and the command keeps it. A write to a page without permission, or an
address that no access may reach, is unresolvable. -/
def State.fillWaiter (s : State) (tag : Nat) (e : TlbEntry) (w : Waiter) : State :=
  let s := s.setTlb w.unit (tlbUse (s.tlb w.unit) e)
  if w.write && !e.write then s.xlatFault (s.waiterReport w tag) tag w.va 2
  else if s.badTarget (e.target.plus (w.va - e.base)) then s.xlatFault (s.waiterReport w tag) tag w.va 4
  else
    match s.cmd? w.cmd with
    | some c =>
      if c.xl.any (fun x => x.1 = w.va / 0x200000) then s
      else s.setCmd { c with xl := c.xl ++ [(w.va / 0x200000, e.target.plus (w.va / 0x200000 * 0x200000 - e.base), e.write)] }
    | none => s

/-- A requester still waits for its page: its command has not ended, or its queue has a launch in progress. -/
def State.waits (s : State) (w : Waiter) : Bool :=
  (s.cmd? w.cmd).isSome || (w.unit.kind = .frontEnd && (s.queue w.unit.num).launch.isSome)

/-- The class of a walk's reads: that of the request whose translation caused it (R262). -/
def State.walkClass (s : State) (l : List Waiter) : Class :=
  match l with
  | [] => .c1
  | w :: _ =>
    match w.unit.kind with
    | .lookup =>
      (match s.cmd? w.cmd with
      | some c => if (0xC0 ≤ fieldLe c.bytes 0 1 && fieldLe c.bytes 0 1 ≤ 0xC3) then .c2 else .c0
      | none => .c0)
    | .rowMerge => .c2
    | .digest => .c2
    | _ => .c1

/-- The requesters of a walk for its own 2 MiB page. One that joined it as a miss in a 1 GiB page asks again when the tables no
longer hold that page. -/
def Walk.own (k : Walk) : List Waiter := k.waiters.filter (fun w => w.va / 0x200000 = k.page)

/-- WALK_COMPLETE (R280, R281): the walk of a cluster, tag and page ends, for those of its requesters that still wait. No such
walk, or one that the walker does not yet run: only time passes. -/
def execWalkComplete (dt cluster tag page : Nat) (s : State) : Host.Outcome State Fault Refusal :=
  let s := s.tick dt
  match s.xlat.walks.find? (fun k => k.cluster = cluster ∧ k.tag = tag ∧ k.page = page) with
  | none => .next s
  | some k =>
    if !s.walkRuns k then .next s
    else
      let s : State := { s with xlat := { s.xlat with walks := s.xlat.walks.filter (fun x => x ≠ k) } }
      match s.walk (s.walkClass k.waiters) tag (page * 0x200000) with
      | (.leaf size target write, s) =>
        let e : TlbEntry := ⟨tag, page * 0x200000 / 2 ^ size * 2 ^ size, size, target, write⟩
        .next (k.waiters.foldl (fun s w => if e.maps tag w.va && s.waits w then s.fillWaiter tag e w else s) s)
      | (.invalid true, s) => .next (k.own.foldl (fun s w => if s.waits w then s.resolvable tag w else s) s)
      | (.invalid false, s) =>
        .next (match k.own.filter s.waits with
          | w :: _ => s.xlatFault (s.waiterReport w tag) tag w.va 1
          | [] => s)
      | (.fault d, s) =>
        .next (match k.own.filter s.waits with
          | w :: _ => s.xlatFault (s.waiterReport w tag) tag w.va d
          | [] => s)

/-- Release every held command, halted slot and held launch of a job (R282): each walks afresh. -/
def State.resume (s : State) (j : Nat) : State :=
  let held := (s.cmds.filter (fun c => c.job = j && c.held.isSome)).map (·.id)
  let s : State := { s with
    cmds := mapIf (fun c => c.job = j) (fun c => { c with held := none }) s.cmds
    queues := s.queues.map (fun e =>
      if e.1 / 16 = j then (e.1, { e.2 with launch := e.2.launch.map (fun l => { l with held := false }) }) else e)
    streams := { s.streams with
      slots := s.streams.slots.map (fun (e : Nat × StreamSlot) =>
        match e.2.active with
        | some d =>
          if held.contains d.cmd ∧ e.2.state = SlotState.haltedTranslation then (e.1, { e.2 with state := .running }) else e
        | none => e) } }
  s.bump (objKey (0x6600 + j) 5) 1

/-- TRN_RESUME (R282, R288): a write names a job in bits [5:0]. -/
def execTrnResume (dt value : Nat) (s : State) : Host.Outcome State Fault Refusal := .next ((s.tick dt).resume (bits value 5 0))

/-! ### Invalidation (R283, R284) -/

/-- Start an invalidation of a job's tag. -/
def State.startInval (s : State) (tag : Nat) (src : InvalSource) : State :=
  { s with xlat := { s.xlat with invals := s.xlat.invals ++ [⟨tag, src, s.now⟩] } }

/-- Drop every entry and walk of a tag; its requesters walk again, and the rest of a stream tile translates afresh (R283). -/
def State.dropTag (s : State) (tag : Nat) : State :=
  { s with
    xlat := { s.xlat with
      tlbs := s.xlat.tlbs.map (fun e => (e.1, e.2.filter (fun t => t.tag ≠ tag)))
      walks := s.xlat.walks.filter (fun w => w.tag ≠ tag) }
    cmds := mapIf (fun c => c.job = tag) (fun c => { c with xl := [] }) s.cmds
    streams := { s.streams with
      slots := s.streams.slots.map (fun (e : Nat × StreamSlot) => (e.1, { e.2 with
        active := e.2.active.map (fun d => if d.job = tag then { d with translated := false } else d) })) } }

/-- An invalidation has completed: counted (0x2600.02), and in TRN_INVAL_DONE when a register write asked for it (R284). -/
def State.invalDone (s : State) (register : Bool) : State :=
  let s := s.bump (objKey 0x2600 2) 1
  if register then { s with xlat := { s.xlat with done := (s.xlat.done + 1) % 2 ^ 32 } } else s

/-- Register-requested invalidations pending (R284). -/
def State.regPending (s : State) : Nat := (s.xlat.invals.filter (fun i => i.source = .register)).length

/-- A write of TRN_INVAL with Overrun written 0 (R284). An invalidation of a firmware or unused tag completes at once, without effect
(R275). -/
def State.writeInval (s : State) (value : Nat) : State :=
  if 16 ≤ s.regPending then { s with xlat := { s.xlat with overrun := true } }
  else if bits value 7 0 < 0x40 then s.startInval (bits value 7 0) .register
  else s.invalDone true

/-- TRN_INVAL (R284): queue an invalidation, or set Overrun when 16 are pending. A value with bit 16 set clears Overrun. -/
def execTrnInval (dt value : Nat) (s : State) : Host.Outcome State Fault Refusal :=
  let s := s.tick dt
  .next (if bit value 16 then { s with xlat := { s.xlat with overrun := false } } else s.writeInval value)

/-- TRN_INVAL_OVERRUN_CLEAR (R284): a write with bit 16 set clears Overrun and requests none, whatever bits [7:0] hold. -/
def execTrnInvalOverrunClear (dt tag : Nat) (s : State) : Host.Outcome State Fault Refusal :=
  let _ := tag
  let s := s.tick dt
  .next { s with xlat := { s.xlat with overrun := false } }

/-- The invalidation of a tag that completes next: the first to start, of the register-requested ones only the oldest, since they run
in write order; the others run independently of them (R284). -/
def State.inval? (s : State) (tag : Nat) : Option Inval :=
  let oldest := s.xlat.invals.find? (fun i => i.source = .register)
  s.xlat.invals.find? (fun i => i.tag = tag && (i.source ≠ .register || oldest = some i))

/-! ### Migration (R285 to R289) -/

/-- The copy's source or destination breaks R289. -/
def State.migrationBad (s : State) : Bool :=
  let dir := bit s.xlat.copyCtl 1
  let off := bits (if dir then s.xlat.copySrc else s.xlat.copyDst) 51 21 * 0x200000
  let host := bits (if dir then s.xlat.copyDst else s.xlat.copySrc) 51 21 * 0x200000
  let b := s.num (objKey 0x2600 1)
  !isStacked off || (s.host.committed && b ≤ host && host < b + 0xC000000000)

/-- The host side of the copy, and its local offset. -/
def State.migrationHost (s : State) : Nat :=
  bits (if bit s.xlat.copyCtl 1 then s.xlat.copyDst else s.xlat.copySrc) 51 21 * 0x200000
def State.migrationLocal (s : State) : Nat :=
  bits (if bit s.xlat.copyCtl 1 then s.xlat.copySrc else s.xlat.copyDst) 51 21 * 0x200000

/-- The migration vector is raised when the status leaves state 1 (R381). -/
def State.migrationVector (s : State) : State := if bit s.host.vec 11 then s.raise (bits s.host.vec 10 0) else s

/-- A failed copy towards the device leaves its local page undefined (R285), unless that page takes no write. -/
def State.spoilPage (s : State) : State :=
  if bit s.xlat.copyCtl 1 || !isStacked s.migrationLocal || s.meetsRetired s.migrationLocal 0x200000 then s
  else
    let (d, s) := s.drawBytes 0x200000
    s.store s.migrationLocal d

/-- A copy ends failed with a reason (R285): its destination is undefined, its time charged (R58), the failure counted and recorded
as 0x2003. A host page that has come is not used. -/
def State.migrationFail (s : State) (reason : Nat) : State :=
  let took := s.now - s.xlat.migStarted
  let s := s.spoilPage
  let s : State := { s with
    xlat := { s.xlat with migState := 3, migReason := reason }
    host := { s.host with reads := s.host.reads.filter (fun r => r.user ≠ HostUser.migration) } }
  let s := (s.bump (objKey 0x2601 2) 1).setNum (objKey 0x2601 3) (took % 2 ^ 32)
  let s := s.acct (bits s.xlat.copyCtl 13 8) 3 took
  (s.report { s.newReport ⟨.iod, 0⟩ 0x2003 0 0xF1 with
    detail := reason, physical := s.migrationLocal, address := s.migrationHost }).migrationVector

/-- A write of TRN_MIG_CTL with Go set (R285): a Go while copying is ignored and counted. -/
def State.migrationGo (s : State) : State :=
  if s.xlat.migState = 1 then s.bump (objKey 0x2601 4) 1
  else
    let s : State := { s with xlat := { s.xlat with
      migState := 1, migReason := 0, migStarted := s.now
      copySrc := s.xlat.migSrc, copyDst := s.xlat.migDst, copyCtl := s.xlat.migCtl } }
    if s.migrationBad then s.migrationFail 4
    else if s.num (objKey 0x3100 1) ≠ 2 then s.migrationFail 1
    else if s.meetsRetired s.migrationLocal 0x200000 then s.migrationFail 3
    else if bit s.xlat.copyCtl 1 then s
    else
      (({ s with host := { s.host with
          reads := s.host.reads ++ [⟨.migration, s.migrationHost, 0x200000, s.now, none⟩] } } : State).bump (objKey 0x6E00 3)
        32768).emit (.hostRead .lines s.migrationHost 0x200000)

/-- A whole write of TRN_MIG_CTL: a Go while a copy runs is ignored and counted; a write with Go clear stores the fields. -/
def State.writeMigCtl (s : State) (value : Nat) : State :=
  if bit value 0 ∧ s.xlat.migState = 1 then s.bump (objKey 0x2601 4) 1
  else
    let s : State := { s with xlat := { s.xlat with migCtl := value &&& 0x3F02 } }
    if bit value 0 then s.migrationGo else s

/-- MIGRATION_GO (R285, R288): a whole write of TRN_MIG_CTL. -/
def execMigrationGo (dt value : Nat) (s : State) : Host.Outcome State Fault Refusal :=
  .next ((s.tick dt).writeMigCtl value)

/-- A copy ends done (R285). The copier's time is charged to the job of TRN_MIG_CTL (R58), under its stream engine time
(notes/assumptions/13.md). -/
def State.migrationDone (s : State) : State :=
  let j := bits s.xlat.copyCtl 13 8
  let took := s.now - s.xlat.migStarted
  let s : State := { s with xlat := { s.xlat with migState := 2, migReason := 0 } }
  let s := (s.bump (objKey 0x2601 1) 1).setNum (objKey 0x2601 3) (took % 2 ^ 32)
  let s := (s.acct j 3 took).acct j 0x0A 0x200000
  (s.bump (objKey (0x6600 + j) 6) 1).migrationVector

/-- MIGRATION_COMPLETE (R285): the copy ends. Towards the device the host page must have been returned (HOST_READ_DATA); a
read that meets an uncorrectable word or poison, or a page retired meanwhile, fails it. With no copy running, or data still
outstanding, only time passes. -/
def execMigrationComplete (dt : Nat) (s : State) : Host.Outcome State Fault Refusal :=
  let s := s.tick dt
  let j := bits s.xlat.copyCtl 13 8
  if s.xlat.migState ≠ 1 then .next s
  else if bit s.xlat.copyCtl 1 then
    match s.read ⟨.c2, some j⟩ s.migrationLocal 0x200000 with
    | (.bad e, s) => .next (s.migrationFail (if e = 0x1003 then 3 else 2))
    | (.ok d, s) =>
      let w : HostWrite := ⟨s.host.issued, 0xF1, 3, 0, s.migrationHost, d, false⟩
      let s : State := { s with host := { s.host with writes := s.host.writes ++ [w], issued := s.host.issued + 1 } }
      .next (((s.bump (objKey 0x6E00 4) 32768).emit (.hostWrite .lines s.migrationHost d)).migrationDone)
  else
    match s.host.reads.find? (fun r => r.user = .migration) with
    | none => .next s
    | some r =>
      match r.data with
      | none => .next s
      | some d =>
        let s : State := { s with host := { s.host with reads := s.host.reads.filter (fun r => r.user ≠ HostUser.migration) } }
        match s.write ⟨.c2, some j⟩ s.migrationLocal d with
        | (.bad _, s) => .next (s.migrationFail 3)
        | (.ok _, s) => .next s.migrationDone

end Sys2Proof.Machine
end

