-- ==== Sys2Proof/Machine/HostIo.lean ====
section
/-! DEFINITION. The device's own accesses to host memory: reads outstanding and returned, writes awaiting GO, peer windows, and
the discard log (R385 to R390, R398, R399). -/
namespace Sys2Proof.Machine

/-- Host state codes (0x3100.01): 0 down, 1 up, 2 attached. -/
def hostStateKey : Nat := objKey 0x3100 1
def State.attached (s : State) : Bool := s.num hostStateKey = 2

/-- The 64-byte lines that a host range touches. -/
def hostLines (a n : Nat) : Nat := if n = 0 then 0 else (a + n - 1) / 64 + 1 - a / 64

/-- The enabled peer window that holds a host address (R390). -/
def State.peerWindow (s : State) (a : Nat) : Option Nat :=
  (List.range 8).find? (fun n =>
    let b := Map.get 0 s.host.p2pBase n
    bit b 0 && bits b 51 21 * 0x200000 ≤ a && a < bits b 51 21 * 0x200000 + Map.get 0 s.host.p2pSize n * 0x200000)

/-- A host write goes out as a posted request: its address lies in a window without UIO, or UIO is not enabled (R390). -/
def State.postedWrite (s : State) (a : Nat) : Bool :=
  match s.peerWindow a with
  | some n => !(bit (Map.get 0 s.host.p2pBase n) 1 && s.host.uio)
  | none => false

/-- The form of a device access at a host address: by its window, else over CXL.cache (R386, R390). -/
def State.hostForm (s : State) (a : Nat) (whole : Bool) : HostForm :=
  match s.peerWindow a with
  | some _ => if s.postedWrite a then .io else .uio
  | none => if whole then .lines else .bytes

/-- A host address inside device memory's own range (R390). -/
def State.ownRange (s : State) (a n : Nat) : Bool :=
  let b := s.num (objKey 0x2600 1)
  s.host.committed && n ≠ 0 && a < b + 0xC000000000 && b < a + n

/-- Reads and writes outstanding at the port, in lines, beside the migration copier's page (R387). -/
def State.readsOut (s : State) : Nat :=
  (s.host.reads.filter (fun r => r.data.isNone && r.user ≠ .migration)).foldl (fun n r => n + hostLines r.address r.length) 0
def State.writesOut (s : State) : Nat :=
  (s.host.writes.filter (fun w => w.source ≠ 3 && !w.posted)).foldl (fun n w => n + hostLines w.address w.data.length) 0

/-- Take the data of a read the host has returned. -/
def State.takeHost (s : State) (u : HostUser) (a n : Nat) : Option (Bytes × State) :=
  match s.host.reads.find? (fun r => r.user = u && r.address = a && r.length = n) with
  | some r =>
    match r.data with
    | some d => some (d, { s with host := { s.host with reads := s.host.reads.filter (fun x => x ≠ r) } })
    | none => none
  | none => none

/-- Send a device read of the host: whole lines over CXL.cache, else the range itself. -/
def State.sendHostRead (s : State) (a n : Nat) : State :=
  s.emit (if s.hostForm a true = .lines then .hostRead .lines (a / 64 * 64) (64 * hostLines a n) else .hostRead (s.hostForm a true) a n)

/-- The part of a host range that lies in its k-th line. -/
def linePart (a : Nat) (d : Bytes) (k : Nat) : Nat × Bytes :=
  let lo := max a ((a / 64 + k) * 64)
  (lo, sub d (lo - a) (min (a + d.length) ((a / 64 + k + 1) * 64) - lo))

/-- Send a device write to the host: line by line over CXL.cache, a part of one with byte enables, else whole. -/
def State.sendHostWrite (s : State) (a : Nat) (d : Bytes) : State :=
  if s.hostForm a true = .lines then
    (List.range (hostLines a d.length)).foldl (fun (s : State) k =>
      let p := linePart a d k
      s.emit (.hostWrite (s.hostForm a (p.2.length = 64)) p.1 p.2)) s
  else s.emit (.hostWrite (s.hostForm a true) a d)

/-- Issue a device read of the host, once: a request already outstanding stays, and a port at its limit takes none (R387). -/
def State.askHost (s : State) (u : HostUser) (a n : Nat) : State :=
  if s.host.reads.any (fun r => r.user = u && r.address = a && r.length = n) then s
  else if 1024 < s.readsOut + hostLines a n then s
  else
    (({ s with host := { s.host with reads := s.host.reads ++ [⟨u, a, n, s.now, none⟩] } } : State).bump
      (objKey 0x6E00 3) (hostLines a n)).sendHostRead a n

/-- Issue a device write to the host (R386): numbered in order of issue, awaiting its GO. -/
def State.putHost (s : State) (tag source unit a : Nat) (d : Bytes) : State :=
  let w : HostWrite := ⟨s.host.issued, tag, source, unit, a, d, s.postedWrite a⟩
  (({ s with host := { s.host with writes := s.host.writes ++ [w], issued := s.host.issued + 1 } } : State).bump
    (objKey 0x6E00 4) (hostLines a d.length)).sendHostWrite a d

/-- The port has room for a device write. -/
def State.hostWriteRoom (s : State) (a n : Nat) : Bool := s.writesOut + hostLines a n ≤ 512

/-- Count host bytes in a job's account (R74 .0A). -/
def State.hostBytes (s : State) (j n : Nat) : State := s.acct j 0x0A n

/-- A host-link-lost notice to a job, one for each absence of the host (R306, R398). -/
def State.hostLost (s : State) (u : UnitId) (job : Nat) : State :=
  if s.host.notified.contains job then s
  else
    ({ s with host := { s.host with notified := job :: s.host.notified } } : State).report (s.newReport u 0x5001 3 job)

/-- The range of a discard record. -/
def discardRange (r : Bytes) : Nat × Nat := (fieldLe r 0 8, fieldLe r 8 4)

/-- A discard-log record (R399). -/
def discardRecord (a n tag source unit : Nat) (t : Ns) : Bytes :=
  natLe 8 a ++ natLe 4 n ++ natLe 1 tag ++ natLe 1 source ++ natLe 2 unit ++ natLe 8 t ++ natLe 8 0

/-- Discarded ranges of one tag, source and unit that abut or overlap within one loss are one record (R399). -/
def mergeDiscards : List HostWrite → List HostWrite
  | [] => []
  | w :: ws =>
    match mergeDiscards ws with
    | [] => [w]
    | v :: vs =>
      if w.tag = v.tag ∧ w.source = v.source ∧ w.unit = v.unit ∧ w.address ≤ v.address + v.data.length ∧
          v.address ≤ w.address + w.data.length then
        let lo := min w.address v.address
        let hi := max (w.address + w.data.length) (v.address + v.data.length)
        { v with address := lo, data := List.replicate (hi - lo) 0 } :: vs
      else w :: v :: vs

/-- Put one discarded range into the log; a full log counts and stamps it (R399), and reports 0x5004. -/
def State.logDiscard (s : State) (w : HostWrite) : State :=
  if s.host.discards.length < 4096 then
    { s with host := { s.host with
        discards := s.host.discards ++ [discardRecord w.address w.data.length w.tag w.source w.unit s.now] } }
  else
    let s := if s.num (objKey 0x3101 7) = 0 then s.setNum (objKey 0x3101 8) s.now else s
    ((s.bump (objKey 0x3101 7) 1).setNum (objKey 0x3101 9) s.now).report (s.newReport ⟨.cxl, 0⟩ 0x5004 0 0xFF)

/-- Discard every device write without GO (R398): counted, logged in order. -/
def State.discardWrites (s : State) : State :=
  let lost := s.host.writes
  let s := (s.bump (objKey 0x3101 4) lost.length).bump (objKey 0x3101 5) (lost.foldl (fun n w => n + w.data.length) 0)
  (mergeDiscards (sortBy (fun w => (w.tag * 4 + w.source) * 65536 + w.unit)
      (sortBy (fun w => w.address) lost))).foldl State.logDiscard { s with host := { s.host with writes := [] } }

end Sys2Proof.Machine
end

