-- ==== Sys2Proof/Machine/FabricIo.lean ====
section
/-! DEFINITION. Frames on the Varx ports: the header, the fixed route, the replay buffer, remote requests and data that waits
for credit (R348 to R353, R358 to R364). -/
namespace Sys2Proof.Machine

/-! ### Coordinates and routes (R353, R359) -/

/-- The coordinate of a chip id on an axis, 0 X, 1 Y, 2 Z. -/
def coordOf (chip axis : Nat) : Nat := chip / 16 ^ axis % 16

/-- A chip id from coordinates. -/
def chipOf (x y z : Nat) : Nat := x + 16 * y + 256 * z

/-- The extent of an axis in the shape in force, and whether it is a ring (R352). -/
def State.extent (s : State) (axis : Nat) : Nat :=
  match axis with
  | 0 => s.fabric.shape.1
  | 1 => s.fabric.shape.2.1
  | _ => s.fabric.shape.2.2.1
def State.ring (s : State) (axis : Nat) : Bool := bit s.fabric.shape.2.2.2 axis

/-- The port by which a frame leaves along an axis from coordinate a to b, a ≠ b: the shorter way on a ring, + when equal. -/
def State.axisPort (s : State) (axis a b : Nat) : Nat :=
  let e := s.extent axis
  if s.ring axis then if (b + e - a) % e ≤ (a + e - b) % e then 2 * axis else 2 * axis + 1
  else if a < b then 2 * axis else 2 * axis + 1

/-- The first port of the route to a chip; none for this package. -/
def State.route (s : State) (chip : Nat) : Option Nat :=
  match [0, 1, 2].find? (fun a => coordOf s.chip a ≠ coordOf chip a) with
  | some a => some (s.axisPort a (coordOf s.chip a) (coordOf chip a))
  | none => none

/-- Port state codes (0x3020 + p .01). -/
def portStateKey (p : Nat) : Nat := objKey (0x3020 + p) 1
def State.portUp (s : State) (p : Nat) : Bool := s.num (portStateKey p) = 2

/-- The link of a port crosses from coordinate e − 1 to 0 or back on a ring. -/
def State.wraps (s : State) (p : Nat) : Bool :=
  let a := p / 2
  s.ring a && (if p % 2 = 0 then coordOf s.chip a + 1 = s.extent a else coordOf s.chip a = 0)

/-! ### Frames (R349, R350) -/

def portKey (p sub : Nat) : Nat := objKey (0x6D00 + p) sub
def channelKey (c sub : Nat) : Nat := objKey (0x6D10 + c) sub

/-- Frame types. -/
def frameRequest : Nat := 1
def frameResponse : Nat := 2
def frameData : Nat := 3
def frameCredit : Nat := 4
def frameAck : Nat := 5
def frameBeacon : Nat := 6
def frameTime : Nat := 7

/-- Header and payload of a frame, its sequence zero. -/
def frameBody (type vc dest source channel field : Nat) (payload : Bytes) : Bytes :=
  natLe 1 (type + 16 * vc) ++ natLe 3 0 ++ natLe 2 dest ++ natLe 2 source ++ natLe 1 channel ++ natLe 1 0 ++
    natLe 2 payload.length ++ natLe 4 field ++ payload

/-- A frame with its sequence and CRC. -/
def frameWhole (seq : Nat) (body : Bytes) : Bytes :=
  let b := overlay body 2 (natLe 2 seq)
  b ++ natLe 4 (crc32 b)

/-- Put a frame on a port's lanes, counted (R377). -/
def State.putFrame (s : State) (p : Nat) (frame : Bytes) : State :=
  ((s.bump (portKey p 1) 1).bump (portKey p 7) (frame.length - 20)).emit (.frame p frame)

/-- The type of a frame (R349). -/
def frameType (f : Bytes) : Nat := bits (fieldLe f 0 1) 3 0

/-- The frames of a frame's own class that wait at a port (R359). -/
def Port.waiting (v : Port) (body : Bytes) : List Bytes :=
  if frameType body = frameResponse then v.responses else if frameType body = frameRequest then v.requests else v.data

/-- A frame joins the buffer of its class: it never waits behind one of another. -/
def Port.join (v : Port) (body : Bytes) : Port :=
  if frameType body = frameResponse then { v with responses := v.responses ++ [body] }
  else if frameType body = frameRequest then { v with requests := v.requests ++ [body] }
  else { v with data := v.data ++ [body] }

/-- The frame that leaves a port's buffers next: responses first, then requests, then data (notes/assumptions/130.md). -/
def Port.next (v : Port) : Option (Bytes × Port) :=
  match v.responses, v.requests, v.data with
  | b :: l, _, _ => some (b, { v with responses := l })
  | [], b :: l, _ => some (b, { v with requests := l })
  | [], [], b :: l => some (b, { v with data := l })
  | [], [], [] => none

/-- Send a sequenced frame, or keep it waiting while the replay buffer is full (R350) or the link is not trained (R359). -/
def State.sendBody (s : State) (p : Nat) (body : Bytes) : State :=
  let v := s.port p
  if !s.portUp p ∨ 256 ≤ v.unacked.length ∨ v.waiting body ≠ [] then s.setPort p (v.join body)
  else
    let f := frameWhole v.nextSend body
    (s.setPort p { v with nextSend := (v.nextSend + 1) % 4096, unacked := v.unacked ++ [(v.nextSend, f)] }).putFrame p f

/-- Send the frames of a payload to a chip, 512 bytes a frame; a payload of nothing is one frame. -/
def State.sendTo (s : State) (type chip channel field : Nat) (payload : Bytes) : State :=
  match s.route chip with
  | none => s
  | some p =>
    let parts := if payload = [] then [[]] else chunks 512 (payload.length / 512 + 1) payload
    let vc := if s.wraps p then 1 else 0
    parts.foldl (fun s d => s.sendBody p (frameBody type vc chip s.chip channel field d)) s

/-- The virtual channel on which a frame of a source leaves by a port: 1 once it has crossed the end of the ring it moves along
(R359). -/
def State.vcOf (s : State) (source p : Nat) : Nat :=
  let a := p / 2
  let here := coordOf s.chip a
  let crossed := s.ring a && (if p % 2 = 0 then here < coordOf source a else coordOf source a < here)
  if s.wraps p || crossed then 1 else 0

/-- Send a link-control frame of a source by a port: no sequence, never replayed. -/
def State.putControl (s : State) (source p type dest channel field : Nat) (payload : Bytes) : State :=
  if s.portUp p then s.putFrame p (frameWhole 0 (frameBody type (s.vcOf source p) dest source channel field payload)) else s

/-- Send a link-control frame of this package. -/
def State.sendControl (s : State) (p type dest channel field : Nat) (payload : Bytes) : State :=
  s.putControl s.chip p type dest channel field payload

/-- Send a credit towards its source (R364): an end-to-end link-control frame by the first port of the route. -/
def State.sendCredit (s : State) (chip channel number index : Nat) : State :=
  match s.route chip with
  | some p => s.sendControl p frameCredit chip channel (number % 65536 + 65536 * (index % 65536)) []
  | none => s

/-! ### Remote requests (R360 to R362) -/

/-- The payload of a remote request: kind (1 read, 2 write), owner identifier, offset, length and data. The manual gives the
frame's fields and not this layout (notes/assumptions/16.md). -/
def remotePayload (write : Bool) (owner offset length : Nat) (data : Bytes) : Bytes :=
  natLe 4 (if write then 2 else 1) ++ natLe 4 owner ++ natLe 8 offset ++ natLe 4 length ++ data

/-- The first link of the route to a chip is down. -/
def State.routeDown (s : State) (chip : Nat) : Bool :=
  match s.route chip with
  | some p => !s.portUp p
  | none => true

/-- A remote request of a stream engine failed: an execution fault with the code and detail of R416. -/
def State.remoteFault (s : State) (core code detail : Nat) (c : Option Cmd) : State :=
  let r := match c with
    | some c => s.cmdReport c code 4
    | none => s.newReport ⟨.stream, core⟩ code 4 0xF0
  s.execFault { r with detail := detail }

/-- A remote request meets a route whose first link is down (R362). -/
def State.remoteFailed (s : State) (core detail : Nat) (c : Option Cmd) : State := s.remoteFault core 0x4004 detail c

/-- Issue a remote request for a stream request of a core (R360), charging the payload to its job. -/
def State.sendRemote (s : State) (core slot number : Nat) (write : Bool) (chip offset length job : Nat) (data : Bytes) : State :=
  let id := s.fabric.nextRequest
  let p := remotePayload write (s.num (objKey 0x2000 5)) offset length data
  let s : State := { s with fabric := { s.fabric with
    nextRequest := id + 1
    requests := s.fabric.requests ++ [⟨id, core, slot, number, write, chip, s.now⟩] } }
  (s.sendTo frameRequest chip 0 (id % 2 ^ 32) p).acct job 9 data.length

/-! ### Data waiting for credit (R364) -/

/-- Data of an apply-phase refresh: slots (index 2) and end markers (index 3), whose first two bytes are the table number. -/
def Outgoing.isRefresh (o : Outgoing) : Bool := 2 ≤ o.index && !o.chunk

/-- Queue data of an operation at its source until its destination grants credit. -/
def State.offer (s : State) (o : Outgoing) : State := { s with fabric := { s.fabric with outgoing := s.fabric.outgoing ++ [o] } }

end Sys2Proof.Machine
end

