-- ==== Sys2Proof/Machine/Operands.lean ====
section
/-! DEFINITION. The operand fields of the control registers, slots and the common command header, and the checks made at fetch
(R5 to R7, R312 to R328, R485). Fields of an engine's own commands stand with that engine. -/
namespace Sys2Proof.Machine

/-! ### Registers of a queue (R312) -/

/-- Slots of the ring: 2^(Size + 4), Size 13 to 15 acting as 12. -/
def Queue.slots (q : Queue) : Nat := 2 ^ (min (bits q.ring 3 0) 12 + 4)
def Queue.base (q : Queue) : Nat := bits q.ring 47 6 * 64
def Queue.errorInterrupt (q : Queue) : Bool := bit q.config 1
def Queue.vector (q : Queue) : Nat := bits q.config 12 2

/-- The fields of QCTL_RING and QCTL_CONFIG that are stored; reserved bits read zero (R5). Enable, bit 0 of the latter, is held beside
the others (R312). -/
def ringMask (v : Nat) : Nat := v &&& 0xFFFFFFFFFFCF
def configMask (v : Nat) : Nat := v &&& 0x1FFE

/-- Enable of a queue set or cleared. -/
def Queue.setEnable (q : Queue) (on : Bool) : Queue := { q with config := configMask q.config + (if on then 1 else 0) }

/-! ### A ring slot (R314) -/

def slotSeq (b : Bytes) : Nat := fieldLe b 0 8
def slotBuffer (b : Bytes) : Nat := fieldLe b 8 8
def slotCount (b : Bytes) : Nat := fieldLe b 16 2 + 1
def slotInterrupt (b : Bytes) : Bool := bit (fieldLe b 18 1) 0
def slotRecord (b : Bytes) : Bool := bit (fieldLe b 18 1) 1
def slotSignal (b : Bytes) : Bool := bit (fieldLe b 18 1) 2
def slotRecordAt (b : Bytes) : Nat := fieldLe b 24 8
def slotFence (b : Bytes) : Nat := fieldLe b 32 8
def slotValue (b : Bytes) : Nat := fieldLe b 40 8

/-- A malformed slot (R314). -/
def slotMalformed (b : Bytes) : Bool := slotBuffer b % 64 ≠ 0 || (slotRecord b && slotRecordAt b % 32 ≠ 0)

/-- A slot's fence name, used when Signal is 1, carries no reserved bits (R325); where it does, the slot is an illegal
operation under R5 and R6 (notes/assumptions/14.md). -/
def slotFenceOk (b : Bytes) : Bool := !slotSignal b || slotFence b < 4096

/-! ### The common header (R320, R321) -/

def Cmd.opcode (c : Cmd) : Nat := fieldLe c.bytes 0 1
def Cmd.u8 (c : Cmd) (i : Nat) : Nat := fieldLe c.bytes i 1
def Cmd.u16 (c : Cmd) (i : Nat) : Nat := fieldLe c.bytes i 2
def Cmd.u32 (c : Cmd) (i : Nat) : Nat := fieldLe c.bytes i 4
def Cmd.u64 (c : Cmd) (i : Nat) : Nat := fieldLe c.bytes i 8

/-- The wait distances. -/
def headerWaits (b : Bytes) : List Nat := [fieldLe b 4 2, fieldLe b 6 2, fieldLe b 8 2, fieldLe b 10 2]

/-- Indices of the launch that a command waits on (R322). -/
def Cmd.waits (c : Cmd) : List Nat := ((headerWaits c.bytes).filter (· ≠ 0)).map (fun d => c.index - d)

/-- The debug engine field's kind (R320). -/
def debugKind (v : Nat) : Option UnitKind :=
  match v with
  | 0 => some .matrix | 1 => some .vector | 2 => some .stream | 3 => some .lookup | 4 => some .rowMerge | _ => none

/-- The kind of engine that executes an opcode, none for a control command or a reserved encoding (R321, R366). -/
def opcodeKind (op debug : Nat) : Option UnitKind :=
  if op < 0x10 then none
  else if op < 0x30 then some .stream
  else if op < 0x50 then some .matrix
  else if op < 0x70 then some .vector
  else if op < 0x90 then some .lookup
  else if op < 0xA0 then some .rowMerge
  else if op < 0xC0 then some .stream
  else if op < 0xD0 then some .lookup
  else if op < 0xE0 then debugKind debug
  else none

/-- The opcodes that the owning chapters define (R98, R109, R134, R189, R218, R295, R327, R366). Debug opcodes exist on the
matrix engine alone. -/
def opcodeDefined (op : Nat) : Bool :=
  op ≤ 0x05 || op = 0x10 || op = 0x11 || op = 0x30 || (0x50 ≤ op && op ≤ 0x52) || op = 0x70 || op = 0x71 ||
  (0x90 ≤ op && op ≤ 0x92) || (0xA0 ≤ op && op ≤ 0xA2) || (0xC0 ≤ op && op ≤ 0xC6) || op = 0xC8 || op = 0xC9 ||
  op = 0xD0 || op = 0xD1

/-- A fence name carries no reserved bits (R325). -/
def fenceOk (name : Nat) : Bool := name < 4096

/-- A fence wait's timeout: 0, or 100 to 60,000,000 µs (R328). -/
def timeoutOk (t : Nat) : Bool := t = 0 || (100 ≤ t && t ≤ 60000000)

/-- The checks made at fetch (R485), for command `i` of a launch; `debug` is 0x2401.01. -/
def fetchOk (b : Bytes) (i : Nat) (debug : Bool) : Bool :=
  let op := fieldLe b 0 1
  let dbg := bits (fieldLe b 1 1) 2 0
  let unit := bits (fieldLe b 2 2) 9 0
  opcodeDefined op &&
  (headerWaits b).all (fun d => d ≤ i) &&
  (if op < 0x10 then
    (if op = 0x01 || op = 0x02 then fenceOk (fieldLe b 40 8) else true) &&
    (if op = 0x02 then timeoutOk (fieldLe b 24 4) else true)
  else
    match opcodeKind op dbg with
    | some k => unit < k.count && (if 0xD0 ≤ op then k = .matrix && debug else true)
    | none => false)

end Sys2Proof.Machine
end

