-- ==== Sys2Proof/Machine/Queue.lean ====
section
/-! DEFINITION. Queues, doorbells, launches, fences and control commands (R310 to R337, R485). -/
namespace Sys2Proof.Machine

/-- Fences (R324, R325): a signal sets the fence to the greater of its value and `v`. -/
def State.fence (s : State) (n : Nat) : Nat := Map.get 0 s.fences n
def State.signal (s : State) (n v : Nat) : State :=
  { s with fences := Map.set 0 s.fences n (max (s.fence n) (v % 2 ^ 64)) }

/-- Per-queue counters (R337). -/
def queueKey (q sub : Nat) : Nat := objKey (0x6800 + q) sub

/-- The job of a queue. -/
def queueJob (q : Nat) : Nat := q / 16

/-- A job may fetch: it is open and the tenancy is active (R52, R55). -/
def State.mayFetch (s : State) (j : Nat) : Bool := s.job j = jobOpen && s.tenancy = 1

/-- Commands of a queue that are in the front end or on engines. -/
def State.cmdsOf (s : State) (q : Nat) : List Cmd := s.cmds.filter (fun c => c.queue = q)

/-- Commands of a queue that engines hold, or control commands that run (R336). -/
def State.handedOf (s : State) (q : Nat) : List Cmd :=
  s.cmds.filter (fun c => c.queue = q && c.unit.isSome && c.phase ≠ .fetched)

/-! ### Handing commands over (R322, R323) -/

/-- Command `i` of the launch of a queue has completed. -/
def State.isDone (s : State) (q i : Nat) : Bool :=
  match (s.queue q).launch with
  | some l => l.done.contains i
  | none => false

/-- A command is ready: every command it names has completed (R322), and for a barrier every earlier one (R327). -/
def State.cmdReady (s : State) (c : Cmd) : Bool :=
  if c.opcode = 0x05 then (List.range c.index).all (fun i => s.isDone c.queue i)
  else c.waits.all (fun i => s.isDone c.queue i)

/-- A named command has completed or has been handed to an engine. -/
def State.doneOrHanded (s : State) (q i : Nat) : Bool :=
  s.isDone q i || s.cmds.any (fun c => c.queue = q && c.index = i && c.unit.isSome && c.phase ≠ .fetched)

/-- The core state object of 0x4010 for a core or lookup engine (R432). -/
def suspectKey (u : UnitId) : Nat :=
  match u.kind with
  | .lookup => objKey (0x4010 + u.num / 2) (9 + u.num % 2)
  | _ => objKey (0x4010 + u.num / 8) (1 + u.num % 8)

/-- A core or lookup engine is fenced (R426). -/
def State.fenced (s : State) (u : UnitId) : Bool :=
  match u.kind with
  | .rowMerge => false
  | _ => bit (s.num (suspectKey u)) 7

/-- A fetched command that may be handed to its engine, or a control command that is ready to run (R323). -/
def State.mayHand (s : State) (c : Cmd) : Bool :=
  c.phase = .fetched &&
  (match c.unit with
   | none => s.cmdReady c
   | some u => c.waits.all (fun i => s.doneOrHanded c.queue i) &&
      s.cmds.all (fun d => !(d.queue = c.queue && d.index < c.index && d.unit = some u && d.phase = .fetched)))

/-- Hand one command over. A control command becomes ready: its readiness is stamped, and a fence wait takes its timeout,
the default being the one in force now (R328, R337); a host fence covers the writes issued so far. A command handed to a fenced unit is an execution fault (R426). -/
def State.hand (s : State) (c : Cmd) : State :=
  match c.unit with
  | none =>
    let t := if c.u32 24 = 0 then s.num (objKey 0x2700 1) else c.u32 24
    s.setCmd { c with phase := .running, started := s.now, scratch := [t, s.host.issued] }
  | some u => if s.fenced u then s.cmdFault c 0x3004 else s.setCmd { c with phase := .handed, started := s.now }

/-- Hand over what may be handed, in command order, until nothing more may; `fuel` bounds the passes. -/
def State.handOver : Nat → State → State
  | 0, s => s
  | fuel + 1, s =>
    match s.cmds.find? s.mayHand with
    | some c => State.handOver fuel (s.hand c)
    | none => s

/-- Hand over everything that may be. -/
def State.dispatch (s : State) : State := s.handOver s.cmds.length

/-! ### Completion of a command (R322, R57) -/

/-- A command that an engine was handed is ready: its job is open, what it waits for has completed, and no earlier command of its launch
waits on the engine before it (R323). -/
def State.readyOn (s : State) (u : UnitId) (c : Cmd) : Bool :=
  c.unit = some u && c.phase = .handed && s.job c.job = jobOpen && s.cmdReady c &&
  s.cmds.all (fun d => !(d.unit = some u && d.queue = c.queue && d.index < c.index && d.phase = .handed))

/-- A command start point of an engine at which the job that holds the turn has no ready command ends the turn (R339, R340). -/
def State.passTurn (s : State) (u : UnitId) : State :=
  let e := s.engine u
  match e.turn with
  | none => s
  | some j =>
    if s.cmds.any (fun c => c.job = j && s.readyOn u c) then s
    else s.setEngine u { e with turn := none, floorTurn := false }

/-- A command completes: counted, removed, marked done in its launch with its cluster, its engine idle from now when nothing
else is in flight, waiting commands handed over, and the turn on its engine ended when its job has nothing ready. -/
def State.complete (s : State) (c : Cmd) : State :=
  let s := (s.acct c.job 6 1).bump (queueKey c.queue 2) 1
  let q := s.queue c.queue
  let s := s.setQueue c.queue { q with
    launch := q.launch.map (fun l => { l with
      done := c.index :: l.done, completed := l.completed + 1,
      clusters := (match c.unit with
        | some u => insertAsc u.cluster l.clusters
        | none => l.clusters) }) }
  let s : State := { s with cmds := s.cmds.filter (fun d => d.id ≠ c.id) }
  let s := match c.unit with
    | some u =>
      let s := if u.kind = UnitKind.lookup && (c.opcode = 0x70 || c.opcode = 0x71) then s.bump (objKey (0x6100 + u.num) 3) 1 else s
      if s.cmds.any (fun d => d.unit = some u && d.inFlight) then s
      else s.setEngine u { s.engine u with idleSince := s.now }
    | none => s
  match c.unit with
  | some u => s.dispatch.passTurn u
  | none => s.dispatch

/-- A control command that is ready and not complete. -/
def State.control? (s : State) (id op : Nat) : Option Cmd :=
  s.cmds.find? (fun c => c.id = id && c.unit.isNone && c.opcode = op && c.phase = .running)

/-! ### Queue errors (R335, R336) -/

/-- Write 32 bytes of a record for a queue through its front end: the completion record's store. Local stacked memory takes
whole code words; an SRAM window takes them as they are; a host target is issued to the port. -/
inductive FeResult where
  | ok (data : Bytes) (s : State)
  | wait (s : State)
  | fault (s : State)
  deriving DecidableEq, Repr

/-- The front end's report of a fault on its own access (R334). An illegal operation carries no address (R411, R416). -/
def State.feReport (s : State) (q code va : Nat) : Report :=
  { s.newReport ⟨.frontEnd, q⟩ code 4 (queueJob q) with
    queue := q, address := if code = 0x3001 then 0 else va }

/-- Hold the launch of a queue for the absent host (R333). -/
def State.holdForHost (s : State) (q : Nat) : State :=
  let v := s.queue q
  s.setQueue q { v with launch := v.launch.map (fun l => if l.hostHeld then l else { l with hostHeld := true, heldAt := s.now }) }

/-- Translate a front-end access (R310, R334): a hit, a walk under way, or an unresolvable fault. -/
def State.feTarget (s : State) (q va : Nat) (write : Bool) : Except State Target × State :=
  let u : UnitId := ⟨.frontEnd, q⟩
  match s.translate u (queueJob q) va write with
  | .fault d => (.error (s.xlatFault (s.feReport q 0x2002 va) (queueJob q) va d), s)
  | .miss =>
    let w : Waiter := ⟨u, 0, va, write⟩
    (.error (if s.walking w (queueJob q) then s else s.startWalk w (queueJob q)), s)
  | .hit t e => (.ok t, s.setTlb u (tlbUse (s.tlb u) e))

/-- The access is held on a translation fault or the host. -/
def State.feHeld (s : State) (q : Nat) : Bool :=
  match (s.queue q).launch with
  | some l => l.held || (l.hostHeld && !s.attached)
  | none => false

/-- Read `n` bytes for a queue's front end at class 1. A ring (`ring`) may lie only in stacked memory or on the host; a
remote target never serves (R318, R332). -/
def State.feRead (s : State) (q : Nat) (user : HostUser) (va n : Nat) (ring : Bool) : FeResult :=
  if s.feHeld q then .wait s
  else
    match s.feTarget q va false with
    | (.error s', _) => if s'.queue q = s.queue q then .wait s' else .fault s'
    | (.ok t, s) =>
      match t with
      | .remote _ _ => .fault (s.xlatFault (s.feReport q 0x2002 va) (queueJob q) va 4)
      | .host a =>
        if !s.attached then .wait (s.holdForHost q)
        else
          match s.takeHost user a n with
          | some (d, s) => .ok d s
          | none => .wait (s.askHost user a n)
      | .here a =>
        if ring && !isStacked a then .fault (s.xlatFault (s.feReport q 0x2002 va) (queueJob q) va 4)
        else if s.meetsMerge a n then .fault (s.execFault (s.feReport q 0x3001 va))
        else
          match s.read ⟨.c1, some (queueJob q)⟩ a n with
          | (.ok d, s) => .ok d s
          | (.bad e, s) => .fault (s.execFault { s.feReport q e va with physical := a })

/-- Write a record for a queue's front end (R318, R330). -/
def State.feWrite (s : State) (q va : Nat) (d : Bytes) : FeResult :=
  if s.feHeld q then .wait s
  else
    match s.feTarget q va true with
    | (.error s', _) => if s'.queue q = s.queue q then .wait s' else .fault s'
    | (.ok t, s) =>
      match t with
      | .remote _ _ => .fault (s.xlatFault (s.feReport q 0x2002 va) (queueJob q) va 4)
      | .host a =>
        if !s.attached then .wait (s.holdForHost q)
        else if s.hostWriteRoom a d.length then .ok [] ((s.putHost 0xFF 2 q a d).hostBytes (queueJob q) d.length)
        else .wait s
      | .here a =>
        if s.meetsMerge a d.length then .fault (s.execFault (s.feReport q 0x3001 va))
        else
          match s.write ⟨.c1, some (queueJob q)⟩ a d with
          | (.ok _, s) => .ok [] s
          | (.bad e, s) => .fault (s.execFault { s.feReport q e va with physical := a })

/-- The completion record (R330). -/
def completionRecord (seq status completed started done : Nat) : Bytes :=
  natLe 8 seq ++ natLe 2 status ++ natLe 2 0 ++ natLe 4 completed ++ natLe 8 started ++ natLe 8 done

/-- The launch's commands have all been fetched and completed. -/
def Launch.allDone (l : Launch) : Bool := l.taken && l.fetched = slotCount l.slot && l.completed = l.fetched

/-- The end of R336: the vector when Error interrupt is set, the fault record, and the state error, or disabled when Enable
was cleared. -/
def State.finishError (s : State) (q : Nat) : State :=
  let v := s.queue q
  let s := s.setQueue q { v with state := if v.disableAfter then .disabled else .error, disableAfter := false, launch := none }
  let s := if v.errorInterrupt then s.raise v.vector else s
  s.report { s.newReport ⟨.frontEnd, q⟩ v.error 2 (queueJob q) with
    queue := q }

/-- A queue error (R336): fetching stops, commands not handed are discarded, handed ones drain. A launch all of whose commands
have completed is not touched. An idle queue enters error at once. -/
def State.queueError (s : State) (q code : Nat) : State :=
  let v := s.queue q
  let s := s.bump (queueKey q 7) 1
  let done := v.launch.any Launch.allDone
  let s := s.setQueue q { v with
    state := .draining, error := code,
    launch := v.launch.map (fun l => if done then l else { l with error := code }) }
  let s : State := { s with cmds := s.cmds.filter (fun c => !(c.queue = q && (c.phase = .fetched || c.unit.isNone))) }
  if v.launch.isNone then s.finishError q else s

/-! ### Control block and doorbells (R311 to R317) -/

/-- A whole write of QCTL_CONFIG with Enable set (R312): a disabled queue takes the fields, and, while its job is open, becomes
idle with head and tail 0; a queue not disabled ignores them. Reads of an earlier enable that the host has not answered are
forgotten. -/
def State.enableQueue (s : State) (q value : Nat) : State :=
  let v := s.queue q
  if v.state ≠ .disabled then s
  else
    let s : State := { s with host := { s.host with
      reads := s.host.reads.filter (fun r => match r.user with
        | .slot p => p ≠ q
        | .command p _ => p ≠ q
        | _ => true) } }
    let v := { v with config := configMask value }
    s.setQueue q (if s.job (queueJob q) = jobOpen then
      { v.setEnable true with state := .idle, head := 0, tail := 0, error := 0, disableAfter := false, launch := none } else v)

/-- QUEUE_ENABLE (R312): a whole write of QCTL_CONFIG with Enable set. -/
def execQueueEnable (dt q value : Nat) (s : State) : Host.Outcome State Fault Refusal :=
  let s := s.tick dt
  if 1024 ≤ q then .next s else .next (s.enableQueue q value)

/-- Clearing Enable (R311). -/
def State.disableQueue (s : State) (q : Nat) : State :=
  let v := (s.queue q).setEnable false
  match v.state with
  | .idle => s.setQueue q { v with state := .disabled, launch := none }
  | .error => s.setQueue q { v with state := .disabled, launch := none }
  | .lost => s.setQueue q { v with state := .disabled, launch := none }
  | .active => s.setQueue q { v with state := .draining, disableAfter := true }
  | .draining => s.setQueue q { v with disableAfter := true }
  | .disabled => s

/-- A whole write of QCTL_CONFIG with Enable clear (R311, R312). On a disabled queue it stores the fields. -/
def State.clearEnable (s : State) (q value : Nat) : State :=
  if (s.queue q).state = .disabled then s.setQueue q { s.queue q with config := configMask value } else s.disableQueue q

/-- QUEUE_DISABLE (R311, R312): a whole write of QCTL_CONFIG with Enable clear. -/
def execQueueDisable (dt q value : Nat) (s : State) : Host.Outcome State Fault Refusal :=
  let s := s.tick dt
  if 1024 ≤ q then .next s else .next (s.clearEnable q value)

/-- Judge a whole write of tail T to QUEUE_TAIL (R316). -/
def State.doorbell (s : State) (q t : Nat) : State :=
  let v := s.queue q
  if v.state ≠ .idle ∧ v.state ≠ .active then s.bump (queueKey q 5) 1
  else if t < v.tail then s.queueError q 0x6003
  else if t = v.tail then s.bump (queueKey q 4) 1
  else if t ≤ v.head + v.slots then (s.setQueue q { v with tail := t, state := .active }).bump (queueKey q 3) 1
  else s.queueError q 0x6004

/-- DOORBELL (R313, R316): a write to QUEUE_TAIL of queue q; a narrower one is ignored and counted. -/
def execDoorbell (dt q value : Nat) (whole : Bool) (s : State) : Host.Outcome State Fault Refusal :=
  let s := s.tick dt
  if 1024 ≤ q then .fault .outsideBar
  else if whole then .next (s.doorbell q (bits value 47 0))
  else .next (s.bump (queueKey q 5) 1)

/-- A slot read has returned: take it when it carries the sequence, stop on a malformed slot, otherwise not yet visible
(R314, R319). -/
def State.slotRead (s : State) (q : Nat) (l : Launch) (b : Bytes) : State :=
  let v := s.queue q
  if slotSeq b = l.seq then
    if slotMalformed b then s.queueError q 0x6005
    else if !slotFenceOk b then s.execFault (s.feReport q 0x3001 (v.base + (l.seq - 1) % v.slots * 64))
    else s.setQueue q { v with launch := some { l with read := true, taken := true, slot := b, started := s.now, lastRead := s.now } }
  else s.setQueue q { v with launch := some { l with read := true, lastRead := s.now } }

/-- The address of the slot of a sequence. -/
def Queue.slotAddress (v : Queue) (seq : Nat) : Nat := v.base + (seq - 1) % v.slots * 64

/-- The instant at which a queue issued the slot read that is outstanding or has returned; now when it has issued none. -/
def State.slotAsked (s : State) (q : Nat) : Ns :=
  match s.host.reads.find? (fun r => r.user = .slot q) with
  | some r => r.issued
  | none => s.now

/-- SLOT_FETCH (R317): an active queue whose accepted tail exceeds its head issues the read of the next slot. A slot already
read and not yet visible is SLOT_REREAD's, and a draining queue begins no further launch (R311). The first read counts from
its issue: a walk, a hold or a full port before it does not (R319). -/
def execSlotFetch (dt q : Nat) (s : State) : Host.Outcome State Fault Refusal :=
  let s := s.tick dt
  let v := s.queue q
  if !(v.state = .active || (v.state = .draining && v.error = 0 && v.launch.isSome)) || !s.mayFetch (queueJob q) || v.tail ≤ v.head then
    .next s
  else
    let fresh : Launch :=
      { seq := v.head + 1, firstRead := s.now, lastRead := s.now, read := false, taken := false, slot := [], started := 0, fetched := 0,
        completed := 0, done := [], clusters := [], error := 0, held := false, hostHeld := false, heldAt := 0 }
    let l := v.launch.getD fresh
    let l := if l.read then l else { l with firstRead := s.slotAsked q, lastRead := s.slotAsked q }
    if l.taken || l.read && !l.hostHeld then .next s
    else
      match (s.setQueue q { v with launch := some l }).feRead q (.slot q) (v.slotAddress l.seq) 64 true with
      | .ok b s => .next (s.slotRead q { l with hostHeld := false, held := false } b)
      | .wait s => .next s
      | .fault s => .next s

/-- SLOT_REREAD (R319): a slot not yet visible is read again at each whole microsecond from the first read; a re-read issued at or
after the end of the visibility window that fails is the last: stale entry, 0x6001. A queue held for the host is not timed. -/
def execSlotReread (dt q : Nat) (s : State) : Host.Outcome State Fault Refusal :=
  let s := s.tick dt
  let v := s.queue q
  match v.launch with
  | none => .next s
  | some l =>
    if l.taken || !l.read || s.now < l.firstRead + ((l.lastRead - l.firstRead) / 1000 + 1) * 1000 ||
        !(v.state = .active || (v.state = .draining && v.error = 0)) || !s.mayFetch (queueJob q) then .next s
    else
      let asked := s.slotAsked q
      match s.feRead q (.slot q) (v.slotAddress l.seq) 64 true with
      | .wait s => .next s
      | .fault s => .next s
      | .ok b s =>
        let s := s.bump (queueKey q 6) 1
        if slotSeq b ≠ l.seq ∧ l.firstRead + s.num (objKey 0x2700 2) * 1000 ≤ asked then .next (s.queueError q 0x6001)
        else .next (s.slotRead q { l with hostHeld := false } b)

/-! ### Fetching commands (R320 to R323, R485) -/

/-- Commands completed below an index. -/
def Launch.doneBelow (l : Launch) (i : Nat) : Nat := (l.done.filter (· < i)).length

/-- The next command of a launch lies within the window of 1,024 (R323). -/
def Launch.mayFetchNext (l : Launch) : Bool :=
  l.taken && l.fetched < slotCount l.slot && l.error = 0 && l.doneBelow (l.fetched - 1024) = l.fetched - 1024

/-- A fetched command enters the front end. -/
def State.enter (s : State) (q : Nat) (l : Launch) (b : Bytes) : State :=
  let v := s.queue q
  let kind := opcodeKind (fieldLe b 0 1) (bits (fieldLe b 1 1) 2 0)
  let c : Cmd :=
    { id := s.nextCmd, queue := q, index := l.fetched, job := queueJob q, bytes := b,
      unit := kind.map (fun k => ⟨k, bits (fieldLe b 2 2) 9 0⟩), phase := .fetched, started := s.now, watched := 0,
      held := none, xl := [], armed := false, unwatched := false, uncharged := false, progress := 0, scratch := [] }
  let s : State := { s with cmds := s.cmds ++ [c], nextCmd := s.nextCmd + 1 }
  (s.setQueue q { v with launch := some { l with fetched := l.fetched + 1, held := false, hostHeld := false } }).dispatch

/-- COMMAND_FETCH (R323, R485): the next command of a launch is read once and checked; a failed check is an illegal operation
at fetch. -/
def execCommandFetch (dt q : Nat) (s : State) : Host.Outcome State Fault Refusal :=
  let s := s.tick dt
  let v := s.queue q
  match v.launch with
  | none => .next s
  | some l =>
    if !l.mayFetchNext || !s.mayFetch (queueJob q) || v.error ≠ 0 then .next s
    else
      let va := slotBuffer l.slot + 64 * l.fetched
      match s.feRead q (.command q l.fetched) va 64 false with
      | .wait s => .next s
      | .fault s => .next s
      | .ok b s =>
        if fetchOk b l.fetched (s.flag (objKey 0x2401 1)) then .next (s.enter q l b)
        else .next (s.execFault { s.feReport q 0x3001 va with
          opcode := some (fieldLe b 0 1) })

/-! ### Completion of a launch (R330, R336) -/

/-- Where a queue goes once its launch has ended: disabled when Enable was cleared, idle when head equals the tail, otherwise
it fetches the next slot. -/
def State.launchEnded (s : State) (q : Nat) : State :=
  let v := s.queue q
  if v.error ≠ 0 then (s.setQueue q { v with launch := none }).finishError q
  else if v.disableAfter then s.setQueue q { v with state := .disabled, disableAfter := false, launch := none }
  else s.setQueue q { v with state := if v.tail ≤ v.head then .idle else .active, launch := none }

/-- A verify pair that watches a queue notes the launch and its clusters (R421). -/
def State.noteVerify (s : State) (q seq : Nat) (clusters : List Nat) : State :=
  (List.range 16).foldl (fun s p =>
    if s.flag (objKey (0x4060 + p) 1) && s.num (objKey (0x4060 + p) 3) = q && s.num (objKey (0x4060 + p) 8) = 1 then
      let v := Map.get VerifyPair.init s.integ.pairs p
      { s with integ := { s.integ with pairs := Map.set VerifyPair.init s.integ.pairs p { v with due := v.due ++ [(seq, clusters)] } } }
    else s) s

/-- Steps 2 to 4 of R330: the slot's fence, the head, the vector. -/
def State.launchDone (s : State) (q : Nat) (l : Launch) : State :=
  let s := if slotSignal l.slot then s.signal (slotFence l.slot) (slotValue l.slot) else s
  let v := s.queue q
  let s := (s.setQueue q { v with head := l.seq }).bump (queueKey q 1) 1
  let s := if slotInterrupt l.slot then s.raise v.vector else s
  (s.noteVerify q l.seq l.clusters).launchEnded q

/-- LAUNCH_COMPLETE (R330): once every command of the launch has completed, the record, the fence, the head and the vector,
in that order. A record address on which a walk, a hold or the absent host keeps the write waiting holds the queue. -/
def execLaunchComplete (dt q : Nat) (s : State) : Host.Outcome State Fault Refusal :=
  let s := s.tick dt
  match (s.queue q).launch with
  | none => .next s
  | some l =>
    if !l.allDone || l.error ≠ 0 then .next s
    else if slotRecord l.slot then
      match s.feWrite q (slotRecordAt l.slot) (completionRecord l.seq 0 l.completed l.started s.now) with
      | .ok _ s => .next (s.launchDone q l)
      | .wait s => .next s
      | .fault s => .next s
    else .next (s.launchDone q l)

/-- QUEUE_DRAIN_DONE (R311, R336): every command handed by a draining queue has completed. A launch that a queue error stopped
writes its record with the error's code when its slot had been taken and Record is set; then the queue enters error or
disabled. -/
def execQueueDrainDone (dt q : Nat) (s : State) : Host.Outcome State Fault Refusal :=
  let s := s.tick dt
  let v := s.queue q
  if v.state ≠ .draining || (s.handedOf q).length ≠ 0 then .next s
  else
    match v.launch with
    | none => if v.error ≠ 0 then .next (s.finishError q) else .next (s.setQueue q { v with state := .disabled, disableAfter := false })
    | some l =>
      if l.error = 0 then .next s
      else if l.taken && slotRecord l.slot then
        match s.feWrite q (slotRecordAt l.slot) (completionRecord l.seq l.error l.completed l.started s.now) with
        | .ok _ s => .next (s.finishError q)
        | .wait s => .next s
        | .fault s => .next s
      else .next (s.finishError q)

/-! ### Control commands (R327 to R329) -/

/-- NO_OP (R327): completes once ready. -/
def execNoOp (dt id : Nat) (s : State) : Host.Outcome State Fault Refusal :=
  let s := s.tick dt
  match s.control? id 0x00 with
  | some c => .next (s.complete c)
  | none => .next s

/-- FENCE_SIGNAL (R325, R327): sets the fence to the greater of its value and the given value, and completes. -/
def execFenceSignal (dt id : Nat) (s : State) : Host.Outcome State Fault Refusal :=
  let s := s.tick dt
  match s.control? id 0x01 with
  | some c => .next ((s.signal (c.u64 40) (c.u64 48)).complete c)
  | none => .next s

/-- FENCE_WAIT (R329): completes when the fence has reached the value. -/
def execFenceWait (dt id : Nat) (s : State) : Host.Outcome State Fault Refusal :=
  let s := s.tick dt
  match s.control? id 0x02 with
  | some c => if c.u64 48 ≤ s.fence (c.u64 40) then .next (s.complete c) else .next s
  | none => .next s

/-- FENCE_WAIT_TIMEOUT (R329): the timeout, counted from readiness, has passed first: queue error 0x6002. -/
def execFenceWaitTimeout (dt id : Nat) (s : State) : Host.Outcome State Fault Refusal :=
  let s := s.tick dt
  match s.control? id 0x02 with
  | some c =>
    if c.u64 48 ≤ s.fence (c.u64 40) ∨ s.now < c.started + c.scratch.headD 0 * 1000 then .next s
    else .next (s.queueError c.queue 0x6002)
  | none => .next s

/-- TAG_INVALIDATE (R327): starts an invalidation of the issuing job's tag; INVALIDATION_COMPLETE completes the command. -/
def execTagInvalidate (dt id : Nat) (s : State) : Host.Outcome State Fault Refusal :=
  let s := s.tick dt
  match s.control? id 0x03 with
  | some c => if c.armed then .next s else .next ((s.startInval c.job (.command c.id)).setCmd { c with armed := true })
  | none => .next s

/-- BARRIER (R327): completes once every earlier command of the launch has completed. -/
def execBarrier (dt id : Nat) (s : State) : Host.Outcome State Fault Refusal :=
  let s := s.tick dt
  match s.control? id 0x05 with
  | some c => if s.cmdReady c then .next (s.complete c) else .next s
  | none => .next s

/-- FENCE_VALUE_WRITE (R326): a whole 64-bit write of FENCE_VALUE n signals the fence; a narrower one is ignored. -/
def execFenceValueWrite (dt n value : Nat) (whole : Bool) (s : State) : Host.Outcome State Fault Refusal :=
  let s := s.tick dt
  if 4096 ≤ n ∨ !whole then .next s else .next (s.signal n value)

/-! ### The snapshot action (R337) -/

/-- The code of a queue state (R311). -/
def QState.code : QState → Nat
  | .disabled => 0 | .idle => 1 | .active => 2 | .draining => 3 | .error => 4 | .lost => 5

/-- The snapshot of queue q into 0x2702 at one instant. -/
def State.queueSnapshot (s : State) (q : Nat) : Nat × State :=
  if 1024 ≤ q then (6, s)
  else
    let v := s.queue q
    let s := ((s.setNum (objKey 0x2702 1) q).setNum (objKey 0x2702 2) v.state.code).setNum (objKey 0x2702 3) v.head
    (0, (((s.setNum (objKey 0x2702 4) v.tail).setNum (objKey 0x2702 5) v.error).setNum (objKey 0x2702 6) s.now).setNum
      (objKey 0x2701 0) 2)

end Sys2Proof.Machine
end

