-- ==== Sys2Proof/Machine/Sched.lean ====
section
/-! DEFINITION. Sharing engines among jobs: turns, balances and the background floor, starting and completing commands, clock
gating, the watchdog, and recovery (R338 to R347, R426, R431, R444). -/
namespace Sys2Proof.Machine

/-- An engine by the kind code of R411 and number, when R13 has it. -/
def engineOf (kind num : Nat) : Option UnitId :=
  let k : UnitKind := match kind with
    | 0 => .matrix | 1 => .vector | 2 => .stream | 3 => .lookup | 4 => .rowMerge | _ => .iod
  if k.isEngine && num < k.count then some ⟨k, num⟩ else none

/-- A collective (R366). -/
def Cmd.isCollective (c : Cmd) : Bool := 0xA0 ≤ c.opcode && c.opcode ≤ 0xBF

/-- Commands in flight on an engine. -/
def State.inFlightOn (s : State) (u : UnitId) : List Cmd := s.cmds.filter (fun c => c.unit = some u && c.inFlight)

/-- The engine has room for a further command (R106, R134, R182, R217, R297, R366). A weight bank read comes after every matrix command
that was queued to its engine before it, and runs alone (R196). -/
def State.hasRoom (s : State) (u : UnitId) (c : Cmd) : Bool :=
  let l := s.inFlightOn u
  match u.kind with
  | .matrix =>
    if c.opcode = 0xD1 then
      l.length = 0 && (s.cmds.takeWhile (fun d => d.id ≠ c.id)).all (fun d => !(d.unit = some u && d.phase = .handed))
    else l.length < 2 && l.all (fun d => d.opcode ≠ 0xD1)
  | .lookup => l.length < 8
  | .stream =>
    if c.isCollective then !l.any Cmd.isCollective
    else c.opcode ≠ 0x10 || (l.filter (fun d => d.opcode = 0x10)).length < 32
  | _ => l.length < 1

/-- A handed command may start now: it is ready, and the engine has room (R323). -/
def State.startable (s : State) (u : UnitId) (c : Cmd) : Bool := s.readyOn u c && s.hasRoom u c

/-- Commands that may start on an engine, in the order they came. -/
def State.startables (s : State) (u : UnitId) : List Cmd := s.cmds.filter (s.startable u)

/-! ### Turns (R339 to R341) -/

/-- The slice of a job, ns (0x2720 + j .01, in µs). -/
def State.slice (s : State) (j : Nat) : Int := s.num (objKey (0x2720 + j) 1) * 1000

def Engine.balance (e : Engine) (j : Nat) : Int := Map.get 0 e.balances j

/-- The first job of a list in ascending order after `last`, wrapping. -/
def nextJob (last : Nat) (jobs : List Nat) : Option Nat :=
  match (rangeFrom (last + 1) 64).find? (fun i => jobs.contains (i % 64)) with
  | some i => some (i % 64)
  | none => none

/-- The background share of an engine's busy time in its interval lies below the floor; with no busy time it meets it. -/
def FloorInterval.below (i : FloorInterval) : Bool := i.busy ≠ 0 && i.background * 100 < i.floor * i.busy

/-- What a begun turn leaves: the engine with the turn taken. -/
structure TurnStart where
  engine : Engine
  job : Nat
  latency : Bool
  viaFloor : Bool
  deriving DecidableEq, Repr

/-- Begin the next turn: class, then the first job after the last that held a turn of that class; its balance rises by its
slice up to a ceiling of the slice, which also cuts a balance left from a longer slice (notes/assumptions/53.md). Turns still at zero or below are skipped. `fuel` bounds the skips. Skipped jobs are
returned in order. -/
def State.beginTurn (s : State) (lat bg : List Nat) : Nat → Engine → List Nat → Option TurnStart × List Nat
  | 0, _, skipped => (none, skipped)
  | fuel + 1, e, skipped =>
    let floor := bg ≠ [] && lat ≠ [] && e.interval.any FloorInterval.below
    let useLat := lat ≠ [] && !floor
    match nextJob (if useLat then e.lastLatency else e.lastBackground) (if useLat then lat else bg) with
    | none => (none, skipped)
    | some j =>
      let b := e.balance j
      let sl := s.slice j
      let b' := min (b + sl) sl
      let e' : Engine := { e with
        balances := Map.set 0 e.balances j b'
        lastLatency := if useLat then j else e.lastLatency
        lastBackground := if useLat then e.lastBackground else j }
      if b' ≤ 0 then s.beginTurn lat bg fuel { e' with turn := none, floorTurn := false } (skipped ++ [j])
      else (some ⟨{ e' with turn := some j, floorTurn := floor }, j, useLat, floor⟩, skipped)

/-- Enough turns for every balance to rise above zero. -/
def State.turnFuel (s : State) (e : Engine) (jobs : List Nat) : Nat :=
  (jobs.map (fun j => ((-(e.balance j)).toNat / (s.slice j).toNat + 2))).foldl (· + ·) 1 * 64

/-- Per-job scheduling counters (R347). -/
def schedKey (j sub : Nat) : Nat := objKey (0x6C00 + j) sub

/-- At a command start point, end the present turn when R339 or R341 ends it, begin the next when none is held, and give the
job that holds the turn. -/
def State.turn (s : State) (u : UnitId) : Option Nat × State :=
  let jobs := (s.startables u).map (·.job)
  let lat := jobs.filter (fun j => s.latency j)
  let bg := jobs.filter (fun j => !s.latency j)
  let e := s.engine u
  let e := if bg ≠ [] ∧ e.interval.isNone then { e with interval := some ⟨s.now, s.num (objKey 0x2711 1), 0, 0⟩ } else e
  let yields := match e.turn with
    | some j => 0 < e.balance j && jobs.contains j && !s.latency j && !e.floorTurn && lat ≠ []
    | none => false
  let keeps := match e.turn with
    | some j => 0 < e.balance j && jobs.contains j && !yields
    | none => false
  let s := match e.turn with
    | some j => if yields then s.bump (schedKey j 3) 1 else s
    | none => s
  if keeps then (e.turn, s.setEngine u e)
  else if jobs = [] then (none, s.setEngine u { e with turn := none, floorTurn := false })
  else
    match s.beginTurn lat bg (s.turnFuel e jobs) { e with turn := none, floorTurn := false } [] with
    | (r, skipped) =>
      let s := skipped.foldl (fun s j => (s.bump (schedKey j 1) 1).bump (schedKey j 2) 1) s
      match r with
      | some t =>
        let s := (s.setEngine u t.engine).bump (schedKey t.job 1) 1
        (some t.job, if t.viaFloor then s.bump (schedKey t.job 4) 1 else s)
      | none => (none, s.setEngine u { e with turn := none, floorTurn := false })

/-! ### Starting and completing (R323, R322) -/

/-- Something keeps the unit from starting: a test pause, a relock, or, for a core's engines, a clock change pending (R24,
R184, R297, R429). -/
def State.blocked (s : State) (u : UnitId) : Bool :=
  (s.engine u).paused ||
  (u.gates && ((s.core u.num).pending.isSome || (s.core u.num).relocking))

/-- COMMAND_START (R323, R339): at a command start point of an engine, the job that holds the turn starts its first ready
command. A gated engine asks Fennel instead and starts once granted (R444). A handed command on a fenced unit is an execution
fault (R426). -/
def execCommandStart (dt kind num : Nat) (s : State) : Host.Outcome State Fault Refusal :=
  let s := s.tick dt
  match engineOf kind num with
  | none => .next s
  | some u =>
    match s.cmds.find? (fun c => c.unit = some u && c.phase = .handed) with
    | none => .next (if (s.inFlightOn u).isEmpty then s.passTurn u else s)
    | some c0 =>
      if s.fenced u then .next (s.cmdFault c0 0x3004)
      else if s.blocked u then .next s
      else if (s.startables u).isEmpty then .next (if (s.inFlightOn u).isEmpty then s.passTurn u else s)
      else
        let e := s.engine u
        if u.gates && e.gated && !e.granted then
          .next (if e.waitingSince.isSome then s else s.setEngine u { e with waitingSince := some s.now })
        else
          match s.turn u with
          | (none, s) => .next s
          | (some j, s) =>
            match (s.startables u).find? (fun c => c.job = j) with
            | none => .next s
            | some c =>
              let s := s.setEngine u { s.engine u with gated := false, granted := false, waitingSince := none, meteredSince := none }
              .next (s.setCmd { c with phase := .running, started := s.now, watched := 0 })

/-- FLOOR_INTERVAL_END (R341): 1,000 µs after it began. -/
def execFloorIntervalEnd (dt kind num : Nat) (s : State) : Host.Outcome State Fault Refusal :=
  let s := s.tick dt
  match engineOf kind num with
  | none => .next s
  | some u =>
    match (s.engine u).interval with
    | some i => if i.start + 1000000 ≤ s.now then .next (s.setEngine u { s.engine u with interval := none }) else .next s
    | none => .next s

/-- ENGINE_CLOCK_GATE (R444): 2 µs without a command in flight gate a matrix, vector or stream engine; not while paused. -/
def execEngineClockGate (dt kind num : Nat) (s : State) : Host.Outcome State Fault Refusal :=
  let s := s.tick dt
  match engineOf kind num with
  | none => .next s
  | some u =>
    let e := s.engine u
    if u.gates && !e.gated && !e.paused && (s.inFlightOn u).isEmpty && e.idleSince + 2000 ≤ s.now then
      .next ((s.setEngine u { e with gated := true, granted := false }).bump (objKey 0x1260 3) 1)
    else .next s

/-- WATCHDOG_EXPIRY (R343, R344): a command, tile or chunk step that has run for 10 ms is stopped, an execution fault. -/
def execWatchdogExpiry (dt id : Nat) (s : State) : Host.Outcome State Fault Refusal :=
  let s := s.tick dt
  match s.cmd? id with
  | some c =>
    if c.inFlight && c.unit.isSome && 10000000 ≤ c.watched then .next ((s.bump (objKey 0x2711 2) 1).cmdFault c 0x3002)
    else .next s
  | none => .next s

/-! ### Fencing and recovery (R345, R425, R426, R431, R482) -/

/-- FAULT_N is asserted, and stays so until the next start-up (R482). -/
def State.assertFault (s : State) : State := { s with pins := { s.pins with fault := true } }

/-- 0x4005.01 becomes true (R425, R431). -/
def State.serviceRequired (s : State) : State :=
  if s.flag (objKey 0x4005 1) then s else ((s.setFlag (objKey 0x4005 1) true).durable s).assertFault

/-- Fence a core or lookup engine (R425, R426): the mark and record 0x3005. -/
def State.fence_ (s : State) (u : UnitId) : State :=
  if s.fenced u then s
  else ((s.setNum (suspectKey u) (s.num (suspectKey u) + 0x80)).durable s).report (s.newReport u 0x3005 5 0xF0)

/-- A unit by the code of R411. -/
def unitOfCode (c : Nat) : UnitId :=
  let k : UnitKind := match c / 0x1000 with
    | 0 => .matrix | 1 => .vector | 2 => .stream | 3 => .lookup | 4 => .rowMerge | 5 => .digest | 6 => .walker | 7 => .memory
    | 8 => .tester | 9 => .frontEnd | 10 => .ucie | 11 => .varx | 12 => .cxl | 13 => .iod | 14 => .core | _ => .cluster
  ⟨k, c % 0x1000⟩

/-- The core or lookup engine that a checker lies in, none when it lies elsewhere (R431). -/
def checkerUnit (u : UnitId) : Option UnitId :=
  match u.kind with
  | .matrix => some ⟨.core, u.num⟩ | .vector => some ⟨.core, u.num⟩ | .stream => some ⟨.core, u.num⟩
  | .core => some u
  | .lookup => some u
  | _ => none

/-- A checker fails its self-test during recovery (R431). -/
def State.checkerFailed (s : State) (u : UnitId) : State :=
  let s := s.report (s.newReport u 0x3008 5 0xF0)
  match checkerUnit u with
  | some v => s.fence_ v
  | none => s.serviceRequired

/-- RECOVERY_COMPLETE (R345): recovery ends; `failed` names by unit code the checkers that failed the self-test of the
clusters where the faults were detected. Open actions are accepted again, and a tenancy end accepted meanwhile begins
(R52). -/
def execRecoveryComplete (dt : Nat) (failed : List Nat) (s : State) : Host.Outcome State Fault Refusal :=
  let s := s.tick dt
  match s.integ.recoverySince with
  | none => .next s
  | some t =>
    let bad := (failed.map unitOfCode).filter (fun u => s.integ.faultClusters.contains u.cluster)
    let s := bad.foldl State.checkerFailed s
    let s := ((s.setFlag (objKey 0x2711 5) false).bump (objKey 0x2711 3) 1).setNum (objKey 0x2711 4)
      ((s.now - t) / 1000 % 2 ^ 32)
    .next { s with
      integ := { s.integ with recoverySince := none, faultClusters := [] }
      epochs := { s.epochs with ending := if s.epochs.ending = .waiting then .draining else s.epochs.ending } }

end Sys2Proof.Machine
end

