-- ==== Sys2Proof/Machine/Clocks.lean ====
section
/-! DEFINITION. Core clocks and cluster voltages (R23, R24, R440, R445, R446). -/
namespace Sys2Proof.Machine

def settingKey (core : Nat) : Nat := objKey (0x1210 + core / 8) (1 + core % 8)
def effectiveKey (core : Nat) : Nat := objKey (0x1230 + core / 8) (1 + core % 8)
def voltageKey (cluster : Nat) : Nat := objKey (0x1270 + cluster) 1

/-- The clock ceiling of a core, MHz: 105 MHz lower for each step of R424. -/
def State.ceiling (s : State) (core : Nat) : Nat := 2100 - 105 * bits (s.num (suspectKey ⟨.core, core⟩)) 4 2

/-- The lower of setting and ceiling (R23). -/
def State.wantedClock (s : State) (core : Nat) : Nat := min (s.num (settingKey core)) (s.ceiling core)

/-- The cores of a cluster. -/
def coresOf (cluster : Nat) : List Nat := rangeFrom (8 * cluster) 8

/-- The table of R445: millivolts for a clock setting. -/
def tableVoltage (mhz : Nat) : Nat :=
  if mhz ≤ 1260 then 620 else if mhz ≤ 1365 then 640 else if mhz ≤ 1470 then 660 else if mhz ≤ 1575 then 690
  else if mhz ≤ 1680 then 720 else if mhz ≤ 1785 then 750 else if mhz ≤ 1890 then 780 else if mhz ≤ 1995 then 810 else 840

/-- The offset of a cluster, mV (R424). -/
def State.voltageOffset (s : State) (cluster : Nat) : Nat := s.num (objKey (0x4030 + cluster) 1)

/-- The voltage that the highest setting of a cluster calls for, offset included. -/
def State.calledVoltage (s : State) (cluster : Nat) : Nat :=
  tableVoltage (((coresOf cluster).map (fun c => s.num (settingKey c))).foldl max 0) + s.voltageOffset cluster

/-- Request a change of effective clock: only the latest request stands, and none when the clock is already right (R24). -/
def State.requestClock (s : State) (core : Nat) : State :=
  let v := s.wantedClock core
  s.setCore core { s.core core with pending := if v = s.num (effectiveKey core) then none else some v }

/-- No core of a cluster waits for a change or relocks. -/
def State.clocksSettled (s : State) (cluster : Nat) : Bool :=
  (coresOf cluster).all (fun c => (s.core c).pending.isNone && !(s.core c).relocking) &&
  s.power.raising.all (fun x => x.1 ≠ cluster)

/-- Once no core of a cluster waits for a change or relocks, its regulator lowers the voltage to what the settings call for. -/
def State.lowerVoltage (s : State) (cluster : Nat) : State :=
  if s.clocksSettled cluster ∧ s.calledVoltage cluster < s.num (voltageKey cluster) then
    s.setNum (voltageKey cluster) (s.calledVoltage cluster)
  else s

/-- An accepted write of a core clock setting (R23, R446): where it calls for more voltage than the cluster has, the request
waits until the voltage has settled. -/
def State.setClock (s : State) (core v : Nat) : State :=
  let cl := core / 8
  let s := s.setNum (settingKey core) v
  let waiting := s.power.raising.filter (fun x => x.2 ≠ core)
  if s.num (voltageKey cl) < tableVoltage v + s.voltageOffset cl then
    { s with power := { s.power with raising := waiting ++ [(cl, core)] } }
  else (({ s with power := { s.power with raising := waiting } } : State).requestClock core).lowerVoltage cl

/-- VOLTAGE_SETTLED (R446): the raised voltage of a cluster has settled, and the waiting requests are made of its cores. -/
def execVoltageSettled (dt cluster : Nat) (s : State) : Host.Outcome State Fault Refusal :=
  let s := s.tick dt
  let due := s.power.raising.filter (fun x => x.1 = cluster)
  if due = [] then .next s
  else
    let s := s.setNum (voltageKey cluster) (s.calledVoltage cluster)
    let s : State := { s with power := { s.power with raising := s.power.raising.filter (fun x => x.1 ≠ cluster) } }
    .next (due.foldl (fun s x => s.requestClock x.2) s)

/-- The three engines of a core. -/
def coreEngines (core : Nat) : List UnitId := [⟨.matrix, core⟩, ⟨.vector, core⟩, ⟨.stream, core⟩]

/-- CLOCK_CHANGE_APPLY (R24): a requested change takes effect once no engine of the core has a command in flight, and the
generator begins to relock. -/
def execClockChangeApply (dt core : Nat) (s : State) : Host.Outcome State Fault Refusal :=
  let s := s.tick dt
  match (s.core core).pending with
  | none => .next s
  | some v =>
    if (s.core core).relocking || (coreEngines core).any (fun u => !(s.inFlightOn u).isEmpty) then .next s
    else .next ((s.setNum (effectiveKey core) v).setCore core { pending := none, relocking := true })

/-- CLOCK_RELOCK_DONE (R24, R446): the generator has relocked, and held commands may start. Once every core of the cluster has
relocked, the regulator lowers the voltage to what the settings call for. -/
def execClockRelockDone (dt core : Nat) (s : State) : Host.Outcome State Fault Refusal :=
  let s := s.tick dt
  if !(s.core core).relocking then .next s
  else
    .next ((s.setCore core { s.core core with relocking := false }).lowerVoltage (core / 8))

/-- The delivered rate of a core, MHz (R440): the effective clock less what L3 and its cluster's throttling withhold
(notes/assumptions/19.md), never below 1,260. -/
def State.delivered (s : State) (core : Nat) : Nat :=
  max 1260 (s.num (effectiveKey core) - s.power.skip - Map.get 0 s.power.clusterSkip (core / 8))

/-- The lowest delivered rate of a cluster (0x1270 + k .02). -/
def State.clusterRate (s : State) (cluster : Nat) : Nat :=
  minOr 1260 ((coresOf cluster).map s.delivered)

end Sys2Proof.Machine
end

