-- ==== Sys2Proof/Machine/Power.lean ====
section
/-! DEFINITION. The power governor, Fennel, cooling, temperatures and the thermal interlock (R433 to R450, R20). -/
namespace Sys2Proof.Machine

/-- Objects of the governor (R450). -/
def powerKey (sub : Nat) : Nat := objKey 0x1100 sub

/-- The power inputs are up and the package runs. -/
def State.powered (s : State) : Bool := s.startup.regulators

/-- The report of a unit that names no address space (tag 0xFF). -/
def State.deviceReport (s : State) (u : UnitId) (code : Nat) : State := s.report (s.newReport u code 0 0xFF)

/-! ### The thermal interlock (R449) -/

/-- Regulators of the clusters and the stacks go off (R449, R453, R456, R457): nothing of the compute domain is left. Jobs are lost
without recovery; the tenancy, its memory and its epochs are gone, and no Varx link stays up (notes/assumptions/45.md). -/
def State.regulatorsOff (s : State) : State :=
  let s := ((List.range 64).foldl State.loseJob s).dropEngineState
  let s := (s.clearNums (objKey 0x2100 3) (objKey 0x2100 7)).setNum tenancyKey 0
  let s := s.clearNums (objKey 0x3020 1) (objKey 0x3025 1)
  { s with
    startup := { s.startup with regulators := false }
    integ := { s.integ with recoverySince := none, faultClusters := [], groups := [], pairs := [], windows := [], testing := [], suspects := [] }
    epochs := State.reset.epochs
    tables := []
    update := State.reset.update
    fabric := { State.reset.fabric with shape := s.fabric.shape, present := s.fabric.present } }

/-- The state codes of 0x12A0.01: 0 starting, 1 usable, 2 stopped, 3 tripped. -/
def State.tripped (s : State) : Bool := s.num startupKey = 3

/-- Trip (R449, R482): THERM_TRIP_N and FAULT_N, regulators off, the state and record 0x8004 with the sensor's unit. -/
def State.trip (s : State) (u : UnitId) : State :=
  if s.tripped then s
  else
    let s := s.regulatorsOff
    let s : State := { s with pins := { fault := true, thermTrip := true } }
    (s.setNum startupKey 3).firmwareLog (faultRecord (s.newReport u 0x8004 4 0xFF) 0 s.integ.lostBefore 0)

/-- What the board reads on FAULT_N and THERM_TRIP_N: asserted only while VMGT is there (R477). -/
def State.faultLand (s : State) : Bool := s.pins.fault && s.startup.supplyMgt
def State.thermTripLand (s : State) : Bool := s.pins.thermTrip && s.startup.supplyMgt

/-! ### The effective limit (R435, R437, R447) -/

/-- L: the sustained limit, at most 1,000 W under a cap. -/
def State.limitNow (s : State) : Nat :=
  if s.power.supplyCap || s.power.coolantCap then min (s.num (powerKey 1)) 1000 else s.num (powerKey 1)

/-- A cap begins: L falls to 1,000 W where it was higher. -/
def State.capLimit (s : State) : State := s.setNum (powerKey 2) (min (s.num (powerKey 2)) 1000)

/-- A cap has ended. -/
def State.uncapLimit (s : State) : State := s.setNum (powerKey 2) s.limitNow

/-- A start-up is in progress (R454). -/
def State.starting (s : State) : Bool :=
  s.num startupKey = 0 && s.startup.stage ≠ .off && s.startup.stage ≠ .restarting

/-- An abandoned start-up: the device waits for supplies to be valid again (R453). -/
def State.abandonStart (s : State) : State :=
  let s := s.regulatorsOff
  { s with startup := { s.startup with stage := .off, supply12 := false } }

/-- SUPPLY_OUT_OF_RANGE (R435, R449, R453): an input has been outside its recommended range for more than 1 ms, which abandons a
start-up in progress; outside its absolute range the device trips. -/
def execSupplyOutOfRange (dt : Nat) (absolute : Bool) (s : State) : Host.Outcome State Fault Refusal :=
  let s := s.tick dt
  if s.startup.stage = .off then .next s
  else if absolute then .next (s.trip ⟨.iod, 0⟩)
  else if s.starting then .next s.abandonStart
  else
    let s : State := { s with power := { s.power with supplyCap := true } }
    .next (s.capLimit.deviceReport ⟨.iod, 0⟩ 0x8006)

/-- SUPPLY_RESTORED (R435): every input has been within range for `within` ns; at 1 s the cap ends. -/
def execSupplyRestored (dt within : Nat) (s : State) : Host.Outcome State Fault Refusal :=
  let s := s.tick dt
  if s.power.supplyCap ∧ 1000000000 ≤ within then
    .next ({ s with power := { s.power with supplyCap := false } } : State).uncapLimit
  else .next s

/-! ### The governor (R437, R439, R440) -/

/-- Time since the run of excess began, µs (0x1100.06); 0 outside a run. -/
def State.excess (s : State) : Nat :=
  match s.power.runStart with
  | some t => (s.now - t) / 1000
  | none => 0

/-- Lever i engaged, 0 L2 to 3 L5. -/
def State.lever (s : State) (i : Nat) : Bool := bit (s.num (powerKey 5)) i

/-- Engage a lever: counted and recorded, once. -/
def State.engage (s : State) (i : Nat) : State :=
  if s.lever i then s
  else
    ((s.setNum (powerKey 5) (s.num (powerKey 5) + 2 ^ i)).bump (powerKey (8 + i)) 1).deviceReport ⟨.iod, 0⟩
      (if i = 0 then 0x8001 else 0x8002)

/-- Engage lever i and every lever before it. -/
def State.engageTo (s : State) (i : Nat) : State := (List.range (i + 1)).foldl State.engage s

/-- The highest lever engaged, as its number plus 1; 0 for none. -/
def leverCount (v : Nat) : Nat := if v = 0 then 0 else log2 v + 1

/-- Release the highest lever; cycle skipping ends with L3. -/
def State.release (s : State) : State :=
  match leverCount (s.num (powerKey 5)) with
  | 0 => s
  | i + 1 =>
    let s := s.setNum (powerKey 5) (s.num (powerKey 5) - 2 ^ i)
    if i = 1 then { s with power := { s.power with skip := 0 } } else s

/-- The run of excess after a sample of `mw` against L watts (R437). -/
def State.runAfter (s : State) (mw l : Nat) : State :=
  if l * 1000 < mw then
    { s with power := { s.power with runStart := some (s.power.runStart.getD s.now), calmSince := none } }
  else
    let t := s.power.calmSince.getD s.now
    { s with power := { s.power with
        calmSince := some t
        runStart := if t + 1000000 ≤ s.now then none else s.power.runStart } }

/-- The levers after a sample (R439). During a run of excess a lever stays engaged (notes/assumptions/94.md). -/
def State.leversAfter (s : State) (mw l : Nat) : State :=
  let e := s.excess
  let run := s.power.runStart.isSome
  let s := if run ∧ 1900 ≤ e then s.engageTo 3
    else if run ∧ 1800 ≤ e then s.engageTo 2
    else if (run ∧ 1500 ≤ e) ∨ 1850000 < mw then s.engageTo 1
    else if run ∧ 1000 ≤ e then s.engageTo 0
    else s
  let s : State := if s.lever 1 then { s with power := { s.power with skip := min 840 (s.power.skip + 105) } } else s
  let good := if mw * 100 ≤ 95 * l * 1000 then s.power.goodSamples + 1 else 0
  if 10 ≤ good ∧ s.power.runStart.isNone then ({ s with power := { s.power with goodSamples := 0 } } : State).release
  else { s with power := { s.power with goodSamples := good } }

/-! ### Samples, rated power and Fennel (R434, R436, R438, R443) -/

/-- Base power of a start, mW (R436). -/
def basePower (u : UnitId) (c : Cmd) : Nat :=
  match u.kind with
  | .matrix => if bits (c.u8 16) 2 0 = 1 ∨ bits (c.u8 16) 2 0 = 3 then 4600 else 3700
  | .vector => 550
  | _ => 170

/-- Rated power of a start, in mW × 2100 × 840². -/
def State.rated (s : State) (u : UnitId) (c : Cmd) : Nat :=
  let v := s.num (voltageKey u.cluster)
  basePower u c * s.num (effectiveKey u.num) * (v * v)

/-- The scale of `rated`. -/
def ratedScale : Nat := 2100 * (840 * 840)

/-- The engines of a die that wait for a grant, oldest request first. -/
def State.waiting (s : State) (die : Nat) : List UnitId :=
  let l := s.engines.filterMap (fun (e : Nat × Engine) =>
    let u := unitOfCode e.1
    if u.gates && u.num / 32 = die && e.2.gated && !e.2.granted then e.2.waitingSince.map (fun t => (t, u)) else none)
  (sortBy (fun (x : Nat × UnitId) => x.1) l).map (fun (x : Nat × UnitId) => x.2)

/-- The command that an engine would start: the first startable one of the job whose turn it would be. -/
def State.wouldStart (s : State) (u : UnitId) : Option Cmd :=
  match s.turn u with
  | (some j, _) => (s.startables u).find? (fun c => c.job = j)
  | (none, _) => none

/-- A start is metered and does not fit (R438, R439). -/
def State.metered (s : State) (u : UnitId) (c : Cmd) : Bool :=
  (!s.latency c.job || s.lever 0) &&
  s.num (powerKey 2) * 1000 * ratedScale < s.power.sampleMw * ratedScale + s.power.granted + s.rated u c

/-- Bring up to date which grants the governor withholds, before and after anything that changes it: a wait that it withholds began
with the wait or with the last change, and one that it no longer withholds is counted (0x1100.0D). -/
def State.noteMetered (s : State) : State :=
  let one (s : State) (u : UnitId) : State :=
    match s.wouldStart u with
    | none => s
    | some c =>
      let e := s.engine u
      match s.metered u c, e.meteredSince with
      | true, none => s.setEngine u { e with meteredSince := some (max (e.waitingSince.getD s.now) s.power.noted) }
      | false, some t => (s.setEngine u { e with meteredSince := none }).bump (powerKey 0x0D) (s.now - t)
      | _, _ => s
  let s := ((List.range 8).flatMap s.waiting).foldl one s
  { s with power := { s.power with noted := s.now } }

/-- POWER_SAMPLE (R434, R437, R439): the measured 12 V, VMGT and VIO inputs in mV and the 12 V current in 0.1 A. Their product
is the package power; L takes a written limit, the run of excess and the levers follow. -/
def execPowerSample (dt mv mgt vio current : Nat) (s : State) : Host.Outcome State Fault Refusal :=
  let s := s.tick dt
  if s.startup.stage = .off then .next s
  else
    let s := s.noteMetered
    let mw := mv * current / 10
    let w := mw / 1000 % 65536
    let s := (((s.setNum (objKey 0x1130 1) (mv % 65536)).setNum (objKey 0x1130 2) (mgt % 65536)).setNum (objKey 0x1130 3)
      (vio % 65536)).setNum (objKey 0x1130 4) (current % 65536)
    let s := ((s.setNum (powerKey 3) w).setNum (powerKey 4) (max w (s.num (powerKey 4)))).uncapLimit
    let s : State := { s with power := { s.power with granted := 0, sampleMw := mw } }
    let s := s.runAfter mw (s.num (powerKey 2))
    let s := s.setNum (powerKey 7) (max (s.num (powerKey 7)) (s.excess % 2 ^ 32))
    .next (s.leversAfter mw (s.num (powerKey 2))).noteMetered

/-- Give one engine its grant. -/
def State.grant (s : State) (u : UnitId) (c : Cmd) : State :=
  let e := s.engine u
  let wait := match e.waitingSince with
    | some t => s.now - t
    | none => 0
  let s := s.setEngine u { e with granted := true, meteredSince := none }
  let s := (s.bump (objKey 0x1260 1) 1).bump (objKey 0x1260 2) wait
  { s with power := { s.power with
      granted := s.power.granted + s.rated u c, lastGrant := Map.put s.power.lastGrant (u.num / 32) (some s.now) } }

/-- FENNEL_GRANT (R443): on a die, at most one start every 8 ns; latency class before background, the oldest request first,
past those whose grant the governor withholds. -/
def execFennelGrant (dt die : Nat) (s : State) : Host.Outcome State Fault Refusal :=
  let s := (s.tick dt).noteMetered
  let cand := (s.waiting die).filterMap (fun u => (s.wouldStart u).map (fun c => (u, c)))
  if (Map.find s.power.lastGrant die).any (fun t => s.now < t + 8) then .next s
  else
    let order := cand.filter (fun (x : UnitId × Cmd) => s.latency x.2.job) ++
      cand.filter (fun (x : UnitId × Cmd) => !s.latency x.2.job)
    match order.find? (fun (x : UnitId × Cmd) => !s.metered x.1 x.2) with
    | some (u, c) => .next (s.grant u c).noteMetered
    | none => .next s

/-! ### Temperatures (R448) -/

/-- A signed 16-bit reading as stored. -/
def i16 (t : Int) : Nat := ofSigned 16 t

/-- A map that tells since when a sensor has been hot. -/
def hotSince (m : Map Ns) (k : Nat) (hot : Bool) (now : Ns) : Map Ns :=
  if hot then (if (Map.find m k).isSome then m else Map.put m k (some now)) else Map.put m k none

/-- The hottest reading of a die's clusters so far. -/
def State.hottest (s : State) (die : Nat) : Int :=
  (s.power.logicTemps.filter (fun (x : Nat × Int) => x.1 / 4 = die)).foldl (fun m (x : Nat × Int) => max m x.2) (-32768)

/-- LOGIC_TEMP_SAMPLE (R448, R449): the reading of a cluster's logic sensor in °C; 32 names the I/O die's sensor, which is only
stored. -/
def execLogicTempSample (dt cluster : Nat) (temp : Int) (s : State) : Host.Outcome State Fault Refusal :=
  let s := s.tick dt
  if s.startup.stage = .off then .next s
  else if 32 ≤ cluster then .next (s.setNum (objKey 0x1118 1) (i16 temp))
  else
    let s : State := { s with power := { s.power with
      logicTemps := Map.put s.power.logicTemps cluster (some temp)
      logicHot := hotSince s.power.logicHot cluster (105 < temp) s.now } }
    let s := s.setNum (objKey (0x1110 + cluster / 4) 1) (i16 (s.hottest (cluster / 4)))
    let u : UnitId := ⟨.cluster, cluster⟩
    if 110 ≤ temp || (Map.find s.power.logicHot cluster).any (fun t => t + 100000000 ≤ s.now) then .next (s.trip u)
    else
      let skip := Map.get 0 s.power.clusterSkip cluster
      let skip' := if 100 < temp then min 840 (skip + 105) else if temp ≤ 97 then skip - 105 else skip
      let s := if skip = 0 ∧ skip' ≠ 0 then s.deviceReport u 0x8003 else s
      let s : State := { s with power := { s.power with clusterSkip := Map.set 0 s.power.clusterSkip cluster skip' } }
      .next (s.setNum (objKey (0x1110 + cluster / 4) 2)
        (((List.range 4).filter (fun i => Map.get 0 s.power.clusterSkip (cluster / 4 * 4 + i) ≠ 0)).foldl (fun n i => n + 2 ^ i) 0))

/-! ### Cooling (R447) -/

/-- Inlet, a signed number of 0.1 °C, and flow, 0.01 L/min, within limits. -/
def inletOk (v : Nat) : Bool := 150 ≤ toSigned 16 v && toSigned 16 v ≤ 450
def flowOk (v : Nat) : Bool := 180 ≤ v

/-- A written coolant report: `flow` tells which object. -/
def State.coolantReport (s : State) (flow : Bool) (v : Nat) : State :=
  let s := (s.setNum (objKey 0x1120 (if flow then 2 else 1)) v).setFlag (objKey 0x1120 3) true
  let s : State := { s with power := { s.power with coolantAt := some s.now } }
  if !(if flow then flowOk v else inletOk v) then
    ({ s with power := { s.power with coolantCap := true, coolantBack := none } } : State).capLimit.deviceReport ⟨.iod, 0⟩ 0x8005
  else if s.power.coolantCap && inletOk (s.num (objKey 0x1120 1)) && flowOk (s.num (objKey 0x1120 2)) then
    { s with power := { s.power with coolantBack := some (s.power.coolantBack.getD s.now) } }
  else s

/-- COOLANT_REPORT_STALE (R447): neither object has been written for 5 s; the report reads stale and the device acts on
temperatures alone, so the coolant's cap ends (notes/assumptions/20.md). -/
def execCoolantReportStale (dt : Nat) (s : State) : Host.Outcome State Fault Refusal :=
  let s := s.tick dt
  match s.power.coolantAt with
  | some t =>
    if t + 5000000000 ≤ s.now then
      .next ((({ s with power := { s.power with
        coolantCap := false, coolantBack := none, coolantAt := none } } : State).setFlag (objKey 0x1120 3) false).uncapLimit)
    else .next s
  | none => .next s

/-- COOLANT_CAP_RELEASE (R447): 10 s after both values returned within the limits, the cap is removed. -/
def execCoolantCapRelease (dt : Nat) (s : State) : Host.Outcome State Fault Refusal :=
  let s := s.tick dt
  match s.power.coolantBack with
  | some t =>
    if t + 10000000000 ≤ s.now then
      .next ({ s with power := { s.power with coolantCap := false, coolantBack := none } } : State).uncapLimit
    else .next s
  | none => .next s

/-! ### Die-to-die links (R20, R28) -/

/-- The state object of a UCIe module: 4 × die + module, 32 and 33 on the I/O die (R411). -/
def moduleKey (m : Nat) : Nat := if m < 32 then objKey (0x1250 + m / 4) (1 + m % 4) else objKey 0x1258 (m - 31)

/-- A module is there to be trained: every one but E of CD3 and CD7 (R28). -/
def moduleExists (m : Nat) : Bool := m < 34 && m ≠ 13 && m ≠ 29

/-- UCIE_RETRY_EXHAUSTED (R20, R28): the adapter retries of a trained module are counted as they are reported, received and
transmitted, and a module that has used them up has failed, an execution fault. The retries before that, with the data
through or still under way, are brought by the same row (notes/assumptions/100.md); the state of the module at the link's other
end is the model's choice, unchanged (notes/assumptions/101.md). -/
def execUcieRetryExhausted (dt m : Nat) (counts : RetryCounts) (retries : Retries) (s : State) : Host.Outcome State Fault Refusal :=
  let s := s.tick dt
  if !moduleExists m || !s.powered then .next s
  else
    let s := (s.bump (objKey 0x1259 1) counts.received).bump (objKey 0x1259 2) counts.transmitted
    match retries with
    | .over => .next (if s.num (moduleKey m) = 2 then s.setNum (moduleKey m) 1 else s)
    | .underWay => .next (if s.num (moduleKey m) = 1 then s.setNum (moduleKey m) 2 else s)
    | .exhausted =>
      let s := s.setNum (moduleKey m) 3
      .next (s.execFault (s.newReport ⟨.ucie, m⟩ 0x4001 4 0xFF))

end Sys2Proof.Machine
end

