-- ==== Sys2Proof/Machine/Memory.lean ====
section
/-! DEFINITION. Stacked memory at work: found errors, the scrubber, page retirement, stack temperatures, the SRAM scrubber and
zeroing (R256 to R272, R405, R448). -/
namespace Sys2Proof.Machine

/-! ### The code of a word (R249, R256, R257) -/

/-- Bits of a burst that all lie on one data pin: eight beats of 32 data bits (R249). -/
def onePin : List Nat → Bool
  | [] => true
  | i :: l => i < 256 && l.all (fun j => j < 256 && j % 32 = i % 32)

/-- Change bits of a set of wrong bits: a bit that changes twice is right again. -/
def toggle (old new : List Nat) : List Nat :=
  new.foldl (fun l b => if l.contains b then l.filter (· ≠ b) else l ++ [b]) old

/-- The address of a code word as its check bytes take it in: row, bank, pseudo-channel, stack and burst (R257). -/
def codeAddress (g w : Nat) : Nat :=
  let p := placeOf g w
  let r := rowOf p.2
  (((r.2.2 * 32 + r.2.1) * 32 + p.1) * 32 + Machine.stackOf g w) * 32 + r.1 * 8 + w / 32 % 8

/-- In how many bits two numbers below 2^40 differ. -/
def bitsApart (a b : Nat) : Nat := ((List.range 40).filter (fun i => (a ^^^ b).testBit i)).length

/-- A code word becomes uncorrectable, and stays so until it is written whole. -/
def State.spoilWord (s : State) (w : Nat) : State :=
  { s with mem := { s.mem with bad := insertAsc w s.mem.bad, flips := Map.put s.mem.flips w none } }

/-- An error beyond what R257 says of the code: whether it is detected is a free value, and a read of one that is not returns `data`
(notes/assumptions/115.md). -/
def State.beyondCode (s : State) (w : Nat) (data : Bytes) : State :=
  let (k, s) := s.drawNat
  if k % 2 = 0 then s.spoilWord w else s.store w data

/-- Something happens to a code word (R257). One wrong bit is correctable; two, or any number on one data pin, are detected; a word
that is uncorrectable already stays so. A read that returns another word is detected when the two addresses differ in one or two
bits. -/
def State.upset (s : State) (u : Upset) : State :=
  match u with
  | .flip w which =>
    if w % 32 ≠ 0 || !isStacked w || s.mem.bad.contains w then s
    else
      match toggle (Map.find s.mem.flips w).toList which with
      | [] => { s with mem := { s.mem with flips := Map.put s.mem.flips w none } }
      | [b] => { s with mem := { s.mem with flips := Map.put s.mem.flips w (some b) } }
      | l =>
        if l.length = 2 || onePin l then s.spoilWord w
        else
          let (d, s) := s.drawBytes 32
          s.beyondCode w d
  | .misread w other =>
    if w % 32 ≠ 0 || !isStacked w || s.mem.bad.contains w || w = other then s
    else if bitsApart (codeAddress s.spread w) (codeAddress s.spread other) ≤ 2 then s.spoilWord w
    else s.beyondCode w (s.bytes other 32)

/-! ### Scrubbing (R264, R265) -/

/-- Code words of a stack: 24 GiB of 32 bytes. -/
def wordsPerStack : Nat := 805306368

/-- Positions that local parts use in every pseudo-channel, with `g` GiB spread (R255). -/
def localPositions (g : Nat) : Nat := (0x1800000000 - g * 0x40000000) / 0x8000

/-- The local offset of the granule at position q of a pseudo-channel of a stack: R254 and R255 the other way. -/
def granuleAt (g stack pc q : Nat) : Nat :=
  if q < localPositions g then
    let t := (stack % 4) * 32 + pc
    let low := t ^^^ bits q 6 0 ^^^ bits q 13 7 ^^^ bits q 20 14 ^^^ bits q 21 21
    stack / 4 * 0x1800000000 + (q * 128 + low) * 256
  else
    let h := q - localPositions g
    let u := stack * 32 + pc
    let n := h * 1024 + (u ^^^ bits h 9 0 ^^^ bits h 19 10)
    let d := n / (g * 0x400000)
    d * 0x1800000000 + (0x1800000000 - g * 0x40000000) + n % (g * 0x400000) * 256

/-- The i-th code word of a pass over a stack: ascending position, then pseudo-channel. -/
def scrubWord (g stack i : Nat) : Nat := granuleAt g stack (i / 8 % 32) (i / 256) + i % 8 * 32

/-- The least number of passes that every stack has completed. -/
def State.passes (s : State) : Nat := minOr 0 ((List.range 32).map (fun k => Map.get 0 s.mem.scrubPasses k))

/-- The scrubber of a stack moves to its next code word; at the end of a pass the pass objects follow. -/
def State.scrubNext (s : State) (stack : Nat) : State :=
  let i := Map.get 0 s.mem.scrubPos stack + 1
  if i < wordsPerStack then { s with mem := { s.mem with scrubPos := Map.set 0 s.mem.scrubPos stack i } }
  else
    let before := s.passes
    let s : State := { s with mem := { s.mem with
      scrubPos := Map.set 0 s.mem.scrubPos stack 0
      scrubPasses := Map.set 0 s.mem.scrubPasses stack (Map.get 0 s.mem.scrubPasses stack + 1) } }
    if before < s.passes then (s.setNum (objKey 0x2501 2) s.passes).setNum (objKey 0x2501 3) s.now else s

/-- What the scrubber finds at a code word: an uncorrectable error is recorded and left as it is, a correctable one is rewritten, for
the firmware account (R58, R264, R265). -/
def State.scrubRead (s : State) (stack w : Nat) : State :=
  let s := s.countBytes ⟨.c2, some 64⟩ false w 32
  if s.mem.bad.contains w then
    ((s.bump (objKey (0x6500 + stack) 2) 1).report
      { s.newReport ⟨.memory, stack⟩ 0x1001 0 0xF0 with physical := w }).makePending w
  else if (Map.find s.mem.flips w).isSome then s.correct (some 64) w
  else s

/-- SCRUB_STEP (R263 to R265): what has happened to code words is taken in, for whichever read meets it first; then the scrubber of a
stack reads its next code word, skipping retired pages. Scrubbers run once the stacks have been zeroed and the engines started
(R270, R454). -/
def execScrubStep (dt stack : Nat) (finding : ScrubFinding) (s : State) : Host.Outcome State Fault Refusal :=
  let s := s.tick dt
  if 32 ≤ stack || !s.powered || s.startup.stage ≠ .usable then .next s
  else
    let s := (finding.upsets.foldl State.upset s).bump (objKey (0x6500 + stack) 0x0A) finding.floored
    let w := scrubWord s.spread stack (Map.get 0 s.mem.scrubPos stack)
    .next ((if s.meetsRetired w 32 then s else s.scrubRead stack w).scrubNext stack)

/-! ### Retirement (R267, R268) -/

/-- Retire one page: listed, no longer pending, its contents lost, recorded. -/
def State.retire (s : State) (page : Nat) : State :=
  if s.mem.retired.contains page then s
  else
    ({ s with mem := { s.mem.otherLists with
        retired := insertAsc page s.mem.retired
        pendingPages := s.mem.pendingPages.filter (· ≠ page)
        cells := s.mem.cells.filter (fun c => c.1 / 0x200000 ≠ page)
        bad := s.mem.bad.filter (fun w => w / 0x200000 ≠ page)
        flips := s.mem.flips.filter (fun e => e.1 / 0x200000 ≠ page) } } : State).report
      { s.newReport ⟨.memory, s.stackOf (page * 0x200000)⟩ 0x1005 0 0xF0 with physical := page * 0x200000 }

/-- Pending pages become retired, in ascending order, while the list has room; a full list leaves them pending and is
recorded (tenancy end and start-up). -/
def State.retirePending (s : State) : State :=
  s.mem.pendingPages.foldl (fun s p =>
    if s.mem.retired.length < 1024 then s.retire p
    else s.report { s.newReport ⟨.memory, s.stackOf (p * 0x200000)⟩ 0x1006 0 0xF0 with physical := p * 0x200000 }) s

/-- The retire-now action (R267): refused with 0x08 when the list is full; succeeded once applied. -/
def State.retireNow (s : State) (page : Nat) : Nat × State :=
  if s.mem.retired.contains page then (0, s.setNum (objKey 0x2503 6) 2)
  else if 1024 ≤ s.mem.retired.length then (8, s)
  else (0, (s.retire page).setNum (objKey 0x2503 6) 2)

/-! ### Zeroing (R52, R270) -/

/-- Bytes of a page that lie on a stack. -/
def pageShare (g page stack : Nat) : Nat :=
  let a := page * 0x200000
  let w := a % 0x1800000000
  if w < 0x1800000000 - g * 0x40000000 then (if a / 0x1800000000 = stack / 4 then 0x80000 else 0) else 0x10000

/-- Every code word outside retired pages, and every SRAM word, is written with zero data and valid codes; the writes are
class 2. -/
def State.zeroMemory (s : State) : State :=
  let s := (List.range 32).foldl (fun s k =>
    s.bump (objKey (0x6500 + k) 9) (0x600000000 - (s.mem.retired.map (fun p => pageShare s.spread p k)).foldl (· + ·) 0)) s
  { s with mem := { s.mem with
      cells := []
      bad := []
      flips := []
      sramBad := []
      sramSeen := [] } }

/-! ### Stack temperatures (R269, R448, R449) -/

/-- STACK_TEMP_SAMPLE (R269, R448, R449): the hottest die of a stack in °C. -/
def execStackTempSample (dt stack : Nat) (temp : Int) (s : State) : Host.Outcome State Fault Refusal :=
  let s := s.tick dt
  if 32 ≤ stack || !s.powered then .next s
  else
    let s := s.setNum (objKey (0x2510 + stack) 1) (i16 temp)
    let s := if 85 < temp then s.setNum (objKey (0x2510 + stack) 2) 2
      else if temp ≤ 83 then s.setNum (objKey (0x2510 + stack) 2) 1 else s
    let s : State := { s with power := { s.power with stackHot := hotSince s.power.stackHot stack (95 < temp) s.now } }
    let u : UnitId := ⟨.memory, stack⟩
    if 100 ≤ temp || (Map.find s.power.stackHot stack).any (fun t => t + 1000000000 ≤ s.now) then .next (s.trip u)
    else
      let was := Map.get 0 s.power.throttledStacks stack
      let now' := if 94 < temp then 2 else if 92 < temp then max was 1 else if temp ≤ 90 then 0 else was
      let s := if was < now' then s.deviceReport u 0x8003 else s
      .next { s with power := { s.power with throttledStacks := Map.set 0 s.power.throttledStacks stack now' } }

/-! ### The SRAM scrubber (R405) -/

/-- SRAM_SCRUB (R405): the words that have come to hold an uncorrectable error are taken in, for whichever access meets them first;
then the scrubber of the word's cluster reads the 8-byte word at a local offset. An uncorrectable word is recorded the first time
it is found. A single-bit error is corrected with nothing to show. -/
def execSramScrub (dt address : Nat) (struck : List Nat) (s : State) : Host.Outcome State Fault Refusal :=
  let s := s.tick dt
  let w := address / 8 * 8
  if !isSram w || !s.powered then .next s
  else
    let s : State := { s with mem := { s.mem with
      sramBad := ((struck.map (fun a => a / 8 * 8)).filter isSram).foldl (fun l a => insertAsc a l) s.mem.sramBad } }
    if s.mem.sramBad.contains w && !s.mem.sramSeen.contains w then
      let k := if isScratch w then (w - 0xF000000000) / 0x4000000 else (w - 0xF100000000) / 0x1000000
      .next (({ s with mem := { s.mem with sramSeen := insertAsc w s.mem.sramSeen } } : State).report
        { s.newReport ⟨.cluster, k⟩ 0x1008 0 0xF0 with physical := w })
    else .next s

end Sys2Proof.Machine
end

