-- ==== Sys2Proof/Machine/Flags.lean ====
section
/-! DEFINITION. The marks that a failing unit collects: suspicion, fencing, pauses for tests, and parity errors (R404, R423 to R429).
A unit is named here by its test code of R429: a core, 0x100 + lookup engine, or 0x140 + cluster for the cluster's units. -/
namespace Sys2Proof.Machine

/-- The core or lookup engine of a test code; the cluster number of the cluster units otherwise. -/
def testUnit (code : Nat) : UnitId :=
  if code < 0x100 then ⟨.core, code⟩ else if code < 0x140 then ⟨.lookup, code - 0x100⟩ else ⟨.cluster, code - 0x140⟩

/-- A test code of R429 that names one unit. -/
def testCodeOk (code : Nat) : Bool := code < 0x160

/-- The cluster of a test code. -/
def testCluster (code : Nat) : Nat := (testUnit code).cluster

/-- The engines that execute commands in the unit of a test code. -/
def testEngines (code : Nat) : List UnitId :=
  if code < 0x100 then [⟨.matrix, code⟩, ⟨.vector, code⟩, ⟨.stream, code⟩]
  else if code < 0x140 then [⟨.lookup, code - 0x100⟩]
  else [⟨.rowMerge, code - 0x140⟩]

/-- The test code of the unit that an engine lies in. -/
def UnitId.testCode (u : UnitId) : Nat :=
  match u.kind with
  | .matrix => u.num | .vector => u.num | .stream => u.num | .core => u.num
  | .lookup => 0x100 + u.num
  | _ => 0x140 + u.cluster

/-- Pause or release the engines of a unit (R429). -/
def State.setPaused (s : State) (code : Nat) (b : Bool) : State :=
  (testEngines code).foldl (fun s u => s.setEngine u { s.engine u with paused := b }) s

/-- Suspicions counted against a unit so far (R425, R432). -/
def State.suspicions (s : State) (code : Nat) : Nat :=
  if code < 0x140 then bits (s.num (suspectKey (testUnit code))) 1 0 else s.num (objKey (0x4030 + (code - 0x140)) 2)

/-- A unit is fenced: cluster units never are. -/
def State.testFenced (s : State) (code : Nat) : Bool := code < 0x140 && s.fenced (testUnit code)

/-- Count a suspicion. -/
def State.countSuspicion (s : State) (code : Nat) : State :=
  let n := s.suspicions code
  if 3 ≤ n then s
  else if code < 0x140 then (s.setNum (suspectKey (testUnit code)) (s.num (suspectKey (testUnit code)) + 1)).durable s
  else (s.setNum (objKey (0x4030 + (code - 0x140)) 2) (n + 1)).durable s

/-- A unit has no further margin: a core or lookup engine is fenced; cluster units run on at +45 mV and the package needs service
(R425). -/
def State.exhausted (s : State) (code : Nat) : State :=
  if code < 0x140 then s.fence_ (testUnit code)
  else
    (((s.setNum (objKey (0x4030 + (code - 0x140)) 1) 45).durable s).serviceRequired).report (s.newReport ⟨.cluster, code - 0x140⟩ 0x3009 0 0xF0)

/-- A unit becomes suspect (R423 to R425): its suspicion is counted; at three it is exhausted, and otherwise it is paused and a
search for margin is due. -/
def State.makeSuspect (s : State) (code : Nat) : State :=
  if s.testFenced code then s
  else
    let s := s.countSuspicion code
    if 3 ≤ s.suspicions code then s.exhausted code
    else
      (({ s with integ := { s.integ with
        windows := insertAsc code s.integ.windows, suspects := insertAsc code s.integ.suspects } } : State).setPaused code true)

/-- A parity error on an engine's data path (R404): an execution fault, and the unit becomes suspect. -/
def State.parityFault (s : State) (c : Cmd) (u : UnitId) : State := (s.cmdFault c 0x3003).makeSuspect u.testCode

end Sys2Proof.Machine
end

