-- ==== Sys2Proof/Machine/Stream.lean ====
section
/-! DEFINITION. Stream engines: descriptors, arms, tiles, requests, the regulator and abandonment (R291 to R309). -/
namespace Sys2Proof.Machine

def streamKey (core sub : Nat) : Nat := objKey (0x6700 + core) sub

/-! ### Descriptors (R292, R293) -/

/-- A field of the source (`dst` false) or destination side of a descriptor. -/
def descSpace (b : Bytes) (dst : Bool) : Nat := if dst then bits (fieldLe b 0 1) 3 2 else bits (fieldLe b 0 1) 1 0
def descUnit (b : Bytes) (dst : Bool) : Nat := fieldLe b (if dst then 2 else 1) 1
def descRowBytes (b : Bytes) : Nat := fieldLe b 4 2 + 1
def descRows (b : Bytes) : Nat := fieldLe b 6 2 + 1
def descTiles (b : Bytes) : Nat := fieldLe b 8 4 + 1
def descBase (b : Bytes) (dst : Bool) : Nat := fieldLe b (if dst then 24 else 16) 8
def descRowStride (b : Bytes) (dst : Bool) : Int := toSigned 32 (fieldLe b (if dst then 36 else 32) 4)
def descTileStride (b : Bytes) (dst : Bool) : Int := toSigned 64 (fieldLe b (if dst then 48 else 40) 8)

/-- Address of the first byte of row r of tile t on a side. -/
def descAddr (b : Bytes) (dst : Bool) (t r : Nat) : Int :=
  descBase b dst + t * descTileStride b dst + r * descRowStride b dst

/-- Least address, and one past the greatest, over every byte of every tile of a side. -/
def descLow (b : Bytes) (dst : Bool) : Int :=
  descBase b dst + min 0 (((descTiles b - 1 : Nat) : Int) * descTileStride b dst) +
    min 0 (((descRows b - 1 : Nat) : Int) * descRowStride b dst)
def descHigh (b : Bytes) (dst : Bool) : Int :=
  descBase b dst + max 0 (((descTiles b - 1 : Nat) : Int) * descTileStride b dst) +
    max 0 (((descRows b - 1 : Nat) : Int) * descRowStride b dst) + descRowBytes b

/-- A 64-bit address of an integer. -/
def addr64 (i : Int) : Nat := ofSigned 64 i

/-- The first addresses of the distinct pages that a tile touches on a side. -/
def tilePages (b : Bytes) (dst : Bool) (t : Nat) : List Nat :=
  ((List.range (descRows b)).flatMap (fun r => pagesOf (addr64 (descAddr b dst t r)) (descRowBytes b))).foldl
    (fun acc a => if acc.any (fun x => x / 0x200000 = a / 0x200000) then acc else acc ++ [a]) []

/-- Each tile of a virtual side touches at most 32 pages. A tile's count depends on its base modulo the page, so the tiles of
one period of the tile stride stand for all. -/
def pagesOk (b : Bytes) (dst : Bool) : Bool :=
  let period := 0x200000 / Nat.gcd (descTileStride b dst).natAbs 0x200000
  descRows b ≤ 16 ||
  (descRows b - 1) * (descRowStride b dst).natAbs + descRowBytes b ≤ 31 * 0x200000 + 1 ||
  (List.range (min (descTiles b) period)).all (fun t => (tilePages b dst t).length ≤ 32)

/-- A side of a descriptor keeps the limits of R293, with `merge` bytes of merge area at the top of a buffer. -/
def sideOk (b : Bytes) (merge : Nat) (dst : Bool) : Bool :=
  match descSpace b dst with
  | 1 => pagesOk b dst
  | 3 => descUnit b dst < 32 && 0 ≤ descLow b dst && descHigh b dst ≤ ((0x1000000 - merge : Nat) : Int)
  | _ => descBase b dst < 0x800000 && 0 ≤ descLow b dst && descHigh b dst ≤ 0x800000

/-- The limits of R293. -/
def descOk (b : Bytes) (merge : Nat) : Bool :=
  descRows b * descRowBytes b ≤ 65536 && sideOk b merge false && sideOk b merge true

/-- The target of an address of a side. Only space 0b01 is translated. -/
def State.sideTarget (s : State) (core : Nat) (d : Desc) (dst : Bool) (a : Int) : Option Target :=
  match descSpace d.bytes dst with
  | 0 => some (.here (scratchBase core + a.toNat))
  | 1 => ((s.cmd? d.cmd).bind (fun c => c.target (addr64 a)))
  | 2 => some (.here (scratchBase (descUnit d.bytes dst) + a.toNat))
  | _ => some (.here (bufferBase (descUnit d.bytes dst) + a.toNat))

/-! ### The status record and the end of an arm (R298, R299) -/

/-- The key of a request towards another package: its tile and byte. -/
def StreamReq.key (r : StreamReq) : Nat := r.tile * 65536 + r.number

/-- The status record of an arm that completes now; `w` holds status, tiles, halts and bytes. -/
def armRecord (w : List Nat) (now : Ns) : Bytes :=
  natLe 2 (w.getD 0 0) ++ natLe 2 0 ++ natLe 4 (w.getD 1 0) ++ natLe 4 (w.getD 2 0) ++ natLe 4 (w.getD 3 0) ++
    natLe 8 (w.getD 4 0) ++ natLe 8 now

/-- The status record of a collective that completes now (R375); `w` holds status, chunks sent and received, and non-finite and
saturated elements. -/
def collRecord (w : List Nat) (now : Ns) : Bytes :=
  natLe 2 (w.getD 0 0) ++ natLe 2 0 ++ natLe 4 (w.getD 1 0) ++ natLe 4 (w.getD 2 0) ++ natLe 4 (w.getD 3 0) ++
    natLe 4 (w.getD 4 0) ++ natLe 4 0 ++ natLe 8 now

/-- The status record that a command of a stream engine owes. -/
def Cmd.record (c : Cmd) (now : Ns) : Bytes := if c.opcode = 0x10 then armRecord c.scratch now else collRecord c.scratch now

/-- Every effect of an arm or a collective has been performed: an arm's fence is signalled when it is done (an arm refused or
abandoned signals none, notes/assumptions/17.md), and its engine may complete it. -/
def State.armFinish (s : State) (c : Cmd) : State :=
  let s := if c.opcode = 0x10 ∧ bit (c.u8 17) 1 ∧ c.scratch.headD 0 = 0 then s.signal (c.u64 40) (c.u64 48) else s
  s.setCmd { c with phase := .finished }

/-- Write the status record of an arm or a collective, when it has an address, and finish the command. A record for another package
is a request that waits for its acknowledgement. -/
def State.armStatus (s : State) (core : Nat) (c : Cmd) : State :=
  let a := c.u64 56
  if a = 0 then s.armFinish c
  else
    match s.needRanges c ⟨.stream, core⟩ [(a, 32, true)] with
    | .fault s => s
    | .wait s => s
    | .ready s c =>
      let d := c.record s.now
      match c.target a with
      | some (.here o) =>
        if s.meetsMerge o 32 then s.illegal c
        else
          match s.write ⟨.c1, some c.job⟩ o d with
          | (.ok _, s) => s.armFinish c
          | (.bad e, s) => s.cmdFault c e
      | some (.host h) =>
        if s.ownRange h 32 then s.illegal c
        else if s.attached && s.hostWriteRoom h 32 then ((s.putHost c.job 0 core h d).hostBytes c.job 32).armFinish c
        else s
      | some (.remote chip o) =>
        if s.streams.requests.any (fun r => r.core = core && r.slot = 16 && r.number = c.id) then s
        else if s.routeDown chip then s.remoteFailed core 3 (some c)
        else
          let r : StreamReq := ⟨core, 16, 0, c.id, [], .remote chip o, 32, false, false⟩
          ({ s with streams := { s.streams with requests := s.streams.requests ++ [r] } } : State).sendRemote
            core 16 c.id true chip o 32 c.job d
      | none => s

/-- An arm ends with a status: what is owed is kept in the command until the record is written. -/
def State.armEnd (s : State) (core id status tiles xh hh moved : Nat) : State :=
  match s.cmd? id with
  | none => s
  | some c =>
    let c := { c with scratch := [status, tiles, xh, hh, moved], armed := true, xl := [], unwatched := true, uncharged := false, held := none }
    (s.setCmd c).armStatus core c

/-- A descriptor becomes active (R293, R297): its limits are checked, an illegal operation otherwise. -/
def State.activate (s : State) (core slot : Nat) (d : Desc) : State :=
  if descOk d.bytes s.mergeSize then
    s.setStreamSlot core slot { state := .running, active := some d, shadow := none }
  else
    match s.cmd? d.cmd with
    | some c => s.illegal c
    | none => s

/-- The active descriptor of a slot has completed: the shadow is promoted before anything else reaches the slot, then the
record, the fence and the arm follow (R297, R299). -/
def State.descDone (s : State) (core slot : Nat) (d : Desc) (status : Nat) : State :=
  let v := s.streamSlot core slot
  let s := s.setStreamSlot core slot StreamSlot.init
  let s := s.armEnd core d.cmd status d.delivered d.xlatHalts d.hostHalts d.moved
  match v.shadow with
  | some sh => if (s.cmd? sh.cmd).isSome then s.activate core slot sh else s
  | none => s

/-! ### Arms (R296, R297) -/

/-- Count an arm refused. -/
def State.armRefused (s : State) (core : Nat) (c : Cmd) : State :=
  (s.bump (streamKey core 3) 1).armEnd core c.id 1 0 0 0 0

/-- The arm takes effect according to the slot's state. -/
def State.armTakes (s : State) (core : Nat) (c : Cmd) (b : Bytes) : State :=
  let slot := bits (c.u8 16) 3 0
  let v := s.streamSlot core slot
  let d : Desc :=
    { bytes := b, cmd := c.id, job := c.job, tile := 0, translated := false, issued := 0, delivered := 0, moved := 0,
      xlatHalts := 0, hostHalts := 0, underWay := [], reads := [], writes := [] }
  let c' := { c with armed := true, unwatched := true, watched := 0, xl := [] }
  match v.active, v.shadow with
  | none, _ => (s.setCmd c').activate core slot d
  | some _, none => (s.setCmd c').setStreamSlot core slot { v with shadow := some d }
  | some _, some _ => s.armRefused core c

/-- The fields of an arm: the descriptor and status alignment, and the fence name (R6). -/
def armOk (c : Cmd) : Bool :=
  c.u64 24 % 64 = 0 && c.u64 56 % 32 = 0 && (!bit (c.u8 17) 1 || fenceOk (c.u64 40)) &&
  (bit (c.u8 17) 0 || c.u64 24 + 64 ≤ 0x800000)

/-- Read the descriptor of an arm: from the own scratchpad, or through the page table from storage here, on the host or in
another package. -/
def State.armRead (s : State) (core : Nat) (c : Cmd) : State :=
  let a := c.u64 24
  let take (s : State) (c : Cmd) (o : Nat) : State :=
    if s.meetsMerge o 64 then s.illegal c
    else
      match s.read ⟨.c1, some c.job⟩ o 64 with
      | (.ok b, s) => s.armTakes core c b
      | (.bad e, s) => s.cmdFault c e
  if !bit (c.u8 17) 0 then take s c (scratchBase core + a)
  else
    match s.needRanges c ⟨.stream, core⟩ [(a, 64, false)] with
    | .fault s => s
    | .wait s => s
    | .ready s c =>
      match c.target a with
      | some (.here o) => take s c o
      | some (.host h) =>
        if s.ownRange h 64 then s.illegal c
        else if !s.attached then s
        else
          match s.takeHost (.cmd c.id) h 64 with
          | some (b, s) => (s.hostBytes c.job 64).armTakes core c b
          | none => s.askHost (.cmd c.id) h 64
      | some (.remote chip o) =>
        match s.streams.requests.find? (fun r => r.core = core && r.slot = 17 && r.number = c.id) with
        | some r =>
          (match r.parts.head?.bind (fun p => p.data) with
          | some b =>
            ({ s with streams := { s.streams with requests := s.streams.requests.filter (fun x => x ≠ r) } } : State).armTakes
              core c b
          | none => s)
        | none =>
          if s.routeDown chip then s.remoteFailed core 3 (some c)
          else
            let r : StreamReq := ⟨core, 17, 0, c.id, [⟨.remote chip o, 0, 64, none⟩], .here 0, 64, false, false⟩
            ({ s with streams := { s.streams with requests := s.streams.requests ++ [r] } } : State).sendRemote
              core 17 c.id false chip o 64 c.job []
      | none => s

/-- A page that a command keeps translated leads to the host. -/
def Cmd.needsHost (c : Cmd) : Bool :=
  c.xl.any (fun x => match x.2.1 with
    | .host _ => true
    | _ => false)

/-- A started command of an opcode on a stream engine that still has something to do in its own step: the first that is neither
held on a translation fault nor waiting for the absent host, which keep no other command from its step. -/
def State.streamCmd? (s : State) (core op : Nat) : Option Cmd :=
  s.cmds.find? (fun c => c.unit = some ⟨.stream, core⟩ && c.opcode = op && c.phase = .running &&
    (!c.armed || c.scratch ≠ []) && c.held.isNone && (s.attached || !c.needsHost))

/-- STREAM_ARM (R297): the started arm of a core copies its descriptor and takes effect, or, when its end is due, writes its
record. With no such arm, or while its page, host line or remote read is outstanding, only time passes. -/
def execStreamArm (dt core : Nat) (s : State) : Host.Outcome State Fault Refusal :=
  let s := s.tick dt
  match s.streamCmd? core 0x10 with
  | none => .next s
  | some c =>
    if c.armed then .next (s.armStatus core c)
    else if !armOk c then .next (s.illegal c)
    else .next (s.armRead core c)

/-! ### The regulator (R302, R303) -/

def State.regulator (s : State) (core : Nat) : Regulator := Map.get Regulator.init s.streams.regulators core
def State.setRegulator (s : State) (core : Nat) (r : Regulator) : State :=
  { s with streams := { s.streams with regulators := Map.set Regulator.init s.streams.regulators core r } }

/-- Tokens now, in thousandths of a byte: a MB/s is a thousandth of a byte per nanosecond. -/
def Regulator.level (r : Regulator) (now : Ns) : Nat := min (r.depth * 1000) (r.tokens + r.rate * (now - r.filled))

/-- The bucket holds enough for a request of n bytes, or the engine is unregulated. -/
def Regulator.grants (r : Regulator) (now : Ns) (n : Nat) : Bool := r.rate = 0 || n * 1000 ≤ r.level now

/-- The issue of a slot's request of n bytes removes its tokens, and the time that it waited for them is counted (R302). -/
def State.takeTokens (s : State) (core slot n : Nat) : State :=
  let s := s.endWait core slot
  let r := s.regulator core
  if r.rate = 0 then s else s.setRegulator core { r with tokens := r.level s.now - n * 1000, filled := s.now }

/-- A slot's request of n bytes begins to wait for tokens, unless it waits already. -/
def State.awaitTokens (s : State) (core slot n : Nat) : State :=
  let r := s.regulator core
  if r.wanted.any (fun w => w.1 = slot) then s else s.setRegulator core { r with wanted := r.wanted ++ [(slot, n, s.now)] }

/-- The highest number of tags in use is kept (R309). -/
def State.notePeakTags (s : State) (core n : Nat) : State := s.setNum (streamKey core 7) (max (s.num (streamKey core 7)) (min n 256))

/-- STREAM_REGULATE (R303): sets rate and depth, fills the bucket, and completes at once. A request that waits goes on waiting. -/
def execStreamRegulate (dt core : Nat) (s : State) : Host.Outcome State Fault Refusal :=
  let s := s.tick dt
  match s.streamCmd? core 0x11 with
  | none => .next s
  | some c =>
    let rate := c.u32 16
    let depth := c.u32 20
    if 1000000 < rate ∨ depth < 256 ∨ 16777216 < depth then .next (s.illegal c)
    else .next ((s.setRegulator core ⟨rate, depth, depth * 1000, s.now, (s.regulator core).wanted⟩).setCmd { c with armed := true, phase := .finished })

/-! ### Tiles (R304, R306) -/

/-- The local destination ranges of the tile that a descriptor is issuing. -/
def State.tileHere (s : State) (core : Nat) (d : Desc) : List (Nat × Nat) :=
  (List.range (descRows d.bytes)).flatMap (fun r =>
    let a := descAddr d.bytes true d.tile r
    if descSpace d.bytes true = 1 then
      (match s.cmd? d.cmd with
      | some c => c.localPieces (addr64 a) (descRowBytes d.bytes)
      | none => [])
    else match s.sideTarget core d true a with
      | some (.here o) => [(o, descRowBytes d.bytes)]
      | _ => [])

/-- The local ranges that a descriptor's requests from tile `t` on have been to write, and all of a tile that it is issuing. -/
def State.underTiles (s : State) (core : Nat) (d : Desc) (t : Nat) : List (Nat × Nat) :=
  d.writes.filterMap (fun w => match w.2.1 with
    | .here a => if t ≤ w.1 then some (a, w.2.2) else none
    | _ => none) ++
  (if d.translated && d.issued ≠ 0 then s.tileHere core d else [])

/-- Halt a slot for the host at tile `t`: what of it was in flight is dropped, its destination bytes are undefined, and the tile is
reissued whole (R306). A hold on a translation fault of a later tile is over: that tile is translated afresh. -/
def State.haltHost (s : State) (core slot t : Nat) : State :=
  let v := s.streamSlot core slot
  match v.active with
  | none => s
  | some d =>
    let s := (s.dropRequests core slot t).blur (s.underTiles core d t)
    let below := (s.streams.requests.filter (fun r => r.core = core && r.slot = slot)).map (·.tile)
    let s := s.setStreamSlot core slot { v with
      state := .haltedHost,
      active := some { d with
        tile := t, translated := false, issued := 0, hostHalts := d.hostHalts + 1, delivered := t - below.eraseDups.length,
        underWay := d.underWay.filter (fun x => x.1 < t),
        reads := d.reads.filter (fun x => x.1 < t), writes := d.writes.filter (fun x => x.1 < t) } }
    let s := (s.bump (streamKey core 5) 1).hostLost ⟨.stream, core⟩ d.job
    match s.cmd? d.cmd with
    | some c => s.setCmd { c with unwatched := !d.underWay.any (fun x => x.1 < t), uncharged := true, xl := [], held := none }
    | none => s

/-- The pages of a tile that R304 translates, on both sides. -/
def tileRanges (b : Bytes) (t : Nat) : List (Nat × Nat × Bool) :=
  (if descSpace b false = 1 then (tilePages b false t).map (fun a => (a, 1, false)) else []) ++
  (if descSpace b true = 1 then (tilePages b true t).map (fun a => (a, 1, true)) else [])

/-- A page of a tile leads where a stream engine may not go: a merge area, or this device's own range of host addresses. -/
def State.tileForbidden (s : State) (c : Cmd) (b : Bytes) (t : Nat) : Bool :=
  let side (dst : Bool) : Bool :=
    descSpace b dst = 1 && (List.range (descRows b)).any (fun r =>
      (c.pieces (addr64 (descAddr b dst t r)) (descRowBytes b)).any (fun p =>
        match p.2.2 with
        | some (.here a) => s.meetsMerge a p.2.1
        | some (.host h) => s.ownRange h p.2.1
        | _ => false))
  side false || side true

/-- Begin to time a tile, unless it is timed already (R343). -/
def State.timeTile (s : State) (core slot : Nat) (d : Desc) (c : Cmd) : State :=
  if d.underWay.any (fun x => x.1 = d.tile) then s
  else
    let s := s.setStreamSlot core slot { s.streamSlot core slot with
      active := some { d with underWay := d.underWay ++ [(d.tile, s.now)] } }
    s.setCmd { c with unwatched := false, uncharged := false, watched := if d.underWay = [] then 0 else c.watched }

/-- STREAM_TILE (R304): every page of the next tile of a running slot is translated, after which its requests may issue; or the
descriptor halts before the tile. -/
def execStreamTile (dt core slot : Nat) (s : State) : Host.Outcome State Fault Refusal :=
  let s := s.tick dt
  let v := s.streamSlot core slot
  match v.active with
  | none => .next s
  | some d =>
    if v.state ≠ .running ∨ d.translated ∨ descTiles d.bytes ≤ d.tile then .next s
    else
      match s.cmd? d.cmd with
      | none => .next s
      | some c =>
        let s := s.timeTile core slot d c
        match s.needRanges ((s.cmd? c.id).getD c) ⟨.stream, core⟩ (tileRanges d.bytes d.tile) with
        | .fault s => .next s
        | .wait s => .next s
        | .ready s c =>
          if s.tileForbidden c d.bytes d.tile then .next (s.illegal c)
          else if c.needsHost && !s.attached then .next (s.haltHost core slot d.tile)
          else
            let v := s.streamSlot core slot
            .next (s.setStreamSlot core slot { v with active := v.active.map (fun d => { d with translated := true }) })

/-! ### Requests (R299 to R302, R305, R308) -/

/-- Requests of a core that hold one of its 256 tags. -/
def State.tags (s : State) (core : Nat) : List StreamReq := s.streams.requests.filter (fun r => r.core = core && r.slot < 16)

/-- The next request of a tile: its length, cut at the 256-byte boundaries of the destination (R300). -/
def requestLength (b : Bytes) (t p : Nat) : Nat :=
  let r := p / descRowBytes b
  let o := p % descRowBytes b
  min (descRowBytes b - o) (256 - (descAddr b true t r + o).toNat % 256)

/-- What a request of n bytes at an address of the source reads: one range, or one on either side of a page's end. -/
def State.sourceParts (s : State) (core : Nat) (d : Desc) (a : Int) (n : Nat) : Option (List StreamPart) :=
  let m := if descSpace d.bytes false = 1 then min n (0x200000 - addr64 a % 0x200000) else n
  match s.sideTarget core d false a, s.sideTarget core d false (a + m) with
  | some t, u =>
    if m = n then some [⟨t, 0, n, none⟩] else u.map (fun u => [⟨t, 0, m, none⟩, ⟨u, m, n - m, none⟩])
  | none, _ => none

/-- A request's data, once all of it has come. -/
def StreamReq.data (r : StreamReq) : Option Bytes :=
  r.parts.foldl (fun b p => match b, p.data with
    | some b, some d => some (b ++ d)
    | _, _ => none) (some [])

/-- Read a part of a request's source, or ask for it; none after a fault. -/
def State.readPart (s : State) (core slot key : Nat) (c : Cmd) (p : StreamPart) : Option StreamPart × State :=
  match p.source with
  | .here a =>
    (match s.read ⟨.c1, some c.job⟩ a p.length with
    | (.bad e, s) => (none, s.cmdFault c e)
    | (.ok b, s) => (some { p with data := some b }, s))
  | .host h => (some p, s.askHost (.stream core slot (key + p.offset)) h p.length)
  | .remote chip a =>
    if s.routeDown chip then (none, s.remoteFailed core 3 (some c))
    else (some p, s.sendRemote core slot (key + p.offset) false chip a p.length c.job [])

/-- Read the parts of a request's source in order; none after a fault. -/
def State.readParts (s : State) (core slot key : Nat) (c : Cmd) : List StreamPart → Option (List StreamPart) × State
  | [] => (some [], s)
  | p :: rest =>
    match s.readPart core slot key c p with
    | (none, s) => (none, s)
    | (some p, s) =>
      match s.readParts core slot key c rest with
      | (none, s) => (none, s)
      | (some l, s) => (some (p :: l), s)

/-- The port has room for the host lines of a request (R387). -/
def State.partsRoom (s : State) (l : List StreamPart) : Bool :=
  s.readsOut + (l.map (fun p => match p.source with
    | .host h => hostLines h p.length
    | _ => 0)).foldl (· + ·) 0 ≤ 1024

/-- Note a range that a tile has read or written; one that goes on from the latest is one with it. -/
def noteRange (l : List (Nat × Target × Nat)) (tile : Nat) (t : Target) (n : Nat) : List (Nat × Target × Nat) :=
  match l with
  | (k, u, m) :: rest => if k = tile ∧ u.plus m = t then (k, u, m + n) :: rest else (tile, t, n) :: l
  | [] => [(tile, t, n)]

/-- A range shares bytes with one that is noted. -/
def meetsNoted (l : List (Nat × Target × Nat)) (t : Target) (n : Nat) : Bool := l.any (fun x => x.2.1.meets x.2.2 t n)

/-- The source of a request meets its own destination or one written by an earlier request, or its destination the source of an
earlier one: R293 leaves the bytes undefined. -/
def Desc.clash (d : Desc) (q : StreamReq) : Bool :=
  q.parts.any (fun p => p.source.meets p.length q.dest q.length || meetsNoted d.writes p.source p.length) ||
    meetsNoted d.reads q.dest q.length

/-- Where a request's source has been written, in this package. -/
def Desc.clashHere (d : Desc) (q : StreamReq) : List (Nat × Nat) :=
  let here (t : Target) (n : Nat) : Option (Nat × Nat) := match t with
    | .here a => some (a, n)
    | _ => none
  meetRanges (q.parts.filterMap (fun p => here p.source p.length)) (d.writes.filterMap (fun x => here x.2.1 x.2.2))

/-- A request joins those in flight, with what overlaps undefined (R293): what it writes, what requests in flight write to its source,
and what they have written there. -/
def State.joinRequest (s : State) (d : Desc) (q : StreamReq) : State :=
  let clash := d.clash q
  let s := s.blur (d.clashHere q)
  let v := s.streamSlot q.core q.slot
  let s := s.setStreamSlot q.core q.slot { v with active := v.active.map (fun d => { d with
    reads := q.parts.foldl (fun l p => noteRange l q.tile p.source p.length) d.reads
    writes := noteRange d.writes q.tile q.dest q.length }) }
  { s with streams := { s.streams with
      requests := mapIf (fun (x : StreamReq) => x.core = q.core && x.slot = q.slot &&
          q.parts.any (fun p => p.source.meets p.length x.dest x.length)) (fun x => { x with undefined := true }) s.streams.requests ++
        [{ q with undefined := clash }] } }

/-- After a request has issued: the position in the tile, the tokens, the tags' peak; at the last request of a tile, the next
tile's turn. -/
def State.issuedOne (s : State) (core slot n : Nat) : State :=
  let v := s.streamSlot core slot
  match v.active with
  | none => s
  | some d =>
    let p := d.issued + n
    let last := descRows d.bytes * descRowBytes d.bytes ≤ p
    let d' := if last then { d with tile := d.tile + 1, translated := false, issued := 0 } else { d with issued := p }
    let s := s.setStreamSlot core slot { v with active := some d' }
    let s := if last then
      (match s.cmd? d.cmd with
      | some c => s.setCmd { c with xl := [] }
      | none => s) else s
    (s.takeTokens core slot n).notePeakTags core (s.tags core).length

/-- Issue the next request of a slot: its source is read, or asked of the host or of another package. -/
def State.issueRequest (s : State) (core slot : Nat) (d : Desc) (c : Cmd) (n : Nat) : State :=
  let r := d.issued / descRowBytes d.bytes
  let o := d.issued % descRowBytes d.bytes
  match s.sourceParts core d (descAddr d.bytes false d.tile r + o) n,
    s.sideTarget core d true (descAddr d.bytes true d.tile r + o) with
  | some parts, some dst =>
    let q : StreamReq := ⟨core, slot, d.tile, d.issued, [], dst, n, false, false⟩
    if !s.partsRoom parts then s
    else
      match s.readParts core slot q.key c parts with
      | (none, s) => s
      | (some parts, s) => (s.joinRequest d { q with parts := parts }).issuedOne core slot n
  | _, _ => s

/-- A slot has a request to issue: its descriptor runs, and its tile is translated. -/
def State.hasRequest (s : State) (core slot : Nat) : Bool :=
  let v := s.streamSlot core slot
  v.state = .running && v.active.any (fun d => d.translated && (s.cmd? d.cmd).isSome)

/-- A slot's descriptor is of a latency-class job. -/
def State.latencySlot (s : State) (core slot : Nat) : Bool := (s.streamSlot core slot).active.any (fun d => s.latency d.job)

/-- The slot whose request issues next (R341): of the latency class if one of its slots has a request, and in each class the slots in
turn, in ascending number. -/
def State.issueSlot (s : State) (core : Nat) : Option Nat :=
  let ready := (List.range 16).filter (s.hasRequest core)
  let lat := ready.filter (s.latencySlot core)
  let last := Map.get 15 s.streams.turns (2 * core + (if lat = [] then 1 else 0))
  ((rangeFrom (last + 1) 16).map (· % 16)).find? (fun k => (if lat = [] then ready else lat).contains k)

/-- A slot has issued: the next turn of its class is another's. -/
def State.tookTurn (s : State) (core slot : Nat) (lat : Bool) : State :=
  { s with streams := { s.streams with turns := Map.set 15 s.streams.turns (2 * core + (if lat then 0 else 1)) slot } }

/-- STREAM_REQUEST_ISSUE (R300, R302, R341): the next request of the slot whose turn it is issues when a tag and enough tokens are
there; a request that lacks tokens begins to wait for them. For any other slot only time passes. -/
def execStreamRequestIssue (dt core slot : Nat) (s : State) : Host.Outcome State Fault Refusal :=
  let s := s.tick dt
  if s.issueSlot core ≠ some slot ∨ 256 ≤ (s.tags core).length then .next s
  else
    match (s.streamSlot core slot).active with
    | none => .next s
    | some d =>
      match s.cmd? d.cmd with
      | none => .next s
      | some c =>
        let n := requestLength d.bytes d.tile d.issued
        if c.needsHost && !s.attached then .next (s.haltHost core slot d.tile)
        else if !(s.regulator core).grants s.now n then .next (s.awaitTokens core slot n)
        else .next ((s.issueRequest core slot d c n).tookTurn core slot (s.latency d.job))

/-- Two targets of one kind overlap. -/
def Target.overlaps (a : Target) (n : Nat) (b : Target) (m : Nat) : Bool :=
  match a, b with
  | .here x, .here y => x < y + m && y < x + n
  | .remote c x, .remote d y => c = d && x < y + m && y < x + n
  | _, _ => false

/-- An earlier request of the same descriptor writes bytes of this one: writes to one byte are performed in issue order
(R308). -/
def State.mustWait (s : State) (r : StreamReq) : Bool :=
  s.streams.requests.any (fun q => q.core = r.core && q.slot = r.slot && q.key < r.key &&
    q.dest.overlaps q.length r.dest r.length)

/-- A request's write has been performed: its tag is free, bytes and tiles are counted, and the last write of the last tile
completes the descriptor (R299). -/
def State.performed (s : State) (q : StreamReq) : State :=
  let s : State := { s with streams := { s.streams with
    requests := s.streams.requests.filter (fun x => !(x.core = q.core && x.slot = q.slot && x.key = q.key)) } }
  let v := s.streamSlot q.core q.slot
  match v.active with
  | none => s
  | some d =>
    let s := s.bump (streamKey q.core 2) q.length
    let mine := s.streams.requests.filter (fun x => x.core = q.core && x.slot = q.slot)
    let whole := q.tile < d.tile && !mine.any (fun x => x.tile = q.tile)
    let under := if whole then d.underWay.filter (fun x => x.1 ≠ q.tile) else d.underWay
    let d := { d with moved := d.moved + q.length, delivered := d.delivered + (if whole then 1 else 0), underWay := under }
    let s := if whole then s.bump (streamKey q.core 1) 1 else s
    let s := match s.cmd? d.cmd with
      | some c => s.setCmd { c with
          unwatched := c.unwatched || under = [], watched := if under = [] then 0 else s.now - minOr 0 (under.map (fun (x : Nat × Ns) => x.2)) }
      | none => s
    let s := s.setStreamSlot q.core q.slot { v with active := some d }
    if descTiles d.bytes ≤ d.tile && mine = [] then s.descDone q.core q.slot d 0 else s

/-- Perform the write of a request whose data has come. -/
def State.performWrite (s : State) (q : StreamReq) (c : Cmd) (b : Bytes) : State :=
  let (b, s) := if q.undefined then s.drawBytes q.length else (b, s)
  match q.dest with
  | .here a =>
    (match s.write ⟨.c1, some c.job⟩ a b with
    | (.ok _, s) => s.performed q
    | (.bad e, s) => s.cmdFault c e)
  | .host h =>
    if s.attached && s.hostWriteRoom h q.length then
      ((s.putHost c.job 0 q.core h b).hostBytes c.job q.length).performed q
    else s
  | .remote chip o =>
    if q.acked then s.performed q
    else if s.fabric.requests.any (fun r => r.write && r.core = q.core && r.slot = q.slot && r.number = q.key) then s
    else if s.routeDown chip then s.remoteFailed q.core 3 (some c)
    else s.sendRemote q.core q.slot q.key true chip o q.length c.job b

/-- What the host has returned for a request's parts is taken into it. -/
def State.takeParts (s : State) (q : StreamReq) (c : Cmd) : StreamReq × State :=
  let r := q.parts.foldl (fun (r : List StreamPart × State) p =>
    match p.data, p.source with
    | none, .host h =>
      (match r.2.takeHost (.stream q.core q.slot (q.key + p.offset)) h p.length with
      | some (b, s) => (r.1 ++ [{ p with data := some b }], s.hostBytes c.job p.length)
      | none => (r.1 ++ [p], r.2))
    | _, _ => (r.1 ++ [p], r.2)) ([], s)
  let q' := { q with parts := r.1 }
  (q', { r.2 with streams := { r.2.streams with requests := mapIf (fun x => x = q) (fun _ => q') r.2.streams.requests } })

/-- STREAM_WRITE_PERFORMED (R299): the write of a request in flight is performed; while its data, its order or its
acknowledgement is outstanding, only time passes. Slot 16 names the status write of the arm `number`. `parity` is a parity error
on the engine's data path (R305, R404). -/
def execStreamWritePerformed (dt core slot tile number : Nat) (parity : Bool) (s : State) : Host.Outcome State Fault Refusal :=
  let s := s.tick dt
  match s.streams.requests.find? (fun r => r.core = core && r.slot = slot && r.tile = tile && r.number = number) with
  | none => .next s
  | some q =>
    if slot = 16 then
      match s.cmd? number with
      | some c =>
        if q.acked then
          .next (({ s with streams := { s.streams with requests := s.streams.requests.filter (fun x => x ≠ q) } } : State).armFinish c)
        else .next s
      | none => .next s
    else
      match (s.streamSlot core slot).active.bind (fun d => s.cmd? d.cmd) with
      | none => .next s
      | some c =>
        if parity then .next (s.parityFault c ⟨.stream, core⟩)
        else if s.mustWait q then .next s
        else
          let (q, s) := s.takeParts q c
          match q.data with
          | none => .next s
          | some b => .next (s.performWrite q c b)

/-! ### Abandonment (R307) -/

/-- Abandon job j's arms in one slot: each completes with status 0x0002, what was in flight is dropped, and a shadow of another
job becomes active (notes/assumptions/17.md). -/
def State.abandonSlot (s : State) (j core slot : Nat) : State :=
  let v := s.streamSlot core slot
  let s := match v.shadow with
    | some d =>
      if d.job = j then
        ((s.setStreamSlot core slot { v with shadow := none }).bump (streamKey core 8) 1).armEnd core d.cmd 2 0 0 0 0
      else s
    | none => s
  match (s.streamSlot core slot).active with
  | some d =>
    if d.job = j then
      ((s.dropRequests core slot 0).bump (streamKey core 8) 1).descDone core slot d 2
    else s
  | none => s

/-- Abandon every arm of job j that is halted, active or shadowed. -/
def State.abandonArms (s : State) (j : Nat) : State :=
  s.streams.slots.foldl (fun s e => s.abandonSlot j (e.1 / 16) (e.1 % 16)) s

/-- Every slot that is halted for the host runs on at its saved tile (R306). -/
def State.resumeHost (s : State) : State :=
  let halted := s.streams.slots.filterMap (fun (e : Nat × StreamSlot) =>
    if e.2.state = SlotState.haltedHost then e.2.active.map (fun d => d.cmd) else none)
  { s with
    cmds := mapIf (fun c => halted.contains c.id) (fun c => { c with uncharged := false }) s.cmds
    streams := { s.streams with
      slots := s.streams.slots.map (fun (e : Nat × StreamSlot) =>
        if e.2.state = SlotState.haltedHost then (e.1, { e.2 with state := .running }) else e) } }

end Sys2Proof.Machine
end

