-- ==== Sys2Proof/Machine/Tenancy.lean ====
section
/-! DEFINITION. Tenancies, jobs and accounting (R50 to R59). An action answers the status code of R41 that its write replies with,
and the state after it. -/
namespace Sys2Proof.Machine

/-- Recovery from an execution fault is in progress (0x2711.05). -/
def State.recovering (s : State) : Bool := s.integ.recoverySince.isSome

/-- The torus holds more than one package (R356). -/
def State.manyPackages (s : State) : Bool := s.extent 0 * s.extent 1 * s.extent 2 ≠ 1

/-- Zero the accounting counters of one account. -/
def State.clearAccount (s : State) (a : Nat) : State := s.clearNums (acctKey a 1) (acctKey a 0x0C)

/-- Zero the balances of every engine (R338): all of them, or one job's. -/
def State.clearBalances (s : State) : State := { s with engines := s.engines.map (fun e => (e.1, { e.2 with balances := [] })) }
def State.clearBalance (s : State) (j : Nat) : State :=
  { s with engines := s.engines.map (fun e => (e.1, { e.2 with balances := Map.set 0 e.2.balances j 0 })) }

/-- The tenancy fault queue is emptied and the overflow counters are zeroed (R51, R410, R413). -/
def State.clearFaultQueue (s : State) : State :=
  let s := s.clearNums (objKey 0x4000 2) (objKey 0x4000 3)
  { s with integ := { s.integ with lostBefore := 0 } }

/-- Every job slot free. A close action that was running has then succeeded (R55). -/
def State.freeJobs (s : State) : State :=
  (List.range 64).foldl (fun s j =>
    let s := if s.num (jobCloseKey j) = 1 then s.setNum (jobCloseKey j) 2 else s
    s.setNum (jobStateKey j) jobFree) s

/-- Tenancy start (R51). -/
def State.tenancyStart (s : State) (owner : Nat) : Nat × State :=
  let old := s
  if s.tenancy ≠ 0 then (8, s)
  else if s.manyPackages && !s.epochs.stepped then (0x0A, s)
  else
    let s := s.clearFaultQueue.clearNums (objKey 0x4000 6) (objKey 0x4000 9)
    let s := ((List.range 65).foldl State.clearAccount s.freeJobs).clearBalances
    let s : State := { s with
      fences := []
      tables := []
      streams := { s.streams with slots := [], requests := [], regulators := [], turns := [] }
      arith := { s.arith with slots := [] } }
    let s := (s.setNum (objKey 0x2300 3) 0).clearNums (objKey 0x2711 2) (objKey 0x2711 3)
    let s := ((s.bump (objKey 0x2000 4) 1).setNum (objKey 0x2000 5) owner).setNum (objKey 0x2000 6) s.now
    (0, (((s.setNum (objKey 0x2000 8) 0).setNum tenancyKey 1).setNum (objKey 0x2000 1) 2).durable old)

/-- Some job is open or closing. -/
def State.jobsLive (s : State) : Bool := (List.range 64).any (fun j => s.job j = jobOpen || s.job j = jobClosing)

/-- Step 1 of R52: every open job becomes closing, and its stream arms are abandoned (R307). -/
def State.closeJobs (s : State) : State :=
  (List.range 64).foldl (fun s j => if s.job j = jobOpen then (s.setNum (jobStateKey j) jobClosing).abandonArms j else s) s

/-- Tenancy end (R52). -/
def State.tenancyEnd (s : State) (arg : Nat) : Nat × State :=
  if s.tenancy ≠ 1 then (8, s)
  else if 1 < arg then (6, s)
  else if arg = 0 && s.jobsLive then (8, s)
  else
    let s := (s.setNum tenancyKey 2).setNum (objKey 0x2000 2) 1
    if s.recovering then (0x12, { s with epochs := { s.epochs with ending := .waiting } })
    else (0x12, ({ s with epochs := { s.epochs with ending := .draining } } : State).closeJobs)

/-- Row-merge unit u's counters (R168). -/
def unitKey (u sub : Nat) : Nat := objKey (0x6200 + u) sub

/-- Charge the time since a unit's last apply step to its apply work. -/
def State.chargeUnit (s : State) (u : Nat) : State :=
  let t := s.now - (Map.find s.update.busySince u).getD s.now
  let s := s.bump (unitKey u 3) t
  { s with update := { s.update with
      busy := Map.set 0 s.update.busy u (Map.get 0 s.update.busy u + t)
      busySince := Map.put s.update.busySince u (some s.now) } }

/-- Divide a unit's apply time among jobs by the gradient rows they delivered in the epoch before (R58); the remainder goes to
the lowest-numbered. -/
def State.chargeApply (s : State) (u : Nat) : State :=
  let time := Map.get 0 s.update.busy u
  let mine := sortBy (fun d => d.2.2.1) (s.update.delivered.filter (fun d => d.1 = u && d.2.1 < s.update.applyEpoch))
  let total := (mine.map (fun d => d.2.2.2)).foldl (· + ·) 0
  if total = 0 then s
  else
    let shares := mine.map (fun d => (d.2.2.1, time * d.2.2.2 / total))
    let rest := time - (shares.map (fun x => x.2)).foldl (· + ·) 0
    let s := shares.foldl (fun s x => s.acct x.1 5 x.2) s
    match mine with
    | d :: _ => s.acct d.2.2.1 5 rest
    | [] => s

/-- A command of some job runs on an engine. -/
def State.anyRunning (s : State) : Bool := s.cmds.any (fun c => c.inFlight && c.unit.isSome)

/-- Step 3 of R52: no further boundary falls, and an apply phase in progress is abandoned; the time that the units have spent on it is
charged as R58 gives. -/
def State.stopEpochs (s : State) : State :=
  let s := (List.range 32).foldl (fun s u =>
    (if s.update.parts.any (fun p => p.unit = u && p.open_ && !p.marked && !p.ended) then s.chargeUnit u else s).chargeApply u) s
  let s := s.clearNums (objKey 0x2100 3) (objKey 0x2100 7)
  { s with
    update := { s.update with
      parts := [], markers := [], epochFences := [], delivered := [], deliveries := [], runs := [], swaps := [], busy := [],
      busySince := [], turns := [] }
    lookups := []
    fabric := { s.fabric with channels := [], collectives := [], outgoing := [], requests := [] } }

/-- Step 4 of R52: every job tag is invalidated. -/
def State.dropJobTags (s : State) : State :=
  ({ s with xlat := { s.xlat with
      tlbs := s.xlat.tlbs.map (fun (e : Nat × List TlbEntry) => (e.1, e.2.filter (fun t => 0x40 ≤ t.tag)))
      walks := s.xlat.walks.filter (fun w => 0x40 ≤ w.tag) } } : State).bump (objKey 0x2600 2) 64

/-- TENANCY_END_DRAINED (R52 steps 2 to 5): the running commands have finished, so epochs stop, tags are invalidated, pending
pages retire (R267) and zeroing begins. -/
def execTenancyEndDrained (dt : Nat) (s : State) : Host.Outcome State Fault Refusal :=
  let s := s.tick dt
  if s.epochs.ending ≠ .draining || s.recovering || s.anyRunning then .next s
  else
    let s := s.stopEpochs.dropJobTags
    let s : State := { s with
      cmds := []
      queues := s.queues.map (fun (e : Nat × Queue) => (e.1, { e.2 with launch := none }))
      epochs := { s.epochs with ending := .zeroing } }
    .next s.retirePending

/-- A queue whose job slot becomes free is disabled (R311). -/
def freeQueue (q : Queue) : Queue := { q.setEnable false with state := .disabled, disableAfter := false, launch := none }

/-- TENANCY_END_COMPLETE (R52 steps 5 and 6): memory is zero, the tables are gone, the fault queue is cleared, every slot is
free and the state is none. -/
def execTenancyEndComplete (dt : Nat) (s : State) : Host.Outcome State Fault Refusal :=
  let s := s.tick dt
  if s.epochs.ending ≠ .zeroing || s.recovering then .next s
  else
    let s := s.zeroMemory.clearFaultQueue.freeJobs
    let s : State := { s with
      tables := []
      queues := s.queues.map (fun (e : Nat × Queue) => (e.1, freeQueue e.2))
      arith := { s.arith with banks := [], runs := [], passes := [] }
      update := { s.update with entries := [], sequences := [], exchanges := [] }
      epochs := { s.epochs with ending := .none } }
    .next ((s.setNum tenancyKey 0).setNum (objKey 0x2000 2) 2)

/-! ### Jobs (R55, R56, R59) -/

/-- The open action of job j (R55, R338, R59); its slice takes its default (R347). -/
def State.jobOpens (s : State) (j : Nat) : Nat × State :=
  if s.job j ≠ jobFree || s.tenancy ≠ 1 || s.recovering then (8, s)
  else
    let s := ((s.clearAccount j).clearBalance j).setNum (jobStateKey j) jobOpen
    let s := s.setNum (objKey (0x2720 + j) 1) 20
    (0, (s.setNum (jobOpenedKey j) s.now).setNum (jobOpenKey j) 2)

/-- A job slot becomes free: its queues are disabled, and what it still held in the front end is dropped. -/
def State.freeJob (s : State) (j : Nat) : State :=
  let s := s.setNum (jobStateKey j) jobFree
  { s with
    cmds := s.cmds.filter (fun c => c.job ≠ j)
    queues := s.queues.map (fun (e : Nat × Queue) => if e.1 / 16 = j then (e.1, freeQueue e.2) else e) }

/-- The close action of job j (R55): an open slot begins to close, a lost one is free at once. -/
def State.jobCloses (s : State) (j : Nat) : Nat × State :=
  if s.job j = jobOpen then
    (0x12, ((s.setNum (jobStateKey j) jobClosing).setNum (jobCloseKey j) 1).abandonArms j)
  else if s.job j = jobLost then (0, (s.freeJob j).setNum (jobCloseKey j) 2)
  else (8, s)

/-- JOB_CLOSE_COMPLETE (R55): the last running command of a closing job has finished; its tag is invalidated and the slot
becomes free. -/
def execJobCloseComplete (dt j : Nat) (s : State) : Host.Outcome State Fault Refusal :=
  let s := s.tick dt
  if 64 ≤ j || s.job j ≠ jobClosing || s.cmds.any (fun c => c.job = j && c.inFlight && c.unit.isSome) then .next s
  else .next ((((s.dropTag j).bump (objKey 0x2600 2) 1).freeJob j).setNum (jobCloseKey j) 2)

/-! ### Invalidation ends (R283, R284) -/

/-- A stream request of a job is outstanding whose write was translated to storage here: an invalidation of its tag completes after it
(R283). -/
def State.localWriteOut (s : State) (tag : Nat) : Bool :=
  s.streams.requests.any (fun r => r.slot < 16 &&
    (match r.dest with
    | .here _ => true
    | _ => false) &&
    (s.streamSlot r.core r.slot).active.any (fun d => d.job = tag && descSpace d.bytes true = 1))

/-- INVALIDATION_COMPLETE (R283, R284): the invalidation of a tag that completes next ends, its entries and walks dropped, once every
access translated through them to a local target has been performed. -/
def execInvalidationComplete (dt tag : Nat) (s : State) : Host.Outcome State Fault Refusal :=
  let s := s.tick dt
  match s.inval? tag with
  | none => .next s
  | some i =>
    if s.localWriteOut tag then .next s
    else
      let s : State := { s with xlat := { s.xlat with invals := s.xlat.invals.erase i } }
      let s := (s.dropTag tag).invalDone (i.source = .register)
      match i.source with
      | .action => .next (s.setNum (objKey 0x2600 3) 2)
      | .command id =>
        match s.control? id 0x03 with
        | some c => .next (s.complete c)
        | none => .next s
      | _ => .next s

/-- The accounting snapshot action (R59): every counter of one account at one instant. -/
def State.accountSnapshot (s : State) (a : Nat) : Nat × State :=
  if 64 < a then (6, s)
  else
    let t := (rangeFrom 1 12).foldl (fun t i => t.setNum (objKey 0x6042 i) (s.num (acctKey a i))) s
    (0, ((t.setNum (objKey 0x6042 0x0D) s.now).setNum (objKey 0x6042 0x0E) a).setNum (objKey 0x6041 0) 2)

end Sys2Proof.Machine
end

