-- ==== Sys2Proof/Machine/Tables.lean ====
section
/-! DEFINITION. Embedding tables: descriptor fields, layout in memory, row formats and conversion, index resolution, homes,
the row map and the hot-row directory (R75 to R97). -/
namespace Sys2Proof.Machine

/-! ### Descriptor (R96) -/

def Table.class_ (t : Table) : Nat := fieldLe t.desc 0 1
def Table.tiered (t : Table) : Bool := t.class_ = 3
def Table.hash (t : Table) : Bool := bit (fieldLe t.desc 1 1) 0
def Table.epochConsistent (t : Table) : Bool := bit (fieldLe t.desc 1 1) 1
def Table.scope (t : Table) : Nat := bits (fieldLe t.desc 1 1) 3 2
def Table.sharded (t : Table) : Bool := bit (fieldLe t.desc 1 1) 4
def Table.optimiser (t : Table) : Nat := fieldLe t.desc 2 1
def Table.extentCount (t : Table) : Nat := bits (fieldLe t.desc 3 1) 3 0
def Table.dim (t : Table) : Nat := fieldLe t.desc 4 2
def Table.rows (t : Table) : Nat := fieldLe t.desc 8 8
def Table.hashSeed (t : Table) : Nat := fieldLe t.desc 16 8
def Table.placementSeed (t : Table) : Nat := fieldLe t.desc 24 8
/-- Pool capacities by tier code. -/
def Table.capacity (t : Table) (tier : Nat) : Nat := fieldLe t.desc (32 + 4 * tier) 4
def Table.hotPromote (t : Table) : Nat := fieldLe t.desc 44 1
def Table.hotDemote (t : Table) : Nat := fieldLe t.desc 45 1
def Table.warmPromote (t : Table) : Nat := fieldLe t.desc 46 1
def Table.warmDemote (t : Table) : Nat := fieldLe t.desc 47 1
def Table.limit (t : Table) : Nat := fieldLe t.desc 48 2 * 1024
def Table.origin (t : Table) : Nat := bits (fieldLe t.desc 50 2) 11 0
def Table.group (t : Table) (axis : Nat) : Nat := bits (fieldLe t.desc 52 2) (4 * axis + 3) (4 * axis) + 1
def Table.replicaPages (t : Table) : Nat := bits (fieldLe t.desc 56 8) 63 48
def Table.extentPages (t : Table) (j : Nat) : Nat := bits (fieldLe t.desc (64 + 8 * j) 8) 63 48
def Table.trainable (t : Table) : Bool := t.optimiser ≠ 0

/-- P, the packages of the shard group; 1 for a table that is not sharded (R82). -/
def Table.packages (t : Table) : Nat := if t.sharded then t.group 0 * t.group 1 * t.group 2 else 1

/-- R, the shard rows that a shard may hold (R82). -/
def Table.shardRows (t : Table) : Nat := ceilDiv t.rows t.packages

/-! ### Row formats and slots (R77, R78) -/

/-- Content bytes of a row of D elements: stored format 0 BF16, 1 8-bit codes, 2 4-bit codes. -/
def contentBytes (d code : Nat) : Nat :=
  match code with
  | 0 => 2 * d
  | 1 => 4 + d
  | _ => 4 + ceilDiv d 2

/-- The slot size for b content bytes (R78). -/
def slotSize (b : Nat) : Nat := if b ≤ 32 then 32 else if b ≤ 64 then 64 else if b ≤ 128 then 128 else roundUp b 256

/-- The stored format of a table's rows in a tier; a fixed-code table has one. -/
def Table.code (t : Table) (tier : Nat) : Nat := match t.class_ with
  | 1 => 1
  | 2 => 2
  | _ => tier

/-- The stored format of the default row (R84). -/
def Table.defaultCode (t : Table) : Nat := t.code 0

def Table.slot (t : Table) (tier : Nat) : Nat := slotSize (contentBytes t.dim (t.code tier))

/-- The largest slot of a table. -/
def Table.largestSlot (t : Table) : Nat := if t.tiered then max (t.slot 0) (max (t.slot 1) (t.slot 2)) else t.slot 0

/-- FP16 widened to FP32 (R233). -/
def halfToF32 (h : Nat) : Nat := Fmt.fp32.encode (Fmt.fp16.decode h)

/-- The FP32 elements of a stored row (R77, R116). -/
def rowValues (d code : Nat) (b : Bytes) : List Nat :=
  match code with
  | 0 => (List.range d).map (fun k => fieldLe b (2 * k) 2 * 65536)
  | 1 => (List.range d).map (fun k =>
      f32Add (f32Mul (f32OfNat (fieldLe b (4 + k) 1)) (halfToF32 (fieldLe b 0 2))) (halfToF32 (fieldLe b 2 2)))
  | _ => (List.range d).map (fun k =>
      f32Add (f32Mul (f32OfNat (bits (fieldLe b (4 + k / 2) 1) (4 * (k % 2) + 3) (4 * (k % 2)))) (halfToF32 (fieldLe b 0 2)))
        (halfToF32 (fieldLe b 2 2)))

/-- Bytes padded with zeros to a slot. -/
def padTo (n : Nat) (b : Bytes) : Bytes := (b ++ List.replicate (n - b.length) 0).take n

/-- Two 4-bit codes a byte, the even element in the low half. -/
def packNibbles : List Nat → Bytes
  | [] => []
  | [a] => [BitVec.ofNat 8 a]
  | a :: b :: rest => BitVec.ofNat 8 (a + 16 * b) :: packNibbles rest

/-- The least and greatest of a row, −0 below +0 (R79). -/
def rowMin (l : List FV) : FV := match l with
  | [] => .zero
  | a :: l => l.foldl FV.min a
def rowMax (l : List FV) : FV := match l with
  | [] => .zero
  | a :: l => l.foldl FV.max a

/-- Convert a row of FP32 elements to a code format with codes 0 to n: scale, offset and codes (R79). -/
def rowCodes (n : Nat) (row : List Nat) : Option (Nat × Nat × List Nat) :=
  let vals := row.map Fmt.fp32.decode
  if vals.any FV.nonFinite then none
  else
    let m := rowMin vals
    let offset := Fmt.fp16.encode m
    let scale := Fmt.fp16.encode (((rowMax vals).sub m).div (FV.ofInt n))
    if (Fmt.fp16.decode offset).nonFinite || (Fmt.fp16.decode scale).nonFinite then none
    else
      let codes := if (Fmt.fp16.decode scale).isZero then row.map (fun _ => 0)
        else row.map (fun x =>
          let q := f32Div (f32Sub x (halfToF32 offset)) (halfToF32 scale)
          (max 0 (min (n : Int) (Fmt.fp32.decode q).toInt)).toNat)
      some (scale, offset, codes)

/-- A row of FP32 elements in a stored format, padded to its slot; none when it cannot be converted (R79). -/
def encodeRow (code : Nat) (row : List Nat) : Option Bytes :=
  let n := slotSize (contentBytes row.length code)
  match code with
  | 0 =>
    let h := row.map (fun x => Fmt.bf16.encode (Fmt.fp32.decode x))
    if h.any (fun x => (Fmt.bf16.decode x).nonFinite) then none else some (padTo n (h.flatMap (natLe 2)))
  | 1 => (rowCodes 255 row).map (fun r => padTo n (natLe 2 r.1 ++ natLe 2 r.2.1 ++ r.2.2.flatMap (natLe 1)))
  | _ => (rowCodes 15 row).map (fun r => padTo n (natLe 2 r.1 ++ natLe 2 r.2.1 ++ packNibbles r.2.2))

/-- A stored row is finite (R77): every BF16 element, or the scale and the offset. -/
def rowFinite (d code : Nat) (b : Bytes) : Bool :=
  match code with
  | 0 => (List.range d).all (fun k => !(Fmt.bf16.decode (fieldLe b (2 * k) 2)).nonFinite)
  | _ => !(Fmt.fp16.decode (fieldLe b 0 2)).nonFinite && !(Fmt.fp16.decode (fieldLe b 2 2)).nonFinite

/-- A stored row with every byte of its slot beyond the content zero. -/
def trimRow (d code : Nat) (b : Bytes) : Bytes :=
  padTo (slotSize (contentBytes d code)) (b.take (contentBytes d code))

/-! ### Parts and places (R97) -/

/-- The parts of an extent, in the table's order (notes/assumptions/22.md). -/
inductive TablePart where
  | metadata | rowPool | rowMap | hotPool | warmPool | coldPool | counters | state
  deriving DecidableEq, Repr

/-- Bytes of one row's optimiser state (R97). -/
def Table.stateBytes (t : Table) : Nat :=
  match t.optimiser with
  | 2 => 2
  | 3 => 32 * ceilDiv (t.dim + 2) 32
  | _ => 0

/-- Bytes of a part in each extent, before rounding. -/
def Table.partBytes (t : Table) (p : TablePart) : Nat :=
  let e := t.extentCount
  let r := ceilDiv t.shardRows e
  let c (tier : Nat) := ceilDiv (t.capacity tier) e
  match p with
  | .metadata => 0x200000
  | .rowPool => if t.tiered then 0 else r * t.slot 0
  | .rowMap => if t.tiered then r * 4 else 0
  | .hotPool => if t.tiered then c 0 * t.slot 0 else 0
  | .warmPool => if t.tiered then c 1 * t.slot 1 else 0
  | .coldPool => if t.tiered then c 2 * t.slot 2 else 0
  | .counters => if t.tiered then c 0 + c 1 else 0
  | .state => r * t.stateBytes

def allParts : List TablePart := [.metadata, .rowPool, .rowMap, .hotPool, .warmPool, .coldPool, .counters, .state]

/-- Pages of 2 MiB that a part takes in each extent. -/
def Table.partPages (t : Table) (p : TablePart) : Nat := ceilDiv (t.partBytes p) 0x200000

/-- Pages that each extent must have. -/
def Table.neededPages (t : Table) : Nat := (allParts.map t.partPages).foldl (· + ·) 0

/-- Offset of a part within its extent. -/
def Table.partOffset (t : Table) (p : TablePart) : Nat :=
  ((allParts.takeWhile (· ≠ p)).map t.partPages).foldl (· + ·) 0 * 0x200000

/-- The local offset of a byte of an extent. -/
def Table.physical (t : Table) (extent off : Nat) : Nat :=
  (t.extents.getD extent []).getD (off / 0x200000) 0 * 0x200000 + off % 0x200000

/-- A range of an extent as pieces (local offset, length) that no granule boundary cuts. -/
def Table.cut (t : Table) (extent off n : Nat) : List (Nat × Nat) :=
  (granules off n).map (fun g => (t.physical extent (max off g), inGranule off n g))

/-- The pieces of item i of size `n` in a part. -/
def Table.item (t : Table) (p : TablePart) (i n : Nat) : List (Nat × Nat) :=
  t.cut (i % t.extentCount) (t.partOffset p + i / t.extentCount * n) n

/-- The pool of a tier. -/
def Table.pool (t : Table) (tier : Nat) : TablePart :=
  if !t.tiered then .rowPool else match tier with
    | 0 => .hotPool
    | 1 => .warmPool
    | _ => .coldPool

/-- The pieces of a slot of a tier's pool; for a fixed-code table, of a shard row. -/
def Table.slotPieces (t : Table) (tier slot : Nat) : List (Nat × Nat) := t.item (t.pool tier) slot (t.slot tier)

/-- The local offset of a shard row's row-map entry, the pieces of the entry, and those of its optimiser state. -/
def Table.mapAt (t : Table) (row : Nat) : Nat :=
  t.physical (row % t.extentCount) (t.partOffset .rowMap + row / t.extentCount * 4)
def Table.mapPieces (t : Table) (row : Nat) : List (Nat × Nat) := [(t.mapAt row, 4)]
def Table.statePieces (t : Table) (row : Nat) : List (Nat × Nat) := t.item .state row t.stateBytes

/-- The local offset of a tier counter of a hot or warm slot. -/
def Table.counterAt (t : Table) (tier slot : Nat) : Nat :=
  let e := t.extentCount
  t.physical (slot % e) (t.partOffset .counters + (if tier = 0 then 0 else ceilDiv (t.capacity 0) e) + slot / e)

/-- Granule m of a page of the replica region on a stack, in ascending address order: copy c of the page's m-th replica set
(notes/assumptions/22.md). -/
def replicaGranule (g page stack m : Nat) : Nat :=
  ((rangeFrom 0 8192).filter (fun i => Machine.stackOf g (page * 0x200000 + 256 * i) = stack)).getD m 0 * 256 + page * 0x200000

/-- The local offset of copy `stack` of a replica set. -/
def State.copyAt (s : State) (t : Table) (set stack : Nat) : Nat :=
  replicaGranule s.spread (t.replica.getD (set / 256) 0) stack (set % 256)

/-! ### Reading and writing pieces -/

/-- Read pieces in order. -/
def State.readCut (s : State) (acc : Access) : List (Nat × Nat) → MemResult × State
  | [] => (.ok [], s)
  | (a, n) :: rest =>
    match s.read acc a n with
    | (.bad e, s) => (.bad e, s)
    | (.ok d, s) =>
      match s.readCut acc rest with
      | (.bad e, s) => (.bad e, s)
      | (.ok d', s) => (.ok (d ++ d'), s)

/-- Write pieces in order through a row-merge unit, which may write part of a code word (R145, R258). -/
def State.writeCut (s : State) (acc : Access) : List (Nat × Nat) → Bytes → MemResult × State
  | [], _ => (.ok [], s)
  | (a, n) :: rest, d =>
    match s.mergeWrite acc a (d.take n) with
    | (.bad e, s) => (.bad e, s)
    | (.ok _, s) => s.writeCut acc rest (d.drop n)

/-! ### From index to row (R80 to R82) -/

def w64 : Nat := 2 ^ 64

/-- The mixing function of R81. -/
def mix64 (z : Nat) : Nat :=
  let z := ((z ^^^ (z >>> 30)) * 0xBF58476D1CE4E5B9) % w64
  let z := ((z ^^^ (z >>> 27)) * 0x94D049BB133111EB) % w64
  z ^^^ (z >>> 31)

/-- What an index leads to: the default row, by the way it is counted, or a row number. -/
inductive Resolved where
  | sentinel | negative | outOfRange
  | row (r : Nat)
  deriving DecidableEq, Repr

/-- Resolve a 64-bit index (R80, R81). -/
def Table.resolve (t : Table) (i : Nat) : Resolved :=
  if i = 0xFFFFFFFFFFFFFFFF then .sentinel
  else if 2 ^ 63 ≤ i then .negative
  else if t.hash then .row (mix64 (i ^^^ t.hashSeed) % t.rows)
  else if t.rows ≤ i then .outOfRange
  else .row i

/-- Shard and shard row of a row number (R82). -/
def Table.place (t : Table) (r : Nat) : Nat × Nat :=
  let p := t.packages
  let b := r / p
  ((r % p + mix64 (b ^^^ t.placementSeed)) % p, b)

/-- The chip of a shard (R82). -/
def Table.shardChip (t : Table) (k : Nat) : Nat :=
  let ex := t.group 0
  let ey := t.group 1
  chipOf (coordOf t.origin 0 + k % ex) (coordOf t.origin 1 + k / ex % ey) (coordOf t.origin 2 + k / (ex * ey))

/-- The chips of the shard group in shard order. -/
def Table.chips (t : Table) : List Nat := (List.range t.packages).map t.shardChip

/-- The home package of a row is this package, and its shard row here. -/
def State.homeRow (s : State) (t : Table) (r : Nat) : Option Nat :=
  if !t.sharded then some r
  else
    let p := t.place r
    if t.shardChip p.1 = s.chip then some p.2 else none

/-- The row number of a shard row held here: the row of its block whose shard is this package (R82). -/
def State.rowNumber (s : State) (t : Table) (b : Nat) : Nat :=
  if !t.sharded then b
  else
    let p := t.packages
    ((List.range p).find? (fun o => t.shardChip ((o + mix64 (b ^^^ t.placementSeed)) % p) = s.chip)).getD 0 + b * p

/-! ### The row map and the pools (R85 to R87) -/

/-- A row-map entry: tier and slot. -/
def mapEntry (v : Nat) : Nat × Nat := (bits v 31 30, bits v 29 0)
def entryOf (tier slot : Nat) : Nat := tier * 2 ^ 30 + slot

/-- Read a shard row's entry, as a read of the code word it lies in (R131); a fixed-code row is at its own number. -/
def State.readEntry (s : State) (acc : Access) (t : Table) (row : Nat) : Except Nat (Nat × Nat) × State :=
  if !t.tiered then (.ok (0, row), s)
  else
    let a := t.mapAt row
    match s.read acc (a / 32 * 32) 32 with
    | (.ok d, s) => (.ok (mapEntry (fieldLe d (a % 32) 4)), s)
    | (.bad e, s) => (.error e, s)

/-- Slots in use of a tier. -/
def Table.used (t : Table) (tier : Nat) : List Nat :=
  match tier with
  | 0 => t.hot
  | 1 => t.warm
  | _ => t.cold
def Table.setUsed (t : Table) (tier : Nat) (l : List Nat) : Table :=
  match tier with
  | 0 => { t with hot := l }
  | 1 => { t with warm := l }
  | _ => { t with cold := l }

/-- The first number from `n` on that an ascending list lacks. -/
def firstGap : Nat → List Nat → Nat
  | n, [] => n
  | n, m :: ms => if n = m then firstGap (n + 1) ms else if m < n then firstGap n ms else n

/-- The lowest free slot of a tier's pool (R86). -/
def Table.freeSlot (t : Table) (tier : Nat) : Option Nat :=
  let n := firstGap 0 (t.used tier)
  if n < t.capacity tier then some n else none

/-- Count in a table: `k` is the subindex of 0x2202, or 0x100 and the subindex of 0x2302. -/
def Table.count (t : Table) (k n : Nat) : Table := { t with counts := Map.set 0 t.counts k (Map.get 0 t.counts k + n) }

/-- Accesses of the apply phase and of the tier counters: class 2, in no account (R262). -/
def applyAccess : Access := ⟨.c2, none⟩

/-- A bus error that no command asked for, met by a row-merge unit's own work: a fault record (R161). -/
def State.applyBad (s : State) (u code : Nat) : State := s.report (s.newReport ⟨.rowMerge, u⟩ code 0 0xFF)

/-- Raise a slot's tier counter, saturating (R87). The manual does not say who keeps the counters: here the row-merge unit of the
counter's stack does, and a counter that cannot be read or written keeps its place with a fault record
(notes/assumptions/117.md). -/
def State.touchCounter (s : State) (t : Table) (tier slot : Nat) : State :=
  let a := t.counterAt tier slot
  match s.updateByte applyAccess a (fun b => BitVec.ofNat 8 (min 255 (b.toNat + 1))) with
  | (.ok _, s) => s
  | (.bad e, s) => s.applyBad (s.stackOf a) e

/-- The sketch cell of a shard row in sketch row `i` (R87); the manual gives no hash (notes/assumptions/10.md). -/
def sketchCell (row i : Nat) : Nat := i * 16384 + Config.sketchHash row i % 16384

/-- Count a cold row's access in the sketch; at the threshold the row enters the candidate list (R87). -/
def Table.sketchTouch (t : Table) (row : Nat) : Table :=
  let cells := (List.range 4).map (sketchCell row)
  let sketch := cells.foldl (fun m c => Map.set 0 m c (min 65535 (Map.get 0 m c + 1))) t.sketch
  let est := minOr 0 (cells.map (fun c => Map.get 0 sketch c))
  let t := { t with sketch := sketch }
  if t.warmPromote ≠ 0 && t.warmPromote ≤ est then { t with candidates := insertAsc row t.candidates } else t

/-- A lookup of a row in a tier is counted for the tier decisions. -/
def State.countAccess (s : State) (n tier slot row : Nat) : State :=
  let t := s.table n
  if !t.tiered then s
  else if tier ≤ 1 then s.touchCounter t tier slot
  else if tier = 2 then s.setTable n (t.sketchTouch row)
  else s

/-! ### Readiness (R75) -/

/-- The table is ready. -/
def State.tableReady (s : State) (n : Nat) : Bool := (s.table n).state = .ready

/-- Replicated rows over all tables (0x2200.02). -/
def State.replicatedRows (s : State) : Nat := (s.tables.map (fun (e : Nat × Table) => e.2.replicas.length)).foldl (· + ·) 0

/-- The replica set of a row here, and the tier code its copies are stored in, when its directory entry exists (R94). -/
def Table.replicaOf (t : Table) (r : Nat) : Option (Nat × Nat) := (Map.find t.replicas r).filter (fun x => x.2 < 4)

/-- The lowest free replica set of a table. -/
def Table.freeSet (t : Table) : Option Nat :=
  let used := (t.replicas.map (fun (x : Nat × Nat × Nat) => x.2.1)) ++ (t.releases.filter (fun r => r.tier = 4)).map (fun r => r.slot)
  let n := firstGap 0 (used.foldl (fun l x => insertAsc x l) [])
  if n < 256 * t.replica.length then some n else none

end Sys2Proof.Machine
end

