-- ==== Sys2Proof/Machine/Channel.lean ====
section
/-! DEFINITION. Collective channels as the operations on them see them: asking for one, holding it, freeing it, and comparing
operation numbers (R363, R364). -/
namespace Sys2Proof.Machine

/-- An operation holds its channel. -/
def State.holdsChannel (s : State) (ch : Nat) (kind : OpKind) (owner : Nat) : Bool :=
  (s.channel ch).running.any (fun o => o.kind = kind && o.owner = owner)

/-- Ask for a channel: an operation that neither holds it nor waits for it begins to wait (R363). -/
def State.askChannel (s : State) (ch : Nat) (kind : OpKind) (number owner : Nat) : State :=
  let v := s.channel ch
  if s.holdsChannel ch kind owner || v.waiting.any (fun o => o.kind = kind && o.owner = owner) then s
  else s.setChannel ch { v with waiting := v.waiting ++ [⟨kind, number % 65536, owner, s.now⟩] }

/-- An operation that holds a channel ends: the channel is free and its number is the last one run. Data that still waits for
credit at its source stays there (R125, R150). -/
def State.freeChannel (s : State) (ch : Nat) (kind : OpKind) (owner : Nat) : State :=
  let v := s.channel ch
  match v.running with
  | some o =>
    if o.kind = kind ∧ o.owner = owner then
      (s.setChannel ch { v with running := none, last := some o.number }).bump (channelKey ch 1) 1
    else s
  | none => s

/-- Stop waiting for a channel. -/
def State.leaveChannel (s : State) (ch : Nat) (kind : OpKind) (owner : Nat) : State :=
  let v := s.channel ch
  s.setChannel ch { v with waiting := v.waiting.filter (fun o => !(o.kind = kind && o.owner = owner)) }

/-- A number is not ahead of another, modulo 2¹⁶: one within 32,767 ahead of it is (R364). -/
def notAhead (number of_ : Nat) : Bool := (of_ + 65536 - number % 65536) % 65536 ≤ 32768

/-- An operation number has completed on a channel: it is not ahead of the one that runs, nor that one, or, while none runs, not ahead of
the last one run (R364). -/
def State.completedOn (s : State) (ch number : Nat) : Bool :=
  match (s.channel ch).running with
  | some o => o.number ≠ number % 65536 && notAhead number o.number
  | none => (s.channel ch).last.any (notAhead number)

/-- Count in a table's own counters. -/
def State.countTable (s : State) (n k a : Nat) : State := if a = 0 then s else s.setTable n ((s.table n).count k a)

end Sys2Proof.Machine
end

