-- ==== Sys2Proof/Machine/Directory.lean ====
section
/-! DEFINITION. Changes of a table's storage and directory: writing a row into a tier, moving it, replicas, the pin and replicate
commands that wait, and the exchange of two tables (R86, R89, R92 to R95, R101 to R103). -/
namespace Sys2Proof.Machine

/-! ### Rows in memory -/

/-- Read a row of a tier and slot, as stored: the whole slot. -/
def State.readSlot (s : State) (acc : Access) (t : Table) (tier slot : Nat) : MemResult × State :=
  s.readCut acc (t.slotPieces tier slot)

/-- The bytes of the default row (R84): zeros from creation until it is loaded. -/
def Table.defaultBytes (t : Table) : Bytes := padTo (t.slot 0) t.defaultRow

/-- The FP32 elements of the default row. -/
def Table.defaultValues (t : Table) : List Nat := rowValues t.dim t.defaultCode t.defaultBytes

/-- The writes of a row's 32 copies, each whole (R92, R95): the first error, if any, and the state. -/
def State.writeCopies (s : State) (acc : Access) (t : Table) (set : Nat) (data : Bytes) : Option Nat × State :=
  (List.range 32).foldl
    (fun (r : Option Nat × State) c =>
      match r.1 with
      | some _ => r
      | none =>
        match r.2.write acc (r.2.copyAt t set c) data with
        | (.ok _, s) => (none, s)
        | (.bad e, s) => (some e, s))
    (none, s)

/-- A table's rows are refreshed on other packages (R159): scope shard group over more than one package. -/
def Table.refreshes (t : Table) : Bool := t.scope = 2 && t.sharded && 1 < t.packages

/-- Note a replicated row loaded in an epoch, whose copies are to be refreshed in the next apply phase (R95,
notes/assumptions/29.md). -/
def Table.markDirty (t : Table) (r epoch : Nat) : Table :=
  if t.dirty.any (fun d => d.1 = r) then t else { t with dirty := Map.put t.dirty r (some epoch) }

/-- How the writing of a row into a tier ended. -/
inductive RowPut where
  | done (s : State)
  /-- The pool of the tier has no free slot: nothing changed. -/
  | noSlot (s : State)
  /-- A bus error; no entry names a slot that was not written whole. -/
  | bad (code : Nat) (s : State)
  deriving DecidableEq, Repr

/-- Give a shard row a new slot of a tier: the row first, then its entry (R89, R145). The caller frees the old slot. -/
def State.placeRow (s : State) (acc : Access) (n b tier : Nat) (data : Bytes) : RowPut :=
  let t := s.table n
  match t.freeSlot tier with
  | none => .noSlot s
  | some k =>
    match s.writeCut acc (t.slotPieces tier k) data with
    | (.bad e, s) => .bad e s
    | (.ok _, s) =>
      match s.writeCut acc (t.mapPieces b) (natLe 4 (entryOf tier k)) with
      | (.bad e, s) => .bad e s
      | (.ok _, s) => .done (s.setTable n (t.setUsed tier (insertAsc k (t.used tier))))

/-- Return a slot to its free list at once. -/
def Table.freeNow (t : Table) (tier slot : Nat) : Table :=
  if tier ≤ 2 then t.setUsed tier ((t.used tier).filter (· ≠ slot)) else t

/-- A load's write of a row (R86, R95, R101): in place, or into the named tier, whose old slot is free at once
(notes/assumptions/25.md). A fixed-code row's local copies are written too. -/
def State.putRow (s : State) (acc : Access) (n r b tier : Nat) (data : Bytes) : RowPut :=
  let t := s.table n
  if !t.tiered then
    match s.writeCut acc (t.slotPieces 0 b) data with
    | (.bad e, s) => .bad e s
    | (.ok _, s) =>
      match t.replicaOf r with
      | none => .done s
      | some (set, _) =>
        match s.writeCopies acc t set data with
        | (some e, s) => .bad e s
        | (none, s) => .done (if t.refreshes then s.setTable n (t.markDirty r s.epoch) else s)
  else
    match s.readEntry acc t b with
    | (.error e, s) => .bad e s
    | (.ok (cur, old), s) =>
      let mark (s : State) : State := if (t.replicaOf r).isSome then s.setTable n ((s.table n).markDirty r s.epoch) else s
      if cur = tier then
        match s.writeCut acc (t.slotPieces tier old) data with
        | (.bad e, s) => .bad e s
        | (.ok _, s) => .done (mark s)
      else
        match s.placeRow acc n b tier data with
        | .done s => .done (mark (s.setTable n ((s.table n).freeNow cur old)))
        | p => p

/-! ### The apply phase's own work (R140, R157 to R161) -/

/-- The unit that owns a shard row (R140): that of the cluster whose stack holds its row-map entry, or the first granule of
its slot. -/
def State.owner (s : State) (t : Table) (b : Nat) : Nat :=
  match (if t.tiered then t.mapPieces b else t.slotPieces 0 b) with
  | (a, _) :: _ => s.stackOf a
  | [] => 0

/-- Return a slot to its free list at the boundary after next (R89), or at once while no epochs run. -/
def State.releaseSlot (s : State) (n tier slot : Nat) : State :=
  let t := s.table n
  if s.epochsRunning then s.setTable n { t with releases := t.releases ++ [⟨tier, slot, s.epoch + 1⟩] }
  else if tier = 4 then s
  else s.setTable n (t.freeNow tier slot)

/-- Refresh a replicated row's copies from its home slot (R94, R159): the local ones, and the slot sent to every other member.
`row` is the row number, `b` its shard row here. -/
def State.sendRefresh (s : State) (n row tier : Nat) (data : Bytes) : State :=
  let t := s.table n
  let channel := match s.update.parts.find? (fun p => p.table = n) with
    | some p => p.channel
    | none => t.channel
  if !t.refreshes || !s.epochsRunning then s
  else
    (t.chips.filter (· ≠ s.chip)).foldl (fun s c =>
      s.offer ⟨channel, c, s.epoch % 65536, 2, [], natLe 2 n ++ natLe 1 0 ++ natLe 1 tier ++ natLe 8 row ++ natLe 2 data.length ++ data,
        64, false, s.now⟩) s

def State.refreshRow (s : State) (u n row b : Nat) : State :=
  let t := s.table n
  match Map.find t.replicas row with
  | none => s
  | some (set, _) =>
    match s.readEntry applyAccess t b with
    | (.error e, s) => s.applyBad u e
    | (.ok (tier, slot), s) =>
      if tier = 3 then s
      else
        match s.readSlot applyAccess t tier slot with
        | (.bad e, s) => s.applyBad u e
        | (.ok data, s) =>
          match s.writeCopies applyAccess t set data with
          | (some e, s) => s.applyBad u e
          | (none, s) =>
            (s.setTable n { s.table n with replicas := Map.put (s.table n).replicas row (some (set, tier)) }).sendRefresh n row tier data

/-- Write a shard row into a slot that is its already, and point its entry there (R89, R145): the first error, if any. -/
def State.writeMoved (s : State) (acc : Access) (n b tier slot : Nat) (data : Bytes) : Option Nat × State :=
  let t := s.table n
  match s.writeCut acc (t.slotPieces tier slot) data with
  | (.bad e, s) => (some e, s)
  | (.ok _, s) =>
    match s.writeCut acc (t.mapPieces b) (natLe 4 (entryOf tier slot)) with
    | (.bad e, s) => (some e, s)
    | (.ok _, s) => (none, s)

/-- A slot taken for a move is given back. -/
def State.giveBack (s : State) (n tier slot : Nat) : State := s.setTable n ((s.table n).freeNow tier slot)

/-- Move a shard row to a tier (R89), into a slot that is taken already, its stored value converted. A value that cannot be
converted leaves the row where it is and is counted as a conversion failure (notes/assumptions/30.md). -/
def State.moveRowTo (s : State) (u n b tier slot : Nat) : State :=
  let t := s.table n
  match s.readEntry applyAccess t b with
  | (.error e, s) => (s.giveBack n tier slot).applyBad u e
  | (.ok (cur, old), s) =>
    if cur = 3 ∨ cur = tier then s.giveBack n tier slot
    else
      match s.readSlot applyAccess t cur old with
      | (.bad e, s) => (s.giveBack n tier slot).applyBad u e
      | (.ok data, s) =>
        match encodeRow (t.code tier) (rowValues t.dim (t.code cur) data) with
        | none => (s.giveBack n tier slot).setTable n (((s.giveBack n tier slot).table n).count 0x10B 1)
        | some row =>
          match s.writeMoved applyAccess n b tier slot row with
          | (some e, s) => (s.giveBack n tier slot).applyBad u e
          | (none, s) =>
            let s := s.setTable n ((s.table n).count (if tier < cur then 0x0C else 0x0D) 1)
            let s := s.releaseSlot n cur old
            let r := s.rowNumber t b
            if (t.replicaOf r).isSome then s.refreshRow u n r b else s

/-- Take the lowest free slot of a tier. -/
def State.takeSlot (s : State) (n tier : Nat) : Option (Nat × State) :=
  let t := s.table n
  (t.freeSlot tier).map (fun k => (k, s.setTable n (t.setUsed tier (insertAsc k (t.used tier)))))

/-- Move a shard row to a tier with the lowest free slot; without one the move is deferred and counted. -/
def State.moveRow (s : State) (u n b tier : Nat) : State :=
  match s.takeSlot n tier with
  | some (k, s) => s.moveRowTo u n b tier k
  | none => s.setTable n ((s.table n).count 0x0E 1)

/-! ### Pin and replicate changes (R94, R103) -/

/-- The status record of R99. -/
def statusRecord (status count : Nat) (now : Ns) : Bytes := natLe 2 status ++ natLe 2 0 ++ natLe 4 count ++ natLe 8 now

/-- Write a status record that is owed. A bus error is that of the command that owes it. -/
def State.payOwed (s : State) (o : Owed) (status count : Nat) : State :=
  match s.write ⟨.c1, some o.job⟩ o.address (statusRecord status count s.now) with
  | (.ok _, s) => s
  | (.bad e, s) => s.execFault { s.newReport ⟨.lookup, o.engine⟩ e 4 o.job with
      opcode := some o.op, physical := o.address }

/-- Pay a record if one is owed. -/
def State.pay (s : State) (o : Option Owed) (status count : Nat) : State :=
  match o with
  | some o => s.payOwed o status count
  | none => s

/-- A pin list after one row of a pin command: a tier code, or 3 to unpin. A row beyond 65,536 is not taken (R103). -/
def pinRow (pins : List (Nat × Nat)) (action b : Nat) : List (Nat × Nat) :=
  if action = 3 then pins.filter (fun p => p.1 ≠ b)
  else if pins.any (fun p => p.1 = b) || pins.length < 65536 then Map.put pins b (some action)
  else pins

/-- Take one row of a pin command: the pin list, and, while no epochs run, the pinned move. -/
def State.takePin (s : State) (n : Nat) (c : Change) (b : Nat) : Change × State :=
  let t := s.table n
  let pins := pinRow t.pins c.action b
  let s := s.setTable n { t with pins := pins }
  if c.action = 3 then ({ c with taken := c.taken + 1 }, s)
  else if !pins.any (fun p => p.1 = b) then ({ c with full := true }, s)
  else ({ c with taken := c.taken + 1 }, if s.epochsRunning then s else s.moveRow (s.owner t b) n b c.action)

/-- Add one row to the hot-row directory: none when no replica set is left. A row homed here is copied now; one homed
elsewhere keeps its set until its home's slot arrives (code 4: no directory entry yet). An unallocated row has no storage to
copy and is skipped. -/
def State.addReplica (s : State) (n r : Nat) : Option (State × Bool) :=
  let t := s.table n
  if (Map.find t.replicas r).isSome then some (s, true)
  else
    match (if s.replicatedRows < 65536 then t.freeSet else none) with
    | none => none
    | some set =>
      match s.homeRow t r with
      | none => some (s.setTable n { t with replicas := Map.put t.replicas r (some (set, 4)) }, true)
      | some b =>
        let s' := s.setTable n { t with replicas := Map.put t.replicas r (some (set, 4)) }
        let s' := s'.refreshRow (s.owner t b) n r b
        if (Map.find (s'.table n).replicas r).any (fun x => x.2 < 4) then some (s', true) else some (s, false)

/-- Take one row of a replicate command: 0 adds it, 1 removes it. -/
def State.takeReplicate (s : State) (n : Nat) (c : Change) (r : Nat) : Change × State :=
  if c.action = 1 then
    ({ c with taken := c.taken + 1 },
      match Map.find (s.table n).replicas r with
      | some (set, _) => (s.setTable n { s.table n with replicas := Map.put (s.table n).replicas r none }).releaseSlot n 4 set
      | none => s)
  else if c.full then (c, s)
  else
    match s.addReplica n r with
    | none => ({ c with full := true }, s)
    | some (s, true) => ({ c with taken := c.taken + 1 }, s)
    | some (s, false) => ({ c with skipped := c.skipped + 1 }, s)

/-- The unit that a row of a change falls to: the owner of its shard row, or of its row number (R140, R157). -/
def State.changeUnit (s : State) (t : Table) (c : Change) (x : Nat) : Nat :=
  s.owner t (if c.pin then x else (t.place x).2)

/-- The status record of a change that is done: pin list full (0x000A), replica sets exhausted (6), rows skipped (9), or done. -/
def State.payChange (s : State) (c : Change) : State :=
  if c.full then s.pay c.owed (if c.pin then 0x0A else 6) c.taken
  else if c.skipped = 0 then s.pay c.owed 0 c.taken
  else s.pay c.owed 9 c.skipped

/-- Carry out a change as far as it falls to a unit, or all of it; once no row is left its record is paid, else it waits for the
units that its other rows fall to. -/
def State.applyChange (s : State) (n : Nat) (u : Option Nat) (c : Change) : State :=
  let t := s.table n
  let mine (x : Nat) : Bool := u.all (fun k => s.changeUnit t c x = k)
  let r := (c.rows.filter mine).foldl
    (fun (y : Change × State) x => if c.pin then y.2.takePin n y.1 x else y.2.takeReplicate n y.1 x)
    ({ c with rows := c.rows.filter (fun x => !mine x) }, s)
  if r.1.rows = [] then r.2.payChange r.1
  else r.2.setTable n { r.2.table n with changes := (r.2.table n).changes ++ [r.1] }

/-- Carry out the changes that wait on a table, in the order in which the commands executed: for a unit, those of commands executed
before the boundary of the apply phase, as far as they fall to it (R94, R103, R157); with no unit named, every one. -/
def State.applyChanges (s : State) (n : Nat) (u : Option Nat) : State :=
  let t := s.table n
  let due (c : Change) : Bool := u.isNone || c.epoch < s.update.applyEpoch
  let s := s.setTable n { t with changes := [] }
  t.changes.foldl (fun s c =>
    if due c then s.applyChange n u c
    else s.setTable n { s.table n with changes := (s.table n).changes ++ [c] }) s

/-- Refresh the copies of the rows of a unit that loads before the boundary have changed (R95). -/
def State.refreshDirty (s : State) (n u : Nat) : State :=
  let t := s.table n
  let due (d : Nat × Nat) : Bool := d.2 < s.update.applyEpoch && s.owner t (t.place d.1).2 = u
  let s := s.setTable n { t with dirty := t.dirty.filter (fun d => !due d) }
  (t.dirty.filter due).foldl (fun s d =>
    match s.homeRow t d.1 with
    | some b => s.refreshRow u n d.1 b
    | none => s) s

/-! ### Exchange of storage (R102) -/

/-- Descriptor fields that two tables must agree in: all but the extents and the replica region; reserved fields are not
compared (R5). -/
def Table.shape (t : Table) : List Nat :=
  [t.class_, bits (fieldLe t.desc 1 1) 4 0, t.optimiser, t.extentCount, t.dim, t.rows, t.hashSeed, t.placementSeed,
   t.capacity 0, t.capacity 1, t.capacity 2, fieldLe t.desc 44 4, fieldLe t.desc 48 2, t.origin, bits (fieldLe t.desc 52 2) 11 0]

/-- A table number on another's storage: descriptor memory fields, pages, default row, metadata and replicas. -/
def Table.onStorage (t u : Table) : Table :=
  { t with
    desc := t.desc.take 56 ++ u.desc.drop 56, extents := u.extents, replica := u.replica, defaultRow := u.defaultRow,
    hot := u.hot, warm := u.warm, cold := u.cold, pins := u.pins, replicas := u.replicas, dirty := u.dirty,
    candidates := u.candidates, sketch := u.sketch, moves := u.moves, releases := u.releases }

/-- Exchange the storage of two table numbers; lookups in flight stay on the storage they were stamped on. -/
def State.exchange (s : State) (a b : Nat) : State :=
  let ta := s.table a
  let tb := s.table b
  let s : State := { s with
    lookups := s.lookups.map (fun r =>
      if r.table = a then { r with table := b } else if r.table = b then { r with table := a } else r) }
  if a = b then s else (s.setTable a (ta.onStorage tb)).setTable b (tb.onStorage ta)

/-- A table has no lookup in flight. -/
def State.drained (s : State) (n : Nat) : Bool := s.lookups.all (fun r => r.table ≠ n && r.number ≠ n)

/-- Carry out the swaps that are due, in the order of their commands. A swap of a table that is no longer ready does not
happen. -/
def State.swapDue (s : State) (due : Swap → Bool) : State :=
  let todo := s.update.swaps.filter due
  let s : State := { s with update := { s.update with swaps := s.update.swaps.filter (fun x => !due x) } }
  todo.foldl (fun s x => if s.tableReady x.a && s.tableReady x.b then (s.exchange x.a x.b).pay x.owed 0 0 else s) s

/-- The epoch number of the first boundary that is committed after now: the next one, or the one after when the next is
committed already. -/
def State.nextUncommitted (s : State) : Nat := if s.num nextBoundaryKey = 0 then s.epoch + 1 else s.epoch + 2

/-- The command of a swap has completed: the exchange takes effect at the first boundary committed after this (R102). -/
def State.swapCompletes (s : State) (id : Nat) : State :=
  { s with update := { s.update with
      swaps := mapIf (fun x => x.cmd = id && x.epoch.isNone) (fun x => { x with epoch := some s.nextUncommitted }) s.update.swaps } }

/-- While epochs are not running, swaps and pin and replicate changes take effect once the lookups of their tables have
drained (R102, R103). -/
def State.settle (s : State) : State :=
  if s.epochsRunning then s
  else
    let free (n : Nat) : Bool := s.drained n
    let s := s.swapDue (fun x => x.epoch.isSome && free x.a && free x.b)
    (s.tables.filter (fun (e : Nat × Table) => e.2.changes ≠ [] && e.2.state = .ready && free e.1)).foldl
      (fun s e => s.applyChanges e.1 none) s

/-- COMMAND_COMPLETE (R322): a command every effect of which has been performed completes, which may make others ready; a swap
or change that waited for the lookups of its table takes effect. -/
def execCommandComplete (dt id : Nat) (s : State) : Host.Outcome State Fault Refusal :=
  let s := s.tick dt
  match s.cmd? id with
  | some c => if c.phase = .finished then .next ((s.complete c).swapCompletes c.id).settle else .next s
  | none => .next s

end Sys2Proof.Machine
end

