-- ==== Sys2Proof/Machine/Merge.lean ====
section
/-! DEFINITION. Merge entries of the row-merge units and their spilling (R141, R143, R144). -/
namespace Sys2Proof.Machine

/-! ### Merge entries (R141, R143, R144) -/

/-- Bytes of an entry of a table (R143). -/
def Table.entryBytes (t : Table) : Nat := 32 * ceilDiv (16 + 4 * t.dim) 32

def State.entriesOf (s : State) (u : Nat) : List MergeEntry := Map.get [] s.update.entries u
def State.setEntries (s : State) (u : Nat) (l : List MergeEntry) : State :=
  { s with update := { s.update with entries := Map.set [] s.update.entries u l } }

/-- Bytes that a unit's entries take in its merge area. -/
def State.areaUsed (s : State) (u : Nat) : Nat :=
  ((s.entriesOf u).filter (fun e => e.place.isNone)).foldl (fun n e => n + (s.table e.table).entryBytes) 0

/-- The spill pages of a table that belong to a unit, in page order. -/
def Table.spillPages (t : Table) (u : Nat) : List Nat :=
  (t.spill.zipIdx.filter (fun x => x.2 % 32 = u)).map (fun x => x.1)

/-- The first free place of a table's spill pages on a unit, as a local offset. -/
def State.spillFree (s : State) (n u : Nat) : Option Nat :=
  let t := s.table n
  let e := t.entryBytes
  let used := (s.entriesOf u).filterMap (fun m => m.place)
  ((t.spillPages u).flatMap (fun p => (List.range (0x200000 / e)).map (fun i => p * 0x200000 + i * e))).find?
    (fun a => !used.contains a)

/-- The kind code of R143. -/
def EntryKind.code : EntryKind → Nat
  | .home => 0 | .outbound => 1 | .carried => 2

/-- An entry's bytes (R143). -/
def MergeEntry.image (e : MergeEntry) (size : Nat) : Bytes :=
  padTo size (natLe 2 (e.table + 1024 * e.kind.code + (if e.kind = .home then 4096 * (e.epoch % 2) else 0)) ++
    natLe 2 (if e.kind = .carried then 0 else e.chip) ++ natLe 4 0 ++ natLe 8 e.row ++ e.sum.flatMap (natLe 4))

/-- The same entry by table, kind, epoch, chip and row. -/
def MergeEntry.same (a b : MergeEntry) : Bool :=
  a.table = b.table && a.kind = b.kind && a.epoch = b.epoch && a.chip = b.chip && a.row = b.row

/-- Remove an entry. -/
def State.dropEntry (s : State) (u : Nat) (e : MergeEntry) : State :=
  s.setEntries u ((s.entriesOf u).filter (fun x => !x.same e))

/-- A spilled entry that fails is discarded with all it held: merge overflow and record 0x100B (R144). -/
def State.loseEntry (s : State) (u : Nat) (e : MergeEntry) : State :=
  ((s.dropEntry u e).countTable e.table 0x106 1).report
    { s.newReport ⟨.rowMerge, u⟩ 0x100B 0 0xFF with physical := e.place.getD 0 }

/-- Read a spilled entry: false when it was lost. An entry of the merge area needs no read. -/
def State.readEntryAt (s : State) (u : Nat) (e : MergeEntry) : Bool × State :=
  match e.place with
  | none => (true, s)
  | some a =>
    match s.read applyAccess a (s.table e.table).entryBytes with
    | (.ok _, s) => (true, s)
    | (.bad _, s) => (false, s.loseEntry u e)

/-- Write a spilled entry: false when it was lost. -/
def State.writeEntryAt (s : State) (u : Nat) (e : MergeEntry) : Bool × State :=
  match e.place with
  | none => (true, s)
  | some a =>
    let n := (s.table e.table).entryBytes
    match s.write applyAccess a (e.image n) with
    | (.ok _, s) => (true, s.bump (unitKey u 5) n)
    | (.bad _, s) => (false, s.loseEntry u e)

/-- Move the least recently folded entries whose tables have room in their spill pages there, until `need` bytes fit. -/
def State.makeRoom (u need : Nat) : Nat → State → State
  | 0, s => s
  | fuel + 1, s =>
    if s.areaUsed u + need ≤ s.mergeSize then s
    else
      match (s.entriesOf u).find? (fun e => e.place.isNone && (s.spillFree e.table u).isSome) with
      | none => s
      | some e =>
        let e' : MergeEntry := { e with place := s.spillFree e.table u }
        let s := s.setEntries u (mapIf (fun x => x.same e) (fun _ => e') (s.entriesOf u))
        State.makeRoom u need fuel (s.writeEntryAt u e').2

/-- Space has freed: the spilled entry most recently folded moves back first. -/
def State.moveBack (u : Nat) : Nat → State → State
  | 0, s => s
  | fuel + 1, s =>
    match ((s.entriesOf u).filter (fun e => e.place.isSome)).getLast? with
    | none => s
    | some e =>
      if s.mergeSize < s.areaUsed u + (s.table e.table).entryBytes then s
      else
        match s.readEntryAt u e with
        | (false, s) => State.moveBack u fuel s
        | (true, s) =>
          State.moveBack u fuel (s.setEntries u (mapIf (fun x => x.same e) (fun x => { x with place := none }) (s.entriesOf u)))

def State.settleArea (s : State) (u : Nat) : State := State.moveBack u (s.entriesOf u).length s

end Sys2Proof.Machine
end

