-- ==== Sys2Proof/Machine/TableAdmin.lean ====
section
/-! DEFINITION. Table and epoch administration commands, and the table snapshot (R96 to R105). -/
namespace Sys2Proof.Machine

/-- The started command of an opcode on a unit that comes first and still has its step to do. On a lookup engine, which holds
several, one held on a translation fault keeps no other from its step. -/
def State.engineCmd? (s : State) (u : UnitId) (op : Nat) : Option Cmd :=
  s.cmds.find? (fun c => c.unit = some u && c.opcode = op && c.phase = .running && (c.held.isNone || u.kind ≠ .lookup))

/-! ### Status records (R99) -/

/-- The range of a command's status record, for translation. -/
def statusRange (a : Nat) : List (Nat × Nat × Bool) := if a = 0 then [] else [(a, 16, true)]

/-- A translated range may be used by an engine that reaches local storage alone: its target is here and meets no merge
area (R143, notes/assumptions/21.md). -/
def State.localRange (s : State) (c : Cmd) (va n : Nat) : Bool := c.allHere va n (fun a k => !reservedOffset a && !s.meetsMerge a k)

/-- The status address leads where it may. -/
def State.statusOk (s : State) (c : Cmd) : Bool := c.u64 56 = 0 || s.localRange c (c.u64 56) 16

/-- Write a command's status record and finish it. The address has been translated. -/
def State.adminEnd (s : State) (c : Cmd) (status count : Nat) : State :=
  if c.u64 56 = 0 then s.setCmd { c with phase := .finished }
  else
    match s.writeVa ⟨.c1, some c.job⟩ c (c.u64 56) (statusRecord status count s.now) with
    | (.ok _, s) => s.setCmd { c with phase := .finished }
    | (.bad e, s) => s.cmdFault c e

/-- The record a command owes for a deferred effect, at its translated address. -/
def Cmd.owes (c : Cmd) : Option Owed :=
  if c.u64 56 = 0 then none
  else match c.target (c.u64 56) with
    | some (.here a) => some ⟨c.opcode, 0, 0, c.job, (c.unit.map (fun u => u.num)).getD 0, a⟩
    | _ => none

/-! ### Create (R96, R97, R100) -/

/-- Table number of a command. -/
def Cmd.tableNo (c : Cmd) : Nat := bits (c.u16 16) 9 0

/-- A field of the descriptor holds a reserved code, or a base has low bits set (R96, R99). -/
def Table.reservedField (t : Table) : Bool :=
  t.class_ = 0 || 3 < t.class_ || t.scope = 3 || 3 < t.optimiser || bits (fieldLe t.desc 56 8) 20 0 ≠ 0 ||
  (List.range (min t.extentCount 8)).any (fun j => bits (fieldLe t.desc (64 + 8 * j) 8) 20 0 ≠ 0)

/-- The device virtual address of page i of an extent (j < 8) or of the replica region (j = 8). -/
def Table.regionVa (t : Table) (j i : Nat) : Nat :=
  bits (fieldLe t.desc (if j = 8 then 56 else 64 + 8 * j) 8) 47 21 * 0x200000 + i * 0x200000

/-- The shard group lies within the torus found: every chip of it is a package present (R96, R353). -/
def State.groupInTorus (s : State) (t : Table) : Bool :=
  [0, 1, 2].all (fun a => coordOf t.origin a + t.group a ≤ s.extent a) &&
  (List.range (t.group 0 * t.group 1 * t.group 2)).all (fun i =>
    s.fabric.present.contains (t.origin + i % t.group 0 + 16 * (i / t.group 0 % t.group 1) + 256 * (i / t.group 0 / t.group 1)))

/-- This package lies within the shard group. -/
def State.inGroup (s : State) (t : Table) : Bool :=
  [0, 1, 2].all (fun a => coordOf t.origin a ≤ coordOf s.chip a && coordOf s.chip a < coordOf t.origin a + t.group a)

/-- Every field within its range and none contradicting another (R92, R93, R96). -/
def State.fieldsOk (s : State) (t : Table) : Bool :=
  (1 ≤ t.dim && t.dim ≤ 1024) && (1 ≤ t.rows && t.rows ≤ 2 ^ 40) && (1 ≤ t.extentCount && t.extentCount ≤ 8) &&
  (t.capacity 0 ≤ 2 ^ 30 && t.capacity 1 ≤ 2 ^ 30 && t.capacity 2 ≤ 2 ^ 30) &&
  (if t.tiered then t.shardRows ≤ t.capacity 0 + t.capacity 1 + t.capacity 2
   else t.capacity 0 = 0 && t.capacity 1 = 0 && t.capacity 2 = 0 && !t.epochConsistent && t.optimiser = 0) &&
  (if t.sharded then s.groupInTorus t else t.origin = 0 && bits (fieldLe t.desc 52 2) 11 0 = 0) &&
  (if t.scope = 0 then t.replicaPages = 0 else t.largestSlot ≤ 256) &&
  (List.range t.extentCount).all (fun j => t.extentPages j = t.extentPages 0)

/-- A page of local memory lies in a package-spread region (R253). -/
def State.inSpread (s : State) (page : Nat) : Bool :=
  0x1800000000 - s.spread * 0x40000000 ≤ page * 0x200000 % 0x1800000000

/-- What resolving a list of pages comes to (R97). -/
inductive Resolution where
  | pages (l : List Nat)
  | notMapped
  | fault (detail va : Nat)
  deriving DecidableEq, Repr

/-- Resolve one page through a job's page table, by a walk of its own: a page of stacked memory here that is not retired. An address
beyond 48 bits is an unresolvable fault (R273). -/
def State.resolvePage (s : State) (j va : Nat) : Resolution × State :=
  if 0x1000000000000 ≤ va then (.fault 4 va, s)
  else
    match (s.bump (objKey (0x6600 + j) 2) 1).walk .c2 j va with
    | (.leaf size (.here a) _, s) =>
      let o := a + va % 2 ^ size
      if isStacked o && isStacked (o + 0x1FFFFF) && !s.mem.retired.contains (o / 0x200000) then (.pages [o / 0x200000], s)
      else (.notMapped, s)
    | (.leaf _ _ _, s) => (.notMapped, s)
    | (.invalid _, s) => (.notMapped, s)
    | (.fault d, s) => (.fault d va, s)

/-- Resolve pages in order, up to the first that fails. -/
def State.resolvePages (s : State) (j : Nat) : List Nat → Resolution × State
  | [] => (.pages [], s)
  | va :: rest =>
    match s.resolvePage j va with
    | (.pages l, s) =>
      match s.resolvePages j rest with
      | (.pages m, s) => (.pages (l ++ m), s)
      | r => r
    | r => r

/-- Pages that tables hold: extents, replica regions and spill regions. -/
def State.tablePages (s : State) : List Nat :=
  (s.tables.filter (fun (e : Nat × Table) => e.2.state ≠ TableState.absent)).flatMap
    (fun e => e.2.extents.flatten ++ e.2.replica ++ e.2.spill)

/-- A list holds no number twice. -/
def distinct : List Nat → Bool
  | [] => true
  | a :: l => !l.contains a && distinct l

/-- An unresolvable translation fault of a command's own address (R281). -/
def State.pageFault (s : State) (c : Cmd) (detail va : Nat) : State := s.xlatFault (s.cmdReport c 0x2002 4) c.job va detail

/-- The create with its descriptor read: statuses in the order 1, 2, 5, 3, 4, then the table enters the initialising state
(R99, R100). -/
def State.createTable (s : State) (c : Cmd) (desc : Bytes) : State :=
  let t : Table := { Table.init with desc := desc }
  if t.reservedField then s.illegal c
  else if (s.table c.tableNo).state ≠ .absent then s.adminEnd c 1 0
  else if !s.fieldsOk t then s.adminEnd c 2 0
  else if t.sharded && !s.inGroup t then s.adminEnd c 5 0
  else if t.extentPages 0 < t.neededPages || (t.scope ≠ 0 && t.replicaPages = 0) then s.adminEnd c 3 0
  else
    let each := (List.range t.extentCount).flatMap (fun j => (List.range (t.extentPages 0)).map (t.regionVa j))
    match s.resolvePages c.job (each ++ (List.range t.replicaPages).map (t.regionVa 8)) with
    | (.fault d va, s) => s.pageFault c d va
    | (.notMapped, s) => s.adminEnd c 4 0
    | (.pages l, s) =>
      let k := t.extentPages 0
      let extents := (List.range t.extentCount).map (fun j => (l.drop (j * k)).take k)
      let replica := l.drop (t.extentCount * k)
      if !distinct l || l.any (fun p => s.tablePages.contains p) then s.adminEnd c 4 0
      else if replica.any (fun p => !s.inSpread p) then s.adminEnd c 2 0
      else
        (s.setTable c.tableNo { t with
          state := .initialising, extents := extents, replica := replica, owed := c.owes.toList, since := s.now }).setCmd
            { c with phase := .finished }

/-- TABLE_CREATE (R100): the started create of a lookup engine. A descriptor or status address that leads elsewhere than to
local storage is an illegal operation; with no such command, or while its pages are translated, only time passes. -/
def execTableCreate (dt g : Nat) (s : State) : Host.Outcome State Fault Refusal :=
  let s := s.tick dt
  match s.engineCmd? ⟨.lookup, g⟩ 0xC0 with
  | none => .next s
  | some c =>
    if c.u64 24 % 64 ≠ 0 ∨ c.u64 56 % 16 ≠ 0 then .next (s.illegal c)
    else
      match s.needRanges c ⟨.lookup, g⟩ ((c.u64 24, 128, false) :: statusRange (c.u64 56)) with
      | .wait s => .next s
      | .fault s => .next s
      | .ready s c =>
        if !s.statusOk c || !s.localRange c (c.u64 24) 128 then .next (s.illegal c)
        else
          match s.readVa ⟨.c0, some c.job⟩ c (c.u64 24) 128 with
          | (.ok d, s) => .next (s.createTable c d)
          | (.bad e, s) => .next (s.cmdFault c e)

/-- Write zeros over one page as initialisation does; a retired page is a bus error that no command asked for (R100). -/
def State.wipePage (s : State) (p : Nat) : State :=
  if s.mem.retired.contains p then
    s.report { s.newReport ⟨.memory, s.stackOf (p * 0x200000)⟩ 0x1003 0 0xF0 with physical := p * 0x200000 }
  else
    let inside (a : Nat) : Bool := a / 0x200000 = p
    ({ s with mem := { s.mem with
        cells := Map.keep s.mem.cells (fun a => !inside a)
        bad := s.mem.bad.filter (fun a => !inside a) } } : State).countBytes ⟨.c2, some 64⟩ true (p * 0x200000) 0x200000

/-- The unallocated value of a shard row's row-map entry, as part of the one write of its page, which `wipePage` counts; its other
bytes are zero already. -/
def State.unallocate (s : State) (t : Table) (b : Nat) : State :=
  let a := t.mapAt b + 3
  if s.mem.retired.contains (a / 0x200000) then s
  else { s with mem := { s.mem with cells := Map.set 0 s.mem.cells a 0xC0 } }

/-- The pages of every part of a table, in the order of its extents. -/
def Table.initPages (t : Table) : List Nat := t.extents.flatMap (fun e => e.take t.neededPages)

/-- Write the initial contents of some of a table's pages (R100). -/
def State.initialise (s : State) (t : Table) (pages : List Nat) : State :=
  let s := pages.foldl State.wipePage s
  if t.tiered then
    ((List.range t.shardRows).filter (fun b => pages.contains (t.mapAt b / 0x200000))).foldl (fun s b => s.unallocate t b) s
  else s

/-- The time of a table's initialisation so far goes to the firmware account as lookup-engine time (R100). -/
def State.chargeInit (s : State) (t : Table) : State := s.acct 64 4 (s.now - t.since)

/-- TABLE_INIT_COMPLETE (R100): initialisation of a table ends. Every part is written, its time and bytes go to the firmware
account, the table is ready and its record is written. A table that is not initialising: only time passes. -/
def execTableInitComplete (dt n : Nat) (s : State) : Host.Outcome State Fault Refusal :=
  let s := s.tick dt
  let t := s.table n
  if t.state ≠ .initialising then .next s
  else
    let s := ((s.initialise t t.initPages).chargeInit t).setTable n { t with state := .ready, owed := [] }
    .next (t.owed.foldl (fun s o => s.payOwed o 0 0) s)

/-! ### Destroy (R100) -/

/-- Discard a table's gradients that are not yet applied, and those under way to their units; spilled entries of other tables
move into the space freed (R144). -/
def State.discardGradients (s : State) (n : Nat) : State :=
  let units := (s.update.entries.filter (fun (e : Nat × List MergeEntry) => e.2.any (fun m => m.table = n))).map (·.1)
  let s : State := { s with update := { s.update with
      entries := (s.update.entries.map (fun (e : Nat × List MergeEntry) => (e.1, e.2.filter (fun m => m.table ≠ n)))).filter
        (fun (e : Nat × List MergeEntry) => e.2 ≠ [])
      deliveries := s.update.deliveries.filter (fun d => d.table ≠ n) } }
  units.foldl State.settleArea s

/-- A destroy stops an initialisation wherever it stands (R100): how many of the table's pages have been written is a free value
(notes/assumptions/118.md). -/
def State.stopInit (s : State) (t : Table) : State :=
  if t.state ≠ .initialising then s
  else
    let (k, s) := s.drawNat
    (s.initialise t (t.initPages.take (k % (t.initPages.length + 1)))).chargeInit t

/-- TABLE_DESTROY (R100): the started destroy of a lookup engine. -/
def execTableDestroy (dt g : Nat) (s : State) : Host.Outcome State Fault Refusal :=
  let s := s.tick dt
  match s.engineCmd? ⟨.lookup, g⟩ 0xC1 with
  | none => .next s
  | some c =>
    if c.u64 56 % 16 ≠ 0 then .next (s.illegal c)
    else
      match s.needRanges c ⟨.lookup, g⟩ (statusRange (c.u64 56)) with
      | .wait s => .next s
      | .fault s => .next s
      | .ready s c =>
        let t := s.table c.tableNo
        if !s.statusOk c then .next (s.illegal c)
        else if t.state = .absent ∨ t.state = .retiring then .next (s.adminEnd c 0x0C 0)
        else
          .next ((((s.stopInit t).discardGradients c.tableNo).setTable c.tableNo
            { t with state := .retiring, owed := c.owes.toList, changes := [] }).setCmd { c with phase := .finished })

/-- Every operation on a table has drained. -/
def State.tableIdle (s : State) (n : Nat) : Bool :=
  s.drained n && s.update.runs.all (fun r => r.table ≠ n) && s.update.parts.all (fun p => p.table ≠ n || p.ended)

/-- TABLE_DESTROY_COMPLETE (R100): a retiring table on which every operation has drained becomes absent, and the record is
written. -/
def execTableDestroyComplete (dt n : Nat) (s : State) : Host.Outcome State Fault Refusal :=
  let s := s.tick dt
  let t := s.table n
  if t.state ≠ .retiring || !s.tableIdle n then .next s
  else
    let s : State := { s.setTable n Table.init with
      update := { s.update with
        sequences := Map.set 0 s.update.sequences n 0
        exchanges := s.update.exchanges.filter (fun x => x.2.1 ≠ n)
        swaps := s.update.swaps.filter (fun x => x.a ≠ n && x.b ≠ n) } }
    .next (t.owed.foldl (fun s o => s.payOwed o 0 0) s)

/-! ### Load and read (R101) -/

/-- What an index of a list leads to on this package. -/
inductive Place where
  /-- The default row, for a reason of R80. -/
  | default (why : Resolved)
  /-- A row homed elsewhere. -/
  | away (row : Nat)
  /-- A row homed here: row number and shard row. -/
  | home (row shardRow : Nat)
  deriving DecidableEq, Repr

def State.placeOfIndex (s : State) (t : Table) (i : Nat) : Place :=
  match t.resolve i with
  | .row r =>
    match s.homeRow t r with
    | some b => .home r b
    | none => .away r
  | w => .default w

/-- Fields of a load or read. -/
def Cmd.rowsDefault (c : Cmd) : Bool := bit (c.u8 18) 0
def Cmd.rowsFormat (c : Cmd) : Nat := bits (c.u8 18) 2 1
def Cmd.rowsTier (c : Cmd) : Nat := bits (c.u8 18) 4 3
def Cmd.rowsCount (c : Cmd) : Nat := c.u16 20 + 1

/-- Bytes of a row in the buffer: a slot, FP32 or BF16. -/
def Table.bufferSize (t : Table) (format tier : Nat) : Nat :=
  match format with
  | 0 => t.slot tier
  | 1 => 4 * t.dim
  | _ => 2 * t.dim

/-- A row of the buffer as a stored row; none when it cannot be stored (R77, R79). -/
def convertIn (d code format : Nat) (b : Bytes) : Option Bytes :=
  match format with
  | 0 => if rowFinite d code b then some (trimRow d code b) else none
  | 1 => encodeRow code ((List.range d).map (fun k => fieldLe b (4 * k) 4))
  | _ => encodeRow code ((List.range d).map (fun k => fieldLe b (2 * k) 2 * 65536))

/-- A stored row as a row of the buffer. -/
def convertOut (d code format : Nat) (b : Bytes) : Bytes :=
  match format with
  | 0 => b
  | 1 => (rowValues d code b).flatMap (natLe 4)
  | _ => (rowValues d code b).flatMap (fun x => natLe 2 (Fmt.bf16.encode (Fmt.fp32.decode x)))

/-- The tier a shard row stands in, without an access being counted. -/
def State.peekTier (s : State) (t : Table) (b : Nat) : Nat :=
  match s.readEntry applyAccess t b with
  | (.ok e, _) => e.1
  | (.error _, _) => 3

/-- The tier that a row of a load or read is moved in, none for a row that is skipped. -/
def State.rowTier (s : State) (t : Table) (c : Cmd) (load : Bool) : Place → Option Nat
  | .default _ => if load && !c.rowsDefault then none else some 0
  | .away _ => none
  | .home _ b =>
    if !t.tiered then some 0
    else
      let cur := s.peekTier t b
      if load then (if c.rowsTier < 3 then some c.rowsTier else some (if cur = 3 then 2 else cur))
      else some (if cur = 3 then 0 else cur)

/-- The indices of a load or read as places: the default row alone, consecutive indices, or the list's bytes. -/
def State.rowsPlaces (s : State) (t : Table) (c : Cmd) (list : Bytes) : List Place :=
  if c.rowsDefault then [.default .sentinel]
  else (List.range c.rowsCount).map (fun i =>
    s.placeOfIndex t (if c.u64 24 = 0 then (c.u64 32 + i) % w64 else fieldLe list (8 * i) 8))

/-- The ranges of the buffer that the rows take, with their tiers. -/
def State.rowsRanges (s : State) (t : Table) (c : Cmd) (load : Bool) (l : List Place) : List (Nat × Nat) :=
  (l.zipIdx.filterMap (fun x => (s.rowTier t c load x.1).map (fun tier =>
    (c.u64 40 + x.2 * c.u16 22, t.bufferSize c.rowsFormat tier))))

/-- A load or read under way: the first bus error, the state, rows skipped, and tier codes read. -/
structure RowsRun where
  bad : Option Nat
  state : State
  skipped : Nat
  tiers : Bytes

/-- Load one row. -/
def RowsRun.load (x : RowsRun) (c : Cmd) (n i : Nat) (p : Place) : RowsRun :=
  if x.bad.isSome then x
  else
    let s := x.state
    let t := s.table n
    let acc : Access := ⟨.c2, some c.job⟩
    match s.rowTier t c true p with
    | none => { x with skipped := x.skipped + 1 }
    | some tier =>
      match s.readVa acc c (c.u64 40 + i * c.u16 22) (t.bufferSize c.rowsFormat tier) with
      | (.bad e, s) => { x with bad := some e, state := s }
      | (.ok b, s) =>
        match convertIn t.dim (t.code tier) c.rowsFormat b with
        | none => { x with state := s, skipped := x.skipped + 1 }
        | some row =>
          match p with
          | .home r b =>
            (match s.putRow acc n r b tier row with
            | .done s => { x with state := s }
            | .noSlot s => { x with state := s, skipped := x.skipped + 1 }
            | .bad e s => { x with bad := some e, state := s })
          | _ => { x with state := s.setTable n { t with defaultRow := row } }

/-- Count a default-row read of a table by its reason (R80). -/
def Table.countDefault (t : Table) : Resolved → Table
  | .sentinel => t.count 5 1
  | .negative => t.count 6 1
  | .outOfRange => t.count 7 1
  | .row _ => t.count 8 1

/-- A row as a read finds it: stored bytes, stored format and tier code; the default row for one that has no storage. -/
def State.fetchRow (s : State) (acc : Access) (t : Table) (b : Nat) : Except Nat (Bytes × Nat × Nat) × State :=
  match s.readEntry acc t b with
  | (.error e, s) => (.error e, s)
  | (.ok (tier, slot), s) =>
    if tier = 3 then (.ok (t.defaultBytes, t.defaultCode, 3), s)
    else
      match s.readSlot acc t tier slot with
      | (.bad e, s) => (.error e, s)
      | (.ok d, s) => (.ok (d, t.code tier, if t.tiered then tier else 0x0F), s)

/-- Read one row out. -/
def RowsRun.read (x : RowsRun) (c : Cmd) (n i : Nat) (p : Place) : RowsRun :=
  if x.bad.isSome then x
  else
    let s := x.state
    let t := s.table n
    let acc : Access := ⟨.c2, some c.job⟩
    let put (s : State) (d : Bytes) (code mark : Nat) : RowsRun :=
      match s.writeVa acc c (c.u64 40 + i * c.u16 22) (convertOut t.dim code c.rowsFormat d) with
      | (.ok _, s) => { x with state := s, tiers := x.tiers ++ natLe 1 mark }
      | (.bad e, s) => { x with bad := some e, state := s }
    match p with
    | .away _ => { x with skipped := x.skipped + 1, tiers := x.tiers ++ natLe 1 0xFE }
    | .default w =>
      put (if c.rowsDefault then s else s.setTable n (t.countDefault w)) t.defaultBytes t.defaultCode 0x0E
    | .home r b =>
      match s.fetchRow acc t b with
      | (.error e, s) => { x with bad := some e, state := s }
      | (.ok (d, code, mark), s) => put (if mark = 3 then s.setTable n (t.countDefault (.row r)) else s) d code mark

/-- End a load or read: skipped rows are counted, the tier list of a read is written, then the status record. -/
def RowsRun.finish (x : RowsRun) (c : Cmd) (n : Nat) (load : Bool) (total : Nat) : State :=
  match x.bad with
  | some e => x.state.cmdFault c e
  | none =>
    let s := x.state.setTable n ((x.state.table n).count 0x10 x.skipped)
    let status := if x.skipped = 0 then 0 else 9
    let count := if x.skipped = 0 then total else x.skipped
    if load || c.u64 48 = 0 then s.adminEnd c status count
    else
      match s.writeVa ⟨.c2, some c.job⟩ c (c.u64 48) x.tiers with
      | (.ok _, s) => s.adminEnd c status count
      | (.bad e, s) => s.cmdFault c e

/-- A load or read with its lists and status address translated and its index list read. The buffer is translated next. -/
def State.rowsBody (s : State) (g : Nat) (c : Cmd) (load : Bool) (list : Bytes) : State :=
  let n := c.tableNo
  let t := s.table n
  let places := s.rowsPlaces t c list
  let ranges := s.rowsRanges t c load places
  if (c.rowsFormat ≠ 0 || !t.tiered) && c.u16 22 < t.bufferSize c.rowsFormat 0 || ranges.any (fun r => c.u16 22 < r.2) then s.illegal c
  else
    match s.needRanges c ⟨.lookup, g⟩ (ranges.map (fun r => (r.1, r.2, !load))) with
    | .wait s => s
    | .fault s => s
    | .ready s c =>
      if ranges.any (fun r => !s.localRange c r.1 r.2) then s.illegal c
      else
        let x : RowsRun := ⟨none, s, 0, []⟩
        let x := places.zipIdx.foldl (fun x p => if load then x.load c n p.2 p.1 else x.read c n p.2 p.1) x
        x.finish c n load places.length

/-- The fields of a load or read that R6 checks. -/
def Cmd.rowsOk (c : Cmd) : Bool := c.rowsFormat ≠ 3 && (!c.rowsDefault || c.rowsCount = 1) && c.u64 56 % 16 = 0

/-- A row of a tiered table whose reads are outstanding keeps a load of that table waiting, so that each row is read whole. -/
def State.readsOutstanding (s : State) (n : Nat) : Bool := s.lookups.any (fun r => r.table = n && r.reads.any (fun e => e.values.isNone))

/-- The lists of a load or read, translated and read. -/
def State.rowsStart (s : State) (g : Nat) (c : Cmd) (load : Bool) : State :=
  let list := if c.rowsDefault || c.u64 24 = 0 then [] else [(c.u64 24, 8 * c.rowsCount, false)]
  let tiers := if load || c.u64 48 = 0 then [] else [(c.u64 48, c.rowsCount, true)]
  if !s.tableReady c.tableNo || !c.rowsOk then s.illegal c
  else if load && s.readsOutstanding c.tableNo then s
  else
    match s.needRanges c ⟨.lookup, g⟩ (list ++ tiers ++ statusRange (c.u64 56)) with
    | .wait s => s
    | .fault s => s
    | .ready s c =>
      if !s.statusOk c || (list ++ tiers).any (fun r => !s.localRange c r.1 r.2.1) then s.illegal c
      else if list = [] then s.rowsBody g c load []
      else
        match s.readVa ⟨.c2, some c.job⟩ c (c.u64 24) (8 * c.rowsCount) with
        | (.bad e, s) => s.cmdFault c e
        | (.ok d, s) => s.rowsBody g c load d

/-- TABLE_LOAD (R101): the started load of a lookup engine. -/
def execTableLoad (dt g : Nat) (s : State) : Host.Outcome State Fault Refusal :=
  let s := s.tick dt
  match s.engineCmd? ⟨.lookup, g⟩ 0xC2 with
  | none => .next s
  | some c => .next (s.rowsStart g c true)

/-- TABLE_READ (R101): the started read of a lookup engine. -/
def execTableRead (dt g : Nat) (s : State) : Host.Outcome State Fault Refusal :=
  let s := s.tick dt
  match s.engineCmd? ⟨.lookup, g⟩ 0xC3 with
  | none => .next s
  | some c => .next (s.rowsStart g c false)

/-! ### Swap, replicate and pin (R102, R103) -/

/-- TABLE_SWAP (R102): the started swap of a lookup engine. -/
def execTableSwap (dt g : Nat) (s : State) : Host.Outcome State Fault Refusal :=
  let s := s.tick dt
  match s.engineCmd? ⟨.lookup, g⟩ 0xC4 with
  | none => .next s
  | some c =>
    let a := c.tableNo
    let b := bits (c.u16 18) 9 0
    if c.u64 56 % 16 ≠ 0 || !s.tableReady a || !s.tableReady b then .next (s.illegal c)
    else
      match s.needRanges c ⟨.lookup, g⟩ (statusRange (c.u64 56)) with
      | .wait s => .next s
      | .fault s => .next s
      | .ready s c =>
        if !s.statusOk c then .next (s.illegal c)
        else if (s.table a).shape ≠ (s.table b).shape then .next (s.adminEnd c 7 0)
        else if (s.table a).trainable then .next (s.adminEnd c 8 0)
        else
          let s : State := { s with update := { s.update with swaps := s.update.swaps ++ [⟨a, b, c.id, none, c.owes⟩] } }
          .next (s.setCmd { c with phase := .finished })

/-- The rows a pin or replicate command names: those it may take, and how many it skips (R103). -/
def State.changeRows (s : State) (t : Table) (pin : Bool) (l : List Nat) : List Nat × Nat :=
  l.foldl (fun (x : List Nat × Nat) i =>
    match s.placeOfIndex t i with
    | .home r b => (x.1 ++ [if pin then b else r], x.2)
    | .away r => if !pin && t.scope = 2 then (x.1 ++ [r], x.2) else (x.1, x.2 + 1)
    | .default _ => (x.1, x.2 + 1)) ([], 0)

/-- A pin or replicate command: its list is read and the change waits for the next apply phase. -/
def State.changeCmd (s : State) (g : Nat) (c : Cmd) (pin : Bool) : State :=
  let n := c.tableNo
  let action := bits (c.u8 18) 1 0
  if c.u64 56 % 16 ≠ 0 || !s.tableReady n || (!pin && 1 < action) || (pin && !(s.table n).tiered) then s.illegal c
  else
    let len := 8 * (c.u16 20 + 1)
    match s.needRanges c ⟨.lookup, g⟩ ((c.u64 24, len, false) :: statusRange (c.u64 56)) with
    | .wait s => s
    | .fault s => s
    | .ready s c =>
      if !s.statusOk c || !s.localRange c (c.u64 24) len then s.illegal c
      else
        match s.readVa ⟨.c0, some c.job⟩ c (c.u64 24) len with
        | (.bad e, s) => s.cmdFault c e
        | (.ok d, s) =>
          let t := s.table n
          let r := s.changeRows t pin ((List.range (c.u16 20 + 1)).map (fun i => fieldLe d (8 * i) 8))
          let s := s.setTable n { t with changes := t.changes ++ [⟨pin, action, r.1, 0, r.2, false, s.epoch, c.owes⟩] }
          (s.setCmd { c with phase := .finished }).settle

/-- TABLE_REPLICATE (R103): the started replicate of a lookup engine. -/
def execTableReplicate (dt g : Nat) (s : State) : Host.Outcome State Fault Refusal :=
  let s := s.tick dt
  match s.engineCmd? ⟨.lookup, g⟩ 0xC5 with
  | none => .next s
  | some c => .next (s.changeCmd g c false)

/-- TABLE_PIN (R103): the started pin of a lookup engine; on a fixed-code table an illegal operation. -/
def execTablePin (dt g : Nat) (s : State) : Host.Outcome State Fault Refusal :=
  let s := s.tick dt
  match s.engineCmd? ⟨.lookup, g⟩ 0xC6 with
  | none => .next s
  | some c => .next (s.changeCmd g c true)

/-! ### Epoch commands (R104) -/

/-- An apply phase is active (0x2100.07). -/
def applyKey : Nat := objKey 0x2100 7
def State.applyActive (s : State) : Bool := s.flag applyKey

/-- The event of an epoch fence has occurred: boundary e has fallen, or its apply phase has finished. -/
def State.epochEvent (s : State) (event e : Nat) : Bool :=
  s.epochsRunning && (e < s.epoch || (e = s.epoch && (event = 0 || !s.applyActive)))

/-- EPOCH_FENCE (R104): signals at once when the event has occurred, otherwise the fence waits for it; the command completes
either way. -/
def execEpochFence (dt g : Nat) (s : State) : Host.Outcome State Fault Refusal :=
  let s := s.tick dt
  match s.engineCmd? ⟨.lookup, g⟩ 0xC8 with
  | none => .next s
  | some c =>
    let event := bits (c.u8 16) 0 0
    if !fenceOk (c.u64 40) then .next (s.illegal c)
    else
      let s := s.setCmd { c with phase := .finished }
      if s.epochEvent event (c.u64 24) then .next (s.signal (c.u64 40) (c.u64 48))
      else
        .next { s with update := { s.update with
          epochFences := s.update.epochFences ++ [(event, c.u64 24, c.u64 40, c.u64 48)] } }

/-- Signal the epoch fences whose event has occurred. -/
def State.signalEpochs (s : State) : State :=
  let due := s.update.epochFences.filter (fun f => s.epochEvent f.1 f.2.1)
  let s : State := { s with update := { s.update with
    epochFences := s.update.epochFences.filter (fun f => !s.epochEvent f.1 f.2.1) } }
  due.foldl (fun s f => s.signal f.2.2.1 f.2.2.2) s

/-- The epoch-read record. -/
def State.epochRecord (s : State) : Bytes :=
  natLe 8 s.epoch ++ natLe 8 (s.num (objKey 0x2100 5)) ++ natLe 8 (s.num (objKey 0x2100 6)) ++
    natLe 8 ((if s.applyActive then 1 else 0) + (if s.epochsRunning then 2 else 0))

/-- EPOCH_READ (R104): the started epoch read of a lookup engine. -/
def execEpochRead (dt g : Nat) (s : State) : Host.Outcome State Fault Refusal :=
  let s := s.tick dt
  match s.engineCmd? ⟨.lookup, g⟩ 0xC9 with
  | none => .next s
  | some c =>
    let a := c.u64 40
    if a % 32 ≠ 0 then .next (s.illegal c)
    else
      match s.needRanges c ⟨.lookup, g⟩ [(a, 32, true)] with
      | .wait s => .next s
      | .fault s => .next s
      | .ready s c =>
        if !s.localRange c a 32 then .next (s.illegal c)
        else
          match s.writeVa ⟨.c1, some c.job⟩ c a s.epochRecord with
          | (.ok _, s) => .next (s.setCmd { c with phase := .finished })
          | (.bad e, s) => .next (s.cmdFault c e)

/-! ### Snapshot (R105, R133, R168) -/

/-- The code of a table state. -/
def TableState.code : TableState → Nat
  | .absent => 0 | .initialising => 1 | .ready => 2 | .retiring => 3

/-- Entries of a table that lie in its spill region. -/
def State.spilledOf (s : State) (n : Nat) : Nat :=
  (s.update.entries.flatMap (fun (e : Nat × List MergeEntry) => e.2.filter (fun m => m.table = n && m.place.isSome))).length

/-- The value of 0x2202 (k below 0x100) or 0x2302 (k from 0x100) for a table. -/
def State.tableValue (s : State) (n k : Nat) : Nat :=
  let t := s.table n
  if t.state = .absent then (if k = 1 then n else if k = 0x12 then s.now else 0)
  else
    match k with
    | 1 => n
    | 2 => t.state.code
    | 3 => t.class_
    | 4 => t.rows
    | 9 => t.hot.length
    | 0x0A => t.warm.length
    | 0x0B => t.cold.length
    | 0x11 => (t.replicas.filter (fun (r : Nat × Nat × Nat) => r.2.2 < 4)).length
    | 0x12 => s.now
    | 0x112 => t.rate
    | 0x113 => t.epsilon
    | 0x114 => t.budget
    | 0x115 => s.spilledOf n
    | k => Map.get 0 t.counts k

/-- The table snapshot action (R105): every value of one table at one instant, its drops by destination (0x2203.00) as well. -/
def State.tableSnapshot (s : State) (n : Nat) : Nat × State :=
  if 1023 < n then (6, s)
  else
    let t := (rangeFrom 1 0x18).foldl (fun t k => t.setNum (objKey 0x2202 k) (s.tableValue n k)) s
    let t := (rangeFrom 1 0x15).foldl (fun t k => t.setNum (objKey 0x2302 k) (s.tableValue n (0x100 + k))) t
    let drops := if (s.table n).state = .absent then [] else (s.table n).drops
    let t := t.setBlob (objKey 0x2203 0) (drops.flatMap (fun (d : Nat × Nat) => natLe 2 d.1 ++ natLe 8 d.2))
    (0, t.setNum (objKey 0x2201 0) 2)

end Sys2Proof.Machine
end

