-- ==== Sys2Proof/Machine/Lookup.lean ====
section
/-! DEFINITION. The lookup engines: resolving indices, reading rows, pooling, and the sharded exchange (R106 to R133). -/
namespace Sys2Proof.Machine

/-! ### Command fields (R110) -/

def Cmd.indexWidth (c : Cmd) : Nat := if bits (c.u8 18) 1 0 = 0 then 8 else 4
def Cmd.outFormat (c : Cmd) : Nat := bits (c.u8 18) 3 2
def Cmd.bags (c : Cmd) : Nat := c.u16 20 + 1
def Cmd.exchangeNo (c : Cmd) : Nat := c.u16 48
def Cmd.indexCapacity (c : Cmd) : Nat := c.u16 50
def Cmd.bagCapacity (c : Cmd) : Nat := c.u16 52
def Cmd.lookupChannel (c : Cmd) : Nat := bits (c.u8 54) 3 0
def Cmd.isSharded (c : Cmd) : Bool := c.opcode = 0x71

/-- Bytes of a pooled vector of D elements in an output format (R118). -/
def vectorBytes (d format : Nat) : Nat :=
  match format with
  | 0 => 4 * d
  | 1 => 2 * d
  | _ => d + 1

/-- The fields that R6 checks. -/
def Cmd.lookupOk (c : Cmd) (t : Table) : Bool :=
  bits (c.u8 18) 1 0 < 2 && c.u16 22 % 4 = 0 && vectorBytes t.dim c.outFormat ≤ c.u16 22 &&
  c.u64 24 % c.indexWidth = 0 && c.u64 32 % 4 = 0 && c.u64 40 % 4 = 0 && c.u64 56 % 32 = 0 &&
  (!c.isSharded || (c.indexCapacity ≠ 0 && c.bagCapacity ≠ 0))

def lookupKey (g sub : Nat) : Nat := objKey (0x6100 + g) sub

/-- The run of a command. -/
def State.run? (s : State) (id : Nat) : Option LookupRun := s.lookups.find? (fun r => r.cmd = id)

def State.setRun (s : State) (r : LookupRun) : State :=
  { s with lookups := mapIf (fun x => x.cmd = r.cmd) (fun _ => r) s.lookups }

/-! ### Starting (R111, R113, R114) -/

/-- The part of the index list that well-formed bags use: first position and one past the last. -/
def listSpan : List Nat → Option (Nat × Nat)
  | a :: b :: rest =>
    let r := listSpan (b :: rest)
    if a < b then
      match r with
      | some (lo, hi) => some (min a lo, max b hi)
      | none => some (a, b)
    else r
  | _ => none

/-- A range leads to an SRAM window here, and meets no merge area (R113, R143). -/
def State.sramRange (s : State) (c : Cmd) (va n : Nat) : Bool :=
  c.allHere va n (fun a k => isSram a && isSram (a + k - 1) && !s.meetsMerge a k)

/-- The epoch-consistent wait of R164: the apply phase that began at the current boundary still runs for the table, and the
stamp falls in it. -/
def State.mustAwaitApply (s : State) (n : Nat) (stamp : Ns) : Bool :=
  (s.table n).epochConsistent && s.update.applyStart ≤ stamp && s.update.parts.any (fun p => p.table = n && !p.ended)

/-- The ranges that a command reads its indices from and writes: the part of its list that its bags use, its output and its summary
record (address, length, write). -/
def Cmd.listRange (c : Cmd) (offsets : List Nat) : List (Nat × Nat × Bool) :=
  match listSpan offsets with
  | some (lo, hi) => [(c.u64 24 + lo * c.indexWidth, (hi - lo) * c.indexWidth, false)]
  | none => []
def Cmd.outLength (c : Cmd) (t : Table) : Nat := (c.bags - 1) * c.u16 22 + vectorBytes t.dim c.outFormat
def Cmd.outRanges (c : Cmd) (t : Table) : List (Nat × Nat × Bool) :=
  (c.u64 40, c.outLength t, true) :: (if c.u64 56 = 0 then [] else [(c.u64 56, 32, true)])

/-- Translate what a lookup reads and writes, and hold it to the places that R113 allows: lists in local memory, output and summary in
SRAM windows. -/
def State.lookupPages (s : State) (c : Cmd) (g : Nat) (reads writes : List (Nat × Nat × Bool)) : Pages :=
  match s.needRanges c ⟨.lookup, g⟩ (reads ++ writes) with
  | .ready s c =>
    if reads.any (fun r => !s.localRange c r.1 r.2.1) || writes.any (fun r => !s.sramRange c r.1 r.2.1) then .fault (s.illegal c)
    else .ready s c
  | p => p

/-- The local ranges of a command's output, and of the lists it reads. -/
def Cmd.outPieces (c : Cmd) (t : Table) : List (Nat × Nat) := c.localPieces (c.u64 40) (c.outLength t)
def Cmd.listPieces (c : Cmd) (offsets : List Nat) : List (Nat × Nat) :=
  c.localPieces (c.u64 32) (4 * (c.bags + 1)) ++ (c.listRange offsets).flatMap (fun r => c.localPieces r.1 r.2.1)

/-- An output that overlaps the command's own lists, or the output of another lookup in flight: the bytes they share are undefined from
here on, also those that the other one has written (R113). -/
def State.clashes (s : State) (c : Cmd) (t : Table) (offsets : List Nat) : List (Nat × Nat) × State :=
  let out := c.outPieces t
  let shared (r : LookupRun) : List (Nat × Nat) :=
    match s.cmd? r.cmd with
    | some d => meetRanges out (d.outPieces (s.table r.table))
    | none => []
  let others := s.lookups.flatMap shared
  (meetRanges out (c.listPieces offsets) ++ others,
    ({ s with lookups := s.lookups.map (fun r => { r with clash := r.clash ++ shared r }) } : State).blur others)

/-- A lookup in flight that arbitration would serve before a command: its engine is the same, it has indices left to resolve and does not
wait, and it is of the latency class where the command is not, or of the same class and older (R341). -/
def State.before (s : State) (c : Cmd) (r : LookupRun) : Bool :=
  match s.cmd? r.cmd with
  | some d =>
    d.id ≠ c.id && d.unit = c.unit && d.held.isNone && r.nextBag < d.bags && !s.mustAwaitApply r.table r.stamp &&
    ((s.latency d.job && !s.latency c.job) ||
      (s.latency d.job == s.latency c.job && (d.started < c.started || (d.started = c.started && d.id < c.id))))
  | none => false

/-- Index resolution and row slots are a command's (R341). -/
def State.goesFirst (s : State) (c : Cmd) : Bool := s.lookups.all (fun r => !s.before c r)

/-- Stamp a command: its run begins. While it awaits an apply phase it is not timed (R343). -/
def State.stampLookup (s : State) (c : Cmd) (g : Nat) (offsets : List Nat) (alone : Bool) : State :=
  let t := s.table c.tableNo
  let x := s.clashes c t offsets
  let s := x.2
  let r : LookupRun :=
    { cmd := c.id, engine := g, table := c.tableNo, number := c.tableNo, stamp := s.now,
      deadline := s.now + s.num (objKey 0x2210 1) * 1000, offsets := offsets, nextBag := 0, nextPos := 0, reads := [],
      bag := 0, sum := List.replicate t.dim 0, locals := [], entries := [], partials := [], returned := [], served := [],
      waiting := [], default := none, clash := x.1, slicesSent := alone, combined := false, timedOut := alone, rows := 0, defaults := 0, malformed := 0, skips := 0,
      dropped := 0, missing := if alone then t.packages - 1 else 0, nonFinite := 0 }
  let s := if alone then s.countTable c.tableNo 0x15 (t.packages - 1) else s
  ({ s with lookups := s.lookups ++ [r] } : State).setCmd
    { c with armed := true, unwatched := s.mustAwaitApply c.tableNo s.now }

/-- A Sharded lookup that has its pages waits for its channel, unwatched, and is stamped once it holds it, or once it has
waited longer than its timeout (R114, R363). A lookup that another one goes before is not stamped yet (R341). -/
def State.channelThenStamp (s : State) (c : Cmd) (g : Nat) (offsets : List Nat) : State :=
  if !s.goesFirst c then s
  else if !c.isSharded then s.stampLookup c g offsets false
  else if c.scratch.headD 0 = 1 then s.stampLookup c g offsets true
  else if s.holdsChannel c.lookupChannel .lookup c.id then s.stampLookup c g offsets false
  else (s.askChannel c.lookupChannel .lookup c.exchangeNo c.id).setCmd { c with unwatched := true }

/-- Before the stamp: checks, translation of every page, the offsets, and the span of the list, which is checked before any row is read
(R111). -/
def State.startLookup (s : State) (c : Cmd) (g : Nat) : State :=
  let t := s.table c.tableNo
  if !s.tableReady c.tableNo || !c.lookupOk t then s.illegal c
  else
    match s.lookupPages c g [(c.u64 32, 4 * (c.bags + 1), false)] (c.outRanges t) with
    | .wait s => s
    | .fault s => s
    | .ready s c =>
      match s.readVa ⟨.c0, some c.job⟩ c (c.u64 32) (4 * (c.bags + 1)) with
      | (.bad e, s) => s.cmdFault c e
      | (.ok d, s) =>
        let offsets := (List.range (c.bags + 1)).map (fun i => fieldLe d (4 * i) 4)
        if 16777216 < offsets.getD c.bags 0 - offsets.headD 0 then s.illegal c
        else
          match s.lookupPages c g (c.listRange offsets) [] with
          | .wait s => s
          | .fault s => s
          | .ready s c => s.channelThenStamp c g offsets

/-! ### Rows (R115, R116, R120) -/

/-- Where a row's value comes from. -/
inductive RowSource where
  /-- Granules to read and the stored format; for a copy, its row number and copy number. -/
  | read (pieces : List (Nat × Nat)) (code : Nat) (copy : Option (Nat × Nat))
  /-- Unallocated: the default row. -/
  | default
  /-- Homed elsewhere, with no copy here. -/
  | away
  | bad (code : Nat)
  deriving DecidableEq, Repr

/-- Find a row for engine g (R115 steps 3 and 4): a copy in its own stack, whatever the row's home (R120), or the home slot, whose tier
and slot the row map gives. Each lookup of a row is counted for the tier decisions (R87); for a copy's row the row-merge unit
that keeps the counters reads the entry (notes/assumptions/117.md). -/
def State.rowSource (s : State) (acc : Access) (n g r : Nat) : RowSource × State :=
  let t := s.table n
  let home := s.homeRow t r
  match t.replicaOf r with
  | some (set, tier) =>
    let s := match home with
      | some b => match s.readEntry applyAccess t b with
        | (.ok (cur, slot), s) => s.countAccess n cur slot b
        | (.error e, s) => s.applyBad (s.owner t b) e
      | none => s
    (.read [(s.copyAt t set (g / 2), t.slot tier)] (t.code tier) (some (r, g / 2)), s)
  | none =>
    match home with
    | none => (.away, s)
    | some b =>
      match s.readEntry acc t b with
      | (.error e, s) => (.bad e, s)
      | (.ok (tier, slot), s) =>
        if tier = 3 then (.default, s)
        else (.read (t.slotPieces tier slot) (t.code tier) none, s.countAccess n tier slot b)

/-- Count a row read of an engine for a job (R130, R133, R74). -/
def State.countRow (s : State) (g job bytes : Nat) : State :=
  ((s.bump (lookupKey g 1) 1).bump (lookupKey g 2) bytes).acct job 0x0B 1

/-- Slots that an engine's row reads occupy (R108). -/
def State.slotsUsed (s : State) (g : Nat) : Nat :=
  ((s.lookups.filter (fun r => r.engine = g)).flatMap (fun r => (r.reads.filter (fun e => e.values.isNone)).map
    (fun e => e.granules.length))).foldl (· + ·) 0

/-- The slots a row of a table takes at most. -/
def Table.rowSlots (t : Table) : Nat := ceilDiv t.largestSlot 256

/-! ### Resolving (R112, R115, R120, R124) -/

/-- The default row as a command holds it: read from the metadata of the table when the command first needs it (R130). -/
def LookupRun.heldDefault (r : LookupRun) (t : Table) : List Nat := r.default.getD t.defaultValues

/-- A default read: counted, and its value added in its place. -/
def State.defaultRead (s : State) (r : LookupRun) (why : Resolved) : State :=
  let v := r.heldDefault (s.table r.table)
  ((s.setTable r.number ((s.table r.number).countDefault why)).bump (lookupKey r.engine 4) 1).setRun
    { r with
      defaults := r.defaults + 1
      default := some v
      reads := r.reads ++ [⟨r.nextBag, [], 0, none, some v⟩] }

/-- An entry for another package's slice (R122), or its drop: past the index capacity, or of a bag past the bag capacity. A drop is
counted for the table (0x2202.14), for the destination chip and for the command, and neither stalls nor faults (R124). -/
def State.sendEntry (s : State) (c : Cmd) (r : LookupRun) (t : Table) (row : Nat) : State :=
  let chip := t.shardChip (t.place row).1
  let mine := r.entries.filter (fun e => e.1 = chip)
  let bags := (mine.map (fun e => e.2.2)).eraseDups
  if mine.length < c.indexCapacity ∧ (bags.contains r.nextBag ∨ bags.length < c.bagCapacity) then
    s.setRun { r with entries := r.entries ++ [(chip, row, r.nextBag)] }
  else
    let u := s.table r.number
    (s.setTable r.number ({ u with drops := Map.set 0 u.drops chip (Map.get 0 u.drops chip + 1) }.count 0x14 1)).setRun
      { r with dropped := r.dropped + 1 }

/-- Resolve one index of a run: the first bus error, and the state. A row homed elsewhere, with no copy here, goes into the slice of its
home, or is skipped and counted as a remote skip (0x2202.13) by a Lookup (R120). -/
def State.resolveIndex (s : State) (c : Cmd) (r : LookupRun) (i : Nat) : Option Nat × State :=
  let t := s.table r.table
  match t.resolve i with
  | .row row =>
    match s.rowSource ⟨.c0, some c.job⟩ r.table r.engine row with
    | (.bad e, s) => (some e, s)
    | (.default, s) => (none, s.defaultRead r (.row row))
    | (.read pieces code copy, s) =>
      let n := (pieces.map (fun p => p.2)).foldl (· + ·) 0
      (none, (s.countRow r.engine c.job n).setRun { r with
        rows := r.rows + 1
        reads := r.reads ++ [⟨r.nextBag, pieces, code, copy, none⟩] })
    | (.away, s) =>
      if c.isSharded then (none, s.sendEntry c r t row)
      else (none, (s.countTable r.number 0x13 1).setRun { r with skips := r.skips + 1 })
  | w => (none, s.defaultRead r w)

/-- Read one index of the list, sign-extended (R112). -/
def State.readIndex (s : State) (c : Cmd) (pos : Nat) : Except Nat Nat × State :=
  match s.readVa ⟨.c0, some c.job⟩ c (c.u64 24 + pos * c.indexWidth) c.indexWidth with
  | (.ok d, s) => (.ok (if c.indexWidth = 8 then leNat d else ofSigned 64 (toSigned 32 (leNat d))), s)
  | (.bad e, s) => (.error e, s)

/-- Resolve the indices of each bag b, at list positions off[b] to off[b + 1] − 1 in ascending order, until the list is done or no slot
is left; an empty bag has none, and a malformed one is counted and taken as empty (R111). `fuel` bounds the work. -/
def State.resolveRun (c : Cmd) : Nat → State → Option Nat × State
  | 0, s => (none, s)
  | fuel + 1, s =>
    match s.run? c.id with
    | none => (none, s)
    | some r =>
      if c.bags ≤ r.nextBag then (none, s)
      else
        let lo := r.offsets.getD r.nextBag 0
        let hi := r.offsets.getD (r.nextBag + 1) 0
        if hi ≤ lo + r.nextPos then
          let s := if hi < lo then s.countTable r.number 0x17 1 else s
          State.resolveRun c fuel (s.setRun { r with
            nextBag := r.nextBag + 1, nextPos := 0, malformed := r.malformed + (if hi < lo then 1 else 0) })
        else if 1024 < s.slotsUsed r.engine + (s.table r.table).rowSlots then (none, s)
        else
          match s.readIndex c (lo + r.nextPos) with
          | (.error e, s) => (some e, s)
          | (.ok i, s) =>
            match s.resolveIndex c r i with
            | (some e, s) => (some e, s)
            | (none, s) =>
              match s.run? c.id with
              | none => (none, s)
              | some r => State.resolveRun c fuel (s.setRun { r with nextPos := r.nextPos + 1 })

/-- Enough steps for every index and bag of a run. -/
def LookupRun.fuel (r : LookupRun) (bags : Nat) : Nat :=
  bags + 1 + ((List.range bags).map (fun b => r.offsets.getD (b + 1) 0 - r.offsets.getD b 0)).foldl (· + ·) 0

/-! ### Pooling (R117, R118) -/

/-- Element by element FP32 addition. -/
def addRows (a b : List Nat) : List Nat := List.zipWith f32Add a b

/-- Add rows that are there to the bag they belong to, in list order, and hand over the bags that are complete. -/
def LookupRun.pool (bags : Nat) : Nat → LookupRun → List (Nat × List Nat) → LookupRun × List (Nat × List Nat)
  | 0, r, l => (r, l)
  | fuel + 1, r, l =>
    if bags ≤ r.bag then (r, l)
    else
      let close := LookupRun.pool bags fuel { r with bag := r.bag + 1, sum := r.sum.map (fun _ => 0) } (l ++ [(r.bag, r.sum)])
      match r.reads with
      | e :: rest =>
        if e.bag = r.bag then
          match e.values with
          | some v => LookupRun.pool bags fuel { r with sum := addRows r.sum v, reads := rest } l
          | none => (r, l)
        else close
      | [] => if r.bag < r.nextBag then close else (r, l)

/-- A pooled vector in its output format. -/
def poolBytes (format : Nat) (sum : List Nat) : Bytes :=
  let vals := sum.map Fmt.fp32.decode
  match format with
  | 0 => sum.flatMap (natLe 4)
  | 1 => vals.flatMap (fun v => natLe 2 (Fmt.bf16.encode v))
  | f =>
    let fmt := if f = 2 then Fmt.e4m3 else Fmt.e5m2
    let k := rowShiftFp8 fmt vals
    vals.flatMap (fun v => natLe 1 (fmt.encode (v.scale (-k)))) ++ natLe 1 (ofSigned 8 k)

/-- A pooled vector holds a non-finite element, as summed or as rounded to BF16. -/
def poolNonFinite (format : Nat) (sum : List Nat) : Bool :=
  sum.any f32NonFinite || (format = 1 && sum.any (fun x => (Fmt.bf16.decode (Fmt.bf16.encode (Fmt.fp32.decode x))).nonFinite))

/-- Write the pooled vector of a bag: the first bus error, and the state. The bytes that R113 leaves undefined become free values. -/
def State.writeBag (s : State) (c : Cmd) (b : Nat) (sum : List Nat) : Option Nat × State :=
  match s.run? c.id with
  | none => (none, s)
  | some r =>
    let bad := poolNonFinite c.outFormat sum
    let s := if bad then (s.countTable r.number 0x18 1).setRun { r with nonFinite := r.nonFinite + 1 } else s
    let d := poolBytes c.outFormat sum
    match s.writeVa ⟨.c0, some c.job⟩ c (c.u64 40 + b * c.u16 22) d with
    | (.ok _, s) => (none, s.blur (meetRanges (c.localPieces (c.u64 40 + b * c.u16 22) d.length) r.clash))
    | (.bad e, s) => (some e, s)

/-- Write bags in order. -/
def State.writeBags (s : State) (c : Cmd) (l : List (Nat × List Nat)) : Option Nat × State :=
  l.foldl (fun (x : Option Nat × State) b => if x.1.isSome then x else x.2.writeBag c b.1 b.2) (none, s)

/-- Pool what has come: a Lookup writes each complete bag, a Sharded lookup keeps it as its local partial. -/
def State.poolRun (s : State) (c : Cmd) : Option Nat × State :=
  match s.run? c.id with
  | none => (none, s)
  | some r =>
    let x := LookupRun.pool c.bags (r.reads.length + c.bags + 1) r []
    if c.isSharded then (none, s.setRun { x.1 with locals := x.1.locals ++ x.2 })
    else (s.setRun x.1).writeBags c x.2

/-! ### The sharded exchange (R121 to R126) -/

/-- The first 16 bytes of a slice. -/
def sliceHead (number n chip entries bags : Nat) : Bytes :=
  natLe 2 number ++ natLe 2 n ++ natLe 2 chip ++ natLe 2 0 ++ natLe 4 entries ++ natLe 4 bags

/-- The request slice for a chip (R122). -/
def requestSlice (c : Cmd) (own chip : Nat) (entries : List (Nat × Nat × Nat)) : Bytes :=
  let mine := entries.filter (fun e => e.1 = chip)
  let bags := (mine.map (fun e => e.2.2)).eraseDups
  sliceHead c.exchangeNo c.tableNo own mine.length bags.length ++ List.replicate 16 0 ++
    mine.flatMap (fun e => natLe 8 e.2.1 ++ natLe 4 e.2.2) ++
    (List.replicate (c.indexCapacity - mine.length) (natLe 8 0 ++ natLe 4 0xFFFFFFFF)).flatten

/-- The other members of a table's shard group. -/
def State.others (s : State) (t : Table) : List Nat := t.chips.filter (· ≠ s.chip)

/-- Hand the request slices to the channel, one to every other member. -/
def State.sendSlices (s : State) (c : Cmd) (r : LookupRun) : State :=
  let t := s.table r.table
  let s := (s.others t).foldl (fun s k =>
    (s.offer ⟨c.lookupChannel, k, c.exchangeNo, 0, [], requestSlice c s.chip k r.entries, c.job, false, s.now⟩).bump
      (lookupKey r.engine 5) 1) s
  s.setRun { r with slicesSent := true }

/-- The partials of a bag in ascending shard number, the local one at the own shard (R126). -/
def combineBag (t : Table) (own : Nat) (r : LookupRun) (b : Nat) : List Nat :=
  (List.range t.packages).foldl (fun sum k =>
    if t.shardChip k = own then
      match r.locals.find? (fun l => l.1 = b) with
      | some l => addRows sum l.2
      | none => sum
    else
      match r.partials.find? (fun p => p.1 = k && p.2.1 = b) with
      | some p => addRows sum p.2.2
      | none => sum) (List.replicate t.dim 0)

/-- Every other member's return slice has come, or the timeout has passed. -/
def State.canCombine (s : State) (r : LookupRun) : Bool :=
  r.timedOut || (s.others (s.table r.table)).all (fun k => r.returned.contains k)

/-- Combine and write every bag of a Sharded lookup. -/
def State.combineRun (s : State) (c : Cmd) (r : LookupRun) : Option Nat × State :=
  let t := s.table r.table
  let l := (List.range c.bags).map (fun b => (b, combineBag t s.chip r b))
  (s.setRun { r with combined := true }).writeBags c l

/-- The summary record (R130), each field saturating. -/
def summaryRecord (r : LookupRun) : Bytes :=
  let m (n v : Nat) := natLe n (min v (256 ^ n - 1))
  m 4 r.rows ++ m 4 r.defaults ++ m 4 r.malformed ++ m 4 r.skips ++ m 4 r.dropped ++ m 2 r.missing ++ m 2 r.nonFinite ++
    natLe 8 r.stamp

/-- Every pooled vector has been written, and the exchange, if there is one, is over (R129). -/
def State.lookupDone (s : State) (c : Cmd) (r : LookupRun) : Bool :=
  c.bags ≤ r.nextBag && c.bags ≤ r.bag &&
  (!c.isSharded || (r.combined && (r.timedOut || (s.others (s.table r.table)).all (fun k => r.served.contains k))))

/-- Write the summary, free the channel, and finish the command. -/
def State.endLookup (s : State) (c : Cmd) (r : LookupRun) : State :=
  let fin (s : State) : State :=
    let s := if c.isSharded then s.freeChannel c.lookupChannel .lookup c.id else s
    ({ s with lookups := s.lookups.filter (fun x => x.cmd ≠ c.id) } : State).setCmd { c with phase := .finished }
  if c.u64 56 = 0 then fin s
  else
    match s.writeVa ⟨.c0, some c.job⟩ c (c.u64 56) (summaryRecord r) with
    | (.ok _, s) => fin s
    | (.bad e, s) => s.cmdFault c e

/-- What follows once rows have been pooled: slices, combination, completion. -/
def State.advancePooled (s : State) (c : Cmd) : State :=
  match s.poolRun c with
  | (some e, s) => s.cmdFault c e
  | (none, s) =>
    match s.run? c.id with
    | none => s
    | some r =>
      let s := if c.isSharded && c.bags ≤ r.nextBag && !r.slicesSent then s.sendSlices c r else s
      let r := (s.run? c.id).getD r
      let x := if c.isSharded && c.bags ≤ r.bag && !r.combined && s.canCombine r then s.combineRun c r else (none, s)
      match x with
      | (some e, s) => s.cmdFault c e
      | (none, s) =>
        match s.run? c.id with
        | none => s
        | some r => if s.lookupDone c r then s.endLookup c r else s

/-- The pages of a run that it has lost to an invalidation are translated again (R113, R283, notes/assumptions/119.md). -/
def State.runPages (s : State) (c : Cmd) (r : LookupRun) : Pages :=
  s.lookupPages c r.engine (if c.bags ≤ r.nextBag then [] else c.listRange r.offsets) (c.outRanges (s.table r.table))

/-- A run goes on with what has come, once it has its pages. -/
def State.advanceLookup (s : State) (c : Cmd) : State :=
  match s.run? c.id with
  | none => s
  | some r =>
    match s.runPages c r with
    | .wait s => s
    | .fault s => s
    | .ready s c => s.advancePooled c

/-- The highest number of row slots in use (0x6100 + g .07). -/
def State.notePeak (s : State) (g : Nat) : State :=
  if s.num (lookupKey g 7) < s.slotsUsed g then s.setNum (lookupKey g 7) (s.slotsUsed g) else s

/-- A started lookup goes on: before its stamp, waiting for an apply phase (R164), or resolving, which is the first command's in
arbitration (R341). -/
def State.lookupStep (s : State) (c : Cmd) (g : Nat) : State :=
  match s.run? c.id with
  | none => s.startLookup c g
  | some r =>
    if s.mustAwaitApply r.table r.stamp then s
    else
      match s.runPages c r with
      | .wait s => s
      | .fault s => s
      | .ready s c =>
        if !s.goesFirst c then s.advancePooled c
        else
          match State.resolveRun c (r.fuel c.bags) s with
          | (some e, s) => s.cmdFault c e
          | (none, s) => (s.notePeak g).advancePooled c

/-- A started lookup command of an opcode and its engine. -/
def State.lookupCmd? (s : State) (id op : Nat) : Option (Cmd × Nat) :=
  match s.cmd? id with
  | some c =>
    match c.unit with
    | some u => if u.kind = .lookup && c.opcode = op && c.phase = .running then some (c, u.num) else none
    | none => none
  | none => none

/-- LOOKUP (R115): the started Lookup command `id` of an engine goes on. -/
def execLookup (dt id : Nat) (s : State) : Host.Outcome State Fault Refusal :=
  let s := s.tick dt
  match s.lookupCmd? id 0x70 with
  | some (c, g) => .next (s.lookupStep c g)
  | none => .next s

/-- SHARDED_LOOKUP (R121): the started Sharded lookup `id` of an engine goes on. -/
def execShardedLookup (dt id : Nat) (s : State) : Host.Outcome State Fault Refusal :=
  let s := s.tick dt
  match s.lookupCmd? id 0x71 with
  | some (c, g) => .next (s.lookupStep c g)
  | none => .next s

/-- A read of a row's copy, as it is served: copies are refreshed in place, so it takes the format that the directory gives them now,
and reads the row whole, old or new (R90, R94). -/
def State.freshRead (s : State) (t : Table) (e : RowRead) : RowRead :=
  match e.copy with
  | none => e
  | some (row, k) =>
    match t.replicaOf row with
    | some (set, tier) =>
      let a := s.copyAt t set k
      if (e.granules.headD (0, 0)).1 = a then { e with granules := [(a, t.slot tier)], code := t.code tier } else e
    | none => e

/-- ROW_READ_RETURN (R115, R119): the row read at place k of a run's reads returns; an error is the command's. -/
def execRowReadReturn (dt id k : Nat) (s : State) : Host.Outcome State Fault Refusal :=
  let s := s.tick dt
  match s.run? id, s.cmd? id with
  | some r, some c =>
    match r.reads[k]? with
    | none => .next s
    | some e =>
      if e.values.isSome then .next s
      else
        let e := s.freshRead (s.table r.table) e
        match s.readCut ⟨.c0, some c.job⟩ e.granules with
        | (.bad code, s) => .next (s.execFault { s.cmdReport c code 4 with
            physical := (e.granules.headD (0, 0)).1 })
        | (.ok d, s) =>
          let e' : RowRead := { e with values := some (rowValues (s.table r.table).dim e.code d) }
          .next ((s.setRun { r with reads := setAt r.reads k e' }).advanceLookup c)
  | _, _ => .next s

/-! ### Slices that arrive (R125, R126, R129) -/

/-- The run that owns an exchange on a channel, with its command. -/
def State.exchangeRun (s : State) (ch n number : Nat) : Option (LookupRun × Cmd) :=
  s.lookups.findSome? (fun r =>
    match s.cmd? r.cmd with
    | some c =>
      if c.isSharded && r.number = n && c.exchangeNo = number && c.lookupChannel = ch && s.holdsChannel ch .lookup c.id then
        some (r, c)
      else none
    | none => none)

/-- Fields of a slice. -/
def sliceNumber (b : Bytes) : Nat := fieldLe b 0 2
def sliceTable (b : Bytes) : Nat := bits (fieldLe b 2 2) 9 0
def sliceChip (b : Bytes) : Nat := bits (fieldLe b 4 2) 11 0

/-- The default row that a command holds, read now if it has not been (R130). -/
def State.takeDefault (s : State) (id : Nat) (t : Table) : List Nat × State :=
  match s.run? id with
  | some r => (r.heldDefault t, s.setRun { r with default := some (r.heldDefault t) })
  | none => (t.defaultValues, s)

/-- Serve one entry of a request slice: its value added to its bag's partial. The slice's own stamp governs, so the row is read from the
storage that the table number has now (R91, R102, R125, R128). -/
def State.serveEntry (s : State) (c : Cmd) (r : LookupRun) (row : Nat) (sum : List Nat) : Except Nat (List Nat) × State :=
  let t := s.table r.number
  if t.rows ≤ row then (.ok sum, s)
  else
    match s.rowSource ⟨.c0, some c.job⟩ r.number r.engine row with
    | (.bad e, s) => (.error e, s)
    | (.away, s) => (.ok sum, s)
    | (.default, s) =>
      let v := s.takeDefault c.id t
      (.ok (addRows sum v.1),
        (v.2.setTable r.number ((v.2.table r.number).countDefault (.row row))).bump (lookupKey r.engine 4) 1)
    | (.read pieces code _, s) =>
      match s.readCut ⟨.c0, some c.job⟩ pieces with
      | (.bad e, s) => (.error e, s)
      | (.ok d, s) => (.ok (addRows sum (rowValues t.dim code d)), s.countRow r.engine c.job d.length)

/-- Pool a request slice's entries in slice order, by bag in order of first appearance. -/
def State.serveEntries (s : State) (c : Cmd) (r : LookupRun) (dim : Nat) :
    List (Nat × Nat) → List (Nat × List Nat) → Except Nat (List (Nat × List Nat)) × State
  | [], l => (.ok l, s)
  | (row, bag) :: rest, l =>
    let sum := match l.find? (fun x => x.1 = bag) with
      | some x => x.2
      | none => List.replicate dim 0
    match s.serveEntry c r row sum with
    | (.error e, s) => (.error e, s)
    | (.ok v, s) =>
      let l := if l.any (fun x => x.1 = bag) then mapIf (fun x => x.1 = bag) (fun _ => (bag, v)) l else l ++ [(bag, v)]
      s.serveEntries c r dim rest l

/-- The return slice (R123). -/
def returnSlice (c : Cmd) (own dim : Nat) (l : List (Nat × List Nat)) : Bytes :=
  sliceHead c.exchangeNo c.tableNo own 0 l.length ++ List.replicate 16 0 ++
    l.flatMap (fun x => natLe 4 x.1 ++ x.2.flatMap (natLe 4)) ++
    (List.replicate (c.bagCapacity - l.length) (natLe 4 0xFFFFFFFF ++ List.replicate (4 * dim) 0)).flatten

/-- Serve a request slice for a run and hand its return slice to the channel (R125). -/
def State.serveSlice (s : State) (c : Cmd) (r : LookupRun) (slice : Bytes) : State :=
  let t := s.table r.number
  let chip := sliceChip slice
  let used := min (fieldLe slice 8 4) c.indexCapacity
  let entries := (List.range used).map (fun i => (fieldLe slice (32 + 12 * i) 8, fieldLe slice (40 + 12 * i) 4))
  match s.serveEntries c r t.dim entries [] with
  | (.error e, s) => s.cmdFault c e
  | (.ok l, s) =>
    let s := s.offer ⟨c.lookupChannel, chip, c.exchangeNo, 1, [], returnSlice c s.chip t.dim (l.take c.bagCapacity), c.job, false, s.now⟩
    let s := (s.bump (lookupKey r.engine 5) 1).bump (lookupKey r.engine 6) 1
    match s.run? c.id with
    | some r => (s.setRun { r with served := r.served ++ [chip] }).advanceLookup c
    | none => s

/-- The request slices that waited for a table's apply phase at this home are served once it is over, in the order of their arrival
(R164). -/
def State.serveWaiting (s : State) (n : Nat) : State :=
  (s.lookups.filter (fun r => r.number = n)).foldl (fun s r =>
    r.waiting.foldl (fun s slice =>
      match s.run? r.cmd, s.cmd? r.cmd with
      | some r, some c => (s.setRun { r with waiting := r.waiting.drop 1 }).serveSlice c { r with waiting := r.waiting.drop 1 } slice
      | _, _ => s) s) s

/-- A slice of a member has been served, or waits. -/
def LookupRun.has (r : LookupRun) (chip : Nat) : Bool := r.served.contains chip || r.waiting.any (fun b => sliceChip b = chip)

/-- REQUEST_SLICE_ARRIVE (R125): a request slice whose exchange runs here is served and a return slice is handed to the channel.
One of another size is discarded as late, as is one whose exchange has completed; one whose exchange is still ahead stays at its
sender. One that arrives while the apply phase of an epoch-consistent table runs waits here, untimed (R164, R343). -/
def execRequestSliceArrive (dt ch : Nat) (slice : Bytes) (s : State) : Host.Outcome State Fault Refusal :=
  let s := s.tick dt
  let n := sliceTable slice
  match s.exchangeRun ch n (sliceNumber slice) with
  | none => .next (if s.completedOn ch (sliceNumber slice) then s.countTable n 0x16 1 else s)
  | some (r, c) =>
    let t := s.table r.table
    let chip := sliceChip slice
    if slice.length ≠ 32 + 12 * c.indexCapacity || !(s.others t).contains chip || r.has chip then
      .next (s.countTable n 0x16 1)
    else if s.mustAwaitApply r.number s.now then
      .next ((s.setRun { r with waiting := r.waiting ++ [slice] }).setCmd { c with unwatched := true })
    else .next (s.serveSlice c r slice)

/-- RETURN_SLICE_ARRIVE (R126, R129): the partials of a member arrive, or the slice is discarded as late: after the timeout or the
completion of its exchange (notes/assumptions/93.md). -/
def execReturnSliceArrive (dt ch : Nat) (slice : Bytes) (s : State) : Host.Outcome State Fault Refusal :=
  let s := s.tick dt
  let n := sliceTable slice
  match s.exchangeRun ch n (sliceNumber slice) with
  | none => .next (s.countTable n 0x16 1)
  | some (r, c) =>
    let t := s.table r.table
    let chip := sliceChip slice
    let e := 4 + 4 * t.dim
    if slice.length ≠ 32 + c.bagCapacity * e || !(s.others t).contains chip || r.returned.contains chip || r.combined || r.timedOut then
      .next (s.countTable n 0x16 1)
    else
      let shard := ((List.range t.packages).find? (fun k => t.shardChip k = chip)).getD 0
      let parts := (List.range (min (fieldLe slice 12 4) c.bagCapacity)).map (fun j =>
        (shard, fieldLe slice (32 + j * e) 4, (List.range t.dim).map (fun k => fieldLe slice (36 + j * e + 4 * k) 4)))
      .next ((s.setRun { r with partials := r.partials ++ parts, returned := r.returned ++ [chip] }).advanceLookup c)

/-- EXCHANGE_TIMEOUT (R129): the timeout has passed since the stamp: missing members are counted, and bags are combined without
their partials. -/
def execExchangeTimeout (dt id : Nat) (s : State) : Host.Outcome State Fault Refusal :=
  let s := s.tick dt
  match s.run? id, s.cmd? id with
  | some r, some c =>
    if !c.isSharded || r.timedOut || s.now < r.deadline then .next s
    else
      let gone := ((s.others (s.table r.table)).filter (fun k => !r.returned.contains k)).length
      .next (((s.countTable r.number 0x15 gone).setRun { r with timedOut := true, missing := r.missing + gone }).advanceLookup c)
  | _, _ => .next s

end Sys2Proof.Machine
end

