-- ==== Sys2Proof/Machine/Update.lean ====
section
/-! DEFINITION. Updating tables: folding into merge entries, gradient pushes, the update exchange and train configure (R134 to
R151, R166 to R168). -/
namespace Sys2Proof.Machine

/-- Note the highest number of entries of a unit. -/
def State.noteEntries (s : State) (u : Nat) : State :=
  let n := (s.entriesOf u).length
  if s.num (unitKey u 4) < n then s.setNum (unitKey u 4) n else s

/-- Fold a contribution into its entry, opening one when there is none (R141, R144): false when it was discarded. What an exchange has
sealed of an outbound entry stays as it is: the sum of what comes after it is kept beside (R149,
notes/assumptions/122.md). -/
def State.fold (s : State) (u : Nat) (k : MergeEntry) : Bool × State :=
  let done (x : Bool × State) : Bool × State := if x.1 then (true, x.2.bump (unitKey u 1) 1) else x
  match (s.entriesOf u).find? (fun x => x.same k) with
  | some e =>
    match s.readEntryAt u e with
    | (false, s) => (false, s)
    | (true, s) =>
      let e' : MergeEntry := { e with
        sum := addRows e.sum k.sum
        since := if e.taken.isSome then some (addRows (e.since.getD (k.sum.map (fun _ => 0))) k.sum) else none }
      done ((s.setEntries u ((s.entriesOf u).filter (fun x => !x.same e) ++ [e'])).writeEntryAt u e')
  | none =>
    let size := (s.table k.table).entryBytes
    let s := State.makeRoom u size ((s.entriesOf u).length + 1) s
    let e : MergeEntry := { k with sum := addRows (k.sum.map (fun _ => 0)) k.sum, place := none }
    if s.areaUsed u + size ≤ s.mergeSize then done (true, (s.setEntries u (s.entriesOf u ++ [e])).noteEntries u)
    else
      match s.spillFree k.table u with
      | some a =>
        let e := { e with place := some a }
        done (((s.setEntries u (s.entriesOf u ++ [e])).noteEntries u).writeEntryAt u e)
      | none => (false, s.countTable k.table 0x106 1)

/-- Count a gradient row that a job delivered to a unit in an epoch (R58). -/
def State.noteDelivered (s : State) (u epoch job : Nat) : State :=
  let l := s.update.delivered
  let l := if l.any (fun d => d.1 = u ∧ d.2.1 = epoch ∧ d.2.2.1 = job) then
      mapIf (fun d => d.1 = u ∧ d.2.1 = epoch ∧ d.2.2.1 = job) (fun d => (d.1, d.2.1, d.2.2.1, d.2.2.2 + 1)) l
    else l ++ [(u, epoch, job, 1)]
  { s with update := { s.update with delivered := l } }

/-! ### Gradient push (R135 to R139) -/

def Cmd.gradFormat (c : Cmd) : Nat := bits (c.u8 18) 3 2
def Cmd.grouped (c : Cmd) : Bool := bit (c.u8 18) 4

/-- Bytes of a gradient row. -/
def gradBytes (d format : Nat) : Nat :=
  match format with
  | 0 => 4 * d
  | 1 => 2 * d
  | _ => d + 1

/-- The fields that R6 checks. R135 states no alignment of the lists and the gradients. -/
def Cmd.pushOk (c : Cmd) (t : Table) : Bool :=
  t.trainable && bits (c.u8 18) 1 0 < 2 && c.gradFormat < 3 && c.u16 22 % 4 = 0 && gradBytes t.dim c.gradFormat ≤ c.u16 22 &&
  c.u64 56 % 32 = 0

/-- Widen a gradient row to FP32 (R137); none when it is rejected. -/
def widenRow (d format : Nat) (b : Bytes) : Option (List Nat) :=
  let vals := match format with
    | 0 => (List.range d).map (fun k => fieldLe b (4 * k) 4)
    | 1 => (List.range d).map (fun k => fieldLe b (2 * k) 2 * 65536)
    | _ => (List.range d).map (fun k =>
        Fmt.fp32.encode ((Fmt.e5m2.decode (fieldLe b k 1)).scale (toSigned 8 (fieldLe b d 1))))
  let raw := match format with
    | 2 => (List.range d).any (fun k => (Fmt.e5m2.decode (fieldLe b k 1)).nonFinite) ||
        100 < (toSigned 8 (fieldLe b d 1)).natAbs
    | _ => vals.any f32NonFinite
  if raw then none else some vals

/-- The positions and gradient rows of a push, in ascending position and, within one, ascending bag (R136). -/
def pushPairs (c : Cmd) (offsets : List Nat) : List (Nat × Nat) :=
  if c.grouped then
    sortBy (fun x => x.1) ((List.range c.bags).flatMap (fun b =>
      (rangeFrom (offsets.getD b 0) (offsets.getD (b + 1) 0 - offsets.getD b 0)).map (fun p => (p, b))))
  else (List.range c.bags).map (fun i => (i, i))

/-- Malformed bags of an offset list (R111). -/
def malformedBags : List Nat → Nat
  | a :: b :: rest => (if b < a then 1 else 0) + malformedBags (b :: rest)
  | _ => 0

/-- What a push comes to: contribution by row number in order of first appearance, default indices, and rejected rows. -/
structure PushSums where
  sums : List (Nat × List Nat)
  defaults : Nat
  rejected : List Nat
  deriving DecidableEq, Repr

/-- Add one index of a push: row number (none for the default row), gradient row and its value. -/
def PushSums.add (x : PushSums) (dim : Nat) (row : Option Nat) (g : Nat) (v : Option (List Nat)) : PushSums :=
  let x := if v.isNone then { x with rejected := insertAsc g x.rejected } else x
  match row, v with
  | none, _ => { x with defaults := x.defaults + 1 }
  | some _, none => x
  | some r, some v =>
    if x.sums.any (fun y => y.1 = r) then { x with sums := mapIf (fun y => y.1 = r) (fun y => (r, addRows y.2 v)) x.sums }
    else { x with sums := x.sums ++ [(r, addRows (List.replicate dim 0) v)] }

/-- The unit and entry key of a row's contribution (R140, R141). -/
def State.contributionOf (s : State) (c : Cmd) (n : Nat) (x : Nat × List Nat) : Contribution :=
  let t := s.table n
  match s.homeRow t x.1 with
  | some b => ⟨s.owner t b, n, b, true, s.epoch, c.job, c.id, x.2⟩
  | none => ⟨s.owner t (t.place x.1).2, n, x.1, false, s.epoch, c.job, c.id, x.2⟩

/-- The summary record of R139. -/
def pushSummary (r : PushRun) : Bytes :=
  natLe 2 (if r.refused then 1 else 0) ++ natLe 2 0 ++ natLe 4 r.contributions ++ natLe 4 r.defaults ++ natLe 4 r.rejected ++
    natLe 4 r.overflow ++ natLe 4 r.malformed ++ natLe 8 r.stamp

/-- End a push or exchange: the summary, then the command is finished. -/
def State.endRun (s : State) (c : Cmd) (record : Bytes) : State :=
  let fin (s : State) : State :=
    ({ s with update := { s.update with runs := s.update.runs.filter (fun r => r.cmd ≠ c.id) } } : State).setCmd
      { c with phase := .finished }
  if c.u64 56 = 0 then fin s
  else
    match s.writeVa applyAccess c (c.u64 56) record with
    | (.ok _, s) => fin s
    | (.bad e, s) => s.cmdFault c e

/-- A run of a command that has just been stamped. -/
def State.newRun (s : State) (c : Cmd) (u n : Nat) (exchange : Bool) : PushRun :=
  { cmd := c.id, unit := u, table := n, exchange := exchange, number := 0, refused := false, handed := false, stamp := s.now,
    epoch := s.epoch,
    deadline := s.now + s.num (objKey 0x2310 1) * 1000, contributions := 0, defaults := 0, rejected := 0, overflow := 0,
    malformed := 0, sent := 0, left := 0, received := 0, missing := 0, heard := [] }

def State.setPush (s : State) (r : PushRun) : State :=
  { s with update := { s.update with runs := mapIf (fun x => x.cmd = r.cmd) (fun _ => r) s.update.runs } }

/-- Admit or refuse a push whose lists and gradients have been read (R138). -/
def State.admitPush (s : State) (c : Cmd) (u : Nat) (x : PushSums) (malformed : Nat) : State :=
  let n := c.tableNo
  let r := s.newRun c u n false
  if c.u32 48 ≤ Map.get 0 s.update.sequences n then (s.countTable n 0x102 1).endRun c (pushSummary { r with refused := true })
  else
    let s := (((s.countTable n 0x101 1).countTable n 0x104 x.defaults).countTable n 0x105 x.rejected.length).countTable n
      0x17 malformed
    { s.setCmd { c with armed := true } with
      update := { s.update with
        sequences := Map.set 0 s.update.sequences n (c.u32 48)
        deliveries := s.update.deliveries ++ x.sums.map (s.contributionOf c n)
        runs := s.update.runs ++ [{ r with defaults := x.defaults, rejected := x.rejected.length, malformed := malformed }] } }

/-- Read a list of positions' indices and gradient rows and sum them; the first bus error ends it. -/
def State.readPush (s : State) (c : Cmd) (t : Table) : List (Nat × Nat) → PushSums → Except Nat PushSums × State
  | [], x => (.ok x, s)
  | (pos, g) :: rest, x =>
    let acc : Access := ⟨.c2, some c.job⟩
    match s.readVa acc c (c.u64 24 + pos * c.indexWidth) c.indexWidth with
    | (.bad e, s) => (.error e, s)
    | (.ok i, s) =>
      match s.readVa acc c (c.u64 40 + g * c.u16 22) (gradBytes t.dim c.gradFormat) with
      | (.bad e, s) => (.error e, s)
      | (.ok b, s) =>
        let i := if c.indexWidth = 8 then leNat i else ofSigned 64 (toSigned 32 (leNat i))
        let row := match t.resolve i with
          | .row r => some r
          | _ => none
        s.readPush c t rest (x.add t.dim row g (widenRow t.dim c.gradFormat b))

/-- A push with its offsets read: its index list and gradients are translated, read and admitted. -/
def State.pushBody (s : State) (c : Cmd) (u : Nat) (offsets : List Nat) : State :=
  let t := s.table c.tableNo
  let list := if !c.grouped then [(c.u64 24, c.bags * c.indexWidth, false)] else c.listRange offsets
  let grads := (c.u64 40, (c.bags - 1) * c.u16 22 + gradBytes t.dim c.gradFormat, false)
  match s.needRanges c ⟨.rowMerge, u⟩ (grads :: list) with
  | .wait s => s
  | .fault s => s
  | .ready s c =>
    if (grads :: list).any (fun r => !s.localRange c r.1 r.2.1) then s.illegal c
    else
      match s.readPush c t (pushPairs c offsets) ⟨[], 0, []⟩ with
      | (.error e, s) => s.cmdFault c e
      | (.ok x, s) => s.admitPush c u x (malformedBags offsets)

/-- Start a push: fields, summary and offsets. -/
def State.startPush (s : State) (c : Cmd) (u : Nat) : State :=
  let t := s.table c.tableNo
  if !s.tableReady c.tableNo || !c.pushOk t then s.illegal c
  else
    let off := if c.grouped then [(c.u64 32, 4 * (c.bags + 1), false)] else []
    let sum := if c.u64 56 = 0 then [] else [(c.u64 56, 32, true)]
    match s.needRanges c ⟨.rowMerge, u⟩ (off ++ sum) with
    | .wait s => s
    | .fault s => s
    | .ready s c =>
      if off.any (fun r => !s.localRange c r.1 r.2.1) || sum.any (fun r => !s.sramRange c r.1 r.2.1) then s.illegal c
      else if !c.grouped then s.pushBody c u []
      else
        match s.readVa ⟨.c2, some c.job⟩ c (c.u64 32) (4 * (c.bags + 1)) with
        | (.bad e, s) => s.cmdFault c e
        | (.ok d, s) =>
          let offsets := (List.range (c.bags + 1)).map (fun i => fieldLe d (4 * i) 4)
          if 16777216 < offsets.getD c.bags 0 - offsets.headD 0 then s.illegal c else s.pushBody c u offsets

/-- GRADIENT_PUSH (R135 to R139): the started push of a row-merge unit is admitted or refused, and once its contributions have
been delivered its summary is written. -/
def execGradientPush (dt u : Nat) (s : State) : Host.Outcome State Fault Refusal :=
  let s := s.tick dt
  match s.engineCmd? ⟨.rowMerge, u⟩ 0x90 with
  | none => .next s
  | some c =>
    match s.update.runs.find? (fun r => r.cmd = c.id) with
    | none => .next (s.startPush c u)
    | some r =>
      if s.update.deliveries.any (fun d => d.cmd = c.id) then .next s else .next (s.endRun c (pushSummary r))

/-- CONTRIBUTION_FOLD (R141): the next contribution on its way to a unit is delivered and folded. R138 orders the pushes of one table
only; contributions of different tables, or of pushes that no rule orders, reach a unit in the order of admission, which is
the model's choice (notes/assumptions/123.md). -/
def execContributionFold (dt u : Nat) (s : State) : Host.Outcome State Fault Refusal :=
  let s := s.tick dt
  match s.update.deliveries.find? (fun d => d.unit = u) with
  | none => .next s
  | some d =>
    let s : State := { s with update := { s.update with deliveries := s.update.deliveries.erase d } }
    let t := s.table d.table
    let k : MergeEntry :=
      if d.home then ⟨d.table, .home, d.epoch, s.chip, d.row, d.values, none, none, none⟩
      else ⟨d.table, .outbound, 0, t.shardChip (t.place d.row).1, d.row, d.values, none, none, none⟩
    let x := s.fold u k
    let s := (x.2.countTable d.table 0x103 1).noteDelivered u d.epoch d.job
    .next { s with update := { s.update with
      runs := mapIf (fun r => r.cmd = d.cmd)
        (fun r => { r with contributions := r.contributions + 1, overflow := r.overflow + (if x.1 then 0 else 1) }) s.update.runs } }

/-! ### Update exchange (R146 to R150) -/

def Cmd.updateNo (c : Cmd) : Nat := c.u16 20
def Cmd.updateCapacity (c : Cmd) : Nat := c.u16 22
def Cmd.updateChannel (c : Cmd) : Nat := bits (c.u8 24) 3 0

/-- Outbound entries of a table over all units, with their units, in ascending row number. -/
def State.outbound (s : State) (n : Nat) : List (Nat × MergeEntry) :=
  sortBy (fun x => x.2.row) (s.update.entries.flatMap (fun (e : Nat × List MergeEntry) =>
    (e.2.filter (fun m => m.table = n && m.kind = .outbound)).map (fun m => (e.1, m))))

/-- An update slice of rows and their sums (R148). -/
def updateSlice (number n own epoch : Nat) (l : List (Nat × List Nat)) : Bytes :=
  natLe 2 number ++ natLe 2 n ++ natLe 2 own ++ natLe 2 0 ++ natLe 4 l.length ++ natLe 4 0 ++ natLe 8 epoch ++ natLe 8 0 ++
    l.flatMap (fun e => natLe 8 e.1 ++ e.2.flatMap (natLe 4))

/-- The entries of a table that a command has sealed, with their units and the sums sealed. -/
def State.sealedBy (s : State) (n cmd : Nat) : List (Nat × MergeEntry × List Nat) :=
  (s.outbound n).filterMap (fun x => match x.2.taken with
    | some (id, sum) => if id = cmd then some (x.1, x.2, sum) else none
    | none => none)

/-- Seal the outbound entries of a table: for each destination those homed there, in ascending row number up to the capacity, are the
command's from now on, and the others stay (R149). -/
def State.sealEntries (s : State) (c : Cmd) (r : PushRun) : State :=
  let n := r.table
  -- spilled entries are read as they are sealed; one that fails is lost
  let s := (s.outbound n).foldl (fun s x => (s.readEntryAt x.1 x.2).2) s
  let open_ := (s.outbound n).filter (fun x => x.2.taken.isNone)
  let chosen := (s.others (s.table n)).flatMap (fun k => (open_.filter (fun x => x.2.chip = k)).take c.updateCapacity)
  let s := chosen.foldl (fun s x =>
    s.setEntries x.1 (mapIf (fun m => m.same x.2) (fun m => { m with taken := some (c.id, m.sum), since := none }) (s.entriesOf x.1))) s
  s.setPush { r with sent := chosen.length, left := open_.length - chosen.length }

/-- An entry gives up what was sealed of it: it goes, or goes on with what has come since. -/
def State.giveSealed (s : State) (u : Nat) (e : MergeEntry) : State :=
  match e.since with
  | none => (s.dropEntry u e).settleArea u
  | some v =>
    let e' : MergeEntry := { e with sum := v, taken := none, since := none }
    ((s.setEntries u (mapIf (fun m => m.same e) (fun _ => e') (s.entriesOf u))).writeEntryAt u e').2

/-- Hand each other member its slice of what was sealed (R149). -/
def State.handSlices (s : State) (c : Cmd) (r : PushRun) : State :=
  let n := r.table
  let mine := s.sealedBy n c.id
  let s := mine.foldl (fun s x => s.giveSealed x.1 x.2.1) s
  let s := (s.others (s.table n)).foldl (fun s k =>
    let l := (mine.filter (fun x => x.2.1.chip = k)).map (fun x => (x.2.1.row, x.2.2))
    s.offer ⟨c.updateChannel, k, c.updateNo, 0, [], updateSlice c.updateNo n s.chip r.epoch l, c.job, false, s.now⟩) s
  ((s.countTable n 0x10C r.left).setPush { r with handed := true }).setCmd { c with unwatched := false }

/-- The summary record of R147. -/
def exchangeSummary (r : PushRun) : Bytes :=
  natLe 4 r.sent ++ natLe 4 r.left ++ natLe 4 r.received ++ natLe 2 (min r.missing 65535) ++ natLe 10 0 ++ natLe 8 r.stamp

/-- The exchanges that have completed, once one of a channel and number has: numbers that are ahead of it now are those to come (R364). -/
def exchangesWith (l : List (Nat × Nat × Nat × Nat)) (ch n number job : Nat) : List (Nat × Nat × Nat × Nat) :=
  (ch, n, number, job) :: l.filter (fun x => x.1 ≠ ch || (notAhead x.2.2.1 number && !(x.2.1 = n && x.2.2.1 = number)))

/-- End an exchange. -/
def State.endExchange (s : State) (c : Cmd) (r : PushRun) : State :=
  let s := s.freeChannel c.updateChannel .update c.id
  let s : State := { s with update := { s.update with
    exchanges := exchangesWith s.update.exchanges c.updateChannel r.table c.updateNo c.job } }
  s.endRun c (exchangeSummary r)

/-- End an exchange whose timeout has passed (R150, R363): members whose slice has not come are counted. One that had no channel yet leaves
every sealed entry outbound. -/
def State.expireExchange (s : State) (c : Cmd) (r : PushRun) : State :=
  let n := r.table
  let gone := ((s.others (s.table n)).filter (fun k => !r.heard.contains k)).length
  let s := s.countTable n 0x10F gone
  if r.handed then s.endExchange c { r with missing := gone }
  else
    let r := { r with left := r.left + r.sent, sent := 0, missing := gone }
    let s := (s.sealedBy n c.id).foldl (fun s x =>
      s.setEntries x.1 (mapIf (fun m => m.same x.2.1) (fun m => { m with taken := none, since := none }) (s.entriesOf x.1))) s
    ((s.leaveChannel c.updateChannel .update c.id).countTable n 0x10C r.left).endExchange c r

/-- Every slice has been handed over, and every other member's has come (R150). -/
def State.exchangeDone (s : State) (c : Cmd) (r : PushRun) : Bool :=
  r.handed && (s.others (s.table r.table)).all (fun k => r.heard.contains k) &&
  !s.fabric.outgoing.any (fun o => o.channel = c.updateChannel && o.number = c.updateNo && o.index = 0 && !o.chunk)

/-- A stamped exchange hands its slices over once its channel is its own, and waits for it untimed until then (R343, R363). -/
def State.handExchange (s : State) (c : Cmd) (r : PushRun) : State :=
  if c.scratch.headD 0 = 1 then s.expireExchange c r
  else if s.holdsChannel c.updateChannel .update c.id then s.handSlices c r
  else (s.askChannel c.updateChannel .update c.updateNo c.id).setCmd { c with unwatched := true }

/-- The run begins: stamped, and its entries sealed at that instant (R149). -/
def State.stampExchange (s : State) (c : Cmd) (u : Nat) : State :=
  let r : PushRun := { s.newRun c u c.tableNo true with number := c.updateNo }
  let c := { c with armed := true }
  let s := ({ s.setCmd c with update := { s.update with runs := s.update.runs ++ [r] } } : State).sealEntries c r
  match s.update.runs.find? (fun r => r.cmd = c.id) with
  | some r => s.handExchange c r
  | none => s

/-- Start an exchange: fields, the summary's page, and the stamp. R147 gives the summary record 32 bytes and no alignment; that an address
which is no multiple of 32 is illegal, as R110 and R135 have it, is the model's choice (notes/assumptions/124.md). -/
def State.startExchange (s : State) (c : Cmd) (u : Nat) : State :=
  if !s.tableReady c.tableNo || c.updateCapacity = 0 || c.u64 56 % 32 ≠ 0 then s.illegal c
  else
    let sum := if c.u64 56 = 0 then [] else [(c.u64 56, 32, true)]
    match s.needRanges c ⟨.rowMerge, u⟩ sum with
    | .wait s => s
    | .fault s => s
    | .ready s c =>
      if sum.any (fun r => !s.sramRange c r.1 r.2.1) then s.illegal c
      else s.stampExchange c u

/-- UPDATE_EXCHANGE (R149, R150): the started exchange of a row-merge unit is stamped and sealed, takes its channel, sends, and
completes once every slice has gone and come. -/
def execUpdateExchange (dt u : Nat) (s : State) : Host.Outcome State Fault Refusal :=
  let s := s.tick dt
  match s.engineCmd? ⟨.rowMerge, u⟩ 0x91 with
  | none => .next s
  | some c =>
    match s.update.runs.find? (fun r => r.cmd = c.id) with
    | none => .next (s.startExchange c u)
    | some r =>
      .next (if !r.handed then s.handExchange c r else if s.exchangeDone c r then s.endExchange c r else s)

/-- The exchange of a channel, table and number that has started here. -/
def State.updateRun (s : State) (ch n number : Nat) : Option PushRun :=
  s.update.runs.find? (fun r => r.exchange && r.table = n && r.number = number &&
    (s.cmd? r.cmd).any (fun c => c.updateChannel = ch))

/-- Fold the entries of an update slice into the source chip's home entries (R141, R149). -/
def State.foldSlice (s : State) (n chip job used : Nat) (slice : Bytes) : State :=
  let d := (s.table n).dim
  (List.range used).foldl (fun s j =>
    let row := fieldLe slice (32 + j * (8 + 4 * d)) 8
    let v := (List.range d).map (fun k => fieldLe slice (40 + j * (8 + 4 * d) + 4 * k) 4)
    match s.homeRow (s.table n) row with
    | some b =>
      let u := s.owner (s.table n) b
      ((s.fold u ⟨n, .home, s.epoch, chip, b, v, none, none, none⟩).2).noteDelivered u s.epoch job
    | none => s) s

/-- The job of the command by which this package has reached a number on a channel (R150): the one that completed it, or the first found
that has started or completed a later one; none when the number has not been reached. -/
def State.reachedBy (s : State) (ch n number : Nat) : Option Nat :=
  match s.update.exchanges.find? (fun x => x.1 = ch ∧ x.2.1 = n ∧ x.2.2.1 = number) with
  | some x => some x.2.2.2
  | none =>
    ((s.update.runs.filterMap (fun r => (s.cmd? r.cmd).filter (fun c => r.exchange && c.updateChannel = ch && notAhead number r.number))).map
      (fun c => c.job) ++
      (s.update.exchanges.filter (fun x => x.1 = ch && notAhead number x.2.2.1)).map (fun x => x.2.2.2)).head?

/-- UPDATE_SLICE_ARRIVE (R149, R150): a slice of an exchange that has started here, or whose number this package has passed, folds on
arrival, the latter counted as late; one whose number it has not reached stays at its sender. A slice of a table that is not
trainable here is discarded. -/
def execUpdateSliceArrive (dt ch : Nat) (slice : Bytes) (s : State) : Host.Outcome State Fault Refusal :=
  let s := s.tick dt
  let n := sliceTable slice
  let number := sliceNumber slice
  let chip := sliceChip slice
  let t := s.table n
  if t.state ≠ .ready || !t.trainable then .next s
  else
    let used := min (fieldLe slice 8 4) ((slice.length - 32) / (8 + 4 * t.dim))
    let skew (s : State) : State := if fieldLe slice 16 8 = s.epoch then s else s.countTable n 0x10E 1
    match s.updateRun ch n number with
    | some r =>
      if r.heard.contains chip then .next s
      else
        let s := skew (s.foldSlice n chip ((s.cmd? r.cmd).map (fun c => c.job) |>.getD 0) used slice)
        .next (s.setPush { r with received := r.received + used, heard := r.heard ++ [chip] })
    | none =>
      match s.reachedBy ch n number with
      | some j => .next (skew ((s.foldSlice n chip j used slice).countTable n 0x10D 1))
      | none => .next s

/-- UPDATE_EXCHANGE_TIMEOUT (R150): the timeout has passed since the stamp: missing members are counted and the command ends. -/
def execUpdateExchangeTimeout (dt u : Nat) (s : State) : Host.Outcome State Fault Refusal :=
  let s := s.tick dt
  match s.engineCmd? ⟨.rowMerge, u⟩ 0x91 with
  | none => .next s
  | some c =>
    match s.update.runs.find? (fun r => r.cmd = c.id) with
    | none => .next s
    | some r =>
      .next (if s.now < r.deadline then s else s.expireExchange c r)

/-! ### Train configure (R166, R167) -/

/-- Finite and at least +0.0. -/
def f32NonNegative (v : Nat) : Bool := v < 0x7F800000

/-- The learning rate, epsilon, budget and spill length within their ranges. -/
def Cmd.trainOk (c : Cmd) : Bool :=
  f32NonNegative (c.u32 20) && f32NonNegative (c.u32 24) && c.u32 24 ≠ 0 && 100 ≤ c.u32 28 && c.u32 28 ≤ 44999999 &&
  (!bit (c.u8 18) 0 || bits (c.u64 40) 63 48 % 32 = 0)

/-- Train configure with its status address translated. -/
def State.trainConfigure (s : State) (c : Cmd) : State :=
  let n := c.tableNo
  let t := s.table n
  if !c.trainOk then s.adminEnd c 2 0
  else if 3 * s.num (objKey 0x2100 1) ≤ 4 * c.u32 28 then s.adminEnd c 0x0B 0
  else
    let set (t : Table) : Table := { t with
      rate := c.u32 20, epsilon := c.u32 24, budget := c.u32 28, channel := bits (c.u8 19) 3 0 }
    if !bit (c.u8 18) 0 then (s.setTable n (set t)).adminEnd c 0 0
    else
      let vas := (List.range (bits (c.u64 40) 63 48)).map (fun i => bits (c.u64 40) 47 21 * 0x200000 + i * 0x200000)
      match s.resolvePages c.job vas with
      | (.fault d va, s) => s.pageFault c d va
      | (.notMapped, s) => s.adminEnd c 4 0
      | (.pages l, s) =>
        let others := (s.setTable n { t with spill := [] }).tablePages
        if !distinct l || l.any (fun p => others.contains p) then s.adminEnd c 4 0
        else if l ≠ t.spill && s.spilledOf n ≠ 0 then s.adminEnd c 0x0D 0
        else (s.setTable n { set t with spill := l }).adminEnd c 0 0

/-- TRAIN_CONFIGURE (R166): the started train configure of a row-merge unit. -/
def execTrainConfigure (dt u : Nat) (s : State) : Host.Outcome State Fault Refusal :=
  let s := s.tick dt
  match s.engineCmd? ⟨.rowMerge, u⟩ 0x92 with
  | none => .next s
  | some c =>
    if !s.tableReady c.tableNo || !(s.table c.tableNo).trainable || c.u64 56 % 16 ≠ 0 || bits (c.u64 40) 20 0 ≠ 0 then
      .next (s.illegal c)
    else
      match s.needRanges c ⟨.rowMerge, u⟩ (statusRange (c.u64 56)) with
      | .wait s => .next s
      | .fault s => .next s
      | .ready s c => if s.statusOk c then .next (s.trainConfigure c) else .next (s.illegal c)

end Sys2Proof.Machine
end

