-- ==== Sys2Proof/Machine/Apply.lean ====
section
/-! DEFINITION. The apply phase: combining gradients, optimiser steps, moves, refreshes, budgets, and the end of the phase (R87 to
R89, R142, R151 to R161, R418). -/
namespace Sys2Proof.Machine

/-! ### Optimisers (R152, R153) -/

/-- An FP32 pattern is a NaN or an infinity. -/
def badF32 (x : Nat) : Bool := f32NonFinite x

/-- The value of a state code and shift as FP32 (R153). -/
def stateValue (q : Nat) (s : Int) : Nat := Fmt.fp32.encode ((FV.ofInt q).scale s)

/-- The shift of new accumulators, and whether even the greatest does not fit (R153): the least s from −128 to 127 for which
A × 2⁻ˢ rounds to at most 255. -/
def stateShift (a : Nat) : Int × Bool :=
  if (Fmt.fp32.decode a).isZero then (0, false)
  else
    match (List.range 256).find? (fun (i : Nat) => ((Fmt.fp32.decode a).scale (128 - (i : Int))).toInt ≤ 255) with
    | some i => ((i : Int) - 128, false)
    | none => (127, true)

/-- The greatest of a list of non-negative FP32 patterns. -/
def maxF32 (l : List Nat) : Nat := l.foldl max 0

/-- A code of an accumulator. -/
def stateCode (s : Int) (a : Nat) : Nat := (min 255 ((Fmt.fp32.decode a).scale (-s)).toInt).toNat

/-- Encode accumulators: codes after the shift, and whether they saturated. A row-wise state is one code then the shift; an
element-wise state is the shift, zero, the codes, and zeros. -/
def encodeState (optimiser size : Nat) (acc : List Nat) : Bytes × Bool :=
  let k := stateShift (maxF32 acc)
  let codes := acc.map (stateCode k.1)
  if optimiser = 2 then (natLe 1 (codes.headD 0) ++ natLe 1 (ofSigned 8 k.1), k.2)
  else (padTo size (natLe 1 (ofSigned 8 k.1) ++ natLe 1 0 ++ codes.flatMap (natLe 1)), k.2)

/-- The accumulators that a row's state holds. -/
def decodeState (optimiser dim : Nat) (b : Bytes) : List Nat :=
  match optimiser with
  | 2 => [stateValue (fieldLe b 0 1) (toSigned 8 (fieldLe b 1 1))]
  | 3 => (List.range dim).map (fun k => stateValue (fieldLe b (2 + k) 1) (toSigned 8 (fieldLe b 0 1)))
  | _ => []

/-- One optimiser step on a row: new elements and accumulators; none when an intermediate value is not finite (R154). -/
def optimise (optimiser rate epsilon : Nat) (w g acc : List Nat) : Option (List Nat × List Nat) :=
  let d := w.length
  match optimiser with
  | 1 =>
    let p := g.map (f32Mul rate)
    let w' := List.zipWith f32Sub w p
    if (p ++ w').any badF32 then none else some (w', [])
  | 2 =>
    let sq := g.map (fun x => f32Mul x x)
    let m := sq.foldl f32Add 0
    let m' := f32Div m (f32OfNat d)
    let a := f32Add (acc.headD 0) m'
    let r := f32Sqrt a
    let v := f32Add r epsilon
    let q := g.map (fun x => f32Div x v)
    let p := q.map (f32Mul rate)
    let w' := List.zipWith f32Sub w p
    if (sq ++ [m, m', a, r, v] ++ q ++ p ++ w').any badF32 then none else some (w', [a])
  | _ =>
    let sq := g.map (fun x => f32Mul x x)
    let a := List.zipWith f32Add acc sq
    let r := a.map f32Sqrt
    let v := r.map (fun x => f32Add x epsilon)
    let q := List.zipWith f32Div g v
    let p := q.map (f32Mul rate)
    let w' := List.zipWith f32Sub w p
    if (sq ++ a ++ r ++ v ++ q ++ p ++ w').any badF32 then none else some (w', a)

/-! ### Work of a unit (R142, R157) -/

/-- Sealed and carried entries of a shard row on a unit in merge order: carried, then by source chip (R142). -/
def State.rowEntries (s : State) (u n b : Nat) : List MergeEntry :=
  let mine := (s.entriesOf u).filter (fun e => e.table = n && e.row = b)
  mine.filter (fun e => e.kind = .carried) ++
    sortBy (fun e => e.chip) (mine.filter (fun e => e.kind = .home && e.epoch < s.update.applyEpoch))

/-- The moves of a table whose rows a unit owns. -/
def State.movesOf (s : State) (u n : Nat) : List Move := (s.table n).moves.filter (fun m => s.owner (s.table n) m.row = u)

/-- Rows of a table that a unit has still to work on, ascending. -/
def State.rowsLeft (s : State) (u n : Nat) : List Nat :=
  let e := ((s.entriesOf u).filter (fun e => e.table = n && (e.kind = .carried || (e.kind = .home && e.epoch < s.update.applyEpoch)))).map
    (fun e => e.row)
  (e ++ (s.movesOf u n).map (fun m => m.row)).foldl (fun l b => insertAsc b l) []

/-- Read the row's entries and combine them; entries that are lost contribute nothing. All of them are freed. -/
def State.takeGradient (s : State) (u n b : Nat) : Option (List Nat) × State :=
  (s.rowEntries u n b).foldl (fun (x : Option (List Nat) × State) e =>
    match x.2.readEntryAt u e with
    | (false, s) => (x.1, s)
    | (true, s) =>
      (some (addRows (x.1.getD (List.replicate (s.table n).dim 0)) e.sum), s.dropEntry u e)) (none, s)

/-- Add a row write of the apply phase to the sums of the digest groups that list its table (R418). -/
def State.digestRow (s : State) (n b tier : Nat) (slot state : Bytes) : State :=
  (List.range 8).foldl (fun s g =>
    let v := Map.get DigestGroup.init s.integ.groups g
    let tables := (List.range 16).map (fun i => fieldLe (s.blob (objKey (0x4050 + g) 3)) (2 * i) 2)
    if !v.active || s.update.applyEpoch ≤ v.epoch then s
    else
      (tables.zipIdx.filter (fun x => x.1 = n)).foldl (fun s x =>
        let h := leNat (sha512t256 (natLe 1 x.2 ++ natLe 8 b ++ natLe 8 s.update.applyEpoch ++ natLe 1 tier ++ slot ++ state))
        let v := Map.get DigestGroup.init s.integ.groups g
        let sums := setAt (padSums v.sums) x.2 (((padSums v.sums).getD x.2 0 + h) % 2 ^ 256)
        { s with integ := { s.integ with groups := Map.set DigestGroup.init s.integ.groups g { v with sums := sums } } }) s) s
where
  /-- Sums of 16 tables and 8 regions. -/
  padSums (l : List Nat) : List Nat := l ++ List.replicate (24 - l.length) 0

/-- Remove the move decided for a row, giving back nothing. -/
def State.clearMove (s : State) (n b : Nat) : State :=
  let t := s.table n
  s.setTable n { t with moves := t.moves.filter (fun m => m.row ≠ b) }

/-- The move decided for a row, carried out without an update. -/
def State.doMove (s : State) (u n b : Nat) (m : Option Move) : State :=
  match m with
  | some m => s.moveRowTo u n b m.dest m.slot
  | none => s

/-- The stored value and state of a row before its step: elements, accumulators' bytes, tier and slot (R152). -/
def State.rowBefore (s : State) (n b : Nat) : Except Nat (List Nat × Bytes × Nat × Nat) × State :=
  let t := s.table n
  match s.readEntry applyAccess t b with
  | (.error e, s) => (.error e, s)
  | (.ok (tier, slot), s) =>
    if tier = 3 then (.ok (t.defaultValues, List.replicate t.stateBytes 0, 3, 0), s)
    else
      match s.readSlot applyAccess t tier slot with
      | (.bad e, s) => (.error e, s)
      | (.ok d, s) =>
        if t.stateBytes = 0 then (.ok (rowValues t.dim (t.code tier) d, [], tier, slot), s)
        else
          match s.readCut applyAccess (t.statePieces b) with
          | (.bad e, s) => (.error e, s)
          | (.ok st, s) => (.ok (rowValues t.dim (t.code tier) d, st, tier, slot), s)

/-- The move of a row that its update does not carry out falls away, and its slot is given back: the row's tier is the move's already,
after a load, or the update is discarded and the stored row stays as it is (R89, R154, R155, notes/assumptions/30.md). -/
def State.dropMove (s : State) (n : Nat) (m : Option Move) : State :=
  match m with
  | some m => s.giveBack n m.dest m.slot
  | none => s

/-- Write a stepped row: state first, then the row in place or into its new slot, then copies and digests (R157 steps 3 to 5). -/
def State.storeStep (s : State) (u n b : Nat) (old : Nat × Nat) (dest slot : Nat) (row state : Bytes) : State :=
  let t := s.table n
  let fresh := (dest, slot) ≠ old
  let fail (s : State) (e : Nat) : State := (if fresh then s.giveBack n dest slot else s).applyBad u e
  let st := if t.stateBytes = 0 then (MemResult.ok [], s) else s.writeCut applyAccess (t.statePieces b) state
  match st with
  | (.bad e, s) => fail s e
  | (.ok _, s) =>
    let w := if fresh then s.writeMoved applyAccess n b dest slot row
      else match s.writeCut applyAccess (t.slotPieces dest slot) row with
        | (.ok _, s) => (none, s)
        | (.bad e, s) => (some e, s)
    match w with
    | (some e, s) => fail s e
    | (none, s) =>
      let s := if fresh && old.1 ≤ 2 then
          (s.setTable n ((s.table n).count (if dest < old.1 then 0x0C else 0x0D) 1)).releaseSlot n old.1 old.2
        else s
      let s := (s.countTable n 0x107 1).bump (unitKey u 2) 1
      let s := s.digestRow n b dest row state
      let r := s.rowNumber t b
      if (t.replicaOf r).isSome then s.refreshRow u n r b else s

/-- Step a row whose gradient is g (R152 to R155), its move, if any, being `m`. -/
def State.stepRow (s : State) (p : Part) (b : Nat) (g : List Nat) (m : Option Move) : State :=
  let u := p.unit
  let n := p.table
  let t := s.table n
  match s.rowBefore n b with
  | (.error e, s) => (s.dropMove n m).applyBad u e
  | (.ok (w, st, tier, slot), s) =>
    let (m, s) := if m.any (fun m => m.dest = tier) then (none, s.dropMove n m) else (m, s)
    match optimise t.optimiser p.rate p.epsilon w g (decodeState t.optimiser t.dim st) with
    | none => (s.countTable n 0x109 1).dropMove n m
    | some (w', acc) =>
      let dest := match m with
        | some m => m.dest
        | none => if tier = 3 then 2 else tier
      match encodeRow (t.code dest) w' with
      | none => (s.countTable n 0x10B 1).dropMove n m
      | some row =>
        let e := encodeState t.optimiser t.stateBytes acc
        let s' := if e.2 && t.stateBytes ≠ 0 then s.countTable n 0x10A 1 else s
        match m with
        | some m => s'.storeStep u n b (tier, slot) m.dest m.slot row e.1
        | none =>
          if tier = 3 then
            match s'.takeSlot n 2 with
            | some (k, s) => s.storeStep u n b (tier, slot) 2 k row e.1
            | none => s.countTable n 0x0F 1
          else s'.storeStep u n b (tier, slot) tier slot row e.1

/-- Work on one row of a part. -/
def State.applyOne (s : State) (p : Part) (b : Nat) : State :=
  let m := (s.table p.table).moves.find? (fun m => m.row = b)
  let s := s.clearMove p.table b
  match s.takeGradient p.unit p.table b with
  | (none, s) => s.doMove p.unit p.table b m
  | (some g, s) => (s.stepRow p b g m).settleArea p.unit

/-! ### The end of a part and of the phase (R158, R159, R58) -/

/-- Every end marker of every other member has come. -/
def State.markersHeld (s : State) (n : Nat) : Bool :=
  let t := s.table n
  !t.refreshes || (t.chips.filter (· ≠ s.chip)).all (fun c => (List.range 32).all (fun u => s.update.markers.contains (n, c, u)))

/-- Markers of a table still missing. -/
def State.markersMissing (s : State) (n : Nat) : Nat :=
  let t := s.table n
  if !t.refreshes then 0
  else ((t.chips.filter (· ≠ s.chip)).flatMap (fun c => (List.range 32).filter (fun u => !s.update.markers.contains (n, c, u)))).length

/-- Digest groups whose interval ends at the boundary that began this phase read their regions next (R418). -/
def State.digestsDue (s : State) : State :=
  (List.range 8).foldl (fun s g =>
    let v := Map.get DigestGroup.init s.integ.groups g
    let i := s.num (objKey (0x4050 + g) 6)
    if v.active && v.epoch < s.update.applyEpoch && i ≠ 0 && s.update.applyEpoch % i = 0 then
      let v : DigestGroup := { v with regionsPending := true, epoch := s.update.applyEpoch }
      { s with integ := { s.integ with groups := Map.set DigestGroup.init s.integ.groups g v } }
    else s) s

/-- When every part has ended, the apply phase ends: the object reads false, its duration is kept, its time is charged, and
epoch fences signal. -/
def State.endPhase (s : State) : State :=
  if s.update.parts.any (fun p => !p.ended) || !s.applyActive then s
  else
    let s := (s.setFlag applyKey false).setNum (objKey 0x2300 4) ((s.now - s.update.applyStart) / 1000 % 2 ^ 32)
    let s := (List.range 32).foldl State.chargeApply s
    let s : State := { s with update := { s.update with
      parts := [], markers := [], busy := [], busySince := []
      delivered := s.update.delivered.filter (fun d => s.update.applyEpoch ≤ d.2.1) } }
    s.digestsDue.signalEpochs

/-- Data of the refresh of a table. -/
def Outgoing.refreshes (o : Outgoing) (n : Nat) : Bool := o.isRefresh && fieldLe o.data 0 2 = n

/-- Refresh slots and end markers of a table that have not been handed to its channel. -/
def State.unsentRefresh (s : State) (n : Nat) : Bool := s.fabric.outgoing.any (fun o => o.refreshes n)

/-- A unit's refresh slots and end markers of a table that it has not handed to the channel are dropped at its budget (R159). -/
def State.dropRefresh (s : State) (n : Nat) : State :=
  { s with fabric := { s.fabric with outgoing := s.fabric.outgoing.filter (fun o => !o.refreshes n) } }

/-- Lookups that waited for a table's apply phase go on, timed by the watchdog again (R164, R343). -/
def State.wakeLookups (s : State) (n : Nat) : State :=
  let ids := (s.lookups.filter (fun r => r.table = n || r.number = n)).map (fun r => r.cmd)
  { s with cmds := mapIf (fun c => ids.contains c.id) (fun c => { c with unwatched := false }) s.cmds }

/-- When a table's last part has ended, its refresh channel is free, its lookups go on, and the slices that waited are served. -/
def State.endRefresh (s : State) (p : Part) : State :=
  if s.update.parts.any (fun q => q.table = p.table && !q.ended) then s
  else
    let s := (s.wakeLookups p.table).serveWaiting p.table
    if (s.table p.table).refreshes then
      (s.freeChannel p.channel .refresh p.table).leaveChannel p.channel .refresh p.table
    else s

def State.setPart (s : State) (p : Part) : State :=
  { s with update := { s.update with
      parts := mapIf (fun q => q.unit = p.unit && q.table = p.table) (fun _ => p) s.update.parts } }

/-- End every part of a table whose work is done once its own refreshes and markers have gone out and those of the others are held
(R158, R159). -/
def State.endParts (s : State) (n : Nat) : State :=
  if !s.markersHeld n || s.unsentRefresh n then s
  else
    let done := s.update.parts.filter (fun p => p.table = n && p.marked && !p.ended)
    (done.foldl (fun s p => (s.setPart { p with ended := true }).endRefresh p) s).endPhase

/-- The end marker of a unit for a table, to every other member (R159). -/
def State.sendMarkers (s : State) (p : Part) : State :=
  let t := s.table p.table
  if !t.refreshes then s
  else (t.chips.filter (· ≠ s.chip)).foldl (fun s c =>
    s.offer ⟨p.channel, c, s.update.applyEpoch % 65536, 3, [], natLe 2 p.table ++ natLe 1 1 ++ natLe 1 p.unit, 64, false, s.now⟩) s

/-- A unit has done its last row of a table: it carries out the changes and refreshes that fall to it, its markers go out, and the
part ends when the markers of others are held (R157, R159). -/
def State.finishPart (s : State) (p : Part) : State :=
  let s := (s.applyChanges p.table (some p.unit)).refreshDirty p.table p.unit
  ((s.sendMarkers p).setPart { p with marked := true }).endParts p.table

/-! ### The rows (R156 to R161) -/

/-- No lookup stamped before the boundary still reads the table, and every push of the epoch before has been delivered to the
unit; update slices fold as they arrive (R156). A listed table waits for the region reads of its group's last interval
(R418). -/
def State.partMayOpen (s : State) (p : Part) : Bool :=
  s.lookups.all (fun r => r.table ≠ p.table || s.update.applyStart ≤ r.stamp ||
    (r.reads.all (fun e => e.values.isSome) && r.offsets.length ≤ r.nextBag + 1)) &&
  s.update.deliveries.all (fun d => !(d.table = p.table && d.unit = p.unit && d.epoch < s.update.applyEpoch)) &&
  (List.range 8).all (fun g =>
    let v := Map.get DigestGroup.init s.integ.groups g
    !(v.active && v.regionsPending) ||
      !((List.range 16).any (fun i => fieldLe (s.blob (objKey (0x4050 + g) 3)) (2 * i) 2 = p.table)))

/-- APPLY_TABLE_START (R156): a table's part on a unit opens once the three conditions hold. -/
def execApplyTableStart (dt u n : Nat) (s : State) : Host.Outcome State Fault Refusal :=
  let s := s.tick dt
  match s.update.parts.find? (fun p => p.unit = u && p.table = n && !p.ended && !p.open_) with
  | none => .next s
  | some p =>
    if !s.partMayOpen p then .next s
    else
      let since := if (Map.find s.update.busySince u).isSome then s.update.busySince else Map.put s.update.busySince u (some s.now)
      .next (({ s with update := { s.update with busySince := since } } : State).setPart { p with open_ := true })

/-- The part a unit works on next: tables in ascending number from its turn on, then again from the lowest (R157); a row is
started only while 50 µs of the budget remain, and a table with none left may end until the budget does (R158). -/
def State.nextPart (s : State) (u : Nat) : Option Part :=
  let mine := sortBy (fun p => p.table) (s.update.parts.filter (fun p => p.unit = u && p.open_ && !p.marked && !p.ended &&
    (s.now + 50000 ≤ s.update.applyStart + p.budget * 1000 ||
      (s.rowsLeft u p.table = [] && s.now < s.update.applyStart + p.budget * 1000))))
  let from_ := Map.get 0 s.update.turns u
  match mine.find? (fun p => from_ ≤ p.table) with
  | some p => some p
  | none => mine.head?

/-- APPLY_ROW (R157): a unit works on the next row of its next table, or, when that table has none left, ends its part. A unit with
nothing left to work on ends the parts whose markers have gone out and come. -/
def execApplyRow (dt u : Nat) (s : State) : Host.Outcome State Fault Refusal :=
  let s := s.tick dt
  match s.nextPart u with
  | none => .next (((s.update.parts.filter (fun p => p.unit = u && p.marked && !p.ended)).map (fun p => p.table)).foldl
      State.endParts s)
  | some p =>
    let s := s.chargeUnit u
    let s : State := { s with update := { s.update with turns := Map.set 0 s.update.turns u (p.table + 1) } }
    match s.rowsLeft u p.table with
    | [] => .next (s.finishPart p)
    | b :: _ => .next (s.applyOne p b)

/-- The gradient of a row that was not reached becomes its carried entry, in the storage of the entries it replaces (R158). -/
def State.carryRow (s : State) (u n b : Nat) : State :=
  let old := s.rowEntries u n b
  let place := if old.any (fun e => e.place.isNone) then none else (old.head?).bind (fun e => e.place)
  match s.takeGradient u n b with
  | (none, s) => s
  | (some g, s) =>
    let e : MergeEntry := ⟨n, .carried, 0, 0, b, g, place, none, none⟩
    ((s.setEntries u (s.entriesOf u ++ [e])).writeEntryAt u e).2.countTable n 0x108 1

/-- The budget ends a part: rows not reached are carried, moves not reached are deferred, changes wait for the next phase. -/
def State.expirePart (s : State) (p : Part) : State :=
  let rows := (s.rowsLeft p.unit p.table).filter (fun b => s.rowEntries p.unit p.table b ≠ [])
  let s := rows.foldl (fun s b => s.carryRow p.unit p.table b) s
  let moves := s.movesOf p.unit p.table
  let s := moves.foldl (fun s m => ((s.clearMove p.table m.row).giveBack p.table m.dest m.slot).countTable p.table 0x0E 1) s
  let s := (s.settleArea p.unit).countTable p.table 0x111 1
  let s := (s.dropRefresh p.table).setPart { p with ended := true }
  if s.update.parts.any (fun q => q.table = p.table && !q.ended) then s
  else (s.countTable p.table 0x110 (s.markersMissing p.table)).endRefresh p

/-- APPLY_BUDGET_EXPIRE (R158): the update budget of a table's part on a unit has passed. -/
def execApplyBudgetExpire (dt u n : Nat) (s : State) : Host.Outcome State Fault Refusal :=
  let s := s.tick dt
  match s.update.parts.find? (fun p => p.unit = u && p.table = n && !p.ended) with
  | none => .next s
  | some p => if s.now < s.update.applyStart + p.budget * 1000 then .next s else .next (s.expirePart p).endPhase

/-- SLOT_RELEASE (R89, R94): slots and replica sets whose boundary has fallen return to their free lists, once every lookup of
the table stamped before it has completed. -/
def execSlotRelease (dt n : Nat) (s : State) : Host.Outcome State Fault Refusal :=
  let s := s.tick dt
  let t := s.table n
  let due := t.releases.filter (fun r => r.epoch ≤ s.epoch)
  if s.lookups.any (fun r => r.table = n && r.stamp < s.num (objKey 0x2100 5)) then .next s
  else
    let t := due.foldl (fun t r => t.freeNow r.tier r.slot) { t with releases := t.releases.filter (fun r => s.epoch < r.epoch) }
    .next (s.setTable n t)

/-! ### Refreshes from other packages (R159) -/

/-- REFRESH_SLOT_RECEIVE (R94, R159): the stored slot of a row arrives from its home; its 32 copies are written, each whole, and
its directory entry after the last. A row without a replica set, or a slot of another size, is discarded. -/
def execRefreshSlotReceive (dt n row tier : Nat) (slot : Bytes) (s : State) : Host.Outcome State Fault Refusal :=
  let s := s.tick dt
  let t := s.table n
  match Map.find t.replicas row with
  | none => .next s
  | some (set, _) =>
    if t.state ≠ .ready ∨ 2 < tier ∨ slot.length ≠ t.slot tier then .next s
    else
      match s.writeCopies applyAccess t set slot with
      | (some e, s) => .next (s.applyBad (s.owner t (t.place row).2) e)
      | (none, s) => .next (s.setTable n { t with replicas := Map.put t.replicas row (some (set, tier)) })

/-- REFRESH_MARKER_RECEIVE (R159): the end marker of a unit of another member arrives. -/
def execRefreshMarkerReceive (dt n chip unit : Nat) (s : State) : Host.Outcome State Fault Refusal :=
  let s := s.tick dt
  if !s.update.parts.any (fun p => p.table = n) || 32 ≤ unit || s.update.markers.contains (n, chip, unit) then .next s
  else
    .next (({ s with update := { s.update with markers := s.update.markers ++ [(n, chip, unit)] } } : State).endParts n)

end Sys2Proof.Machine
end

