-- ==== Sys2Proof/Machine/Fabric.lean ====
section
/-! DEFINITION. The Varx ports at work: the link layer, credits, discovery, time alignment and remote requests (R72, R73, R348 to
R364). -/
namespace Sys2Proof.Machine

/-! ### Links (R348 to R350) -/

/-- A port whose axis has extent 1 is not used (R352). -/
def State.portUsed (s : State) (p : Nat) : Bool := p < 6 && 1 < s.extent (p / 2)

/-- A frame received whole, counted with its payload. -/
def State.frameIn (s : State) (p payload : Nat) : State := (s.bump (portKey p 2) 1).bump (portKey p 8) payload

/-- Parts of a frame (R349). -/
def frameVc (f : Bytes) : Nat := bits (fieldLe f 0 1) 4 4
def frameSeq (f : Bytes) : Nat := bits (fieldLe f 2 2) 11 0
def frameDest (f : Bytes) : Nat := bits (fieldLe f 4 2) 11 0
def frameSource (f : Bytes) : Nat := bits (fieldLe f 6 2) 11 0
def frameLength (f : Bytes) : Nat := fieldLe f 10 2
def frameField (f : Bytes) : Nat := fieldLe f 12 4

/-- A frame is whole: its length is that of its header and its CRC matches. -/
def frameOk (f : Bytes) : Bool :=
  20 ≤ f.length && f.length = frameLength f + 20 && frameLength f ≤ 512 &&
  fieldLe f (f.length - 4) 4 = crc32 (f.take (f.length - 4))

/-- An acknowledge: cumulative up to the next expected sequence, or negative with bit 16. The manual leaves the type field to the
type (notes/assumptions/36.md). -/
def State.sendAck (s : State) (p : Nat) (nak : Bool) : State :=
  s.sendControl p frameAck 0 0 ((s.port p).nextAccept + (if nak then 65536 else 0)) []

/-- The failure answer to a remote request of another package (R362). -/
def State.refuseRemote (s : State) (f : Bytes) : State :=
  s.sendTo frameResponse (frameSource f) 0 (frameField f) (natLe 4 1)

/-- Pass a frame on by the next port of its route. It moves to virtual channel 1 where it crosses the end of a ring and stays on
it along that ring (R359). A request for a link that is down is answered (R362). -/
def State.passOn (s : State) (p : Nat) (f : Bytes) : State :=
  match s.route (frameDest f) with
  | none => s
  | some o =>
    if frameType f = frameRequest ∧ !s.portUp o then s.refuseRemote f
    else
      let vc := if s.wraps o || (o / 2 = p / 2 && frameVc f = 1) then 1 else 0
      let payload := (f.drop 16).take (frameLength f)
      s.sendBody o (frameBody (frameType f) vc (frameDest f) (frameSource f) (bits (fieldLe f 8 1) 3 0) (frameField f) payload)

/-- SEQUENCED_FRAME_RECEIVE (R350): a request, response or data frame arrives on a port, with the codewords that its FEC
corrected and those it could not decode. The next expected frame is accepted, acknowledged and, when it is for another
package, passed on; any other frame is answered with a negative acknowledge. What an accepted frame for this package carries
has a row of its own. -/
def execSequencedFrameReceive (dt p corrected uncorrectable : Nat) (f : Bytes) (s : State) : Host.Outcome State Fault Refusal :=
  let s := s.tick dt
  if !s.portUp p then .next s
  else
    let s := (s.bump (portKey p 5) corrected).bump (portKey p 6) uncorrectable
    let s := if frameOk f then s else s.bump (portKey p 3) 1
    let v := s.port p
    if uncorrectable = 0 && frameOk f && frameSeq f = v.nextAccept && 1 ≤ frameType f && frameType f ≤ 3 then
      let s := (s.setPort p { v with nextAccept := (v.nextAccept + 1) % 4096 }).frameIn p (frameLength f)
      let s := s.sendAck p false
      .next (if frameDest f = s.chip then s else s.passOn p f)
    else .next (s.sendAck p true)

/-- Send what waits in a port's buffers while its replay buffer has room. `fuel` bounds the frames. -/
def State.drainPort (s : State) (p : Nat) : Nat → State
  | 0 => s
  | fuel + 1 =>
    let v := s.port p
    match v.next with
    | none => s
    | some (b, w) =>
      if 256 ≤ v.unacked.length || !s.portUp p then s
      else
        let f := frameWhole v.nextSend b
        ((s.setPort p { w with
          nextSend := (v.nextSend + 1) % 4096, unacked := v.unacked ++ [(v.nextSend, f)] }).putFrame p f).drainPort p fuel

/-- Replay a port's unaccepted frames in order, each counted (R350). -/
def State.replayPort (s : State) (p : Nat) : State :=
  (s.port p).unacked.foldl (fun s e => (s.putFrame p e.2).bump (portKey p 4) 1) s

/-- ACKNOWLEDGE_RECEIVE (R350, R356): an acknowledge frame arrives on a port. Kind 0 frees every entry before sequence `value`;
kind 1, negative, frees them too and replays the rest, unless the oldest has been replayed 16 times (`replays` 17: the link is
to go down); kind 2 acknowledges the discovery report of chip `value` (notes/assumptions/36.md). -/
def execAcknowledgeReceive (dt p kind value : Nat) (s : State) : Host.Outcome State Fault Refusal :=
  let s := s.tick dt
  if !s.portUp p then .next s
  else
    let s := s.frameIn p 0
    if kind = 2 then
      .next { s with fabric := { s.fabric with
        unreported := if s.fabric.parent = some p then s.fabric.unreported.filter (fun r => r.1 ≠ value) else s.fabric.unreported } }
    else
      let v := s.port p
      let kept := v.unacked.filter (fun e => (e.1 + 4096 - value) % 4096 < 2048)
      let moved := kept.length < v.unacked.length
      let s := s.setPort p { v with unacked := kept, replays := if moved then 0 else v.replays }
      let s := s.drainPort p 256
      if kind = 1 ∧ kept ≠ [] then
        let v := s.port p
        if 16 ≤ v.replays then .next (s.setPort p { v with replays := 17 })
        else .next ((s.setPort p { v with replays := v.replays + 1 }).replayPort p)
      else .next s

/-! ### Discovery (R353 to R358) -/

def alignedKey : Nat := objKey 0x2102 1
def discoveryKey : Nat := objKey 0x3001 1

/-- Own serial as a number. -/
def ownSerial : Nat := leNat Config.serial

/-- Time aligned becomes false: counted and recorded (R73). -/
def State.loseAlignment (s : State) : State :=
  let s := s.report (s.newReport ⟨.iod, 0⟩ 0x4006 0 0xFF)
  let s : State := { s with epochs := { s.epochs with offsetSince := none } }
  if s.flag alignedKey then (s.setFlag alignedKey false).bump (objKey 0x2102 4) 1 else s

/-- Trained ports and the beacons last heard on them, by port. -/
def State.heardOn (s : State) : List (Nat × Beacon) :=
  (List.range 6).filterMap (fun p => if s.portUp p then (s.port p).beacon.map (fun b => (p, b)) else none)

/-- A hop count that no route of a torus reaches: a package beacons it while it has no path to its root, and a beacon with it names
no root (notes/assumptions/129.md). -/
def noPath : Nat := 64

/-- The offers of a candidate that a package sees: settled, serial, hops, port (6 for its own). A package offers itself as
settled only while it is the root of a settled torus (R354), and a settled package whose path has broken keeps its root until
the root is lost (port 7, R358). -/
def State.offers (s : State) : List (Bool × Nat × Nat × Nat) :=
  (s.fabric.settled && s.fabric.candidate = ownSerial, ownSerial, 0, 6) ::
    ((if s.fabric.settled ∧ s.fabric.candidate ≠ ownSerial then [(true, s.fabric.candidate, noPath, 7)] else []) ++
      (s.heardOn.filter (fun (x : Nat × Beacon) => x.2.hops + 1 < noPath)).map
        (fun (x : Nat × Beacon) => (x.2.settled, x.2.candidate, x.2.hops + 1, x.1)))

/-- One offer is preferred to another: settled first, then the lower serial, then fewer hops, then the lower port. -/
def offerBefore (a b : Bool × Nat × Nat × Nat) : Bool :=
  if a.1 ≠ b.1 then a.1
  else if a.2.1 ≠ b.2.1 then a.2.1 < b.2.1
  else if a.2.2.1 ≠ b.2.2.1 then a.2.2.1 < b.2.2.1
  else a.2.2.2 < b.2.2.2

/-- Choose the candidate and the parent (R354). A new candidate's report has still to be made, and a new parent has been asked for
no time yet. -/
def State.choose (s : State) : State :=
  match s.offers with
  | [] => s
  | o :: rest =>
    let best := rest.foldl (fun a b => if offerBefore b a then b else a) o
    let fresh := s.fabric.candidate ≠ best.2.1
    let parent := if 6 ≤ best.2.2.2 then none else some best.2.2.2
    { s with
      fabric := { s.fabric with
        candidate := best.2.1
        candidateSettled := best.1
        hops := best.2.2.1
        parent := parent
        reported := s.fabric.reported && !fresh
        reports := if fresh then [] else s.fabric.reports }
      epochs := { s.epochs with timeSent := if parent = s.fabric.parent then s.epochs.timeSent else none } }

/-- A settled package has a new root: its serial is shown and alignment is lost (R73, R74). The new root itself is aligned at once,
since its own time is the torus's (notes/assumptions/129.md). -/
def State.newRoot (s : State) : State :=
  let s := (s.setBlob (objKey 0x2102 3) (natLe 16 s.fabric.candidate)).loseAlignment
  if s.fabric.candidate = ownSerial then
    ({ s with epochs := { s.epochs with stepped := true, toCorrect := 0 } } : State).setFlag alignedKey true
  else s

/-- Choose the candidate and the parent; a settled package that so finds another root has a new one (R358). -/
def State.elect (s : State) : State :=
  let t := s.choose
  if s.fabric.settled && t.fabric.candidate ≠ s.fabric.candidate then t.newRoot else t

/-- The coordinate that a beacon gives on an axis. -/
def Beacon.coord (b : Beacon) (axis : Nat) : Option Nat := b.coords.getD axis none

/-- The beacon heard on a port. -/
def State.beaconOn (s : State) (p : Nat) : Option Beacon := if s.portUp p then (s.port p).beacon else none

/-- What a package takes as its coordinate on an axis (R355): along the axis, or from a neighbour on another axis. -/
def State.findCoord (s : State) (axis : Nat) : Option Nat :=
  let e := s.extent axis
  let across := (s.heardOn.filter (fun (x : Nat × Beacon) => x.1 / 2 ≠ axis)).findSome? (fun (x : Nat × Beacon) => x.2.coord axis)
  let plus := (s.beaconOn (2 * axis)).bind (fun b => b.coord axis)
  let minus := (s.beaconOn (2 * axis + 1)).bind (fun b => b.coord axis)
  if e ≤ 1 then some 0
  else if s.ring axis then
    if s.fabric.candidate = ownSerial then some 0
    else
      match minus, plus with
      | some c, _ => some ((c + 1) % e)
      | none, some c => some ((c + e - 1) % e)
      | none, none => across
  else if !s.portUp (2 * axis + 1) then some 0
  else match minus with
    | some c => some (c + 1)
    | none => across

/-- The coordinate that a neighbour on a port should have: one further along the port's direction. -/
def State.expectedCoord (s : State) (own : List (Option Nat)) (p axis : Nat) : Option Nat :=
  match own.getD axis none with
  | none => none
  | some c =>
    let e := s.extent axis
    if p / 2 ≠ axis then some c
    else if p % 2 = 0 then some (if s.ring axis then (c + 1) % e else c + 1)
    else if s.ring axis then some ((c + e - 1) % e)
    else if c = 0 then none
    else some (c - 1)

/-- The inconsistency of one port, as the reason of 0x3001.07 (R355). A neighbour that does not know its coordinates yet gives
none. -/
def State.portFault (s : State) (own : List (Option Nat)) (p : Nat) : Option Nat :=
  let axis := p / 2
  let up := s.portUp p
  if !s.portUsed p then none
  else
    let offset : Bool := match s.beaconOn p with
      | some b => [0, 1, 2].any (fun a => (b.coord a).isSome && b.coord a ≠ s.expectedCoord own p a)
      | none => false
    let atEnd : Bool := match own.getD axis none with
      | some c => if p % 2 = 0 then c + 1 = s.extent axis else c = 0
      | none => false
    if offset then some 1
    else if !s.ring axis && (up == atEnd) then some 2
    else if s.ring axis && !up then some 3
    else match s.beaconOn p with
      | some b => if b.shape ≠ s.fabric.shape then some 4 else none
      | none => none

/-- The first inconsistency, lowest port first: port and reason (notes/assumptions/38.md). -/
def State.inconsistency (s : State) (own : List (Option Nat)) : Option (Nat × Nat) :=
  (List.range 6).findSome? (fun p => (s.portFault own p).map (fun r => (p, r)))

/-- Every neighbour of a trained link has given all its coordinates. -/
def State.neighboursKnown (s : State) : Bool :=
  (List.range 6).all (fun p => !s.portUp p || (s.beaconOn p).any (fun b => [0, 1, 2].all (fun a => (b.coord a).isSome)))

/-- The payload of a beacon, kind 0, in the model's own layout (notes/assumptions/36.md). -/
def State.beaconPayload (s : State) (p : Nat) : Bytes :=
  natLe 1 0 ++ Config.serial ++ natLe 1 p ++ natLe 16 s.fabric.candidate ++ natLe 2 s.fabric.hops ++
  natLe 1 (if s.fabric.settled then 1 else 0) ++
  [0, 1, 2].flatMap (fun a => natLe 1 ((s.fabric.coords.getD a none).getD 255)) ++
  natLe 1 s.fabric.shape.1 ++ natLe 1 s.fabric.shape.2.1 ++ natLe 1 s.fabric.shape.2.2.1 ++ natLe 1 s.fabric.shape.2.2.2

/-- The present set as 0x3001.08 holds it. -/
def presentBytes (present : List Nat) : Bytes :=
  (List.range 512).map (fun i => BitVec.ofNat 8
    ((List.range 8).foldl (fun v b => v + (if present.contains (8 * i + b) then 2 ^ b else 0)) 0))

/-- Send a beacon by a port; a settled one is followed by the present set (R354, R356). -/
def State.sendBeacon (s : State) (p : Nat) : State :=
  let s := s.setPort p { s.port p with beaconAt := s.now }
  let s := s.sendControl p frameBeacon 0 0 0 (s.beaconPayload p)
  if s.fabric.settled then s.sendControl p frameBeacon 0 0 1 (presentBytes s.fabric.present) else s

/-- Report to the parent: chip id and serial in a beacon frame of kind 2. -/
def State.sendReport (s : State) (r : Nat × Nat) : State :=
  match s.fabric.parent with
  | some p => s.sendControl p frameBeacon 0 0 2 (natLe 2 r.1 ++ natLe 16 r.2)
  | none => s

/-- The chip id that complete coordinates give. -/
def chipOfCoords (l : List (Option Nat)) : Option Nat :=
  match l.getD 0 none, l.getD 1 none, l.getD 2 none with
  | some x, some y, some z => some (chipOf x y z)
  | _, _, _ => none

/-- The objects that the present set shows. -/
def State.setPresent (s : State) (present : List Nat) : State :=
  ({ s with fabric := { s.fabric with present := present } } : State).setNum (objKey 0x3001 6) present.length

/-- A package is settled: its chip id is fixed, the present set recorded, and time alignment begins; the root's own time is the
torus's (R356, R72). -/
def State.settleTorus (s : State) (chip : Nat) (present : List Nat) : State :=
  let root := s.fabric.candidate = ownSerial
  let s : State := { s with
    fabric := { s.fabric with settled := true, rootHeard := s.now }
    epochs := { s.epochs with stepped := s.epochs.stepped || root } }
  let s := (s.setPresent present).setNum (objKey 0x3001 2) chip
  let s := [0, 1, 2].foldl (fun s a => s.setNum (objKey 0x3001 (3 + a)) (coordOf chip a)) s
  let s := (s.setNum discoveryKey 3).setNum (objKey 0x3001 9) s.now
  let s := s.setBlob (objKey 0x2102 3) (natLe 16 s.fabric.candidate)
  if root then s.setFlag alignedKey true else s

/-- The root settles once it holds reports of every coordinate of the shape (R356); a settled root adds what it holds. -/
def State.rootSettles (s : State) : State :=
  let total := s.extent 0 * s.extent 1 * s.extent 2
  let chips := s.fabric.reports.foldl (fun (l : List Nat) r => insertAsc r.1 l) (if s.fabric.settled then s.fabric.present else [])
  if s.fabric.candidate ≠ ownSerial then s
  else if s.fabric.settled then (if chips = s.fabric.present then s else s.setPresent chips)
  else
    match chipOfCoords s.fabric.coords with
    | some c => if chips.length = total ∧ chips.contains c then s.settleTorus c chips else s
    | none => s

/-- Hand a report towards the root, or keep it as the root (R356). -/
def State.takeReport (s : State) (r : Nat × Nat) : State :=
  if s.fabric.candidate = ownSerial then
    ({ s with fabric := { s.fabric with reports := s.fabric.reports.filter (fun x => x.1 ≠ r.1) ++ [r] } } : State).rootSettles
  else
    ({ s with fabric := { s.fabric with
      unreported := s.fabric.unreported.filter (fun x => x.1 ≠ r.1) ++ [r] } } : State).sendReport r

/-- Record an inconsistency once: the error object, the discovery state and the fault (R355). -/
def State.discoveryError (s : State) (p reason : Nat) : State :=
  let code := p + 256 * reason
  let s' := s.setNum discoveryKey 4
  if s.num discoveryKey = 4 ∧ s.num (objKey 0x3001 7) = code then s
  else (s'.setNum (objKey 0x3001 7) code).report { s.newReport ⟨.varx, p⟩ 0x4005 0 0xFF with detail := code }

/-- Discovery after anything it rests on has changed: candidate, parent, coordinates, consistency and the own report. A settled
package keeps its coordinates (R358). -/
def State.discover (s : State) : State :=
  let s := s.elect
  if s.fabric.settled then s
  else
    let own := [s.findCoord 0, s.findCoord 1, s.findCoord 2]
    let s : State := { s with fabric := { s.fabric with coords := own } }
    if s.heardOn = [] then s.setNum discoveryKey (if (List.range 6).any s.portUp then 1 else 0)
    else
      match chipOfCoords own with
      | none => s.setNum discoveryKey 1
      | some c =>
        match s.inconsistency own with
        | some (p, r) => s.discoveryError p r
        | none =>
          let s := s.setNum discoveryKey 2
          if s.fabric.reported || !s.neighboursKnown then s
          else ({ s with fabric := { s.fabric with reported := true } } : State).takeReport (c, ownSerial)

/-- A port trains: it is up, link sequences start at zero, it sends its first beacon and what waited for it
(notes/assumptions/39.md). -/
def State.linkUp (s : State) (p : Nat) : State :=
  let v := s.port p
  let s := s.setPort p { v with nextSend := 0, nextAccept := 0, unacked := [], replays := 0, beacon := none }
  let s := (s.setNum (portStateKey p) 2).drainPort p 256
  s.discover.sendBeacon p

/-- VARX_LINK_UP (R348, R455): a port of an axis in use trains. -/
def execVarxLinkUp (dt p : Nat) (s : State) : Host.Outcome State Fault Refusal :=
  let s := s.tick dt
  if s.usable && s.portUsed p && !s.portUp p then .next (s.linkUp p) else .next s

/-- A command in flight that made a remote request, by the requester's slot. -/
def State.remoteCmd (s : State) (r : RemoteReq) : Option Cmd :=
  if r.slot < 16 then (s.streamSlot r.core r.slot).active.bind (fun d => s.cmd? d.cmd) else s.cmd? r.number

/-- Drop a remote request. -/
def State.endRemote (s : State) (r : RemoteReq) : State :=
  { s with fabric := { s.fabric with requests := s.fabric.requests.filter (fun x => x.id ≠ r.id) } }

def pairKey (p sub : Nat) : Nat := objKey (0x4060 + p) sub
def State.pairJob (s : State) (p : Nat) : Nat := bits (s.num (pairKey p 2)) 5 0

/-- The remote write of a digest engine failed (R362, R419, R421): an execution fault under tag 0xF0 for a replica group (slot 18), and
under the pair's job for pair `number` (slot 19). -/
def State.digestRemote (s : State) (cluster slot number code detail : Nat) : State :=
  let r := { s.newReport ⟨.digest, cluster⟩ code 4 (if slot = 18 then 0xF0 else s.pairJob number) with detail := detail }
  s.execFault (if slot = 18 then r else { r with queue := s.num (pairKey number 3) })

/-- A remote request fails (R362): an execution fault of its requester, with the code and detail of R416. -/
def State.failRemote (s : State) (code detail : Nat) (r : RemoteReq) : State :=
  if s.fabric.requests.any (fun x => x.id = r.id) then
    let s := s.endRemote r
    if 18 ≤ r.slot then s.digestRemote r.core r.slot r.number code detail else s.remoteFault r.core code detail (s.remoteCmd r)
  else s

/-- Own requests whose route begins with a port. -/
def State.requestsBy (s : State) (p : Nat) : List RemoteReq := s.fabric.requests.filter (fun r => s.route r.chip = some p)

/-- VARX_LINK_DOWN (R350, R358, R362): a link goes down when a frame has been replayed 16 times without acceptance, or when the
receiver loses lock. Counted and recorded; requests held for the link are answered, own ones fail; a lost path to the root
loses alignment, and a new parent is taken. -/
def execVarxLinkDown (dt p : Nat) (lockLost : Bool) (s : State) : Host.Outcome State Fault Refusal :=
  let s := s.tick dt
  let v := s.port p
  if !s.portUp p || !(lockLost || 17 ≤ v.replays) then .next s
  else
    let s := (s.setNum (portStateKey p) 3).bump (portKey p 9) 1
    let s := s.report (s.newReport ⟨.varx, p⟩ 0x4003 0 0xFF)
    let held := (v.unacked.map (fun (e : Nat × Bytes) => e.2)).filter (fun f => frameType f = frameRequest) ++ v.requests
    let s := s.setPort p { v with unacked := [], requests := [], replays := 0, beacon := none, downAt := s.now }
    let s := (held.filter (fun f => frameSource f ≠ s.chip)).foldl State.refuseRemote s
    let s := (s.requestsBy p).foldl (State.failRemote · 0x4004 3 ·) s
    let s := if s.fabric.parent = some p ∧ s.fabric.settled then s.loseAlignment else s
    .next s.discover

/-- VARX_RETRAIN (R350): a link that is down tries to train every 100 ms; `trained` says whether it comes up. -/
def execVarxRetrain (dt p : Nat) (trained : Bool) (s : State) : Host.Outcome State Fault Refusal :=
  let s := s.tick dt
  if s.num (portStateKey p) = 3 ∧ (s.port p).downAt + 100000000 ≤ s.now then
    .next (if trained then s.linkUp p else s.setPort p { s.port p with downAt := s.now })
  else .next s

/-- BEACON_TIMER (R354): a trained port sends a beacon every 1 ms. -/
def execBeaconTimer (dt p : Nat) (s : State) : Host.Outcome State Fault Refusal :=
  let s := s.tick dt
  if s.portUp p && (s.port p).beaconAt + 1000000 ≤ s.now then .next (s.sendBeacon p) else .next s

/-- A settled beacon from the parent settles a consistent package it counts as present, and brings the present set up to date
(R356, R358). -/
def State.hearSettled (s : State) (p : Nat) (present : List Nat) : State :=
  if s.fabric.parent ≠ some p then s
  else if s.fabric.settled then (if present = [] then s else s.setPresent present)
  else
    match chipOfCoords s.fabric.coords with
    | some c => if s.num discoveryKey = 2 ∧ present.contains c then s.settleTorus c present else s
    | none => s

/-- BEACON_RECEIVE (R354 to R356, R358): a neighbour's beacon arrives with what it carries; `present` is the set that follows a
settled one in a frame of its own. A parent that is further from the root than before has lost a link of the path, and alignment
with it (R73, notes/assumptions/129.md). -/
def execBeaconReceive (dt p serial port candidate hops : Nat) (settled : Bool) (coords : List (Option Nat))
    (shape : Nat × Nat × Nat × Nat) (present : List Nat) (s : State) : Host.Outcome State Fault Refusal :=
  let s := s.tick dt
  if !s.portUp p then .next s
  else
    let s := s.frameIn p (s.beaconPayload p).length
    let s := if settled then s.frameIn p 512 else s
    let old := (s.port p).beacon
    let b : Beacon := { serial := serial, port := port, candidate := candidate, hops := hops, settled := settled, coords := coords,
                        shape := shape, heard := s.now }
    let s := s.setPort p { s.port p with beacon := some b }
    let s := (s.setBlob (objKey (0x3020 + p) 2) (natLe 16 serial)).setNum (objKey (0x3020 + p) 3) port
    let names := candidate = s.fabric.candidate ∧ hops < noPath
    let further := s.fabric.settled && s.fabric.parent = some p && candidate = s.fabric.candidate &&
      old.any (fun o => o.candidate = candidate && o.hops < hops)
    let s : State := if names then { s with fabric := { s.fabric with rootHeard := s.now } } else s
    let s := (if further then s.loseAlignment else s).discover
    .next (if settled then s.hearSettled p present else s)

/-- DISCOVERY_REPORT (R356): a child's report is acknowledged and passed on towards the root, or held by the root, which settles
once it holds one of every coordinate and adds a package that rejoins. -/
def execDiscoveryReport (dt p chip serial : Nat) (s : State) : Host.Outcome State Fault Refusal :=
  let s := s.tick dt
  if !s.portUp p then .next s
  else .next (((s.frameIn p 18).sendControl p frameAck 0 0 (chip + 2 * 65536) []).takeReport (chip, serial))

/-- REPORT_RESEND (R356): reports that the parent has not acknowledged are sent again. -/
def execReportResend (dt : Nat) (s : State) : Host.Outcome State Fault Refusal :=
  let s := s.tick dt
  .next (s.fabric.unreported.foldl State.sendReport s)

/-- ROOT_LOSS_TIMEOUT (R358, R73): no beacon naming the settled root for 100 ms. Beacons that named it are forgotten, every
settled package stands as a settled candidate, and the lowest serial among those heard is the new time root. -/
def execRootLossTimeout (dt : Nat) (s : State) : Host.Outcome State Fault Refusal :=
  let s := s.tick dt
  if !s.fabric.settled || s.fabric.candidate = ownSerial || s.now < s.fabric.rootHeard + 100000000 then .next s
  else
    let old := s.fabric.candidate
    let s : State := { s with fabric := { s.fabric with
      candidate := ownSerial
      rootHeard := s.now
      ports := s.fabric.ports.map (fun (e : Nat × Port) =>
        if e.2.beacon.any (fun b => b.candidate = old) then (e.1, { e.2 with beacon := none }) else e) } }
    .next s.choose.newRoot

/-! ### Time alignment (R60, R72, R73) -/

/-- TIME_MESSAGE_SEND (R72): a settled package asks its parent for the time. -/
def execTimeMessageSend (dt : Nat) (s : State) : Host.Outcome State Fault Refusal :=
  let s := s.tick dt
  match s.fabric.parent with
  | some p =>
    if s.fabric.settled && s.portUp p then
      .next (({ s with epochs := { s.epochs with timeSent := some s.now } } : State).sendControl p frameTime 0 0 0 (natLe 8 s.now))
    else .next s
  | none => .next s

/-- A measured offset from the parent, positive when this package is ahead. The first one steps the time base (R60); later
ones are removed by rate, at its limit of 100 ppm (R73, `State.lapse`); an offset above 50 ns is timed. -/
def State.align (s : State) (offset : Int) : State :=
  let s := s.setNum (objKey 0x2102 2) (ofSigned 32 offset)
  if !s.epochs.stepped then
    let s : State := { s with
      now := (s.now - offset).toNat, epochs := { s.epochs with stepped := true, toCorrect := 0, rateFraction := 0, offsetSince := none } }
    s.setFlag alignedKey true
  else
    let s : State := { s with epochs := { s.epochs with toCorrect := offset } }
    if 50 < offset.natAbs then
      { s with epochs := { s.epochs with offsetSince := some (s.epochs.offsetSince.getD s.now) } }
    else ({ s with epochs := { s.epochs with offsetSince := none } } : State).setFlag alignedKey true

/-- TIME_MESSAGE_RECEIVE (R72): a time frame arrives on a port. From the parent, in answer to the last one sent, `t2` and `t3` are
the parent's times of receipt and of answer, and delay and offset follow; from another port it asks for the time, which a
package that has made its first alignment step gives (notes/assumptions/35.md). -/
def execTimeMessageReceive (dt p t2 t3 : Nat) (s : State) : Host.Outcome State Fault Refusal :=
  let s := s.tick dt
  if !s.portUp p then .next s
  else
    if s.fabric.parent = some p then
      let s := s.frameIn p 24
      match s.epochs.timeSent with
      | none => .next s
      | some t1 =>
        let offset : Int := (((t1 : Int) - t2) + ((s.now : Int) - t3)) / 2
        let delay := ((((s.now : Int) - t1) - ((t3 : Int) - t2)) / 2).toNat
        .next (({ s with epochs := { s.epochs with timeSent := none, linkDelay := delay } } : State).align offset)
    else
      let s := s.frameIn p 8
      .next (if s.epochs.stepped then s.sendControl p frameTime 0 0 1 (natLe 8 t2 ++ natLe 8 s.now ++ natLe 8 s.now) else s)

/-- ALIGNMENT_LOSS (R73): the measured offset has exceeded 50 ns for more than 10 ms. -/
def execAlignmentLoss (dt : Nat) (s : State) : Host.Outcome State Fault Refusal :=
  let s := s.tick dt
  match s.epochs.offsetSince with
  | some t => .next (if t + 10000000 < s.now && s.flag alignedKey then s.loseAlignment else s)
  | none => .next s

/-! ### Remote requests (R360 to R362) -/

/-- The storage that a remote request may reach: stacked memory, or an SRAM window outside every merge area. -/
def State.remoteRange (s : State) (a n : Nat) : Bool :=
  n ≠ 0 && n ≤ 256 && (spanIn isStacked a n || ((spanIn isScratch a n || spanIn isBuffer a n) && !s.meetsMerge a n))

/-- A bus error that a request from outside this package's engines meets: the memory controller, or the IOD for SRAM, records
it (R261, R268, R403). A partial code word is only counted (R258). -/
def State.outsideError (s : State) (code a : Nat) : State :=
  if code = 0x1002 then s
  else
    let u : UnitId := if isStacked a then ⟨.memory, s.stackOf a⟩ else ⟨.iod, 0⟩
    s.report { s.newReport u code 0 0xFF with physical := a }

/-- REMOTE_REQUEST_RECEIVE (R360): a request of another package, by source chip and identifier. Owner and address are checked,
then it is served at class 1 and charged to no job. The answer's status is 0, 1 for a request that is not served, or the code of
the bus error it met, so that the narrow-write code reaches the requester (R258, notes/assumptions/128.md). -/
def execRemoteRequestReceive (dt source id owner : Nat) (write : Bool) (offset length : Nat) (data : Bytes) (s : State) :
    Host.Outcome State Fault Refusal :=
  let s := s.tick dt
  let answer (s : State) (status : Nat) (d : Bytes) : State := s.sendTo frameResponse source 0 (id % 2 ^ 32) (natLe 4 status ++ d)
  if !s.usable then .next s
  else if s.tenancy ≠ 1 ∨ owner ≠ s.num (objKey 0x2000 5) ∨ !s.remoteRange offset length then .next (answer s 1 [])
  else
    match (if write then s.write ⟨.c1, none⟩ offset (sub data 0 length) else s.read ⟨.c1, none⟩ offset length) with
    | (.ok d, s) => .next (answer s 0 d)
    | (.bad e, s) => .next (answer (s.outsideError e offset) e [])

/-- Give a requester its data or its acknowledgement. A read is that of one part of a stream request. -/
def State.remoteAnswer (s : State) (r : RemoteReq) (d : Bytes) : State :=
  let first (q : StreamReq) : Nat := if r.slot < 16 then q.key else q.number
  { s with streams := { s.streams with
      requests := s.streams.requests.map (fun (q : StreamReq) =>
        if q.core = r.core ∧ q.slot = r.slot then
          if r.write then { q with acked := q.acked || first q = r.number }
          else { q with parts := mapIf (fun p => first q + p.offset = r.number) (fun p => { p with data := some (sub d 0 p.length) }) q.parts }
        else q) } }

/-- REMOTE_RESPONSE_RECEIVE (R258, R361): the response to a request of this package. A status other than 0 is a bus error, which the
requester takes as its own: with the narrow-write code where it is that, else as a remote request that failed. -/
def execRemoteResponseReceive (dt id status : Nat) (data : Bytes) (s : State) : Host.Outcome State Fault Refusal :=
  let s := s.tick dt
  match s.fabric.requests.find? (fun r => r.id = id) with
  | none => .next s
  | some r =>
    .next (if status = 0 then (s.endRemote r).remoteAnswer r data
      else if status = 0x1002 then s.failRemote 0x1002 0 r else s.failRemote 0x4004 1 r)

/-- REMOTE_REQUEST_TIMEOUT (R362): no response within 1 ms. -/
def execRemoteRequestTimeout (dt id : Nat) (s : State) : Host.Outcome State Fault Refusal :=
  let s := s.tick dt
  match s.fabric.requests.find? (fun r => r.id = id) with
  | none => .next s
  | some r => .next (if r.issued + 1000000 ≤ s.now then s.failRemote 0x4004 2 r else s)

end Sys2Proof.Machine
end

