-- ==== Sys2Proof/Machine/Collective.lean ====
section
/-! DEFINITION. Collectives and the sharing of channels among operations (R363 to R375). A collective is a list of phases, one per
axis of more than one package; a phase is a list of chunk transfers to the neighbours and of chunks expected from them. -/
namespace Sys2Proof.Machine

/-! ### The command (R366, R367) -/

def Cmd.collChannel (c : Cmd) : Nat := bits (c.u8 16) 3 0
/-- 0 FP32, 1 BF16, 2 INT32. -/
def Cmd.collFormat (c : Cmd) : Nat := bits (c.u8 16) 5 4
def Cmd.gated (c : Cmd) : Bool := bit (c.u8 16) 6
def Cmd.axes (c : Cmd) : Nat := bits (c.u8 17) 2 0
def Cmd.collNumber (c : Cmd) : Nat := c.u16 18
def Cmd.elements (c : Cmd) : Nat := c.u32 20
def Cmd.partBase (c : Cmd) : Nat := c.u64 24
def Cmd.collOutput (c : Cmd) : Nat := c.u64 32
def Cmd.gateFence (c : Cmd) : Nat := bits (c.u16 48) 11 0
def Cmd.parts (c : Cmd) : Nat := bits (c.u8 50) 4 0 + 1
def Cmd.staging (c : Cmd) : Nat := bits (c.u32 52) 23 0

/-- Bytes of an element in memory. -/
def Cmd.elemBytes (c : Cmd) : Nat := if c.collFormat = 1 then 2 else 4

/-- The axes used, and the product Π of their extents. -/
def Cmd.usedAxes (c : Cmd) : List Nat := [0, 1, 2].filter (fun a => bit c.axes a)
def State.members (s : State) (c : Cmd) : Nat := c.usedAxes.foldl (fun n a => n * s.extent a) 1

/-- Elements of a part, and of the output. -/
def State.partElems (s : State) (c : Cmd) : Nat := if c.opcode = 0xA2 then c.elements / s.members c else c.elements
def State.outElems (s : State) (c : Cmd) : Nat := if c.opcode = 0xA1 then c.elements / s.members c else c.elements

/-- Byte length of a part, and the address of part k. -/
def State.partBytes (s : State) (c : Cmd) : Nat := s.partElems c * c.elemBytes
def State.partVa (s : State) (c : Cmd) (k : Nat) : Nat := c.partBase + k * roundUp (s.partBytes c) 64
def State.outBytes (s : State) (c : Cmd) : Nat := s.outElems c * c.elemBytes

/-- The checks that need no address (R367). -/
def State.collFieldsOk (s : State) (c : Cmd) : Bool :=
  c.collFormat ≠ 3 && c.elements ≠ 0 && c.elements % (64 * s.members c) = 0 &&
  c.partBase % 64 = 0 && c.collOutput % 64 = 0 && c.u64 56 % 32 = 0 &&
  (c.opcode ≠ 0xA2 || c.parts = 1) &&
  c.staging % 0x10000 = 0 && c.staging + 0x80000 ≤ 0x1000000 - s.mergeSize &&
  c.usedAxes.all (fun a => s.extent a ≤ 1 || s.fabric.settled)

/-- The ranges a collective translates: its parts and its output. The page of a status record is translated as the record is
written (R375). -/
def State.collRanges (s : State) (c : Cmd) : List (Nat × Nat × Bool) :=
  (List.range c.parts).map (fun k => (s.partVa c k, s.partBytes c, false)) ++ [(c.collOutput, s.outBytes c, true)]

/-- Local storage that two translated ranges share. -/
def Cmd.meet (c : Cmd) (va n vb m : Nat) : Bool :=
  (c.pieces va n).any (fun x => (c.pieces vb m).any (fun y =>
    match x.2.2, y.2.2 with
    | some (.here a), some (.here b) => a < b + y.2.1 && b < a + x.2.1
    | _, _ => false))

/-- The checks on translated addresses: local storage throughout, and no output over a part. -/
def State.collTargetsOk (s : State) (c : Cmd) : Bool :=
  (s.collRanges c).all (fun r => s.localRange c r.1 r.2.1) &&
  (List.range c.parts).all (fun k => !c.meet (s.partVa c k) (s.partBytes c) c.collOutput (s.outBytes c))

/-! ### Phases (R368, R369) -/

/-- The phases: gather or reduce, and the axis. -/
def State.phases (s : State) (c : Cmd) : List (Bool × Nat) :=
  let l := c.usedAxes.filter (fun a => 1 < s.extent a)
  (if c.opcode = 0xA2 then [] else l.map (fun a => (false, a))) ++
  (if c.opcode = 0xA1 then [] else l.reverse.map (fun a => (true, a)))

/-- A phase as one member sees it: gather, axis, extent, own coordinate, ring, elements of a segment, elements of a chunk. -/
structure PhaseView where
  gather : Bool
  axis : Nat
  n : Nat
  i : Nat
  ring : Bool
  segment : Nat
  chunk : Nat
  deriving DecidableEq, Repr

def State.phaseView (s : State) (c : Cmd) (k : Collective) : Option PhaseView :=
  (s.phases c)[k.phase]?.map (fun p =>
    { gather := p.1, axis := p.2, n := s.extent p.2, i := coordOf s.chip p.2, ring := s.ring p.2,
      segment := k.vector.length / s.extent p.2, chunk := 65536 / (if p.1 then c.elemBytes else 4) })

def PhaseView.chunks (v : PhaseView) : Nat := ceilDiv v.segment v.chunk

/-- Ports: sends towards + leave by 2a and come in by 2a + 1. -/
def PhaseView.plus (v : PhaseView) : Nat := 2 * v.axis
def PhaseView.minus (v : PhaseView) : Nat := 2 * v.axis + 1

/-- The transfers a member begins of itself: out port and segment. -/
def PhaseView.begins (v : PhaseView) : List (Nat × Nat) :=
  if v.gather then
    if v.ring then [(v.plus, v.i)]
    else (if v.i + 1 < v.n then [(v.plus, v.i)] else []) ++ (if 0 < v.i then [(v.minus, v.i)] else [])
  else if v.ring then [(v.plus, (v.i + v.n - 1) % v.n)]
  else if v.i = 0 then (List.range v.n).map (fun g => (v.plus, g)) else []

/-- The transfers a member awaits: in port and segment. -/
def PhaseView.awaits (v : PhaseView) : List (Nat × Nat) :=
  let steps := rangeFrom 1 (v.n - 1)
  if v.gather then
    if v.ring then steps.map (fun t => (v.minus, (v.i + v.n - t) % v.n))
    else (List.range v.i).reverse.map (fun g => (v.minus, g)) ++ (rangeFrom (v.i + 1) (v.n - 1 - v.i)).map (fun g => (v.plus, g))
  else if v.ring then steps.map (fun t => (v.minus, (v.i + 2 * v.n - t - 1) % v.n))
  else
    (if 0 < v.i then (List.range v.n).map (fun g => (v.minus, g)) else []) ++
    (if v.i + 1 < v.n then (List.range (v.i + 1)).map (fun g => (v.plus, g)) else [])

/-- By chunk: port, segment, chunk. -/
def PhaseView.byChunk (v : PhaseView) (l : List (Nat × Nat)) : List (Nat × Nat × Nat) :=
  l.flatMap (fun x => (List.range v.chunks).map (fun j => (x.1, x.2, j)))

/-- First element of a chunk in the phase's vector, and its number of elements. -/
def PhaseView.at_ (v : PhaseView) (g j : Nat) : Nat := g * v.segment + j * v.chunk
def PhaseView.size (v : PhaseView) (j : Nat) : Nat := min v.chunk (v.segment - j * v.chunk)

/-- The index of a chunk on the wire: the same for sender and receiver. `port` is the sender's. -/
def PhaseView.index (v : PhaseView) (phase port g j : Nat) : Nat := ((phase * 2 + port % 2) * 16 + g) * v.chunks + j

/-- The neighbour by a port. -/
def State.neighbour (s : State) (v : PhaseView) (port : Nat) : Nat :=
  let c' := if port % 2 = 0 then (v.i + 1) % v.n else (v.i + v.n - 1) % v.n
  s.chip - v.i * 16 ^ v.axis + c' * 16 ^ v.axis

/-! ### Arithmetic (R369, R370) -/

/-- Two elements added in the pipeline, with an INT32 saturation counted. -/
def collAdd (format a b : Nat) : Nat × Nat :=
  if format = 2 then
    let r := satInt 32 (toSigned 32 a + toSigned 32 b)
    (ofSigned 32 r.1, if r.2 then 1 else 0)
  else (f32Add a b, 0)

/-- Two runs of elements added. -/
def collAddAll (format : Nat) : List Nat → List Nat → List Nat × Nat
  | a :: l, b :: m =>
    let r := collAdd format a b
    let t := collAddAll format l m
    (r.1 :: t.1, r.2 + t.2)
  | _, _ => ([], 0)

/-- Elements of a memory image, widened for the pipeline. All-gather keeps bits. -/
def collDecode (c : Cmd) (d : Bytes) : List Nat :=
  (chunks c.elemBytes (d.length / c.elemBytes + 1) d).map (fun b =>
    if c.collFormat = 1 ∧ c.opcode ≠ 0xA2 then leNat b * 65536 else leNat b)

/-- A BF16 sum rounded once, when its last reduction is done, and whether that overflows. -/
def collRound (a : Nat) : Nat := Fmt.bf16.encode (Fmt.fp32.decode a)
def collOverflows (a : Nat) : Bool := !(Fmt.fp32.decode a).nonFinite && (Fmt.bf16.decode (collRound a)).nonFinite

/-- Non-finite elements of a stored vector. -/
def collNonFinite (format : Nat) (l : List Nat) : Nat :=
  if format = 2 then 0
  else (l.filter (fun a => ((if format = 1 then Fmt.bf16 else Fmt.fp32).decode a).nonFinite)).length

/-- Put a run of elements into a vector. -/
def putRun (v : List Nat) (i : Nat) (l : List Nat) : List Nat := v.take i ++ l ++ v.drop (i + l.length)

/-! ### Progress -/

def State.setColl (s : State) (k : Collective) : State :=
  { s with fabric := { s.fabric with collectives := mapIf (fun x => x.cmd = k.cmd) (fun _ => k) s.fabric.collectives } }

def State.coll? (s : State) (id : Nat) : Option Collective := s.fabric.collectives.find? (fun k => k.cmd = id)

/-- Chunks of a part, and elements of the parts read so far. -/
def State.partChunks (s : State) (c : Cmd) : Nat := ceilDiv (s.partBytes c) 65536
def State.available (s : State) (c : Cmd) (k : Collective) : Nat := min (k.read * (65536 / c.elemBytes)) (s.partElems c)

/-- Where the parts begin in the vector: at the own segment when the first phase gathers. -/
def State.partStart (s : State) (c : Cmd) : Nat :=
  match s.phases c with
  | (true, a) :: _ => coordOf s.chip a * s.partElems c
  | _ => 0

/-- Own elements of a chunk have been read: all of them after the first phase. -/
def State.chunkThere (s : State) (c : Cmd) (k : Collective) (v : PhaseView) (g j : Nat) : Bool :=
  k.phase ≠ 0 || v.at_ g j + v.size j ≤ s.partStart c + s.available c k

/-- What a chunk carries before its elements: format, axes and element count of its collective (R364, notes/assumptions/131.md). -/
def Cmd.chunkHeader (c : Cmd) : Bytes := natLe 1 c.collFormat ++ natLe 1 c.axes ++ natLe 2 0 ++ natLe 4 c.elements

/-- Frames of a chunk of n bytes. -/
def chunkFrames (n : Nat) : Nat := ceilDiv (8 + n) 512

/-- Queue the data of a chunk at its port until the neighbour's Leek has a slot for it. -/
def State.offerChunk (s : State) (c : Cmd) (k : Collective) (v : PhaseView) (port g j : Nat) (l : List Nat) : State :=
  s.offer ⟨k.channel, s.neighbour v port, k.number, v.index k.phase port g j, c.chunkHeader,
    l.flatMap (fun a => natLe (if v.gather then c.elemBytes else 4) a), c.job, true, s.now⟩

/-- Queue the chunks that the phase begins with, as far as their elements are there, in order. `fuel` bounds them. -/
def State.queueChunks (s : State) (c : Cmd) (k : Collective) (v : PhaseView) : Nat → Collective × State
  | 0 => (k, s)
  | fuel + 1 =>
    match (v.byChunk v.begins)[k.queued]? with
    | none => (k, s)
    | some (port, g, j) =>
      if s.chunkThere c k v g j then
        (s.offerChunk c k v port g j ((k.vector.drop (v.at_ g j)).take (v.size j))).queueChunks c { k with queued := k.queued + 1 } v fuel
      else (k, s)

/-- The phase is over: everything it awaits has come and everything it begins is queued. -/
def PhaseView.over (v : PhaseView) (k : Collective) : Bool :=
  k.got.length = (v.byChunk v.awaits).length && k.queued = (v.byChunk v.begins).length

/-- The vector a phase begins with: a gathering one makes room for the other segments, `State.shift` elements of them in front. -/
def State.expand (s : State) (c : Cmd) (phase : Nat) (l : List Nat) : List Nat :=
  match (s.phases c)[phase]? with
  | some (true, a) =>
    let i := coordOf s.chip a
    List.replicate (i * l.length) 0 ++ l ++ List.replicate ((s.extent a - 1 - i) * l.length) 0
  | _ => l
def State.shift (s : State) (c : Cmd) (phase n : Nat) : Nat :=
  match (s.phases c)[phase]? with
  | some (true, a) => coordOf s.chip a * n
  | _ => 0

/-- The reductions end with sums of BF16 parts that are still FP32. -/
def State.unrounded (s : State) (c : Cmd) : Bool :=
  c.collFormat = 1 && c.opcode ≠ 0xA2 && (s.phases c).getLast?.all (fun p => !p.1)

/-- A BF16 sum is rounded as the reductions end and a gather begins (R370); overflows are counted (R375). -/
def State.roundIfReduced (s : State) (c : Cmd) (k : Collective) : Collective :=
  if c.collFormat = 1 ∧ ((s.phases c)[k.phase]?.any (fun p => p.1)) then
    let spilt := (List.range k.vector.length).filter (fun i => collOverflows (k.vector.getD i 0))
    { k with vector := k.vector.map collRound, overflow := spilt, saturated := k.saturated + spilt.length }
  else k

/-- Begin the next phase once the present one is over. -/
def State.nextPhase (s : State) (c : Cmd) (k : Collective) (v : PhaseView) : Collective :=
  let own := if v.gather then k.vector else (k.vector.drop (v.i * v.segment)).take v.segment
  let k : Collective := { k with phase := k.phase + 1, queued := 0, got := [], granted := [], vector := own }
  let k := if v.gather then k else s.roundIfReduced c k
  let n := s.shift c k.phase k.vector.length
  { k with vector := s.expand c k.phase k.vector, overflow := k.overflow.map (· + n) }

/-- A collective moves as far as it can without the neighbours: chunks are queued, a finished phase gives way to the next. The
last phase stays. -/
def State.advance (s : State) (c : Cmd) (k : Collective) : Nat → Collective × State
  | 0 => (k, s)
  | fuel + 1 =>
    match s.phaseView c k with
    | none => (k, s)
    | some v =>
      let (k, s) := s.queueChunks c k v ((v.byChunk v.begins).length + 1)
      if v.over k && (k.phase ≠ 0 || s.available c k = s.partElems c) && k.phase + 1 < (s.phases c).length then
        s.advance c (s.nextPhase c k v) fuel
      else (k, s)

/-! ### Leek slots (R365) -/

/-- The next chunk a collective awaits on a port that has no slot yet and whose own elements are there. -/
def State.wants (s : State) (c : Cmd) (k : Collective) (v : PhaseView) (port : Nat) : Option (Nat × Nat × Nat) :=
  (v.byChunk v.awaits).find? (fun x => x.1 = port && !k.granted.any (fun y => y.1 = x) && (v.gather || s.chunkThere c k v x.2.1 x.2.2))

/-- Slots that a collective holds on a port. -/
def Collective.slots (k : Collective) (port : Nat) : Nat :=
  (k.granted.filter (fun x => x.1.1 = port && !k.got.contains x.1)).length

/-- Send the credit for a granted chunk. The sender's port is the opposite one of the axis. -/
def State.creditChunk (s : State) (k : Collective) (v : PhaseView) (x : Nat × Nat × Nat) : State :=
  s.sendCredit (s.neighbour v x.1) k.channel k.number (v.index k.phase (x.1 + 1) x.2.1 x.2.2)

/-- Grant a port's free slots in turn among the channels that have chunks waiting: 32 slots, at most 8 a channel. -/
def State.grantSlots (s : State) (port : Nat) : Nat → State
  | 0 => s
  | fuel + 1 =>
    let used := s.fabric.collectives.foldl (fun n k => n + k.slots port) 0
    if 32 ≤ used then s
    else
      let turn := (s.port port).leekTurn
      let pick := (List.range 16).findSome? (fun i =>
        let ch := (turn + 1 + i) % 16
        match s.fabric.collectives.find? (fun k => k.channel = ch) with
        | none => none
        | some k =>
          if 8 ≤ k.slots port then none
          else match s.cmd? k.cmd with
            | none => none
            | some c => (s.phaseView c k).bind (fun v => (s.wants c k v port).map (fun x => (k, v, x))))
      match pick with
      | none => s
      | some (k, v, x) =>
        (((s.setColl { k with granted := k.granted ++ [(x, s.now)] }).setPort port { s.port port with leekTurn := k.channel }).creditChunk
          k v x).grantSlots port fuel

def State.grantAll (s : State) : State := (List.range 6).foldl (fun s p => s.grantSlots p 32) s

/-! ### The output (R369, R374) -/

/-- The last phase, once it runs. -/
def State.lastView (s : State) (c : Cmd) (k : Collective) : Option PhaseView :=
  if k.phase + 1 = (s.phases c).length then s.phaseView c k else none

/-- A piece of the output: where it lies in the vector, and its bytes in the output. -/
structure OutPiece where
  start : Nat
  count : Nat
  offset : Nat
  deriving DecidableEq, Repr

/-- The pieces of the output, segment and chunk: those of the parts where there is nothing to exchange, else those of the last
phase. -/
def State.pieces (s : State) (c : Cmd) (k : Collective) : List (Nat × Nat) :=
  let of_ (v : PhaseView) (l : List Nat) : List (Nat × Nat) := l.flatMap (fun g => (List.range v.chunks).map (fun j => (g, j)))
  if s.phases c = [] then (List.range (s.partChunks c)).map (fun j => (0, j))
  else match s.lastView c k with
    | some v => of_ v (if v.gather then List.range v.n else [v.i])
    | none => []

def State.piece (s : State) (c : Cmd) (k : Collective) (x : Nat × Nat) : OutPiece :=
  let per := 65536 / c.elemBytes
  match s.lastView c k with
  | some v => ⟨v.at_ x.1 x.2, v.size x.2, (if v.gather then v.at_ x.1 x.2 else x.2 * v.chunk) * c.elemBytes⟩
  | none => ⟨x.2 * per, min per (s.outElems c - x.2 * per), x.2 * 65536⟩

/-- A piece has its final value: read and summed, own at the start of a gather, or come over the last step of its segment. -/
def State.pieceFinal (s : State) (c : Cmd) (k : Collective) (x : Nat × Nat) : Bool :=
  match s.lastView c k with
  | none => x.2 < k.read
  | some v =>
    if v.gather then (x.1 = v.i && s.chunkThere c k v x.1 x.2) || k.got.any (fun y => y.2 = x)
    else k.got.contains (if v.ring || v.i + 1 = v.n then v.minus else v.plus, x.1, x.2)

/-- Data of a collective that still waits for credit. -/
def State.collWaiting (s : State) (k : Collective) : Bool :=
  s.fabric.outgoing.any (fun o => o.chunk && o.channel = k.channel && o.number = k.number)

/-! ### The watch over chunk steps (R373) -/

/-- When the chunk steps in progress began: data that waits for a credit, and slots whose chunk has not come or is not yet in the
output. -/
def State.claims (s : State) (c : Cmd) (k : Collective) : List Ns :=
  let out := s.pieces c k
  (s.fabric.outgoing.filter (fun o => o.chunk && o.channel = k.channel && o.number = k.number)).map (fun (o : Outgoing) => o.since) ++
  (k.granted.filter (fun x => !k.got.contains x.1 || (out.contains x.1.2 && !k.written.contains x.1.2))).map (fun x => x.2)

/-- The watchdog times the oldest chunk step of each collective; between steps, and while a gate is closed, none. -/
def State.rewatch (s : State) (k : Collective) : State :=
  match s.cmd? k.cmd with
  | none => s
  | some c =>
    let l := s.claims c k
    s.setCmd { c with unwatched := l = [], watched := if l = [] then 0 else s.now - minOr 0 l }
def State.rewatchAll (s : State) : State := s.fabric.collectives.foldl State.rewatch s

/-- Keep a collective's progress, and let it and the others claim slots. -/
def State.collStep (s : State) (k : Collective) : State := (s.setColl k).grantAll.rewatchAll

/-! ### The end (R373 to R375) -/

/-- A collective ends with a status: its engine writes the record it owes and completes it. -/
def State.collFinish (s : State) (c : Cmd) (k : Collective) (status : Nat) : State :=
  let s : State := { s with fabric := { s.fabric with collectives := s.fabric.collectives.filter (fun x => x.cmd ≠ c.id) } }
  let c : Cmd := { c with
    scratch := [status, k.sent, k.received, k.nonFinite, k.saturated], armed := true, unwatched := true, watched := 0 }
  match c.unit with
  | some u => (s.setCmd c).armStatus u.num c
  | none => s.setCmd c

/-- A collective has ended and owes its record. -/
def Cmd.collEnded (c : Cmd) : Bool := 0xA0 ≤ c.opcode && c.opcode ≤ 0xA2 && c.phase = .running && c.scratch.length = 5

/-- A collective with nothing done. -/
def Collective.none_ (c : Cmd) (timeout : Nat) : Collective :=
  { cmd := c.id, channel := c.collChannel, number := c.collNumber, timeout := timeout, phase := 0, read := 0, written := [],
    paid := 0, paidOut := 0, vector := [], overflow := [], queued := 0, got := [], granted := [], sent := 0, received := 0,
    nonFinite := 0, saturated := 0 }

/-! ### The commands -/

/-- The first step of a collective (R367): its fields and addresses are checked, an illegal operation before any data moves, and
it asks for its channel. The timeout in force now governs it. -/
def State.startCollective (s : State) (id op : Nat) : State :=
  match s.cmd? id with
  | none => s
  | some c =>
    if c.opcode ≠ op ∨ c.phase ≠ .running ∨ c.armed then s
    else if !s.collFieldsOk c then s.illegal c
    else
      match c.unit with
      | none => s
      | some u =>
        match s.needRanges c u (s.collRanges c) with
        | .fault s => s
        | .wait s => s
        | .ready s c =>
          if !s.collTargetsOk c then s.illegal c
          else
            (s.setCmd { c with armed := true, unwatched := true, scratch := [s.num (objKey 0x3010 1)] }).askChannel
              c.collChannel .collective c.collNumber c.id

/-- ALL_REDUCE (R366, R369). -/
def execAllReduce (dt id : Nat) (s : State) : Host.Outcome State Fault Refusal := .next ((s.tick dt).startCollective id 0xA0)

/-- REDUCE_SCATTER (R366, R369). -/
def execReduceScatter (dt id : Nat) (s : State) : Host.Outcome State Fault Refusal := .next ((s.tick dt).startCollective id 0xA1)

/-- ALL_GATHER (R366, R369). -/
def execAllGather (dt id : Nat) (s : State) : Host.Outcome State Fault Refusal := .next ((s.tick dt).startCollective id 0xA2)

/-- The credits of an operation that runs on a channel, to the packages that send it data (R364): slice index 0 and, for a
lookup, 1; 2 and 3 for refresh slots and end markers. A collective grants Leek slots. -/
def State.creditOp (s : State) (ch : Nat) (o : ChannelOp) : State :=
  let each (s : State) (chips : List Nat) (idx : List Nat) : State :=
    (chips.filter (· ≠ s.chip)).foldl (fun s c => idx.foldl (fun s i => s.sendCredit c ch o.number i) s) s
  match o.kind with
  | .refresh => each s (s.table o.owner).chips [2, 3]
  | .lookup =>
    (match s.cmd? o.owner with
    | some c => each s (s.table c.tableNo).chips [0, 1]
    | none => s)
  | .update =>
    (match s.cmd? o.owner with
    | some c => each s (s.table c.tableNo).chips [0]
    | none => s)
  | .collective =>
    match s.coll? o.owner, s.cmd? o.owner with
    | some k, some c =>
      let s := match s.phaseView c k with
        | some v => (k.granted.filter (fun (x : (Nat × Nat × Nat) × Ns) => !k.got.contains x.1)).foldl
            (fun (s : State) (x : (Nat × Nat × Nat) × Ns) => s.creditChunk k v x.1) s
        | none => s
      s.grantAll.rewatchAll
    | _, _ => s

/-- An operation takes its channel: a collective begins its pipeline. -/
def State.beginOp (s : State) (o : ChannelOp) : State :=
  if o.kind = .collective then
    match s.cmd? o.owner with
    | some c =>
      let k := Collective.none_ c (c.scratch.headD 0)
      let k : Collective := { k with vector := s.expand c 0 (List.replicate (s.partElems c) 0) }
      { s with fabric := { s.fabric with collectives := s.fabric.collectives ++ [k] } }
    | none => s
  else s

/-- CHANNEL_ACQUIRE (R363, R364): a free channel passes to the operation that has waited longest, which grants its sources
credit; on a busy channel the running operation's credits are repeated. -/
def execChannelAcquire (dt ch : Nat) (s : State) : Host.Outcome State Fault Refusal :=
  let s := s.tick dt
  let v := s.channel ch
  match v.running, v.waiting with
  | some o, _ => .next (s.creditOp ch o)
  | none, [] => .next s
  | none, o :: rest => .next (((s.setChannel ch { v with running := some o, waiting := rest }).beginOp o).creditOp ch o)

/-! ### Credits (R364, R365) -/

/-- CREDIT_RECEIVE (R364, R365): a credit of `source` for an operation's slice or chunk. For this package it releases the data
that waits for it, counted by job, channel and, for a chunk, port; for another package it is passed on. A refresh is sent only
while it holds its channel (R363). A credit that meets no waiting data has no effect: its sender repeats it. -/
def execCreditReceive (dt p dest source channel number index : Nat) (s : State) : Host.Outcome State Fault Refusal :=
  let s := s.tick dt
  if !s.portUp p then .next s
  else
    let s := s.frameIn p 0
    if dest ≠ s.chip then
      match s.route dest with
      | some o =>
        .next (s.putControl source o frameCredit dest channel (number % 65536 + 65536 * (index % 65536)) [])
      | none => .next s
    else
      match s.fabric.outgoing.find? (fun o =>
          o.channel = channel && o.chip = source && o.number = number && o.index % 65536 = index &&
          (!o.isRefresh || s.holdsChannel channel .refresh (fieldLe o.data 0 2))) with
      | none => .next s
      | some o =>
        let s : State := { s with fabric := { s.fabric with
          outgoing := s.fabric.outgoing.erase o
          collectives := if o.chunk then
              mapIf (fun c => c.channel = channel && c.number = number)
                (fun c => { c with sent := c.sent + 1 }) s.fabric.collectives
            else s.fabric.collectives } }
        let s := (s.bump (channelKey channel 5) (s.now - o.since)).acct o.job 9 o.data.length
        let s := if o.chunk then s.bump (portKey p 0x0A) (s.now - o.since) else s
        let s := s.sendTo frameData source channel (number % 65536 + 65536 * (index % 65536)) (o.header ++ o.data)
        .next (if o.isRefresh then s.endParts (fieldLe o.data 0 2) else s.rewatchAll)

/-- The timeout of an operation that waits, in ns; none for a refresh (R363). -/
def State.opTimeout (s : State) (o : ChannelOp) : Option Nat :=
  match o.kind with
  | .lookup => some (s.num (objKey 0x2210 1) * 1000)
  | .update => some (s.num (objKey 0x2310 1) * 1000)
  | .collective => (s.cmd? o.owner).map (fun c => c.scratch.headD 0 * 1000)
  | .refresh => none

/-- CHANNEL_WAIT_TIMEOUT (R363): an operation that has waited longer than its timeout ends without moving data: a collective with
status 0x0001; a lookup or an update exchange goes on without its peers. -/
def execChannelWaitTimeout (dt ch owner : Nat) (s : State) : Host.Outcome State Fault Refusal :=
  let s := s.tick dt
  match (s.channel ch).waiting.find? (fun o => o.owner = owner && o.kind ≠ .refresh) with
  | none => .next s
  | some o =>
    match s.opTimeout o, s.cmd? owner with
    | some t, some c =>
      if s.now ≤ o.waitingSince + t then .next s
      else
        let s := s.leaveChannel ch o.kind owner
        if o.kind = .collective then
          .next ((s.bump (channelKey ch 2) 1).collFinish c (Collective.none_ c 0) 1)
        else .next (s.setCmd { c with scratch := 1 :: c.scratch.drop 1, unwatched := false })
    | _, _ => .next s

/-- The sum of every part's elements of chunk k: from +0.0 or 0, in ascending part index; a gather copies its one part. -/
def State.readChunk (s : State) (c : Cmd) (k : Nat) : Except Nat (List Nat × Nat) × State :=
  let n := min 65536 (s.partBytes c - k * 65536)
  (List.range c.parts).foldl (fun (r : Except Nat (List Nat × Nat) × State) p =>
    match r with
    | (.error e, s) => (.error e, s)
    | (.ok (sum, sat), s) =>
      match s.readVa ⟨.c1, some c.job⟩ c (s.partVa c p + k * 65536) n with
      | (.bad e, s) => (.error e, s)
      | (.ok d, s) =>
        if c.opcode = 0xA2 then (.ok (collDecode c d, 0), s)
        else
          let r := collAddAll c.collFormat sum (collDecode c d)
          (.ok (r.1, sat + r.2), s))
    (.ok (List.replicate (n / c.elemBytes) 0, 0), s)

/-- The gate of a chunk is open (R372). -/
def State.gateOpen (s : State) (c : Cmd) (k : Nat) : Bool := !c.gated || c.u64 40 + k + 1 ≤ s.fence c.gateFence

/-- Issue the requests for the m bytes of a chunk, of which `paid` have gone, with its engine's tags and regulator (R366, R302): what
has gone now, none when that is all. Those that lack tokens wait for them. -/
def State.issueBytes (s : State) (c : Cmd) (paid m : Nat) : Option Nat × State :=
  match c.unit with
  | none => (some paid, s)
  | some u =>
    let r := s.regulator u.num
    let used := (s.tags u.num).length
    if 256 ≤ used then (some paid, s)
    else if r.grants s.now (m - paid) then
      (none, (s.takeTokens u.num 16 (m - paid)).notePeakTags u.num (used + ceilDiv (m - paid) 256))
    else
      let n := r.level s.now / 256000 * 256
      let s := if n = 0 then s else (s.takeTokens u.num 16 n).notePeakTags u.num (used + n / 256)
      (some (paid + n), s.awaitTokens u.num 16 256)

/-- A collective whose output is written, and which has nothing left to take, queue or send, completes with status 0. -/
def State.collSettle (s : State) (c : Cmd) (k : Collective) : State :=
  let out := s.pieces c k
  if out ≠ [] && out.all (fun x => k.written.contains x) && (s.lastView c k).all (fun v => v.over k) && !s.collWaiting k then
    (s.freeChannel k.channel .collective c.id).collFinish c k 0
  else s

/-- Write a piece of the output. A sum of BF16 parts that is still FP32 is rounded here; an overflow is counted as saturated and not as
non-finite (R236, notes/assumptions/132.md). -/
def State.writePiece (s : State) (c : Cmd) (k : Collective) (x : Nat × Nat) : State :=
  let p := s.piece c k x
  let l := (k.vector.drop p.start).take p.count
  let here := (k.overflow.filter (fun i => p.start ≤ i && i < p.start + p.count)).length
  let spilt := if s.unrounded c then (l.filter collOverflows).length else here
  let l := if s.unrounded c then l.map collRound else l
  match s.writeVa ⟨.c1, some c.job⟩ c (c.collOutput + p.offset) (l.flatMap (natLe c.elemBytes)) with
  | (.bad e, s) => s.cmdFault c e
  | (.ok _, s) =>
    let k : Collective := { k with
      written := x :: k.written, paidOut := 0, nonFinite := k.nonFinite + (collNonFinite c.collFormat l - spilt),
      saturated := k.saturated + (if s.unrounded c then spilt else 0) }
    (s.collStep k).collSettle c k

/-- Read the next chunk of the parts and sum it; what can be sent is queued. -/
def State.sumChunk (s : State) (c : Cmd) (k : Collective) : State :=
  match s.readChunk c k.read with
  | (.error e, s) => s.cmdFault c e
  | (.ok (l, sat), s) =>
    let k : Collective := { k with
      vector := putRun k.vector (s.partStart c + k.read * (65536 / c.elemBytes)) l, read := k.read + 1, paid := 0,
      saturated := k.saturated + sat }
    let (k, s) := s.advance c k 8
    s.collStep k

/-- The next thing a collective does: it writes a piece that is final, or reads a chunk of its parts whose gate is open, or
completes. -/
def State.collWork (s : State) (c : Cmd) (k : Collective) : State :=
  match (s.pieces c k).find? (fun x => !k.written.contains x && s.pieceFinal c k x) with
  | some x =>
    (match s.issueBytes c k.paidOut ((s.piece c k x).count * c.elemBytes) with
    | (some n, s) => s.setColl { k with paidOut := n }
    | (none, s) => s.writePiece c k x)
  | none =>
    if k.read < s.partChunks c then
      if !s.gateOpen c k.read then s
      else
        match s.issueBytes c k.paid (c.parts * min 65536 (s.partBytes c - k.read * 65536)) with
        | (some n, s) => s.setColl { k with paid := n }
        | (none, s) => s.sumChunk c k
    else s.collSettle c k

/-- COLLECTIVE_CHUNK (R366, R369, R372, R374, R375): the next step of a collective that holds its channel, under the translations of
its parts and output; or the record that one owes which has ended. -/
def execCollectiveChunk (dt id : Nat) (s : State) : Host.Outcome State Fault Refusal :=
  let s := s.tick dt
  match s.cmd? id with
  | none => .next s
  | some c =>
    match c.unit, s.coll? id with
    | none, _ => .next s
    | some u, none => .next (if c.collEnded then s.armStatus u.num c else s)
    | some u, some k =>
      match s.needRanges c u (s.collRanges c) with
      | .fault s => .next s
      | .wait s => .next s
      | .ready s c => .next (s.collWork c k)

/-- Where a received chunk goes on to, if anywhere. -/
def PhaseView.passes (v : PhaseView) (port g : Nat) : Option Nat :=
  if v.gather then
    if v.ring then (if g = (v.i + 1) % v.n then none else some v.plus)
    else if port = v.minus then (if v.i + 1 < v.n then some v.plus else none)
    else (if 0 < v.i then some v.minus else none)
  else if v.ring then (if g = v.i then none else some v.plus)
  else if port = v.minus then
    (if v.i + 1 < v.n then some v.plus else if g = v.i then none else some v.minus)
  else (if g = v.i then none else some v.minus)

/-- A chunk has come into its slot: the Leek adds the own values on the way of a reduction, the chunk is kept where it belongs
and passed on (R368, R370). -/
def State.takeChunk (s : State) (c : Cmd) (k : Collective) (v : PhaseView) (port g j : Nat) (l : List Nat) : State :=
  let own := (k.vector.drop (v.at_ g j)).take (v.size j)
  let adds := !v.gather && port = v.minus
  let r := if adds then collAddAll c.collFormat l own else (l, 0)
  let keeps := v.gather || port = v.minus || g = v.i
  let k : Collective := { k with
    vector := if keeps then putRun k.vector (v.at_ g j) r.1 else k.vector
    got := k.got ++ [(port, g, j)], received := k.received + 1, saturated := k.saturated + r.2 }
  let s := match v.passes port g with
    | some o => s.offerChunk c k v o g j r.1
    | none => s
  let (k, s) := s.advance c k 8
  s.collStep k

/-- COLLECTIVE_DATA_RECEIVE (R364, R365, R368): a chunk of a collective arrives on a port, with the channel, number, format,
elements and axes of its header. Data of a completed operation is late, data whose header differs is mismatched; both are
counted and discarded. -/
def execCollectiveDataReceive (dt p channel number format elements axes phase seg chunk : Nat) (data : Bytes) (s : State) :
    Host.Outcome State Fault Refusal :=
  let s := s.tick dt
  match s.fabric.collectives.find? (fun k => k.channel = channel && k.number = number) with
  | none => .next (if s.completedOn channel number then s.bump (channelKey channel 3) (chunkFrames data.length) else s)
  | some k =>
    match s.cmd? k.cmd with
    | none => .next s
    | some c =>
      if format ≠ c.collFormat ∨ elements ≠ c.elements ∨ axes ≠ c.axes then
        .next (s.bump (channelKey channel 4) (chunkFrames data.length))
      else
        match s.phaseView c k with
        | none => .next s
        | some v =>
          let w := if v.gather then c.elemBytes else 4
          if phase ≠ k.phase ∨ !k.granted.any (fun x => x.1 = (p, seg, chunk)) ∨ k.got.contains (p, seg, chunk) then .next s
          else if data.length ≠ v.size chunk * w then .next (s.bump (channelKey channel 4) (chunkFrames data.length))
          else .next (s.takeChunk c k v p seg chunk ((chunks w (v.size chunk + 1) data).map leNat))

/-- Bytes of the output, offset and length, that belong to segments not yet finished: those of the last phase, or the whole output
before it (R373). -/
def State.unfinished (s : State) (c : Cmd) (k : Collective) : List (Nat × Nat) :=
  let todo (g : Nat) : Bool := (s.pieces c k).any (fun x => x.1 = g && !k.written.contains x)
  match s.lastView c k with
  | some v =>
    if v.gather then ((List.range v.n).filter todo).map (fun g => (g * v.segment * c.elemBytes, v.segment * c.elemBytes))
    else if todo v.i then [(0, s.outBytes c)] else []
  | none => [(0, s.outBytes c)]

/-- Undefined bytes in ranges of the output; the code of a bus error, if one is met. -/
def State.undefine (s : State) (c : Cmd) : List (Nat × Nat) → Option Nat × State
  | [] => (none, s)
  | (o, n) :: rest =>
    let (d, s) := s.drawBytes n
    match s.writeVa ⟨.c1, some c.job⟩ c (c.collOutput + o) d with
    | (.bad e, s) => (some e, s)
    | (.ok _, s) => s.undefine c rest

/-- COLLECTIVE_TIMEOUT (R373): a chunk has waited longer than the collective timeout for a credit or for a neighbour's chunk. The
output of every segment not yet finished is undefined, status 0x0001 is written and the channel is freed. -/
def execCollectiveTimeout (dt id : Nat) (s : State) : Host.Outcome State Fault Refusal :=
  let s := s.tick dt
  match s.coll? id, s.cmd? id with
  | some k, some c =>
    let late (t : Ns) : Bool := t + k.timeout * 1000 < s.now
    if !(s.fabric.outgoing.any (fun o => o.chunk && o.channel = k.channel && o.number = k.number && late o.since) ||
        k.granted.any (fun x => !k.got.contains x.1 && late x.2)) then .next s
    else
      match c.unit with
      | none => .next s
      | some u =>
        match s.needRanges c u (s.collRanges c) with
        | .fault s => .next s
        | .wait s => .next s
        | .ready s c =>
          let s := (s.freeChannel k.channel .collective id).bump (channelKey k.channel 2) 1
          let s : State := { s with fabric := { s.fabric with
            outgoing := s.fabric.outgoing.filter (fun o => !(o.chunk && o.channel = k.channel && o.number = k.number)) } }
          match s.undefine c (s.unfinished c k) with
          | (none, s) => .next (s.collFinish c k 1)
          | (some e, s) => .next (s.cmdFault c e)
  | _, _ => .next s

end Sys2Proof.Machine
end

