-- ==== Sys2Proof/Machine/Epochs.lean ====
section
/-! DEFINITION. Epochs: starting them, committing boundaries, and what happens when one falls (R61 to R70, R87, R88, R102, R104,
R156, R417, R480). -/
namespace Sys2Proof.Machine

/-! ### Start (R62) -/

/-- The number of the first boundary: the least k of at least 1 with O + k × P at or after t + 1 ms. -/
def firstBoundary (origin period t : Nat) : Nat := max 1 (ceilDiv (t + 1000000 - origin) period)

/-- Merge entries, contributions and tallies formed before the start belong to epoch k − 1, as do the changes and loads that wait, and
swaps that wait take effect at boundary k. -/
def State.relabel (s : State) (k : Nat) : State :=
  { s with
    tables := s.tables.map (fun (e : Nat × Table) => (e.1, { e.2 with
      changes := e.2.changes.map (fun c => { c with epoch := k - 1 }), dirty := e.2.dirty.map (fun d => (d.1, k - 1)) }))
    update := { s.update with
      entries := s.update.entries.map (fun (e : Nat × List MergeEntry) =>
        (e.1, e.2.map (fun m => if m.kind = .home then { m with epoch := k - 1 } else m)))
      deliveries := s.update.deliveries.map (fun d => { d with epoch := k - 1 })
      delivered := s.update.delivered.map (fun d => (d.1, k - 1, d.2.2.1, d.2.2.2))
      swaps := s.update.swaps.map (fun x => { x with epoch := x.epoch.map (fun _ => k) }) } }

/-- Writing true to epochs running (R62): the status code and the state. -/
def State.epochsStart (s : State) : Nat × State :=
  if s.tenancy ≠ 1 || s.epochsRunning then (8, s)
  else
    let p := s.num (objKey 0x2100 1) * 1000
    let o := s.num (objKey 0x2100 2)
    let k := firstBoundary o p s.now
    let s := ((s.setFlag (objKey 0x2100 3) true).setNum epochKey (k - 1)).setNum boundaryKey (s.num (objKey 0x2000 6))
    (0, ((s.setNum nextBoundaryKey (o + k * p)).relabel k).signalEpochs)

/-! ### Committing boundaries (R64, R66 to R69) -/

/-- BOUNDARY_COMMIT (R66): in free-running mode the next boundary is committed at one period after the present one. -/
def execBoundaryCommit (dt : Nat) (s : State) : Host.Outcome State Fault Refusal :=
  let s := s.tick dt
  if s.uncommitted && s.epochs.mode = 0 then .next (s.setNum nextBoundaryKey s.nominal) else .next s

/-- The boundary that an edge now proposes lies in the open window (R67). -/
def State.inWindow (s : State) (b : Nat) : Bool :=
  s.nominal - s.periodNs / 4 ≤ b && b ≤ s.nominal + s.periodNs / 4

/-- SYNC_IN_EDGE (R67, R69): an edge that passed the filter proposes the boundary 1,000 ns and the sync delay from now. -/
def execSyncInEdge (dt : Nat) (s : State) : Host.Outcome State Fault Refusal :=
  let s := s.tick dt
  let b := s.now + 1000 + s.num (objKey 0x2101 2)
  let s := s.setNum (objKey 0x2101 7) s.now
  if s.uncommitted && s.epochs.mode = 1 && s.inWindow b then .next ((s.setNum nextBoundaryKey b).bump (objKey 0x2101 3) 1)
  else .next (s.bump (objKey 0x2101 4) 1)

/-- WINDOW_DECIDE (R68): at N + P/4 − 1,000 ns a window without an accepted edge takes the fallback boundary. Edges stamped at that
very instant take part, so the decision is the last thing of its nanosecond, and the next one begins with it. -/
def execWindowDecide (dt : Nat) (s : State) : Host.Outcome State Fault Refusal :=
  let s := s.tick dt
  if s.uncommitted && s.epochs.mode = 1 && s.nominal + s.periodNs / 4 ≤ s.now + 1000 then
    .next (((s.setNum nextBoundaryKey (s.nominal + s.periodNs / 4)).bump (objKey 0x2101 6) 1).tick 1)
  else .next s

/-! ### Tier decisions (R87, R88) -/

/-- The pin list as it stands with the pin commands that wait, within its limit (R103): shard row and tier. -/
def Table.pinned (t : Table) : List (Nat × Nat) :=
  (t.changes.filter (fun c => c.pin)).foldl (fun (l : List (Nat × Nat)) c => c.rows.foldl (fun l b => pinRow l c.action b) l) t.pins

/-- Read the entries of shard rows: (row, tier, slot) in their order. An entry that cannot be read is recorded by the row's unit, and its
row takes no part in the decisions (R161). -/
def State.rowTiers (t : Table) : List Nat → State → List (Nat × Nat × Nat) × State
  | [], s => ([], s)
  | b :: rest, s =>
    match s.readEntry applyAccess t b with
    | (.ok e, s) =>
      let x := State.rowTiers t rest s
      ((b, e.1, e.2) :: x.1, x.2)
    | (.error e, s) => State.rowTiers t rest (s.applyBad (s.owner t b) e)

/-- Read the counter byte at an address. One that cannot be read is recorded by its unit. -/
def State.readCounter (s : State) (a : Nat) : Option Nat × State :=
  match s.read applyAccess (a / 32 * 32) 32 with
  | (.ok d, s) => (some (fieldLe d (a % 32) 1), s)
  | (.bad e, s) => (none, s.applyBad (s.stackOf a) e)

/-- Read the counters of hot and warm rows (row, tier, slot): (row, tier, counter) in their order. A row whose counter cannot be read is
left where it is. -/
def State.rowCounts (t : Table) : List (Nat × Nat × Nat) → State → List (Nat × Nat × Nat) × State
  | [], s => ([], s)
  | r :: rest, s =>
    let c := s.readCounter (t.counterAt r.2.1 r.2.2)
    let x := State.rowCounts t rest c.2
    ((c.1.map (fun n => (r.1, r.2.1, n))).toList ++ x.1, x.2)

/-- Moves a table wants, in the order of R88, as (shard row, source, destination), the pinned ones first, from the tiers of its rows and
the counters of the hot and warm ones. -/
def Table.wantedMoves (t : Table) (rows counts : List (Nat × Nat × Nat)) : List (Nat × Nat × Nat) × List (Nat × Nat × Nat) :=
  let pins := t.pinned
  let free (b : Nat) : Bool := !pins.any (fun p => p.1 = b)
  let pinned := pins.filterMap (fun p =>
    (rows.find? (fun r => r.1 = p.1 ∧ r.2.1 ≠ 3 ∧ r.2.1 ≠ p.2)).map (fun r => (p.1, r.2.1, p.2)))
  let hot := counts.filter (fun r => free r.1 && r.2.1 = 0)
  let warm := counts.filter (fun r => free r.1 && r.2.1 = 1)
  let down0 := hot.filter (fun r => r.2.2 < t.hotDemote)
  let down1 := warm.filter (fun r => r.2.2 < t.warmDemote)
  let up1 := warm.filter (fun r => t.hotPromote ≠ 0 && t.hotPromote ≤ r.2.2 && !down1.contains r)
  let up2 := t.candidates.filter (fun b => free b && t.warmPromote ≠ 0 && rows.any (fun r => r.1 = b && r.2.1 = 2))
  (pinned,
    down0.map (fun r => (r.1, 0, 1)) ++ down1.map (fun r => (r.1, 1, 2)) ++ up1.map (fun r => (r.1, 1, 0)) ++
      up2.map (fun b => (b, 2, 1)))

/-- Take a move when the limit and the pool allow it, else defer and count it. -/
def Table.takeMove (t : Table) (limited : Bool) (m : Nat × Nat × Nat) : Table :=
  if limited && t.limit ≤ t.moves.length then t.count 0x0E 1
  else
    match t.freeSlot m.2.2 with
    | some k => { t.setUsed m.2.2 (insertAsc k (t.used m.2.2)) with moves := t.moves ++ [⟨m.1, m.2.1, m.2.2, k⟩] }
    | none => t.count 0x0E 1

/-- Decide the moves of a table. A limit of zero disables the automatic moves and leaves the pinned ones
(notes/assumptions/34.md). -/
def State.decideMoves (s : State) (n : Nat) : State :=
  let t := s.table n
  let rows := State.rowTiers t (List.range t.shardRows) s
  let counts := State.rowCounts t (rows.1.filter (fun r => r.2.1 ≤ 1)) rows.2
  let s := counts.2
  let w := t.wantedMoves rows.1 counts.1
  let t : Table := w.1.foldl (fun (t : Table) m => t.takeMove (t.limit ≠ 0) m) { t with moves := [] }
  s.setTable n (if t.limit = 0 then t else w.2.foldl (fun (t : Table) m => t.takeMove true m) t)

/-- Halve the counters of a piece, whole code words. Counters that cannot be read or written stay, with a fault record. -/
def State.halvePiece (s : State) (p : Nat × Nat) : State :=
  match s.read applyAccess p.1 p.2 with
  | (.bad e, s) => s.applyBad (s.stackOf p.1) e
  | (.ok d, s) =>
    match s.write applyAccess p.1 (d.map (fun b => BitVec.ofNat 8 (b.toNat / 2))) with
    | (.bad e, s) => s.applyBad (s.stackOf p.1) e
    | (.ok _, s) => s

/-- Halve every tier counter of a table, clear its sketch and empty its candidate list (R87). -/
def State.halveCounters (s : State) (n : Nat) : State :=
  let t := s.table n
  let pieces := (List.range t.extentCount).flatMap (fun e =>
    t.cut e (t.partOffset .counters) (32 * ceilDiv (t.partBytes .counters) 32))
  let s := pieces.foldl State.halvePiece s
  s.setTable n { t with sketch := [], candidates := [] }

/-- Tier decisions of every ready tiered table. -/
def State.decideTiers (s : State) : State :=
  (s.tables.filter (fun (e : Nat × Table) => e.2.state = .ready && e.2.tiered)).foldl
    (fun s e => (s.decideMoves e.1).halveCounters e.1) s

/-! ### A boundary falls (R65, R156) -/

/-- A table takes part in an apply phase. -/
def Table.hasPart (t : Table) : Bool :=
  t.state = .ready && (t.trainable || t.refreshes || t.moves ≠ [] || t.changes ≠ [] || t.dirty ≠ [])

/-- Begin the apply phase: seal by epoch number, give every unit its part of every table with work, and ask for the refresh
channels (R363). -/
def State.beginApply (s : State) (boundary : Nat) : State :=
  let tables := s.tables.filter (fun (e : Nat × Table) => e.2.hasPart)
  let parts := tables.flatMap (fun (e : Nat × Table) => (List.range 32).map (fun u =>
    (⟨u, e.1, false, false, false, e.2.rate, e.2.epsilon, e.2.budget, e.2.channel⟩ : Part)))
  let s : State := { s with update := { s.update with
    applyEpoch := s.epoch, applyStart := boundary, parts := parts, markers := [], turns := [], busy := [], busySince := [] } }
  let s := (tables.filter (fun (e : Nat × Table) => e.2.refreshes)).foldl
    (fun s e => s.askChannel e.2.channel .refresh (s.epoch % 65536) e.1) s
  ((s.setFlag applyKey true).bump (objKey 0x2300 3) 1).endPhase

/-- SYNC_OUT rises at a boundary while enabled; a change of the enable counts from the first boundary at least 1 µs after it
(R70, R480). -/
def State.syncPulse (s : State) (boundary : Nat) : State :=
  let on := if s.epochs.syncOutChanged + 1000 ≤ boundary then s.flag (objKey 0x2101 8) else s.epochs.syncOutBefore
  if on then
    ({ s with epochs := { s.epochs with syncOutHigh := true, syncOutRose := boundary } } : State).emit (.syncOut true)
  else s

/-- Digest groups enabled since the last digest boundary become active at this one (R417). -/
def State.armDigests (s : State) : State :=
  (List.range 8).foldl (fun s g =>
    let v := Map.get DigestGroup.init s.integ.groups g
    let i := s.num (objKey (0x4050 + g) 6)
    if v.armed && i ≠ 0 && s.epoch % i = 0 then
      let v : DigestGroup := { v with armed := false, active := true, epoch := s.epoch, sums := [], due := [], messages := [], expelled := [] }
      let s : State := { s with integ := { s.integ with groups := Map.set DigestGroup.init s.integ.groups g v } }
      s.setNum (objKey (0x4050 + g) 8) 1
    else s) s

/-- An apply phase that the sender has not ended by the next boundary ends there: every budget has passed (R65). -/
def State.closePhase (s : State) : State :=
  ((s.update.parts.filter (fun p => !p.ended)).foldl State.expirePart s).endPhase

/-- The committed boundary `b` falls: the epoch number advances, swaps take effect, tier moves are decided, home entries are sealed, the
apply phase begins, and fences and SYNC_OUT follow (R65). -/
def State.boundaryFalls (s : State) (b : Nat) : State :=
    let s := s.closePhase
    let s := ((s.bump epochKey 1).setNum boundaryKey b).setNum nextBoundaryKey 0
    let s : State := { s with epochs := { s.epochs with
      period := s.num (objKey 0x2100 1), mode := s.num (objKey 0x2101 1) } }
    let s := (s.swapDue (fun x => x.epoch.any (fun k => k ≤ s.epoch))).decideTiers
    ((s.beginApply b).armDigests.signalEpochs).syncPulse b

/-- Time reaches the committed boundary: its last nanosecond passes with the epoch still the old one. -/
def State.toBoundary (s : State) (b : Nat) : State := s.pass (b - s.now)

/-- EPOCH_BOUNDARY (R64, R65): the committed boundary falls, at exactly its time. A command that comes before that time lets only time
pass; of one that comes after it, the time beyond the boundary has not passed yet (notes/assumptions/113.md). -/
def execEpochBoundary (dt : Nat) (s : State) : Host.Outcome State Fault Refusal :=
  let b := s.num nextBoundaryKey
  if !s.epochsRunning || b = 0 || s.now + dt < b then .next (s.tick dt)
  else .next (((s.tick dt).toBoundary b).boundaryFalls b)

/-- SYNC_OUT_PULSE_END (R480): 1,000 ns after it rose, SYNC_OUT is low again. -/
def execSyncOutPulseEnd (dt : Nat) (s : State) : Host.Outcome State Fault Refusal :=
  let s := s.tick dt
  if s.epochs.syncOutHigh && s.epochs.syncOutRose + 1000 ≤ s.now then
    .next (({ s with epochs := { s.epochs with syncOutHigh := false } } : State).emit (.syncOut false))
  else .next s

end Sys2Proof.Machine
end

