-- ==== Sys2Proof/Machine/Matrix.lean ====
section
/-! DEFINITION. The matrix engine: operands, passes, accumulation, the drain, weight banks and the debug view (R169 to R197). Each
event of a command is one pass of the array. -/
namespace Sys2Proof.Machine

/-! ### Modes (R170) and fields (R190) -/

/-- Contraction and width of a tile; rows of an accumulator block. -/
def tileOf (mode : Nat) : Nat := if mode < 4 then 64 else 32
def blockRows (mode : Nat) : Nat := if mode = 0 ∨ mode = 2 then 256 else 512

/-- The fields of a matrix command. -/
structure MatrixCmd where
  mode : Nat
  int4 : Bool
  aE5m2 : Bool
  wE5m2 : Bool
  transposed : Bool
  descending : Bool
  out : Nat
  column : Bool
  bias : Bool
  rowShifts : Bool
  colShifts : Bool
  relu : Bool
  shift : Nat
  fixed : Int
  m : Nat
  p : Nat
  q : Nat
  input : Nat
  weight : Nat
  output : Nat
  biasAt : Nat
  rowAt : Nat
  colAt : Nat
  inStride : Nat
  wStride : Nat
  outStride : Nat
  shiftAt : Nat
  stop : Nat
  deriving DecidableEq, Repr

/-- The fields as the bytes give them; byte 17 of a capture (0xD0) is reserved (R195). -/
def Cmd.matrix (c : Cmd) : MatrixCmd :=
  let b := c.u8 16
  let d := if c.opcode = 0xD0 then 0 else c.u8 17
  { mode := bits b 2 0, int4 := bit b 3, aE5m2 := bit b 4, wE5m2 := bit b 5, transposed := bit b 6, descending := bit b 7,
    out := bits d 2 0, column := bit d 3, bias := bit d 4, rowShifts := bit d 5, colShifts := bit d 6, relu := bit d 7,
    shift := bits (c.u8 18) 1 0, fixed := toSigned 8 (c.u8 19),
    m := c.u16 20 + 1, p := c.u16 22 + 1, q := c.u16 24 + 1, input := c.u32 28, weight := c.u32 32, output := c.u32 36,
    biasAt := c.u32 40, rowAt := c.u32 44, colAt := c.u32 48, inStride := c.u16 52, wStride := c.u16 54, outStride := c.u16 56,
    shiftAt := c.u32 60, stop := c.u16 58 }

/-- Contraction length and output width (R171). -/
def MatrixCmd.k (x : MatrixCmd) : Nat := if x.transposed then x.q else x.p
def MatrixCmd.n (x : MatrixCmd) : Nat := if x.transposed then x.p else x.q

/-- An integer mode; the width of its accumulator. -/
def MatrixCmd.isInt (x : MatrixCmd) : Bool := x.mode < 2
def MatrixCmd.accBits (x : MatrixCmd) : Nat := if x.mode = 0 then 32 else 16

/-- Bytes of an activation or weight, of a weight line, and of an output element. -/
def MatrixCmd.e (x : MatrixCmd) : Nat := if x.mode < 4 then 1 else 2
def MatrixCmd.weightLine (x : MatrixCmd) : Nat := if x.int4 then (x.q + 1) / 2 else x.q * x.e
def outBytesOf (out : Nat) : Nat := if out = 0 ∨ out = 5 then 4 else if out = 1 ∨ out = 2 ∨ out = 6 then 2 else 1

/-- Number of row blocks, output blocks and tiles. -/
def MatrixCmd.rowBlocks (x : MatrixCmd) : Nat := ceilDiv x.m (blockRows x.mode)
def MatrixCmd.outBlocks (x : MatrixCmd) : Nat := ceilDiv x.n (tileOf x.mode)
def MatrixCmd.tiles (x : MatrixCmd) : Nat := ceilDiv x.k (tileOf x.mode)

/-- Numbers 0 to n − 1 in the order of a loop. -/
def MatrixCmd.loop (x : MatrixCmd) (n : Nat) : List Nat := if x.descending then (List.range n).reverse else List.range n

/-- The passes in order (R177): row block, output block, tile. -/
def MatrixCmd.passes (x : MatrixCmd) : List (Nat × Nat × Nat) :=
  (x.loop x.rowBlocks).flatMap (fun r => (x.loop x.outBlocks).flatMap (fun o => (x.loop x.tiles).map (fun t => (r, o, t))))

/-- Rows of a row block, and columns of an output block. -/
def MatrixCmd.rowsIn (x : MatrixCmd) (r : Nat) : Nat := min (blockRows x.mode) (x.m - r * blockRows x.mode)
def MatrixCmd.colsIn (x : MatrixCmd) (o : Nat) : Nat := min (tileOf x.mode) (x.n - o * tileOf x.mode)

/-! ### Checks (R191) -/

/-- Lines of a length at a stride lie within the scratchpad, no line longer than the stride. -/
def linesOk (at_ stride lines len : Nat) : Bool :=
  stride ≠ 0 && len ≤ stride * 64 && at_ + (lines - 1) * stride * 64 + len ≤ 0x800000

/-- A used offset: no reserved bits, a multiple of 64. -/
def offsetOk (o : Nat) : Bool := o < 0x800000 && o % 64 = 0

/-- The codes that a multiply and a capture share. A capture's byte 18 is as R190 has it (R195); it has no output format for the
computed shift to be held to (notes/assumptions/126.md). -/
def MatrixCmd.codesOk (x : MatrixCmd) : Bool := x.mode < 6 && (!x.int4 || x.isInt) && x.shift ≠ 3

/-- The operand checks that a multiply and a capture share. -/
def MatrixCmd.operandsOk (x : MatrixCmd) : Bool :=
  offsetOk x.input && offsetOk x.weight && offsetOk x.output &&
  linesOk x.input x.inStride x.k (x.m * x.e) && linesOk x.weight x.wStride x.p x.weightLine

/-- The checks of a multiply. -/
def MatrixCmd.ok (x : MatrixCmd) : Bool :=
  x.codesOk && (x.shift ≠ 2 || x.out = 3 || x.out = 4 || x.out = 6 || x.out = 7) && (x.isInt == (5 ≤ x.out : Bool)) && x.operandsOk &&
  (if x.column then linesOk x.output x.outStride x.n (x.m * outBytesOf x.out)
   else linesOk x.output x.outStride x.m (x.n * outBytesOf x.out)) &&
  (!x.bias || (offsetOk x.biasAt && x.biasAt + 4 * x.n ≤ 0x800000)) &&
  (!x.rowShifts || (offsetOk x.rowAt && x.rowAt + x.m ≤ 0x800000)) &&
  (!x.colShifts || (offsetOk x.colAt && x.colAt + x.n ≤ 0x800000)) &&
  (x.shift ≠ 2 || (offsetOk x.shiftAt && x.shiftAt + x.m ≤ 0x800000 && x.n ≤ (if x.mode < 4 then 64 else 32)))

/-! ### Reading operands (R171, R193) -/

/-- Read lines of a scratchpad; a bus error ends the reading with its code. -/
def State.readLines (s : State) (base stride len : Nat) : Nat → Except Nat (List Bytes)
  | 0 => .ok []
  | n + 1 =>
    match s.readLines base stride len n with
    | .error e => .error e
    | .ok l =>
      match (s.read ⟨.c1, none⟩ (base + n * stride) len).1 with
      | .ok d => .ok (l ++ [d])
      | .bad e => .error e

/-- The format of float activations and weights. -/
def MatrixCmd.fmt (x : MatrixCmd) (e5m2 : Bool) : Fmt :=
  if x.mode < 4 then (if e5m2 then Fmt.e5m2 else Fmt.e4m3) else if x.mode = 4 then Fmt.bf16 else Fmt.fp16

/-- Element i of a line as an encoding: byte, half word, or nibble. -/
def elementAt (e : Nat) (int4 : Bool) (line : Bytes) (i : Nat) : Nat :=
  if int4 then bits (fieldLe line (i / 2) 1) (4 * (i % 2) + 3) (4 * (i % 2)) else fieldLe line (i * e) e

/-! ### Accumulation (R178 to R180) -/

/-- An accumulator or partial: its value, and whether anything saturated. -/
abbrev Acc := FV × Bool

/-- The FP16 accumulation of mode 0b011: an infinity, and a value beyond the largest finite one, become ±65,504. -/
def sat16 (v : FV) : Acc :=
  match Fmt.fp16.round v with
  | .inf neg => (.fin neg 65504 0, true)
  | r => (r, false)

/-- One addition of a column partial. Integer partials are exact. -/
def MatrixCmd.addProduct (x : MatrixCmd) (p : Acc) (a w : FV) : Acc :=
  if x.isInt then (p.1.add (a.mul w), p.2)
  else if x.mode = 3 then
    let q := sat16 (a.mul w)
    let r := sat16 (p.1.add q.1)
    (r.1, p.2 || q.2 || r.2)
  else (Fmt.fp32.round (p.1.add (a.mul w)), p.2)

/-- The accumulator takes a partial. -/
def MatrixCmd.accumulate (x : MatrixCmd) (c p : Acc) : Acc :=
  if x.isInt then
    let r := satInt x.accBits (c.1.toInt + p.1.toInt)
    (FV.ofInt r.1, c.2 || p.2 || r.2)
  else if x.mode = 3 then
    let r := sat16 (c.1.add p.1)
    (r.1, c.2 || p.2 || r.2)
  else (Fmt.fp32.round (c.1.add p.1), c.2 || p.2)

/-! ### Gating (R176) and counters -/

/-- A product is gated: one side is zero, and the other is finite. -/
def gatedPair (a w : FV) : Bool := (a.isZero && !w.nonFinite) || (w.isZero && !a.nonFinite)

def matrixKey (core sub : Nat) : Nat := objKey (0x6300 + core) sub

/-! ### Weight banks (R173, R174) -/

def State.bank (s : State) (i : Nat) : Bank := Map.get Bank.init s.arith.banks i
def State.setBank (s : State) (i : Nat) (b : Bank) : State :=
  { s with arith := { s.arith with banks := Map.set Bank.init s.arith.banks i b } }

/-- Row and column of the stored tile that a pass uses. -/
def MatrixCmd.tileRow (x : MatrixCmd) (o t : Nat) : Nat := if x.transposed then o else t
def MatrixCmd.tileCol (x : MatrixCmd) (o t : Nat) : Nat := if x.transposed then t else o

/-- The record of a tile, before its bytes are loaded. -/
def MatrixCmd.tileRecord (x : MatrixCmd) (o t : Nat) : Bank :=
  let n := tileOf x.mode
  let r := x.tileRow o t
  let q := x.tileCol o t
  let cols := min n (x.q - q * n)
  { valid := true, active := true, offset := x.weight + r * n * x.wStride * 64, stride := x.wStride, mode := x.mode, int4 := x.int4,
    row := r, col := q, bytes := [],
    first := x.weight + r * n * x.wStride * 64 + (if x.int4 then q * n / 2 else q * n * x.e),
    lineBytes := if x.int4 then (cols + 1) / 2 else cols * x.e, lines := min n (x.p - r * n) }

/-- The widened tile of the lines of a record: INT4 as INT8, and zero in the cells of a short tile or narrow block (R170, R177). -/
def MatrixCmd.widen (x : MatrixCmd) (b : Bank) (lines : List Bytes) : Bytes :=
  let n := tileOf x.mode
  let cols := min n (x.q - b.col * n)
  (List.range n).flatMap (fun l => (List.range n).flatMap (fun j =>
    if l < b.lines ∧ j < cols then
      let v := elementAt x.e x.int4 (lines.getD l []) j
      natLe x.e (if x.int4 then ofSigned 8 (toSigned 4 v) else v)
    else natLe x.e 0))

/-- Load a tile from the scratchpad (R173). -/
def State.loadTile (s : State) (core : Nat) (x : MatrixCmd) (o t : Nat) : Except Nat Bank :=
  let b := x.tileRecord o t
  match s.readLines (scratchBase core + b.first) (x.wStride * 64) b.lineBytes b.lines with
  | .ok l => .ok { b with bytes := x.widen b l }
  | .error e => .error e

/-- Two tiles are equal (R174). -/
def Bank.sameTile (b c : Bank) : Bool :=
  b.valid && b.offset = c.offset && b.stride = c.stride && b.mode = c.mode && b.int4 == c.int4 && b.row = c.row && b.col = c.col

/-- Use a tile: a bank that holds it is used as it is, whatever the scratchpad holds now; otherwise the idle bank loads it and becomes
active (R174). -/
def State.useTile (s : State) (core : Nat) (x : MatrixCmd) (o t : Nat) : Except Nat Bank × State :=
  let b0 := s.bank (2 * core)
  let b1 := s.bank (2 * core + 1)
  let r := x.tileRecord o t
  let idle := if b0.active then 1 else 0
  let hit : Option Nat :=
    if idle = 1 && b0.sameTile r then some 0 else if b1.sameTile r then some 1 else if b0.sameTile r then some 0 else none
  let pick := hit.getD idle
  let u := (s.setBank (2 * core) { b0 with active := pick = 0 }).setBank (2 * core + 1) { b1 with active := pick = 1 }
  match hit with
  | some i => (.ok (if i = 0 then b0 else b1), u.bump (matrixKey core 6) 1)
  | none =>
    match s.loadTile core x o t with
    | .error e => (.error e, s)
    | .ok b => (.ok b, (u.setBank (2 * core + pick) b).bump (matrixKey core 5) 1)

/-! ### Passes (R177, R178) -/

/-- The weight that cell (contraction index k of the tile, column j of the block) holds. -/
def MatrixCmd.cell (x : MatrixCmd) (b : Bank) (k j : Nat) : FV :=
  let at_ := if x.transposed then j * tileOf x.mode + k else k * tileOf x.mode + j
  let v := fieldLe b.bytes (at_ * x.e) x.e
  if x.isInt then FV.ofInt (toSigned 8 v) else (x.fmt x.wE5m2).decode v

/-- The activation of row i of a block at contraction index k of a tile. -/
def MatrixCmd.act (x : MatrixCmd) (a : List Bytes) (i k : Nat) : FV :=
  let v := elementAt x.e false (a.getD k []) i
  if x.isInt then FV.ofInt (toSigned 8 v) else (x.fmt x.aE5m2).decode v

/-- Contraction indices of a tile. -/
def MatrixCmd.depth (x : MatrixCmd) (t : Nat) : Nat := min (tileOf x.mode) (x.k - t * tileOf x.mode)

/-- Read the part of the activation lines that a pass needs: the rows of its block, at the contraction indices of its tile (R192). -/
def State.readActs (s : State) (core : Nat) (x : MatrixCmd) (r t : Nat) : Except Nat (List Bytes) :=
  s.readLines (scratchBase core + x.input + t * tileOf x.mode * x.inStride * 64 + r * blockRows x.mode * x.e) (x.inStride * 64)
    (x.rowsIn r * x.e) (x.depth t)

/-- An accumulator word and the value it stands for. -/
def MatrixCmd.accValue (x : MatrixCmd) (w : Nat) : FV :=
  if x.isInt then FV.ofInt (toSigned x.accBits w) else if x.mode = 3 then Fmt.fp16.decode w else Fmt.fp32.decode w
def MatrixCmd.accWord (x : MatrixCmd) (v : FV) : Nat :=
  if x.isInt then ofSigned x.accBits v.toInt else if x.mode = 3 then Fmt.fp16.encode v else Fmt.fp32.encode v

/-- The column partial of row i and column j of a block, over a tile (R178). -/
def MatrixCmd.partialOf (x : MatrixCmd) (a : List Bytes) (b : Bank) (t i j : Nat) : Acc :=
  (List.range (x.depth t)).foldl (fun p k => x.addProduct p (x.act a i k) (x.cell b k j)) (FV.zero, false)

/-- The accumulator block after a pass: each element takes its partial. -/
def MatrixCmd.pass (x : MatrixCmd) (a : List Bytes) (b : Bank) (p : Nat × Nat × Nat) (acc : List (List (Nat × Bool))) :
    List (List (Nat × Bool)) :=
  (List.range (x.rowsIn p.1)).map (fun i => (List.range (x.colsIn p.2.1)).map (fun j =>
    let c := (acc.getD i []).getD j (0, false)
    let r := x.accumulate (x.accValue c.1, c.2) (x.partialOf a b p.2.2 i j)
    (x.accWord r.1, r.2)))

/-- MACs of a pass that are not gated: the cells of a narrow block hold zero weights, and compute on where an activation is not
finite; the cells of a short tile beyond the contraction are all gated. -/
def MatrixCmd.computed (x : MatrixCmd) (a : List Bytes) (b : Bank) (p : Nat × Nat × Nat) : Nat :=
  ((List.range (x.depth p.2.2)).flatMap (fun k => (List.range (x.rowsIn p.1)).map (fun i =>
    let v := x.act a i k
    ((List.range (tileOf x.mode)).filter (fun j => !gatedPair v (x.cell b k j))).length))).foldl (· + ·) 0

/-- Count a pass, the MACs it issues and the MACs it gates. -/
def State.countPass (s : State) (core : Nat) (x : MatrixCmd) (a : List Bytes) (b : Bank) (p : Nat × Nat × Nat) : State :=
  let issued := tileOf x.mode * tileOf x.mode * x.rowsIn p.1
  ((s.bump (matrixKey core 1) 1).bump (matrixKey core 2) issued).bump (matrixKey core 3) (issued - x.computed a b p)

/-- A pass is the first, or the last, of its accumulator block. -/
def MatrixCmd.opens (x : MatrixCmd) (p : Nat × Nat × Nat) : Bool := (x.loop x.tiles).head? = some p.2.2
def MatrixCmd.closes (x : MatrixCmd) (p : Nat × Nat × Nat) : Bool := (x.loop x.tiles).getLast? = some p.2.2

/-- Carry out the next pass of a run: its tile is used or loaded and its activations are read at this pass (R192, R247). -/
def State.runPass (s : State) (x : MatrixCmd) (run : MatrixRun) (p : Nat × Nat × Nat) : Except Nat MatrixRun × State :=
  match s.useTile run.core x p.2.1 p.2.2 with
  | (.error e, s) => (.error e, s)
  | (.ok b, s) =>
    match s.readActs run.core x p.1 p.2.2 with
    | .error e => (.error e, s)
    | .ok a =>
      (.ok { run with pass := run.pass + 1, acc := x.pass a b p (if x.opens p then [] else run.acc) }, s.countPass run.core x a b p)

/-! ### The drain (R186 to R188) -/

/-- The vectors of a drain: bias encodings, row shifts and column shifts. -/
structure Vectors where
  bias : Bytes
  row : Bytes
  col : Bytes
  deriving DecidableEq, Repr

/-- Read the part of the vectors that the drain of a block uses. -/
def State.readVectors (s : State) (core : Nat) (x : MatrixCmd) (r o : Nat) : Except Nat Vectors :=
  let one (used : Bool) (at_ n : Nat) : Except Nat Bytes :=
    if !used then .ok [] else match (s.read ⟨.c1, none⟩ (scratchBase core + at_) n).1 with
      | .ok d => .ok d
      | .bad e => .error e
  match one x.bias (x.biasAt + 4 * (o * tileOf x.mode)) (4 * x.colsIn o), one x.rowShifts (x.rowAt + r * blockRows x.mode) (x.rowsIn r),
    one x.colShifts (x.colAt + o * tileOf x.mode) (x.colsIn o) with
  | .ok b, .ok r, .ok c => .ok ⟨b, r, c⟩
  | .error e, _, _ => .error e
  | _, .error e, _ => .error e
  | _, _, .error e => .error e

/-- Steps 1 to 3 for one element. Scaling and bias of a float mode round in FP32; integer bias saturates to INT32
(notes/assumptions/41.md). -/
def MatrixCmd.upToRelu (x : MatrixCmd) (v : Vectors) (m j : Nat) (a : Acc) : Acc :=
  let k := (if x.rowShifts then toSigned 8 (fieldLe v.row m 1) else 0) + (if x.colShifts then toSigned 8 (fieldLe v.col j 1) else 0)
  let shifted := x.rowShifts || x.colShifts
  if x.isInt then
    let r := if shifted then intScale x.accBits k a.1.toInt else (a.1.toInt, false)
    let r' := if x.bias then satInt 32 (r.1 + toSigned 32 (fieldLe v.bias (4 * j) 4)) else (r.1, false)
    (FV.ofInt (if x.relu then max r'.1 0 else r'.1), a.2 || r.2 || r'.2)
  else
    let y := if shifted then Fmt.fp32.round (FV.scale k a.1) else a.1
    let y := if x.bias then Fmt.fp32.round (y.add (Fmt.fp32.decode (fieldLe v.bias (4 * j) 4))) else y
    (if x.relu && y.lt FV.zero then FV.zero else y, a.2)

/-- The float format of an output code. -/
def outFmt (out : Nat) : Fmt :=
  if out = 0 then Fmt.fp32 else if out = 1 then Fmt.bf16 else if out = 2 then Fmt.fp16 else if out = 3 then Fmt.e4m3 else Fmt.e5m2

/-- Bits of an integer output code. -/
def outInt (out : Nat) : Nat := if out = 5 then 32 else if out = 6 then 16 else 8

/-- The output shift of a row (R186 step 4, R187). -/
def MatrixCmd.rowShift (x : MatrixCmd) (row : List FV) : Int :=
  if x.shift = 1 then x.fixed
  else if x.shift = 2 then (if x.isInt then rowShiftInt (outInt x.out) row else rowShiftFp8 (outFmt x.out) row)
  else 0

/-- Steps 4 and 5 for one element: its encoding and how it counts. -/
def MatrixCmd.store (x : MatrixCmd) (s : Int) (a : Acc) : Nat × Stored :=
  if x.isInt then
    let r := intScale 32 (-s) a.1.toInt
    let q := satInt (outInt x.out) r.1
    (ofSigned (outInt x.out) q.1, if a.2 || r.2 || q.2 then .saturated else .plain)
  else
    let r := (outFmt x.out).convert (FV.scale (-s) a.1)
    (r.1, if r.2 = .nonFinite then .nonFinite else if a.2 then .saturated else r.2)

/-- The drained rows of an accumulator block: encodings with their counts, and the row's shift. A computed shift covers the whole output
width, which is then one block (R187). -/
def MatrixCmd.drain (x : MatrixCmd) (v : Vectors) (acc : List (List (Nat × Bool))) : List (List (Nat × Stored) × Int) :=
  acc.zipIdx.map (fun m =>
    let row := m.1.zipIdx.map (fun a => x.upToRelu v m.2 a.2 (x.accValue a.1.1, a.1.2))
    let s := x.rowShift (row.map (·.1))
    (row.map (fun a => x.store s a), s))

/-- The pieces of the output lines that a block gives, with their offsets: by row, or by column. -/
def MatrixCmd.outLines (x : MatrixCmd) (r o : Nat) (rows : List (List (Nat × Stored) × Int)) : List (Nat × Bytes) :=
  let e := outBytesOf x.out
  let m0 := r * blockRows x.mode
  let j0 := o * tileOf x.mode
  if x.column then
    (List.range (x.colsIn o)).map (fun j => (x.output + (j0 + j) * x.outStride * 64 + m0 * e,
      rows.flatMap (fun r => natLe e ((r.1.getD j (0, .plain)).1))))
  else
    rows.zipIdx.map (fun m => (x.output + (m0 + m.2) * x.outStride * 64 + j0 * e, m.1.1.flatMap (fun y => natLe e y.1)))

/-- The computed shifts of a block, at the byte offset of its first row. -/
def MatrixCmd.shiftLine (x : MatrixCmd) (r : Nat) (rows : List (List (Nat × Stored) × Int)) : List (Nat × Bytes) :=
  if x.shift = 2 then [(x.shiftAt + r * blockRows x.mode, rows.map (fun r => BitVec.ofNat 8 (ofSigned 8 r.2)))] else []

/-- Write a line to a scratchpad. In column-major layout a piece of 64 bytes that the block leaves incomplete is a read-merge-write of
its scratchpad line (R181), so an uncorrectable word anywhere in that line is a bus error (R193). -/
def State.writeLine (s : State) (merge : Bool) (a : Nat) (d : Bytes) : Option Nat × State :=
  let whole := !merge || d.length % 64 = 0
  match (if whole then .ok [] else (s.read ⟨.c1, none⟩ ((a + d.length) / 64 * 64) 64).1 : MemResult) with
  | .bad e => (some e, s)
  | .ok _ =>
    match s.write ⟨.c1, none⟩ a d with
    | (.bad e, s) => (some e, s)
    | (.ok _, s) => (none, s)

/-- Write lines to a scratchpad; a bus error ends the writing. -/
def State.writeLines (s : State) (merge : Bool) (base : Nat) : List (Nat × Bytes) → Option Nat × State
  | [] => (none, s)
  | (o, d) :: rest =>
    match s.writeLine merge (base + o) d with
    | (some e, s) => (some e, s)
    | (none, s) => s.writeLines merge base rest

/-- The ranges of the operands and vectors of a command. -/
def MatrixCmd.inRanges (x : MatrixCmd) : List (Nat × Nat) :=
  let lines (at_ stride n len : Nat) := (List.range n).map (fun i => (at_ + i * stride * 64, len))
  lines x.input x.inStride x.k (x.m * x.e) ++ lines x.weight x.wStride x.p x.weightLine ++
    (if x.bias then [(x.biasAt, 4 * x.n)] else []) ++ (if x.rowShifts then [(x.rowAt, x.m)] else []) ++
    (if x.colShifts then [(x.colAt, x.n)] else [])

/-- The ranges of the output of a multiply. -/
def MatrixCmd.outRanges (x : MatrixCmd) : List (Nat × Nat) :=
  (List.range (if x.column then x.n else x.m)).map (fun i =>
    (x.output + i * x.outStride * 64, (if x.column then x.m else x.n) * outBytesOf x.out)) ++
    (if x.shift = 2 then [(x.shiftAt, x.m)] else [])

/-- Output ranges meet an operand or vector of the command: its results are undefined (R192). -/
def MatrixCmd.overlaps (x : MatrixCmd) (outs : List (Nat × Nat)) : Bool :=
  outs.any (fun o => x.inRanges.any (fun i => o.1 < i.1 + i.2 && i.1 < o.1 + o.2))

/-- Undefined lines of the same places and lengths. -/
def State.freeLines (s : State) (l : List (Nat × Bytes)) : List (Nat × Bytes) × State :=
  l.foldl (fun (r : List (Nat × Bytes) × State) x =>
    let (d, s) := r.2.drawBytes x.2.length
    (r.1 ++ [(x.1, d)], s)) ([], s)

/-- Count non-finite and saturated outputs of a core and of the package (R188, R197). -/
def State.countOutputs (s : State) (core nonFinite saturated : Nat) : State :=
  (((s.bump (matrixKey core 7) nonFinite).bump (objKey 0x2400 1) nonFinite).bump (matrixKey core 8) saturated).bump
    (objKey 0x2400 2) saturated

/-! ### The commands -/

/-- Non-finite and saturated elements among drained rows. -/
def countsOf (rows : List (List (Nat × Stored) × Int)) : Nat × Nat :=
  rows.foldl (fun (n : Nat × Nat) r => r.1.foldl (fun (n : Nat × Nat) y =>
    match y.2 with
    | .nonFinite => (n.1 + 1, n.2)
    | .saturated => (n.1, n.2 + 1)
    | .plain => n) n) (0, 0)

/-- The drain of a block (R186 to R188): its results go to the scratchpad and are counted. Where the output meets an operand they are
undefined, and so is what counts of them. -/
def State.drainBlock (s : State) (x : MatrixCmd) (core r o : Nat) (acc : List (List (Nat × Bool))) : Option Nat × State :=
  match s.readVectors core x r o with
  | .error e => (some e, s)
  | .ok v =>
    let rows := x.drain v acc
    let counts := countsOf rows
    let (lines, shifts, counts, s) : List (Nat × Bytes) × List (Nat × Bytes) × (Nat × Nat) × State :=
      if x.overlaps x.outRanges then
        let (l, s) := s.freeLines (x.outLines r o rows)
        let (k, s) := s.freeLines (x.shiftLine r rows)
        let (a, s) := s.drawNat
        let (b, s) := s.drawNat
        (l, k, (a % (x.rowsIn r * x.colsIn o + 1), b % (x.rowsIn r * x.colsIn o + 1)), s)
      else (x.outLines r o rows, x.shiftLine r rows, counts, s)
    match s.writeLines x.column (scratchBase core) lines with
    | (some e, s) => (some e, s)
    | (none, s) =>
      match s.writeLines false (scratchBase core) shifts with
      | (some e, s) => (some e, s)
      | (none, s) => (none, s.countOutputs core counts.1 counts.2)

/-- The command whose passes a core's array runs: of those started and not finished the one that started first (R182). -/
def State.matrixCmd? (s : State) (core op : Nat) : Option Cmd :=
  let l := s.cmds.filter (fun c => c.unit = some ⟨.matrix, core⟩ && c.phase = .running)
  (l.find? (fun c => l.all (fun d => c.started < d.started || (c.started = d.started && c.id ≤ d.id)))).filter
    (fun c => c.opcode = op)

/-- The run of a matrix command: how far its passes have come. -/
def State.matrixRun (s : State) (c : Cmd) (core : Nat) : MatrixRun :=
  (s.arith.passes.find? (fun r => r.cmd = c.id)).getD ⟨c.id, core, 0, []⟩

def State.setMatrixRun (s : State) (r : MatrixRun) : State :=
  { s with arith := { s.arith with passes := s.arith.passes.filter (fun x => x.cmd ≠ r.cmd) ++ [r] } }

/-- A matrix command has performed every effect. -/
def State.matrixDone (s : State) (c : Cmd) : State :=
  ({ s with arith := { s.arith with passes := s.arith.passes.filter (fun x => x.cmd ≠ c.id) } } : State).setCmd
    { c with phase := .finished }

/-- What follows a pass of a multiply: a block that is complete drains, and after the last the command is finished. -/
def State.afterPass (s : State) (c : Cmd) (x : MatrixCmd) (run : MatrixRun) (p : Nat × Nat × Nat) : State :=
  match (if x.closes p then s.drainBlock x run.core p.1 p.2.1 run.acc else (none, s)) with
  | (some e, s) => s.cmdFault c e
  | (none, s) => if run.pass < x.passes.length then s.setMatrixRun run else s.matrixDone c

/-- MATRIX_MULTIPLY (R171 to R193): the multiply whose passes a core's array runs is checked and its next pass carried out. `stalls` are
the cycles the array was held for a feeder at this pass (R175), which change no result; `parity` is a parity error on its data
path (R404). -/
def execMatrixMultiply (dt core stalls : Nat) (parity : Bool) (s : State) : Host.Outcome State Fault Refusal :=
  let s := s.tick dt
  match s.matrixCmd? core 0x30 with
  | none => .next s
  | some c =>
    let x := c.matrix
    let run := s.matrixRun c core
    if !x.ok then .next (s.illegal c)
    else if parity then .next (s.parityFault c ⟨.matrix, core⟩)
    else
      match x.passes[run.pass]? with
      | none => .next s
      | some p =>
        match (s.bump (matrixKey core 4) stalls).runPass x run p with
        | (.error e, s) => .next (s.cmdFault c e)
        | (.ok run, s) => .next (s.afterPass c x run p)

/-- The raw accumulator block of a pass, as lines (R195). -/
def MatrixCmd.rawBlock (x : MatrixCmd) (acc : List (List (Nat × Bool))) : List (Nat × Bytes) :=
  acc.zipIdx.map (fun m => (x.output + m.2 * x.outStride * 64,
    m.1.flatMap (fun a => natLe (if x.mode = 1 ∨ x.mode = 3 then 2 else 4) a.1)))

/-- Bytes of a line of the raw block that a pass belongs to. -/
def MatrixCmd.rawLine (x : MatrixCmd) (p : Nat × Nat × Nat) : Nat := x.colsIn p.2.1 * (if x.mode = 1 ∨ x.mode = 3 then 2 else 4)

/-- The output of a capture lies within the scratchpad. -/
def MatrixCmd.captureOk (x : MatrixCmd) (last : Nat × Nat × Nat) : Bool :=
  linesOk x.output x.outStride (x.rowsIn last.1) (x.rawLine last)

/-- The passes of a capture: 0 to the stop pass, or all of them (R195). -/
def MatrixCmd.captured (x : MatrixCmd) : List (Nat × Nat × Nat) := x.passes.take (x.stop + 1)

/-- What follows a pass of a capture: after the last, the raw block is written. -/
def State.afterCapture (s : State) (c : Cmd) (x : MatrixCmd) (run : MatrixRun) (p : Nat × Nat × Nat) : State :=
  if run.pass < x.captured.length then s.setMatrixRun run
  else
    let block := x.rawBlock run.acc
    let ranges := (List.range (x.rowsIn p.1)).map (fun i => (x.output + i * x.outStride * 64, x.rawLine p))
    let (lines, s) := if x.overlaps ranges then s.freeLines block else (block, s)
    match s.writeLines false (scratchBase run.core) lines with
    | (some e, s) => s.cmdFault c e
    | (none, s) => s.matrixDone c

/-- MATRIX_CAPTURE (R195): the next of passes 0 to the stop pass runs; after the last the raw accumulator block is written. Stalls and a
parity error are as for a multiply. -/
def execMatrixCapture (dt : Nat) (turn : ArrayTurn) (s : State) : Host.Outcome State Fault Refusal :=
  let s := s.tick dt
  match s.matrixCmd? turn.core 0xD0 with
  | none => .next s
  | some c =>
    let x := c.matrix
    let run := s.matrixRun c turn.core
    if !(x.codesOk && x.operandsOk && x.captured.getLast?.all x.captureOk) then .next (s.illegal c)
    else if turn.parity then .next (s.parityFault c ⟨.matrix, turn.core⟩)
    else
      match x.captured[run.pass]? with
      | none => .next s
      | some p =>
        match (s.bump (matrixKey turn.core 4) turn.stalls).runPass x run p with
        | (.error e, s) => .next (s.cmdFault c e)
        | (.ok run, s) => .next (s.afterCapture c x run p)

/-- The record of a bank (R196). -/
def Bank.record (b : Bank) : Bytes :=
  natLe 4 b.offset ++ natLe 2 b.stride ++ natLe 1 b.mode ++
    natLe 1 ((if b.valid then 1 else 0) + (if b.int4 then 2 else 0) + (if b.active then 4 else 0)) ++ natLe 8 0

/-- WEIGHT_BANK_READ (R196): writes both banks and their records to the scratchpad. -/
def execWeightBankRead (dt : Nat) (turn : BankTurn) (s : State) : Host.Outcome State Fault Refusal :=
  let s := s.tick dt
  match s.matrixCmd? turn.core 0xD1 with
  | none => .next s
  | some c =>
    let o := c.u32 36
    if !offsetOk o ∨ 0x800000 < o + 8224 then .next (s.illegal c)
    else if turn.parity then .next (s.parityFault c ⟨.matrix, turn.core⟩)
    else
      let b0 := s.bank (2 * turn.core)
      let b1 := s.bank (2 * turn.core + 1)
      match s.writeLines false (scratchBase turn.core)
          [(o, sub b0.bytes 0 4096), (o + 4096, sub b1.bytes 0 4096), (o + 8192, b0.record ++ b1.record)] with
      | (some e, s) => .next (s.cmdFault c e)
      | (none, s) => .next (s.matrixDone c)

end Sys2Proof.Machine
end

