-- ==== Sys2Proof/Machine/Ed25519.lean ====
section
/-! DEFINITION. Ed25519, the one signature scheme the manual names (R42 to R44, R459, R461, R465).
PRESUMED: the published scheme (RFC 8032), with the cofactorless check of a signature; log 9. -/
namespace Sys2Proof

/-- The field prime 2^255 - 19. -/
def edP : Nat := 2 ^ 255 - 19

/-- The group order. -/
def edL : Nat := 2 ^ 252 + 27742317777372353535851937790883648493

/-- b^e mod edP; the exponent's bits are taken from the lowest, `fuel` of them. -/
def edPow : Nat → Nat → Nat → Nat → Nat
  | 0, _, _, acc => acc
  | fuel + 1, b, e, acc => edPow fuel (b * b % edP) (e / 2) (if e % 2 = 1 then acc * b % edP else acc)

def edInv (a : Nat) : Nat := edPow 256 a (edP - 2) 1

/-- The curve constant -121665/121666. -/
def edD : Nat := (edP - 121665) * edInv 121666 % edP

/-- √-1. -/
def edSqrtM1 : Nat := edPow 256 2 ((edP - 1) / 4) 1

/-- A point in extended coordinates. -/
structure EdPoint where
  x : Nat
  y : Nat
  z : Nat
  t : Nat

def edZero : EdPoint := { x := 0, y := 1, z := 1, t := 0 }

def edAdd (d : Nat) (p q : EdPoint) : EdPoint :=
  let a := (p.y + edP - p.x) * (q.y + edP - q.x) % edP
  let b := (p.y + p.x) * (q.y + q.x) % edP
  let c := 2 * p.t * q.t % edP * d % edP
  let dd := 2 * p.z * q.z % edP
  let e := b + edP - a
  let f := dd + edP - c
  let g := dd + c
  let h := b + a
  { x := e * f % edP, y := g * h % edP, z := f * g % edP, t := e * h % edP }

/-- k · p, `fuel` bits of k from the lowest. -/
def edMul (d : Nat) : Nat → Nat → EdPoint → EdPoint → EdPoint
  | 0, _, _, acc => acc
  | fuel + 1, k, p, acc => edMul d fuel (k / 2) (edAdd d p p) (if k % 2 = 1 then edAdd d acc p else acc)

/-- The x coordinate of a y with a given sign bit, if the point is on the curve. -/
def edRecoverX (y sign : Nat) : Option Nat :=
  if y ≥ edP then none
  else
    let x2 := (y * y + edP - 1) * edInv (edD * (y * y % edP) % edP + 1) % edP
    if x2 = 0 then (if sign = 1 then none else some 0)
    else
      let x := edPow 256 x2 ((edP + 3) / 8) 1
      let x := if (x * x + edP - x2) % edP = 0 then x else x * edSqrtM1 % edP
      if (x * x + edP - x2) % edP ≠ 0 then none
      else some (if x % 2 = sign then x else edP - x)

def edDecode (b : Bytes) : Option EdPoint :=
  if b.length ≠ 32 then none
  else
    let v := leNat b
    let y := v % 2 ^ 255
    (edRecoverX y (v / 2 ^ 255)).map (fun x => { x := x, y := y, z := 1, t := x * y % edP })

def edEncode (p : EdPoint) : Bytes :=
  let zi := edInv p.z
  let x := p.x * zi % edP
  let y := p.y * zi % edP
  natLe 32 (y + (x % 2) * 2 ^ 255)

/-- The base point. -/
def edBase : EdPoint :=
  let y := 4 * edInv 5 % edP
  let x := (edRecoverX y 0).getD 0
  { x := x, y := y, z := 1, t := x * y % edP }

/-- True when `sig` is a valid signature of `msg` under the public key `key`. -/
def edVerify (key msg sig : Bytes) : Bool :=
  match sig.length == 64, edDecode key, edDecode (sig.take 32) with
  | true, some a, some r =>
    let s := leNat (sig.drop 32)
    if s ≥ edL then false
    else
      let k := leNat (sha512 (sig.take 32 ++ key ++ msg)) % edL
      let d := edD
      edEncode (edMul d 256 s edBase edZero) == edEncode (edAdd d r (edMul d 256 k a edZero))
  | _, _, _ => false

/-- The secret scalar of a seed: the first half of its hash with the fixed bits set. -/
def edScalar (h : Bytes) : Nat := (leNat (h.take 32) % 2 ^ 254) / 8 * 8 + 2 ^ 254

/-- The public key of a seed. -/
def edPublic (seed : Bytes) : Bytes := edEncode (edMul edD 256 (edScalar (sha512 seed)) edBase edZero)

/-- The signature of `msg` by a seed. -/
def edSign (seed msg : Bytes) : Bytes :=
  let h := sha512 seed
  let a := edScalar h
  let d := edD
  let pub := edEncode (edMul d 256 a edBase edZero)
  let r := leNat (sha512 (h.drop 32 ++ msg)) % edL
  let rp := edEncode (edMul d 256 r edBase edZero)
  let k := leNat (sha512 (rp ++ pub ++ msg)) % edL
  rp ++ natLe 32 ((r + k * a) % edL)

end Sys2Proof
end

