-- ==== Sys2Proof/Machine/Firmware.lean ====
section
/-! DEFINITION. The firmware store: image slots, their verification, and the update path (R463 to R469). -/
namespace Sys2Proof.Machine

/-! ### Slots (R463 to R465) -/

/-- Bytes of a slot: 28 MiB. -/
def slotBytes : Nat := 29360128

/-- An erased byte of the NOR reads 0xFF (notes/assumptions/46.md). -/
def erasedByte : Byte := 0xFF

/-- `n` bytes of a slot from an offset. -/
def ImageSlot.read (v : ImageSlot) (i n : Nat) : Bytes := (List.range n).map (fun k => Map.get erasedByte v.bytes (i + k))

/-- Slot 0 is A and slot 1 is B. -/
def State.imageSlot (s : State) (b : Nat) : ImageSlot := if b = 0 then s.startup.slotA else s.startup.slotB

def State.setImageSlot (s : State) (b : Nat) (v : ImageSlot) : State :=
  { s with startup := if b = 0 then { s.startup with slotA := v } else { s.startup with slotB := v } }

/-- The manifest (R464). -/
def ImageSlot.manifest (v : ImageSlot) : Bytes := v.read 0 4096

/-- A slot without the magic is empty. -/
def ImageSlot.holds (v : ImageSlot) : Bool := leNat (v.read 0 4) = 0x314B4259

/-- Firmware and security version of a slot's manifest, 0 for an empty slot (R49, R464). -/
def ImageSlot.version (v : ImageSlot) : Nat := if v.holds then leNat (v.read 8 4) else 0
def ImageSlot.security (v : ImageSlot) : Nat := if v.holds then leNat (v.read 12 2) else 0

/-- Part i of a manifest: offset, length, type and digest. -/
structure ImagePart where
  offset : Nat
  length : Nat
  type : Nat
  digest : Bytes
  deriving DecidableEq, Repr

def imagePart (m : Bytes) (i : Nat) : ImagePart :=
  { offset := fieldLe m (64 + 80 * i) 4, length := fieldLe m (68 + 80 * i) 4, type := fieldLe m (72 + 80 * i) 2,
    digest := sub m (80 + 80 * i) 64 }

/-- Every byte of a part of the manifest is zero. -/
def zeroAt (m : Bytes) (i n : Nat) : Bool := (sub m i n).all (· = 0)

/-- The magic, format, product, counts and reserved bytes of a manifest with n parts match R464. -/
def manifestOk (m : Bytes) (n : Nat) : Bool :=
  fieldLe m 0 4 = 0x314B4259 && fieldLe m 4 2 = 1 && 1 ≤ n && n ≤ 32 && fieldLe m 12 2 ≤ 64 &&
  fieldLe m 14 1 < 4 && fieldLe m 15 1 = 0 && sub m 48 16 = ascii "YBK-MD3-768L" ++ List.replicate 4 0 &&
  (List.range n).all (fun i => zeroAt m (74 + 80 * i) 6) && zeroAt m (64 + 80 * n) (3968 - 80 * n)

/-- A part lies within the slot, and its copy has the digest of the manifest. -/
def ImagePart.ok (p : ImagePart) (v : ImageSlot) : Bool :=
  p.offset % 4096 = 0 && 4096 ≤ p.offset && 1 ≤ p.length && p.offset + p.length ≤ slotBytes &&
  sha512 (v.read p.offset p.length) = p.digest

/-- No two parts overlap. -/
def partsApart : List ImagePart → Bool
  | [] => true
  | p :: l => l.all (fun q => p.offset + p.length ≤ q.offset || q.offset + q.length ≤ p.offset) && partsApart l

/-- A slot is valid (R465), under the fused minimum security version and revocations. -/
def slotValid (minSecurity revoked : Nat) (v : ImageSlot) : Bool :=
  let m := v.manifest
  let n := fieldLe m 6 2
  let parts := (List.range n).map (imagePart m)
  let key := fieldLe m 14 1
  manifestOk m n && !(bit revoked key) && sha512t256 (sub m 16 32) = Config.fusedKey key &&
  edVerify (sub m 16 32) (m.take 4032) (sub m 4032 64) && minSecurity ≤ fieldLe m 12 2 &&
  parts.all (fun p => p.ok v) && partsApart parts &&
  parts.all (fun p => 1 ≤ p.type && p.type ≤ 5) &&
  [1, 2, 3, 4, 5].all (fun t => (parts.filter (fun p => p.type = t)).length = 1)

def State.slotValid (s : State) (b : Nat) : Bool := Machine.slotValid s.startup.minSecurity s.startup.revoked (s.imageSlot b)

/-- The dictionary definitions of a slot's image: its part of type 5 (R464). -/
def ImageSlot.definitions (v : ImageSlot) : Bytes :=
  let m := v.manifest
  ((((List.range (fieldLe m 6 2)).map (imagePart m)).find? (fun p => p.type = 5)).map (fun p => v.read p.offset p.length)).getD []

/-! ### The update path (R467 to R469) -/

/-- The slot that did not boot; when none booted, the one that is not preferred (R467). -/
def State.inactiveSlot (s : State) : Nat :=
  match s.startup.booted with
  | some b => 1 - b
  | none => 1 - s.startup.preferred

/-- Status of the slot action: 1 running, 2 succeeded, 3 failed. -/
def slotActionKey : Nat := objKey 0x5002 0

/-- Erase the inactive slot (R467): its bytes are gone at once, and the action runs until the erase has ended. -/
def State.eraseSlot (s : State) : Nat × State :=
  if s.startup.erasing then (8, s)
  else
    let s := s.setImageSlot s.inactiveSlot ImageSlot.init
    (0x12, ({ s with startup := { s.startup with erasing := true } } : State).setNum slotActionKey 1)

/-- SLOT_ERASE_COMPLETE (R467): the erase of the inactive slot has ended. -/
def execSlotEraseComplete (dt : Nat) (s : State) : Host.Outcome State Fault Refusal :=
  let s := s.tick dt
  if s.startup.erasing then .next (({ s with startup := { s.startup with erasing := false } } : State).setNum slotActionKey 2)
  else .next s

/-- Write bytes of a slot. -/
def programBytes : Map Byte → Nat → Bytes → Map Byte
  | m, _, [] => m
  | m, a, b :: bs => programBytes (Map.set erasedByte m a b) (a + 1) bs

/-- Program the inactive slot at an offset (R467): refused during an erase, or when any byte of the range has been programmed
since the last one. -/
def State.programSlot (s : State) (offset : Nat) (data : Bytes) : Nat × State :=
  let v := s.imageSlot s.inactiveSlot
  let hi := offset + data.length
  if slotBytes < hi || (slotBytes = offset && data ≠ []) then (0x10, s)
  else if s.startup.erasing || v.programmed.any (fun r => offset < r.2 && r.1 < hi) then (8, s)
  else
    let w : ImageSlot := { bytes := programBytes v.bytes offset data, programmed := v.programmed ++ [(offset, hi)] }
    (0, s.setImageSlot s.inactiveSlot w)

/-- Write the boot control: the copy that is not the newer takes the new contents and becomes the newer (R33, R463). -/
def State.writeBoot (s : State) (preferred : Nat) (trial : Bool) (previous : Nat) : State :=
  { s with startup := { s.startup with
    preferred := preferred, trial := trial, previous := previous
    olderBoot := (s.startup.preferred, s.startup.trial, s.startup.previous), newestBoot := 1 - s.startup.newestBoot } }

/-- Activate the inactive slot (R468): a slot that is not valid fails the action and changes nothing; otherwise it is preferred, on
trial. -/
def State.activateSlot (s : State) : Nat × State :=
  let b := s.inactiveSlot
  if s.startup.erasing || !s.slotValid b then (0, s.setNum slotActionKey 3)
  else
    let s := s.writeBoot b true (if s.startup.trial then s.startup.previous else s.startup.preferred)
    (0, ((s.setNum (objKey 0x5000 1) b).setFlag (objKey 0x5000 2) true).setNum slotActionKey 2)

/-- The slot action 0x5002.00. -/
def State.slotAction (s : State) (arg : Nat) : Nat × State :=
  if arg = 1 then s.eraseSlot else if arg = 2 then s.activateSlot else (6, s)

/-- Commit the running security version to the fuses (R469). -/
def State.commitSecurity (s : State) (arg : Nat) : Nat × State :=
  if arg ≠ s.num (objKey 0x5000 4) then (6, s)
  else if s.startup.trialRun then (8, s)
  else
    let v := max s.startup.minSecurity arg
    (0, (({ s with startup := { s.startup with minSecurity := v } } : State).setNum (objKey 0x5000 5) v).setNum (objKey 0x5003 0) 2)

/-- A loss of supplies during an erase leaves the inactive slot not valid (R467). -/
def State.cutErase (s : State) : State :=
  if s.startup.erasing then
    let s := s.setImageSlot s.inactiveSlot ImageSlot.init
    { s with startup := { s.startup with erasing := false } }
  else s

end Sys2Proof.Machine
end

