-- ==== Sys2Proof/Machine/VectorOps.lean ====
section
/-! DEFINITION. What a lane program's instructions do to the vector registers and masks (R198 to R200, R208 to R213), and the
formats of bindings (R202). Registers are element lists here; a run keeps them as bytes. -/
namespace Sys2Proof.Machine

/-! ### Formats (R202) -/

/-- Bytes of an element of a binding format: FP32, INT32, BF16, FP16, INT16, INT8, E4M3, E5M2. -/
def fmtBytes (f : Nat) : Nat := if f < 2 then 4 else if f < 5 then 2 else 1

/-- The format is a float one; as a float format. -/
def fmtFloat (f : Nat) : Bool := f = 0 || f = 2 || f = 3 || f = 6 || f = 7
def fmtOf (f : Nat) : Fmt :=
  if f = 0 then Fmt.fp32 else if f = 2 then Fmt.bf16 else if f = 3 then Fmt.fp16 else if f = 6 then Fmt.e4m3 else Fmt.e5m2

/-- The register type, as a format code, that a format widens to at packing p; none where R202 does not allow it. -/
def registerFmt (p f : Nat) : Option Nat :=
  if p = 1 then (if f = 1 ∨ f = 4 ∨ f = 5 then some 1 else if f < 8 then some 0 else none)
  else if p = 2 then
    (if f = 2 ∨ f = 3 ∨ f = 4 then some f else if f = 6 ∨ f = 7 then some 3 else if f = 5 then some 4 else none)
  else if f = 5 ∨ f = 6 ∨ f = 7 then some f
  else none

/-- A loaded element in its register type. -/
def widenTo (f rt v : Nat) : Nat :=
  if f = rt then v
  else if fmtFloat f then (fmtOf rt).encode ((fmtOf f).decode v)
  else ofSigned (8 * fmtBytes rt) (toSigned (8 * fmtBytes f) v)

/-- A register element in a stored format, and how it counts (R234 to R236). -/
def narrowTo (f rt v : Nat) : Nat × Stored :=
  if f = rt then (v, if fmtFloat f && ((fmtOf f).decode v).nonFinite then .nonFinite else .plain)
  else if fmtFloat rt then
    (if fmtFloat f then (fmtOf f).convert ((fmtOf rt).decode v)
     else
      let r := ((fmtOf rt).decode v).toIntSat (8 * fmtBytes f)
      (ofSigned (8 * fmtBytes f) r.1, r.2))
  else if fmtFloat f then (fmtOf f).convert (FV.ofInt (toSigned (8 * fmtBytes rt) v))
  else
    let r := satInt (8 * fmtBytes f) (toSigned (8 * fmtBytes rt) v)
    (ofSigned (8 * fmtBytes f) r.1, if r.2 then .saturated else .plain)

/-- The fill of an inactive input element (R201). E4M3 holds no infinity; its fill is what R234 makes of one
(notes/assumptions/42.md). -/
def fillValue (rt fill : Nat) : Nat :=
  if fill = 0 then 0
  else if fmtFloat rt then (fmtOf rt).encode (.inf (fill = 1))
  else ofSigned (8 * fmtBytes rt) (if fill = 1 then intMin (8 * fmtBytes rt) else intMax (8 * fmtBytes rt))

/-! ### Registers (R198, R199) -/

def zeroReg : Bytes := List.replicate 256 0

/-- A register as elements of `e` bytes, and back. -/
def regElems (r : Bytes) (e : Nat) : List Nat := (chunks e 257 r).map leNat
def elemsReg (l : List Nat) (e : Nat) : Bytes := l.flatMap (natLe e)

/-- The registers and the masks k0 to k3 as a program sees them. -/
structure Lanes where
  regs : Map Bytes
  masks : List Nat
  deriving DecidableEq, Repr

def Lanes.reg (l : Lanes) (r : Nat) : Bytes := Map.get zeroReg l.regs r
def Lanes.setReg (l : Lanes) (r : Nat) (b : Bytes) : Lanes := { l with regs := Map.set zeroReg l.regs r b }
def Lanes.mask (l : Lanes) (k : Nat) : Nat := l.masks.getD k 0
def Lanes.setMask (l : Lanes) (k v : Nat) : Lanes := { l with masks := setAt l.masks k v }

/-! ### The instruction word (R208) -/

def wOp (w : Nat) : Nat := bits w 6 0
def wType (w : Nat) : Nat := bits w 9 7
def wMask (w : Nat) : Nat := bits w 11 10
def wD (w : Nat) : Nat := bits w 16 12
def wA (w : Nat) : Nat := bits w 21 17
def wB (w : Nat) : Nat := bits w 26 22
def wC (w : Nat) : Nat := bits w 31 27

/-- An instruction type as a binding format: FP32, INT32, BF16, FP16, INT16, INT8 share their codes. -/
def typeBytes (t : Nat) : Nat := fmtBytes t
def typeFloat (t : Nat) : Bool := fmtFloat t
def typePacking (t : Nat) : Nat := 4 / typeBytes t

/-- The types an operation takes (R209): 0 any, 1 float, 2 integer, 3 packing 1, 4 FP32, 5 masks only; none when reserved. -/
def opClass (op : Nat) : Option Nat :=
  if op = 0 ∨ 0x21 < op then none
  else if op ≤ 0x09 ∨ op = 0x10 ∨ (0x12 ≤ op ∧ op ≤ 0x15) ∨ op = 0x18 then some 0
  else if op ≤ 0x0F then some 1
  else if op = 0x11 then some 4
  else if op = 0x16 ∨ op = 0x17 ∨ op = 0x1F then some 2
  else if 0x1C ≤ op ∧ op ≤ 0x1E then some 5
  else some 3

/-- A word breaks none of R208 to R210, R212 and R213 at a packing (R222). -/
def wordOk (p w : Nat) : Bool :=
  let t := wType w
  match opClass (wOp w) with
  | none => false
  | some k =>
    t < 6 &&
    (if k = 5 then t = 0 else typePacking t = p) &&
    (k ≠ 1 || typeFloat t) && (k ≠ 2 || !typeFloat t) && (k ≠ 3 || t < 2) && (k ≠ 4 || t = 0) &&
    (!(0x19 ≤ wOp w && wOp w ≤ 0x1E) || wD w % 4 ≠ 0) &&
    (wOp w ≠ 0x11 || wC w ≤ 3) &&
    (wOp w ≠ 0x12 || (bits (wC w) 2 0 < 6 && typePacking (bits (wC w) 2 0) = p)) &&
    (wOp w ≠ 0x20 || (bits (wB w) 2 0 < 6 && bits (wMask w * 32 + wB w) 5 3 < 6 && wC w ≠ wA w && wC w ≠ wD w)) &&
    (wOp w ≠ 0x21 || (wD w ≠ wA w && wD w ≠ wB w && wD w ≠ wC w && wA w ≠ wB w && wA w ≠ wC w && wB w ≠ wC w))

/-! ### Element arithmetic (R209, R211) -/

/-- A float operation of one, two or three operands, exact before its one rounding. `k` is b as a signed integer. -/
def floatOp (op : Nat) (a b c : FV) (k : Int) : FV :=
  match op with
  | 0x02 => a.add b
  | 0x03 => a.sub b
  | 0x04 => a.mul b
  | 0x05 => (a.mul b).add c
  | 0x06 => a.min b
  | 0x07 => a.max b
  | 0x08 => a.abs
  | 0x09 => a.negate
  | 0x0A => a.div b
  | 0x0B => a.sqrt
  | 0x0C => a.rsqrt
  | 0x0D => a.rcp
  | 0x0E => a.exp2
  | 0x0F => a.log2
  | _ => FV.scale k a

/-- An integer operation at width w, saturating. A shift count beyond the width acts as the width; SHL and SAR read their count
unsigned (notes/assumptions/42.md). -/
def intOp (op w : Nat) (a b c : Int) (count : Nat) : Int :=
  let sat (i : Int) : Int := (satInt w i).1
  match op with
  | 0x02 => sat (a + b)
  | 0x03 => sat (a - b)
  | 0x04 => sat (a * b)
  | 0x05 => sat (a * b + c)
  | 0x06 => min a b
  | 0x07 => max a b
  | 0x08 => sat a.natAbs
  | 0x09 => sat (-a)
  | 0x10 => (intScale w (max (-(w : Int)) (min w b)) a).1
  | 0x16 => sat (a * (2 ^ min count w : Nat))
  | _ => a / (2 ^ min count w : Nat)

/-- SHF: the shift of a row whose largest magnitude is |a| (R187, R238). -/
def shiftFor (code : Nat) (a : FV) : Int :=
  if a.nonFinite then 0
  else if code = 0 then rowShiftFp8 Fmt.e4m3 [a.abs]
  else if code = 1 then rowShiftFp8 Fmt.e5m2 [a.abs]
  else rowShiftInt (if code = 2 then 8 else 16) [a.abs]

/-- CVT from a type to a type of the same packing: a NaN becomes the canonical one also where the two types are one (R211, R230). -/
def convertElem (t src v : Nat) : Nat :=
  if t ≠ src then (narrowTo t src v).1 else if typeFloat t then (fmtOf t).encode ((fmtOf t).decode v) else v

/-- The new element of a destination: element `i` of group `g` of `n` elements, operands as encodings. -/
def newElem (w g n i a b c : Nat) : Nat :=
  let op := wOp w
  let t := wType w
  let wd := 8 * typeBytes t
  if op = 0x01 then a
  else if op = 0x13 then a &&& b
  else if op = 0x14 then a ||| b
  else if op = 0x15 then a ^^^ b
  else if op = 0x1F then (g * n + i) % 2 ^ wd
  else if op = 0x12 then convertElem t (bits (wC w) 2 0) a
  else if op = 0x11 then ofSigned 32 (shiftFor (wC w) (Fmt.fp32.decode a))
  else if typeFloat t then
    let f := fmtOf t
    f.encode (floatOp op (f.decode a) (f.decode b) (f.decode c) (toSigned wd b))
  else ofSigned wd (intOp op wd (toSigned wd a) (toSigned wd b) (toSigned wd c) b)

/-- A compare of two elements (R209): equal, less, less or equal. A NaN compares false. -/
def compareElem (op t a b : Nat) : Bool :=
  if typeFloat t then
    let x := (fmtOf t).decode a
    let y := (fmtOf t).decode b
    if op = 0x19 then x.eq y else if op = 0x1A then x.lt y else x.lt y || x.eq y
  else
    let x := toSigned 32 a
    let y := toSigned 32 b
    if op = 0x19 then x = y else if op = 0x1A then x < y else x ≤ y

/-- Pair x precedes pair y in rank order (R212). -/
def precedes (t kx px ky py : Nat) : Bool :=
  if t = 0 then
    let x := Fmt.fp32.decode kx
    let y := Fmt.fp32.decode ky
    if x.isNan != y.isNan then y.isNan
    else if !x.isNan && !x.eq y then y.lt x
    else px < py
  else if kx ≠ ky then toSigned 32 ky < toSigned 32 kx
  else px < py

/-! ### One instruction over all lanes (R207, R210) -/

/-- Write elements where the governing mask lets them through; `p` elements to a lane. -/
def maskedWrite (mask p : Nat) (new old : List Nat) : List Nat :=
  (new.zip old).mapIdx (fun i x => if bit mask (i / p) then x.1 else x.2)

/-- A mask result under its governing mask. -/
def maskedBits (mask v old : Nat) : Nat := (v &&& mask) ||| (old &&& (0xFFFFFFFFFFFFFFFF ^^^ mask))

/-- CXL (R212). -/
def laneExchange (w : Nat) (l : Lanes) : Lanes :=
  let ctl := wMask w * 32 + wB w
  let j := bits ctl 2 0
  let q := bits ctl 5 3
  let keys := regElems (l.reg (wA w)) 4
  let pays := regElems (l.reg (wC w)) 4
  let source (i : Nat) : Nat :=
    let x := if bit i j then i - 2 ^ j else i
    let y := x + 2 ^ j
    let flip := bit ctl 6 != (q ≠ 0 && bit x q)
    let before (a b : Nat) : Bool := precedes (wType w) (keys.getD a 0) (pays.getD a 0) (keys.getD b 0) (pays.getD b 0)
    if (!flip && before y x) || (flip && before x y) then x + y - i else i
  let l := l.setReg (wD w) (elemsReg ((List.range 64).map (fun i => keys.getD (source i) 0)) 4)
  l.setReg (wC w) (elemsReg ((List.range 64).map (fun i => pays.getD (source i) 0)) 4)

/-- CXR (R213): in the lanes of the governing mask. -/
def registerExchange (w : Nat) (l : Lanes) : Lanes :=
  let kd := regElems (l.reg (wD w)) 4
  let ka := regElems (l.reg (wA w)) 4
  let pd := regElems (l.reg (wB w)) 4
  let pa := regElems (l.reg (wC w)) 4
  let swap (i : Nat) : Bool :=
    bit (l.mask (wMask w)) i && precedes (wType w) (ka.getD i 0) (pa.getD i 0) (kd.getD i 0) (pd.getD i 0)
  let pick (x y : List Nat) : Bytes := elemsReg ((List.range 64).map (fun i => if swap i then y.getD i 0 else x.getD i 0)) 4
  (((l.setReg (wD w) (pick kd ka)).setReg (wA w) (pick ka kd)).setReg (wB w) (pick pd pa)).setReg (wC w) (pick pa pd)

/-- Execute one word over group `g`. Operands are read before anything is written. -/
def execWord (g w : Nat) (l : Lanes) : Lanes :=
  let op := wOp w
  let t := wType w
  let m := l.mask (wMask w)
  if op = 0x20 then laneExchange w l
  else if op = 0x21 then registerExchange w l
  else if 0x1C ≤ op ∧ op ≤ 0x1E then
    let a := l.mask (wA w % 4)
    let b := l.mask (wB w % 4)
    let v := if op = 0x1C then a &&& b else if op = 0x1D then a ||| b else a ^^^ 0xFFFFFFFFFFFFFFFF
    l.setMask (wD w % 4) (maskedBits m v (l.mask (wD w % 4)))
  else
    let e := typeBytes (if op = 0x12 then bits (wC w) 2 0 else t)
    let as_ := regElems (l.reg (wA w)) e
    let bs := regElems (l.reg (wB w)) e
    let cs := regElems (l.reg (wC w)) e
    let p := 4 / e
    let n := 64 * p
    if 0x19 ≤ op ∧ op ≤ 0x1B then
      let v := (List.range 64).foldl (fun v i => if compareElem op t (as_.getD i 0) (bs.getD i 0) then v + 2 ^ i else v) 0
      l.setMask (wD w % 4) (maskedBits m v (l.mask (wD w % 4)))
    else if op = 0x18 then l.setReg (wD w) (elemsReg (maskedWrite m p as_ bs) e)
    else
      let new := (as_.zip (bs.zip cs)).mapIdx (fun i x => newElem w g n i x.1 x.2.1 x.2.2)
      l.setReg (wD w) (elemsReg (maskedWrite m p new (regElems (l.reg (wD w)) e)) e)

/-- A program writes mask k1 (R209). -/
def writesK1 (program : List Nat) : Bool := program.any (fun w => 0x19 ≤ wOp w && wOp w ≤ 0x1E && wD w % 4 = 1)

/-- Execute a program over a group. -/
def execProgram (g : Nat) (program : List Nat) (l : Lanes) : Lanes := program.foldl (fun l w => execWord g w l) l

/-! ### The reduction unit (R214) -/

/-- Add two sums: FP32 encodings, or INT32 ones saturating. -/
def sumAdd (float : Bool) (a b : Nat) : Nat :=
  if float then Fmt.fp32.encode ((Fmt.fp32.decode a).add (Fmt.fp32.decode b))
  else ofSigned 32 (satInt 32 (toSigned 32 a + toSigned 32 b)).1

/-- One level of the pairwise tree. -/
def pairUp (float : Bool) : List Nat → List Nat
  | a :: b :: l => sumAdd float a b :: pairUp float l
  | l => l

/-- The pairwise tree, `depth` levels down to one value. -/
def treeSum (float : Bool) : Nat → List Nat → Nat
  | 0, l => l.headD 0
  | depth + 1, l => treeSum float depth (pairUp float l)

end Sys2Proof.Machine
end

