-- ==== Sys2Proof/Machine/Vector.lean ====
section
/-! DEFINITION. The vector engine's commands: bindings, groups, the reduction output and the slot store (R198 to R227). A group is one
step, and one more for each time its stores find the host port full. -/
namespace Sys2Proof.Machine

def vectorKey (core sub : Nat) : Nat := objKey (0x6400 + core) sub

/-! ### Bindings (R201) -/

/-- A binding's fields. -/
structure Binding where
  reg : Nat
  kind : Nat
  fmt : Nat
  fill : Nat
  masked : Bool
  virt : Bool
  src : Nat
  count : Nat
  stride : Int
  base : Nat
  deriving DecidableEq, Repr

def bindingOf (b : Bytes) : Binding :=
  let f := fieldLe b 1 1
  { reg := bits (fieldLe b 0 1) 4 0, kind := bits (fieldLe b 0 1) 7 5, fmt := bits f 3 0, fill := bits f 5 4, masked := bit f 6,
    virt := bit f 7, src := bits (fieldLe b 2 1) 2 0, count := bits (fieldLe b 3 1) 4 0 + 1, stride := toSigned 32 (fieldLe b 4 4),
    base := fieldLe b 8 8 }

def Binding.isInput (b : Binding) : Bool := b.kind = 0
def Binding.isOutput (b : Binding) : Bool := b.kind = 1
def Binding.stateIn (b : Binding) : Bool := b.kind = 2 || b.kind = 4
def Binding.stateOut (b : Binding) : Bool := b.kind = 3 || b.kind = 4
def Binding.isState (b : Binding) : Bool := 2 ≤ b.kind && b.kind ≤ 4
def Binding.isMask (b : Binding) : Bool := b.kind = 5
def Binding.isSum (b : Binding) : Bool := b.kind = 6

/-- The size of what a binding moves at a time. -/
def Binding.size (b : Binding) : Nat := if b.isState then 256 * b.count else if b.isMask then 8 else fmtBytes b.fmt

/-- The packing, group size, length, groups and groups per row of a run (R199, R214, R219). -/
def Cmd.packing (c : Cmd) : Nat := 2 ^ bits (c.u8 16) 1 0
def Cmd.groupSize (c : Cmd) : Nat := 64 * c.packing
def Cmd.length (c : Cmd) : Nat := c.u32 20
def Cmd.groups (c : Cmd) : Nat := ceilDiv c.length c.groupSize
def Cmd.perRow (c : Cmd) : Nat := c.u16 18 + 1

/-- How many times a binding's stride is taken, plus one. -/
def Cmd.steps (c : Cmd) (b : Binding) : Nat :=
  if b.isState then 1 else if b.isMask then c.groups else if b.isSum then ceilDiv c.groups c.perRow else c.length

/-- Address of step i of a binding: a scratchpad offset, or a virtual address. -/
def Binding.at_ (b : Binding) (i : Nat) : Nat :=
  if b.isState then b.base else ofSigned 64 (b.base + i * b.stride)

/-- A scratchpad range of a binding ends within the scratchpad (R222). -/
def Cmd.rangeOk (c : Cmd) (b : Binding) : Bool :=
  let far : Int := if b.isState then 0 else ((c.steps b - 1 : Nat) : Int) * b.stride
  b.virt || (b.base < 0x800000 && 0 ≤ b.base + min 0 far && b.base + max 0 far + b.size ≤ 0x800000)

/-- One binding of a run breaks no rule of R201 and R202. An INT32 row sum is converted to a float format only as R235 offers, to FP32. -/
def Cmd.bindingOk (c : Cmd) (b : Binding) : Bool :=
  b.kind ≠ 7 && c.rangeOk b &&
  (if b.isState then b.reg + b.count ≤ 32 && b.base % 64 = 0
   else if b.isMask then true
   else
    b.fmt < 8 && b.base % b.size = 0 && b.stride % b.size = 0 &&
    (if b.isSum then b.src < 6 && typePacking b.src = c.packing && (typeFloat b.src || !fmtFloat b.fmt || b.fmt = 0)
     else (registerFmt c.packing b.fmt).isSome && (!b.isInput || b.fill ≠ 3)))

/-- Registers that an input or state-in binding covers. -/
def Binding.covers (b : Binding) : List Nat :=
  if b.isInput then [b.reg] else if b.stateIn then rangeFrom b.reg b.count else []

/-- The bindings of a run together (R222). -/
def Cmd.bindingsOk (c : Cmd) (l : List Binding) : Bool :=
  l.all c.bindingOk && distinct (l.flatMap Binding.covers) && (l.filter Binding.isMask).length ≤ 1 &&
  (l.filter Binding.isSum).length ≤ 1 && ((l.filter Binding.isMask).length = 1 || !l.any (fun b => b.isInput && b.masked))

/-- The command's own fields (R219, R222). -/
def Cmd.runFieldsOk (c : Cmd) : Bool :=
  bits (c.u8 16) 1 0 ≠ 3 && c.length ≠ 0 && c.u32 24 < 0x800000 && c.u32 24 % 64 = 0 &&
  c.u32 24 + 16 * (bits (c.u8 17) 2 0 + 1) ≤ 0x800000 && c.u64 56 % 32 = 0

/-! ### Overlap of outputs and inputs (R207) -/

/-- Two bindings touch a common byte of one space. -/
def Cmd.bindingsMeet (c : Cmd) (a b : Binding) : Bool :=
  let span (x : Binding) : Int × Int :=
    let far : Int := if x.isState then 0 else ((c.steps x - 1 : Nat) : Int) * x.stride
    (x.base + min 0 far, x.base + max 0 far + x.size)
  (a.virt == b.virt) && (span a).1 < (span b).2 && (span b).1 < (span a).2 &&
  (List.range (c.steps a)).any (fun i => (List.range (c.steps b)).any (fun j =>
    a.at_ i < b.at_ j + b.size && b.at_ j < a.at_ i + a.size))

/-- An output lies on an input element for element: an in-place operation. -/
def inPlace (o i : Binding) : Bool :=
  (o == i) || ((o.virt == i.virt) && o.base = i.base && o.size = i.size &&
    ((o.isOutput && i.isInput && o.stride = i.stride) || (o.stateOut && i.stateIn)))

/-- Some output overlaps an input otherwise: the results are undefined. A stride-zero input is read beforehand. -/
def Cmd.clashes (c : Cmd) (l : List Binding) : Bool :=
  let outs := l.filter (fun b => b.isOutput || b.stateOut || b.isSum)
  let ins := l.filter (fun b => (b.isInput && b.stride ≠ 0) || b.stateIn || b.isMask)
  outs.any (fun o => ins.any (fun i => !inPlace o i && c.bindingsMeet o i))

/-! ### Reaching memory (R204 to R206) -/

/-- A place to read or write: address in the binding's space, whether virtual, and bytes. -/
structure VPlace where
  virt : Bool
  va : Nat
  n : Nat
  deriving DecidableEq, Repr

/-- The ranges to translate of a list of places. -/
def placeRanges (l : List VPlace) (write : Bool) : List (Nat × Nat × Bool) :=
  (l.filter (fun p => p.virt)).map (fun p => (p.va, p.n, write))

/-- The targets of a place, piece by piece. -/
def VPlace.targets (p : VPlace) (c : Cmd) (core : Nat) : List (Target × Nat) :=
  if p.virt then (c.pieces p.va p.n).filterMap (fun x => x.2.2.map (fun t => (t, x.2.1)))
  else [(.here (scratchBase core + p.va), p.n)]

/-- A target that R204 permits. -/
def State.vectorTarget (s : State) (write : Bool) (x : Target × Nat) : Bool :=
  match x.1 with
  | .here a => (isSram a || (!write && isStacked a)) && !s.meetsMerge a x.2
  | .host h => !s.ownRange h x.2
  | .remote _ _ => false

def State.vectorTargets (s : State) (c : Cmd) (core : Nat) (write : Bool) (l : List VPlace) : Bool :=
  l.all (fun p => (p.targets c core).all (s.vectorTarget write))

/-- A place leads to the host. -/
def VPlace.onHost (p : VPlace) (c : Cmd) (core : Nat) : Bool :=
  (p.targets c core).any (fun x => match x.1 with
    | .host _ => true
    | _ => false)

/-- The host lines that places touch. -/
def hostLinesOf (c : Cmd) (core : Nat) (l : List VPlace) : List Nat :=
  (l.flatMap (fun p => (p.targets c core).flatMap (fun x => match x.1 with
    | .host h => (rangeFrom (h / 64) ((h + x.2 - 1) / 64 + 1 - h / 64)).map (· * 64)
    | _ => []))).eraseDups

/-- A host line that has come back for a command. -/
def State.hostLine (s : State) (id line : Nat) : Option Bytes :=
  (s.host.reads.find? (fun r => r.user = .cmd id && r.address = line && r.length = 64)).bind (fun r => r.data)

/-- The local reads of a list of places: whole code words of stacked memory, once each, and SRAM as it lies. -/
def localReads (c : Cmd) (core : Nat) (l : List VPlace) : List (Nat × Nat) :=
  (l.flatMap (fun p => (p.targets c core).flatMap (fun x => match x.1 with
    | .here a =>
      if isStacked a then (rangeFrom (a / 32) ((a + x.2 - 1) / 32 + 1 - a / 32)).map (fun w => (w * 32, 32)) else [(a, x.2)]
    | _ => []))).eraseDups

/-- What reading a list of places comes to. -/
inductive Fetch where
  /-- A place needs the host, which is absent. -/
  | lost
  /-- Host lines are outstanding. -/
  | wait (s : State)
  | bad (s : State) (code : Nat)
  | ok
  deriving DecidableEq, Repr

/-- Make the reads of a list of places ready: host lines are asked for, local errors found. Nothing is consumed yet. -/
def State.prepare (s : State) (c : Cmd) (core : Nat) (l : List VPlace) : Fetch :=
  let lines := hostLinesOf c core l
  let missing := lines.filter (fun a => (s.hostLine c.id a).isNone)
  if missing ≠ [] && !s.attached then .lost
  else
    if missing ≠ [] then .wait (missing.foldl (fun s a => s.askHost (.cmd c.id) a 64) s)
    else
      match (localReads c core l).findSome? (fun r => match s.read ⟨.c1, some c.job⟩ r.1 r.2 with
          | (.bad e, t) => some (t, e)
          | _ => none) with
      | some (t, e) => .bad t e
      | none => .ok

/-- The bytes of a place whose reads are ready. -/
def State.placeBytes (s : State) (c : Cmd) (core : Nat) (p : VPlace) : Bytes :=
  (p.targets c core).flatMap (fun x => match x.1 with
    | .here a => s.bytes a x.2
    | .host h => (List.range x.2).map (fun i =>
        ((s.hostLine c.id ((h + i) / 64 * 64)).getD []).getD ((h + i) % 64) 0)
    | .remote _ _ => [])

/-- Take the reads of a list of places: counted, and the host lines used up. -/
def State.takeReads (s : State) (c : Cmd) (core : Nat) (l : List VPlace) : State :=
  let lines := hostLinesOf c core l
  let s := (localReads c core l).foldl (fun (s : State) r => (s.read ⟨.c1, some c.job⟩ r.1 r.2).2) s
  ({ s with host := { s.host with
    reads := s.host.reads.filter (fun r => !(r.user = .cmd c.id && lines.contains r.address)) } } : State).hostBytes
      c.job (64 * lines.length)

/-- Bytes to write, run by run: a write that continues the one before joins it. -/
def joinWrites : List (Target × Bytes) → List (Target × Bytes)
  | [] => []
  | x :: rest =>
    match joinWrites rest with
    | [] => [x]
    | y :: more => if x.1.plus x.2.length = y.1 then (x.1, x.2 ++ y.2) :: more else x :: y :: more

/-- The writes of a list of places with their data. -/
def writesOf (c : Cmd) (core : Nat) (l : List (VPlace × Bytes)) : List (Target × Bytes) :=
  joinWrites (l.flatMap (fun x =>
    ((x.1.targets c core).foldl (fun (r : List (Target × Bytes) × Bytes) t =>
      (r.1 ++ [(t.1, r.2.take t.2)], r.2.drop t.2)) ([], x.2)).1))

/-- Lines a list of writes needs at the port. -/
def hostRoomFor (l : List (Target × Bytes)) : Nat :=
  (l.map (fun x => match x.1 with
    | .host h => hostLines h x.2.length
    | _ => 0)).foldl (· + ·) 0

/-- A device write to an absent host is discarded at once (R398). -/
def State.dropHostWrite (s : State) (tag source unit a : Nat) (d : Bytes) : State :=
  let w : HostWrite := ⟨s.host.issued, tag, source, unit, a, d, false⟩
  ((s.bump (objKey 0x3101 4) 1).bump (objKey 0x3101 5) d.length).logDiscard w

/-- Perform writes in order until one finds the host port full (R387): what is left, or the bus error that ended them. -/
def State.putSome (s : State) (c : Cmd) (core : Nat) : List (Target × Bytes) → Except Nat (List (Target × Bytes)) × State
  | [] => (.ok [], s)
  | (t, d) :: rest =>
    match t with
    | .here a =>
      (match s.write ⟨.c1, some c.job⟩ a d with
      | (.bad e, s) => (.error e, s)
      | (.ok _, s) => s.putSome c core rest)
    | .host h =>
      if !s.attached then (s.dropHostWrite c.job 1 core h d).putSome c core rest
      else if s.hostWriteRoom h d.length then ((s.putHost c.job 1 core h d).hostBytes c.job d.length).putSome c core rest
      else (.ok ((t, d) :: rest), s)
    | .remote _ _ => s.putSome c core rest

/-! ### The end of a run (R221, R226) -/

def State.vectorRun? (s : State) (core : Nat) : Option VectorRun := s.arith.runs.find? (fun r => r.core = core)

/-- The status record of a run. -/
def vectorRecord (status : Nat) (r : VectorRun) (stamp : Ns) : Bytes :=
  natLe 2 status ++ natLe 2 0 ++ natLe 4 r.group ++ natLe 4 r.nonFinite ++ natLe 4 r.saturated ++ natLe 4 r.suppressed ++
    natLe 4 0 ++ natLe 8 stamp

/-- The place of a run's status record. -/
def Cmd.statusPlace (c : Cmd) : List VPlace := if c.u64 56 = 0 then [] else [⟨true, c.u64 56, 32⟩]

/-- Hold a run, new or known. -/
def State.holdVector (s : State) (r : VectorRun) : State :=
  { s with arith := { s.arith with runs := s.arith.runs.filter (fun x => x.cmd ≠ r.cmd) ++ [r] } }

/-- A run ends with a status: once its page is translated and the port takes it the record is written, and the engine may complete the
command. A run that the host's absence ends gives its job a notice (R398). -/
def State.vectorEnd (s : State) (c : Cmd) (core status : Nat) (r : VectorRun) : State :=
  let s := if status = 2 && r.ending.isNone then s.hostLost ⟨.vector, core⟩ c.job else s
  let s := s.holdVector { r with ending := some status }
  match s.needRanges c ⟨.vector, core⟩ (placeRanges c.statusPlace true) with
  | .fault s => s
  | .wait s => s
  | .ready s c =>
    if !s.vectorTargets c core true c.statusPlace then s.illegal c
    else
      match s.putSome c core (writesOf c core (c.statusPlace.map (fun p => (p, vectorRecord status r c.started)))) with
      | (.error e, s) => s.cmdFault c e
      | (.ok (_ :: _), s) => s
      | (.ok [], s) =>
        ({ s with arith := { s.arith with runs := s.arith.runs.filter (fun x => x.cmd ≠ c.id) } } : State).setCmd
          { c with phase := .finished }

/-! ### The start of a run (R217 to R222) -/

/-- A run with nothing done. -/
def VectorRun.none_ (c : Cmd) (core : Nat) : VectorRun :=
  { cmd := c.id, core := core, bindings := [], program := [], regs := [], masks := [0, 0, 0, 0], fixed := [], group := 0, carry := 0,
    undefined := false, seen := [], storing := false, left := [], ending := none, suppressed := 0, nonFinite := 0, saturated := 0 }

def State.slotOf (s : State) (core slot : Nat) : ProgramSlot := Map.get ProgramSlot.init s.arith.slots (16 * core + slot)

/-- The program a run names: its own words, or a slot's; none on a slot mismatch (R217), an empty slot included. -/
def State.program? (s : State) (c : Cmd) (core : Nat) : Option (List Nat) :=
  if c.opcode = 0x50 then some ((List.range (bits (c.u8 48) 1 0 + 1)).map (fun i => c.u32 (32 + 4 * i)))
  else
    let v := s.slotOf core (bits (c.u8 16) 5 2)
    if v.loaded ∧ v.job = c.job ∧ v.program = c.u32 28 then some v.words else none

/-- The places read before the first group: state inputs, then stride-zero inputs (R203, R207). -/
def stateReads (l : List Binding) : List VPlace :=
  (l.filter (fun b => b.stateIn || (b.isInput && b.stride = 0))).map (fun b => ⟨b.virt, b.base, b.size⟩)

/-- The places written after the last group. -/
def stateWrites (l : List Binding) : List VPlace := (l.filter Binding.stateOut).map (fun b => ⟨b.virt, b.base, b.size⟩)

/-- Load the state inputs into the registers. -/
def State.loadState (s : State) (c : Cmd) (core : Nat) (l : List Binding) : Map Bytes :=
  (l.filter Binding.stateIn).foldl (fun (m : Map Bytes) b =>
    let d := s.placeBytes c core ⟨b.virt, b.base, b.size⟩
    (List.range b.count).foldl (fun (m : Map Bytes) i => Map.set zeroReg m (b.reg + i) (sub d (256 * i) 256)) m) []

/-- The one value of each stride-zero input, in its register type. -/
def State.loadFixed (s : State) (c : Cmd) (core : Nat) (l : List Binding) : List (Nat × Nat) :=
  (l.filter (fun b => b.isInput && b.stride = 0)).map (fun b =>
    (b.reg, widenTo b.fmt ((registerFmt c.packing b.fmt).getD 0) (leNat (s.placeBytes c core ⟨b.virt, b.base, b.size⟩))))

/-- What places are read or written for, and where they lie (R207). -/
def accessesOf (c : Cmd) (core : Nat) (write : Bool) (l : List (Nat × VPlace)) : List VAccess :=
  l.flatMap (fun p => (p.2.targets c core).map (fun t => ⟨write, p.1, t.1, t.2⟩))

/-- A write and a read share a byte other than in place: for one element of the streams, in one place. -/
def VAccess.clash (a b : VAccess) : Bool :=
  a.write != b.write && a.target.meets a.length b.target b.length && !(a.key = b.key && a.target = b.target && a.length = b.length)

/-- Keys of what is not an element of a stream: state bindings, lane masks, row sums. -/
def stateKey : Nat := 2 ^ 32
def maskKey (g : Nat) : Nat := 2 ^ 33 + g
def sumKey (row : Nat) : Nat := 2 ^ 34 + row

/-- A run takes note of what it reads and writes next. Once an output has turned out to overlap an input, by whatever addresses, its
results are undefined, those already stored in the package included (R207, notes/assumptions/71.md). -/
def State.noteAccess (s : State) (r : VectorRun) (l : List VAccess) : VectorRun × State :=
  if r.undefined || !l.any (fun a => (r.seen ++ l).any a.clash) then ({ r with seen := r.seen ++ l }, s)
  else
    ({ r with seen := r.seen ++ l, undefined := true },
      s.blur ((r.seen.filter (fun a => a.write)).filterMap (fun a => match a.target with
        | .here x => some (x, a.length)
        | _ => none)))

/-- A run begins once its state bindings and status address are translated and its state inputs are there. -/
def State.beginRun (s : State) (c : Cmd) (core : Nat) (program : List Nat) (raw : List Bytes) : State :=
  let l := raw.map bindingOf
  let reads := stateReads l
  match s.needRanges c ⟨.vector, core⟩
      (placeRanges reads false ++ placeRanges (stateWrites l) true ++ placeRanges c.statusPlace true) with
  | .fault s => s
  | .wait s => s
  | .ready s c =>
    if !(s.vectorTargets c core false reads && s.vectorTargets c core true (stateWrites l ++ c.statusPlace)) then s.illegal c
    else
      match s.prepare c core reads with
      | .lost => s.vectorEnd c core 2 (VectorRun.none_ c core)
      | .wait s => s
      | .bad s e => s.cmdFault c e
      | .ok =>
        let r : VectorRun := { VectorRun.none_ c core with
          bindings := raw, program := program, regs := s.loadState c core l, fixed := s.loadFixed c core l,
          undefined := c.clashes l }
        let kept := accessesOf c core false ((l.filter Binding.stateIn).map (fun b => (stateKey, ⟨b.virt, b.base, b.size⟩)))
        let s := (s.takeReads c core reads).setCmd { c with armed := true, xl := [] }
        s.holdVector { r with seen := kept }

/-- A slot mismatch: the run has no effect and completes with status 0x0001. -/
def State.mismatch (s : State) (c : Cmd) (core : Nat) : State :=
  match s.needRanges c ⟨.vector, core⟩ (placeRanges c.statusPlace true) with
  | .fault s => s
  | .wait s => s
  | .ready s c =>
    if !s.vectorTargets c core true c.statusPlace then s.illegal c
    else (s.bump (vectorKey core 6) 1).vectorEnd c core 1 (VectorRun.none_ c core)

/-- The first step of a run: its checks, then its state inputs. -/
def State.startRun (s : State) (core op : Nat) : State :=
  match s.engineCmd? ⟨.vector, core⟩ op with
  | none => s
  | some c =>
    if c.armed then s
    else if !c.runFieldsOk then s.illegal c
    else
      match s.program? c core with
      | none => s.mismatch c core
      | some program =>
        match s.read ⟨.c1, none⟩ (scratchBase core + c.u32 24) (16 * (bits (c.u8 17) 2 0 + 1)) with
        | (.bad e, s) => s.cmdFault c e
        | (.ok d, s) =>
          let raw := chunks 16 9 d
          if !(program.all (wordOk c.packing) && c.bindingsOk (raw.map bindingOf)) then s.illegal c
          else s.beginRun c core program raw

/-- VECTOR_RUN (R218, R219): the started run of a core that holds its instructions in the command begins. -/
def execVectorRun (dt core : Nat) (s : State) : Host.Outcome State Fault Refusal := .next ((s.tick dt).startRun core 0x50)

/-- LANE_PROGRAM_RUN (R217, R219): the started run of a slot's program begins, or completes with status 0x0001 on a
mismatch. -/
def execLaneProgramRun (dt core : Nat) (s : State) : Host.Outcome State Fault Refusal := .next ((s.tick dt).startRun core 0x51)

/-- LANE_PROGRAM_LOAD (R216, R220): copies instruction words from the scratchpad into a slot and records job and identifier. -/
def execLaneProgramLoad (dt core : Nat) (s : State) : Host.Outcome State Fault Refusal :=
  let s := s.tick dt
  match s.engineCmd? ⟨.vector, core⟩ 0x52 with
  | none => .next s
  | some c =>
    let n := bits (c.u8 18) 5 0 + 1
    let a := c.u32 24
    if 0x800000 ≤ a ∨ a % 64 ≠ 0 ∨ 0x800000 < a + 4 * n then .next (s.illegal c)
    else
      match s.read ⟨.c1, none⟩ (scratchBase core + a) (4 * n) with
      | (.bad e, s) => .next (s.cmdFault c e)
      | (.ok d, s) =>
        let v : ProgramSlot := { loaded := true, job := c.job, program := c.u32 20, words := (chunks 4 65 d).map leNat }
        let s : State := { s with arith := { s.arith with
          slots := Map.set ProgramSlot.init s.arith.slots (16 * core + bits (c.u8 16) 3 0) v } }
        .next ((s.bump (vectorKey core 9) 1).setCmd { c with phase := .finished })

/-! ### Groups (R205 to R207) -/

/-- The length mask of a group. -/
def Cmd.lengthMask (c : Cmd) (g : Nat) : Nat :=
  (List.range 64).foldl (fun m l => if g * c.groupSize + l * c.packing < c.length then m + 2 ^ l else m) 0

/-- The elements of a group below the length that a binding leaves active under k1: (position, element). -/
def Cmd.active (c : Cmd) (b : Binding) (g k1 : Nat) : List (Nat × Nat) :=
  ((List.range c.groupSize).map (fun i => (i, g * c.groupSize + i))).filter (fun x =>
    x.2 < c.length && (!b.masked || bit k1 (x.1 / c.packing)))

/-- Elements of a group that a masked binding suppresses: all of its inactive ones, those at or beyond the length among them (R205). -/
def Cmd.suppressed (c : Cmd) (b : Binding) (g k1 : Nat) : Nat := if b.masked then c.groupSize - (c.active b g k1).length else 0

/-- The places of a binding's active elements, with their elements. -/
def Cmd.places (c : Cmd) (b : Binding) (g k1 : Nat) : List (Nat × VPlace) :=
  (c.active b g k1).map (fun x => (x.2, ⟨b.virt, b.at_ x.2, b.size⟩))

/-- A register filled with one element value. -/
def fillReg (p v : Nat) : Bytes := elemsReg (List.replicate (64 * p) v) (4 / p)

/-- The place of a group's lane mask. -/
def maskPlaces (l : List Binding) (g : Nat) : List VPlace := (l.filter Binding.isMask).map (fun b => ⟨b.virt, b.at_ g, 8⟩)

/-- Load the inputs of a group (R207 steps 1 and 2). -/
def State.loadGroup (s : State) (c : Cmd) (core : Nat) (l : List Binding) (r : VectorRun) (k1 : Nat) : Lanes :=
  let p := c.packing
  let start : Lanes := { regs := r.regs, masks := setAt (setAt r.masks 0 (c.lengthMask r.group)) 1 k1 }
  let start := r.fixed.foldl (fun (v : Lanes) f => v.setReg f.1 (fillReg p f.2)) start
  (l.filter (fun b => b.isInput && b.stride ≠ 0)).foldl (fun (v : Lanes) b =>
    let rt := (registerFmt p b.fmt).getD 0
    let fill := List.replicate (64 * p) (fillValue rt b.fill)
    let elems := (c.active b r.group k1).foldl (fun (e : List Nat) x =>
      setAt e x.1 (widenTo b.fmt rt (leNat (s.placeBytes c core ⟨b.virt, b.at_ x.2, b.size⟩)))) fill
    v.setReg b.reg (elemsReg elems (4 / p))) start

/-- Stored elements of a group with how they count: place, data, count. -/
def Cmd.stores (c : Cmd) (l : List Binding) (g : Nat) (v : Lanes) : List (VPlace × Bytes × Stored) :=
  (l.filter Binding.isOutput).flatMap (fun b =>
    let rt := (registerFmt c.packing b.fmt).getD 0
    let elems := regElems (v.reg b.reg) (4 / c.packing)
    (c.active b g (v.mask 1)).map (fun x =>
      let y := narrowTo b.fmt rt (elems.getD x.1 0)
      (⟨b.virt, b.at_ x.2, b.size⟩, natLe b.size y.1, y.2)))

/-- The row sum after a group (R214): elements at or beyond the length contribute zero. -/
def Cmd.rowSum (c : Cmd) (b : Binding) (g carry : Nat) (v : Lanes) : Nat :=
  let e := typeBytes b.src
  let fl := typeFloat b.src
  let elems := (regElems (v.reg b.reg) e).mapIdx (fun i x =>
    if g * c.groupSize + i < c.length then widenTo b.src (if fl then 0 else 1) x else 0)
  sumAdd fl carry (treeSum fl 8 elems)

/-- A group is the last of its row. -/
def Cmd.rowEnds (c : Cmd) (g : Nat) : Bool := (g + 1) % c.perRow = 0 || g + 1 = c.groups

/-- The store of a row sum that a group completes. -/
def Cmd.sumStore (c : Cmd) (l : List Binding) (g sum : Nat) : List (VPlace × Bytes × Stored) :=
  match l.find? Binding.isSum with
  | some b =>
    if c.rowEnds g then
      let y := narrowTo b.fmt (if typeFloat b.src then 0 else 1) sum
      [(⟨b.virt, b.at_ (g / c.perRow), b.size⟩, natLe b.size y.1, y.2)]
    else []
  | none => []

/-- The places that a group stores to, with what they are for: its outputs under a final k1, and the row sum that it completes. -/
def Cmd.outPlaces (c : Cmd) (l : List Binding) (g k1 : Nat) : List (Nat × VPlace) :=
  (l.filter Binding.isOutput).flatMap (fun b => c.places b g k1) ++
    (c.sumStore l g 0).map (fun x => (sumKey (g / c.perRow), x.1))

/-- Undefined data of the same places. -/
def State.freeStores (s : State) (l : List (VPlace × Bytes × Stored)) : List (VPlace × Bytes × Stored) × State :=
  l.foldl (fun (r : List (VPlace × Bytes × Stored) × State) x =>
    let (d, s) := r.2.drawBytes x.2.1.length
    (r.1 ++ [(x.1, d, x.2.2)], s)) ([], s)

/-- How many of some stores count as a kind. -/
def countStores (k : Stored) (l : List (VPlace × Bytes × Stored)) : Nat := (l.filter (fun x => x.2.2 = k)).length

/-- The stores of a group, or of the state outputs, go out as far as the host port takes them; once they all have, the run comes to its
next group, whose pages are looked up afresh (R280), or to its end. -/
def State.flushStores (s : State) (c : Cmd) (core : Nat) (r : VectorRun) : State :=
  match s.putSome c core r.left with
  | (.error e, s) => s.cmdFault c e
  | (.ok (x :: rest), s) => s.holdVector { r with left := x :: rest, storing := true }
  | (.ok [], s) =>
    let r := { r with left := [], storing := false }
    if r.group < c.groups then (s.holdVector { r with group := r.group + 1 }).setCmd { c with xl := [] } else s.vectorEnd c core 0 r

/-- A group that has run: what it stores is counted, and its stores go out. -/
def State.groupDone (s : State) (c : Cmd) (core : Nat) (l : List Binding) (r : VectorRun) (k1 : Nat) (v : Lanes) (sum : Nat)
    (stores : List (VPlace × Bytes × Stored)) (writes : List (Target × Bytes)) : State :=
  let supp := ((l.filter (fun b => b.isInput && b.stride ≠ 0)).map (fun b => c.suppressed b r.group k1)).foldl (· + ·) 0 +
    ((l.filter Binding.isOutput).map (fun b => c.suppressed b r.group (v.mask 1))).foldl (· + ·) 0
  let nf := countStores .nonFinite stores
  let sat := countStores .saturated stores
  let sums := (c.sumStore l r.group 0).length
  let s := ((s.bump (vectorKey core 1) 1).bump (vectorKey core 2) r.program.length).bump (vectorKey core 3) supp
  let s := ((s.bump (vectorKey core 4) sums).bump (vectorKey core 7) nf).bump (vectorKey core 8) sat
  let s := (s.bump (objKey 0x2410 1) nf).bump (objKey 0x2410 2) sat
  s.flushStores c core { r with
    regs := v.regs, masks := v.masks, carry := if c.rowEnds r.group then 0 else sum, left := writes,
    suppressed := r.suppressed + supp, nonFinite := r.nonFinite + nf, saturated := r.saturated + sat }

/-- Host lines that a group has loaded are given up: it runs from its start when its pages are there (R206). -/
def State.dropLines (s : State) (c : Cmd) : State :=
  { s with host := { s.host with reads := s.host.reads.filter (fun r => r.user ≠ .cmd c.id) } }

/-- The stores of a group, once its inputs are there: the program runs, and any output page that only its final k1 has brought in is
translated before anything is stored. `holds` are the cycles that step 4 held the engine, in a run with a reduction output
(R215). -/
def State.runGroup (s : State) (c : Cmd) (core holds : Nat) (l : List Binding) (r : VectorRun) (reads : List (Nat × VPlace)) (k1 : Nat) :
    State :=
  let v := execProgram r.group r.program (s.loadGroup c core l r k1)
  let sum := match l.find? Binding.isSum with
    | some b => c.rowSum b r.group r.carry v
    | none => 0
  let stores := c.stores l r.group v ++ c.sumStore l r.group sum
  let places := c.outPlaces l r.group (v.mask 1)
  match s.needRanges c ⟨.vector, core⟩ (placeRanges (places.map (·.2)) true) with
  | .fault s => s
  | .wait s => s.dropLines c
  | .ready s c =>
    if !s.vectorTargets c core true (places.map (·.2)) then s.illegal c
    else if 0 < hostRoomFor (writesOf c core (stores.map (fun x => (x.1, x.2.1)))) && !s.attached then s.vectorEnd c core 2 r
    else
      let s := if (l.find? Binding.isSum).isSome then s.bump (vectorKey core 5) holds else s
      let s := s.takeReads c core (reads.map (·.2))
      let (r, s) := s.noteAccess r (accessesOf c core false reads ++ accessesOf c core true places)
      let (stores, s) := if r.undefined then s.freeStores stores else (stores, s)
      s.groupDone c core l r k1 v sum stores (writesOf c core (stores.map (fun x => (x.1, x.2.1))))

/-- A walk for a page of a command is under way. -/
def State.translating (s : State) (c : Cmd) : Bool := s.xlat.walks.any (fun w => w.waiters.any (fun x => x.cmd = c.id))

/-- The group a run comes to: its lane mask first, then every page of its inputs and outputs is translated, and only then are its inputs
read (R206). -/
def State.nextGroup (s : State) (c : Cmd) (core holds : Nat) (l : List Binding) (r : VectorRun) : State :=
  let masks := maskPlaces l r.group
  match s.needRanges c ⟨.vector, core⟩ (placeRanges masks false) with
  | .fault s => s
  | .wait s => s
  | .ready s c =>
    if s.translating c then s
    else if !s.vectorTargets c core false masks then s.illegal c
    else
      match s.prepare c core masks with
      | .lost => s.vectorEnd c core 2 r
      | .wait s => s
      | .bad s e => s.cmdFault c e
      | .ok =>
        let k1 := match masks with
          | p :: _ => leNat (s.placeBytes c core p)
          | [] => r.masks.getD 1 0
        let ins := (l.filter (fun b => b.isInput && b.stride ≠ 0)).flatMap (fun b => c.places b r.group k1)
        let outs := (c.outPlaces (if writesK1 r.program then l.filter (fun b => !b.masked) else l) r.group k1).map (·.2)
        match s.needRanges c ⟨.vector, core⟩ (placeRanges (ins.map (·.2)) false ++ placeRanges outs true) with
        | .fault s => s
        | .wait s => s
        | .ready s c =>
          if !(s.vectorTargets c core false (ins.map (·.2)) && s.vectorTargets c core true outs) then s.illegal c
          else
            match s.prepare c core (masks ++ ins.map (·.2)) with
            | .lost => s.vectorEnd c core 2 r
            | .wait s => s
            | .bad s e => s.cmdFault c e
            | .ok => s.runGroup c core holds l r (masks.map (fun p => (maskKey r.group, p)) ++ ins) k1

/-- After the last group: the state outputs, whose pages are translated again where they have been lost. -/
def State.lastStores (s : State) (c : Cmd) (core : Nat) (l : List Binding) (r : VectorRun) : State :=
  match s.needRanges c ⟨.vector, core⟩ (placeRanges (stateWrites l) true) with
  | .fault s => s
  | .wait s => s
  | .ready s c =>
    if !s.vectorTargets c core true (stateWrites l) then s.illegal c
    else
      let v : Lanes := { regs := r.regs, masks := r.masks }
      let stores := (l.filter Binding.stateOut).map (fun b =>
        ((⟨b.virt, b.base, b.size⟩ : VPlace), (List.range b.count).flatMap (fun i => v.reg (b.reg + i)), Stored.plain))
      if 0 < hostRoomFor (writesOf c core (stores.map (fun x => (x.1, x.2.1)))) && !s.attached then s.vectorEnd c core 2 r
      else
        let (r, s) := s.noteAccess r (accessesOf c core true ((stateWrites l).map (fun p => (stateKey, p))))
        let (stores, s) := if r.undefined then s.freeStores stores else (stores, s)
        s.flushStores c core { r with left := writesOf c core (stores.map (fun x => (x.1, x.2.1))) }

/-- VECTOR_GROUP (R206, R207): the next group of a core's run, or, after the last, its state outputs and its end. `holds` are the
cycles the engine was held for the reduction unit (R215); `parity` is a parity error on its data path (R404). -/
def execVectorGroup (dt core holds : Nat) (parity : Bool) (s : State) : Host.Outcome State Fault Refusal :=
  let s := s.tick dt
  match s.vectorRun? core with
  | none => .next s
  | some r =>
    match s.cmd? r.cmd with
    | none => .next s
    | some c =>
      if parity then .next (s.parityFault c ⟨.vector, core⟩)
      else
        let l := r.bindings.map bindingOf
        .next (match r.ending with
          | some status => s.vectorEnd c core status r
          | none =>
            if r.storing then s.flushStores c core r
            else if r.group < c.groups then s.nextGroup c core holds l r
            else s.lastStores c core l r)

end Sys2Proof.Machine
end

