-- ==== Sys2Proof/Machine/HostPort.lean ====
section
/-! DEFINITION. The host port: link, configuration, BAR, device memory as the host sees it, host memory as the device sees it,
interrupts, loss and attachment (R378 to R402). -/
namespace Sys2Proof.Machine

/-! ### The event log (R395) -/

/-- Add an event record: code 0 is a General Media event at a local offset, any other a vendor record of that fault code. -/
def State.event (s : State) (code a : Nat) : State :=
  { s with mailbox := { s.mailbox with
      events := s.mailbox.events ++ [(s.mailbox.nextHandle, code, a, s.now)]
      nextHandle := if s.mailbox.nextHandle = 0xFFFF then 1 else s.mailbox.nextHandle + 1 } }

/-! ### Link and configuration (R379, R381, R393, R397, R458) -/

/-- HOST_LINK_UP (R379, R401, R458): the link trains to a width and rate that the port supports, once the PHY is ready and PERST_N
is deasserted. -/
def execHostLinkUp (dt width rate : Nat) (s : State) : Host.Outcome State Fault Refusal :=
  let s := s.tick dt
  if !s.host.perst || !s.host.phy || s.host.dlUp || !([4, 8, 16].contains width) || !([8, 16, 32, 64].contains rate) then .next s
  else
    let s : State := { s with host := { s.host with dlUp := true } }
    .next (((s.setNum hostStateKey 1).setNum (objKey 0x3100 2) width).setNum (objKey 0x3100 3) rate)

/-- LINK_RECOVERY (R379): a return to full operation without leaving DL_Up, with the flits that the retry replayed. -/
def execLinkRecovery (dt replays : Nat) (s : State) : Host.Outcome State Fault Refusal :=
  let s := s.tick dt
  if s.host.dlUp then .next ((s.bump (objKey 0x3101 2) 1).bump (objKey 0x6E00 5) replays) else .next s

/-- PERST_DEASSERT (R458): link training may begin once the PHY is ready as well; HOST_LINK_UP follows. -/
def execPerstDeassert (dt : Nat) (s : State) : Host.Outcome State Fault Refusal :=
  let s := s.tick dt
  .next { s with host := { s.host with perst := true } }

/-- Store a configuration field (R381, R390). A function-level reset request, and everything else, changes nothing (R397). -/
def State.writeConfig (s : State) (f : ConfigField) (v : Bool) : State :=
  match f with
  | .memorySpace => { s with host := { s.host with memSpace := v } }
  | .busMaster => { s with host := { s.host with busMaster := v } }
  | .msixEnable => { s with host := { s.host with msix := v } }
  | .uioEnable => { s with host := { s.host with uio := v } }
  | .functionReset => s
  | .vendorId => s
  | .deviceId => s
  | .classCode => s
  | .cxlCapability => s
  | .memoryStatus => s
  | .doeDiscovery => s
  | .cdat => s
  | .other => s

/-- Memory_Info_Valid and Memory_Active: the initialisation of R270 has completed (R382). -/
def State.memoryActive (s : State) : Bool := s.startup.stage = .engines || s.startup.stage = .usable

/-- The CDAT (R392), in the layout of its own standard (notes/assumptions/127.md): one volatile range of 768 GiB, and its figures. -/
def cdatTable : Bytes :=
  let figure (kind unit value : Nat) : Bytes :=
    natLe 1 1 ++ natLe 1 0 ++ natLe 2 24 ++ natLe 1 0 ++ natLe 1 0 ++ natLe 1 kind ++ natLe 1 0 ++ natLe 8 unit ++ natLe 2 value ++
      natLe 6 0
  natLe 1 0 ++ natLe 1 0 ++ natLe 2 24 ++ natLe 1 0 ++ natLe 1 0 ++ natLe 2 0 ++ natLe 8 0 ++ natLe 8 0xC000000000 ++
    figure 1 1000 350 ++ figure 2 1000 300 ++ figure 4 1000 56 ++ figure 5 1000 56

/-- The protocols that the DOE mailbox answers (R378, R392), by vendor and type: Discovery, CMA/SPDM, Secure CMA/SPDM and CDAT Table
Access (notes/assumptions/127.md). -/
def doeProtocols : List (Nat × Nat) := [(0x0001, 0), (0x0001, 1), (0x0001, 2), (0x1E98, 2)]

/-- What a read of configuration space returns (R378 to R380, R382, R392): class 0x12_0000, device 0x3D03; Cache_Capable, IO_Capable,
Mem_Capable, Mem_HwInit_Mode and HDM_Count 1. -/
def State.readConfig (s : State) (f : ConfigField) : Bytes :=
  let flag (b : Bool) : Bytes := natLe 1 (if b then 1 else 0)
  match f with
  | .memorySpace => flag s.host.memSpace
  | .busMaster => flag s.host.busMaster
  | .msixEnable => flag s.host.msix
  | .uioEnable => flag s.host.uio
  | .functionReset => flag false
  | .vendorId => natLe 2 Config.vendorSource
  | .deviceId => natLe 2 0x3D03
  | .classCode => natLe 3 0x120000
  | .cxlCapability => natLe 2 0x1F
  | .memoryStatus => natLe 1 (if s.memoryActive then 3 else 0)
  | .doeDiscovery => doeProtocols.flatMap (fun p => natLe 2 p.1 ++ natLe 1 p.2)
  | .cdat => cdatTable
  | .other => []

/-- CONFIGURATION_REQUEST (R456, R458): Request Retry Status until the package is usable or its start-up has stopped, and a normal
completion afterwards. Without a link none arrives. -/
def execConfigurationRequest (dt : Nat) (field : ConfigField) (write value : Bool) (s : State) :
    Host.Outcome State Fault Refusal :=
  let s := s.tick dt
  if !s.host.dlUp then .next s
  else if s.num startupKey = 0 then .next (s.emit .configRetry)
  else if write then .next ((s.writeConfig field value).emit (.configDone []))
  else .next (s.emit (.configDone (s.readConfig field)))

/-- HDM_COMMIT (R382): the decoder takes a base that is a multiple of 256 MiB, and 0x2600.01 mirrors it. -/
def execHdmCommit (dt base : Nat) (s : State) : Host.Outcome State Fault Refusal :=
  let s := s.tick dt
  if !s.host.dlUp || base % 0x10000000 ≠ 0 || 2 ^ 64 ≤ base then .next s
  else
    let s : State := { s with host := { s.host with committed := true } }
    .next (s.setNum (objKey 0x2600 1) base)

/-- IDE_KM_MESSAGE (R378, R393): over an established secure session, keys of one of the four streams are programmed, or a stream that
has keys becomes active, the CXL IDE stream in skid or in containment mode. -/
def execIdeKmMessage (dt session stream : Nat) (step : IdeStep) (s : State) : Host.Outcome State Fault Refusal :=
  let s := s.tick dt
  if !s.host.dlUp || 4 ≤ stream || !(s.spdm.sessions.any (fun x => x.id = session && x.established)) then .next s
  else
    match step with
    | .program => .next { s with host := { s.host with ideKeys := s.host.ideKeys ||| 2 ^ stream } }
    | .activate skid =>
      if bit s.host.ideKeys stream then .next { s with host := { s.host with
        ideKeys := s.host.ideKeys ||| 2 ^ (stream + 8), ideSkid := if stream = 0 then skid else s.host.ideSkid } }
      else .next s

/-- 0x3100.05: the active streams among those that 0x3100.04 can require. -/
def State.ideActive (s : State) : Nat := bits s.host.ideKeys 9 8

/-- HOST_STATUS.IDE active: every required stream is active. -/
def State.ideReady (s : State) : Bool := s.num (objKey 0x3100 4) &&& s.ideActive = s.num (objKey 0x3100 4)

/-! ### Interrupts (R388, R396) -/

/-- A byte of the MSI-X table after reset: every vector control word has its mask bit set. -/
def msixReset (k : Nat) : Byte := if k % 16 = 12 then 1 else 0

def State.msixByte (s : State) (k : Nat) : Byte := Map.get (msixReset k) s.host.msixTable k

/-- Store one byte of the MSI-X table. -/
def State.setMsixByte (s : State) (k : Nat) (v : Byte) : State :=
  { s with host := { s.host with msixTable := Map.put s.host.msixTable k (if v = msixReset k then none else some v) } }

/-- A vector may be sent: MSI-X enabled, the vector unmasked, the host attached. -/
def State.vectorOpen (s : State) (v : Nat) : Bool := s.attached && s.host.msix && !(s.msixByte (16 * v + 12)).getLsbD 0

/-- Every write to the host issued before a vector was raised has received its GO. -/
def State.vectorReady (s : State) (h : HeldVector) : Bool := s.host.writes.all (fun w => w.posted || h.after ≤ w.number)

/-- Send a held vector that may be sent. -/
def State.sendVector (s : State) (h : HeldVector) : State :=
  if s.vectorOpen h.vector && s.vectorReady h then
    ({ s with host := { s.host with held := s.host.held.filter (fun x => x ≠ h) } } : State).emit (.msi h.vector)
  else s

/-- VECTOR_SEND (R396): a held vector is sent when it can be. -/
def execVectorSend (dt vector : Nat) (s : State) : Host.Outcome State Fault Refusal :=
  let s := s.tick dt
  match s.host.held.find? (fun h => h.vector = vector) with
  | some h => .next (s.sendVector h)
  | none => .next s

/-! ### Attachment (R401) and the discard log (R381, R399) -/

/-- The refusal code of an Attach, 0 when it is accepted. -/
def State.attachRefusal (s : State) : Nat :=
  if !s.host.dlUp then 1
  else if !s.host.memSpace || !s.host.busMaster then 2
  else if !s.host.msix then 3
  else if !s.host.committed then 4
  else if !s.ideReady then 5
  else 0

/-- Host fences that are ready and wait: all are complete at an attachment, since no write is outstanding then (R398). -/
def State.completeHostFences (s : State) : State :=
  (s.cmds.filter (fun c => c.unit.isNone && c.opcode = 0x04 && c.phase = .running)).foldl State.complete s

/-- Every launch held for the host runs on; the time of the hold does not count (R333). -/
def State.resumeQueues (s : State) : State :=
  { s with
    queues := s.queues.map (fun (e : Nat × Queue) =>
      (e.1, { e.2 with launch := e.2.launch.map (fun l =>
        if l.hostHeld then
          { l with hostHeld := false, firstRead := l.firstRead + (s.now - l.heldAt), lastRead := l.lastRead + (s.now - l.heldAt) }
        else l) })) }

/-- The actions of an accepted attachment, in order. -/
def State.attach (s : State) : State :=
  let s : State := { s with host := { s.host with refusal := 0, notified := [] } }
  let s := (s.setNum hostStateKey 2).bump (objKey 0x3101 3) 1
  let s := s.completeHostFences.resumeHost.resumeQueues
  let s := s.host.held.foldl State.sendVector s
  if bit s.host.vec 27 then s.raise (bits s.host.vec 26 16) else s

/-- A write of 1 to HOST_CTL.Attach. -/
def State.writeAttach (s : State) : State :=
  if s.attached then s
  else if s.attachRefusal = 0 then s.attach
  else { s with host := { s.host with refusal := s.attachRefusal } }

/-- HOST_ATTACH (R401): accepted with the actions of R401, or refused with the first condition that failed. While attached it has
no effect. -/
def execHostAttach (dt : Nat) (s : State) : Host.Outcome State Fault Refusal := .next (s.tick dt).writeAttach

/-- A write of 1 to HOST_CTL.Clear log. -/
def State.clearLog (s : State) : State :=
  ({ s with host := { s.host with discards := [] } } : State).clearNums (objKey 0x3101 7) (objKey 0x3101 9)

/-- HOST_CLEAR_LOG (R381): the discard log is emptied, its lost count and times are zero. -/
def execHostClearLog (dt : Nat) (s : State) : Host.Outcome State Fault Refusal := .next (s.tick dt).clearLog

/-! ### Loss of the host (R397, R398) -/

/-- The unit and job of a device write (R399). -/
def HostWrite.unitId (w : HostWrite) : UnitId :=
  match w.source with
  | 0 => ⟨.stream, w.unit⟩
  | 1 => ⟨.vector, w.unit⟩
  | 2 => ⟨.frontEnd, w.unit⟩
  | _ => ⟨.iod, 0⟩

def State.writeJob (s : State) (w : HostWrite) : Nat :=
  match w.source with
  | 2 => queueJob w.unit
  | 3 => bits s.xlat.copyCtl 13 8
  | _ => w.tag

/-- The lowest tile of a descriptor that is in flight with a host side (R306). -/
def State.hostTile (s : State) (core slot : Nat) (d : Desc) : Option Nat :=
  let onHost (t : Target) : Bool := match t with
    | .host _ => true
    | _ => false
  let live := (s.streams.requests.filter (fun r => r.core = core && r.slot = slot && (r.parts.any (fun p => onHost p.source) || onHost r.dest))).map (·.tile)
  let cur := match s.cmd? d.cmd with
    | some c => if d.translated && c.needsHost then [d.tile] else []
    | none => []
  match live ++ cur with
  | [] => none
  | t :: l => some (l.foldl min t)

/-- Streams at a loss: every slot with a host tile in flight halts there, also one that a later tile has halted for translation. -/
def State.haltStreams (s : State) : State :=
  s.streams.slots.foldl (fun (s : State) e =>
    match e.2.active with
    | some d =>
      if e.2.state ≠ SlotState.haltedHost then
        (match s.hostTile (e.1 / 16) (e.1 % 16) d with
        | some t => s.haltHost (e.1 / 16) (e.1 % 16) t
        | none => s)
      else s
    | none => s) s

/-- Vector runs at a loss: a run whose group's loads have not all returned ends with status 0x0002 (R226). -/
def State.endVectorRuns (s : State) (reads : List HostRead) : State :=
  (s.cmds.filter (fun c => reads.any (fun r => r.user = .cmd c.id))).foldl (fun (s : State) c =>
    match c.unit with
    | some u =>
      if u.kind = UnitKind.vector then
        s.vectorEnd ((s.cmd? c.id).getD c) u.num 2 ((s.vectorRun? u.num).getD (VectorRun.none_ c u.num))
      else s
    | none => s) s

/-- Queues at a loss: a launch whose slot or command is being read holds there (R333). -/
def State.holdQueues (s : State) (reads : List HostRead) : State :=
  reads.foldl (fun (s : State) r => match r.user with
    | .slot q => s.holdForHost q
    | .command q _ => s.holdForHost q
    | _ => s) s

/-- The conventional reset of the BAR and of configuration space (R381): registers, decoder, MSI-X table and host block, but not
the discard log, the refusal, or anything behind them. IDE keys are lost (R393), and the host's sessions end (R461). -/
def State.conventionalReset (s : State) : State :=
  let s : State := { s with
    host := { s.host with
      memSpace := false, busMaster := false, msix := false, uio := false, committed := false, vec := 0, p2pBase := [],
      p2pSize := [], msixTable := [], ideKeys := 0, ideSkid := false }
    xlat := { s.xlat with migSrc := 0, migDst := 0, migCtl := 0, overrun := false }
    spdm := { s.spdm with
      host := SpdmConn.init
      sessions := s.spdm.sessions.filter (fun x => x.transport ≠ .host) } }
  s.setNum (objKey 0x2600 1) 0

/-- Everything in flight across the port is resolved (R398). -/
def State.loseHost (s : State) : State :=
  let lost := s.host.reads.filter (fun r => r.data.isNone)
  let writes := s.host.writes
  let s : State := { s with
    host := { s.host with dlUp := false, reads := s.host.reads.filter (fun r => r.data.isSome), notified := [] }
    net := { s.net with owed := s.net.owed.filter (fun e => e.1 ≠ .host) } }
  let s := ((((s.bump (objKey 0x3101 1) 1).setNum hostStateKey 0).setNum (objKey 0x3100 2) 0).setNum (objKey 0x3100 3) 0).event 0x5001 0
  let s := s.discardWrites
  let s := writes.foldl (fun (s : State) w => s.hostLost w.unitId (s.writeJob w)) s
  let s := ((s.haltStreams.endVectorRuns lost).holdQueues lost)
  let s := if s.xlat.migState = 1 then s.migrationFail 1 else s
  s.conventionalReset

/-- HOST_LINK_LOSS (R397, R398): the link leaves DL_Up or is hot-reset, or, with `perst`, PERST_N is asserted. A cause that is not
there changes nothing. -/
def execHostLinkLoss (dt : Nat) (perst : Bool) (s : State) : Host.Outcome State Fault Refusal :=
  let s := s.tick dt
  if perst then
    if s.host.perst then .next ({ s with host := { s.host with perst := false } } : State).loseHost else .next s
  else if s.host.dlUp then .next s.loseHost
  else .next s

/-! ### Device memory as the host sees it (R382 to R384, R391) -/

/-- A host address lies outside B to B + 768 GiB. -/
def State.outsideHdm (s : State) (h n : Nat) : Bool :=
  let b := s.num (objKey 0x2600 1)
  h < b || b + 0xC000000000 < h + n

/-- Host requests to device memory arrive: the link is up and the decoder committed. -/
def State.hdmUp (s : State) : Bool := s.host.dlUp && s.host.committed

/-- HOST_MEM_READ (R382, R384, R391): CXL.mem or UIO. Without an active tenancy it returns zeros; an uncorrectable code word or a
retired page returns poison, is counted, recorded and entered as a General Media event. -/
def execHostMemRead (dt address length : Nat) (s : State) : Host.Outcome State Fault Refusal :=
  let s := s.tick dt
  if !s.hdmUp then .next s
  else if s.outsideHdm address length then .fault .outsideDeviceMemory
  else
    let a := address - s.num (objKey 0x2600 1)
    let s := s.bump (objKey 0x6E00 1) 1
    if s.tenancy ≠ 1 then .next (s.emit (.hostData (List.replicate length 0) false))
    else
      match s.read ⟨.c1, none⟩ a length with
      | (.ok d, s) => .next (s.emit (.hostData d false))
      | (.bad e, s) =>
        let s := ((s.bump (objKey 0x3103 2) 1).report
          { s.newReport ⟨.memory, s.stackOf a⟩ e 0 0xFF with physical := a }).event 0 a
        let (d, s) := s.drawBytes length
        .next (s.emit (.hostData d true))

/-- HOST_MEM_WRITE (R382, R384, R391): CXL.mem or, with `uio`, from a peer. Outside a tenancy, over part of a code word, or to a
retired page it is discarded, counted and completes, a peer's with Completer Abort in the last two cases. -/
def execHostMemWrite (dt address : Nat) (data : Bytes) (uio : Bool) (s : State) : Host.Outcome State Fault Refusal :=
  let s := s.tick dt
  if !s.hdmUp then .next s
  else if s.outsideHdm address data.length then .fault .outsideDeviceMemory
  else
    let a := address - s.num (objKey 0x2600 1)
    let s := s.bump (objKey 0x6E00 2) 1
    if s.tenancy ≠ 1 then .next ((s.bump (objKey 0x3103 4) 1).emit (.hostDone false))
    else
      match s.write ⟨.c1, none⟩ a data with
      | (.ok _, s) => .next (s.emit (.hostDone false))
      | (.bad e, s) =>
        if e = 0x1002 then
          .next ((((s.bump (objKey 0x3103 1) 1).report
            { s.newReport ⟨.cxl, 0⟩ 0x5003 0 0xFF with physical := a }).event 0x5003 a).emit (.hostDone uio))
        else
          .next ((((s.bump (objKey 0x3103 2) 1).report
            { s.newReport ⟨.memory, s.stackOf a⟩ e 0 0xFF with physical := a }).event 0 a).emit (.hostDone uio))

/-- PEER_MEM_REQUEST (R391): a conventional request of a peer to device memory receives Unsupported Request and is counted. -/
def execPeerMemRequest (dt address : Nat) (s : State) : Host.Outcome State Fault Refusal :=
  let s := s.tick dt
  if !s.hdmUp then .next s
  else if s.outsideHdm address 1 then .fault .outsideDeviceMemory
  else .next ((s.bump (objKey 0x3103 3) 1).emit .unsupportedRequest)

/-! ### Host memory as the device sees it (R386 to R390) -/

/-- The execution fault of a device read that the host answers with poison or an error, by requester (R389). -/
def State.hostReadFault (s : State) (r : HostRead) : State :=
  let byCmd (c : Option Cmd) (u : UnitId) : State :=
    match c with
    | some c => s.execFault { s.cmdReport c 0x5002 4 with address := r.address }
    | none => s.execFault { s.newReport u 0x5002 4 0xFF with address := r.address }
  match r.user with
  | .slot q => s.execFault { s.feReport q 0x5002 0 with address := r.address }
  | .command q _ => s.execFault { s.feReport q 0x5002 0 with address := r.address }
  | .record q => s.execFault { s.feReport q 0x5002 0 with address := r.address }
  | .cmd id => byCmd (s.cmd? id) ⟨.cxl, 0⟩
  | .stream core slot _ => byCmd ((s.streamSlot core slot).active.bind (fun d => s.cmd? d.cmd)) ⟨.stream, core⟩
  | .flush id _ _ => byCmd (s.cmd? id) ⟨.cxl, 0⟩
  | .migration => if s.xlat.migState = 1 then s.migrationFail 2 else s

/-- Drop a read. -/
def State.dropRead (s : State) (r : HostRead) : State :=
  { s with host := { s.host with reads := s.host.reads.filter (fun x => x ≠ r) } }

/-- The zero-length read behind a window's posted writes has completed: they count as performed (R390). -/
def State.flushed (s : State) (window after : Nat) : State :=
  { s with host := { s.host with
      writes := s.host.writes.filter (fun w => !(w.posted && w.number < after && s.peerWindow w.address = some window)) } }

/-- HOST_READ_DATA (R386, R389): the host answers the `n`-th outstanding device read with data, or, with `error`, with poison or an
error. -/
def execHostReadData (dt n : Nat) (error : Bool) (data : Bytes) (s : State) : Host.Outcome State Fault Refusal :=
  let s := s.tick dt
  match (s.host.reads.filter (fun r => r.data.isNone)).drop n with
  | [] => .next s
  | r :: _ =>
    if error then .next ((s.dropRead r).hostReadFault r)
    else
      match r.user with
      | .flush _ w a => .next ((s.dropRead r).flushed w a)
      | _ => .next { s with host := { s.host with
          reads := mapIf (fun x => x = r) (fun x => { x with data := some (sub data 0 r.length) }) s.host.reads } }

/-- HOST_GO_RECEIVE (R386, R389, R390): a device write is globally observed, or answered with an error. Posted writes have no
completion of their own. -/
def execHostGoReceive (dt number : Nat) (error : Bool) (s : State) : Host.Outcome State Fault Refusal :=
  let s := s.tick dt
  match s.host.writes.find? (fun w => w.number = number && !w.posted) with
  | none => .next s
  | some w =>
    let s : State := { s with host := { s.host with writes := s.host.writes.filter (fun x => x ≠ w) } }
    let r := if w.source = 2 then s.feReport w.unit 0x5002 w.address else { s.newReport w.unitId 0x5002 4 w.tag with address := w.address }
    if error then .next (s.execFault r) else .next s

/-- HOST_SNOOP (R386): the device holds no line. -/
def execHostSnoop (dt address : Nat) (s : State) : Host.Outcome State Fault Refusal :=
  let _ := address
  let s := s.tick dt
  if s.host.dlUp then .next (s.emit .snoopMiss) else .next s

/-- The writes that a ready host fence covers: those of its job's commands issued before it became ready (R327). -/
def State.coveredWrites (s : State) (c : Cmd) : List HostWrite :=
  s.host.writes.filter (fun w => w.tag = c.job && w.source ≤ 1 && w.number < c.scratch.getD 1 0)

/-- Issue the zero-length reads of a host fence, one for each window with covered posted writes (R390). -/
def State.flushWindows (s : State) (c : Cmd) : State :=
  let windows := ((s.coveredWrites c).filter (fun w => w.posted)).filterMap (fun w => s.peerWindow w.address)
  windows.eraseDups.foldl (fun (s : State) w =>
    let r : HostRead := ⟨.flush c.id w (c.scratch.getD 1 0), bits (Map.get 0 s.host.p2pBase w) 51 21 * 0x200000, 0, s.now, none⟩
    (({ s with host := { s.host with reads := s.host.reads ++ [r] } } : State).bump (objKey 0x6E00 3) 1).emit (.hostRead .io r.address 0)) s

/-- HOST_FENCE (R327, R388, R390): reads go out behind posted writes once, and the fence completes when every covered write is
visible. While the host is away it is held (R398). -/
def execHostFence (dt id : Nat) (s : State) : Host.Outcome State Fault Refusal :=
  let s := s.tick dt
  match s.control? id 0x04 with
  | none => .next s
  | some c =>
    if !s.attached then .next s
    else if s.coveredWrites c = [] then .next (s.complete c)
    else if c.armed then .next s
    else .next ((s.flushWindows c).setCmd { c with armed := true })

/-! ### The BAR (R312, R313, R326, R380, R381) -/

/-- The state and error of a queue, as QCTL_STATE and QUEUE_STATUS show them (R312, R313). -/
def Queue.status (v : Queue) : Nat := v.state.code + v.error % 65536 * 65536

/-- A read of the queue control block (R312). -/
def State.readQueueBlock (s : State) (o : Nat) : Nat :=
  let v := s.queue (o / 64)
  match o % 64 with
  | 0 => v.ring
  | 8 => v.config
  | 0x10 => v.status
  | _ => 0

/-- A read of the translation block (R288). -/
def State.readTranslationBlock (s : State) (o : Nat) : Nat :=
  match o with
  | 0x00 => (if s.xlat.overrun then 0x10000 else 0) + min 15 s.regPending * 0x20000
  | 0x08 => s.xlat.done
  | 0x40 => s.xlat.migSrc
  | 0x48 => s.xlat.migDst
  | 0x50 => s.xlat.migCtl
  | 0x58 => s.xlat.migState + s.xlat.migReason * 256
  | _ => 0

/-- A read of the host block (R381). -/
def State.readHostBlock (s : State) (o : Nat) : Nat :=
  if o = 8 then s.num hostStateKey + (if s.ideReady then 4 else 0) + s.host.refusal * 256 + s.host.discards.length * 65536
  else if o = 0x10 then s.host.vec
  else if 0x100 ≤ o ∧ o < 0x180 ∧ o % 16 = 0 then Map.get 0 s.host.p2pBase ((o - 0x100) / 16)
  else if 0x100 ≤ o ∧ o < 0x180 ∧ o % 16 = 8 then Map.get 0 s.host.p2pSize ((o - 0x100) / 16)
  else 0

/-- A read of a queue's doorbell page (R313). -/
def State.readDoorbell (s : State) (q o : Nat) : Nat :=
  match o with
  | 0 => (s.queue q).tail
  | 8 => (s.queue q).head
  | 0x10 => (s.queue q).status
  | _ => 0

/-- The pending-bit array by 64-bit word: the vectors held (R396). -/
def State.pendingBits (s : State) (w : Nat) : Nat :=
  (List.range 64).foldl (fun n b => n + (if s.host.held.any (fun h => h.vector = 64 * w + b) then 2 ^ b else 0)) 0

/-- What a read of the 8 bytes at an aligned offset of BAR0 returns (R312, R313, R326, R380, R381, R391): none in the CXL component and
device registers, whose contents the manual does not give, and outside the BAR. No command carries a read of a register: it has
no effect. -/
def State.readRegister (s : State) (offset : Nat) : Option Nat :=
  if offset < 0x20000 ∨ 0x800000 ≤ offset then none
  else if offset < 0x30000 then some (s.readQueueBlock (offset - 0x20000))
  else if offset < 0x31000 then some (s.readTranslationBlock (offset - 0x30000))
  else if offset < 0x32000 then some (s.readHostBlock (offset - 0x31000))
  else if offset < 0x40000 then some 0
  else if offset < 0x48000 then some (leNat ((List.range 8).map (fun i => s.msixByte (offset - 0x40000 + i))))
  else if offset < 0x48100 then some (s.pendingBits ((offset - 0x48000) / 8))
  else if offset < 0x50000 then some 0
  else if offset < 0x58000 then some (s.fence ((offset - 0x50000) / 8))
  else if offset < 0x400000 then some 0
  else some (s.readDoorbell ((offset - 0x400000) / 0x1000) (offset % 0x1000))

/-- A whole 64-bit write to a queue's control registers (R312). -/
def State.writeQueueBlock (s : State) (o value : Nat) : State :=
  let q := o / 64
  let v := s.queue q
  match o % 64 with
  | 0 => if v.state = .disabled then s.setQueue q { v with ring := ringMask value } else s
  | 8 => if bit value 0 then s.enableQueue q value else s.clearEnable q value
  | _ => s

/-- A whole 64-bit write to the translation block (R288). -/
def State.writeTranslationBlock (s : State) (o value : Nat) : State :=
  match o with
  | 0x00 => if bit value 16 then { s with xlat := { s.xlat with overrun := false } } else s.writeInval value
  | 0x40 => { s with xlat := { s.xlat with migSrc := bits value 51 21 * 0x200000 } }
  | 0x48 => { s with xlat := { s.xlat with migDst := bits value 51 21 * 0x200000 } }
  | 0x50 => s.writeMigCtl value
  | 0x60 => s.resume (bits value 5 0)
  | _ => s

/-- A whole 64-bit write to the host block (R381). -/
def State.writeHostBlock (s : State) (o value : Nat) : State :=
  if o = 0 then
    let s := if bit value 1 then s.clearLog else s
    if bit value 0 then s.writeAttach else s
  else if o = 0x10 then { s with host := { s.host with vec := value &&& 0xFFF0FFF } }
  else if 0x100 ≤ o ∧ o < 0x180 then
    let n := (o - 0x100) / 16
    if o % 16 = 0 then
      { s with host := { s.host with p2pBase := Map.set 0 s.host.p2pBase n (value &&& 0xFFFFFFFE00003) } }
    else if o % 16 = 8 then
      { s with host := { s.host with p2pSize := Map.set 0 s.host.p2pSize n (bits value 31 0) } }
    else s
  else s

/-- REGISTER_WRITE (R312, R313, R326, R380, R381): a write of `width` bytes at a BAR offset, by the host or a peer (R391). Only
whole 64-bit writes reach the registers of the device's own blocks; an offset not listed ignores it. -/
def execRegisterWrite (dt offset value width : Nat) (s : State) : Host.Outcome State Fault Refusal :=
  let s := s.tick dt
  let whole := width = 8 ∧ offset % 8 = 0
  if 0x800000 ≤ offset then .fault .outsideBar
  else if offset < 0x20000 then .refused .cxlStandardRegister
  else if offset < 0x30000 then .next (if whole then s.writeQueueBlock (offset - 0x20000) value else s)
  else if offset < 0x31000 then .next (if whole then s.writeTranslationBlock (offset - 0x30000) value else s)
  else if offset < 0x32000 then .next (if whole then s.writeHostBlock (offset - 0x31000) value else s)
  else if offset < 0x40000 then .next s
  else if offset < 0x48000 then
    .next ((List.range (min width 8)).foldl (fun (s : State) i =>
      if offset - 0x40000 + i < 0x8000 then s.setMsixByte (offset - 0x40000 + i) (BitVec.ofNat 8 (value / 256 ^ i)) else s) s)
  else if offset < 0x50000 then .next s
  else if offset < 0x58000 then .next (if whole then s.signal ((offset - 0x50000) / 8) value else s)
  else if offset < 0x400000 then .next s
  else
    let q := (offset - 0x400000) / 0x1000
    if whole ∧ offset % 0x1000 = 0 then .next (s.doorbell q (bits value 47 0)) else .next (s.bump (queueKey q 5) 1)

end Sys2Proof.Machine
end

