-- ==== Sys2Proof/Machine/Integrity.lean ====
section
/-! DEFINITION. The recorder and the firmware log, replica digests, verified launches, and in-field tests (R410 to R432). -/
namespace Sys2Proof.Machine

/-! ### Fault records (R410 to R415) -/

/-- The report taken next: the oldest, ties going to the lower unit (R412). -/
def reportBefore (a b : Report) : Bool := a.first < b.first || (a.first = b.first && a.unit.code < b.unit.code)
def nextReport : List Report → Option Report
  | [] => none
  | r :: l => some (l.foldl (fun m x => if reportBefore x m then x else m) r)

/-- A record that the tenancy fault queue cannot take (R410, R413): counted and stamped, copied to the firmware log with sequence
0, and a resolvable translation fault becomes unresolvable. -/
def State.loseRecord (s : State) (r : Report) : State :=
  let unheld := Map.get 0 s.integ.unheld r.unit.code
  let s := if s.num (objKey 0x4000 6) = 0 then s.setNum (objKey 0x4000 8) r.first else s
  let s := ((s.bump (objKey 0x4000 6) 1).bump (objKey 0x4000 7) r.count).setNum (objKey 0x4000 9) r.last
  let s := if logCopies r then s.firmwareLog (faultRecord r unheld s.integ.lostBefore 0) else s
  let s : State := { s with integ := { s.integ with lostBefore := min (s.integ.lostBefore + 1) 0xFFFFFFFF } }
  if r.code = 0x2001 then s.xlatFault { r with count := 1, first := s.now, last := s.now } r.tag r.address 6 else s

/-- A record written to the tenancy fault queue under sequence n: counted, the interrupt raised, and a copy made (R412 to R415). -/
def State.recordWritten (s : State) (r : Report) (n : Nat) (b : Bytes) : State :=
  let s := (s.setNum (objKey 0x4000 2) n).bump (objKey 0x4000 0x0A) (r.count - 1)
  let s : State := { s with integ := { s.integ with lostBefore := 0, unheld := Map.set 0 s.integ.unheld r.unit.code 0 } }
  let s := if logCopies r then s.firmwareLog b else s
  if s.flag (objKey 0x4000 5) then s.raise (s.num (objKey 0x4000 4)) else s

/-- RECORDER_START (R412 to R415): at least 100 ns after the last record, the recorder takes the oldest pending report. Without a
tenancy it goes to the firmware log alone. -/
def execRecorderStart (dt : Nat) (s : State) : Host.Outcome State Fault Refusal :=
  let s := s.tick dt
  match nextReport s.integ.reports with
  | none => .next s
  | some r =>
    if s.integ.lastRecord.any (fun t => s.now < t + 100) then .next s
    else
      let s : State := { s with integ := { s.integ with reports := s.integ.reports.erase r, lastRecord := some s.now } }
      let unheld := Map.get 0 s.integ.unheld r.unit.code
      if s.tenancy = 0 then .next (s.firmwareLog (faultRecord r unheld s.integ.lostBefore 0))
      else if !s.faultQueueRoom then .next (s.loseRecord r)
      else
        let n := s.num (objKey 0x4000 2) + 1
        let b := faultRecord r unheld s.integ.lostBefore n
        match s.write ⟨.c2, some 64⟩ (s.num (objKey 0x4000 1) + (n - 1) % 4096 * 64) b with
        | (.ok _, s) => .next (s.recordWritten r n b)
        | (.bad _, s) => .next (s.loseRecord r)

/-! ### Replica digests (R417 to R419) -/

def groupKey (g sub : Nat) : Nat := objKey (0x4050 + g) sub

def State.group (s : State) (g : Nat) : DigestGroup := Map.get DigestGroup.init s.integ.groups g
def State.setGroup (s : State) (g : Nat) (v : DigestGroup) : State :=
  { s with integ := { s.integ with groups := Map.set DigestGroup.init s.integ.groups g v } }

/-- Position and chip id of every configured member. -/
def State.groupMembers (s : State) (g : Nat) : List (Nat × Nat) :=
  ((List.range 8).map (fun i => (i, fieldLe (s.blob (groupKey g 2)) (2 * i) 2))).filter (fun x => x.2 ≠ 0xFFFF)

/-- This package's position in the member list. -/
def State.ownMember (s : State) (g : Nat) : Option Nat := ((s.groupMembers g).find? (fun x => x.2 = s.chip)).map (·.1)

/-- The dense regions: position, local offset, length. -/
def State.regions (s : State) (g : Nat) : List (Nat × Nat × Nat) :=
  let b := s.blob (groupKey g 4)
  ((List.range 8).map (fun i => (i, fieldLe b (16 * i) 8, fieldLe b (16 * i + 8) 8))).filter (fun x => x.2.2 ≠ 0)

/-- The sum of a region: the hashes of its 64 KiB chunks. A chunk whose read meets a bus error is recorded (R261), and its bytes
are undefined. -/
def State.regionSum (s : State) (region base : Nat) (length : Nat) : Nat × State :=
  (List.range (ceilDiv length 65536)).foldl (fun (x : Nat × State) j =>
    let a := base + 65536 * j
    let n := min 65536 (length - 65536 * j)
    let hash (d : Bytes) : Nat := leNat (sha512t256 (natLe 1 region ++ natLe 4 j ++ d))
    match x.2.read ⟨.c2, some 64⟩ a n with
    | (.ok d, s) => ((x.1 + hash d) % 2 ^ 256, s)
    | (.bad e, s) =>
      let u : UnitId := if isStacked a then ⟨.memory, s.stackOf a⟩ else ⟨.digest, 0⟩
      let (d, s) := (s.report { s.newReport u e 0 0xF0 with physical := a }).drawBytes n
      ((x.1 + hash d) % 2 ^ 256, s)) (0, s)

/-- Send this package's message to every other member that is not expelled (R419): D, m, chip id and index. The digest area of
every member is taken to lie where this one's does (notes/assumptions/43.md). -/
def State.sendDigests (s : State) (g m : Nat) (d : Bytes) : State :=
  match s.ownMember g with
  | none => s
  | some own =>
    let msg := d ++ natLe 8 m ++ natLe 2 s.chip ++ natLe 1 own ++ natLe 21 0
    ((s.groupMembers g).filter (fun x => x.2 ≠ s.chip && !(s.group g).expelled.contains x.1)).foldl (fun (s : State) x =>
      if s.routeDown x.2 then s.digestRemote 0 18 g 0x4004 3
      else s.sendRemote 0 18 g true x.2 (s.num (groupKey g 5) + 64 * own) 64 64 msg) s

/-- The value that more than half of `n` configured members hold, if one does. -/
def majority (n : Nat) (held : List (Nat × Bytes)) : Option Bytes :=
  (held.map (·.2)).find? (fun d => n < 2 * (held.filter (fun x => x.2 = d)).length)

def State.digestReport (s : State) (code detail : Nat) : State :=
  s.report { s.newReport ⟨.digest, 0⟩ code 0 0xF0 with detail := detail }

/-- Compare the digests of one boundary (R419): missing members are recorded; a strict majority of three or more expels who
differs, and any other mismatch is recorded as unresolved. -/
def State.compareDigests (s : State) (g m : Nat) (own : Bytes) : State :=
  let v := s.group g
  let all := s.groupMembers g
  let live := all.filter (fun x => !v.expelled.contains x.1)
  let held := live.filterMap (fun x =>
    if x.2 = s.chip then some (x.1, own)
    else ((v.messages.find? (fun y => y.1 = x.1 && y.2.1 = m)).map (fun y => (x.1, y.2.2))))
  let missing := live.filter (fun x => !(held.any (fun y => y.1 = x.1)))
  let s := missing.foldl (fun (s : State) x => s.digestReport 0x7003 x.2) s
  let s := s.setNum (groupKey g 9) m
  let v : DigestGroup := { v with due := v.due.filter (fun x => x.1 ≠ m), messages := v.messages.filter (fun y => m < y.2.1) }
  let agree := held.all (fun x => x.2 = own)
  match (if 3 ≤ all.length then majority all.length held else none) with
  | some d =>
    let out := held.filter (fun x => x.2 ≠ d)
    let s := out.foldl (fun (s : State) x => s.digestReport 0x7001 (((all.find? (fun y => y.1 = x.1)).map (·.2)).getD 0)) s
    let gone := out.any (fun x => some x.1 = s.ownMember g)
    let s := s.setGroup g { v with expelled := v.expelled ++ out.map (·.1), active := v.active && !gone, due := if gone then [] else v.due }
    if gone then s.setNum (groupKey g 8) 2 else s
  | none =>
    let s := s.setGroup g v
    if agree then s else s.digestReport 0x7002 0

/-- Compare what is due once every live member's message is held, or, `late`, once the digest timeout has passed. -/
def State.compareDue (s : State) (g : Nat) (late : Bool) : State :=
  let v := s.group g
  match v.due with
  | [] => s
  | (m, t, d) :: _ =>
    let live := (s.groupMembers g).filter (fun x => !v.expelled.contains x.1 && x.2 ≠ s.chip)
    let full := live.all (fun x => v.messages.any (fun y => y.1 = x.1 && y.2.1 = m))
    if full || (late && t + s.num (objKey 0x4004 1) * 1000000 ≤ s.now) then s.compareDigests g m d else s

/-- DIGEST_REGION_READ (R418, R419): the regions of a group whose boundary's apply phase has ended have been read; D is formed, the
digest fence signals, and the messages go out. -/
def execDigestRegionRead (dt g : Nat) (s : State) : Host.Outcome State Fault Refusal :=
  let s := s.tick dt
  let v := s.group g
  if 8 ≤ g || !v.active || !v.regionsPending then .next s
  else
    let sums := v.sums ++ List.replicate (24 - v.sums.length) 0
    let tables := (List.range 16).filter (fun i => fieldLe (s.blob (groupKey g 3)) (2 * i) 2 ≠ 0xFFFF)
    let (r, s) := (s.regions g).foldl (fun (x : Bytes × State) y =>
      let (n, s) := x.2.regionSum y.1 y.2.1 y.2.2
      (x.1 ++ natLe 32 n, s)) ([], s)
    let d := sha512t256 (natLe 8 v.epoch ++ tables.flatMap (fun i => natLe 32 (sums.getD i 0)) ++ r)
    let s := s.setBlob (groupKey g 0x0A) d
    let f := s.num (groupKey g 7)
    let s := if f = 0xFFFF then s else s.signal f v.epoch
    let s := s.setGroup g { v with regionsPending := false, sums := [], due := v.due ++ [(v.epoch, s.now, d)] }
    .next ((s.sendDigests g v.epoch d).compareDue g false)

/-- DIGEST_MESSAGE_RECEIVE (R419): the message in a slot of the digest area is taken, and compared when it is the last one due. -/
def execDigestMessageReceive (dt g index : Nat) (s : State) : Host.Outcome State Fault Refusal :=
  let s := s.tick dt
  let v := s.group g
  if 8 ≤ g || !v.active || !((s.groupMembers g).any (fun x => x.1 = index && x.2 ≠ s.chip)) || v.expelled.contains index then .next s
  else
    match s.read ⟨.c2, some 64⟩ (s.num (groupKey g 5) + 64 * index) 64 with
    | (.bad e, s) => .next (s.outsideError e (s.num (groupKey g 5) + 64 * index))
    | (.ok b, s) =>
      let m := fieldLe b 32 8
      if fieldLe b 42 1 ≠ index || !((s.groupMembers g).contains (index, fieldLe b 40 2)) || m ≤ s.num (groupKey g 9) ||
          v.messages.any (fun y => y.1 = index && y.2.1 = m) then .next s
      else .next ((s.setGroup g { v with messages := v.messages ++ [(index, m, sub b 0 32)] }).compareDue g false)

/-- DIGEST_TIMEOUT (R419): the digest timeout has passed since D was formed, and the comparison is made without who is missing. -/
def execDigestTimeout (dt g : Nat) (s : State) : Host.Outcome State Fault Refusal :=
  let s := s.tick dt
  if 8 ≤ g then .next s else .next (s.compareDue g true)

/-! ### Verified launches (R420 to R422) -/

def State.pair (s : State) (p : Nat) : VerifyPair := Map.get VerifyPair.init s.integ.pairs p
def State.setPair (s : State) (p : Nat) (v : VerifyPair) : State :=
  { s with integ := { s.integ with pairs := Map.set VerifyPair.init s.integ.pairs p v } }

/-- A pair is enabled and has not stopped. -/
def State.pairLive (s : State) (p : Nat) : Bool := s.flag (pairKey p 1) && s.num (pairKey p 8) = 1
def State.isReplay (s : State) (p : Nat) : Bool := bit (s.num (pairKey p 2)) 8
def State.peerChip (s : State) (p : Nat) : Nat := bits (s.num (pairKey p 4)) 11 0
def State.peerPair (s : State) (p : Nat) : Nat := bits (s.num (pairKey p 4)) 19 16

/-- Read virtual bytes of a job for a digest engine (R421): each page is walked, without a TLB; none when a page is unreadable or a
read meets a bus error, which is recorded. -/
def State.verifyPages (s : State) (j : Nat) : List (Nat × Nat) → Option Bytes × State
  | [] => (some [], s)
  | (va, n) :: rest =>
    if 0x1000000000000 ≤ va then (none, s)
    else
      match (s.bump (objKey (0x6600 + j) 2) 1).walk .c1 j va with
      | (.leaf size (.here t) _, s) =>
        let a := t + va % 2 ^ size
        if reservedOffset a then (none, s)
        else
          match s.read ⟨.c1, some 64⟩ a n with
          | (.bad e, s) => (none, s.outsideError e a)
          | (.ok d, s) =>
            match s.verifyPages j rest with
            | (some d', s) => (some (d ++ d'), s)
            | (none, s) => (none, s)
      | (_, s) => (none, s)

/-- The pieces of a range, page by page. -/
def pagePieces (va n : Nat) : List (Nat × Nat) :=
  (pagesOf va n).map (fun p => (p, min (va + n) ((p / 0x200000 + 1) * 0x200000) - p))

/-- V of one launch: the hash of its sequence and the bytes of its ranges (R421). The list has 16 entries; one of length 0
contributes nothing (notes/assumptions/44.md). -/
def State.verifyValue (s : State) (p seq : Nat) : Option Bytes × State :=
  let j := s.pairJob p
  match s.verifyPages j (pagePieces (s.num (pairKey p 5)) 256) with
  | (none, s) => (none, s)
  | (some l, s) =>
    match s.verifyPages j ((List.range 16).flatMap (fun i => pagePieces (fieldLe l (16 * i) 8) (fieldLe l (16 * i + 8) 8))) with
    | (none, s) => (none, s)
    | (some d, s) => (some (sha512t256 (natLe 8 seq ++ d)), s)

/-- A pair stops with a record (R422). -/
def State.stopPair (s : State) (p code detail : Nat) (d : SideDigest) : State :=
  let s := (s.setNum (pairKey p 8) 2).setPair p VerifyPair.init
  s.report { s.newReport ⟨.digest, d.clusters.headD 0⟩ code 0 (s.pairJob p) with
    queue := s.num (pairKey p 3), detail := detail }

/-- Compare a primary's launches in sequence order while both values are there (R422); `fuel` bounds the launches. -/
def State.comparePair (p : Nat) : Nat → State → State
  | 0, s => s
  | fuel + 1, s =>
    let v := s.pair p
    match v.own with
    | [] => s
    | a :: own =>
      match v.peer.find? (fun b => b.seq = a.seq) with
      | none => s
      | some b =>
        let near := s.peerChip p = s.chip
        if !a.readable || !b.readable then s.stopPair p 0x7004 1 a
        else if a.value ≠ b.value then s.stopPair p 0x7004 0 a
        else if near && a.clusters.any (fun c => b.clusters.contains c) then s.stopPair p 0x7006 0 a
        else
          let s := (s.setPair p { v with own := own, peer := v.peer.filter (fun x => x.seq ≠ a.seq) }).signal (s.num (pairKey p 6)) a.seq
          State.comparePair p fuel (s.setNum (pairKey p 9) a.seq)

/-- Give the primary of a pair a replay's value. -/
def State.givePeer (s : State) (p : Nat) (d : SideDigest) : State :=
  let v := s.pair p
  if v.peer.any (fun x => x.seq = d.seq) then s
  else
    let s := s.setPair p { v with peer := v.peer ++ [d] }
    State.comparePair p ((s.pair p).own.length) s

/-- A replay's value for a remote primary: V, the sequence, and whether it was formed (notes/assumptions/44.md). -/
def verifyMessage (d : SideDigest) : Bytes := sub d.value 0 32 ++ natLe 8 d.seq ++ natLe 1 (if d.readable then 1 else 0) ++ natLe 23 0

/-- VERIFY_DIGEST (R421, R422): a side forms V of its oldest completed launch; a primary keeps it and compares, a replay passes it
on. -/
def execVerifyDigest (dt p : Nat) (s : State) : Host.Outcome State Fault Refusal :=
  let s := s.tick dt
  match (s.pair p).due with
  | [] => .next s
  | (seq, clusters) :: due =>
    if 16 ≤ p || !s.pairLive p then .next s
    else
      let (r, s) := s.verifyValue p seq
      let s := s.setPair p { s.pair p with due := due }
      let d : SideDigest := ⟨seq, r.getD [], r.isSome, clusters, s.now⟩
      if !s.isReplay p then
        let s := s.setPair p { s.pair p with own := (s.pair p).own ++ [d] }
        .next (State.comparePair p ((s.pair p).own.length) s)
      else if s.peerChip p = s.chip then
        .next (if s.pairLive (s.peerPair p) && !s.isReplay (s.peerPair p) then s.givePeer (s.peerPair p) d else s)
      else if s.routeDown (s.peerChip p) then .next (s.digestRemote (clusters.headD 0) 19 p 0x4004 3)
      else .next (s.sendRemote (clusters.headD 0) 19 p true (s.peerChip p) (s.num (pairKey p 7) + 64 * (seq % 64)) 64 64 (verifyMessage d))

/-- VERIFY_VALUE_RECEIVE (R421, R422): the primary of a remote pair takes the value of launch `seq` from its verify area. -/
def execVerifyValueReceive (dt p seq : Nat) (s : State) : Host.Outcome State Fault Refusal :=
  let s := s.tick dt
  if 16 ≤ p || !s.pairLive p || s.isReplay p || s.peerChip p = s.chip then .next s
  else
    let a := s.num (pairKey p 7) + 64 * (seq % 64)
    match s.read ⟨.c1, some 64⟩ a 64 with
    | (.bad e, s) => .next (s.outsideError e a)
    | (.ok b, s) =>
      if fieldLe b 32 8 ≠ seq || seq ≤ s.num (pairKey p 9) then .next s
      else .next (s.givePeer p ⟨seq, sub b 0 32, bit (fieldLe b 40 1) 0, [], s.now⟩)

/-- VERIFY_TIMEOUT (R422): the replay's value of the primary's oldest launch has not come in time. -/
def execVerifyTimeout (dt p : Nat) (s : State) : Host.Outcome State Fault Refusal :=
  let s := s.tick dt
  match (s.pair p).own with
  | [] => .next s
  | a :: _ =>
    if !s.pairLive p || s.isReplay p || (s.pair p).peer.any (fun x => x.seq = a.seq) ||
        s.now < a.at_ + s.num (objKey 0x4004 2) * 1000000 then .next s
    else .next (s.stopPair p 0x7005 0 a)

/-! ### In-field tests (R423 to R430) -/

/-- The last-test object of a unit (R432). -/
def lastTestKey (code : Nat) : Nat :=
  if code < 0x100 then objKey (0x4110 + code / 8) (1 + code % 8)
  else if code < 0x140 then objKey (0x4110 + (code - 0x100) / 2) (9 + (code - 0x100) % 2)
  else objKey (0x4110 + (code - 0x140)) 0x0B

/-- A unit is to be tested: it starts no further command (R429). A fenced unit is excluded (R426). -/
def State.declare (s : State) (code : Nat) : State :=
  if s.testFenced code then s
  else ({ s with integ := { s.integ with windows := insertAsc code s.integ.windows } } : State).setPaused code true

/-- The window action (R429). -/
def State.declareWindow (s : State) (arg : Nat) : Nat × State :=
  if arg = 0x200 then (0, ((List.range 0x160).foldl State.declare s).setNum (objKey 0x4101 0) 2)
  else if testCodeOk arg then (0, (s.declare arg).setNum (objKey 0x4101 0) 2)
  else (7, s)

/-- TEST_DEFERRAL_EXPIRE (R429): a unit whose last test is older than the maximum deferral is forced. -/
def execTestDeferralExpire (dt code : Nat) (s : State) : Host.Outcome State Fault Refusal :=
  let s := s.tick dt
  if !testCodeOk code || s.testFenced code || s.integ.windows.contains code ||
      s.now < s.num (lastTestKey code) + s.num (objKey 0x4100 1) * 3600000000000 then .next s
  else .next ((s.declare code).bump (objKey 0x4100 3) 1)

/-- The unit holds nothing in flight; a row-merge unit has finished its apply phase (R429). -/
def State.testReady (s : State) (code : Nat) : Bool :=
  (testEngines code).all (fun u => !s.cmds.any (fun c => c.unit = some u && c.inFlight)) &&
  (code < 0x140 || s.update.parts.all (fun p => p.unit ≠ code - 0x140 || p.ended))

/-- IFT_START (R427, R429): the test of a paused unit begins: the lowest code of its cluster, one at a time. A core's weight banks
are invalidated. -/
def execIftStart (dt code : Nat) (s : State) : Host.Outcome State Fault Refusal :=
  let s := s.tick dt
  if !s.integ.windows.contains code || s.integ.testing.contains code || !s.testReady code ||
      s.integ.testing.any (fun d => testCluster d = testCluster code) ||
      s.integ.windows.any (fun d => d < code && testCluster d = testCluster code) then .next s
  else
    let s : State := { s with
      integ := { s.integ with testing := insertAsc code s.integ.testing }
      arith := { s.arith with
        banks := if code < 0x100 then s.arith.banks.map (fun (e : Nat × Bank) =>
          if e.1 / 2 = code then (e.1, { e.2 with valid := false }) else e) else s.arith.banks } }
    .next s

/-- The test of a unit is over: it may start commands again unless it is fenced. -/
def State.endTest (s : State) (code : Nat) : State :=
  ({ s with integ := { s.integ with
      windows := s.integ.windows.filter (· ≠ code)
      testing := s.integ.testing.filter (· ≠ code)
      suspects := s.integ.suspects.filter (· ≠ code) } } : State).setPaused code false

/-- The ceiling steps of a core (R424). -/
def State.ceilingSteps (s : State) (core : Nat) : Nat := bits (s.num (suspectKey ⟨.core, core⟩)) 4 2

/-- Give the next margin after a failed run: +15 mV up to +45, then, for a core, 105 MHz less down to 1,680; none is left after
that. -/
def State.nextMargin (s : State) (code : Nat) : Option State :=
  let cl := testCluster code
  if s.voltageOffset cl < 45 then
    let s := (s.setNum (objKey (0x4030 + cl) 1) (s.voltageOffset cl + 15)).durable s
    some (s.setNum (voltageKey cl) (s.calledVoltage cl))
  else if code < 0x100 ∧ s.ceilingSteps code < 4 then
    let k := suspectKey ⟨.core, code⟩
    some (((s.setNum k (s.num k + 4)).durable s).requestClock code)
  else none

/-- A search for margin (R424): `runs` are the outcomes of its test runs in order, a run not listed failing. Answers whether a
setting passed, and how many runs failed. -/
def State.search (code : Nat) : Nat → List Bool → State → Bool × Nat × State
  | 0, _, s => (false, 0, s)
  | fuel + 1, runs, s =>
    if runs.headD false then (true, 0, s.bump (objKey 0x4100 2) 1)
    else
      let s := s.bump (objKey 0x4100 2) 1
      match s.nextMargin code with
      | none => (false, 1, s)
      | some s =>
        let (ok, n, s) := State.search code fuel (runs.drop 1) s
        (ok, n + 1, s)

/-- A passed test stamps the unit (R428). -/
def State.testPassed (s : State) (code : Nat) : State := (s.setNum (lastTestKey code) s.now).endTest code

/-- The end of a search: the setting that passed is kept and recorded; with none, the unit is fenced, or the package needs service
(R424, R425). -/
def State.searchDone (s : State) (code : Nat) (runs : List Bool) : State :=
  let (ok, n, s) := State.search code 8 runs s
  let s := s.bump (objKey 0x4100 4) n
  if ok then
    let ceiling := if code < 0x100 then s.ceiling code else 2100
    (s.report { s.newReport (testUnit code) 0x3006 0 0xF0 with
      detail := s.voltageOffset (testCluster code) + 0x10000 * ceiling }).testPassed code
  else (s.exhausted code).endTest code

/-- IFT_COMPLETE (R423 to R428): the test of a unit ends. A pass stamps it; a failure is recorded (0x3007) and makes it suspect, and
a suspect unit's test is a search for margin. `runs` are the outcomes, in order. -/
def execIftComplete (dt code : Nat) (runs : List Bool) (s : State) : Host.Outcome State Fault Refusal :=
  let s := s.tick dt
  if !s.integ.testing.contains code then .next s
  else if s.integ.suspects.contains code then .next (s.searchDone code runs)
  else if runs.headD false then .next ((s.bump (objKey 0x4100 2) 1).testPassed code)
  else
    let s := ((s.bump (objKey 0x4100 2) 1).bump (objKey 0x4100 4) 1).endTest code
    .next ((s.report (s.newReport (testUnit code) 0x3007 0 0xF0)).makeSuspect code)

/-- The clear action (R426): every count, offset, ceiling and fenced mark. Refused while a tenancy exists. -/
def State.clearSuspicion (s : State) (arg : Nat) : Nat × State :=
  if arg ≠ 0 then (6, s)
  else if s.tenancy ≠ 0 then (8, s)
  else
    let s := ((s.clearNums (objKey 0x4010 1) (objKey 0x402F 0x0A)).clearNums (objKey 0x4030 1) (objKey 0x404F 2)).durable s
    let s := (List.range 256).foldl State.requestClock s
    let s := (List.range 32).foldl (fun (s : State) cl => s.setNum (voltageKey cl) (s.calledVoltage cl)) s
    (0, s.setNum (objKey 0x4005 2) 2)

end Sys2Proof.Machine
end

