-- ==== Sys2Proof/Machine/Startup.lean ====
section
/-! DEFINITION. Supplies, the start-up sequence, its stop and fallback, and restarts (R451 to R458, R462, R466 to R468). -/
namespace Sys2Proof.Machine

/-! ### Cold start (R452, R454) -/

/-- What a cold start leaves of the package: the fuses, the NOR (image slots, boot control, persistent objects and their other
copy, retirement lists), and, while VMGT stays valid, the firmware log and the working settings of the management port. Every
other object and register takes its default. -/
def State.coldStart (s : State) : State :=
  let r := State.reset
  { r with
    dict := { nums := s.dict.nums.keep persistentKey, blobs := s.dict.blobs.keep persistentKey,
              older := s.dict.older, olderBlobs := s.dict.olderBlobs }
    net := { r.net with
      nextSession := s.net.nextSession, draws := s.net.draws, plca := s.net.plca, newestCopy := s.net.newestCopy }
    mem := { r.mem with
      retired := s.mem.retired, pendingPages := s.mem.pendingPages, olderRetired := s.mem.olderRetired
      olderPending := s.mem.olderPending, newestLists := s.mem.newestLists }
    integ := { r.integ with log := s.integ.log }
    host := { r.host with perst := s.host.perst }
    pins := s.pins
    startup := s.startup
    free := s.free
    out := s.out
    pending := s.pending }

def stopCodeKey : Nat := objKey 0x12A0 2

/-- Begin a start-up with its cause: time base 0, FAULT_N released, sessions closed (R451, R454, R457, R482). -/
def State.beginStartup (s : State) (cause : Nat) : State :=
  let s := s.coldStart
  let s : State := { s with
    pins := { s.pins with fault := false }
    startup := { s.startup with
      stage := .fuses, supply12 := true, supplyMgt := true, supplyIo := true, regulators := true, cause := cause, booted := none,
      trialRun := s.startup.trial, chainValid := false, measurements := [] } }
  s.setNum (objKey 0x12A0 4) cause

/-- SUPPLIES_VALID (R451): the three inputs have been within range for 1 ms together, and a cold start begins. A trip that its
12 V input has not ended yet stays (R449, notes/assumptions/47.md). -/
def execSuppliesValid (dt : Nat) (s : State) : Host.Outcome State Fault Refusal :=
  let s := s.tick dt
  if s.startup.stage ≠ .off || s.pins.thermTrip then .next s else .next (s.beginStartup 0)

/-! ### Stop and fallback (R456, R466, R468) -/

/-- A record written to the firmware log directly, outside the recorder's queue. -/
def State.logNow (s : State) (u : UnitId) (code effect detail : Nat) : State :=
  s.firmwareLog (faultRecord { s.newReport u code effect 0xFF with detail := detail } 0 0 0)

/-- Count a fallback (0x5000.03), durably. -/
def State.countFallback (s : State) : State := (s.bump (objKey 0x5000 3) 1).durable s

/-- A trial that failed (R468): the previous preference returns, and the package restarts with cause 2. -/
def State.endTrial (s : State) : State :=
  let s := s.writeBoot s.startup.previous false s.startup.previous
  let s : State := { s with startup := { s.startup with trialRun := false } }
  let s := (s.logNow ⟨.iod, 0⟩ 0x9001 0 2).countFallback.regulatorsOff
  let s := (s.setFlag (objKey 0x5000 2) false).setNum (objKey 0x5000 1) s.startup.preferred
  ({ s with startup := { s.startup with stage := .restarting, cause := 2 } } : State).setNum startupKey 0

/-- Start-up stops (R456, R482); a trial start-up falls back instead of staying stopped. -/
def State.stopStartup (s : State) (u : UnitId) (code : Nat) : State :=
  let s := (s.logNow u code 6 0).assertFault.regulatorsOff
  let s := (s.setNum startupKey 2).setNum stopCodeKey code
  if s.startup.trialRun then s.endTrial else s

/-- TRIAL_TIMEOUT (R468): a trial start-up has not reached usable 2,000 ms after supplies valid. -/
def execTrialTimeout (dt : Nat) (s : State) : Host.Outcome State Fault Refusal :=
  let s := s.tick dt
  if s.startup.trialRun && s.starting && 2000000000 ≤ s.now then .next s.endTrial else .next s

/-! ### The steps of R454 -/

/-- Move to the next step. -/
def State.toStage (s : State) (t : Stage) : State := { s with startup := { s.startup with stage := t } }

/-- The boot control: its newer copy when it is valid, else the other (R463); with neither, slot A is preferred and no trial runs
(notes/assumptions/137.md). -/
def State.loadBoot (s : State) (o : StageOutcome) : State :=
  let newest := if s.startup.newestBoot = 0 then o.boot0 else o.boot1
  let other := if s.startup.newestBoot = 0 then o.boot1 else o.boot0
  let b := s.startup.olderBoot
  let s : State :=
    if newest then s
    else if other then { s with startup := { s.startup with
      preferred := b.1, trial := b.2.1, previous := b.2.2, newestBoot := 1 - s.startup.newestBoot } }
    else { s with startup := { s.startup with preferred := 0, trial := false, previous := 0 } }
  { s with startup := { s.startup with trialRun := s.startup.trial } }

/-- The boot control and the fuses read, and the identity area checked (R454, R460, R462, R463). -/
def State.stageFuses (s : State) (o : StageOutcome) : State :=
  let s := s.loadBoot o
  let s := (s.setNum (objKey 0x5000 5) s.startup.minSecurity).setNum (objKey 0x5000 6) s.startup.revoked
  let s : State := { s with startup := { s.startup with chainValid := o.chain, measurements := [Config.romDigest] } }
  (if o.chain then s else s.logNow ⟨.iod, 0⟩ 0x9001 0 1).toStage .ucie

/-- The 32 connected modules trained (R20, R454). When one fails, whether the training of the others has ended is not said, and they
keep the no-reading value 4: the model's choice (notes/assumptions/103.md). -/
def State.stageUcie (s : State) (o : StageOutcome) : State :=
  if o.passed then
    ((List.range 34).foldl (fun (s : State) m => if moduleExists m then s.setNum (moduleKey m) 1 else s) s).toStage .cxlPhy
  else
    let s := if moduleExists o.unit then s.setNum (moduleKey o.unit) 3 else s
    s.stopStartup ⟨.ucie, o.unit⟩ 0x4002

/-- Boot a verified slot (R462, R466): the identity of its image is read from its manifest. -/
def State.bootSlot (s : State) (b : Nat) : State :=
  let v := s.imageSlot b
  let m := v.manifest
  let ident := natLe 4 (fieldLe m 8 4) ++ natLe 2 (fieldLe m 12 2) ++ natLe 1 b ++ natLe 2 s.startup.minSecurity ++
    natLe 1 s.startup.revoked
  let s : State := { s with startup := { s.startup with
    booted := some b, measurements := s.startup.measurements ++ [sha512 m, ident] } }
  (((s.setNum (objKey 0x1001 1) b).setNum (objKey 0x5000 4) (fieldLe m 12 2)).toStage .firmware)

/-- The preferred slot verified (R454, R465, R466). -/
def State.stageSlot (s : State) : State :=
  if s.slotValid s.startup.preferred then s.bootSlot s.startup.preferred
  else ((s.logNow ⟨.iod, 0⟩ 0x9001 0 0).countFallback).toStage .otherSlot

/-- The other slot verified (R454, R466). -/
def State.stageOtherSlot (s : State) : State :=
  if s.slotValid (1 - s.startup.preferred) then s.bootSlot (1 - s.startup.preferred) else s.stopStartup ⟨.iod, 0⟩ 0x9002

/-- The stored values that the running image takes: of the objects it defines, within the ranges it gives them; any other object takes
its default (R34). -/
def State.admitStored (s : State) : State :=
  let d := match s.startup.booted with
    | some b => (s.imageSlot b).definitions
    | none => []
  { s with dict := { s.dict with
      nums := s.dict.nums.filter (fun e => !persistentKey e.1 || (Config.imageDefines d e.1 && Config.imageAdmits d e.1 e.2))
      blobs := s.dict.blobs.filter (fun e => !persistentKey e.1 || (Config.imageDefines d e.1 && Config.imageAdmitsBytes d e.1 e.2)) } }

/-- Persistent objects take their stored values: of the newer copy when it is valid, else of the other, else their defaults
(R33), as far as the image takes them (R34). -/
def State.loadStore (s : State) (o : StageOutcome) : State :=
  let newest := if s.net.newestCopy = 0 then o.copy0 else o.copy1
  let other := if s.net.newestCopy = 0 then o.copy1 else o.copy0
  let volatile (k : Nat) : Bool := !persistentKey k
  let s : State :=
    if newest then s
    else if other then { s with
      dict := { s.dict with
        nums := s.dict.older.foldl (fun (m : Map Nat) e => Map.put m e.1 (some e.2)) (s.dict.nums.keep volatile)
        blobs := s.dict.olderBlobs.foldl (fun (m : Map Bytes) e => Map.put m e.1 (some e.2)) (s.dict.blobs.keep volatile) }
      net := { s.net with newestCopy := 1 - s.net.newestCopy } }
    else
      ({ s with dict := { nums := s.dict.nums.keep volatile, blobs := s.dict.blobs.keep volatile, older := [], olderBlobs := [] } } : State).logNow
        ⟨.iod, 0⟩ 0x1009 0 0
  s.admitStored.setNum (objKey 0x1011 2) ((if o.copy0 then 1 else 0) + (if o.copy1 then 2 else 0))

/-- The PLCA settings that the objects of 0x1081 give (R45). -/
def State.plcaObjects (s : State) : Plca :=
  { enable := s.flag (objKey 0x1081 1), node := s.num (objKey 0x1081 2), count := s.num (objKey 0x1081 3),
    timer := s.num (objKey 0x1081 4), burst := s.num (objKey 0x1081 5) }

/-- Verified firmware runs (R454): the store is loaded, and a standing service mark asserts FAULT_N again (R482). -/
def State.stageFirmware (s : State) (o : StageOutcome) : State :=
  let s := s.loadStore o
  let s : State := { s with net := { s.net with plca := s.plcaObjects, plcaPending := false, sessions := [] } }
  let s := (s.setNum (objKey 0x5000 1) s.startup.preferred).setFlag (objKey 0x5000 2) s.startup.trial
  (if s.flag (objKey 0x4005 1) then s.assertFault else s).toStage .checkers

/-- A checker fails its self-test at start-up (R431): recorded, and its core or lookup engine fenced. -/
def State.checkerBad (s : State) (u : UnitId) : State :=
  match checkerUnit u with
  | some v => (s.report (s.newReport u 0x3008 5 0xF0)).fence_ v
  | none => s

/-- Every checker self-tested (R431, R454). -/
def State.stageCheckers (s : State) (o : StageOutcome) : State :=
  let bad := o.failed.map unitOfCode
  let s := bad.foldl State.checkerBad s
  match bad.find? (fun u => (checkerUnit u).isNone) with
  | some u => s.stopStartup u 0x3008
  | none => s.toStage .stacks

/-- The stacks trained (R250, R454). -/
def State.stageStacks (s : State) (o : StageOutcome) : State :=
  if o.passed then s.toStage .retirement else s.stopStartup ⟨.memory, o.unit⟩ 0x100A

/-- The retirement lists: those of the newer copy when it is valid, else of the other (R33, R267), else empty
(notes/assumptions/48.md). -/
def State.loadLists (s : State) (o : StageOutcome) : State :=
  let newest := if s.mem.newestLists = 0 then o.lists0 else o.lists1
  let other := if s.mem.newestLists = 0 then o.lists1 else o.lists0
  if newest then s
  else if other then { s with mem := { s.mem with
    retired := s.mem.olderRetired, pendingPages := s.mem.olderPending, newestLists := 1 - s.mem.newestLists } }
  else
    ({ s with mem := { s.mem with retired := [], pendingPages := [], olderRetired := [], olderPending := [] } } : State).logNow
      ⟨.iod, 0⟩ 0x1009 0 0

/-- Retirement lists loaded, pending pages retired (R267, R454). -/
def State.stageRetirement (s : State) (o : StageOutcome) : State := (s.loadLists o).retirePending.toStage .zeroing

/-- Engines, Fennel, the governor and the scrubbers started; the shape, the clocks and voltages take effect, and the ports of
the torus begin to train (R352, R425, R426, R454). -/
def State.stageEngines (s : State) : State :=
  let shape := (s.num (objKey 0x3000 1), s.num (objKey 0x3000 2), s.num (objKey 0x3000 3), s.num (objKey 0x3000 4))
  let s : State := { s with
    fabric := { s.fabric with shape := shape, candidate := ownSerial }
    epochs := { s.epochs with syncOutBefore := s.flag (objKey 0x2101 8) } }
  let s := (List.range 6).foldl (fun (s : State) p => if s.portUsed p then s.setNum (portStateKey p) 1 else s) s
  let s := (List.range 256).foldl (fun (s : State) c => s.setNum (effectiveKey c) (s.wantedClock c)) s
  let s := (List.range 32).foldl (fun (s : State) c => s.setNum (voltageKey c) (s.calledVoltage c)) s
  s.uncapLimit.toStage .usable

/-- STARTUP_STAGE_COMPLETE (R454): the step in progress ends with what it found. -/
def execStartupStageComplete (dt : Nat) (o : StageOutcome) (s : State) : Host.Outcome State Fault Refusal :=
  let s := s.tick dt
  if !s.starting then .next s
  else
    match s.startup.stage with
    | .off => .next s
    | .fuses => .next (s.stageFuses o)
    | .ucie => .next (s.stageUcie o)
    | .cxlPhy => .next (({ s with host := { s.host with phy := true } } : State).toStage .slot)
    | .slot => .next s.stageSlot
    | .otherSlot => .next s.stageOtherSlot
    | .firmware => .next (s.stageFirmware o)
    | .checkers => .next (s.stageCheckers o)
    | .stacks => .next (s.stageStacks o)
    | .retirement => .next (s.stageRetirement o)
    | .zeroing => .next (s.zeroMemory.toStage .engines)
    | .engines => .next s.stageEngines
    | .usable => .next s
    | .restarting => .next s

/-- STARTUP_USABLE (R454, R468): every step is done. The dictionary is ready, the start is counted, and a trial slot is
confirmed. -/
def execStartupUsable (dt : Nat) (s : State) : Host.Outcome State Fault Refusal :=
  let s := s.tick dt
  if !s.starting || s.startup.stage ≠ .usable then .next s
  else
    let s := ((s.setNum startupKey 1).setNum (objKey 0x12A0 3) s.now)
    let s := (s.bump (objKey 0x1001 5) 1).durable s
    let s := if s.startup.trial then s.writeBoot s.startup.preferred false s.startup.previous else s
    let s : State := { s with startup := { s.startup with trialRun := false } }
    .next (s.setFlag (objKey 0x5000 2) false)

/-! ### Restart and loss of supplies (R453, R457, R483) -/

/-- The restart action (R457). The regulators go off after its reply and the next start-up begins when they are on again. -/
def State.restart (s : State) (arg : Nat) : Nat × State :=
  if 1 < arg then (6, s)
  else if s.tripped || (arg = 0 && s.tenancy ≠ 0) then (8, s)
  else
    let s := s.regulatorsOff
    (0x12, (({ s with startup := { s.startup with stage := .restarting, cause := 1 } } : State).setNum startupKey 0).setNum
      (objKey 0x12A1 0) 1)

/-- REGULATORS_SWITCH_ON (R457, R468): the regulators of a restart come back, and a complete start-up begins. -/
def execRegulatorsSwitchOn (dt : Nat) (s : State) : Host.Outcome State Fault Refusal :=
  let s := s.tick dt
  if s.startup.stage = .restarting then .next (s.beginStartup s.startup.cause) else .next s

/-- SUPPLY_LOSS (R453, R483): 12 V (`main`) or VIO is lost while VMGT stays valid. The regulators go off, the management domain
serves on, and loss of 12 V ends a trip. -/
def execSupplyLoss (dt : Nat) (main : Bool) (s : State) : Host.Outcome State Fault Refusal :=
  let s := s.tick dt
  let s := s.cutErase
  let s := if s.host.dlUp then s.loseHost else s
  let s := s.regulatorsOff
  .next { s with
    startup := { s.startup with
      stage := .off
      supply12 := s.startup.supply12 && !main
      supplyIo := s.startup.supplyIo && main }
    host := { s.host with phy := false }
    pins := { s.pins with thermTrip := s.pins.thermTrip && !main } }

/-- VMGT_LOSS (R452, R453): the whole package stops at once, and the firmware log is lost with it. -/
def execVmgtLoss (dt : Nat) (s : State) : Host.Outcome State Fault Refusal :=
  let s := (s.tick dt).cutErase.coldStart
  .next { s with
    integ := { s.integ with log := [] }
    net := { s.net with plca := Plca.init }
    pins := { s.pins with fault := false }
    startup := { s.startup with stage := .off, supplyMgt := false, regulators := false } }

/-- VMGT_VALID (R453): the management ports are up. -/
def execVmgtValid (dt : Nat) (s : State) : Host.Outcome State Fault Refusal :=
  let s := s.tick dt
  .next { s with startup := { s.startup with supplyMgt := true } }

end Sys2Proof.Machine
end

