-- ==== Sys2Proof/Machine/Dict.lean ====
section
/-! DEFINITION. The dictionary server and its three transports (R29 to R49): what each object reads as, what each write does, and the
rows that are requests. An owner's behaviour answers a status of R41 and the state after it. -/
namespace Sys2Proof.Machine

/-! ### What an object reads as (R29, R30) -/

/-- The longest update budget of any trainable table, µs (0x2300.02). -/
def State.largestBudget (s : State) : Nat :=
  ((s.tables.filter (fun (e : Nat × Table) => e.2.state ≠ .absent && e.2.trainable)).map (fun (e : Nat × Table) => e.2.budget)).foldl max 0

/-- How many of a range pass. -/
def countOf (n : Nat) (p : Nat → Bool) : Nat := ((List.range n).filter p).length

/-- Objects whose value the state gives elsewhere; none for an object that is stored. -/
def State.computed (s : State) (k : Nat) : Option Nat :=
  if k = objKey 0x1201 0 ∨ k = objKey 0x1001 6 then some s.now
  else if k = objKey 0x1000 5 then some Config.steppingSource
  else if k = objKey 0x1000 6 then some Config.enterpriseSource
  else if k = objKey 0x3100 6 then some Config.vendorSource
  else if k = objKey 0x1001 2 then some s.startup.slotA.version
  else if k = objKey 0x1001 3 then some s.startup.slotB.version
  else if k = objKey 0x1080 4 then some (s.net.sessions.filter (fun x => x.proved)).length
  else if k = objKey 0x1100 6 then some s.excess
  else if k = objKey 0x2000 7 then some (countOf 64 (fun j => s.job j = jobOpen || s.job j = jobClosing))
  else if k = objKey 0x2200 1 then some (s.tables.filter (fun (e : Nat × Table) => e.2.state = .ready)).length
  else if k = objKey 0x2200 2 then some s.replicatedRows
  else if k = objKey 0x2300 2 then some s.largestBudget
  else if k = objKey 0x2500 2 then some (0x1800000000 - s.spread * 0x40000000)
  else if k = objKey 0x2500 3 then some (0xC000000000 - s.mem.retired.length * 0x200000)
  else if k = objKey 0x2503 2 then some s.mem.retired.length
  else if k = objKey 0x2503 3 then some s.mem.pendingPages.length
  else if k = objKey 0x2700 3 then some (s.queues.filter (fun (e : Nat × Queue) => e.2.state ≠ .disabled)).length
  else if k = objKey 0x3100 5 then some s.ideActive
  else if k = objKey 0x3101 6 then some s.host.discards.length
  else if k = objKey 0x5005 1 then some s.spdm.sessions.length
  else if 0x1270 ≤ k / 256 ∧ k / 256 < 0x1290 ∧ k % 256 = 2 then some (s.clusterRate (k / 256 - 0x1270))
  else none

/-- The management MAC address (R42): 0x02 and bits [39:0] of the serial number, most significant first. -/
def managementMac : Bytes := 0x02 :: (Config.serial.take 5).reverse

/-- STRING and OCTETS objects. -/
def State.blobValue (s : State) (k : Nat) : Bytes :=
  if k = objKey 0x1000 4 then Config.serial
  else if k = objKey 0x1000 7 then edPublic Config.identitySeed
  else if k = objKey 0x1080 2 then managementMac
  else s.blob k

/-- Counts of 8 bytes each at their places, from pairs of place and count. -/
def counts64 (n : Nat) (l : List (Nat × Nat)) : Bytes := (List.range n).flatMap (fun i => natLe 8 (Map.get 0 l i))

/-- The pairs that the last snapshot's drops were kept as: chip U16, count U64. -/
def dropPairs (b : Bytes) : List (Nat × Nat) := (chunks 10 (b.length + 1) b).map (fun c => (fieldLe c 0 2, fieldLe c 2 8))

/-- DOMAIN objects. -/
def State.domainValue (s : State) (k : Nat) : Bytes :=
  if k = objKey 0x2203 0 then counts64 4096 (dropPairs (s.blob k))
  else if k = objKey 0x2503 4 then s.mem.retired.flatMap (natLe 4)
  else if k = objKey 0x2503 5 then s.mem.pendingPages.flatMap (natLe 4)
  else if k = objKey 0x2710 0 then counts64 4096 s.fences
  else if k = objKey 0x3001 8 then natLe 512 (s.fabric.present.foldl (fun n c => n ||| 2 ^ c) 0)
  else if k = objKey 0x3102 0 then s.host.discards.flatten
  else if k = objKey 0x4002 0 then s.integ.log.flatten
  else if k = objKey 0x5004 0 then (if s.startup.chainValid then Config.certChain else [])
  else []

/-- An object's value as its type encodes it. -/
def State.objValue (s : State) (r : ObjRow) (k : Nat) : Bytes :=
  match r.ty with
  | .string => s.blobValue k
  | .octets => s.blobValue k
  | .domain => s.domainValue k
  | t => natLe t.size ((s.computed k).getD (s.num k))

/-! ### Describe and enumerate (R40) -/

/-- The least and greatest value of a range, as encodings of the type. -/
def ObjRow.bounds (r : ObjRow) : Nat × Nat :=
  let top := 256 ^ r.ty.size
  match r.range with
  | .span lo hi => (lo, hi)
  | .spanOr lo hi x => (lo, max hi x)
  | .step lo hi _ => (lo, hi)
  | .codes l => (minOr 0 l, l.foldl max 0)
  | .bits mask => (0, mask)
  | .aligned a below => (0, below - a)
  | _ =>
    match r.ty with
    | .bool => (0, 1)
    | .f32 => (0xFF7FFFFF, 0x7F7FFFFF)
    | .i8 => (top / 2, top / 2 - 1)
    | .i16 => (top / 2, top / 2 - 1)
    | .i32 => (top / 2, top / 2 - 1)
    | .i64 => (top / 2, top / 2 - 1)
    | _ => (0, top - 1)

/-- A descriptor as a describe reply carries it. -/
def ObjRow.descriptor (r : ObjRow) (k : Nat) : Bytes :=
  let (lo, hi) := r.bounds
  let n := r.ty.size
  let bounded : Bool := match r.ty with
    | .string => false
    | .octets => false
    | .domain => false
    | .action => false
    | _ => true
  natLe 1 r.ty.code ++ natLe 1 (r.host + 4 * r.board + 16 * r.rack) ++ natLe 1 (if r.persistent then 1 else 0) ++
    (if bounded then natLe n (dfltNum k) ++ natLe n lo ++ natLe n hi else []) ++ natLe 1 (ascii r.name).length ++ ascii r.name

/-- The next object of a row after a key; every index has a subindex 0. -/
def ObjRow.next (r : ObjRow) (index sub : Nat) : Option Nat :=
  if r.base ≤ index ∧ index < r.base + r.n ∧ sub < r.s1 then some (objKey index (max r.s0 (sub + 1)))
  else if index < r.base then some (objKey r.base 0)
  else if index + 1 < r.base + r.n then some (objKey (index + 1) 0)
  else none

/-- The next existing object after an index and subindex. -/
def nextObject (index sub : Nat) : Option Nat :=
  objRows.foldl (fun (m : Option Nat) r =>
    match m, r.next index sub with
    | some a, some b => some (min a b)
    | none, b => b
    | a, none => a) none

/-! ### What a write does (R32, and each owner's chapter) -/

/-- Store a value. -/
def State.storeValue (s : State) (r : ObjRow) (k : Nat) (v : Bytes) : State :=
  match r.ty with
  | .string => s.setBlob k v
  | .octets => s.setBlob k v
  | _ => s.setNum k (leNat v)

/-- Store when a condition of the owner's chapter holds, else refuse with 0x08. -/
def State.storeIf (s : State) (ok : Bool) (r : ObjRow) (k : Nat) (v : Bytes) : Nat × State :=
  if ok then (0, s.storeValue r k v) else (8, s)

/-- Enable or disable a digest group (R417). -/
def State.enableGroup (s : State) (g : Nat) (on : Bool) : State :=
  if s.flag (groupKey g 1) = on then s
  else if on then (s.setFlag (groupKey g 1) true).setGroup g { DigestGroup.init with armed := true }
  else ((s.setFlag (groupKey g 1) false).setGroup g DigestGroup.init).setNum (groupKey g 8) 0

/-- The pair's job is open and verified, and its local queues belong to it (R420). -/
def State.pairOk (s : State) (p : Nat) : Bool :=
  let j := s.pairJob p
  s.job j = jobOpen && s.flag (jobVerifiedKey j) && queueJob (s.num (pairKey p 3)) = j &&
  (s.peerChip p ≠ s.chip || queueJob (s.num (pairKey (s.peerPair p) 3)) = j)

/-- Enable or disable a verify pair (R420). -/
def State.enablePair (s : State) (p : Nat) (on : Bool) : Nat × State :=
  if s.flag (pairKey p 1) = on then (0, s)
  else if on then
    if s.pairOk p then
      (0, (((s.setFlag (pairKey p 1) true).setPair p VerifyPair.init).setNum (pairKey p 8) 1).setNum (pairKey p 9) 0)
    else (8, s)
  else (0, ((s.setFlag (pairKey p 1) false).setPair p VerifyPair.init).setNum (pairKey p 8) 0)

/-- Close every session of a key slot (R44). -/
def State.closeSlotSessions (s : State) (slot : Nat) : State :=
  { s with net := { s.net with sessions := s.net.sessions.filter (fun x => x.slot ≠ slot) } }

/-- A checked value is written to an object that is no action: the owner's rule for the present state, and its effect. Only the enabling
of PLCA is refused while the node identifier is 255; a write of 255 while it is enabled is taken (R49, notes/assumptions/111.md). -/
def State.ownerWrite (s : State) (r : ObjRow) (index sub : Nat) (v : Bytes) : Nat × State :=
  let k := objKey index sub
  let n := leNat v
  let free (j : Nat) : Bool := s.job j = jobFree
  if index = 0x1081 then
    if sub = 1 ∧ n = 1 ∧ s.num (objKey 0x1081 2) = 255 then (8, s)
    else
      let s : State := s.storeValue r k v
      (0, { s with net := { s.net with plcaPending := true } })
  else if index = 0x5020 then (0, (s.storeValue r k v).closeSlotSessions sub)
  else if index = 0x1120 then (0, s.coolantReport (sub = 2) n)
  else if 0x1210 ≤ index ∧ index < 0x1230 then (0, s.setClock (8 * (index - 0x1210) + (sub - 1)) n)
  else if 0x2010 ≤ index ∧ index < 0x2050 then s.storeIf (free (index - 0x2010)) r k v
  else if 0x2610 ≤ index ∧ index < 0x2650 then s.storeIf (free (index - 0x2610)) r k v
  else if k = objKey 0x2100 1 then s.storeIf (4 * s.largestBudget < 3 * n) r k v
  else if k = objKey 0x2100 2 then s.storeIf (!s.epochsRunning) r k v
  else if k = objKey 0x2100 3 then (if n = 1 then s.epochsStart else (8, s))
  else if k = objKey 0x2101 8 then
    (0, { s.storeValue r k v with epochs := { s.epochs with syncOutBefore := s.flag k, syncOutChanged := s.now } })
  else if k = objKey 0x2300 1 ∨ k = objKey 0x2500 1 ∨ k = objKey 0x2401 1 ∨ k = objKey 0x4000 1 then
    s.storeIf (s.tenancy = 0) r k v
  else if k = objKey 0x4000 3 then
    if s.num k ≤ n ∧ n ≤ s.num (objKey 0x4000 2) then (0, s.storeValue r k v) else (6, s)
  else if 0x4050 ≤ index ∧ index < 0x4058 then
    if sub = 1 then (0, s.enableGroup (index - 0x4050) (n = 1))
    else s.storeIf (sub = 7 || !s.flag (objKey index 1)) r k v
  else if 0x4060 ≤ index ∧ index < 0x4070 then
    if sub = 1 then s.enablePair (index - 0x4060) (n = 1) else s.storeIf (!s.flag (objKey index 1)) r k v
  else (0, s.storeValue r k v)

/-- The persistent objects that restore defaults sets: those that some transport may write, except the rack keys (R49). -/
def restoredKey (k : Nat) : Bool :=
  (objRow (k / 256) (k % 256)).any (fun r => r.persistent && r.base ≠ 0x5020 &&
    (r.writable .host || r.writable .board || r.writable .rack))

/-- The restore-defaults action (R49). -/
def State.restoreDefaults (s : State) (arg : Nat) : Nat × State :=
  if arg ≠ 0xD5F0 then (6, s)
  else if s.tenancy ≠ 0 then (8, s)
  else
    let old := s
    let s : State := { s with
      dict := { s.dict with
        nums := s.dict.nums.keep (fun k => !restoredKey k)
        blobs := s.dict.blobs.keep (fun k => !restoredKey k) }
      net := { s.net with plcaPending := true }
      epochs := { s.epochs with syncOutBefore := s.flag (objKey 0x2101 8), syncOutChanged := s.now } }
    (0, (s.durable old).setNum (objKey 0x1010 0) 2)

/-- The invalidate-tag action (R283). A firmware or unused tag completes at once (R275). -/
def State.invalidateTag (s : State) (tag : Nat) : Nat × State :=
  if 255 < tag then (6, s)
  else if tag < 0x40 then (0x12, (s.startInval tag .action).setNum (objKey 0x2600 3) 1)
  else (0, (s.invalDone false).setNum (objKey 0x2600 3) 2)

/-- An action starts with its argument. -/
def State.ownerAction (s : State) (index sub arg : Nat) : Nat × State :=
  let k := objKey index sub
  if k = objKey 0x1010 0 then s.restoreDefaults arg
  else if k = objKey 0x12A1 0 then s.restart arg
  else if k = objKey 0x2000 1 then s.tenancyStart arg
  else if k = objKey 0x2000 2 then s.tenancyEnd arg
  else if 0x2010 ≤ index ∧ index < 0x2050 ∧ sub = 4 then s.jobOpens (index - 0x2010)
  else if 0x2010 ≤ index ∧ index < 0x2050 then s.jobCloses (index - 0x2010)
  else if k = objKey 0x2201 0 then s.tableSnapshot arg
  else if k = objKey 0x2503 6 then s.retireNow arg
  else if k = objKey 0x2600 3 then s.invalidateTag arg
  else if k = objKey 0x2701 0 then s.queueSnapshot arg
  else if k = objKey 0x4005 2 then s.clearSuspicion arg
  else if k = objKey 0x4101 0 then s.declareWindow arg
  else if k = objKey 0x5002 0 then s.slotAction arg
  else if k = objKey 0x5003 0 then s.commitSecurity arg
  else s.accountSnapshot arg

/-- Actions that write persistent objects. -/
def durableAction (k : Nat) : Bool := k = objKey 0x1010 0 || k = objKey 0x2000 1 || k = objKey 0x4005 2

/-! ### Replies and transports (R36, R37, R40 to R43) -/

/-- What a reply says: status, type, index, subindex and value. -/
structure Answer where
  status : Nat
  type : Nat
  index : Nat
  sub : Nat
  value : Bytes
  deriving DecidableEq, Repr

/-- A refusal: it echoes the request, and carries the type of the object where there is one (R40); the type of the request where there
is none is the model's choice (notes/assumptions/105.md). -/
def refuse (m : DictMsg) (status : Nat) : Answer :=
  ⟨status, ((objRow m.index m.sub).map (fun o => o.ty.code)).getD m.type, m.index, m.sub, []⟩

/-- A message of R40. -/
def dictBytes (version op transaction index sub type offset length status : Nat) (value : Bytes) : Bytes :=
  natLe 1 version ++ natLe 1 op ++ natLe 2 transaction ++ natLe 2 index ++ natLe 1 sub ++ natLe 1 type ++ natLe 4 offset ++
    natLe 2 length ++ natLe 1 status ++ natLe 1 0 ++ value

/-- An Edtal header (R42). -/
def edtalBytes (version : Nat) (signed : Bool) (length session sequence : Nat) : Bytes :=
  natLe 1 version ++ natLe 1 (if signed then 1 else 0) ++ natLe 2 length ++ natLe 4 session ++ natLe 8 sequence

/-- A header and message, signed by the identity key when asked for (R42, R43). -/
def edtalPayload (signed : Bool) (session sequence : Nat) (msg : Bytes) : Bytes :=
  let b := edtalBytes 1 signed msg.length session sequence ++ msg
  if signed then b ++ edSign Config.identitySeed (b ++ Config.serial) else b

/-- A raw Ethernet frame from this device (R42): addresses and EtherType, the payload filled up to 46 bytes, and the frame check
sequence (PRESUMED from IEEE 802.3, notes/assumptions/106.md). -/
def ethernetFrame (dest : Bytes) (etherType : Nat) (payload : Bytes) : Bytes :=
  let b := dest ++ managementMac ++ natBe 2 etherType ++ payload ++ List.replicate (46 - payload.length) 0
  b ++ natLe 4 (crc32 b)

/-- The MCTP packets of a message (R46): a header of version, endpoints, start, end, packet sequence and tag, and up to 64 bytes each
(PRESUMED from the MCTP base specification, notes/assumptions/106.md). -/
def mctpPackets (dest source tag : Nat) (msg : Bytes) : List Bytes :=
  let parts := chunks 64 (msg.length + 1) msg
  (parts.zipIdx).map (fun p =>
    natLe 1 1 ++ natLe 1 dest ++ natLe 1 source ++
      natLe 1 ((if p.2 = 0 then 0x80 else 0) + (if p.2 + 1 = parts.length then 0x40 else 0) + 16 * (p.2 % 4) + tag) ++ p.1)

/-- Packets that reassemble (R46): the first alone starts the message, the last alone ends it, and the packet sequence rises by one
modulo 4. -/
def mctpWhole : List (Bool × Bool × Nat) → Bool
  | [] => false
  | p :: l => p.1 && mctpTail p l
where
  mctpTail : Bool × Bool × Nat → List (Bool × Bool × Nat) → Bool
    | p, [] => p.2.1
    | p, q :: l => !p.2.1 && !q.1 && q.2.2 = (p.2.2 + 1) % 4 && mctpTail q l

/-- A dictionary message as MCTP carries it (R46): message type, enterprise number, most significant byte first, and the message. -/
def mctpMessage (msg : Bytes) : Bytes := natLe 1 0x7F ++ natBe 4 Config.enterpriseSource ++ msg

def viaOf (r : Request) : Transport :=
  match r.via with
  | .host => .host
  | .board _ => .board
  | .rack _ => .rack

/-- The place of a transport among requests that arrive in the same nanosecond (R35). -/
def transportRank : Transport → Nat
  | .host => 0
  | .board => 1
  | .rack => 2

/-- The time of a request passes (R35). One that would come in the same nanosecond as a request of a transport behind its own, which has
its place already, comes a nanosecond later: that order of one nanosecond the manual does not allow (notes/assumptions/1.md). -/
def State.reach (s : State) (dt : Nat) (r : Request) : State :=
  s.tick (if dt = 0 ∧ s.net.lastPlace.any (fun p => p.1 = s.now && transportRank (viaOf r) < p.2) then 1 else dt)

/-- The session that a request names, 0 for none. -/
def sessionOf (r : Request) : Nat :=
  match r.via with
  | .rack h => h.session
  | _ => 0

/-- A reply leaves on its transport: a mailbox payload, MCTP packets, or a frame. -/
def State.sendReply (s : State) (t : Transport) (parts : List Bytes) : State :=
  match t with
  | .host => parts.foldl (fun s b => s.emit (.mailbox 0 b)) s
  | t => parts.foldl (fun s b => s.emit (.reply t b)) s

/-- The replies of a transport that are owed, oldest first. -/
def State.owedTo (s : State) (t : Transport) : List (List Bytes) := (s.net.owed.filter (fun e => e.1 = t)).map (fun e => e.2)

/-- The replies that a transport has been owed leave it in their order, but for the last `n` (R37). -/
def State.sendOwed (s : State) (t : Transport) (n : Nat) : State :=
  let l := s.owedTo t
  let s := (l.take (l.length - n)).foldl (fun s b => s.sendReply t b) s
  { s with net := { s.net with
      owed := s.net.owed.filter (fun e => e.1 ≠ t) ++ (l.drop (l.length - n)).map (fun b => (t, b)) } }

/-- A reply of a request that has its place leaves after those before it, at once or when its medium takes it; a busy refusal leaves
ahead of the replies still owed (R37). -/
def State.deliver (s : State) (r : Request) (status : Nat) (parts : List Bytes) : State :=
  let t := viaOf r
  if status = 9 then s.sendReply t parts
  else if r.waits then { s with net := { s.net with owed := s.net.owed ++ [(t, parts)] } }
  else (s.sendOwed t 0).sendReply t parts

/-- Answer a request: refusals 0x09, 0x0C and 0x0D are counted; the reply to a signed request is signed under the same sequence, and goes
to where the request came from (R37, R42, R43, R46). -/
def State.respond (s : State) (op : Nat) (r : Request) (session : Nat) (a : Answer) : State :=
  let s := if a.status = 0x0C then s.bump (objKey 0x1083 4) 1
    else if a.status = 0x0D then s.bump (objKey 0x1083 5) 1
    else if a.status = 0x09 then s.bump (objKey 0x1083 6) 1
    else s
  let b := dictBytes 1 (op % 128 + 128) r.msg.transaction a.index a.sub a.type r.msg.offset a.value.length a.status a.value
  s.deliver r a.status (match r.via with
    | .host => [b]
    | .board h => mctpPackets h.source h.dest h.tag (mctpMessage b)
    | .rack h => [ethernetFrame h.source h.etherType (edtalPayload h.signed session (if h.signed then h.sequence else 0) b)])

/-! ### Sessions (R43, R44) -/

/-- An open session of an identifier. -/
def State.openSession (s : State) (id : Nat) : Option Session := s.net.sessions.find? (fun x => x.id = id && x.proved)

def State.setSession (s : State) (x : Session) : State :=
  { s with net := { s.net with sessions := mapIf (fun (y : Session) => y.id = x.id) (fun _ => x) s.net.sessions } }

def State.dropSession (s : State) (id : Nat) : State :=
  { s with net := { s.net with sessions := s.net.sessions.filter (fun x => x.id ≠ id) } }

/-- The key of a slot of 0x5020. -/
def State.rackKey (s : State) (slot : Nat) : Bytes := s.blob (objKey 0x5020 slot)

/-- A signed request's signature verifies under the key of its session (R42). -/
def State.authentic (s : State) (x : Session) (op : Nat) (h : Edtal) (m : DictMsg) : Bool :=
  let msg := dictBytes m.version op m.transaction m.index m.sub m.type m.offset m.length 0 m.value
  edVerify (s.rackKey x.slot) (edtalBytes h.version true h.length h.session h.sequence ++ msg ++ Config.serial) h.signature

/-- A message is accepted in its session. -/
def State.acceptIn (s : State) (x : Session) (sequence : Nat) : State :=
  s.setSession { x with lastSequence := sequence, lastAccepted := s.now }

/-- The rule of R43 for a write on the rack transport: 0 when it may go on, and the state with its sequence accepted. -/
def State.authWrite (s : State) (op : Nat) (r : Request) : Nat × State :=
  match r.via with
  | .rack h =>
    match s.openSession h.session with
    | none => (if h.session = 0 then 0x0B else 0x0C, s)
    | some x =>
      if !h.signed then (0x0B, s)
      else if !s.authentic x op h r.msg then (0x0C, s)
      else if h.sequence ≤ x.lastSequence then (0x0D, s)
      else (0, s.acceptIn x h.sequence)
  | _ => (0, s)

/-- A request that needs no session but is signed in one counts as accepted there when it is authentic and its sequence rises. With a bad
signature or a sequence that does not rise it is served and not noted: the model's choice (notes/assumptions/107.md). -/
def State.noteRead (s : State) (op : Nat) (r : Request) : State :=
  match r.via with
  | .rack h =>
    match s.openSession h.session with
    | some x => if h.signed && x.lastSequence < h.sequence && s.authentic x op h r.msg then s.acceptIn x h.sequence else s
    | none => s
  | _ => s

/-- Session open (R44): a key slot and a client nonce. Half-open sessions count towards the four (notes/assumptions/50.md). The statuses
for a slot outside 1 to 8 and for an empty slot are the model's choice (notes/assumptions/108.md). -/
def State.sessionOpen (s : State) (m : DictMsg) : Answer × Nat × State :=
  let slot := fieldLe m.value 0 1
  if m.value.length ≠ 33 then (refuse m 5, 0, s)
  else if slot < 1 ∨ 8 < slot then (refuse m 6, 0, s)
  else if (s.rackKey slot).all (· = 0) then (refuse m 0x0C, 0, s)
  else if 4 ≤ s.net.sessions.length then (refuse m 0x0E, 0, s)
  else
    let id := s.net.nextSession
    let client := m.value.drop 1
    let (nonce, s) := s.drawNonce
    let x : Session := { id := id, slot := slot, clientNonce := client, deviceNonce := nonce, proved := false, lastSequence := 0,
                         lastAccepted := s.now }
    let sig := edSign Config.identitySeed (client ++ nonce ++ Config.serial ++ natLe 1 slot)
    let next := if id + 1 < 2 ^ 32 then id + 1 else 1
    (⟨0, m.type, m.index, m.sub, natLe 4 id ++ nonce ++ sig⟩, id,
      { s with net := { s.net with sessions := s.net.sessions ++ [x], nextSession := next } })

/-- Session prove (R44): the slot's key signs device nonce, client nonce, serial and session identifier. A failure closes the
half-open session. -/
def State.sessionProve (s : State) (id : Nat) (m : DictMsg) : Answer × State :=
  match s.net.sessions.find? (fun x => x.id = id && !x.proved) with
  | none => (refuse m 0x0C, s)
  | some x =>
    if edVerify (s.rackKey x.slot) (x.deviceNonce ++ x.clientNonce ++ Config.serial ++ natLe 4 id) m.value then
      (⟨0, m.type, m.index, m.sub, []⟩, s.setSession { x with proved := true, lastSequence := 0, lastAccepted := s.now })
    else (refuse m 0x0C, s.dropSession id)

/-- Session close (R44), from whoever names the session: that it needs neither signature nor rising sequence is the model's choice
(notes/assumptions/109.md). -/
def State.sessionClose (s : State) (id : Nat) (m : DictMsg) : Answer × State :=
  if s.net.sessions.any (fun x => x.id = id) then (⟨0, m.type, m.index, m.sub, []⟩, s.dropSession id) else (refuse m 0x0C, s)

/-! ### Serving a request (R31, R32, R35, R39 to R41, R453, R456) -/

/-- The objects that the management domain serves by itself (R453). -/
def managementSet (index sub : Nat) : Bool :=
  (0x1000 ≤ index && index ≤ 0x12FF) || (index = 0x4002 && sub = 0) || (index = 0x4003 && sub = 1) ||
  (0x5000 ≤ index && index ≤ 0x50FF)

/-- The dictionary is ready (R39, R456): start-up has completed or stopped, or the device has tripped. -/
def State.dictReady (s : State) : Bool :=
  s.startup.stage ≠ .off && s.startup.stage ≠ .restarting && s.num startupKey ≠ 0

/-- The status that the device's condition gives a request for an object, 0 when it may be served. -/
def State.gate (s : State) (op index sub : Nat) : Nat :=
  if !s.dictReady then (if (op = 1 || op = 5) && managementSet index sub then 0 else 0x0A)
  else if s.num startupKey ≠ 1 && !managementSet index sub then 8
  else 0

/-- A plain read, or a segment read, of an object. A plain read of an action is open to whom may start it (R30, R31). -/
def State.serveRead (s : State) (op : Nat) (r : Request) (o : ObjRow) : Answer × State :=
  let m := r.msg
  let no (status : Nat) : Answer × State := (⟨status, o.ty.code, m.index, m.sub, []⟩, s)
  if !(o.readable (viaOf r) || (o.ty = .action && op = 1 && o.writable (viaOf r))) then no 3
  else if (o.ty = .domain) ≠ (op = 5) then no 0x11
  else if m.type ≠ 0 ∧ m.type ≠ o.ty.code then no 4
  else
    let v := s.objValue o (objKey m.index m.sub)
    if op = 1 then (⟨0, o.ty.code, m.index, m.sub, v⟩, s.noteRead op r)
    else if v.length ≤ m.offset then no 0x10
    else (⟨0, o.ty.code, m.index, m.sub, (v.drop m.offset).take 1024⟩, s.noteRead op r)

/-- A write of a checked value: the persistent store, the owner's rule, and the value read back. -/
def State.serveValue (s : State) (r : Request) (o : ObjRow) : Answer × State :=
  let m := r.msg
  let k := objKey m.index m.sub
  let (status, t) :=
    if o.ty = .action then s.ownerAction m.index m.sub (leNat m.value) else s.ownerWrite o m.index m.sub m.value
  if status ≠ 0 ∧ status ≠ 0x12 then (⟨status, o.ty.code, m.index, m.sub, []⟩, s)
  else if !r.store && (o.persistent || durableAction k) then (⟨0x0F, o.ty.code, m.index, m.sub, []⟩, s)
  else
    let t := if o.persistent then t.durable s else t
    (⟨status, o.ty.code, m.index, m.sub, t.objValue o k⟩, t)

/-- A write, or a segment write, of an object: right, session, kind, type, length, reserved values, range (R31, R32, R43). A refused one
has no effect, nor on its session (R41). -/
def State.serveWrite (s : State) (op : Nat) (r : Request) (o : ObjRow) : Answer × State :=
  let m := r.msg
  let no (status : Nat) (s : State) : Answer × State := (⟨status, o.ty.code, m.index, m.sub, []⟩, s)
  if !o.writable (viaOf r) then no 3 s
  else
    match s.authWrite op r with
    | (status, t) =>
      if status ≠ 0 then no status s
      else if (o.ty = .domain) ≠ (op = 6) then no 0x11 s
      else if m.type ≠ o.ty.code then no 4 s
      else if op = 6 then
        match t.programSlot m.offset m.value with
        | (status, u) => no status (if status = 0 then u else s)
      else if !lengthOk o m.value then no 5 s
      else if reservedValue o m.value then no 7 s
      else if outOfRange o m.value then no 6 s
      else
        match t.serveValue r o with
        | (a, u) => (a, if a.status = 0 ∨ a.status = 0x12 then u else s)

/-- A request for an object. A message that names a session that is not open is refused (R44). -/
def State.serveObject (s : State) (op : Nat) (r : Request) : Answer × State :=
  let m := r.msg
  let g := s.gate op m.index m.sub
  if g ≠ 0 then (refuse m g, s)
  else if (sessionOf r) ≠ 0 ∧ (s.openSession (sessionOf r)).isNone then (refuse m 0x0C, s)
  else if op = 4 then
    match nextObject m.index m.sub with
    | none => (refuse m 1, s)
    | some k =>
      (⟨0, ((objRow (k / 256) (k % 256)).map (fun o => o.ty.code)).getD 0, k / 256, k % 256, []⟩, s.noteRead op r)
  else
    match objRow m.index m.sub with
    | none => (refuse m (if indexExists m.index then 2 else 1), s)
    | some o =>
      if op = 3 then (⟨0, o.ty.code, m.index, m.sub, o.descriptor (objKey m.index m.sub)⟩, s.noteRead op r)
      else if op = 1 ∨ op = 5 then s.serveRead op r o
      else s.serveWrite op r o

/-- A session operation, with the session that its reply names. -/
def State.serveSession (s : State) (op : Nat) (r : Request) : Answer × Nat × State :=
  let m := r.msg
  if !s.dictReady then (refuse m 0x0A, (sessionOf r), s)
  else if op = 0x10 then s.sessionOpen m
  else if op = 0x11 then (let (a, s) := s.sessionProve (sessionOf r) m; (a, (sessionOf r), s))
  else (let (a, s) := s.sessionClose (sessionOf r) m; (a, (sessionOf r), s))

/-- A message discarded and counted (R40, R42, R46). -/
def State.foreign (s : State) : State := s.bump (objKey 0x1083 7) 1

/-- The server takes a request at its place in the order (R35, R37, R40). The replies that its transport has taken since the last one
leave first; with eight still owed the request gets no place. An Edtal version other than 0x01 is refused as an unsupported
version: the model's choice (notes/assumptions/110.md). -/
def State.takeRequest (s : State) (op : Nat) (r : Request) : State :=
  let m := r.msg
  let version : Nat := match r.via with
    | .rack h => h.version
    | _ => 1
  let s := s.sendOwed (viaOf r) r.held
  if 8 ≤ (s.owedTo (viaOf r)).length then s.respond op r (sessionOf r) (refuse m 9)
  else
    let s : State := { s with net := { s.net with lastPlace := some (s.now, transportRank (viaOf r)) } }
    let s := s.bump (objKey 0x1083 (match (viaOf r) with
      | .host => 1
      | .board => 2
      | .rack => 3)) 1
    if m.version ≠ 1 ∨ version ≠ 1 then s.respond op r (sessionOf r) (refuse m 0x11)
    else if !(1 ≤ op && op ≤ 6) && !(0x10 ≤ op && op ≤ 0x12 && (viaOf r) = .rack) then s.respond op r (sessionOf r) (refuse m 0x11)
    else if 1024 < m.length ∨ m.length ≠ m.value.length then s.respond op r (sessionOf r) (refuse m 5)
    else if 0x10 ≤ op then
      let (a, session, s) := s.serveSession op r
      s.respond op r session a
    else
      let (a, s) := s.serveObject op r
      s.respond op r (sessionOf r) a

/-- Mailbox return codes: 0 done, 1 background command started, 2 invalid input, 3 unsupported, 6 busy, 0x16 invalid payload
length. PRESUMED from the CXL standard (notes/assumptions/51.md). -/
def State.mailboxCode (s : State) (code : Nat) : State := s.emit (.mailbox code [])

/-- A request as its transport carries it: on the rack the Edtal message length says how many bytes the dictionary message has, and
Ethernet padding after them is no part of it (R40). -/
def carried (r : Request) : Request :=
  match r.via with
  | .rack h => { r with msg := { r.msg with value := r.msg.value.take (h.length - 16) } }
  | _ => r

/-- An Ethernet frame is for this device and carries its Edtal EtherType (R42). -/
def State.ownFrame (s : State) (dest : Bytes) (etherType : Nat) : Bool := dest = managementMac && etherType = s.num (objKey 0x1080 1)

/-- A request arrives on its transport (R39, R42, R46, R453, R456): a port without supplies answers nothing, and the mailbox is busy
before the dictionary is ready and serves no dictionary request after a stopped start-up. Packets that do not reassemble make no
message. -/
def State.request (s : State) (op : Nat) (r : Request) : State :=
  match r.via with
  | .host =>
    if !s.host.dlUp then s
    else if !s.dictReady then s.mailboxCode 6
    else if s.num startupKey = 2 then s.mailboxCode 3
    else if !r.whole then s.foreign.mailboxCode 0x16
    else s.takeRequest op r
  | .board h =>
    if !s.startup.supplyMgt || !mctpWhole h.packets then s
    else if h.enterprise ≠ Config.enterpriseSource ∨ !r.whole then s.foreign
    else s.takeRequest op r
  | .rack h =>
    if !s.startup.supplyMgt then s
    else if !s.ownFrame h.dest h.etherType || !r.whole || h.length < 16 then s.foreign
    else s.takeRequest op (carried r)

/-! ### The rows that are requests -/

/-- OBJECT_READ (R40). -/
def execObjectRead (dt : Nat) (r : Request) (s : State) : Host.Outcome State Fault Refusal := .next ((s.reach dt r).request 1 r)

/-- OBJECT_WRITE (R32). -/
def execObjectWrite (dt : Nat) (r : Request) (s : State) : Host.Outcome State Fault Refusal := .next ((s.reach dt r).request 2 r)

/-- OBJECT_DESCRIBE (R40). -/
def execObjectDescribe (dt : Nat) (r : Request) (s : State) : Host.Outcome State Fault Refusal := .next ((s.reach dt r).request 3 r)

/-- OBJECT_ENUMERATE (R40). -/
def execObjectEnumerate (dt : Nat) (r : Request) (s : State) : Host.Outcome State Fault Refusal := .next ((s.reach dt r).request 4 r)

/-- SEGMENT_READ (R40). -/
def execSegmentRead (dt : Nat) (r : Request) (s : State) : Host.Outcome State Fault Refusal := .next ((s.reach dt r).request 5 r)

/-- SEGMENT_WRITE (R40, R467). -/
def execSegmentWrite (dt : Nat) (r : Request) (s : State) : Host.Outcome State Fault Refusal := .next ((s.reach dt r).request 6 r)

/-- SESSION_OPEN (R44). -/
def execSessionOpen (dt : Nat) (r : Request) (s : State) : Host.Outcome State Fault Refusal := .next ((s.reach dt r).request 0x10 r)

/-- SESSION_PROVE (R44). -/
def execSessionProve (dt : Nat) (r : Request) (s : State) : Host.Outcome State Fault Refusal := .next ((s.reach dt r).request 0x11 r)

/-- SESSION_CLOSE (R44). -/
def execSessionClose (dt : Nat) (r : Request) (s : State) : Host.Outcome State Fault Refusal := .next ((s.reach dt r).request 0x12 r)

/-- SESSION_IDLE_TIMEOUT (R44): a session in which nothing has been accepted for the idle time closes. -/
def execSessionIdleTimeout (dt id : Nat) (s : State) : Host.Outcome State Fault Refusal :=
  let s := s.tick dt
  if s.net.sessions.any (fun x => x.id = id && x.lastAccepted + s.num (objKey 0x1080 3) * 1000000000 ≤ s.now) then
    .next (s.dropSession id)
  else .next s

/-- What reaches a management port is for another destination, EtherType or enterprise. -/
def State.isForeign (s : State) : Stray → Bool
  | .frame dest etherType => !s.ownFrame dest etherType
  | .message enterprise => enterprise ≠ Config.enterpriseSource

/-- FOREIGN_FRAME_DISCARD (R42, R46): a frame for another destination or of another EtherType, or a message of another enterprise. -/
def execForeignFrameDiscard (x : StrayArrival) (s : State) : Host.Outcome State Fault Refusal :=
  let s := s.tick x.dt
  if s.startup.supplyMgt && s.isForeign x.stray then .next s.foreign else .next s

/-- How the 10BASE-T1S port takes the medium under PLCA settings (R45). -/
inductive PlcaRole where
  | csmaCd | coordinator | follower
  deriving DecidableEq, Repr

/-- The role that the settings in force give the port (R45). The node identifier 255 is unset: enabling PLCA with it is refused, and a
write of 255 under enabled PLCA, which the manual does not mention, leaves the port without PLCA (notes/assumptions/111.md). -/
def Plca.role (p : Plca) : PlcaRole :=
  if !p.enable || p.node = 255 then .csmaCd else if p.node = 0 then .coordinator else .follower

/-- The role of the port now. -/
def State.plcaRole (s : State) : PlcaRole := s.net.plca.role

/-- PLCA_CHANGE_APPLY (R45): accepted changes of the PLCA objects take effect at the end of the frame in progress. -/
def execPlcaChangeApply (dt : Nat) (s : State) : Host.Outcome State Fault Refusal :=
  let s := s.tick dt
  if s.net.plcaPending then .next { s with net := { s.net with plca := s.plcaObjects, plcaPending := false } } else .next s

/-- I3C_ENTDAA (R46): the BMC assigns the dynamic address. -/
def execI3cEntdaa (dt address : Nat) (s : State) : Host.Outcome State Fault Refusal :=
  let s := s.tick dt
  if s.startup.supplyMgt && 0 < address && address < 128 then .next (s.setNum (objKey 0x1082 1) address) else .next s

/-- A request aimed at an object with a value of a type: what the rows with an effect of their own send. -/
def aimAt (r : Request) (index sub : Nat) (ty : ObjType) (value : Bytes) : Request :=
  { r with msg := { r.msg with index := index, sub := sub, type := ty.code, length := value.length, value := value } }

/-- A write that starts an action with an argument. -/
def State.actionRequest (s : State) (index sub arg : Nat) (r : Request) : State :=
  s.request 2 (aimAt r index sub .action (natLe 4 arg))

/-- RACK_KEY_WRITE (R49): a write of key slot `slot`, which closes its sessions. -/
def execRackKeyWrite (dt slot : Nat) (key : Bytes) (r : Request) (s : State) : Host.Outcome State Fault Refusal :=
  .next ((s.reach dt r).request 2 (aimAt r 0x5020 slot .octets key))

/-- RESTORE_DEFAULTS (R49). -/
def execRestoreDefaults (dt arg : Nat) (r : Request) (s : State) : Host.Outcome State Fault Refusal :=
  .next ((s.reach dt r).actionRequest 0x1010 0 arg r)

/-- RESTART (R457). -/
def execRestart (dt arg : Nat) (r : Request) (s : State) : Host.Outcome State Fault Refusal :=
  .next ((s.reach dt r).actionRequest 0x12A1 0 arg r)

/-- CORE_CLOCK_SET (R23, R24): a write of a core's clock setting, MHz. -/
def execCoreClockSet (dt core mhz : Nat) (r : Request) (s : State) : Host.Outcome State Fault Refusal :=
  .next ((s.reach dt r).request 2 (aimAt r (0x1210 + core / 8) (1 + core % 8) .u16 (natLe 2 mhz)))

/-- TENANCY_START (R51): the argument is the owner identifier. -/
def execTenancyStart (dt owner : Nat) (r : Request) (s : State) : Host.Outcome State Fault Refusal :=
  .next ((s.reach dt r).actionRequest 0x2000 1 owner r)

/-- TENANCY_END (R52): argument 0 normal, 1 forced. -/
def execTenancyEnd (dt arg : Nat) (r : Request) (s : State) : Host.Outcome State Fault Refusal :=
  .next ((s.reach dt r).actionRequest 0x2000 2 arg r)

/-- JOB_OPEN (R55). -/
def execJobOpen (dt job arg : Nat) (r : Request) (s : State) : Host.Outcome State Fault Refusal :=
  .next ((s.reach dt r).actionRequest (0x2010 + job) 4 arg r)

/-- JOB_CLOSE (R55). -/
def execJobClose (dt job arg : Nat) (r : Request) (s : State) : Host.Outcome State Fault Refusal :=
  .next ((s.reach dt r).actionRequest (0x2010 + job) 5 arg r)

/-- ACCOUNTING_SNAPSHOT (R59). -/
def execAccountingSnapshot (dt account : Nat) (r : Request) (s : State) : Host.Outcome State Fault Refusal :=
  .next ((s.reach dt r).actionRequest 0x6041 0 account r)

/-- EPOCHS_START (R62): a write of epochs running. -/
def execEpochsStart (dt : Nat) (running : Bool) (r : Request) (s : State) : Host.Outcome State Fault Refusal :=
  .next ((s.reach dt r).request 2 (aimAt r 0x2100 3 .bool (natLe 1 (if running then 1 else 0))))

/-- TABLE_SNAPSHOT (R105). -/
def execTableSnapshot (dt table : Nat) (r : Request) (s : State) : Host.Outcome State Fault Refusal :=
  .next ((s.reach dt r).actionRequest 0x2201 0 table r)

/-- QUEUE_SNAPSHOT (R337). -/
def execQueueSnapshot (dt queue : Nat) (r : Request) (s : State) : Host.Outcome State Fault Refusal :=
  .next ((s.reach dt r).actionRequest 0x2701 0 queue r)

/-- INVALIDATE_TAG (R283). -/
def execInvalidateTag (dt tag : Nat) (r : Request) (s : State) : Host.Outcome State Fault Refusal :=
  .next ((s.reach dt r).actionRequest 0x2600 3 tag r)

/-- RETIRE_NOW (R267). -/
def execRetireNow (dt page : Nat) (r : Request) (s : State) : Host.Outcome State Fault Refusal :=
  .next ((s.reach dt r).actionRequest 0x2503 6 page r)

/-- DECLARE_WINDOW (R429). -/
def execDeclareWindow (dt code : Nat) (r : Request) (s : State) : Host.Outcome State Fault Refusal :=
  .next ((s.reach dt r).actionRequest 0x4101 0 code r)

/-- CLEAR_SUSPICION (R426). -/
def execClearSuspicion (dt arg : Nat) (r : Request) (s : State) : Host.Outcome State Fault Refusal :=
  .next ((s.reach dt r).actionRequest 0x4005 2 arg r)

/-- COOLANT_REPORT (R447): the inlet temperature, or with `flow` the flow, as the object holds it. -/
def execCoolantReport (dt : Nat) (flow : Bool) (value : Nat) (r : Request) (s : State) : Host.Outcome State Fault Refusal :=
  .next ((s.reach dt r).request 2 (aimAt r 0x1120 (if flow then 2 else 1) (if flow then .u16 else .i16) (natLe 2 value)))

/-- SLOT_ERASE (R467): the slot action with argument 1. -/
def execSlotErase (dt : Nat) (r : Request) (s : State) : Host.Outcome State Fault Refusal :=
  .next ((s.reach dt r).actionRequest 0x5002 0 1 r)

/-- SLOT_ACTIVATE (R468): the slot action with argument 2. -/
def execSlotActivate (dt : Nat) (r : Request) (s : State) : Host.Outcome State Fault Refusal :=
  .next ((s.reach dt r).actionRequest 0x5002 0 2 r)

/-- COMMIT_SECURITY_VERSION (R469). -/
def execCommitSecurityVersion (dt version : Nat) (r : Request) (s : State) : Host.Outcome State Fault Refusal :=
  .next ((s.reach dt r).actionRequest 0x5003 0 version r)

end Sys2Proof.Machine
end

