-- ==== Sys2Proof/Machine/Mailbox.lean ====
section
/-! DEFINITION. The CXL mailbox (R47, R394, R395, R456, R467). The manual names the commands; their layouts, opcodes and return codes
are those of the CXL standard (PRESUMED, notes/assumptions/51.md). -/
namespace Sys2Proof.Machine

/-- A mailbox command arrives: no link, nothing; busy before start-up ends; and only firmware commands after a stopped one
(R39, R456). -/
def State.mailboxRun (s : State) (firmware : Bool) (k : State → Nat × Bytes × State) : State :=
  if !s.host.dlUp then s
  else if !s.dictReady then s.mailboxCode 6
  else if s.num startupKey = 2 && !firmware then s.mailboxCode 3
  else
    let (code, payload, s) := k s
    s.emit (.mailbox code payload)

/-- The request that a mailbox payload holds (R40, R47). A Reply bit or a Status that is set in it has no effect: the model's choice
(notes/assumptions/112.md). -/
def mailboxRequest (medium : Medium) (store : Bool) (payload : Bytes) : Request :=
  let value := payload.drop 16
  let m : DictMsg := { version := fieldLe payload 0 1, transaction := fieldLe payload 2 2, index := fieldLe payload 4 2,
                       sub := fieldLe payload 6 1, type := fieldLe payload 7 1, offset := fieldLe payload 8 4,
                       length := fieldLe payload 12 2, value := value }
  { via := .host, held := medium.held, waits := medium.waits, whole := 16 ≤ payload.length, store := store, msg := m }

/-- MAILBOX_DICTIONARY_REQUEST (R47): opcode 0xC000 with a message of R40 as it stands in the payload. -/
def execMailboxDictionaryRequest (dt : Nat) (medium : Medium) (store : Bool) (payload : Bytes) (s : State) :
    Host.Outcome State Fault Refusal :=
  let r := mailboxRequest medium store payload
  .next ((s.reach dt r).request (bits (fieldLe payload 1 1) 6 0) r)

/-- MAILBOX_ACTION_STATUS (R47): opcode 0xC001 returns the status of an action (notes/assumptions/52.md). -/
def execMailboxActionStatus (dt index sub : Nat) (s : State) : Host.Outcome State Fault Refusal :=
  let s := s.tick dt
  .next (s.mailboxRun false (fun s =>
    match objRow index sub with
    | some r => if r.ty = .action then (0, natLe 4 (s.num (objKey index sub)), s) else (2, [], s)
    | none => (2, [], s)))

/-- The revision text of a firmware version; zeros for an empty slot. -/
def revisionText (version : Nat) : Bytes :=
  if version = 0 then List.replicate 16 0 else (List.range 16).map (Config.revisionByte version)

/-- Firmware version of the running image. -/
def State.runningVersion (s : State) : Nat :=
  match s.startup.booted with
  | some b => (s.imageSlot b).version
  | none => 0

/-- IDENTIFY_MEMORY_DEVICE (R394): 768 GiB, all of it volatile, in multiples of 256 MiB; no label storage, no poison injection. -/
def execIdentifyMemoryDevice (dt : Nat) (s : State) : Host.Outcome State Fault Refusal :=
  let s := s.tick dt
  .next (s.mailboxRun false (fun s =>
    (0, revisionText s.runningVersion ++ natLe 8 3072 ++ natLe 8 3072 ++ natLe 8 0 ++ natLe 8 0 ++
      (List.range 4).flatMap (fun i => natLe 2 (Config.eventLogSize i)) ++ natLe 4 0 ++ natLe 3 0 ++ natLe 2 0 ++ natLe 1 0 ++
      natLe 1 0, s)))

/-! ### Logs (R394) -/

/-- The identifier of the Command Effects Log. -/
def effectsUuid : Bytes := natBe 16 0x0DA9C0B5BF414B788F7996B1623B3F17

/-- The opcodes that the mailbox implements. -/
def mailboxOpcodes : List Nat :=
  [0x0100, 0x0101, 0x0102, 0x0103, 0x0200, 0x0201, 0x0202, 0x0300, 0x0301, 0x0400, 0x0401, 0x4000, 0x4300, 0xC000, 0xC001]

/-- The Command Effects Log: an opcode and its effects each. -/
def effectsLog : Bytes := mailboxOpcodes.flatMap (fun o => natLe 2 o ++ natLe 2 (Config.commandEffects o))

/-- GET_SUPPORTED_LOGS (R394): the Command Effects Log alone. -/
def execGetSupportedLogs (dt : Nat) (s : State) : Host.Outcome State Fault Refusal :=
  let s := s.tick dt
  .next (s.mailboxRun false (fun s => (0, natLe 2 1 ++ natLe 6 0 ++ effectsUuid ++ natLe 4 effectsLog.length, s)))

/-- GET_LOG (R394): part of the log that an identifier names. -/
def execGetLog (dt : Nat) (uuid : Bytes) (offset length : Nat) (s : State) : Host.Outcome State Fault Refusal :=
  let s := s.tick dt
  .next (s.mailboxRun false (fun s =>
    if uuid ≠ effectsUuid ∨ effectsLog.length < offset + length then (2, [], s)
    else (0, (effectsLog.drop offset).take length, s)))

/-! ### Events (R384, R395, R397) -/

/-- The timestamp that an event record of an instant carries: 0 while none has been set. -/
def State.stampAt (s : State) (t : Ns) : Nat :=
  if s.mailbox.timestamp = 0 then 0 else (s.mailbox.timestamp + t - s.mailbox.timestampAt) % 2 ^ 64

/-- An event record of 128 bytes: a General Media record with the local offset, or a vendor record with its fault code (R395). -/
def State.eventBytes (s : State) (e : Nat × Nat × Nat × Ns) : Bytes :=
  let (handle, code, address, t) := e
  let uuid := if code = 0 then natBe 16 0xFBCD0A77C260417F85A9088B1621EBA6 else (List.range 16).map Config.vendorEventByte
  let data := if code = 0 then natLe 8 address else natLe 2 code ++ natLe 6 0 ++ natLe 8 address
  uuid ++ natLe 1 128 ++ natLe 3 0 ++ natLe 2 handle ++ natLe 2 0 ++ natLe 8 (s.stampAt t) ++ natLe 16 0 ++ sub data 0 80

/-- The records of one log. -/
def State.eventsOf (s : State) (log : Nat) : List (Nat × Nat × Nat × Ns) :=
  s.mailbox.events.filter (fun (e : Nat × Nat × Nat × Ns) => Config.eventLogOf e.2.1 % 4 = log)

/-- GET_EVENT_RECORDS (R394, R395): the records of a log, oldest first. -/
def execGetEventRecords (dt log : Nat) (s : State) : Host.Outcome State Fault Refusal :=
  let s := s.tick dt
  .next (s.mailboxRun false (fun s =>
    if 4 ≤ log then (2, [], s)
    else
      let l := s.eventsOf log
      (0, natLe 20 0 ++ natLe 2 l.length ++ natLe 10 0 ++ l.flatMap s.eventBytes, s)))

/-- CLEAR_EVENT_RECORDS (R394): all records of a log, or those of some handles. -/
def execClearEventRecords (dt log : Nat) (all : Bool) (handles : List Nat) (s : State) : Host.Outcome State Fault Refusal :=
  let s := s.tick dt
  .next (s.mailboxRun false (fun s =>
    let l := s.eventsOf log
    if 4 ≤ log then (2, [], s)
    else if !all && handles.any (fun h => l.all (fun e => e.1 ≠ h)) then (0x0E, [], s)
    else
      (0, [], { s with mailbox := { s.mailbox with
        events := s.mailbox.events.filter (fun e => !(l.contains e && (all || handles.contains e.1))) } })))

/-- GET_EVENT_INTERRUPT_POLICY (R394). -/
def execGetEventInterruptPolicy (dt : Nat) (s : State) : Host.Outcome State Fault Refusal :=
  let s := s.tick dt
  .next (s.mailboxRun false (fun s => (0, s.mailbox.policy, s)))

/-- SET_EVENT_INTERRUPT_POLICY (R394): one byte for each log, stored. -/
def execSetEventInterruptPolicy (dt : Nat) (policy : Bytes) (s : State) : Host.Outcome State Fault Refusal :=
  let s := s.tick dt
  .next (s.mailboxRun false (fun s =>
    if policy.length ≠ 4 ∧ policy.length ≠ 5 then (0x16, [], s)
    else (0, [], { s with mailbox := { s.mailbox with policy := sub policy 0 5 } })))

/-! ### Poison list and timestamp (R394, R395) -/

/-- Pending and retired pages as host physical addresses, one record of 2 MiB each, among those that a range of local offsets
touches. -/
def State.poisonRecords (s : State) (address length : Nat) : List Bytes :=
  let pages := (s.mem.retired ++ s.mem.pendingPages.filter (fun p => !s.mem.retired.contains p)).foldl
    (fun (l : List Nat) p => insertAsc p l) []
  (pages.filter (fun p => p * 0x200000 < address + length * 64 && address < (p + 1) * 0x200000)).map (fun p =>
    natLe 8 (s.num (objKey 0x2600 1) + p * 0x200000) ++ natLe 4 0x8000 ++ natLe 4 0)

/-- GET_POISON_LIST (R395): over a range of local offsets, its length in units of 64 bytes. -/
def execGetPoisonList (dt address length : Nat) (s : State) : Host.Outcome State Fault Refusal :=
  let s := s.tick dt
  .next (s.mailboxRun false (fun s =>
    let l := s.poisonRecords address length
    (0, natLe 10 0 ++ natLe 2 l.length ++ natLe 20 0 ++ l.flatten, s)))

/-- GET_TIMESTAMP (R394). -/
def execGetTimestamp (dt : Nat) (s : State) : Host.Outcome State Fault Refusal :=
  let s := s.tick dt
  .next (s.mailboxRun false (fun s => (0, natLe 8 (s.stampAt s.now), s)))

/-- SET_TIMESTAMP (R394): stored for the event records; the package time base is not touched. -/
def execSetTimestamp (dt timestamp : Nat) (s : State) : Host.Outcome State Fault Refusal :=
  let s := s.tick dt
  .next (s.mailboxRun false (fun s =>
    (0, [], { s with mailbox := { s.mailbox with timestamp := timestamp % 2 ^ 64, timestampAt := s.now } })))

/-! ### Firmware (R456, R467, R468) -/

/-- GET_FW_INFO (R467): slot 1 is A and slot 2 is B; the running one, the one staged for the next start-up, and their
revisions. -/
def execGetFwInfo (dt : Nat) (s : State) : Host.Outcome State Fault Refusal :=
  let s := s.tick dt
  .next (s.mailboxRun true (fun s =>
    let active := match s.startup.booted with
      | some b => b + 1
      | none => 0
    let staged := if s.startup.trial then s.startup.preferred + 1 else 0
    (0, natLe 1 2 ++ natLe 1 (active + 8 * staged) ++ natLe 14 0 ++ revisionText s.startup.slotA.version ++
      revisionText s.startup.slotB.version ++ natLe 32 0, s)))

/-- Program what a transfer carries, its status as a return code. -/
def State.transfer (s : State) (offset : Nat) (data : Bytes) : Nat × State :=
  match s.programSlot (offset * 128) data with
  | (0, s) => (0, s)
  | (8, s) => (if s.startup.erasing then 6 else 9, s)
  | (_, s) => (2, s)

/-- A full or initiating transfer: the inactive slot is erased, and the data stands once the erase has ended. -/
def State.firstTransfer (s : State) (offset : Nat) (data : Bytes) : Nat × State :=
  match s.eraseSlot with
  | (0x12, t) =>
    match ({ t with startup := { t.startup with erasing := false } } : State).transfer offset data with
    | (0, t) => (1, { t with startup := { t.startup with erasing := true } })
    | (c, _) => (c, s)
  | _ => (6, s)

/-- TRANSFER_FW (R467): action 0 full and 1 initiate erase first; 2 continue, 3 end; 4 abort leaves what has been programmed. The
slot named, 1 or 2, must be the inactive one. -/
def execTransferFw (dt action slot offset : Nat) (data : Bytes) (s : State) : Host.Outcome State Fault Refusal :=
  let s := s.tick dt
  .next (s.mailboxRun true (fun s =>
    if 4 < action then (2, [], s)
    else if action = 4 then (0, [], s)
    else if slot ≠ s.inactiveSlot + 1 then (0x0B, [], s)
    else
      let (c, s) := if action ≤ 1 then s.firstTransfer offset data else s.transfer offset data
      (c, [], s)))

/-- ACTIVATE_FW (R467, R468): action 1, on next cold reset, activates the inactive slot; online activation is unsupported. -/
def execActivateFw (dt action slot : Nat) (s : State) : Host.Outcome State Fault Refusal :=
  let s := s.tick dt
  .next (s.mailboxRun true (fun s =>
    if action ≠ 1 then (3, [], s)
    else if slot ≠ s.inactiveSlot + 1 then (0x0B, [], s)
    else
      let (_, s) := s.activateSlot
      (if s.num slotActionKey = 3 then 0x0A else 0, [], s)))

end Sys2Proof.Machine
end

