-- ==== Sys2Proof/Machine/Spdm.lean ====
section
/-! DEFINITION. The SPDM 1.2 responder (R461, R462). The manual gives what it supports; message layouts and error codes are those of
the DMTF's SPDM 1.2 (PRESUMED, notes/assumptions/49.md). A request's `body` is what follows its first two bytes. -/
namespace Sys2Proof.Machine

/-- A request or response: version 1.2, its code, and what follows. -/
def spdmMessage (code : Nat) (body : Bytes) : Bytes := natLe 1 0x12 ++ natLe 1 code ++ body

/-- ERROR with a code: 1 invalid request, 2 invalid session, 3 busy, 4 unexpected request, 5 unspecified, 6 decrypt error. -/
def spdmError (code : Nat) : Bytes := spdmMessage 0x7F (natLe 1 code ++ natLe 1 0)

def State.spdmSend (s : State) (t : Transport) (b : Bytes) : State := s.emit (.spdm t b)

/-- The connection of a transport: MCTP on I3C, or DOE (R461). -/
def State.conn (s : State) (t : Transport) : SpdmConn := if t = .host then s.spdm.host else s.spdm.board

def State.setConn (s : State) (t : Transport) (c : SpdmConn) : State :=
  { s with spdm := if t = .host then { s.spdm with host := c } else { s.spdm with board := c } }

/-- Requests reach the responder: MCTP while the management domain runs, DOE once configuration requests complete (R453, R458). -/
def State.spdmUp (s : State) (t : Transport) : Bool :=
  match t with
  | .board => s.startup.supplyMgt
  | .host => s.host.dlUp && s.num startupKey ≠ 0
  | .rack => false

/-- GET_VERSION answers 1.2 alone and begins the connection anew. -/
def State.spdmVersion (s : State) (t : Transport) (body : Bytes) : State :=
  let q := natLe 1 0x10 ++ natLe 1 0x84 ++ body
  let r := natLe 1 0x10 ++ natLe 1 0x04 ++ natLe 3 0 ++ natLe 1 1 ++ natLe 2 0x1200
  (s.setConn t { SpdmConn.init with stage := .version, transcriptA := q ++ r }).spdmSend t r

/-- SPDM_GET_VERSION (R461). -/
def execSpdmGetVersion (dt : Nat) (t : Transport) (body : Bytes) (s : State) : Host.Outcome State Fault Refusal :=
  let s := s.tick dt
  if s.spdmUp t then .next (s.spdmVersion t body) else .next s

/-- The capability flags of R461: CERT, CHAL, MEAS with signature, ENCRYPT, MAC, KEY_EX, HBEAT, KEY_UPD. -/
def spdmFlags : Nat := 0x62D6

/-- GET_CAPABILITIES, after GET_VERSION. -/
def State.spdmCapabilities (s : State) (t : Transport) (body : Bytes) : State :=
  let c := s.conn t
  if c.stage ≠ .version then s.spdmSend t (spdmError 4)
  else
    let r := spdmMessage 0x61 (natLe 3 0 ++ natLe 1 17 ++ natLe 2 0 ++ natLe 4 spdmFlags ++ natLe 4 Config.dataTransferSize ++
      natLe 4 Config.dataTransferSize)
    (s.setConn t { c with stage := .capabilities, transcriptA := c.transcriptA ++ spdmMessage 0xE1 body ++ r }).spdmSend t r

/-- SPDM_GET_CAPABILITIES (R461). -/
def execSpdmGetCapabilities (dt : Nat) (t : Transport) (body : Bytes) (s : State) : Host.Outcome State Fault Refusal :=
  let s := s.tick dt
  if s.spdmUp t then .next (s.spdmCapabilities t body) else .next s

/-- What the device selects from an offered algorithm structure: type 2 key exchange secp384r1, 3 AES-256-GCM, 5 the SPDM key
schedule; of any other type nothing (R461). -/
def algSelect (type offered : Nat) : Nat :=
  match type with
  | 2 => offered &&& 0x10
  | 3 => offered &&& 0x02
  | 5 => offered &&& 0x01
  | _ => 0

/-- The structures that answer those of a request whose first one lies at byte i of the body. -/
def algAnswers (body : Bytes) (i : Nat) : Nat → Bytes
  | 0 => []
  | n + 1 =>
    natLe 1 (fieldLe body i 1) ++ natLe 1 0x20 ++ natLe 2 (algSelect (fieldLe body i 1) (fieldLe body (i + 2) 2)) ++
      algAnswers body (i + 4) n

/-- NEGOTIATE_ALGORITHMS, after GET_CAPABILITIES: Ed25519 and SHA-512, or nothing (R461). -/
def State.spdmAlgorithms (s : State) (t : Transport) (body : Bytes) : State :=
  let c := s.conn t
  if c.stage ≠ .capabilities then s.spdmSend t (spdmError 4)
  else
    let n := fieldLe body 0 1
    let asym := fieldLe body 6 4 &&& 0x200
    let hash := fieldLe body 10 4 &&& 0x04
    if asym = 0 ∨ hash = 0 then s.spdmSend t (spdmError 1)
    else
      let structures := algAnswers body (30 + 4 * (fieldLe body 26 1 + fieldLe body 27 1)) n
      let r := spdmMessage 0x63 (natLe 1 n ++ natLe 1 0 ++ natLe 2 (36 + 4 * n) ++ natLe 1 (fieldLe body 4 1 &&& 1) ++ natLe 1 0 ++
        natLe 4 0x08 ++ natLe 4 asym ++ natLe 4 hash ++ natLe 16 0 ++ structures)
      (s.setConn t { c with stage := .algorithms, transcriptA := c.transcriptA ++ spdmMessage 0xE3 body ++ r }).spdmSend t r

/-- SPDM_NEGOTIATE_ALGORITHMS (R461). -/
def execSpdmNegotiateAlgorithms (dt : Nat) (t : Transport) (body : Bytes) (s : State) : Host.Outcome State Fault Refusal :=
  let s := s.tick dt
  if s.spdmUp t then .next (s.spdmAlgorithms t body) else .next s

/-! ### Certificates (R460, R461) -/

/-- Bytes of the first DER structure. -/
def derLength (b : Bytes) : Nat :=
  match fieldLe b 1 1 with
  | 0x81 => 3 + beNat (sub b 2 1)
  | 0x82 => 4 + beNat (sub b 2 2)
  | n => 2 + n

/-- The chain as SPDM carries it: length, the root's hash, the certificates. -/
def spdmChain : Bytes :=
  let c := Config.certChain
  natLe 2 (68 + c.length) ++ natLe 2 0 ++ sha512 (c.take (derLength c)) ++ c

/-- An answer to a request that needs the chain: without one it fails (R460), and before the algorithms it is unexpected. -/
def State.withChain (s : State) (t : Transport) (k : SpdmConn → State) : State :=
  let c := s.conn t
  if c.stage ≠ .algorithms then s.spdmSend t (spdmError 4)
  else if !s.startup.chainValid then s.spdmSend t (spdmError 5)
  else k c

/-- Answer a certificate request, entered in the transcript. -/
def State.answerB (s : State) (t : Transport) (c : SpdmConn) (q r : Bytes) : State :=
  (s.setConn t { c with transcriptB := c.transcriptB ++ q ++ r }).spdmSend t r

/-- SPDM_GET_DIGESTS (R461): slot 0's digest. -/
def execSpdmGetDigests (dt : Nat) (t : Transport) (body : Bytes) (s : State) : Host.Outcome State Fault Refusal :=
  let s := s.tick dt
  if s.spdmUp t then
    .next (s.withChain t (fun c =>
      s.answerB t c (spdmMessage 0x81 body) (spdmMessage 0x01 (natLe 1 0 ++ natLe 1 1 ++ sha512 spdmChain))))
  else .next s

/-- SPDM_GET_CERTIFICATE (R460, R461): part of the chain of slot 0. -/
def execSpdmGetCertificate (dt : Nat) (t : Transport) (body : Bytes) (s : State) : Host.Outcome State Fault Refusal :=
  let s := s.tick dt
  if !s.spdmUp t then .next s
  else .next (s.withChain t (fun c =>
    let o := fieldLe body 2 2
    if fieldLe body 0 1 ≠ 0 ∨ spdmChain.length ≤ o then s.spdmSend t (spdmError 1)
    else
      let part := (spdmChain.drop o).take (fieldLe body 4 2)
      s.answerB t c (spdmMessage 0x82 body) (spdmMessage 0x02 (natLe 2 0 ++ natLe 2 part.length ++
        natLe 2 (spdmChain.length - o - part.length) ++ part))))

/-! ### Measurements and signatures (R459, R462) -/

/-- Block 4: the device's mode as it stands. A fallback is one of R466 or of R468 (notes/assumptions/95.md). -/
def State.modeBits (s : State) : Nat :=
  (if s.flag (objKey 0x2401 1) then 1 else 0) + (if s.tenancy ≠ 0 then 2 else 0) + (if s.flag (objKey 0x4005 1) then 4 else 0) +
  (if s.startup.booted = some (1 - s.startup.preferred) || s.startup.cause = 2 then 8 else 0)

/-- The DMTF value type of a block: 0 immutable ROM, 1 firmware, 0x86 firmware version (raw), 0x85 device mode (raw). -/
def blockType (i : Nat) : Nat :=
  match i with
  | 1 => 0x00
  | 2 => 0x01
  | 3 => 0x86
  | _ => 0x85

/-- Blocks 1 to 3 as taken at start-up, and block 4 taken afresh. -/
def State.measured (s : State) : List (Nat × Bytes) :=
  ((List.range s.startup.measurements.length).map (fun i => (i + 1, s.startup.measurements.getD i []))) ++ [(4, natLe 4 s.modeBits)]

/-- A measurement block of the DMTF format. -/
def measurementBlock (i : Nat) (v : Bytes) : Bytes :=
  natLe 1 i ++ natLe 1 1 ++ natLe 2 (v.length + 3) ++ natLe 1 (blockType i) ++ natLe 2 v.length ++ v

def blocksOf (l : List (Nat × Bytes)) : Bytes := l.flatMap (fun (x : Nat × Bytes) => measurementBlock x.1 x.2)

/-- Sign a transcript as a responder in a context. -/
def spdmSign (context : String) (transcript : Bytes) : Bytes :=
  let c := ascii context
  let v := ascii "dmtf-spdm-v1.2.*"
  edSign Config.identitySeed (v ++ v ++ v ++ v ++ List.replicate (36 - c.length) 0 ++ c ++ sha512 transcript)

/-- The digest over every block, when a request asks for one. -/
def State.summary (s : State) (type : Nat) : Bytes := if type = 0 then [] else sha512 (blocksOf s.measured)

/-- SPDM_CHALLENGE (R461): the identity key signs the connection's transcript. -/
def execSpdmChallenge (dt : Nat) (t : Transport) (body : Bytes) (s : State) : Host.Outcome State Fault Refusal :=
  let s := s.tick dt
  if !s.spdmUp t then .next s
  else .next (s.withChain t (fun c =>
    if fieldLe body 0 1 ≠ 0 then s.spdmSend t (spdmError 1)
    else
      let (nonce, s) := s.drawNonce
      let r := spdmMessage 0x03 (natLe 1 0 ++ natLe 1 1 ++ sha512 spdmChain ++ nonce ++ s.summary (fieldLe body 1 1) ++ natLe 2 0)
      let sig := spdmSign "responder-challenge_auth signing" (c.transcriptA ++ c.transcriptB ++ spdmMessage 0x83 body ++ r)
      (s.setConn t { c with transcriptB := [] }).spdmSend t (r ++ sig)))

/-- The blocks that an operation names: 0 none, 0xFF all, else the one of that index. -/
def State.named (s : State) (op : Nat) : List (Nat × Bytes) :=
  if op = 0 then [] else if op = 0xFF then s.measured else s.measured.filter (fun (x : Nat × Bytes) => x.1 = op)

/-- The measurement answer (R462), signed when bit 0 of the request asks for it. -/
def State.spdmMeasure (s : State) (t : Transport) (body : Bytes) : State :=
  let c := s.conn t
  let op := fieldLe body 1 1
  let l := s.named op
  if c.stage ≠ .algorithms then s.spdmSend t (spdmError 4)
  else if l = [] ∧ op ≠ 0 then s.spdmSend t (spdmError 1)
  else
    let (nonce, s) := s.drawNonce
    let record := blocksOf l
    let r := spdmMessage 0x60 (natLe 1 (if op = 0 then s.measured.length else 0) ++ natLe 1 0 ++ natLe 1 l.length ++
      natLe 3 record.length ++ record ++ nonce ++ natLe 2 0)
    let transcript := c.transcriptL ++ spdmMessage 0xE0 body ++ r
    if bit (fieldLe body 0 1) 0 then
      (s.setConn t { c with transcriptL := [] }).spdmSend t
        (r ++ spdmSign "responder-measurements signing" (c.transcriptA ++ transcript))
    else (s.setConn t { c with transcriptL := transcript }).spdmSend t r

/-- SPDM_GET_MEASUREMENTS (R461, R462). -/
def execSpdmGetMeasurements (dt : Nat) (t : Transport) (body : Bytes) (s : State) : Host.Outcome State Fault Refusal :=
  let s := s.tick dt
  if s.spdmUp t then .next (s.spdmMeasure t body) else .next s

/-! ### Secure sessions (R461) -/

/-- 64 bytes of HMAC under the keys of the n-th exchange. -/
def spdmMac (n : Nat) (transcript : Bytes) : Bytes := (List.range 64).map (Config.macByte n transcript)

/-- A session number not in use, from 1. -/
def State.freeSession (s : State) : Nat :=
  ((rangeFrom 1 4).find? (fun k => s.spdm.sessions.all (fun x => x.id / 65536 ≠ k))).getD 0

/-- SPDM_KEY_EXCHANGE (R461): a session begins; with four in use the answer is Busy. -/
def execSpdmKeyExchange (dt : Nat) (t : Transport) (body : Bytes) (s : State) : Host.Outcome State Fault Refusal :=
  let s := s.tick dt
  if !s.spdmUp t then .next s
  else .next (s.withChain t (fun c =>
    if fieldLe body 1 1 ≠ 0 then s.spdmSend t (spdmError 1)
    else if 4 ≤ s.spdm.sessions.length then s.spdmSend t (spdmError 3)
    else
      let k := s.freeSession
      let n := s.net.draws
      let (nonce, s) := s.drawNonce
      let r := spdmMessage 0x64 (natLe 1 Config.heartbeatPeriod ++ natLe 1 0 ++ natLe 2 k ++ natLe 2 0 ++ nonce ++
        (List.range 96).map (Config.dheByte n) ++ s.summary (fieldLe body 0 1) ++ natLe 2 0)
      let th := c.transcriptA ++ sha512 spdmChain ++ spdmMessage 0xE4 body ++ r
      let r := r ++ spdmSign "responder-key_exchange_rsp signing" th
      let th := th ++ r.drop (r.length - 64)
      let x : SpdmSession := { id := k * 65536 + fieldLe body 2 2, transport := t, established := false, transcript := th,
                               keyUpdates := 0, exchange := n }
      ({ s with spdm := { s.spdm with sessions := s.spdm.sessions ++ [x] } } : State).spdmSend t (r ++ spdmMac n th)))

/-- A session of a transport. -/
def State.spdmSession? (s : State) (t : Transport) (id : Nat) : Option SpdmSession :=
  s.spdm.sessions.find? (fun x => x.id = id && x.transport = t)

def State.setSpdmSession (s : State) (x : SpdmSession) : State :=
  { s with spdm := { s.spdm with sessions := mapIf (fun (y : SpdmSession) => y.id = x.id) (fun _ => x) s.spdm.sessions } }

def State.endSpdmSession (s : State) (id : Nat) : State :=
  { s with spdm := { s.spdm with sessions := s.spdm.sessions.filter (fun x => x.id ≠ id) } }

/-- SPDM_FINISH (R461): the requester's proof completes the handshake; a wrong one ends it. -/
def execSpdmFinish (dt : Nat) (t : Transport) (session : Nat) (body : Bytes) (s : State) : Host.Outcome State Fault Refusal :=
  let s := s.tick dt
  if !s.spdmUp t then .next s
  else
    match s.spdmSession? t session with
    | none => .next (s.spdmSend t (spdmError 2))
    | some x =>
      let q := spdmMessage 0xE5 (sub body 0 2)
      if x.established then .next (s.spdmSend t (spdmError 4))
      else if sub body 2 64 = spdmMac x.exchange (x.transcript ++ q) then
        .next ((s.setSpdmSession { x with established := true, transcript := [] }).spdmSend t (spdmMessage 0x65 (natLe 2 0)))
      else .next ((s.endSpdmSession session).spdmSend t (spdmError 6))

/-- A request inside an established session. -/
def State.inSession (s : State) (t : Transport) (session : Nat) (k : SpdmSession → State) : State :=
  match s.spdmSession? t session with
  | none => s.spdmSend t (spdmError 2)
  | some x => if x.established then k x else s.spdmSend t (spdmError 4)

/-- SPDM_HEARTBEAT (R461). -/
def execSpdmHeartbeat (dt : Nat) (t : Transport) (session : Nat) (s : State) : Host.Outcome State Fault Refusal :=
  let s := s.tick dt
  if s.spdmUp t then .next (s.inSession t session (fun _ => s.spdmSend t (spdmMessage 0x68 (natLe 2 0)))) else .next s

/-- SPDM_KEY_UPDATE (R461): operation 1 updates the requester's keys, 2 those of both sides, 3 verifies the new ones. -/
def execSpdmKeyUpdate (dt : Nat) (t : Transport) (session op tag : Nat) (s : State) : Host.Outcome State Fault Refusal :=
  let s := s.tick dt
  if !s.spdmUp t then .next s
  else .next (s.inSession t session (fun x =>
    if op < 1 ∨ 3 < op then s.spdmSend t (spdmError 1)
    else
      (s.setSpdmSession { x with keyUpdates := x.keyUpdates + (if op = 3 then 0 else 1) }).spdmSend t
        (spdmMessage 0x69 (natLe 1 op ++ natLe 1 tag))))

/-- SPDM_END_SESSION (R461). -/
def execSpdmEndSession (dt : Nat) (t : Transport) (session : Nat) (s : State) : Host.Outcome State Fault Refusal :=
  let s := s.tick dt
  if s.spdmUp t then
    .next (s.inSession t session (fun _ => (s.endSpdmSession session).spdmSend t (spdmMessage 0x6C (natLe 2 0))))
  else .next s

end Sys2Proof.Machine
end

