-- ==== Sys2Proof/Machine/Dispatch.lean ====
section
/-! DEFINITION. The one table from commands to their meanings, in the order of spec/opcode_table.json. -/
namespace Sys2Proof.Machine

def exec (i : Instr) (s : State) : Host.Outcome State Fault Refusal :=
  match i with
  | .suppliesValid dt => Sys2Proof.Machine.execSuppliesValid dt s
  | .startupStageComplete dt outcome => Sys2Proof.Machine.execStartupStageComplete dt outcome s
  | .startupUsable dt => Sys2Proof.Machine.execStartupUsable dt s
  | .trialTimeout dt => Sys2Proof.Machine.execTrialTimeout dt s
  | .supplyLoss dt main => Sys2Proof.Machine.execSupplyLoss dt main s
  | .vmgtLoss dt => Sys2Proof.Machine.execVmgtLoss dt s
  | .supplyOutOfRange dt absolute => Sys2Proof.Machine.execSupplyOutOfRange dt absolute s
  | .supplyRestored dt within => Sys2Proof.Machine.execSupplyRestored dt within s
  | .perstDeassert dt => Sys2Proof.Machine.execPerstDeassert dt s
  | .restart dt arg request => Sys2Proof.Machine.execRestart dt arg request s
  | .objectRead dt request => Sys2Proof.Machine.execObjectRead dt request s
  | .objectWrite dt request => Sys2Proof.Machine.execObjectWrite dt request s
  | .objectDescribe dt request => Sys2Proof.Machine.execObjectDescribe dt request s
  | .objectEnumerate dt request => Sys2Proof.Machine.execObjectEnumerate dt request s
  | .segmentRead dt request => Sys2Proof.Machine.execSegmentRead dt request s
  | .segmentWrite dt request => Sys2Proof.Machine.execSegmentWrite dt request s
  | .sessionOpen dt request => Sys2Proof.Machine.execSessionOpen dt request s
  | .sessionProve dt request => Sys2Proof.Machine.execSessionProve dt request s
  | .sessionClose dt request => Sys2Proof.Machine.execSessionClose dt request s
  | .sessionIdleTimeout dt session => Sys2Proof.Machine.execSessionIdleTimeout dt session s
  | .foreignFrameDiscard arrival => Sys2Proof.Machine.execForeignFrameDiscard arrival s
  | .plcaChangeApply dt => Sys2Proof.Machine.execPlcaChangeApply dt s
  | .rackKeyWrite dt slot key request => Sys2Proof.Machine.execRackKeyWrite dt slot key request s
  | .i3cEntdaa dt address => Sys2Proof.Machine.execI3cEntdaa dt address s
  | .restoreDefaults dt arg request => Sys2Proof.Machine.execRestoreDefaults dt arg request s
  | .coreClockSet dt core mhz request => Sys2Proof.Machine.execCoreClockSet dt core mhz request s
  | .voltageSettled dt cluster => Sys2Proof.Machine.execVoltageSettled dt cluster s
  | .clockChangeApply dt core => Sys2Proof.Machine.execClockChangeApply dt core s
  | .clockRelockDone dt core => Sys2Proof.Machine.execClockRelockDone dt core s
  | .tenancyStart dt owner request => Sys2Proof.Machine.execTenancyStart dt owner request s
  | .tenancyEnd dt arg request => Sys2Proof.Machine.execTenancyEnd dt arg request s
  | .tenancyEndDrained dt => Sys2Proof.Machine.execTenancyEndDrained dt s
  | .tenancyEndComplete dt => Sys2Proof.Machine.execTenancyEndComplete dt s
  | .jobOpen dt job arg request => Sys2Proof.Machine.execJobOpen dt job arg request s
  | .jobClose dt job arg request => Sys2Proof.Machine.execJobClose dt job arg request s
  | .jobCloseComplete dt job => Sys2Proof.Machine.execJobCloseComplete dt job s
  | .accountingSnapshot dt account request => Sys2Proof.Machine.execAccountingSnapshot dt account request s
  | .epochsStart dt running request => Sys2Proof.Machine.execEpochsStart dt running request s
  | .boundaryCommit dt => Sys2Proof.Machine.execBoundaryCommit dt s
  | .syncInEdge dt => Sys2Proof.Machine.execSyncInEdge dt s
  | .windowDecide dt => Sys2Proof.Machine.execWindowDecide dt s
  | .epochBoundary dt => Sys2Proof.Machine.execEpochBoundary dt s
  | .applyTableStart dt unit table => Sys2Proof.Machine.execApplyTableStart dt unit table s
  | .applyRow dt unit => Sys2Proof.Machine.execApplyRow dt unit s
  | .applyBudgetExpire dt unit table => Sys2Proof.Machine.execApplyBudgetExpire dt unit table s
  | .slotRelease dt table => Sys2Proof.Machine.execSlotRelease dt table s
  | .refreshSlotReceive dt table row tier slot => Sys2Proof.Machine.execRefreshSlotReceive dt table row tier slot s
  | .refreshMarkerReceive dt table chip unit => Sys2Proof.Machine.execRefreshMarkerReceive dt table chip unit s
  | .timeMessageReceive dt port t2 t3 => Sys2Proof.Machine.execTimeMessageReceive dt port t2 t3 s
  | .alignmentLoss dt => Sys2Proof.Machine.execAlignmentLoss dt s
  | .tableCreate dt engine => Sys2Proof.Machine.execTableCreate dt engine s
  | .tableInitComplete dt table => Sys2Proof.Machine.execTableInitComplete dt table s
  | .tableDestroy dt engine => Sys2Proof.Machine.execTableDestroy dt engine s
  | .tableDestroyComplete dt table => Sys2Proof.Machine.execTableDestroyComplete dt table s
  | .tableLoad dt engine => Sys2Proof.Machine.execTableLoad dt engine s
  | .tableRead dt engine => Sys2Proof.Machine.execTableRead dt engine s
  | .tableSwap dt engine => Sys2Proof.Machine.execTableSwap dt engine s
  | .tableReplicate dt engine => Sys2Proof.Machine.execTableReplicate dt engine s
  | .tablePin dt engine => Sys2Proof.Machine.execTablePin dt engine s
  | .epochFence dt engine => Sys2Proof.Machine.execEpochFence dt engine s
  | .epochRead dt engine => Sys2Proof.Machine.execEpochRead dt engine s
  | .tableSnapshot dt table request => Sys2Proof.Machine.execTableSnapshot dt table request s
  | .lookup dt command => Sys2Proof.Machine.execLookup dt command s
  | .shardedLookup dt command => Sys2Proof.Machine.execShardedLookup dt command s
  | .rowReadReturn dt command read => Sys2Proof.Machine.execRowReadReturn dt command read s
  | .requestSliceArrive dt channel slice => Sys2Proof.Machine.execRequestSliceArrive dt channel slice s
  | .returnSliceArrive dt channel slice => Sys2Proof.Machine.execReturnSliceArrive dt channel slice s
  | .exchangeTimeout dt command => Sys2Proof.Machine.execExchangeTimeout dt command s
  | .gradientPush dt unit => Sys2Proof.Machine.execGradientPush dt unit s
  | .contributionFold dt unit => Sys2Proof.Machine.execContributionFold dt unit s
  | .updateExchange dt unit => Sys2Proof.Machine.execUpdateExchange dt unit s
  | .updateSliceArrive dt channel slice => Sys2Proof.Machine.execUpdateSliceArrive dt channel slice s
  | .updateExchangeTimeout dt unit => Sys2Proof.Machine.execUpdateExchangeTimeout dt unit s
  | .trainConfigure dt unit => Sys2Proof.Machine.execTrainConfigure dt unit s
  | .matrixMultiply dt core stalls parity => Sys2Proof.Machine.execMatrixMultiply dt core stalls parity s
  | .matrixCapture dt turn => Sys2Proof.Machine.execMatrixCapture dt turn s
  | .weightBankRead dt turn => Sys2Proof.Machine.execWeightBankRead dt turn s
  | .vectorRun dt core => Sys2Proof.Machine.execVectorRun dt core s
  | .laneProgramRun dt core => Sys2Proof.Machine.execLaneProgramRun dt core s
  | .laneProgramLoad dt core => Sys2Proof.Machine.execLaneProgramLoad dt core s
  | .vectorGroup dt core holds parity => Sys2Proof.Machine.execVectorGroup dt core holds parity s
  | .streamArm dt core => Sys2Proof.Machine.execStreamArm dt core s
  | .streamRegulate dt core => Sys2Proof.Machine.execStreamRegulate dt core s
  | .streamTile dt core slot => Sys2Proof.Machine.execStreamTile dt core slot s
  | .streamRequestIssue dt core slot => Sys2Proof.Machine.execStreamRequestIssue dt core slot s
  | .streamWritePerformed dt core slot tile number parity => Sys2Proof.Machine.execStreamWritePerformed dt core slot tile number parity s
  | .queueEnable dt queue value => Sys2Proof.Machine.execQueueEnable dt queue value s
  | .queueDisable dt queue value => Sys2Proof.Machine.execQueueDisable dt queue value s
  | .registerWrite dt offset value width => Sys2Proof.Machine.execRegisterWrite dt offset value width s
  | .doorbell dt queue value whole => Sys2Proof.Machine.execDoorbell dt queue value whole s
  | .slotFetch dt queue => Sys2Proof.Machine.execSlotFetch dt queue s
  | .slotReread dt queue => Sys2Proof.Machine.execSlotReread dt queue s
  | .commandFetch dt queue => Sys2Proof.Machine.execCommandFetch dt queue s
  | .commandStart dt kind num => Sys2Proof.Machine.execCommandStart dt kind num s
  | .commandComplete dt command => Sys2Proof.Machine.execCommandComplete dt command s
  | .launchComplete dt queue => Sys2Proof.Machine.execLaunchComplete dt queue s
  | .queueDrainDone dt queue => Sys2Proof.Machine.execQueueDrainDone dt queue s
  | .noOp dt command => Sys2Proof.Machine.execNoOp dt command s
  | .fenceSignal dt command => Sys2Proof.Machine.execFenceSignal dt command s
  | .fenceWait dt command => Sys2Proof.Machine.execFenceWait dt command s
  | .fenceWaitTimeout dt command => Sys2Proof.Machine.execFenceWaitTimeout dt command s
  | .tagInvalidate dt command => Sys2Proof.Machine.execTagInvalidate dt command s
  | .hostFence dt command => Sys2Proof.Machine.execHostFence dt command s
  | .barrier dt command => Sys2Proof.Machine.execBarrier dt command s
  | .fenceValueWrite dt fence value whole => Sys2Proof.Machine.execFenceValueWrite dt fence value whole s
  | .queueSnapshot dt queue request => Sys2Proof.Machine.execQueueSnapshot dt queue request s
  | .floorIntervalEnd dt kind num => Sys2Proof.Machine.execFloorIntervalEnd dt kind num s
  | .watchdogExpiry dt command => Sys2Proof.Machine.execWatchdogExpiry dt command s
  | .recoveryComplete dt failed => Sys2Proof.Machine.execRecoveryComplete dt failed s
  | .trnInval dt value => Sys2Proof.Machine.execTrnInval dt value s
  | .trnInvalOverrunClear dt tag => Sys2Proof.Machine.execTrnInvalOverrunClear dt tag s
  | .invalidateTag dt tag request => Sys2Proof.Machine.execInvalidateTag dt tag request s
  | .invalidationComplete dt tag => Sys2Proof.Machine.execInvalidationComplete dt tag s
  | .walkComplete dt cluster tag page => Sys2Proof.Machine.execWalkComplete dt cluster tag page s
  | .trnResume dt value => Sys2Proof.Machine.execTrnResume dt value s
  | .migrationGo dt value => Sys2Proof.Machine.execMigrationGo dt value s
  | .migrationComplete dt => Sys2Proof.Machine.execMigrationComplete dt s
  | .scrubStep dt stack finding => Sys2Proof.Machine.execScrubStep dt stack finding s
  | .retireNow dt page request => Sys2Proof.Machine.execRetireNow dt page request s
  | .stackTempSample dt stack temp => Sys2Proof.Machine.execStackTempSample dt stack temp s
  | .sramScrub dt address struck => Sys2Proof.Machine.execSramScrub dt address struck s
  | .recorderStart dt => Sys2Proof.Machine.execRecorderStart dt s
  | .digestRegionRead dt group => Sys2Proof.Machine.execDigestRegionRead dt group s
  | .digestMessageReceive dt group index => Sys2Proof.Machine.execDigestMessageReceive dt group index s
  | .digestTimeout dt group => Sys2Proof.Machine.execDigestTimeout dt group s
  | .verifyDigest dt pair => Sys2Proof.Machine.execVerifyDigest dt pair s
  | .verifyValueReceive dt pair seq => Sys2Proof.Machine.execVerifyValueReceive dt pair seq s
  | .verifyTimeout dt pair => Sys2Proof.Machine.execVerifyTimeout dt pair s
  | .declareWindow dt code request => Sys2Proof.Machine.execDeclareWindow dt code request s
  | .testDeferralExpire dt code => Sys2Proof.Machine.execTestDeferralExpire dt code s
  | .iftStart dt code => Sys2Proof.Machine.execIftStart dt code s
  | .iftComplete dt code runs => Sys2Proof.Machine.execIftComplete dt code runs s
  | .clearSuspicion dt arg request => Sys2Proof.Machine.execClearSuspicion dt arg request s
  | .powerSample dt mv mgt vio current => Sys2Proof.Machine.execPowerSample dt mv mgt vio current s
  | .fennelGrant dt die => Sys2Proof.Machine.execFennelGrant dt die s
  | .engineClockGate dt kind num => Sys2Proof.Machine.execEngineClockGate dt kind num s
  | .logicTempSample dt cluster temp => Sys2Proof.Machine.execLogicTempSample dt cluster temp s
  | .coolantReport dt flow value request => Sys2Proof.Machine.execCoolantReport dt flow value request s
  | .coolantReportStale dt => Sys2Proof.Machine.execCoolantReportStale dt s
  | .coolantCapRelease dt => Sys2Proof.Machine.execCoolantCapRelease dt s
  | .ucieRetryExhausted dt number counts retries => Sys2Proof.Machine.execUcieRetryExhausted dt number counts retries s
  | .varxLinkUp dt port => Sys2Proof.Machine.execVarxLinkUp dt port s
  | .varxLinkDown dt port lockLost => Sys2Proof.Machine.execVarxLinkDown dt port lockLost s
  | .varxRetrain dt port trained => Sys2Proof.Machine.execVarxRetrain dt port trained s
  | .sequencedFrameReceive dt port corrected uncorrectable frame => Sys2Proof.Machine.execSequencedFrameReceive dt port corrected uncorrectable frame s
  | .acknowledgeReceive dt port kind value => Sys2Proof.Machine.execAcknowledgeReceive dt port kind value s
  | .creditReceive dt port dest source channel number index => Sys2Proof.Machine.execCreditReceive dt port dest source channel number index s
  | .beaconTimer dt port => Sys2Proof.Machine.execBeaconTimer dt port s
  | .beaconReceive dt port serial partnerPort candidate hops settled coords shape present => Sys2Proof.Machine.execBeaconReceive dt port serial partnerPort candidate hops settled coords shape present s
  | .discoveryReport dt port chip serial => Sys2Proof.Machine.execDiscoveryReport dt port chip serial s
  | .reportResend dt => Sys2Proof.Machine.execReportResend dt s
  | .rootLossTimeout dt => Sys2Proof.Machine.execRootLossTimeout dt s
  | .remoteRequestReceive dt source request owner write offset length data => Sys2Proof.Machine.execRemoteRequestReceive dt source request owner write offset length data s
  | .remoteResponseReceive dt request status data => Sys2Proof.Machine.execRemoteResponseReceive dt request status data s
  | .remoteRequestTimeout dt request => Sys2Proof.Machine.execRemoteRequestTimeout dt request s
  | .allReduce dt command => Sys2Proof.Machine.execAllReduce dt command s
  | .reduceScatter dt command => Sys2Proof.Machine.execReduceScatter dt command s
  | .allGather dt command => Sys2Proof.Machine.execAllGather dt command s
  | .channelAcquire dt channel => Sys2Proof.Machine.execChannelAcquire dt channel s
  | .channelWaitTimeout dt channel owner => Sys2Proof.Machine.execChannelWaitTimeout dt channel owner s
  | .collectiveChunk dt command => Sys2Proof.Machine.execCollectiveChunk dt command s
  | .collectiveDataReceive dt port channel number format elements axes phase segment chunk data => Sys2Proof.Machine.execCollectiveDataReceive dt port channel number format elements axes phase segment chunk data s
  | .collectiveTimeout dt command => Sys2Proof.Machine.execCollectiveTimeout dt command s
  | .hostLinkUp dt width rate => Sys2Proof.Machine.execHostLinkUp dt width rate s
  | .hostLinkLoss dt perst => Sys2Proof.Machine.execHostLinkLoss dt perst s
  | .linkRecovery dt replays => Sys2Proof.Machine.execLinkRecovery dt replays s
  | .hdmCommit dt base => Sys2Proof.Machine.execHdmCommit dt base s
  | .hostAttach dt => Sys2Proof.Machine.execHostAttach dt s
  | .hostClearLog dt => Sys2Proof.Machine.execHostClearLog dt s
  | .hostMemRead dt address length => Sys2Proof.Machine.execHostMemRead dt address length s
  | .hostMemWrite dt address data uio => Sys2Proof.Machine.execHostMemWrite dt address data uio s
  | .peerMemRequest dt address => Sys2Proof.Machine.execPeerMemRequest dt address s
  | .hostReadData dt read error data => Sys2Proof.Machine.execHostReadData dt read error data s
  | .hostGoReceive dt number error => Sys2Proof.Machine.execHostGoReceive dt number error s
  | .hostSnoop dt address => Sys2Proof.Machine.execHostSnoop dt address s
  | .vectorSend dt vector => Sys2Proof.Machine.execVectorSend dt vector s
  | .mailboxDictionaryRequest dt medium store payload => Sys2Proof.Machine.execMailboxDictionaryRequest dt medium store payload s
  | .mailboxActionStatus dt index sub => Sys2Proof.Machine.execMailboxActionStatus dt index sub s
  | .identifyMemoryDevice dt => Sys2Proof.Machine.execIdentifyMemoryDevice dt s
  | .getSupportedLogs dt => Sys2Proof.Machine.execGetSupportedLogs dt s
  | .getLog dt uuid offset length => Sys2Proof.Machine.execGetLog dt uuid offset length s
  | .getEventRecords dt log => Sys2Proof.Machine.execGetEventRecords dt log s
  | .clearEventRecords dt log all handles => Sys2Proof.Machine.execClearEventRecords dt log all handles s
  | .getEventInterruptPolicy dt => Sys2Proof.Machine.execGetEventInterruptPolicy dt s
  | .setEventInterruptPolicy dt policy => Sys2Proof.Machine.execSetEventInterruptPolicy dt policy s
  | .getPoisonList dt address length => Sys2Proof.Machine.execGetPoisonList dt address length s
  | .getTimestamp dt => Sys2Proof.Machine.execGetTimestamp dt s
  | .setTimestamp dt timestamp => Sys2Proof.Machine.execSetTimestamp dt timestamp s
  | .getFwInfo dt => Sys2Proof.Machine.execGetFwInfo dt s
  | .transferFw dt action slot offset data => Sys2Proof.Machine.execTransferFw dt action slot offset data s
  | .activateFw dt action slot => Sys2Proof.Machine.execActivateFw dt action slot s
  | .slotErase dt request => Sys2Proof.Machine.execSlotErase dt request s
  | .slotEraseComplete dt => Sys2Proof.Machine.execSlotEraseComplete dt s
  | .slotActivate dt request => Sys2Proof.Machine.execSlotActivate dt request s
  | .commitSecurityVersion dt version request => Sys2Proof.Machine.execCommitSecurityVersion dt version request s
  | .spdmGetVersion dt transport body => Sys2Proof.Machine.execSpdmGetVersion dt transport body s
  | .spdmGetCapabilities dt transport body => Sys2Proof.Machine.execSpdmGetCapabilities dt transport body s
  | .spdmNegotiateAlgorithms dt transport body => Sys2Proof.Machine.execSpdmNegotiateAlgorithms dt transport body s
  | .spdmGetDigests dt transport body => Sys2Proof.Machine.execSpdmGetDigests dt transport body s
  | .spdmGetCertificate dt transport body => Sys2Proof.Machine.execSpdmGetCertificate dt transport body s
  | .spdmChallenge dt transport body => Sys2Proof.Machine.execSpdmChallenge dt transport body s
  | .spdmGetMeasurements dt transport body => Sys2Proof.Machine.execSpdmGetMeasurements dt transport body s
  | .spdmKeyExchange dt transport body => Sys2Proof.Machine.execSpdmKeyExchange dt transport body s
  | .spdmFinish dt transport session body => Sys2Proof.Machine.execSpdmFinish dt transport session body s
  | .spdmHeartbeat dt transport session => Sys2Proof.Machine.execSpdmHeartbeat dt transport session s
  | .spdmKeyUpdate dt transport session op tag => Sys2Proof.Machine.execSpdmKeyUpdate dt transport session op tag s
  | .spdmEndSession dt transport session => Sys2Proof.Machine.execSpdmEndSession dt transport session s
  | .vmgtValid dt => Sys2Proof.Machine.execVmgtValid dt s
  | .regulatorsSwitchOn dt => Sys2Proof.Machine.execRegulatorsSwitchOn dt s
  | .configurationRequest dt field write value => Sys2Proof.Machine.execConfigurationRequest dt field write value s
  | .ideKmMessage dt session stream step => Sys2Proof.Machine.execIdeKmMessage dt session stream step s
  | .syncOutPulseEnd dt => Sys2Proof.Machine.execSyncOutPulseEnd dt s
  | .timeMessageSend dt => Sys2Proof.Machine.execTimeMessageSend dt s

end Sys2Proof.Machine
end

