-- ==== Sys2Proof/Safety.lean ====
section
/-! DEFINITION. What a safe run is, in the terms the statements use: memory keeps its one form, the queue of waiting commands is left alone,
and what only ever goes forward does. -/
namespace Sys2Proof.Machine

/-- From `s` to `t`: the waiting commands are the same (a command's effect is on everything but the queue), what the package has
sent stays sent, no free value and no nonce is drawn twice, the fused minimum security version never falls (R469), and memory
keeps its canonical form. -/
structure Keeps (s t : State) : Prop where
  pending : t.pending = s.pending
  out : s.out <+: t.out
  free : s.free ≤ t.free
  draws : s.net.draws ≤ t.net.draws
  security : s.startup.minSecurity ≤ t.startup.minSecurity
  mem : s.mem.wf = true → t.mem.wf = true

/-- The state after a command, when it answers one. -/
def Outcome.all (p : State → Prop) : Host.Outcome State Fault Refusal → Prop
  | .next t => p t
  | .fault _ => True
  | .refused _ => True

/-- `u` is `t` after a cold start with a cause (R452, R454): the time base at 0, the first step under way, nothing of the work before it
left, every persistent object as it stood and every other number object at its default. -/
def ColdStarted (t u : State) (cause : Nat) : Prop :=
  u.now = 0 ∧ u.startup.stage = .fuses ∧ u.pins.fault = false ∧ u.num (objKey 0x12A0 4) = cause ∧ u.cmds = [] ∧ u.queues = [] ∧
  u.fences = [] ∧ u.mem.cells = [] ∧ u.tables = [] ∧ u.lookups = [] ∧ u.net.sessions = [] ∧ u.mem.retired = t.mem.retired ∧
  u.startup.slotA = t.startup.slotA ∧ u.startup.slotB = t.startup.slotB ∧ u.startup.minSecurity = t.startup.minSecurity ∧
  (∀ k, k ≠ objKey 0x12A0 4 → u.num k = if persistentKey k then t.num k else dfltNum k)

/-- Regulators of the compute domain are off (R449, R453, R456, R457): nothing of its work is left and no job is open. -/
def PoweredDown (u : State) : Prop :=
  u.startup.regulators = false ∧ u.cmds = [] ∧ u.lookups = [] ∧ u.tables = [] ∧ u.streams.slots = [] ∧ u.arith.banks = [] ∧
  u.num tenancyKey = 0

/-- Start-up has stopped with a code (R456). -/
def Stopped (u : State) (code : Nat) : Prop :=
  u.num startupKey = 2 ∧ u.num stopCodeKey = code ∧ u.pins.fault = true ∧ PoweredDown u

/-- A failed trial has fallen back (R468): the previous preference, no trial, and a restart with cause 2. -/
def FellBack (t u : State) : Prop :=
  u.startup.preferred = t.startup.previous ∧ u.startup.trial = false ∧ u.startup.trialRun = false ∧ u.startup.stage = .restarting ∧
  u.startup.cause = 2 ∧ PoweredDown u

/-- A counter object has risen by `n`, where that stays within its width. -/
def Rose (t u : State) (k n : Nat) : Prop := t.num k + n < objSpan k → u.num k = t.num k + n

/-! ### Requests -/

/-- A request that reaches the server: its transport takes it and its framing holds (R39, R40, R42, R46, R453, R456). -/
def State.arrives (s : State) (r : Request) : Bool :=
  r.whole && r.msg.version = 1 && r.msg.length ≤ 1024 && r.msg.length = r.msg.value.length &&
  (match r.via with
   | .host => s.host.dlUp && s.dictReady && s.num startupKey ≠ 2
   | .board h => s.startup.supplyMgt && h.enterprise = Config.enterpriseSource && mctpWhole h.packets
   | .rack h => s.startup.supplyMgt && s.ownFrame h.dest h.etherType && h.version = 1 && h.length = 16 + r.msg.value.length)

/-- Fewer than eight replies are owed to a request's transport once those it has taken have left (R37). -/
def State.room (s : State) (r : Request) : Bool := ((s.sendOwed (viaOf r) r.held).owedTo (viaOf r)).length < 8

/-- A request that arrives and gets its place. -/
def State.hears (s : State) (r : Request) : Bool := s.arrives r && s.room r

/-- A heard request for an object that the device's condition lets the dictionary serve, in an open session or none (R44, R453). -/
def State.serves (s : State) (op : Nat) (r : Request) : Bool :=
  s.hears r && s.gate op r.msg.index r.msg.sub = 0 && (sessionOf r = 0 || (s.openSession (sessionOf r)).isSome)

/-- A request heard: the replies its transport has taken have left, it has its place in the order (R35), and it is counted by transport
(0x1083.01 to .03). -/
def State.heard (s : State) (r : Request) : State :=
  let s := s.sendOwed (viaOf r) r.held
  let s : State := { s with net := { s.net with lastPlace := some (s.now, transportRank (viaOf r)) } }
  s.bump (objKey 0x1083 (match viaOf r with
    | .host => 1
    | .board => 2
    | .rack => 3)) 1

/-- A write that passes every check of R31, R32 and R43 that is not its owner's. -/
def State.mayWrite (s : State) (op : Nat) (r : Request) (o : ObjRow) : Bool :=
  s.serves op r && decide (objRow r.msg.index r.msg.sub = some o) && o.writable (viaOf r) && (s.authWrite op r).1 = 0 &&
  r.msg.type = o.ty.code && lengthOk o r.msg.value && !reservedValue o r.msg.value && !outOfRange o r.msg.value

/-- The same of a plain write of an object of a type with a value, which the configuration area takes. -/
def State.mayPut (s : State) (r : Request) (index sub : Nat) (ty : ObjType) (value : Bytes) : Bool :=
  r.store && (objRow index sub).any (fun o => o.ty = ty && s.mayWrite 2 (aimAt r index sub ty value) o)

/-- The same of a write that starts an action. -/
def State.mayStart (s : State) (r : Request) (index sub arg : Nat) : Bool := s.mayPut r index sub .action (natLe 4 arg)

/-- The last thing the package has done is to answer a request with a status. -/
def Replied (u : State) (op : Nat) (r : Request) (status : Nat) : Prop :=
  ∃ (v : State) (a : Answer) (session : Nat), a.status = status ∧ u = v.respond op r session a

/-- No object has changed but the dictionary's own counts (R49, 0x1083). -/
def SameObjects (t u : State) : Prop := (∀ k, k / 256 ≠ 0x1083 → u.num k = t.num k) ∧ u.dict.blobs = t.dict.blobs

/-- No stream slot holds a descriptor of a job. -/
def State.noArms (s : State) (j : Nat) : Bool :=
  s.streams.slots.all (fun e => !e.2.active.any (fun d => d.job = j) && !e.2.shadow.any (fun d => d.job = j))

/-- An execution fault has come between `t` and `u` (R345, R346): jobs that were open or closing are lost, queues that were not disabled
are lost, no command is left and recovery runs, while fences, tables and memory are as they were. -/
def Faulted (t u : State) : Prop :=
  (∀ j, j < 64 → u.job j = if t.job j = jobOpen ∨ t.job j = jobClosing then jobLost else t.job j) ∧
  (∀ q, (u.queue q).state = if (t.queue q).state = .disabled then .disabled else .lost) ∧
  u.cmds = [] ∧ u.lookups = [] ∧ u.streams.slots = [] ∧ u.recovering = true ∧ u.fences = t.fences ∧ u.tables = t.tables ∧
  (∀ a, u.byte a = t.byte a)

/-- A command has completed between `t` and `u` (R322): it is gone and counted for its queue. -/
def Completed (t u : State) (c : Cmd) : Prop := (∀ d ∈ u.cmds, d.id ≠ c.id) ∧ Rose t u (queueKey c.queue 2) 1

/-- A collective that has waited too long gives up its channel and the data it still held (R373). -/
def State.collStopped (s : State) (k : Collective) : State :=
  let s := (s.freeChannel k.channel .collective k.cmd).bump (channelKey k.channel 2) 1
  { s with
    fabric := { s.fabric with
      outgoing := s.fabric.outgoing.filter (fun o => !(o.chunk && o.channel = k.channel && o.number = k.number)) } }

end Sys2Proof.Machine
end

