-- ==== Sys2Proof/Certificates/Slice0/Obligations.lean ====
section
/-! DEFINITION. The statements for the provers. Each is about every state unless it names its conditions; where a rule's words are
formalised the docstring names the rule, and where a clause rests on a choice of the model it names the log entry. In a clause about
a command, `t` is the state once the command's `dt` nanoseconds have passed. -/
open Sys2Proof Sys2Proof.Machine


/-! ### The machine -/

/-- For every command and state, a step with the command at the front of the queue is that command's meaning on the state with the
queue's rest. -/
def Obligations.StepRunsTheFrontCommand : Prop :=
  ∀ (c : Instr) (rest : List Instr) (s : State), step { s with pending := c :: rest } = exec c { s with pending := rest }

/-- On an empty queue the block idles. The model's choice: notes/assumptions/2.md. The table gives its rows no bits, so no word
spells a command, and placing a word changes nothing. -/
def Obligations.IdleQueueAndWords : Prop :=
  (∀ s : State, s.pending = [] → step s = .next s) ∧
  (∀ (n w : Nat) (s : State), decodeTableWord n w = none ∧ s.withFetchWord n w = s)

/-- Every command answers a next state but for three stops, and each of those stops on exactly these operands: a register write or a
doorbell beyond the 8 MiB of the BAR (R392), a host or peer access outside the device memory decoded at B while that decoder is
committed (R384), and a write of the standard registers in the BAR's first 128 KiB, whose layout the manual leaves to the CXL
standard. -/
def Obligations.CommandsStopExactlyHere : Prop :=
  (∀ (i : Instr) (s : State) (r : Fault), exec i s = .fault r ↔
    (r = .outsideBar ∧ ((∃ dt o v w, i = .registerWrite dt o v w ∧ 0x800000 ≤ o) ∨
      (∃ dt q v w, i = .doorbell dt q v w ∧ 1024 ≤ q))) ∨
    (r = .outsideDeviceMemory ∧
      ((∃ dt a n, i = .hostMemRead dt a n ∧ (s.tick dt).hdmUp = true ∧ (s.tick dt).outsideHdm a n = true) ∨
       (∃ dt a d u, i = .hostMemWrite dt a d u ∧ (s.tick dt).hdmUp = true ∧ (s.tick dt).outsideHdm a d.length = true) ∨
       (∃ dt a, i = .peerMemRequest dt a ∧ (s.tick dt).hdmUp = true ∧ (s.tick dt).outsideHdm a 1 = true)))) ∧
  (∀ (i : Instr) (s : State) (r : Refusal), exec i s = .refused r ↔
    r = .cxlStandardRegister ∧ ∃ dt o v w, i = .registerWrite dt o v w ∧ o < 0x20000)

/-- Every step keeps memory's canonical form: addresses strictly rising, no cell equal to what an unlisted address reads as. -/
def Obligations.EveryStepKeepsMemoryCanonical : Prop :=
  ∀ s t : State, s.mem.wf = true → step s = .next t → t.mem.wf = true

/-- What no step undoes: the commands behind the front stay queued in their order, what the package has sent stays sent, no free
value and no nonce is drawn twice, and the fused minimum security version never falls. -/
def Obligations.EveryStepOnlyGoesForward : Prop :=
  ∀ s t : State, step s = .next t →
    t.pending = s.pending.tail ∧ s.out <+: t.out ∧ s.free ≤ t.free ∧ s.net.draws ≤ t.net.draws ∧
    s.startup.minSecurity ≤ t.startup.minSecurity

/-- The state at reset meets what every step keeps, and holds what the manual gives a package before its first supplies: nothing
waiting, nothing sent, no tenancy, no command, no table, every queue disabled, every fence zero, both links down. At reset every
number object reads its default and every string or octet object its own. -/
def Obligations.ResetState : Prop :=
  (State.reset.mem.wf = true ∧ State.reset.pending = [] ∧ State.reset.out = [] ∧ State.reset.cmds = [] ∧ State.reset.tables = [] ∧
  State.reset.startup.stage = .off ∧ State.reset.tenancy = 0 ∧ (∀ q, (State.reset.queue q).state = .disabled) ∧
  (∀ n, State.reset.fence n = 0) ∧ (∀ a, State.reset.byte a = 0) ∧ State.reset.host.dlUp = false ∧ State.reset.spdm.sessions = []) ∧
  ((∀ k, State.reset.num k = dfltNum k) ∧ (∀ k, State.reset.blob k = dfltBlob k))

/-- Time that passes before a command (the model's operand `dt`, notes/assumptions/1.md) advances the time base by that, but for what
the rate correction takes or gives and no further than a boundary that has still to be dealt with: a committed one is never passed
(R64, R72, R73, notes/assumptions/113.md). It changes nothing but the clocks of what runs: the engines' balances and the watchdog
times of commands in flight, the accounts, the stacks' time at the doubled refresh rate, the time in L4 and L5 and what is left to
correct. No time passing is no change at all. -/
def Obligations.TimePassing : Prop :=
  (∀ s : State, s.tick 0 = s) ∧
  (∀ (s : State) (dt : Nat), 0 < dt →
    (s.tick dt).now = s.now + s.lapse dt ∧ (s.horizon = none → s.epochs.toCorrect = 0 → (s.tick dt).now = s.now + dt)) ∧
  (∀ (s : State) (dt h : Nat), s.horizon = some h → s.now ≤ h → (s.tick dt).now ≤ h) ∧
  (∀ (s : State) (dt b : Nat), s.epochsRunning = true → s.num nextBoundaryKey = b → s.now < b → (s.tick dt).now < b) ∧
  ∀ (s : State) (dt : Nat),
    (s.tick dt) = { s with
      now := (s.tick dt).now, dict := (s.tick dt).dict, engines := (s.tick dt).engines, cmds := (s.tick dt).cmds
      epochs := { s.epochs with
        toCorrect := (s.tick dt).epochs.toCorrect, rateFraction := (s.tick dt).epochs.rateFraction } } ∧
    (s.tick dt).cmds.map (fun c => { c with watched := 0 }) = s.cmds.map (fun c => { c with watched := 0 }) ∧
    (∀ k, (s.tick dt).blob k = s.blob k) ∧
    (∀ k, k ≠ objKey 0x1100 0x0C → k < objKey 0x6000 0 → (s.tick dt).num k = s.num k)

/-! ### Memory -/

/-- A read of a byte after a store gives the byte stored, and every other byte is as before. A write at a local offset: to a page
that is retired it is a bus error 0x1003 and changes nothing, whatever it covers; to other stacked memory, whole 32-byte code words
are written and every other byte stays, and anything else writes nothing, is counted in 0x6500 + s .03 and is a bus error 0x1002. -/
def Obligations.WritesToMemory : Prop :=
  (∀ (s : State) (a : Nat) (d : Bytes) (b : Nat),
    (s.store a d).byte b = (if a ≤ b ∧ b < a + d.length then d.getD (b - a) 0 else s.byte b)) ∧
  (∀ (s : State) (acc : Access) (a : Nat) (d : Bytes), isStacked a = true →
    (s.meetsRetired a d.length = true → s.write acc a d = (.bad 0x1003, s)) ∧
    (s.meetsRetired a d.length = false → wholeWords a d.length = false →
      s.write acc a d = (.bad 0x1002, s.bump (objKey (0x6500 + s.stackOf a) 3) 1)) ∧
    (s.meetsRetired a d.length = false → wholeWords a d.length = true →
      ∃ t, s.write acc a d = (.ok [], t) ∧
        ∀ b, t.byte b = if a ≤ b ∧ b < a + d.length then d.getD (b - a) 0 else s.byte b))

/-- A read at a local offset changes no byte. Of stacked memory: a retired page is a bus error 0x1003; an uncorrectable code word is
a bus error 0x1001, is counted, and its page is pending or retired afterwards; otherwise the bytes as stored. Of an SRAM window: an
uncorrectable word is a bus error 0x1007, otherwise the bytes as stored. -/
def Obligations.ReadsOfMemory : Prop :=
  ∀ (s : State) (acc : Access) (a n : Nat),
    (∀ b, (s.read acc a n).2.byte b = s.byte b) ∧
    (isStacked a = true → s.meetsRetired a n = true → s.read acc a n = (.bad 0x1003, s)) ∧
    (isStacked a = true → s.meetsRetired a n = false → ∀ w, s.firstBad a n = some w →
      (s.read acc a n).1 = .bad 0x1001 ∧ Rose s (s.read acc a n).2 (objKey (0x6500 + s.stackOf w) 2) 1 ∧
      (w / 0x200000 ∈ (s.read acc a n).2.mem.pendingPages ∨ w / 0x200000 ∈ (s.read acc a n).2.mem.retired)) ∧
    (isStacked a = true → s.meetsRetired a n = false → s.firstBad a n = none → (s.read acc a n).1 = .ok (s.bytes a n)) ∧
    (isStacked a = false → (s.firstSramBad a n).isSome = true → s.read acc a n = (.bad 0x1007, s)) ∧
    (isStacked a = false → s.firstSramBad a n = none → s.read acc a n = (.ok (s.bytes a n), s))

/-! ### Start-up, supplies and their loss -/

/-- SUPPLIES_VALID begins a cold start with cause 0, and REGULATORS_SWITCH_ON one with the cause of the restart (R451, R452, R454,
R457). A device that tripped waits for its 12 V input to be removed (R449). Loss of 12 V or VIO powers the compute domain
down, and loss of 12 V ends a trip (R449, R453); loss of VMGT stops the whole package, deasserts FAULT_N and
THERM_TRIP_N (R477), and what is not persistent or fused goes with it, the firmware log too (R452, R453). VMGT_VALID brings the
management ports up, and PERST_DEASSERT lets the host link train. -/
def Obligations.SuppliesAndColdStart : Prop :=
  ((∀ (s t : State) (dt : Nat), s.tick dt = t → t.startup.stage = .off → t.pins.thermTrip = false →
    ∃ u, exec (.suppliesValid dt) s = .next u ∧ ColdStarted t u 0) ∧
  (∀ (s t : State) (dt : Nat), s.tick dt = t → (t.startup.stage ≠ .off ∨ t.pins.thermTrip = true) →
    exec (.suppliesValid dt) s = .next t) ∧
  (∀ (s t : State) (dt : Nat), s.tick dt = t → t.startup.stage = .restarting →
    ∃ u, exec (.regulatorsSwitchOn dt) s = .next u ∧ ColdStarted t u t.startup.cause)) ∧
  ((∀ (s : State) (dt : Nat) (main : Bool), ∃ u, exec (.supplyLoss dt main) s = .next u ∧ PoweredDown u ∧ u.startup.stage = .off ∧
    u.host.dlUp = false ∧ u.host.phy = false ∧ (main = true → u.pins.thermTrip = false)) ∧
  (∀ (s t : State) (dt : Nat), s.tick dt = t → ∃ u, exec (.vmgtLoss dt) s = .next u ∧ u.startup.stage = .off ∧
    u.startup.supplyMgt = false ∧ u.faultLand = false ∧ u.thermTripLand = false ∧ u.integ.log = [] ∧
    u.cmds = [] ∧ u.fences = [] ∧ u.mem.cells = [] ∧ u.net.sessions = [] ∧
    (∀ k, u.num k = if persistentKey k then t.num k else dfltNum k)) ∧
  (∀ (s t : State) (dt : Nat), s.tick dt = t →
    exec (.vmgtValid dt) s = .next { t with startup := { t.startup with supplyMgt := true } }) ∧
  (∀ (s t : State) (dt : Nat), s.tick dt = t →
    exec (.perstDeassert dt) s = .next { t with host := { t.host with perst := true } }))

/-- STARTUP_STAGE_COMPLETE takes the steps of R454 in their order: each step that passes leads to the next. The boot control is that of
its newer copy while that is valid, else of the other (R463); with neither, slot A without a trial (notes/assumptions/137.md). The
retirement lists are those of the newer valid copy too (R33, R267). -/
def Obligations.StartupStepsInOrder : Prop :=
  ∀ (s t : State) (dt : Nat) (o : StageOutcome), s.tick dt = t → t.starting = true →
    (t.startup.stage = .fuses → ∃ u, exec (.startupStageComplete dt o) s = .next u ∧ u.startup.stage = .ucie ∧
      u.startup.chainValid = o.chain ∧ u.startup.trialRun = u.startup.trial ∧
      ∀ newest other, newest = (if t.startup.newestBoot = 0 then o.boot0 else o.boot1) →
        other = (if t.startup.newestBoot = 0 then o.boot1 else o.boot0) →
        (u.startup.preferred, u.startup.trial, u.startup.previous) =
          if newest then (t.startup.preferred, t.startup.trial, t.startup.previous)
          else if other then t.startup.olderBoot else (0, false, 0)) ∧
    (t.startup.stage = .ucie → o.passed = true →
      ∃ u, exec (.startupStageComplete dt o) s = .next u ∧ u.startup.stage = .cxlPhy) ∧
    (t.startup.stage = .cxlPhy → ∃ u, exec (.startupStageComplete dt o) s = .next u ∧ u.startup.stage = .slot ∧ u.host.phy = true) ∧
    (t.startup.stage = .slot → t.slotValid t.startup.preferred = true →
      ∃ u, exec (.startupStageComplete dt o) s = .next u ∧ u.startup.stage = .firmware ∧
        u.startup.booted = some t.startup.preferred) ∧
    (t.startup.stage = .slot → t.slotValid t.startup.preferred = false →
      ∃ u, exec (.startupStageComplete dt o) s = .next u ∧ u.startup.stage = .otherSlot ∧
        u.startup.preferred = t.startup.preferred) ∧
    (t.startup.stage = .otherSlot → t.slotValid (1 - t.startup.preferred) = true →
      ∃ u, exec (.startupStageComplete dt o) s = .next u ∧ u.startup.stage = .firmware ∧
        u.startup.booted = some (1 - t.startup.preferred) ∧ u.startup.preferred = t.startup.preferred) ∧
    (t.startup.stage = .firmware →
      ∃ u, exec (.startupStageComplete dt o) s = .next u ∧ u.startup.stage = .checkers ∧ u.net.sessions = []) ∧
    (t.startup.stage = .checkers → (o.failed.map unitOfCode).all (fun v => (checkerUnit v).isSome) = true →
      ∃ u, exec (.startupStageComplete dt o) s = .next u ∧ u.startup.stage = .stacks) ∧
    (t.startup.stage = .stacks → o.passed = true →
      ∃ u, exec (.startupStageComplete dt o) s = .next u ∧ u.startup.stage = .retirement) ∧
    (t.startup.stage = .retirement → ∃ u, exec (.startupStageComplete dt o) s = .next u ∧ u.startup.stage = .zeroing ∧
      ∀ newest other p, newest = (if t.mem.newestLists = 0 then o.lists0 else o.lists1) →
        other = (if t.mem.newestLists = 0 then o.lists1 else o.lists0) →
        (newest = true → p ∈ t.mem.retired → p ∈ u.mem.retired) ∧
        (newest = false → other = true → p ∈ t.mem.olderRetired → p ∈ u.mem.retired) ∧
        (newest = false → other = false → u.mem.retired = [])) ∧
    (t.startup.stage = .zeroing → ∃ u, exec (.startupStageComplete dt o) s = .next u ∧ u.startup.stage = .engines ∧
      ∀ a, u.byte a = 0) ∧
    (t.startup.stage = .engines → ∃ u, exec (.startupStageComplete dt o) s = .next u ∧ u.startup.stage = .usable)

/-- A step of start-up that fails stops it (R456): UCIe modules with 0x4002, no valid slot with 0x9002, a checker outside the cores
and lookup engines with 0x3008 (R431), stacks with 0x100A; a trial start-up falls back instead (R468). STARTUP_USABLE ends a
start-up: the dictionary is ready, 0x1001.05 has risen by one, and a trial slot is confirmed. A trial that is not usable 2,000 ms
after supplies valid falls back on TRIAL_TIMEOUT, and not before (R454, R468). -/
def Obligations.StartupStopsOrEnds : Prop :=
  (∀ (s t : State) (dt : Nat) (o : StageOutcome) (code : Nat), s.tick dt = t → t.starting = true →
    (t.startup.stage = .ucie ∧ o.passed = false ∧ code = 0x4002) ∨
    (t.startup.stage = .otherSlot ∧ t.slotValid (1 - t.startup.preferred) = false ∧ code = 0x9002) ∨
    (t.startup.stage = .checkers ∧ (o.failed.map unitOfCode).any (fun v => (checkerUnit v).isNone) = true ∧ code = 0x3008) ∨
    (t.startup.stage = .stacks ∧ o.passed = false ∧ code = 0x100A) →
    ∃ u, exec (.startupStageComplete dt o) s = .next u ∧
      (t.startup.trialRun = false → Stopped u code) ∧ (t.startup.trialRun = true → FellBack t u)) ∧
  ((∀ (s t : State) (dt : Nat), s.tick dt = t → t.starting = true → t.startup.stage = .usable →
    ∃ u, exec (.startupUsable dt) s = .next u ∧ u.num startupKey = 1 ∧ u.dictReady = true ∧ Rose t u (objKey 0x1001 5) 1 ∧
      u.startup.trial = false ∧ u.startup.trialRun = false ∧ u.num (objKey 0x5000 2) = 0) ∧
  (∀ (s t : State) (dt : Nat), s.tick dt = t → t.startup.trialRun = true → t.starting = true → 2000000000 ≤ t.now →
    ∃ u, exec (.trialTimeout dt) s = .next u ∧ FellBack t u) ∧
  (∀ (s t : State) (dt : Nat), s.tick dt = t → t.now < 2000000000 → exec (.trialTimeout dt) s = .next t))

/-- An input out of its recommended range caps the effective limit at 1,000 W, abandons a start-up in progress, and outside its
absolute range trips the device; the cap ends once every input has been back for 1 s (R435, R449, R453). -/
def Obligations.InputOutOfRange : Prop :=
  (∀ (s t : State) (dt : Nat), s.tick dt = t → t.startup.stage ≠ .off → t.tripped = false →
    ∃ u, exec (.supplyOutOfRange dt true) s = .next u ∧ PoweredDown u ∧ u.tripped = true ∧ u.pins = { fault := true, thermTrip := true }) ∧
  (∀ (s t : State) (dt : Nat), s.tick dt = t → t.starting = true →
    ∃ u, exec (.supplyOutOfRange dt false) s = .next u ∧ PoweredDown u ∧ u.startup.stage = .off) ∧
  (∀ (s t : State) (dt : Nat), s.tick dt = t → t.startup.stage ≠ .off → t.starting = false →
    ∃ u, exec (.supplyOutOfRange dt false) s = .next u ∧ u.power.supplyCap = true ∧ u.num (powerKey 2) ≤ 1000) ∧
  (∀ (s t : State) (dt within : Nat), s.tick dt = t → t.power.supplyCap = true → 1000000000 ≤ within →
    ∃ u, exec (.supplyRestored dt within) s = .next u ∧ u.power.supplyCap = false ∧ u.num (powerKey 2) = u.limitNow)

/-! ### The dictionary -/

/-- What the reading operations answer: a plain read the object's value, a segment read at most 1,024 bytes of a DOMAIN from an
offset, describe the descriptor, enumerate the next existing object (R40). None of them changes an object. Enumeration goes upward
through every existing object and none other (R40). -/
def Obligations.ReadsAnswerAndChangeNothing : Prop :=
  (∀ (s t : State) (dt : Nat) (r : Request) (o : ObjRow), s.reach dt r = t →
    (t.serves 1 r = true → objRow r.msg.index r.msg.sub = some o → o.readable (viaOf r) = true → o.ty ≠ .domain →
      r.msg.type = 0 ∨ r.msg.type = o.ty.code →
      ∃ u, exec (.objectRead dt r) s = .next u ∧ SameObjects t u ∧
        u = ((t.heard r).noteRead 1 r).respond 1 r (sessionOf r)
          ⟨0, o.ty.code, r.msg.index, r.msg.sub, (t.heard r).objValue o (objKey r.msg.index r.msg.sub)⟩) ∧
    (t.serves 5 r = true → objRow r.msg.index r.msg.sub = some o → o.readable (viaOf r) = true → o.ty = .domain →
      r.msg.type = 0 ∨ r.msg.type = o.ty.code → ∀ v, (t.heard r).objValue o (objKey r.msg.index r.msg.sub) = v →
      ∃ u, exec (.segmentRead dt r) s = .next u ∧ SameObjects t u ∧
        (v.length ≤ r.msg.offset → Replied u 5 r 0x10) ∧
        (r.msg.offset < v.length → u = ((t.heard r).noteRead 5 r).respond 5 r (sessionOf r)
          ⟨0, o.ty.code, r.msg.index, r.msg.sub, (v.drop r.msg.offset).take 1024⟩)) ∧
    (t.serves 3 r = true → objRow r.msg.index r.msg.sub = some o →
      ∃ u, exec (.objectDescribe dt r) s = .next u ∧ SameObjects t u ∧
        u = ((t.heard r).noteRead 3 r).respond 3 r (sessionOf r)
          ⟨0, o.ty.code, r.msg.index, r.msg.sub, o.descriptor (objKey r.msg.index r.msg.sub)⟩) ∧
    (t.serves 4 r = true → ∃ u, exec (.objectEnumerate dt r) s = .next u ∧ SameObjects t u ∧
      (nextObject r.msg.index r.msg.sub = none → Replied u 4 r 1) ∧
      (∀ k, nextObject r.msg.index r.msg.sub = some k → ∃ ty, u = ((t.heard r).noteRead 4 r).respond 4 r (sessionOf r)
        ⟨0, ty, k / 256, k % 256, []⟩))) ∧
  (∀ index sub k : Nat, index < 0x10000 → sub < 256 → nextObject index sub = some k →
    (objRow (k / 256) (k % 256)).isSome = true ∧ objKey index sub < k ∧
    ∀ i j, i < 0x10000 → j < 256 → (objRow i j).isSome = true → objKey index sub < objKey i j → k ≤ objKey i j)

/-- A write that breaks a condition of R31, R32, R40 or R43 is refused with the status of R41 that the first broken condition has,
and leaves every object as it was, and the sessions too (R32, R41). With eight replies still owed to its transport, a request is
refused as busy ahead of them and has no other effect (R37). -/
def Obligations.RefusedWritesChangeNothing : Prop :=
  (∀ (s t : State) (dt : Nat) (r : Request), s.reach dt r = t → t.arrives r = true → t.room r = false →
    (∃ u, exec (.objectRead dt r) s = .next u ∧ Replied u 1 r 9 ∧ SameObjects t u ∧ Rose t u (objKey 0x1083 6) 1 ∧
      u.net = (t.sendOwed (viaOf r) r.held).net) ∧
    (∃ u, exec (.objectWrite dt r) s = .next u ∧ Replied u 2 r 9 ∧ SameObjects t u ∧
      u.net = (t.sendOwed (viaOf r) r.held).net)) ∧
  ∀ (s t : State) (dt : Nat) (r : Request) (o : ObjRow), s.reach dt r = t → t.serves 2 r = true →
    ∃ u, exec (.objectWrite dt r) s = .next u ∧
      (objRow r.msg.index r.msg.sub = none → SameObjects t u ∧ Replied u 2 r (if indexExists r.msg.index then 2 else 1)) ∧
      (objRow r.msg.index r.msg.sub = some o →
        (o.writable (viaOf r) = false → SameObjects t u ∧ Replied u 2 r 3) ∧
        (o.writable (viaOf r) = true → (t.authWrite 2 r).1 ≠ 0 → SameObjects t u ∧ u.net.sessions = t.net.sessions ∧
          Replied u 2 r (t.authWrite 2 r).1) ∧
        (o.writable (viaOf r) = true → (t.authWrite 2 r).1 = 0 →
          (o.ty = .domain → SameObjects t u ∧ Replied u 2 r 0x11) ∧
          (o.ty ≠ .domain → r.msg.type ≠ o.ty.code → SameObjects t u ∧ Replied u 2 r 4) ∧
          (o.ty ≠ .domain → r.msg.type = o.ty.code → lengthOk o r.msg.value = false → SameObjects t u ∧ Replied u 2 r 5) ∧
          (o.ty ≠ .domain → r.msg.type = o.ty.code → lengthOk o r.msg.value = true → reservedValue o r.msg.value = true →
            SameObjects t u ∧ Replied u 2 r 7) ∧
          (o.ty ≠ .domain → r.msg.type = o.ty.code → lengthOk o r.msg.value = true → reservedValue o r.msg.value = false →
            outOfRange o r.msg.value = true → SameObjects t u ∧ u.net.sessions = t.net.sessions ∧ Replied u 2 r 6)))

/-- A write that passes those checks goes to the object's owner: accepted, the reply carries the value read back; refused by the
owner, or by a configuration area that does not take it (0x0F), every object stays as it was. A job's class is an object whose owner
stores it while the slot is free (R55) and refuses it otherwise. -/
def Obligations.AcceptedWritesReadBack : Prop :=
  (∀ (s t v w : State) (dt : Nat) (r : Request) (o : ObjRow), s.reach dt r = t → t.mayWrite 2 r o = true → o.ty ≠ .action →
    o.ty ≠ .domain → ((t.heard r).authWrite 2 r).2 = v → v.ownerWrite o r.msg.index r.msg.sub r.msg.value = (0, w) →
    (r.store = true →
      ∃ u x, exec (.objectWrite dt r) s = .next u ∧ x = (if o.persistent then w.durable v else w) ∧
        u = x.respond 2 r (sessionOf r)
          ⟨0, o.ty.code, r.msg.index, r.msg.sub, x.objValue o (objKey r.msg.index r.msg.sub)⟩) ∧
    (r.store = false → o.persistent = true →
      ∃ u, exec (.objectWrite dt r) s = .next u ∧ SameObjects t u ∧ Replied u 2 r 0x0F)) ∧
  (∀ (s t : State) (dt j c : Nat) (r : Request), s.reach dt r = t → j < 64 →
    t.mayPut r (0x2010 + j) 2 .u8 (natLe 1 c) = true → c < 256 →
    ∃ u, exec (.objectWrite dt (aimAt r (0x2010 + j) 2 .u8 (natLe 1 c))) s = .next u ∧
      (t.job j = jobFree → u.num (jobClassKey j) = c ∧ Replied u 2 (aimAt r (0x2010 + j) 2 .u8 (natLe 1 c)) 0) ∧
      (t.job j ≠ jobFree → SameObjects t u ∧ Replied u 2 (aimAt r (0x2010 + j) 2 .u8 (natLe 1 c)) 8))

/-- A segment write programs the inactive slot (R467): the bytes written read back, the other bytes of the slot and the whole of the
other slot stay, and the range is one that no second write may touch before an erase; a range past 28 MiB is refused with 0x10 and
one that is programmed, or any during an erase, with 0x08. -/
def Obligations.SegmentWriteProgramsTheSlot : Prop :=
  ∀ (s t : State) (dt : Nat) (r : Request) (o : ObjRow) (v : ImageSlot), s.reach dt r = t → t.mayWrite 6 r o = true → o.ty = .domain →
    t.imageSlot t.inactiveSlot = v →
    ∃ u, exec (.segmentWrite dt r) s = .next u ∧ SameObjects t u ∧
      u.imageSlot (1 - t.inactiveSlot) = t.imageSlot (1 - t.inactiveSlot) ∧
      (slotBytes < r.msg.offset + r.msg.value.length → u.imageSlot t.inactiveSlot = v ∧ Replied u 6 r 0x10) ∧
      (r.msg.offset + r.msg.value.length ≤ slotBytes → r.msg.value ≠ [] → t.startup.erasing = true →
        u.imageSlot t.inactiveSlot = v ∧ Replied u 6 r 8) ∧
      (r.msg.offset + r.msg.value.length ≤ slotBytes → r.msg.value ≠ [] →
        (∃ p ∈ v.programmed, r.msg.offset < p.2 ∧ p.1 < r.msg.offset + r.msg.value.length) →
        u.imageSlot t.inactiveSlot = v ∧ Replied u 6 r 8) ∧
      (r.msg.offset + r.msg.value.length ≤ slotBytes → r.msg.value ≠ [] → t.startup.erasing = false →
        (∀ p ∈ v.programmed, p.2 ≤ r.msg.offset ∨ r.msg.offset + r.msg.value.length ≤ p.1) →
        Replied u 6 r 0 ∧ (r.msg.offset, r.msg.offset + r.msg.value.length) ∈ (u.imageSlot t.inactiveSlot).programmed ∧
        ∀ b, Map.get erasedByte (u.imageSlot t.inactiveSlot).bytes b =
          if r.msg.offset ≤ b ∧ b < r.msg.offset + r.msg.value.length then r.msg.value.getD (b - r.msg.offset) 0
          else Map.get erasedByte v.bytes b)

/-- Rack sessions (R44): open adds a half-open session with a fresh nonce, prove opens it for whom its key signs and closes it for
whom it does not, close and the idle time end it, and a fifth is refused with 0x0E. The ports' other rows: a message that is not the
device's is counted in 0x1083.07 and no more (R42, R46), accepted PLCA settings take effect as the objects hold them and give the
port its role (R45), and the assigned dynamic address is 0x1082.01 (R46). A padded frame is served as the message it carries (R40),
and a request in the same nanosecond as one of a transport behind its own comes a nanosecond later (R35, notes/assumptions/1.md). -/
def Obligations.ManagementTransports : Prop :=
  ((∀ (s t : State) (dt : Nat) (r : Request) (h : Edtal), s.reach dt r = t → r.via = .rack h → t.hears r = true →
    t.dictReady = true →
    (∀ slot, r.msg.value.length = 33 → fieldLe r.msg.value 0 1 = slot → 1 ≤ slot → slot ≤ 8 →
      (t.rackKey slot).all (· = 0) = false →
      ∃ u, exec (.sessionOpen dt r) s = .next u ∧
        (4 ≤ t.net.sessions.length → u.net.sessions = t.net.sessions ∧ Replied u 0x10 r 0x0E) ∧
        (t.net.sessions.length < 4 → Replied u 0x10 r 0 ∧ u.net.draws = t.net.draws + 1 ∧
          u.net.sessions = t.net.sessions ++ [
            { id := t.net.nextSession, slot := slot, clientNonce := r.msg.value.drop 1, deviceNonce := Config.nonce t.net.draws,
              proved := false, lastSequence := 0, lastAccepted := t.now }])) ∧
    (∀ x, t.net.sessions.find? (fun y => y.id = h.session && !y.proved) = some x →
      ∃ u, exec (.sessionProve dt r) s = .next u ∧
        (edVerify (t.rackKey x.slot) (x.deviceNonce ++ x.clientNonce ++ Config.serial ++ natLe 4 h.session) r.msg.value = true →
          u.net.sessions = mapIf (fun y => y.id = x.id) (fun _ => { x with proved := true, lastSequence := 0, lastAccepted := t.now })
            t.net.sessions ∧ Replied u 0x11 r 0) ∧
        (edVerify (t.rackKey x.slot) (x.deviceNonce ++ x.clientNonce ++ Config.serial ++ natLe 4 h.session) r.msg.value = false →
          u.net.sessions = t.net.sessions.filter (fun y => y.id ≠ h.session) ∧ Replied u 0x11 r 0x0C)) ∧
    (t.net.sessions.any (fun y => y.id = h.session) = true → ∃ u, exec (.sessionClose dt r) s = .next u ∧
      u.net.sessions = t.net.sessions.filter (fun y => y.id ≠ h.session) ∧ Replied u 0x12 r 0)) ∧
  (∀ (s t : State) (dt id : Nat) (x : Session), s.tick dt = t → x ∈ t.net.sessions → x.id = id →
    x.lastAccepted + t.num (objKey 0x1080 3) * 1000000000 ≤ t.now →
    exec (.sessionIdleTimeout dt id) s =
      .next { t with net := { t.net with sessions := t.net.sessions.filter (fun y => y.id ≠ id) } })) ∧
  ((∀ (s t : State) (dt : Nat) (x : Stray), s.tick dt = t → t.startup.supplyMgt = true →
    (t.isForeign x = true → ∃ u, exec (.foreignFrameDiscard ⟨dt, x⟩) s = .next u ∧ Rose t u (objKey 0x1083 7) 1 ∧
      u = { t with dict := u.dict } ∧ ∀ k, k ≠ objKey 0x1083 7 → u.num k = t.num k) ∧
    (t.isForeign x = false → exec (.foreignFrameDiscard ⟨dt, x⟩) s = .next t)) ∧
  (∀ (s : State) (dt : Nat) (r : Request) (h : Edtal), r.via = .rack h → exec (.objectWrite dt r) s = exec (.objectWrite dt (carried r)) s) ∧
  (∀ (s : State) (dt : Nat) (r : Request), (dt ≠ 0 → s.reach dt r = s.tick dt) ∧
    (∀ k, s.net.lastPlace = some (s.now, k) → s.reach 0 r = if transportRank (viaOf r) < k then s.tick 1 else s)) ∧
  (∀ (s t : State) (dt : Nat), s.tick dt = t → t.net.plcaPending = true →
    ∃ u, exec (.plcaChangeApply dt) s = .next u ∧ u.net.plcaPending = false ∧ u.net.plca =
      { enable := t.flag (objKey 0x1081 1), node := t.num (objKey 0x1081 2), count := t.num (objKey 0x1081 3),
        timer := t.num (objKey 0x1081 4), burst := t.num (objKey 0x1081 5) } ∧ u.dict = t.dict ∧
      (t.flag (objKey 0x1081 1) = false → u.plcaRole = .csmaCd) ∧
      (t.flag (objKey 0x1081 1) = true → t.num (objKey 0x1081 2) = 0 → u.plcaRole = .coordinator) ∧
      (t.flag (objKey 0x1081 1) = true → 1 ≤ t.num (objKey 0x1081 2) → t.num (objKey 0x1081 2) ≤ 254 → u.plcaRole = .follower)) ∧
  (∀ (s t : State) (dt a : Nat), s.tick dt = t → t.startup.supplyMgt = true → 0 < a → a < 128 →
    ∃ u, exec (.i3cEntdaa dt a) s = .next u ∧ u.num (objKey 0x1082 1) = a ∧ ∀ k, k ≠ objKey 0x1082 1 → u.num k = t.num k))

/-- The actions of tenancies, jobs and accounting (R51, R52, R55, R59). -/
def Obligations.TenancyAndJobActions : Prop :=
  (∀ (s t : State) (dt owner : Nat) (r : Request), s.reach dt r = t → owner < 2 ^ 32 → t.mayStart r 0x2000 1 owner = true →
    t.tenancy = 0 → (t.manyPackages = true → t.epochs.stepped = true) →
    ∃ u, exec (.tenancyStart dt owner r) s = .next u ∧ u.tenancy = 1 ∧ Rose t u (objKey 0x2000 4) 1 ∧ u.num (objKey 0x2000 5) = owner ∧
      u.num (objKey 0x2000 6) = t.now ∧ u.tables = [] ∧ (∀ n, u.fence n = 0) ∧ (∀ j, j < 64 → u.job j = jobFree) ∧
      (∀ a i, a ≤ 64 → 1 ≤ i → i ≤ 12 → u.num (acctKey a i) = 0) ∧ (∀ a, u.byte a = t.byte a)) ∧
  (∀ (s t : State) (dt arg : Nat) (r : Request), s.reach dt r = t → arg ≤ 1 → t.mayStart r 0x2000 2 arg = true → t.tenancy = 1 →
    (arg = 1 ∨ t.jobsLive = false) → t.recovering = false → (∀ j, j < 64 → t.job j = jobOpen → t.noArms j = true) →
    ∃ u, exec (.tenancyEnd dt arg r) s = .next u ∧ u.tenancy = 2 ∧ u.epochs.ending = .draining ∧ (∀ j, j < 64 → u.job j ≠ jobOpen) ∧
      u.num (objKey 0x2000 2) = 1) ∧
  (∀ (s t : State) (dt j : Nat) (r : Request), s.reach dt r = t → j < 64 → t.mayStart r (0x2010 + j) 4 0 = true → t.job j = jobFree →
    t.tenancy = 1 → t.recovering = false →
    ∃ u, exec (.jobOpen dt j 0 r) s = .next u ∧ u.job j = jobOpen ∧ u.num (jobOpenedKey j) = t.now ∧ u.num (jobOpenKey j) = 2 ∧
      (∀ i, 1 ≤ i → i ≤ 12 → u.num (acctKey j i) = 0) ∧ (∀ e, Map.get 0 (u.engine e).balances j = 0) ∧
      ∀ j', j' < 64 → j' ≠ j → u.job j' = t.job j') ∧
  (∀ (s t : State) (dt j : Nat) (r : Request), s.reach dt r = t → j < 64 → t.mayStart r (0x2010 + j) 5 0 = true →
    (t.job j = jobOpen → t.noArms j = true → ∃ u, exec (.jobClose dt j 0 r) s = .next u ∧ u.job j = jobClosing ∧ u.num (jobCloseKey j) = 1) ∧
    (t.job j = jobLost → ∃ u, exec (.jobClose dt j 0 r) s = .next u ∧ u.job j = jobFree ∧ u.num (jobCloseKey j) = 2 ∧
      ∀ q, q / 16 = j → (u.queue q).state = .disabled)) ∧
  (∀ (s t : State) (dt a : Nat) (r : Request), s.reach dt r = t → t.mayStart r 0x6041 0 a = true → a ≤ 64 →
    ∃ u, exec (.accountingSnapshot dt a r) s = .next u ∧ (∀ i, 1 ≤ i → i ≤ 12 → u.num (objKey 0x6042 i) = t.num (acctKey a i)) ∧
      u.num (objKey 0x6042 0x0D) = t.now ∧ u.num (objKey 0x6042 0x0E) = a ∧ u.num (objKey 0x6041 0) = 2)

/-- The snapshot actions of tables and queues keep every counter and register as it stood at one instant (R105, R337); invalidate
tag begins an invalidation that is still running (R283), or has ended at once under a firmware or unused tag (R275); declare window opens a unit's test window (R429). The slot actions (R467,
R468, R469): an erase empties the inactive slot and runs until SLOT_ERASE_COMPLETE; activation prefers a valid slot on trial and
fails on one that is not; the running security version is fused, never lowered. -/
def Obligations.ServiceAndSlotActions : Prop :=
  ((∀ (s t : State) (dt n : Nat) (r : Request), s.reach dt r = t → t.mayStart r 0x2201 0 n = true → n ≤ 1023 →
    ∃ u, exec (.tableSnapshot dt n r) s = .next u ∧ (∀ k, 1 ≤ k → k ≤ 0x18 → u.num (objKey 0x2202 k) = t.tableValue n k) ∧
      (∀ k, 1 ≤ k → k ≤ 0x15 → u.num (objKey 0x2302 k) = t.tableValue n (0x100 + k)) ∧ u.num (objKey 0x2201 0) = 2 ∧ u.tables = t.tables) ∧
  (∀ (s t : State) (dt q : Nat) (r : Request), s.reach dt r = t → t.mayStart r 0x2701 0 q = true → q < 1024 →
    ∃ u, exec (.queueSnapshot dt q r) s = .next u ∧ u.num (objKey 0x2702 1) = q ∧ u.num (objKey 0x2702 2) = (t.queue q).state.code ∧
      u.num (objKey 0x2702 3) = (t.queue q).head ∧ u.num (objKey 0x2702 4) = (t.queue q).tail ∧
      u.num (objKey 0x2702 5) = (t.queue q).error ∧ u.num (objKey 0x2702 6) = t.now ∧ u.num (objKey 0x2701 0) = 2 ∧ u.queues = t.queues) ∧
  (∀ (s t : State) (dt tag : Nat) (r : Request), s.reach dt r = t → t.mayStart r 0x2600 3 tag = true → tag ≤ 255 →
    ∃ u, exec (.invalidateTag dt tag r) s = .next u ∧
      (tag < 0x40 → u.xlat = { t.xlat with invals := t.xlat.invals ++ [⟨tag, .action, t.now⟩] } ∧ u.num (objKey 0x2600 3) = 1) ∧
      (0x40 ≤ tag → u.xlat = t.xlat ∧ u.num (objKey 0x2600 3) = 2)) ∧
  (∀ (s t : State) (dt code : Nat) (r : Request), s.reach dt r = t → t.mayStart r 0x4101 0 code = true → testCodeOk code = true →
    t.testFenced code = false →
    ∃ u, exec (.declareWindow dt code r) s = .next u ∧ code ∈ u.integ.windows ∧ u.num (objKey 0x4101 0) = 2)) ∧
  ((∀ (s t : State) (dt : Nat) (r : Request), s.reach dt r = t → t.mayStart r 0x5002 0 1 = true → t.startup.erasing = false →
    ∃ u, exec (.slotErase dt r) s = .next u ∧ u.startup.erasing = true ∧ u.num slotActionKey = 1 ∧
      u.imageSlot t.inactiveSlot = ImageSlot.init ∧ u.imageSlot (1 - t.inactiveSlot) = t.imageSlot (1 - t.inactiveSlot)) ∧
  (∀ (s t : State) (dt : Nat), s.tick dt = t → t.startup.erasing = true →
    ∃ u, exec (.slotEraseComplete dt) s = .next u ∧ u.startup = { t.startup with erasing := false } ∧ u.num slotActionKey = 2) ∧
  (∀ (s t : State) (dt : Nat) (r : Request), s.reach dt r = t → t.mayStart r 0x5002 0 2 = true → t.startup.erasing = false →
    ∃ u, exec (.slotActivate dt r) s = .next u ∧
      (t.slotValid t.inactiveSlot = true → u.startup.preferred = t.inactiveSlot ∧ u.startup.trial = true ∧
        u.num (objKey 0x5000 1) = t.inactiveSlot ∧ u.num slotActionKey = 2) ∧
      (t.slotValid t.inactiveSlot = false → u.startup = t.startup ∧ u.num slotActionKey = 3)) ∧
  (∀ (s t : State) (dt v : Nat) (r : Request), s.reach dt r = t → t.mayStart r 0x5003 0 v = true → v ≤ 64 →
    v = t.num (objKey 0x5000 4) → t.startup.trialRun = false →
    ∃ u, exec (.commitSecurityVersion dt v r) s = .next u ∧ u.startup.minSecurity = max t.startup.minSecurity v ∧
      u.num (objKey 0x5000 5) = max t.startup.minSecurity v ∧ u.num (objKey 0x5003 0) = 2))

/-- Retire now takes a page out of use at once: it is listed, no longer pending, and nothing of its contents is left, while every
other page keeps its bytes; a full list refuses it with 0x08 (R267). Restore defaults sets every persistent object that some
transport may write, but for the rack keys, to its default, and leaves every other object but the counts of persistent writes (R49).
Clear suspicion returns every suspicion and offset object to its default (R426). A restart leaves nothing of the compute domain, and
the next start-up begins with cause 1 (R457). -/
def Obligations.DeviceActions : Prop :=
  (∀ (s t : State) (dt p : Nat) (r : Request), s.reach dt r = t → t.mayStart r 0x2503 6 p = true → p ≤ 393215 → p ∉ t.mem.retired →
    (t.mem.retired.length < 1024 → ∃ u, exec (.retireNow dt p r) s = .next u ∧ p ∈ u.mem.retired ∧ p ∉ u.mem.pendingPages ∧
      (∀ a, a / 0x200000 = p → u.byte a = 0) ∧ (∀ a, a / 0x200000 ≠ p → u.byte a = t.byte a) ∧ u.num (objKey 0x2503 6) = 2) ∧
    (1024 ≤ t.mem.retired.length → ∃ u, exec (.retireNow dt p r) s = .next u ∧ u.mem = t.mem ∧ SameObjects t u)) ∧
  ((∀ (s t : State) (dt : Nat) (r : Request), s.reach dt r = t → t.mayStart r 0x1010 0 0xD5F0 = true → t.tenancy = 0 →
    ∃ u, exec (.restoreDefaults dt 0xD5F0 r) s = .next u ∧ u.net.plcaPending = true ∧
      (∀ k, restoredKey k = true → u.num k = dfltNum k ∧ u.blob k = dfltBlob k) ∧
      (∀ k, restoredKey k = false → k / 256 ≠ 0x1083 → k ≠ objKey 0x1011 1 → k ≠ objKey 0x1010 0 → u.num k = t.num k) ∧
      (∀ k, restoredKey k = false → u.blob k = t.blob k)) ∧
  (∀ (s t : State) (dt : Nat) (r : Request), s.reach dt r = t → t.mayStart r 0x4005 2 0 = true → t.tenancy = 0 →
    ∃ u, exec (.clearSuspicion dt 0 r) s = .next u ∧ u.num (objKey 0x4005 2) = 2 ∧
      (∀ k, objKey 0x4010 1 ≤ k ∧ k ≤ objKey 0x402F 0x0A ∨ objKey 0x4030 1 ≤ k ∧ k ≤ objKey 0x404F 2 → u.num k = dfltNum k) ∧
      ∀ c, c < 256 → u.core c = { t.core c with
        pending := if min (t.num (settingKey c)) 2100 = t.num (effectiveKey c) then none else some (min (t.num (settingKey c)) 2100) }) ∧
  (∀ (s t : State) (dt arg : Nat) (r : Request), s.reach dt r = t → t.mayStart r 0x12A1 0 arg = true → arg ≤ 1 → t.tripped = false →
    (arg = 1 ∨ t.tenancy = 0) →
    ∃ u, exec (.restart dt arg r) s = .next u ∧ PoweredDown u ∧ u.startup.stage = .restarting ∧ u.startup.cause = 1 ∧
      u.num startupKey = 0 ∧ u.num (objKey 0x12A1 0) = 1))

/-- Writes with an effect of their own: a rack key closes its slot's sessions (R44, R49); a clock setting asks for a change at once,
or once its cluster has the voltage it calls for (R23, R446); epochs begin at the first boundary at least 1 ms ahead (R62); a
coolant report out of its range caps the effective limit at 1,000 W (R447). -/
def Obligations.WritesWithEffects : Prop :=
  (∀ (s t : State) (dt slot : Nat) (key : Bytes) (r : Request), s.reach dt r = t → 1 ≤ slot → slot ≤ 8 →
    t.mayPut r 0x5020 slot .octets key = true →
    ∃ u, exec (.rackKeyWrite dt slot key r) s = .next u ∧ u.blob (objKey 0x5020 slot) = key ∧
      (∀ x ∈ u.net.sessions, x.slot ≠ slot) ∧ Rose t u (objKey 0x1011 1) 1) ∧
  (∀ (s t : State) (dt core mhz : Nat) (r : Request), s.reach dt r = t → core < 256 → mhz < 65536 →
    t.mayPut r (0x1210 + core / 8) (1 + core % 8) .u16 (natLe 2 mhz) = true →
    ∃ u, exec (.coreClockSet dt core mhz r) s = .next u ∧ u.num (settingKey core) = mhz ∧
      u.num (effectiveKey core) = t.num (effectiveKey core) ∧
      (t.num (voltageKey (core / 8)) < tableVoltage mhz + t.voltageOffset (core / 8) →
        (core / 8, core) ∈ u.power.raising ∧ u.core core = t.core core) ∧
      (tableVoltage mhz + t.voltageOffset (core / 8) ≤ t.num (voltageKey (core / 8)) →
        (∀ c, (c, core) ∉ u.power.raising) ∧ (u.core core).pending =
          if min mhz (t.ceiling core) = t.num (effectiveKey core) then none else some (min mhz (t.ceiling core)))) ∧
  (∀ (s t : State) (dt p o k : Nat) (r : Request), s.reach dt r = t → t.mayPut r 0x2100 3 .bool (natLe 1 1) = true → t.tenancy = 1 →
    t.epochsRunning = false → p = t.num (objKey 0x2100 1) * 1000 → 0 < p → o = t.num (objKey 0x2100 2) → k = firstBoundary o p t.now →
    ∃ u, exec (.epochsStart dt true r) s = .next u ∧ u.epochsRunning = true ∧ u.epoch = k - 1 ∧
      u.num nextBoundaryKey = o + k * p ∧ t.now + 1000000 ≤ o + k * p ∧ 1 ≤ k ∧
      (k = 1 ∨ o + (k - 1) * p < t.now + 1000000)) ∧
  (∀ (s t : State) (dt v : Nat) (flow : Bool) (r : Request), s.reach dt r = t → v < 65536 →
    t.mayPut r 0x1120 (if flow then 2 else 1) (if flow then .u16 else .i16) (natLe 2 v) = true →
    ∃ u, exec (.coolantReport dt flow v r) s = .next u ∧ u.num (objKey 0x1120 (if flow then 2 else 1)) = v ∧
      u.num (objKey 0x1120 3) = 1 ∧ u.power.coolantAt = some t.now ∧
      ((if flow then flowOk v else inletOk v) = false → u.power.coolantCap = true ∧ u.num (powerKey 2) ≤ 1000))

/-! ### Clocks and Fennel -/

/-- A requested clock takes effect once no engine of the core has a command in flight, the generator then relocks, and with the last
of a cluster's relocks its voltage falls to what the settings call for (R24, R446). A cluster whose raised voltage has settled makes
the requests that waited for it (R446). An engine of a core gates after 2 µs without a command in flight (R444), and a gated engine
starts again by Fennel's grant, at most one on a die in 8 ns (R443). -/
def Obligations.ClocksAndGrants : Prop :=
  ((∀ (s t : State) (dt cl : Nat), s.tick dt = t → t.power.raising.any (fun x => x.1 = cl) = true →
    ∃ u, exec (.voltageSettled dt cl) s = .next u ∧ u.num (voltageKey cl) = t.calledVoltage cl ∧
      u.power.raising = t.power.raising.filter (fun x => x.1 ≠ cl) ∧
      ∀ c, (cl, c) ∈ t.power.raising → (u.core c).pending =
        if t.wantedClock c = t.num (effectiveKey c) then none else some (t.wantedClock c)) ∧
  (∀ (s t : State) (dt core v : Nat), s.tick dt = t → (t.core core).pending = some v → (t.core core).relocking = false →
    (∀ u ∈ coreEngines core, t.inFlightOn u = []) →
    ∃ u, exec (.clockChangeApply dt core) s = .next u ∧ u.num (effectiveKey core) = v ∧
      u.core core = { pending := none, relocking := true } ∧ ∀ c, c ≠ core → u.core c = t.core c) ∧
  (∀ (s t : State) (dt core v : Nat) (x : UnitId), s.tick dt = t → (t.core core).pending = some v → x ∈ coreEngines core →
    t.inFlightOn x ≠ [] → exec (.clockChangeApply dt core) s = .next t) ∧
  (∀ (s t : State) (dt core : Nat), s.tick dt = t → (t.core core).relocking = true →
    ∃ u, exec (.clockRelockDone dt core) s = .next u ∧ u.core core = { t.core core with relocking := false } ∧
      (u.clocksSettled (core / 8) = true → u.num (voltageKey (core / 8)) =
        min (t.num (voltageKey (core / 8))) (t.calledVoltage (core / 8))) ∧
      (u.clocksSettled (core / 8) = false → u.num (voltageKey (core / 8)) = t.num (voltageKey (core / 8))))) ∧
  ((∀ (s t : State) (dt kind num : Nat) (x : UnitId), s.tick dt = t → engineOf kind num = some x → x.gates = true →
    (t.engine x).gated = false → (t.engine x).paused = false → t.inFlightOn x = [] → (t.engine x).idleSince + 2000 ≤ t.now →
    ∃ u, exec (.engineClockGate dt kind num) s = .next u ∧ u.engine x = { t.engine x with gated := true, granted := false } ∧
      Rose t u (objKey 0x1260 3) 1 ∧ ∀ y, y.code ≠ x.code → u.engine y = t.engine y) ∧
  (∀ (s t : State) (dt die : Nat) (x : UnitId) (c : Cmd), (s.tick dt).noteMetered = t →
    (t.waiting die).filterMap (fun u => (t.wouldStart u).map (fun c => (u, c))) = [(x, c)] → t.metered x c = false →
    (Map.find t.power.lastGrant die).all (fun g => g + 8 ≤ t.now) = true → x.num / 32 = die →
    ∃ u, exec (.fennelGrant dt die) s = .next u ∧ (u.engine x).granted = true ∧
      Rose t u (objKey 0x1260 1) 1 ∧ Map.find u.power.lastGrant die = some t.now) ∧
  (∀ (s t : State) (dt die g : Nat), s.tick dt = t → Map.find t.power.lastGrant die = some g → t.now < g + 8 →
    ∃ u, exec (.fennelGrant dt die) s = .next u ∧ ∀ x, (u.engine x).granted = (t.engine x).granted))

/-! ### Tenancies, jobs, epochs and time -/

/-- The end of a tenancy and the close of a job (R52, R55), none of them before what it waits for: the drained tenancy has no command, no translation of a job and no epoch
running, and its pending pages retire; the ended one has no table, no queue enabled, no job, and memory that is zero throughout. -/
def Obligations.EndsOfTenanciesAndJobs : Prop :=
  (∀ (s t : State) (dt : Nat), s.tick dt = t → t.epochs.ending = .draining → t.recovering = false → t.anyRunning = false →
    ∃ u, exec (.tenancyEndDrained dt) s = .next u ∧ u.epochs.ending = .zeroing ∧ u.cmds = [] ∧ u.epochsRunning = false ∧
      u.update.parts = [] ∧ (∀ e ∈ u.xlat.tlbs, ∀ x ∈ e.2, 0x40 ≤ x.tag) ∧
      (t.mem.retired.length + t.mem.pendingPages.length ≤ 1024 → ∀ p ∈ t.mem.pendingPages, p ∈ u.mem.retired)) ∧
  (∀ (s t : State) (dt : Nat), s.tick dt = t →
    (t.epochs.ending ≠ .draining ∨ t.recovering = true ∨ t.anyRunning = true → exec (.tenancyEndDrained dt) s = .next t) ∧
    (t.epochs.ending ≠ .zeroing ∨ t.recovering = true → exec (.tenancyEndComplete dt) s = .next t)) ∧
  (∀ (s t : State) (dt : Nat), s.tick dt = t → t.epochs.ending = .zeroing → t.recovering = false →
    ∃ u, exec (.tenancyEndComplete dt) s = .next u ∧ u.epochs.ending = .none ∧ u.tenancy = 0 ∧ u.num (objKey 0x2000 2) = 2 ∧
      (∀ j, j < 64 → u.job j = jobFree) ∧ (∀ q, (u.queue q).state = .disabled) ∧ u.tables = [] ∧ u.update.entries = [] ∧
      (∀ a, u.byte a = 0)) ∧
  (∀ (s t : State) (dt j : Nat) (c : Cmd), s.tick dt = t → c ∈ t.cmds → c.job = j → c.inFlight = true → c.unit.isSome = true →
    exec (.jobCloseComplete dt j) s = .next t) ∧
  (∀ (s t : State) (dt j : Nat), s.tick dt = t → j < 64 → t.job j = jobClosing →
    (∀ c ∈ t.cmds, c.job = j → c.inFlight = true → c.unit = none) →
    ∃ u, exec (.jobCloseComplete dt j) s = .next u ∧ u.job j = jobFree ∧ u.num (jobCloseKey j) = 2 ∧ (∀ c ∈ u.cmds, c.job ≠ j) ∧
      (∀ q, q / 16 = j → (u.queue q).state = .disabled) ∧ (∀ e ∈ u.xlat.tlbs, ∀ x ∈ e.2, x.tag ≠ j))

/-- The next boundary is committed one period ahead in free-running mode (R66), by an accepted edge in its window or, when none
comes, at the window's end in steered mode (R67, R68); an edge outside is counted and changes no boundary (R69). Time alignment
(R72, R73): a settled package asks its parent, measures delay and offset from the answer, steps its time base once and corrects only
by its rate, at the limit of 100 ppm while an offset is left, from then on; a child is answered; an offset above 50 ns for more than
10 ms loses alignment. -/
def Obligations.BoundariesAreAlignedAndCommitted : Prop :=
  ((∀ (s t : State) (dt : Nat), s.tick dt = t → t.epochsRunning = true → t.num nextBoundaryKey = 0 → t.epochs.mode = 0 →
    ∃ u, exec (.boundaryCommit dt) s = .next u ∧ u.num nextBoundaryKey = t.num boundaryKey + t.epochs.period * 1000 ∧
      ∀ k, k ≠ nextBoundaryKey → u.num k = t.num k) ∧
  (∀ (s t : State) (dt b : Nat), s.tick dt = t → b = t.now + 1000 + t.num (objKey 0x2101 2) →
    ∃ u, exec (.syncInEdge dt) s = .next u ∧ u.num (objKey 0x2101 7) = t.now ∧ u.epoch = t.epoch ∧
      (t.epochsRunning = true → t.num nextBoundaryKey = 0 → t.epochs.mode = 1 → t.inWindow b = true →
        u.num nextBoundaryKey = b ∧ Rose t u (objKey 0x2101 3) 1) ∧
      (t.epochsRunning = false ∨ t.num nextBoundaryKey ≠ 0 ∨ t.epochs.mode ≠ 1 ∨ t.inWindow b = false →
        u.num nextBoundaryKey = t.num nextBoundaryKey ∧ Rose t u (objKey 0x2101 4) 1)) ∧
  (∀ (s t : State) (dt : Nat), s.tick dt = t → t.epochsRunning = true → t.num nextBoundaryKey = 0 → t.epochs.mode = 1 →
    (t.nominal + t.periodNs / 4 ≤ t.now + 1000 →
      ∃ u, exec (.windowDecide dt) s = .next u ∧ u.num nextBoundaryKey = t.nominal + t.periodNs / 4 ∧ Rose t u (objKey 0x2101 6) 1) ∧
    (t.now + 1000 < t.nominal + t.periodNs / 4 → exec (.windowDecide dt) s = .next t))) ∧
  ((∀ (s t : State) (dt p : Nat), s.tick dt = t → t.fabric.parent = some p → t.fabric.settled = true → t.portUp p = true →
    ∃ u f, exec (.timeMessageSend dt) s = .next u ∧ u.epochs = { t.epochs with timeSent := some t.now } ∧
      u.out = t.out ++ [.frame p f]) ∧
  (∀ (s t : State) (dt p t1 t2 t3 : Nat) (off : Int), s.tick dt = t → t.fabric.parent = some p → t.portUp p = true →
    t.epochs.timeSent = some t1 → off = (((t1 : Int) - t2) + ((t.now : Int) - t3)) / 2 →
    ∃ u, exec (.timeMessageReceive dt p t2 t3) s = .next u ∧ u.epochs.timeSent = none ∧ u.epochs.stepped = true ∧
      u.num (objKey 0x2102 2) = ofSigned 32 off ∧
      u.epochs.linkDelay = ((((t.now : Int) - t1) - ((t3 : Int) - t2)) / 2).toNat ∧
      (t.epochs.stepped = false → u.now = (t.now - off).toNat ∧ u.flag alignedKey = true) ∧
      (t.epochs.stepped = true → u.now = t.now ∧ u.epochs.toCorrect = off ∧
        u.ratePpm = (if 0 < off then -100 else if off < 0 then 100 else 0) ∧
        (off.natAbs ≤ 50 → u.flag alignedKey = true ∧ u.epochs.offsetSince = none) ∧
        (50 < off.natAbs → u.epochs.offsetSince = some (t.epochs.offsetSince.getD t.now)))) ∧
  (∀ (s t : State) (dt p t2 t3 : Nat), s.tick dt = t → t.fabric.parent ≠ some p → t.portUp p = true → t.epochs.stepped = true →
    ∃ u f, exec (.timeMessageReceive dt p t2 t3) s = .next u ∧ u.out = t.out ++ [.frame p f] ∧ u.now = t.now) ∧
  (∀ (s t : State) (dt since : Nat), s.tick dt = t → t.epochs.offsetSince = some since → t.flag alignedKey = true →
    (since + 10000000 < t.now → ∃ u, exec (.alignmentLoss dt) s = .next u ∧ u.flag alignedKey = false ∧
      Rose t u (objKey 0x2102 4) 1) ∧
    (t.now ≤ since + 10000000 → exec (.alignmentLoss dt) s = .next t)))

/-- The committed boundary falls at its time, neither before nor after (R64, R65): the epoch number advances by one, the boundary is the
present one and none is committed, the period and mode written govern from here, the apply phase is that of the new epoch, and
SYNC_OUT rises while it is enabled (R70). Its pulse ends after 1,000 ns (R480). -/
def Obligations.BoundariesFall : Prop :=
  (∀ (s : State) (dt b : Nat), s.epochsRunning = true → s.num nextBoundaryKey = b → b ≠ 0 →
    (s.now + dt < b → exec (.epochBoundary dt) s = .next (s.tick dt)) ∧
    (b ≤ s.now + dt → s.epoch + 1 < 2 ^ 64 → ∃ u, exec (.epochBoundary dt) s = .next u ∧ u.epoch = s.epoch + 1 ∧
      u.num boundaryKey = b ∧ u.num nextBoundaryKey = 0 ∧ u.epochs.period = s.num (objKey 0x2100 1) ∧
      u.epochs.mode = s.num (objKey 0x2101 1) ∧ u.update.applyEpoch = u.epoch ∧ (s.now ≤ b → u.now = b) ∧
      (s.flag (objKey 0x2101 8) = true → s.epochs.syncOutChanged + 1000 ≤ b →
        u.epochs.syncOutHigh = true ∧ u.epochs.syncOutRose = b ∧ u.out.getLast? = some (.syncOut true)))) ∧
  (∀ (s t : State) (dt : Nat), s.tick dt = t → t.epochs.syncOutHigh = true → t.epochs.syncOutRose + 1000 ≤ t.now →
    exec (.syncOutPulseEnd dt) s =
      .next { t with epochs := { t.epochs with syncOutHigh := false }, out := t.out ++ [.syncOut false] })

/-! ### Execution faults, reports and recovery -/

/-- Whatever unit detects it, an execution fault loses every open or closing job and every enabled queue, drops what the engines
hold, leaves fences, tables, memory and merge entries alone, and is counted and recovered from (R345, R346). -/
def Obligations.ExecutionFaults : Prop :=
  ∀ (t : State) (r : Report), Faulted t (t.execFault r) ∧ Rose t (t.execFault r) (objKey 0x2000 8) 1 ∧
    (t.execFault r).update.entries = t.update.entries ∧ (t.execFault r).host.writes = t.host.writes ∧
    (t.execFault r).tenancy = t.tenancy ∧ r.unit.cluster ∈ (t.execFault r).integ.faultClusters ∧
    (∀ e ∈ (t.execFault r).xlat.tlbs, ∀ x ∈ e.2, 0x40 ≤ x.tag) ∧
    (t.integ.recoverySince = none → (t.execFault r).integ.recoverySince = some t.now)

/-- A unit holds at most four pending reports with distinct codes; a further report with a pending code folds into it, and one that
finds no room is counted as unheld (R412). Recovery ends and is counted with its length in µs, open actions may be accepted again,
and a tenancy end accepted meanwhile begins to drain (R345, R52). A core or lookup engine whose checker failed its self-test in a
faulted cluster is fenced (R431). -/
def Obligations.ReportsAndRecovery : Prop :=
  (∀ (t : State) (r : Report),
    (∀ p ∈ t.pendingOf r.unit, p.code = r.code →
      (t.report r).integ.reports.length = t.integ.reports.length ∧ (t.report r).integ.unheld = t.integ.unheld ∧
      { p with count := min (p.count + r.count) 0xFFFFFFFF, last := r.last } ∈ (t.report r).integ.reports) ∧
    ((∀ p ∈ t.pendingOf r.unit, p.code ≠ r.code) → (t.pendingOf r.unit).length < 4 →
      (t.report r).integ.reports = t.integ.reports ++ [r] ∧ (t.report r).dict = t.dict) ∧
    ((∀ p ∈ t.pendingOf r.unit, p.code ≠ r.code) → 4 ≤ (t.pendingOf r.unit).length →
      (t.report r).integ.reports = t.integ.reports ∧
      Map.get 0 (t.report r).integ.unheld r.unit.code = min (Map.get 0 t.integ.unheld r.unit.code + 1) 0xFFFF ∧
      Rose t (t.report r) (objKey 0x4000 7) 1) ∧
    ((t.pendingOf r.unit).length ≤ 4 → ((t.report r).pendingOf r.unit).length ≤ 4)) ∧
  (∀ (s t : State) (dt since : Nat) (failed : List Nat), s.tick dt = t → t.integ.recoverySince = some since →
    ∃ u, exec (.recoveryComplete dt failed) s = .next u ∧ u.recovering = false ∧ u.integ.faultClusters = [] ∧
      u.flag (objKey 0x2711 5) = false ∧ Rose t u (objKey 0x2711 3) 1 ∧
      u.num (objKey 0x2711 4) = (t.now - since) / 1000 % 2 ^ 32 ∧
      (t.epochs.ending = .waiting → u.epochs.ending = .draining) ∧ (t.epochs.ending ≠ .waiting → u.epochs.ending = t.epochs.ending) ∧
      (∀ c ∈ failed, ∀ v, (unitOfCode c).cluster ∈ t.integ.faultClusters → checkerUnit (unitOfCode c) = some v → u.fenced v = true))

/-! ### Power, temperatures and links between dies -/

/-- A power sample stores its readings and the product of input voltage and current, lets a written limit take effect, and engages
the levers as the run of excess grows (R434, R437, R439). Ten samples in a row at or below 95 % of the limit release the highest
lever. Temperature readings are stored, throttle step by step and trip the device (R269, R448, R449). The coolant's cap ends 10 s
after both values are back, or with the report itself when nothing has been written for 5 s (R447; the latter is the model's
reading, notes/assumptions/20.md); a die-to-die module that runs out of retries is an execution fault (R20), and one that retries
shows it until the data are through (R28, notes/assumptions/100.md). -/
def Obligations.PowerAndTemperature : Prop :=
  (∀ (s t : State) (dt mv mgt vio cur mw : Nat), s.tick dt = t → t.startup.stage ≠ .off → mw = mv * cur / 10 →
    ∃ u, exec (.powerSample dt mv mgt vio cur) s = .next u ∧ u.num (objKey 0x1130 1) = mv % 65536 ∧
      u.num (objKey 0x1130 2) = mgt % 65536 ∧ u.num (objKey 0x1130 3) = vio % 65536 ∧ u.num (objKey 0x1130 4) = cur % 65536 ∧
      u.num (powerKey 3) = mw / 1000 % 65536 ∧ u.num (powerKey 4) = max (mw / 1000 % 65536) (t.num (powerKey 4)) ∧
      u.num (powerKey 2) = t.limitNow ∧ u.power.sampleMw = mw ∧
      (t.limitNow * 1000 < mw → u.power.runStart = some (t.power.runStart.getD t.now) ∧
        ∀ e, e = (t.now - t.power.runStart.getD t.now) / 1000 →
          (1900 ≤ e → u.lever 0 = true ∧ u.lever 1 = true ∧ u.lever 2 = true ∧ u.lever 3 = true) ∧
          (1800 ≤ e → u.lever 0 = true ∧ u.lever 1 = true ∧ u.lever 2 = true) ∧
          (1500 ≤ e → u.lever 0 = true ∧ u.lever 1 = true) ∧ (1000 ≤ e → u.lever 0 = true)) ∧
      (1850000 < mw → t.limitNow * 1000 < mw → u.lever 1 = true) ∧
      (t.power.runStart = none → mw ≤ 1850000 → mw * 100 ≤ 95 * t.limitNow * 1000 → 9 ≤ t.power.goodSamples →
        u.num (powerKey 5) = t.num (powerKey 5) - (if t.num (powerKey 5) = 0 then 0 else 2 ^ log2 (t.num (powerKey 5))))) ∧
  ((∀ (s t : State) (dt k : Nat) (temp : Int), s.tick dt = t → t.startup.stage ≠ .off → k < 32 → t.tripped = false →
    ∃ u, exec (.logicTempSample dt k temp) s = .next u ∧
      (110 ≤ temp → u.tripped = true ∧ PoweredDown u ∧ u.pins = { fault := true, thermTrip := true }) ∧
      (temp ≤ 105 → Map.get 0 u.power.clusterSkip k =
        if 100 < temp then min 840 (Map.get 0 t.power.clusterSkip k + 105)
        else if temp ≤ 97 then Map.get 0 t.power.clusterSkip k - 105 else Map.get 0 t.power.clusterSkip k)) ∧
  (∀ (s t : State) (dt k : Nat) (temp : Int), s.tick dt = t → t.startup.stage ≠ .off → 32 ≤ k →
    ∃ u, exec (.logicTempSample dt k temp) s = .next u ∧ u.num (objKey 0x1118 1) = i16 temp ∧ u.power = t.power) ∧
  (∀ (s t : State) (dt k : Nat) (temp : Int), s.tick dt = t → k < 32 → t.powered = true → t.tripped = false →
    ∃ u, exec (.stackTempSample dt k temp) s = .next u ∧ u.num (objKey (0x2510 + k) 1) = i16 temp ∧
      (85 < temp → u.num (objKey (0x2510 + k) 2) = 2) ∧ (temp ≤ 83 → u.num (objKey (0x2510 + k) 2) = 1) ∧
      (83 < temp → temp ≤ 85 → u.num (objKey (0x2510 + k) 2) = t.num (objKey (0x2510 + k) 2)) ∧
      (100 ≤ temp → u.tripped = true ∧ PoweredDown u) ∧
      (94 < temp → temp ≤ 95 → Map.get 0 u.power.throttledStacks k = 2) ∧ (temp ≤ 90 → Map.get 0 u.power.throttledStacks k = 0))) ∧
  ((∀ (s t : State) (dt at_ : Nat), s.tick dt = t → t.power.coolantAt = some at_ → at_ + 5000000000 ≤ t.now →
    ∃ u, exec (.coolantReportStale dt) s = .next u ∧ u.num (objKey 0x1120 3) = 0 ∧ u.power.coolantCap = false ∧
      u.power.coolantAt = none ∧ u.num (powerKey 2) = u.limitNow) ∧
  (∀ (s t : State) (dt back : Nat), s.tick dt = t → t.power.coolantBack = some back →
    (back + 10000000000 ≤ t.now → ∃ u, exec (.coolantCapRelease dt) s = .next u ∧ u.power.coolantCap = false ∧
      u.num (powerKey 2) = u.limitNow) ∧
    (t.now < back + 10000000000 → exec (.coolantCapRelease dt) s = .next t)) ∧
  (∀ (s t : State) (dt m rx tx : Nat), s.tick dt = t → moduleExists m = true → t.powered = true →
    (∃ u, exec (.ucieRetryExhausted dt m ⟨rx, tx⟩ .exhausted) s = .next u ∧ Faulted t u ∧ u.num (moduleKey m) = 3 ∧
      Rose t u (objKey 0x1259 1) rx ∧ Rose t u (objKey 0x1259 2) tx) ∧
    (∃ u, exec (.ucieRetryExhausted dt m ⟨rx, tx⟩ .underWay) s = .next u ∧ u = { t with dict := u.dict } ∧
      (t.num (moduleKey m) = 1 → u.num (moduleKey m) = 2) ∧ Rose t u (objKey 0x1259 1) rx ∧ Rose t u (objKey 0x1259 2) tx) ∧
    (∃ u, exec (.ucieRetryExhausted dt m ⟨rx, tx⟩ .over) s = .next u ∧ u = { t with dict := u.dict } ∧
      (t.num (moduleKey m) = 2 → u.num (moduleKey m) = 1) ∧ Rose t u (objKey 0x1259 1) rx ∧ Rose t u (objKey 0x1259 2) tx)))

/-! ### Queues -/

/-- Enable, its clearing and the control registers (R311, R312): a disabled queue of an open job becomes idle with head and tail 0
and takes the fields; one of a job that is not open stays disabled; a queue not disabled ignores them. Cleared, an idle, error or
lost queue is disabled at once and an active one drains first. -/
def Obligations.QueueControl : Prop :=
  (∀ (s t : State) (dt q v : Nat), s.tick dt = t → q < 1024 →
    ∃ u, exec (.queueEnable dt q v) s = .next u ∧ (∀ p, p ≠ q → u.queue p = t.queue p) ∧
      ((t.queue q).state ≠ .disabled → u = t) ∧
      ((t.queue q).state = .disabled → t.job (queueJob q) ≠ jobOpen → u.queue q = { t.queue q with config := configMask v }) ∧
      ((t.queue q).state = .disabled → t.job (queueJob q) = jobOpen → u.queue q =
        { ring := (t.queue q).ring, config := configMask v + 1, state := .idle, error := 0, head := 0, tail := 0,
          disableAfter := false, launch := none })) ∧
  (∀ (s t : State) (dt q v : Nat), s.tick dt = t → q < 1024 →
    ∃ u, exec (.queueDisable dt q v) s = .next u ∧ (∀ p, p ≠ q → u.queue p = t.queue p) ∧
      ((t.queue q).state = .disabled → u.queue q = { t.queue q with config := configMask v }) ∧
      ((t.queue q).state = .idle ∨ (t.queue q).state = .error ∨ (t.queue q).state = .lost →
        (u.queue q).state = .disabled ∧ (u.queue q).config = configMask (t.queue q).config) ∧
      ((t.queue q).state = .active ∨ (t.queue q).state = .draining →
        u.queue q = { t.queue q with config := configMask (t.queue q).config, state := .draining, disableAfter := true })) ∧
  (∀ (s t : State) (dt q v : Nat), s.tick dt = t → q < 1024 →
    ∃ u, exec (.registerWrite dt (0x20000 + 64 * q) v 8) s = .next u ∧
      ((t.queue q).state = .disabled → u.queue q = { t.queue q with ring := ringMask v }) ∧ ((t.queue q).state ≠ .disabled → u = t))

/-- The front end judges a tail T against the accepted tail A and the head H of that instant, by the five rows of R316, in the order
in which the writes come. -/
def Obligations.DoorbellsAreJudged : Prop :=
  ∀ (s t : State) (dt q T : Nat) (rest : List Instr) (v : Queue), s.pending = .doorbell dt q T true :: rest →
    ({ s with pending := rest } : State).tick dt = t → q < 1024 → T < 2 ^ 48 → t.queue q = v →
    ∃ u, exec (.doorbell dt q T true) { s with pending := rest } = .next u ∧ step s = .next u ∧ u.pending = rest ∧
      (v.state ≠ .idle → v.state ≠ .active → u.queue q = v ∧ Rose t u (queueKey q 5) 1) ∧
      (v.state = .idle ∨ v.state = .active →
        (T < v.tail → (u.queue q).error = 0x6003 ∧ (u.queue q).tail = v.tail ∧ (u.queue q).head = v.head ∧
          (u.queue q).state ≠ .idle ∧ (u.queue q).state ≠ .active) ∧
        (T = v.tail → u.queue q = v ∧ Rose t u (queueKey q 4) 1) ∧
        (v.tail < T → T ≤ v.head + v.slots → u.queue q = { v with tail := T, state := .active } ∧ Rose t u (queueKey q 3) 1) ∧
        (v.tail < T → v.head + v.slots < T → (u.queue q).error = 0x6004 ∧ (u.queue q).tail = v.tail ∧ (u.queue q).head = v.head ∧
          (u.queue q).state ≠ .idle ∧ (u.queue q).state ≠ .active))

/-- An active queue whose accepted tail exceeds its head reads its next slot, and takes it when it carries the sequence; a malformed
slot is queue error 0x6005; a slot that is not yet visible is read again each microsecond until a re-read issued after the
visibility window fails, queue error 0x6001 (R314, R317, R319). The commands of a taken slot are then read one by one, checked, and
refused with an execution fault or entered under their index (R323, R485). -/
def Obligations.SlotsAndCommandsAreFetched : Prop :=
  (∀ (s t x : State) (dt q : Nat) (v : Queue) (l : Launch) (b : Bytes), s.tick dt = t → t.queue q = v → v.state = .active →
    t.mayFetch (queueJob q) = true → v.head < v.tail → v.launch = none →
    l = { seq := v.head + 1, firstRead := t.slotAsked q, lastRead := t.slotAsked q, read := false, taken := false, slot := [], started := 0, fetched := 0,
          completed := 0, done := [], clusters := [], error := 0, held := false, hostHeld := false, heldAt := 0 } →
    (t.setQueue q { v with launch := some l }).feRead q (.slot q) (v.slotAddress (v.head + 1)) 64 true = .ok b x →
    ∃ u, exec (.slotFetch dt q) s = .next u ∧
      (slotSeq b = v.head + 1 → slotMalformed b = false → slotFenceOk b = true → (u.queue q).launch =
        some { l with read := true, taken := true, slot := b, started := x.now, lastRead := x.now }) ∧
      (slotSeq b = v.head + 1 → slotMalformed b = true → (u.queue q).error = 0x6005 ∧ (u.queue q).state = .draining) ∧
      (slotSeq b ≠ v.head + 1 → (u.queue q).launch = some { l with read := true, lastRead := x.now })) ∧
  (∀ (s t x : State) (dt q : Nat) (l : Launch) (b : Bytes), s.tick dt = t → (t.queue q).launch = some l →
    (t.queue q).state = .active → l.taken = false → l.read = true → t.mayFetch (queueJob q) = true →
    l.firstRead + ((l.lastRead - l.firstRead) / 1000 + 1) * 1000 ≤ t.now →
    t.feRead q (.slot q) ((t.queue q).slotAddress l.seq) 64 true = .ok b x →
    ∃ u, exec (.slotReread dt q) s = .next u ∧ Rose x u (queueKey q 6) 1 ∧
      (slotSeq b = l.seq → slotMalformed b = false → slotFenceOk b = true → ∃ l', (u.queue q).launch = some l' ∧
        l'.taken = true ∧ l'.slot = b ∧ l'.seq = l.seq) ∧
      (slotSeq b ≠ l.seq → l.firstRead + x.num (objKey 0x2700 2) * 1000 ≤ t.slotAsked q → (u.queue q).error = 0x6001) ∧
      (slotSeq b ≠ l.seq → t.slotAsked q < l.firstRead + x.num (objKey 0x2700 2) * 1000 →
        (u.queue q).launch = some { l with hostHeld := false, lastRead := x.now })) ∧
  (∀ (s t x : State) (dt q : Nat) (l : Launch) (b : Bytes), s.tick dt = t → (t.queue q).launch = some l → (t.queue q).error = 0 →
    l.mayFetchNext = true → t.mayFetch (queueJob q) = true →
    t.feRead q (.command q l.fetched) (slotBuffer l.slot + 64 * l.fetched) 64 false = .ok b x →
    ∃ u, exec (.commandFetch dt q) s = .next u ∧
      (fetchOk b l.fetched (x.flag (objKey 0x2401 1)) = false → Faulted x u) ∧
      (fetchOk b l.fetched (x.flag (objKey 0x2401 1)) = true → u.nextCmd = x.nextCmd + 1 ∧
        (∀ k, x.cmds = [] → (headerWaits b).all (· = 0) = true →
          opcodeKind (fieldLe b 0 1) (bits (fieldLe b 1 1) 2 0) = some k → x.fenced ⟨k, bits (fieldLe b 2 2) 9 0⟩ = false →
          (u.queue q).launch = some { l with fetched := l.fetched + 1, held := false, hostHeld := false } ∧
          u.cmds = [
            { id := x.nextCmd, queue := q, index := l.fetched, job := queueJob q, bytes := b,
              unit := some ⟨k, bits (fieldLe b 2 2) 9 0⟩, phase := .handed, started := x.now, watched := 0, held := none, xl := [],
              armed := false, unwatched := false, uncharged := false, progress := 0, scratch := [] }])))

/-- A launch all of whose commands have completed writes its record, then signals, moves the head and raises the vector, and the
queue goes idle when head and tail are equal and on to the next slot otherwise (R317, R330). A draining queue that holds no handed
command ends in error, with its record written when its slot had been taken, or disabled (R311, R336). -/
def Obligations.LaunchesEnd : Prop :=
  (∀ (s t x : State) (dt q : Nat) (l : Launch) (v : Queue), s.tick dt = t → (t.queue q).launch = some l → l.allDone = true → l.error = 0 →
    (slotRecord l.slot = false ∧ x = t ∨ slotRecord l.slot = true ∧ ∃ d,
      t.feWrite q (slotRecordAt l.slot) (completionRecord l.seq 0 l.completed l.started t.now) = .ok d x) →
    x.queue q = v →
    ∃ u, exec (.launchComplete dt q) s = .next u ∧ (u.queue q).head = l.seq ∧ (u.queue q).tail = v.tail ∧
      (u.queue q).launch = none ∧ Rose x u (queueKey q 1) 1 ∧ (∀ a, u.byte a = x.byte a) ∧
      (v.error = 0 → v.disableAfter = false → (u.queue q).state = if v.tail ≤ l.seq then .idle else .active) ∧
      (v.error = 0 → v.disableAfter = true → (u.queue q).state = .disabled) ∧
      (v.error ≠ 0 → (u.queue q).state = if v.disableAfter then .disabled else .error) ∧
      (∀ n, u.fence n = if slotSignal l.slot = true ∧ n = slotFence l.slot then max (x.fence n) (slotValue l.slot) else x.fence n) ∧
      (slotInterrupt l.slot = true → u.host.held.any (fun h => h.vector = v.vector) = true)) ∧
  (∀ (s t : State) (dt q : Nat) (v : Queue), s.tick dt = t → t.queue q = v → v.state = .draining → t.handedOf q = [] →
    (v.launch = none → ∃ u, exec (.queueDrainDone dt q) s = .next u ∧ (u.queue q).launch = none ∧ (u.queue q).error = v.error ∧
      (u.queue q).state = if v.error = 0 ∨ v.disableAfter = true then .disabled else .error) ∧
    (∀ (l : Launch) (x : State), v.launch = some l → l.error ≠ 0 →
      ((l.taken && slotRecord l.slot) = false ∧ x = t ∨ (l.taken && slotRecord l.slot) = true ∧ ∃ d,
        t.feWrite q (slotRecordAt l.slot) (completionRecord l.seq l.error l.completed l.started t.now) = .ok d x) →
      x.queue q = v →
      ∃ u, exec (.queueDrainDone dt q) s = .next u ∧ (u.queue q).launch = none ∧ (u.queue q).head = v.head ∧
        u.fences = x.fences ∧ (u.queue q).state = if v.disableAfter then .disabled else .error))

/-- A fence is named by a field whose bits above 11 are zero; a signal sets it to the greater of its value and v and touches no
other; so no fence decreases and the order of two signals does not matter; a wait is satisfied once the fence is at least its value;
and a signal is seen by every waiter and in the fence window from its moment on (R325, R326). -/
def Obligations.FencesSignalAndWait : Prop :=
  (∀ name : Nat, fenceOk name = true ↔ name / 4096 = 0) ∧
  (∀ (t : State) (n v m : Nat), v < 2 ^ 64 → (t.signal n v).fence m = if m = n then max (t.fence n) v else t.fence m) ∧
  (∀ (t : State) (n a b m : Nat), ((t.signal n a).signal n b).fence m = ((t.signal n b).signal n a).fence m) ∧
  (∀ (s t : State) (dt id : Nat) (c : Cmd), s.tick dt = t → t.control? id 0x01 = some c →
    ∃ u, exec (.fenceSignal dt id) s = .next u ∧ Completed t u c ∧
      ∀ m, u.fence m = if m = c.u64 40 then max (t.fence m) (c.u64 48) else t.fence m) ∧
  (∀ (s t : State) (dt id : Nat) (c : Cmd), s.tick dt = t → t.control? id 0x02 = some c →
    (c.u64 48 ≤ t.fence (c.u64 40) → ∃ u, exec (.fenceWait dt id) s = .next u ∧ Completed t u c ∧ u.fences = t.fences) ∧
    (t.fence (c.u64 40) < c.u64 48 → exec (.fenceWait dt id) s = .next t)) ∧
  (∀ (s t : State) (dt n v : Nat), s.tick dt = t → n < 4096 → v < 2 ^ 64 →
    exec (.fenceValueWrite dt n v true) s = .next (t.signal n v) ∧ exec (.fenceValueWrite dt n v false) s = .next t ∧
    exec (.registerWrite dt (0x50000 + 8 * n) v 8) s = .next (t.signal n v) ∧
    exec (.registerWrite dt (0x50000 + 8 * n) v 4) s = .next t)

/-- The other control commands (R327, R329, R388): a no-op completes, a barrier and a host fence complete when what they wait for
has come and not before, a tag invalidate begins an invalidation and completes with it, once no write translated to storage here is
outstanding under its tag (R283), and a wait whose timeout passes first is queue error 0x6002. -/
def Obligations.ControlCommands : Prop :=
  (∀ (s t : State) (dt id : Nat) (c : Cmd), s.tick dt = t → t.control? id 0x00 = some c →
    ∃ u, exec (.noOp dt id) s = .next u ∧ Completed t u c) ∧
  (∀ (s t : State) (dt id : Nat) (c : Cmd), s.tick dt = t → t.control? id 0x05 = some c →
    ((∀ i, i < c.index → t.isDone c.queue i = true) → ∃ u, exec (.barrier dt id) s = .next u ∧ Completed t u c) ∧
    (∀ i, i < c.index → t.isDone c.queue i = false → exec (.barrier dt id) s = .next t)) ∧
  (∀ (s t : State) (dt id : Nat) (c : Cmd), s.tick dt = t → t.control? id 0x04 = some c → t.attached = true →
    (t.coveredWrites c = [] → ∃ u, exec (.hostFence dt id) s = .next u ∧ Completed t u c) ∧
    (t.coveredWrites c ≠ [] → ∃ u, exec (.hostFence dt id) s = .next u ∧ u.cmds.map (fun d => d.id) = t.cmds.map (fun d => d.id))) ∧
  (∀ (s t : State) (dt id : Nat) (c : Cmd), s.tick dt = t → t.control? id 0x03 = some c → c.armed = false →
    ∃ u, exec (.tagInvalidate dt id) s = .next u ∧ u.xlat.invals = t.xlat.invals ++ [⟨c.job, .command c.id, t.now⟩] ∧
      u.queues = t.queues) ∧
  (∀ (s t : State) (dt tag : Nat) (i : Inval), s.tick dt = t → t.inval? tag = some i → t.localWriteOut tag = true →
    exec (.invalidationComplete dt tag) s = .next t) ∧
  (∀ (s t : State) (dt tag : Nat) (i : Inval), s.tick dt = t → t.inval? tag = some i → t.localWriteOut tag = false →
    (i.source = .register → t.xlat.invals.find? (fun x => x.source = .register) = some i →
      ∃ u, exec (.invalidationComplete dt tag) s = .next u ∧ u.xlat.invals = t.xlat.invals.erase i ∧
        u.xlat.done = (t.xlat.done + 1) % 2 ^ 32 ∧ (tag < 0x40 → ∀ e ∈ u.xlat.tlbs, ∀ x ∈ e.2, x.tag ≠ tag)) ∧
    (i.source = .action → ∃ u, exec (.invalidationComplete dt tag) s = .next u ∧ u.xlat.invals = t.xlat.invals.erase i ∧
      u.num (objKey 0x2600 3) = 2 ∧ (tag < 0x40 → ∀ e ∈ u.xlat.tlbs, ∀ x ∈ e.2, x.tag ≠ tag)) ∧
    (∀ id c, i.source = .command id → t.control? id 0x03 = some c →
      ∃ u, exec (.invalidationComplete dt tag) s = .next u ∧ Completed t u c ∧ u.xlat.invals = t.xlat.invals.erase i)) ∧
  (∀ (s t : State) (dt id : Nat) (c : Cmd), s.tick dt = t → t.control? id 0x02 = some c → t.fence (c.u64 40) < c.u64 48 →
    (c.started + c.scratch.headD 0 * 1000 ≤ t.now →
      ∃ u, exec (.fenceWaitTimeout dt id) s = .next u ∧ (u.queue c.queue).error = 0x6002 ∧ Rose t u (queueKey c.queue 7) 1 ∧
        u.fences = t.fences) ∧
    (t.now < c.started + c.scratch.headD 0 * 1000 → exec (.fenceWaitTimeout dt id) s = .next t))

/-! ### Scheduling -/

/-- The command of the job that holds the turn starts (R323, R339), a finished one completes (R322), one that has run for 10 ms is
an execution fault (R344), and a floor interval ends 1,000 µs after it began (R341). -/
def Obligations.CommandsStartAndEnd : Prop :=
  (∀ (s t v : State) (dt kind num j : Nat) (x : UnitId) (c : Cmd), s.tick dt = t → engineOf kind num = some x → t.fenced x = false →
    t.blocked x = false → t.startables x ≠ [] → (x.gates && (t.engine x).gated && !(t.engine x).granted) = false →
    t.turn x = (some j, v) → (v.startables x).find? (fun c => c.job = j) = some c →
    ∃ u, exec (.commandStart dt kind num) s = .next u ∧ { c with phase := .running, started := t.now, watched := 0 } ∈ u.cmds ∧
      (u.engine x).gated = false ∧ (u.engine x).granted = false ∧ (u.engine x).turn = some j) ∧
  (∀ (s t : State) (dt id : Nat) (c : Cmd), s.tick dt = t → t.cmd? id = some c → c.phase = .finished →
    (t.epochsRunning = true ∨ t.tables = [] ∧ t.update.swaps = []) →
    ∃ u, exec (.commandComplete dt id) s = .next u ∧ Completed t u c) ∧
  (∀ (s t : State) (dt id : Nat) (c : Cmd), s.tick dt = t → t.cmd? id = some c → c.inFlight = true → c.unit.isSome = true →
    (10000000 ≤ c.watched → ∃ u, exec (.watchdogExpiry dt id) s = .next u ∧ Faulted t u ∧ Rose t u (objKey 0x2711 2) 1) ∧
    (c.watched < 10000000 → exec (.watchdogExpiry dt id) s = .next t)) ∧
  (∀ (s t : State) (dt kind num : Nat) (x : UnitId) (i : FloorInterval), s.tick dt = t → engineOf kind num = some x →
    (t.engine x).interval = some i →
    (i.start + 1000000 ≤ t.now → exec (.floorIntervalEnd dt kind num) s = .next (t.setEngine x { t.engine x with interval := none })) ∧
    (t.now < i.start + 1000000 → exec (.floorIntervalEnd dt kind num) s = .next t))

/-- A turn that begins goes to a job of the latency class when one has a command to start and the background floor is met, and to a
background job otherwise; the job is one of those offered; its balance has risen by its slice, at most to the slice, and lies above
zero (R339, R340, R341). -/
def Obligations.TurnsFollowClassAndBalance : Prop :=
  ∀ (s : State) (lat bg : List Nat) (fuel : Nat) (e : Engine) (skip skip' : List Nat) (r : TurnStart),
    (∀ j ∈ lat, j < 64) → (∀ j ∈ bg, j < 64) → s.beginTurn lat bg fuel e skip = (some r, skip') →
    r.engine.turn = some r.job ∧ 0 < r.engine.balance r.job ∧ r.engine.balance r.job ≤ s.slice r.job ∧
    r.engine.interval = e.interval ∧ r.engine.floorTurn = r.viaFloor ∧
    (r.viaFloor = true ↔ lat ≠ [] ∧ bg ≠ [] ∧ e.interval.any FloorInterval.below = true) ∧
    (r.latency = true ↔ lat ≠ [] ∧ r.viaFloor = false) ∧ (r.latency = true → r.job ∈ lat) ∧ (r.latency = false → r.job ∈ bg) ∧
    (∀ j ∈ skip', j ∈ skip ∨ j ∈ lat ∨ j ∈ bg)

/-! ### Translation -/

/-- Invalidations are queued, at most 16 from the register (R284), and one of a firmware or unused tag completes at once (R275); a
walk that ends gives a requester that still waits the page, a fault it is held on, or an execution fault (R280, R281); a resume
releases a job's held commands (R282). -/
def Obligations.InvalidationsAndWalks : Prop :=
  (∀ (s t : State) (dt v : Nat), s.tick dt = t → bit v 16 = false →
    (t.regPending < 16 → v % 256 < 0x40 → exec (.trnInval dt v) s =
      .next { t with xlat := { t.xlat with invals := t.xlat.invals ++ [⟨v % 256, .register, t.now⟩] } }) ∧
    (t.regPending < 16 → 0x40 ≤ v % 256 → ∃ u, exec (.trnInval dt v) s = .next u ∧
      u.xlat = { t.xlat with done := (t.xlat.done + 1) % 2 ^ 32 } ∧ Rose t u (objKey 0x2600 2) 1) ∧
    (16 ≤ t.regPending → exec (.trnInval dt v) s = .next { t with xlat := { t.xlat with overrun := true } })) ∧
  (∀ (s t : State) (dt v : Nat), s.tick dt = t →
    exec (.trnInvalOverrunClear dt v) s = .next { t with xlat := { t.xlat with overrun := false } } ∧
    (bit v 16 = true → exec (.trnInval dt v) s = .next { t with xlat := { t.xlat with overrun := false } })) ∧
  (∀ (s t y x : State) (dt cl tag page : Nat) (k : Walk) (w : Waiter) (r : WalkResult), s.tick dt = t →
    t.xlat.walks.find? (fun k => k.cluster = cl ∧ k.tag = tag ∧ k.page = page) = some k → t.walkRuns k = true → k.waiters = [w] →
    w.va / 0x200000 = page →
    y = { t with xlat := { t.xlat with walks := t.xlat.walks.filter (fun x => x ≠ k) } } →
    y.walk (y.walkClass [w]) tag (page * 0x200000) = (r, x) →
    (x.waits w = false → exec (.walkComplete dt cl tag page) s = .next x) ∧
    (x.waits w = true → ∃ u, exec (.walkComplete dt cl tag page) s = .next u ∧
      (∀ size target write, r = .leaf size target write → (w.write = true → write = true) →
        x.badTarget (target.plus (w.va - page * 0x200000 / 2 ^ size * 2 ^ size)) = false →
        (u.tlb w.unit).head? = some ⟨tag, page * 0x200000 / 2 ^ size * 2 ^ size, size, target, write⟩ ∧ u.fences = x.fences) ∧
      (∀ size target, r = .leaf size target false → w.write = true → Faulted x u) ∧
      (r = .invalid true → x.faultQueueRoom = true → ∀ c, x.cmd? w.cmd = some c →
        ∃ c', u.cmd? w.cmd = some c' ∧ c'.held = some w.va) ∧
      (r = .invalid true → x.faultQueueRoom = false → Faulted x u) ∧
      (r = .invalid false → Faulted x u) ∧ (∀ d, r = .fault d → Faulted x u))) ∧
  (∀ (s t : State) (dt v : Nat), s.tick dt = t → ∃ u, exec (.trnResume dt v) s = .next u ∧
    (∀ c ∈ u.cmds, c.job = v % 64 → c.held = none) ∧ u.cmds.map (fun c => { c with held := none }) =
      t.cmds.map (fun c => { c with held := none }))

/-- The migration copier (R285 to R289): a Go while copying is counted and ignored; otherwise the fields are taken and the copy
runs, or fails with the reason of what is wrong and leaves every byte outside its destination page as it was; a copy ends done with
its page written, or failed where its page cannot be read. -/
def Obligations.MigrationCopies : Prop :=
  (∀ (s t : State) (dt v : Nat), s.tick dt = t → bit v 0 = true →
    ∃ u, exec (.migrationGo dt v) s = .next u ∧
      (t.xlat.migState = 1 → u.xlat = t.xlat ∧ Rose t u (objKey 0x2601 4) 1) ∧
      (∀ x : State, t.xlat.migState ≠ 1 →
        x = { t with xlat := { t.xlat with
          migCtl := v &&& 0x3F02, migState := 1, migReason := 0, migStarted := t.now, copySrc := t.xlat.migSrc,
          copyDst := t.xlat.migDst, copyCtl := v &&& 0x3F02 } } →
        (x.migrationBad = true → u.xlat.migState = 3 ∧ u.xlat.migReason = 4) ∧
        (x.migrationBad = false → t.attached = false → u.xlat.migState = 3 ∧ u.xlat.migReason = 1) ∧
        (x.migrationBad = false → t.attached = true → x.meetsRetired x.migrationLocal 0x200000 = true →
          u.xlat.migState = 3 ∧ u.xlat.migReason = 3) ∧
        (x.migrationBad = false → t.attached = true → x.meetsRetired x.migrationLocal 0x200000 = false → u.xlat = x.xlat) ∧
        (∀ a, bit v 1 = true ∨ a < x.migrationLocal ∨ x.migrationLocal + 0x200000 ≤ a → u.byte a = t.byte a))) ∧
  (∀ (s t : State) (dt : Nat) (d : Bytes), s.tick dt = t → t.xlat.migState = 1 → bit t.xlat.copyCtl 1 = false → d.length = 0x200000 →
    isStacked t.migrationLocal = true → t.meetsRetired t.migrationLocal 0x200000 = false →
    (∀ r, t.host.reads.find? (fun r => r.user = .migration) = some r → r.data = some d →
      ∃ u, exec (.migrationComplete dt) s = .next u ∧ u.xlat.migState = 2 ∧ u.xlat.migReason = 0 ∧ Rose t u (objKey 0x2601 1) 1 ∧
        (∀ a, u.byte a = if t.migrationLocal ≤ a ∧ a < t.migrationLocal + 0x200000 then d.getD (a - t.migrationLocal) 0 else t.byte a))) ∧
  (∀ (s t x : State) (dt : Nat) (d : Bytes), s.tick dt = t → t.xlat.migState = 1 → bit t.xlat.copyCtl 1 = true →
    t.read ⟨.c2, some (bits t.xlat.copyCtl 13 8)⟩ t.migrationLocal 0x200000 = (.ok d, x) →
    ∃ u, exec (.migrationComplete dt) s = .next u ∧ u.xlat.migState = 2 ∧ u.host.writes = t.host.writes ++
      [⟨t.host.issued, 0xF1, 3, 0, t.migrationHost, d, false⟩] ∧ ∀ a, u.byte a = t.byte a) ∧
  (∀ (s t x : State) (dt e : Nat), s.tick dt = t → t.xlat.migState = 1 → bit t.xlat.copyCtl 1 = true →
    t.read ⟨.c2, some (bits t.xlat.copyCtl 13 8)⟩ t.migrationLocal 0x200000 = (.bad e, x) →
    ∃ u, exec (.migrationComplete dt) s = .next u ∧ u.xlat.migState = 3 ∧ u.xlat.migReason = (if e = 0x1003 then 3 else 2) ∧
      Rose t u (objKey 0x2601 2) 1)

/-! ### The host -/

/-- The link, configuration, decoder, IDE and attachment (R379, R381, R382, R393, R397, R398, R401, R458). An attach is accepted
when its conditions hold, and otherwise says which failed first. A loss takes the decoder and the configuration back to reset; the
discarding that it begins with leaves no device write without GO and counts each. A loss of what is already lost changes nothing. -/
def Obligations.HostLinkAndAttachment : Prop :=
  (∀ (s t : State) (dt w r : Nat), s.tick dt = t → t.host.perst = true → t.host.phy = true → t.host.dlUp = false → w ∈ [4, 8, 16] →
    r ∈ [8, 16, 32, 64] →
    ∃ u, exec (.hostLinkUp dt w r) s = .next u ∧ u.host = { t.host with dlUp := true } ∧ u.num hostStateKey = 1 ∧
      u.num (objKey 0x3100 2) = w ∧ u.num (objKey 0x3100 3) = r) ∧
  (∀ (s t : State) (dt n : Nat), s.tick dt = t → t.host.dlUp = true →
    ∃ u, exec (.linkRecovery dt n) s = .next u ∧ Rose t u (objKey 0x3101 2) 1 ∧ Rose t u (objKey 0x6E00 5) n ∧ u.host = t.host) ∧
  (∀ (s t : State) (dt : Nat) (f : ConfigField) (w v : Bool), s.tick dt = t → t.host.dlUp = true →
    (t.num startupKey = 0 → exec (.configurationRequest dt f w v) s = .next { t with out := t.out ++ [.configRetry] }) ∧
    (t.num startupKey ≠ 0 → ∃ u, exec (.configurationRequest dt f w v) s = .next u ∧
      u.out = t.out ++ [.configDone (if w then [] else t.readConfig f)] ∧
      (w = false → u.host = t.host) ∧ (w = true → f = .memorySpace → u.host = { t.host with memSpace := v }) ∧
      (w = true → f = .busMaster → u.host = { t.host with busMaster := v }) ∧
      (w = true → f = .msixEnable → u.host = { t.host with msix := v }) ∧
      (w = true → f = .uioEnable → u.host = { t.host with uio := v }) ∧
      (f = .functionReset ∨ f = .other → u.host = t.host))) ∧
  (∀ (s t : State) (dt b : Nat), s.tick dt = t → t.host.dlUp = true → b % 0x10000000 = 0 → b < 2 ^ 64 →
    ∃ u, exec (.hdmCommit dt b) s = .next u ∧ u.host = { t.host with committed := true } ∧ u.num (objKey 0x2600 1) = b) ∧
  (∀ (s t : State) (dt id n : Nat) (skid : Bool), s.tick dt = t → t.host.dlUp = true → n < 4 →
    t.spdm.sessions.any (fun x => x.id = id && x.established) = true →
    (∃ u, exec (.ideKmMessage dt id n .program) s = .next u ∧ bit u.host.ideKeys n = true) ∧
    (bit t.host.ideKeys n = true → ∃ u, exec (.ideKmMessage dt id n (.activate skid)) s = .next u ∧ bit u.host.ideKeys (n + 8) = true ∧
      u.host.ideSkid = if n = 0 then skid else t.host.ideSkid) ∧
    (bit t.host.ideKeys n = false → exec (.ideKmMessage dt id n (.activate skid)) s = .next t)) ∧
  (∀ (s t : State) (dt : Nat), s.tick dt = t → t.attached = false →
    (t.attachRefusal ≠ 0 → exec (.hostAttach dt) s = .next { t with host := { t.host with refusal := t.attachRefusal } }) ∧
    (t.attachRefusal = 0 → ∃ u, exec (.hostAttach dt) s = .next u ∧ u.attached = true ∧ u.host.refusal = 0 ∧
      Rose t u (objKey 0x3101 3) 1)) ∧
  (∀ (s t : State) (dt : Nat), s.tick dt = t → t.attached = true → exec (.hostAttach dt) s = .next t) ∧
  (∀ (s t : State) (dt : Nat), s.tick dt = t → ∃ u, exec (.hostClearLog dt) s = .next u ∧
    u.host = { t.host with discards := [] } ∧ u.num (objKey 0x3101 7) = 0 ∧ u.num (objKey 0x3101 8) = 0 ∧
    u.num (objKey 0x3101 9) = 0) ∧
  (∀ (s t : State) (dt : Nat) (p : Bool), s.tick dt = t → (if p then t.host.perst else t.host.dlUp) = true →
    ∃ u, exec (.hostLinkLoss dt p) s = .next u ∧ u.host.dlUp = false ∧ u.host.committed = false ∧ u.host.memSpace = false ∧
      u.host.busMaster = false ∧ u.host.msix = false ∧ u.host.ideKeys = 0 ∧ u.host.p2pBase = [] ∧ u.num (objKey 0x2600 1) = 0 ∧
      (p = true → u.host.perst = false)) ∧
  (∀ (s t : State) (dt : Nat) (p : Bool), s.tick dt = t → (if p then t.host.perst else t.host.dlUp) = false →
    exec (.hostLinkLoss dt p) s = .next t) ∧
  (∀ t : State, t.discardWrites.host.writes = [] ∧ Rose t t.discardWrites (objKey 0x3101 4) t.host.writes.length)

/-- Device memory as the host sees it, and host memory as the device sees it (R384, R386, R389, R391, R396): a host read of an
active tenancy's memory gives its bytes, without one zeros; a write changes exactly the bytes it covers, and none without a tenancy;
a peer's conventional request is not served; data, completions and snoops do what they say; a vector goes out when it may. -/
def Obligations.HostAndDeviceMemory : Prop :=
  (∀ (s t : State) (dt a n : Nat), s.tick dt = t → t.hdmUp = true → t.outsideHdm a n = false →
    ∃ u, exec (.hostMemRead dt a n) s = .next u ∧ (∀ b, u.byte b = t.byte b) ∧ Rose t u (objKey 0x6E00 1) 1 ∧
      (t.tenancy ≠ 1 → u.out = t.out ++ [.hostData (List.replicate n 0) false]) ∧
      (t.tenancy = 1 → t.meetsRetired (a - t.num (objKey 0x2600 1)) n = false → t.firstBad (a - t.num (objKey 0x2600 1)) n = none →
        1 ≤ n → u.out = t.out ++ [.hostData (t.bytes (a - t.num (objKey 0x2600 1)) n) false])) ∧
  (∀ (s t : State) (dt a o : Nat) (d : Bytes) (uio : Bool), s.tick dt = t → t.hdmUp = true → t.outsideHdm a d.length = false →
    o = a - t.num (objKey 0x2600 1) → 1 ≤ d.length →
    ∃ u, exec (.hostMemWrite dt a d uio) s = .next u ∧ Rose t u (objKey 0x6E00 2) 1 ∧
      (t.tenancy ≠ 1 → u.mem = t.mem ∧ u.out = t.out ++ [.hostDone false] ∧ Rose t u (objKey 0x3103 4) 1) ∧
      (t.tenancy = 1 → t.meetsRetired o d.length = false → wholeWords o d.length = false →
        u.mem = t.mem ∧ u.out = t.out ++ [.hostDone uio] ∧ Rose t u (objKey 0x3103 1) 1) ∧
      (t.tenancy = 1 → t.meetsRetired o d.length = false → wholeWords o d.length = true → u.out = t.out ++ [.hostDone false] ∧
        ∀ b, u.byte b = if o ≤ b ∧ b < o + d.length then d.getD (b - o) 0 else t.byte b)) ∧
  (∀ (s t : State) (dt a : Nat), s.tick dt = t → t.hdmUp = true → t.outsideHdm a 1 = false →
    ∃ u, exec (.peerMemRequest dt a) s = .next u ∧ u.out = t.out ++ [.unsupportedRequest] ∧ Rose t u (objKey 0x3103 3) 1 ∧ u.mem = t.mem) ∧
  (∀ (s t : State) (dt n : Nat) (d : Bytes) (r : HostRead), s.tick dt = t →
    (t.host.reads.filter (fun r => r.data.isNone))[n]? = some r →
    ((∀ c w a, r.user ≠ .flush c w a) → ∃ u, exec (.hostReadData dt n false d) s = .next u ∧
      { r with data := some (sub d 0 r.length) } ∈ u.host.reads ∧ u.cmds = t.cmds ∧ u.mem = t.mem) ∧
    (r.user ≠ .migration → ∃ u, exec (.hostReadData dt n true d) s = .next u ∧ Faulted t u)) ∧
  (∀ (s t : State) (dt n : Nat) (w : HostWrite), s.tick dt = t →
    t.host.writes.find? (fun w => w.number = n && !w.posted) = some w →
    exec (.hostGoReceive dt n false) s = .next { t with host := { t.host with writes := t.host.writes.filter (fun x => x ≠ w) } } ∧
    ∃ u, exec (.hostGoReceive dt n true) s = .next u ∧ Faulted t u) ∧
  (∀ (s t : State) (dt a : Nat), s.tick dt = t → t.host.dlUp = true →
    exec (.hostSnoop dt a) s = .next { t with out := t.out ++ [.snoopMiss] }) ∧
  (∀ (s t : State) (dt v : Nat) (h : HeldVector), s.tick dt = t → t.host.held.find? (fun h => h.vector = v) = some h →
    (t.vectorOpen v = true → t.vectorReady h = true → exec (.vectorSend dt v) s = .next
      { t with host := { t.host with held := t.host.held.filter (fun x => x ≠ h) }, out := t.out ++ [.msi v] }) ∧
    (t.vectorOpen v = false ∨ t.vectorReady h = false → exec (.vectorSend dt v) s = .next t))

/-- Whole 64-bit writes at the offsets of R380 reach the blocks of the BAR, as the rows of those blocks do; a write of any other
width to a block of registers changes nothing, one to a doorbell is counted, and the MSI-X table takes bytes of any width (R313,
R380, R381). What a read of a register shows is what it holds, and nothing at the offsets that are not listed (R288, R312, R313,
R326, R380). -/
def Obligations.RegisterWritesReachTheBlocks : Prop :=
  (∀ (t : State) (q n : Nat), q < 1024 → n < 4096 →
    t.readRegister (0x20000 + 64 * q) = some (t.queue q).ring ∧ t.readRegister (0x20000 + 64 * q + 8) = some (t.queue q).config ∧
    t.readRegister (0x20000 + 64 * q + 0x10) = some (t.queue q).status ∧ t.readRegister (0x20000 + 64 * q + 0x18) = some 0 ∧
    t.readRegister (0x400000 + 0x1000 * q) = some (t.queue q).tail ∧
    t.readRegister (0x400000 + 0x1000 * q + 8) = some (t.queue q).head ∧
    t.readRegister (0x400000 + 0x1000 * q + 0x10) = some (t.queue q).status ∧
    t.readRegister (0x50000 + 8 * n) = some (t.fence n) ∧
    t.readRegister 0x30000 = some ((if t.xlat.overrun then 0x10000 else 0) + min 15 t.regPending * 0x20000) ∧
    t.readRegister 0x30008 = some t.xlat.done ∧ t.readRegister 0x30058 = some (t.xlat.migState + t.xlat.migReason * 256) ∧
    ∀ o, 0x32000 ≤ o ∧ o < 0x40000 ∨ 0x58000 ≤ o ∧ o < 0x400000 → t.readRegister o = some 0) ∧
  ∀ (s : State) (dt v : Nat),
    (∀ q, q < 1024 → bit v 0 = true → exec (.registerWrite dt (0x20008 + 64 * q) v 8) s = exec (.queueEnable dt q v) s) ∧
    (∀ q, q < 1024 → bit v 0 = false → exec (.registerWrite dt (0x20008 + 64 * q) v 8) s = exec (.queueDisable dt q v) s) ∧
    exec (.registerWrite dt 0x30000 v 8) s = exec (.trnInval dt v) s ∧
    exec (.registerWrite dt 0x30050 v 8) s = exec (.migrationGo dt v) s ∧
    exec (.registerWrite dt 0x30060 v 8) s = exec (.trnResume dt v) s ∧
    exec (.registerWrite dt 0x31000 1 8) s = exec (.hostAttach dt) s ∧
    exec (.registerWrite dt 0x31000 2 8) s = exec (.hostClearLog dt) s ∧
    (∀ q, q < 1024 → exec (.registerWrite dt (0x400000 + 0x1000 * q) v 8) s = exec (.doorbell dt q v true) s) ∧
    (∀ q w, q < 1024 → w ≠ 8 → exec (.registerWrite dt (0x400000 + 0x1000 * q) v w) s = exec (.doorbell dt q v false) s) ∧
    (∀ o w, 0x20000 ≤ o → o < 0x40000 → w ≠ 8 → exec (.registerWrite dt o v w) s = .next (s.tick dt)) ∧
    (∀ k, k < 0x8000 → ∃ u, exec (.registerWrite dt (0x40000 + k) v 1) s = .next u ∧
      ∀ i, u.msixByte i = if i = k then BitVec.ofNat 8 v else (s.tick dt).msixByte i)

/-! ### Errors in memory, records and tests -/

/-- What the code of a word answers (R257): one wrong bit is correctable, two or any number on one data pin are not, and a read that
returns a word whose address differs in one or two bits is detected. The scrubbers (R264, R265, R266, R405): a stack's next code word
is read and none of its bytes changes; an uncorrectable word is kept as such and its page is pending or retired; a correctable one is
corrected and counted; a retired page is passed over. An uncorrectable SRAM word is recorded the first time only. -/
def Obligations.ScrubbersFindErrors : Prop :=
  (∀ (t : State) (w : Nat), w % 32 = 0 → isStacked w = true → w ∉ t.mem.bad →
    (∀ b, Map.find t.mem.flips w = none →
      t.upset (.flip w [b]) = { t with mem := { t.mem with flips := Map.put t.mem.flips w (some b) } }) ∧
    (∀ b c, Map.find t.mem.flips w = none → b ≠ c → w ∈ (t.upset (.flip w [b, c])).mem.bad) ∧
    (∀ l, Map.find t.mem.flips w = none → l.Nodup → 2 ≤ l.length → onePin l = true → w ∈ (t.upset (.flip w l)).mem.bad) ∧
    (∀ v, v ≠ w → bitsApart (codeAddress t.spread w) (codeAddress t.spread v) ≤ 2 → w ∈ (t.upset (.misread w v)).mem.bad)) ∧
  (∀ (s t v : State) (dt k n w i : Nat) (l : List Upset), s.tick dt = t → k < 32 → t.powered = true → t.startup.stage = .usable →
    i = Map.get 0 t.mem.scrubPos k → i + 1 < wordsPerStack → w = scrubWord t.spread k i →
    v = (l.foldl State.upset t).bump (objKey (0x6500 + k) 0x0A) n →
    ∃ u, exec (.scrubStep dt k ⟨l, n⟩) s = .next u ∧ Map.get 0 u.mem.scrubPos k = i + 1 ∧ (∀ a, u.byte a = v.byte a) ∧
      u.mem.bad = v.mem.bad ∧
      (v.meetsRetired w 32 = true → u = { v with mem := u.mem } ∧ u.mem.pendingPages = v.mem.pendingPages) ∧
      (v.meetsRetired w 32 = false →
        (w ∈ v.mem.bad → w / 0x200000 ∈ u.mem.pendingPages ∨ w / 0x200000 ∈ u.mem.retired) ∧
        (w ∉ v.mem.bad → (Map.find v.mem.flips w).isSome = true → Rose v u (objKey (0x6500 + v.stackOf w) 1) 1 ∧
          u.mem.corrected.any (fun x => x.1 = w ∧ x.2 = v.now) = true) ∧
        (w ∉ v.mem.bad → Map.find v.mem.flips w = none → u.mem.corrected = v.mem.corrected))) ∧
  (∀ (s t v : State) (dt a w : Nat) (l : List Nat), s.tick dt = t → w = a / 8 * 8 → isSram w = true → t.powered = true →
    v = { t with mem := { t.mem with
      sramBad := ((l.map (fun a => a / 8 * 8)).filter isSram).foldl (fun l a => insertAsc a l) t.mem.sramBad } } →
    (w ∈ v.mem.sramBad → w ∈ t.mem.sramSeen → exec (.sramScrub dt a l) s = .next v) ∧
    (w ∈ v.mem.sramBad → w ∉ t.mem.sramSeen → ∃ u, exec (.sramScrub dt a l) s = .next u ∧ w ∈ u.mem.sramBad ∧
      w ∈ u.mem.sramSeen ∧ ∀ b, u.byte b = t.byte b) ∧
    (w ∉ v.mem.sramBad → exec (.sramScrub dt a l) s = .next v))

/-- The recorder takes the oldest pending report, at most one in 100 ns: without a tenancy to the firmware log, with one to the next
entry of the tenancy's fault queue, whose 64 bytes then hold the record, and a full queue loses and counts it (R410 to R414). -/
def Obligations.RecorderWritesRecords : Prop :=
  ∀ (s t : State) (dt : Nat) (r : Report), s.tick dt = t → nextReport t.integ.reports = some r →
    (∀ last, t.integ.lastRecord = some last → t.now < last + 100 → exec (.recorderStart dt) s = .next t) ∧
    (t.integ.lastRecord.all (fun last => last + 100 ≤ t.now) = true → ∃ u, exec (.recorderStart dt) s = .next u ∧
      u.integ.lastRecord = some t.now ∧
      (t.tenancy = 0 → u.integ.reports = t.integ.reports.erase r ∧ u.integ.log.getLast? =
        some (faultRecord r (Map.get 0 t.integ.unheld r.unit.code) t.integ.lostBefore 0)) ∧
      (∀ n a, t.tenancy ≠ 0 → t.faultQueueRoom = true → n = t.num (objKey 0x4000 2) + 1 →
        a = t.num (objKey 0x4000 1) + (n - 1) % 4096 * 64 → a % 32 = 0 → isStacked a = true → t.meetsRetired a 64 = false →
        u.num (objKey 0x4000 2) = n ∧ u.integ.reports = t.integ.reports.erase r ∧ u.integ.lostBefore = 0 ∧
        (∀ b, u.byte b = if a ≤ b ∧ b < a + 64 then
          (faultRecord r (Map.get 0 t.integ.unheld r.unit.code) t.integ.lostBefore n).getD (b - a) 0 else t.byte b)) ∧
      (t.tenancy ≠ 0 → t.faultQueueRoom = false → r.code ≠ 0x2001 → Rose t u (objKey 0x4000 6) 1 ∧
        u.integ.reports = t.integ.reports.erase r ∧ ∀ b, u.byte b = t.byte b))

/-- In-field tests (R423 to R429): a deferral that has run out forces a window; the test of a declared unit begins when it holds
nothing and no other test of its cluster runs or comes before it; a pass stamps the unit with the time and a failure makes it
suspect. -/
def Obligations.InFieldTests : Prop :=
  (∀ (s t : State) (dt c : Nat), s.tick dt = t → testCodeOk c = true → t.testFenced c = false → c ∉ t.integ.windows →
    t.num (lastTestKey c) + t.num (objKey 0x4100 1) * 3600000000000 ≤ t.now →
    ∃ u, exec (.testDeferralExpire dt c) s = .next u ∧ c ∈ u.integ.windows ∧ Rose t u (objKey 0x4100 3) 1 ∧
      ∀ x ∈ testEngines c, (u.engine x).paused = true) ∧
  (∀ (s t : State) (dt c : Nat), s.tick dt = t → c ∈ t.integ.windows → c ∉ t.integ.testing → t.testReady c = true →
    (∀ d ∈ t.integ.testing, testCluster d ≠ testCluster c) → (∀ d ∈ t.integ.windows, testCluster d = testCluster c → c ≤ d) →
    ∃ u, exec (.iftStart dt c) s = .next u ∧ u.integ = { t.integ with testing := insertAsc c t.integ.testing } ∧
      (c < 0x100 → ∀ e ∈ u.arith.banks, e.1 / 2 = c → e.2.valid = false) ∧ u.cmds = t.cmds) ∧
  (∀ (s t : State) (dt c : Nat) (runs : List Bool), s.tick dt = t → testCodeOk c = true → c ∈ t.integ.testing → c ∉ t.integ.suspects →
    (runs.headD false = true → ∃ u, exec (.iftComplete dt c runs) s = .next u ∧ u.num (lastTestKey c) = t.now ∧
      c ∉ u.integ.windows ∧ c ∉ u.integ.testing ∧ u.suspicions c = t.suspicions c) ∧
    (runs.headD false = false → t.testFenced c = false → t.suspicions c < 3 → ∃ u, exec (.iftComplete dt c runs) s = .next u ∧
      c ∉ u.integ.testing ∧ u.suspicions c = t.suspicions c + 1 ∧ (t.suspicions c < 2 → c ∈ u.integ.suspects ∧ c ∈ u.integ.windows) ∧
      (t.suspicions c = 2 → c < 0x140 → u.testFenced c = true)))

/-- Replica digests and verified launches (R417 to R422): a digest is formed, kept and signalled; a message is held and the timeout
ends the wait for the rest of its number; a pair's values are compared in sequence order, equal readable values of disjoint clusters signal
the commit fence, and any others, or a peer that does not come in time, stop the pair. -/
def Obligations.DigestsAndVerifiedLaunches : Prop :=
  (∀ (s t : State) (dt g : Nat), s.tick dt = t → g < 8 → (t.group g).active = true → (t.group g).regionsPending = true →
    ∃ u, exec (.digestRegionRead dt g) s = .next u ∧ (u.group g).regionsPending = false ∧ (∀ a, u.byte a = t.byte a) ∧
      (t.num (groupKey g 7) ≠ 0xFFFF → u.fence (t.num (groupKey g 7)) =
        max (t.fence (t.num (groupKey g 7))) ((t.group g).epoch % 2 ^ 64)) ∧
      (t.regions g = [] → u.blob (groupKey g 0x0A) = sha512t256 (natLe 8 (t.group g).epoch ++
        ((List.range 16).filter (fun i => fieldLe (t.blob (groupKey g 3)) (2 * i) 2 ≠ 0xFFFF)).flatMap
          (fun i => natLe 32 (((t.group g).sums ++ List.replicate (24 - (t.group g).sums.length) 0).getD i 0))))) ∧
  (∀ (s t x : State) (dt g i m : Nat) (b : Bytes), s.tick dt = t → g < 8 → (t.group g).active = true → (t.group g).due = [] →
    (t.groupMembers g).any (fun y => y.1 = i && y.2 ≠ t.chip) = true → i ∉ (t.group g).expelled →
    t.read ⟨.c2, some 64⟩ (t.num (groupKey g 5) + 64 * i) 64 = (.ok b, x) → fieldLe b 42 1 = i →
    (i, fieldLe b 40 2) ∈ t.groupMembers g → fieldLe b 32 8 = m → t.num (groupKey g 9) < m →
    (t.group g).messages.any (fun y => y.1 = i && y.2.1 = m) = false →
    ∃ u, exec (.digestMessageReceive dt g i) s = .next u ∧ u.group g =
      { t.group g with messages := (t.group g).messages ++ [(i, m, sub b 0 32)] }) ∧
  (∀ (s t : State) (dt g m at_ : Nat) (d : Bytes) (rest : List (Nat × Ns × Bytes)), s.tick dt = t → g < 8 →
    (t.group g).due = (m, at_, d) :: rest → at_ + t.num (objKey 0x4004 1) * 1000000 ≤ t.now →
    ∃ u, exec (.digestTimeout dt g) s = .next u ∧ u.num (groupKey g 9) = m ∧ ∀ y ∈ (u.group g).due, y.1 ≠ m) ∧
  (∀ (s t x : State) (dt p seq : Nat) (cl : List Nat) (due : List (Nat × List Nat)) (r : Option Bytes), s.tick dt = t → p < 16 →
    (t.pair p).due = (seq, cl) :: due → t.pairLive p = true → t.isReplay p = false → (t.pair p).own = [] → (t.pair p).peer = [] →
    t.verifyValue p seq = (r, x) →
    ∃ u, exec (.verifyDigest dt p) s = .next u ∧ (u.pair p).due = due ∧ (u.pair p).own = [⟨seq, r.getD [], r.isSome, cl, t.now⟩]) ∧
  (∀ (s t x : State) (dt p seq : Nat) (b : Bytes), s.tick dt = t → p < 16 → t.pairLive p = true → t.isReplay p = false →
    t.peerChip p ≠ t.chip → t.read ⟨.c1, some 64⟩ (t.num (pairKey p 7) + 64 * (seq % 64)) 64 = (.ok b, x) → fieldLe b 32 8 = seq →
    t.num (pairKey p 9) < seq → (t.pair p).own = [] → (t.pair p).peer.any (fun y => y.seq = seq) = false →
    ∃ u, exec (.verifyValueReceive dt p seq) s = .next u ∧ u.pair p = { t.pair p with
      peer := (t.pair p).peer ++ [⟨seq, sub b 0 32, bit (fieldLe b 40 1) 0, [], t.now⟩] }) ∧
  (∀ (s t x : State) (dt p seq : Nat) (cl : List Nat) (due : List (Nat × List Nat)) (r : Option Bytes), s.tick dt = t → p < 16 →
    (t.pair p).due = (seq, cl) :: due → t.pairLive p = true → t.verifyValue p seq = (r, x) → x.isReplay p = true →
    x.peerChip p ≠ x.chip → x.routeDown (x.peerChip p) = true → ∃ u, exec (.verifyDigest dt p) s = .next u ∧ Faulted x u) ∧
  (∀ (s t : State) (dt p : Nat) (a : SideDigest) (own : List SideDigest), s.tick dt = t → (t.pair p).own = a :: own →
    t.pairLive p = true → t.isReplay p = false → (t.pair p).peer.any (fun y => y.seq = a.seq) = false →
    a.at_ + t.num (objKey 0x4004 2) * 1000000 ≤ t.now →
    ∃ u, exec (.verifyTimeout dt p) s = .next u ∧ u.num (pairKey p 8) = 2 ∧ u.pair p = VerifyPair.init ∧ u.fences = t.fences) ∧
  (∀ (t : State) (p : Nat) (a b : SideDigest) (peer : List SideDigest), (t.pair p).own = [a] → (t.pair p).peer = b :: peer →
    b.seq = a.seq → a.seq < 2 ^ 64 →
    (a.readable = true → b.readable = true → a.value = b.value →
      (t.peerChip p = t.chip → a.clusters.any (fun c => b.clusters.contains c) = false) →
      (State.comparePair p 1 t).fence (t.num (pairKey p 6)) = max (t.fence (t.num (pairKey p 6))) a.seq ∧
      (State.comparePair p 1 t).num (pairKey p 9) = a.seq) ∧
    (a.readable = false ∨ b.readable = false ∨ a.value ≠ b.value ∨
      t.peerChip p = t.chip ∧ a.clusters.any (fun c => b.clusters.contains c) = true →
      (State.comparePair p 1 t).fences = t.fences ∧ (State.comparePair p 1 t).num (pairKey p 8) = 2))

/-! ### The Varx fabric -/

/-- The link layer of a port (R350, R354, R364): it trains, goes down and tries again; the next expected frame that is whole is
accepted and acknowledged, any other answered by a negative acknowledge; an acknowledge frees the frames before it, and a negative
one replays the rest; a credit lets the data that waited for it go. Discovery (R354 to R358): beacons go out every millisecond, what
a neighbour's beacon says is kept, reports go towards the root, and a root that has not been heard for 100 ms is lost with the
alignment to it. -/
def Obligations.LinksAndDiscovery : Prop :=
  ((∀ (s t : State) (dt p : Nat), s.tick dt = t → t.usable = true → t.portUsed p = true → t.portUp p = false →
    ∃ u, exec (.varxLinkUp dt p) s = .next u ∧ u.portUp p = true ∧ (u.port p).nextAccept = 0 ∧ (u.port p).beacon = none) ∧
  (∀ (s t : State) (dt p : Nat) (lost : Bool), s.tick dt = t → t.portUp p = true → (lost = true ∨ 17 ≤ (t.port p).replays) →
    ∃ u, exec (.varxLinkDown dt p lost) s = .next u ∧ u.num (portStateKey p) = 3 ∧ (u.port p).unacked = [] ∧ (u.port p).beacon = none ∧
      (u.port p).downAt = t.now ∧ Rose t u (portKey p 9) 1 ∧
      (t.fabric.settled = true → t.fabric.parent = some p → u.fabric.candidate = t.fabric.candidate → u.flag alignedKey = false)) ∧
  (∀ (s t : State) (dt p : Nat), s.tick dt = t → p < 6 → t.num (portStateKey p) = 3 → (t.port p).downAt + 100000000 ≤ t.now →
    (∃ u, exec (.varxRetrain dt p true) s = .next u ∧ u.portUp p = true) ∧
    exec (.varxRetrain dt p false) s = .next (t.setPort p { t.port p with downAt := t.now })) ∧
  (∀ (s t : State) (dt p c : Nat) (f : Bytes), s.tick dt = t → t.portUp p = true →
    (frameOk f = true → frameSeq f = (t.port p).nextAccept → 1 ≤ frameType f → frameType f ≤ 3 → frameDest f = t.chip →
      ∃ u a, exec (.sequencedFrameReceive dt p c 0 f) s = .next u ∧ (u.port p).nextAccept = ((t.port p).nextAccept + 1) % 4096 ∧
        Rose t u (portKey p 2) 1 ∧ u.out = t.out ++ [.frame p a]) ∧
    (frameOk f = false ∨ frameSeq f ≠ (t.port p).nextAccept →
      ∃ u a, exec (.sequencedFrameReceive dt p c 0 f) s = .next u ∧ u.fabric = t.fabric ∧ u.out = t.out ++ [.frame p a])) ∧
  (∀ (s t : State) (dt p v : Nat) (kept : List (Nat × Bytes)), s.tick dt = t → t.portUp p = true → (t.port p).next = none →
    (t.port p).unacked.filter (fun e => (e.1 + 4096 - v) % 4096 < 2048) = kept →
    (∃ u, exec (.acknowledgeReceive dt p 0 v) s = .next u ∧ u.port p = { t.port p with
      unacked := kept, replays := if kept.length < (t.port p).unacked.length then 0 else (t.port p).replays } ∧ u.out = t.out) ∧
    (kept ≠ [] → kept.length = (t.port p).unacked.length → (t.port p).replays < 16 →
      ∃ u, exec (.acknowledgeReceive dt p 1 v) s = .next u ∧ (u.port p).replays = (t.port p).replays + 1 ∧
        (u.port p).unacked = kept ∧ u.out = t.out ++ kept.map (fun e => .frame p e.2))) ∧
  (∀ (s t : State) (dt p src ch n i : Nat) (o : Outgoing), s.tick dt = t → t.portUp p = true →
    t.fabric.outgoing.find? (fun o => o.channel = ch && o.chip = src && o.number = n && o.index % 65536 = i &&
      (!o.isRefresh || t.holdsChannel ch .refresh (fieldLe o.data 0 2))) = some o → o.isRefresh = false →
    ∃ u, exec (.creditReceive dt p t.chip src ch n i) s = .next u ∧ u.fabric.outgoing = t.fabric.outgoing.erase o ∧
      Rose t u (channelKey ch 5) (t.now - o.since)) ∧
  (∀ (t : State) (p : Nat) (b : Bytes), t.portUp p = true → (t.port p).unacked.length < 256 →
    ((t.port p).waiting b = [] → (t.sendBody p b).out = t.out ++ [.frame p (frameWhole (t.port p).nextSend b)] ∧
      ((t.sendBody p b).port p).unacked = (t.port p).unacked ++ [((t.port p).nextSend, frameWhole (t.port p).nextSend b)]) ∧
    ((t.port p).waiting b ≠ [] → (t.sendBody p b).out = t.out ∧
      ((t.sendBody p b).port p).waiting b = (t.port p).waiting b ++ [b]))) ∧
  ((∀ (s t : State) (dt p : Nat), s.tick dt = t → t.portUp p = true →
    ((t.port p).beaconAt + 1000000 ≤ t.now → ∃ u, exec (.beaconTimer dt p) s = .next u ∧ (u.port p).beaconAt = t.now ∧
      u.out.length = t.out.length + (if t.fabric.settled then 2 else 1)) ∧
    (t.now < (t.port p).beaconAt + 1000000 → exec (.beaconTimer dt p) s = .next t)) ∧
  (∀ (s t : State) (dt p serial q cand hops : Nat) (settled : Bool) (coords : List (Option Nat)) (shape : Nat × Nat × Nat × Nat)
      (present : List Nat), s.tick dt = t → t.portUp p = true →
    ∃ u, exec (.beaconReceive dt p serial q cand hops settled coords shape present) s = .next u ∧ (u.port p).beacon =
      some { serial := serial, port := q, candidate := cand, hops := hops, settled := settled, coords := coords, shape := shape, heard := t.now } ∧
      u.blob (objKey (0x3020 + p) 2) = natLe 16 serial ∧ u.num (objKey (0x3020 + p) 3) = q ∧
      Rose t u (portKey p 2) (if settled then 2 else 1) ∧
      (t.fabric.settled = true → u.fabric.candidate ≠ t.fabric.candidate → u.fabric.candidate ≠ ownSerial → u.flag alignedKey = false)) ∧
  (∀ (s t : State) (dt p chip serial : Nat), s.tick dt = t → t.portUp p = true →
    ∃ u, exec (.discoveryReport dt p chip serial) s = .next u ∧
      (t.fabric.candidate = ownSerial → (chip, serial) ∈ u.fabric.reports) ∧
      (t.fabric.candidate ≠ ownSerial → (chip, serial) ∈ u.fabric.unreported)) ∧
  (∀ (s t : State) (dt p : Nat), s.tick dt = t → t.fabric.parent = some p → t.portUp p = true →
    ∃ u, exec (.reportResend dt) s = .next u ∧ u.fabric = t.fabric ∧ u.out.length = t.out.length + t.fabric.unreported.length) ∧
  (∀ (s t : State) (dt : Nat), s.tick dt = t → t.fabric.settled = true → t.fabric.candidate ≠ ownSerial →
    (t.fabric.rootHeard + 100000000 ≤ t.now → ∃ u, exec (.rootLossTimeout dt) s = .next u ∧
      u.flag alignedKey = decide (u.fabric.candidate = ownSerial) ∧ u.blob (objKey 0x2102 3) = natLe 16 u.fabric.candidate ∧
      u.fabric.rootHeard = t.now ∧ u.fabric.settled = true ∧
      ∀ e ∈ u.fabric.ports, e.2.beacon.any (fun b => b.candidate = t.fabric.candidate) = false) ∧
    (t.now < t.fabric.rootHeard + 100000000 → exec (.rootLossTimeout dt) s = .next t)))

/-- Remote requests (R360 to R362): one of the tenancy's owner to storage of this package is performed, any other changes no memory;
data that comes back reaches the request that asked for it; a failure, or no answer within 1 ms, is an execution fault. -/
def Obligations.RemoteRequests : Prop :=
  (∀ (s t x : State) (dt src id owner off n : Nat) (d : Bytes) (r : MemResult), s.tick dt = t → t.usable = true → t.tenancy = 1 →
    owner = t.num (objKey 0x2000 5) → t.remoteRange off n = true →
    (t.write ⟨.c1, none⟩ off (sub d 0 n) = (r, x) →
      ∃ u, exec (.remoteRequestReceive dt src id owner true off n d) s = .next u ∧ u.mem = x.mem) ∧
    (t.read ⟨.c1, none⟩ off n = (r, x) →
      ∃ u, exec (.remoteRequestReceive dt src id owner false off n d) s = .next u ∧ u.mem = x.mem ∧ ∀ a, u.byte a = t.byte a)) ∧
  (∀ (s t : State) (dt src id owner off n : Nat) (w : Bool) (d : Bytes), s.tick dt = t → t.usable = true →
    (t.tenancy ≠ 1 ∨ owner ≠ t.num (objKey 0x2000 5) ∨ t.remoteRange off n = false) →
    ∃ u, exec (.remoteRequestReceive dt src id owner w off n d) s = .next u ∧ u.mem = t.mem ∧ u.cmds = t.cmds) ∧
  (∀ (s t : State) (dt id : Nat) (d : Bytes) (r : RemoteReq), s.tick dt = t → t.fabric.requests.find? (fun r => r.id = id) = some r →
    (∀ status, status ≠ 0 → ∃ u, exec (.remoteResponseReceive dt id status d) s = .next u ∧ Faulted t u) ∧
    (∃ u, exec (.remoteResponseReceive dt id 0 d) s = .next u ∧ (∀ x ∈ u.fabric.requests, x.id ≠ id) ∧ u.mem = t.mem ∧
      ∀ q ∈ u.streams.requests, q.core = r.core → q.slot = r.slot →
        (r.write = true → (if r.slot < 16 then q.key else q.number) = r.number → q.acked = true) ∧
        (r.write = false → ∀ p ∈ q.parts, (if r.slot < 16 then q.key else q.number) + p.offset = r.number →
          p.data = some (sub d 0 p.length))) ∧
    (r.issued + 1000000 ≤ t.now → ∃ u, exec (.remoteRequestTimeout dt id) s = .next u ∧ Faulted t u) ∧
    (t.now < r.issued + 1000000 → exec (.remoteRequestTimeout dt id) s = .next t))

/-! ### Collectives -/

/-- A channel passes to the operation that has waited longest and to one at a time, an operation that waits longer than its timeout
ends without moving data (R363), and a collective asks for its channel once its fields and addresses pass (R367, R369). -/
def Obligations.ChannelsAndCollectives : Prop :=
  (∀ (s t x : State) (dt id op : Nat) (i : Instr) (c c' : Cmd) (e : UnitId), s.tick dt = t → t.cmd? id = some c → c.opcode = op →
    c.phase = .running → c.armed = false → t.collFieldsOk c = true → c.unit = some e →
    (i = .allReduce dt id ∧ op = 0xA0 ∨ i = .reduceScatter dt id ∧ op = 0xA1 ∨ i = .allGather dt id ∧ op = 0xA2) →
    t.needRanges c e (t.collRanges c) = .ready x c' → x.collTargetsOk c' = true → c'.id = id → x.cmd? id = some c' →
    (∀ o, (x.channel c'.collChannel).running = some o → o.owner ≠ id) →
    (∀ o ∈ (x.channel c'.collChannel).waiting, o.owner ≠ id) →
    ∃ u, exec i s = .next u ∧
      (u.channel c'.collChannel).waiting = (x.channel c'.collChannel).waiting ++ [⟨.collective, c'.collNumber % 65536, id, x.now⟩] ∧
      (u.channel c'.collChannel).running = (x.channel c'.collChannel).running ∧
      ∃ c'', u.cmd? id = some c'' ∧ c''.armed = true ∧ c''.scratch = [x.num (objKey 0x3010 1)]) ∧
  (∀ (s t : State) (dt id op : Nat) (i : Instr) (c : Cmd), s.tick dt = t → t.cmd? id = some c → c.opcode = op →
    c.phase = .running → c.armed = false → t.collFieldsOk c = false →
    (i = .allReduce dt id ∧ op = 0xA0 ∨ i = .reduceScatter dt id ∧ op = 0xA1 ∨ i = .allGather dt id ∧ op = 0xA2) →
    ∃ u, exec i s = .next u ∧ Faulted t u) ∧
  (∀ (s t : State) (dt ch : Nat) (o : ChannelOp) (rest : List ChannelOp), s.tick dt = t → (t.channel ch).running = none →
    (t.channel ch).waiting = o :: rest →
    ∃ u, exec (.channelAcquire dt ch) s = .next u ∧ (u.channel ch).running = some o ∧ (u.channel ch).waiting = rest ∧ u.mem = t.mem) ∧
  (∀ (s t : State) (dt ch : Nat) (o : ChannelOp), s.tick dt = t → (t.channel ch).running = some o →
    ∃ u, exec (.channelAcquire dt ch) s = .next u ∧ u.channel ch = t.channel ch ∧ u.mem = t.mem) ∧
  (∀ (s t : State) (dt ch owner w : Nat) (o : ChannelOp) (c : Cmd), s.tick dt = t →
    (t.channel ch).waiting.find? (fun o => o.owner = owner && o.kind ≠ .refresh) = some o → t.opTimeout o = some w →
    t.cmd? owner = some c →
    (o.waitingSince + w < t.now → ∃ u, exec (.channelWaitTimeout dt ch owner) s = .next u ∧
      (o.kind ≠ .collective ∨ c.u64 56 = 0 →
        (u.channel ch).waiting = (t.channel ch).waiting.filter (fun y => !(y.kind = o.kind && y.owner = owner))) ∧
      (o.kind ≠ .collective → ∃ c', u.cmd? owner = some c' ∧ c'.scratch = 1 :: c.scratch.drop 1) ∧
      (o.kind = .collective → c.unit.isSome = true → c.u64 56 = 0 →
        (∃ c', u.cmd? owner = some c' ∧ c'.phase = .finished) ∧ u.mem = t.mem)) ∧
    (t.now ≤ o.waitingSince + w → exec (.channelWaitTimeout dt ch owner) s = .next t))

/-- A collective's steps, under the translations of its parts and output: a piece of its output that has its final value is written,
or a chunk of its parts whose gate is open is read and summed, and not before (R369, R372); each once its requests have tags and
tokens of the command's stream engine, for which they wait otherwise (R366); when everything is written and nothing of it waits, it
frees its channel and finishes (R374); a chunk from a neighbour is taken when its header is that of the collective, counted by frames
and discarded otherwise (R364, R368); only chunk steps in progress are timed, each on its own, and one beyond the timeout leaves the
output undefined but for finished segments, writes status 1 and frees the channel (R373). -/
def Obligations.CollectiveSteps : Prop :=
  (∀ (s t x : State) (dt id : Nat) (k : Collective) (c c' : Cmd) (e : UnitId), s.tick dt = t → t.coll? id = some k →
    t.cmd? id = some c → c.unit = some e → t.needRanges c e (t.collRanges c) = .ready x c' → c'.id = id →
    exec (.collectiveChunk dt id) s = .next (x.collWork c' k)) ∧
  (∀ (t : State) (k : Collective) (c : Cmd) (e : UnitId), t.coll? c.id = some k → t.cmd? c.id = some c → c.unit = some e →
    ((∀ q ∈ t.pieces c k, q ∉ k.written → t.pieceFinal c k q = false) →
      (k.read < t.partChunks c → t.gateOpen c k.read = false → t.collWork c k = t) ∧
      (∀ n y, k.read < t.partChunks c → t.gateOpen c k.read = true →
        t.issueBytes c k.paid (c.parts * min 65536 (t.partBytes c - k.read * 65536)) = (some n, y) →
        t.collWork c k = y.setColl { k with paid := n }) ∧
      (∀ y z l sat, k.read < t.partChunks c → t.gateOpen c k.read = true →
        t.issueBytes c k.paid (c.parts * min 65536 (t.partBytes c - k.read * 65536)) = (none, y) →
        y.readChunk c k.read = (.ok (l, sat), z) →
        ∃ k', (t.collWork c k).coll? c.id = some k' ∧ k'.read = k.read + 1 ∧ k'.written = k.written ∧
          (z.phases c = [] → k'.vector = putRun k.vector (k.read * (65536 / c.elemBytes)) l) ∧
          ∀ a, (t.collWork c k).byte a = t.byte a) ∧
      (t.partChunks c ≤ k.read → t.pieces c k ≠ [] → (∀ q ∈ t.pieces c k, q ∈ k.written) →
        (t.lastView c k).all (fun v => v.over k) = true → t.collWaiting k = false → c.u64 56 = 0 →
        ∃ c', (t.collWork c k).cmd? c.id = some c' ∧ c'.phase = .finished ∧ (t.collWork c k).coll? c.id = none ∧
          (t.collWork c k).mem = t.mem ∧
          ∀ o, (t.channel k.channel).running = some o → o.kind = .collective → o.owner = c.id →
            ((t.collWork c k).channel k.channel).running = none ∧ ((t.collWork c k).channel k.channel).last = some o.number)) ∧
    (∀ q, (t.pieces c k).find? (fun y => !k.written.contains y && t.pieceFinal c k y) = some q →
      (∀ n y, t.issueBytes c k.paidOut ((t.piece c k q).count * c.elemBytes) = (some n, y) →
        t.collWork c k = y.setColl { k with paidOut := n }) ∧
      (∀ y z r, t.issueBytes c k.paidOut ((t.piece c k q).count * c.elemBytes) = (none, y) → y.unrounded c = false →
        y.writeVa ⟨.c1, some c.job⟩ c (c.collOutput + (t.piece c k q).offset)
          (((k.vector.drop (t.piece c k q).start).take (t.piece c k q).count).flatMap (natLe c.elemBytes)) = (.ok r, z) →
        ((∃ q' ∈ t.pieces c k, q' ≠ q ∧ q' ∉ k.written) →
          ∃ k', (t.collWork c k).coll? c.id = some k' ∧ k'.written = q :: k.written ∧ (t.collWork c k).mem = z.mem) ∧
        ((∀ q' ∈ t.pieces c k, q' = q ∨ q' ∈ k.written) → (t.lastView c k).all (fun v => v.over k) = true →
          t.collWaiting k = false → c.u64 56 = 0 →
          ∃ c', (t.collWork c k).cmd? c.id = some c' ∧ c'.phase = .finished ∧ (t.collWork c k).coll? c.id = none ∧
            (t.collWork c k).mem = z.mem))) ∧
    (∀ paid m, (256 ≤ (t.tags e.num).length → t.issueBytes c paid m = (some paid, t)) ∧
      ((t.tags e.num).length < 256 →
        ((t.regulator e.num).rate = 0 ∨ (m - paid) * 1000 ≤ (t.regulator e.num).level t.now →
          ∃ y, t.issueBytes c paid m = (none, y) ∧ y.mem = t.mem ∧ ((t.regulator e.num).rate ≠ 0 →
            (y.regulator e.num).tokens = (t.regulator e.num).level t.now - (m - paid) * 1000)) ∧
        ((t.regulator e.num).rate ≠ 0 → (t.regulator e.num).level t.now < (m - paid) * 1000 →
          ∃ n y, t.issueBytes c paid m = (some n, y) ∧ paid ≤ n ∧ n ≤ m ∧ y.mem = t.mem ∧
            (y.regulator e.num).wanted.any (fun w => w.1 = 16) = true))) ∧
    (∃ c', (t.rewatch k).cmd? c.id = some c' ∧ (t.claims c k = [] → c'.unwatched = true) ∧
      (t.claims c k ≠ [] → c'.unwatched = false ∧ c'.watched = t.now - minOr 0 (t.claims c k)))) ∧
  (∀ (s t : State) (dt p ch n fmt el ax ph seg chunk : Nat) (d : Bytes), s.tick dt = t →
    (t.fabric.collectives.find? (fun k => k.channel = ch && k.number = n) = none →
      ∃ u, exec (.collectiveDataReceive dt p ch n fmt el ax ph seg chunk d) s = .next u ∧ u.fabric = t.fabric ∧
        (t.completedOn ch n = true → Rose t u (channelKey ch 3) (chunkFrames d.length))) ∧
    (∀ k c, t.fabric.collectives.find? (fun k => k.channel = ch && k.number = n) = some k → t.cmd? k.cmd = some c →
      (fmt ≠ c.collFormat ∨ el ≠ c.elements ∨ ax ≠ c.axes →
        ∃ u, exec (.collectiveDataReceive dt p ch n fmt el ax ph seg chunk d) s = .next u ∧ u.fabric = t.fabric ∧
          Rose t u (channelKey ch 4) (chunkFrames d.length)) ∧
      (∀ v, fmt = c.collFormat → el = c.elements → ax = c.axes → t.phaseView c k = some v → ph = k.phase →
        k.granted.any (fun x => x.1 = (p, seg, chunk)) = true → (p, seg, chunk) ∉ k.got →
        d.length = v.size chunk * (if v.gather then c.elemBytes else 4) →
        ∃ u k', exec (.collectiveDataReceive dt p ch n fmt el ax ph seg chunk d) s = .next u ∧ u.coll? k.cmd = some k' ∧
          k'.received = k.received + 1 ∧ u.mem = t.mem ∧ u.tables = t.tables))) ∧
  (∀ (s t x y : State) (dt id : Nat) (k : Collective) (c c' : Cmd) (e : UnitId), s.tick dt = t → t.coll? id = some k →
    t.cmd? id = some c → c.unit = some e →
    ((∃ o ∈ t.fabric.outgoing, o.chunk = true ∧ o.channel = k.channel ∧ o.number = k.number ∧ o.since + k.timeout * 1000 < t.now) ∨
      (∃ g ∈ k.granted, g.1 ∉ k.got ∧ g.2 + k.timeout * 1000 < t.now) →
      t.needRanges c e (t.collRanges c) = .ready x c' → c'.unit = some e → c'.id = id → c'.u64 56 = 0 → x.cmd? id = some c' →
      (x.collStopped k).undefine c' ((x.collStopped k).unfinished c' k) = (none, y) →
      ∃ u c'', exec (.collectiveTimeout dt id) s = .next u ∧ u.mem = y.mem ∧ u.cmd? id = some c'' ∧
        c''.phase = .finished ∧ c''.scratch.headD 0 = 1 ∧ u.coll? id = none) ∧
    ((∀ o ∈ t.fabric.outgoing, o.chunk = true → o.channel = k.channel → o.number = k.number → t.now ≤ o.since + k.timeout * 1000) →
      (∀ g ∈ k.granted, g.1 ∉ k.got → t.now ≤ g.2 + k.timeout * 1000) → exec (.collectiveTimeout dt id) s = .next t)) ∧
  (∀ (t : State) (k : Collective) (c : Cmd) (v : PhaseView) (g : Nat), t.lastView c k = some v → v.gather = true → 0 < v.segment →
    (∀ q ∈ t.pieces c k, q.1 = g → q ∈ k.written) →
    ∀ r ∈ t.unfinished c k, r.1 ≠ g * v.segment * c.elemBytes ∧ r.2 = v.segment * c.elemBytes)

/-! ### Tables -/

/-- Tables are created, initialised and destroyed as R99 and R100 say: a create that passes every check makes an absent table
initialising with its descriptor; each failed check gives its own status, in the manual's order; initialisation ends with every byte
of a fixed-code table zero and the table ready; a destroy discards what is folded and makes the table retiring, and once every
operation has drained it is absent again. The order of statuses against a create's reads is notes/assumptions/26.md. -/
def Obligations.TablesComeAndGo : Prop :=
  (∀ (s t x y : State) (dt g : Nat) (c c' : Cmd) (d : Bytes) (T : Table), s.tick dt = t → t.engineCmd? ⟨.lookup, g⟩ 0xC0 = some c →
    c.u64 24 % 64 = 0 → c.u64 56 % 16 = 0 →
    t.needRanges c ⟨.lookup, g⟩ ((c.u64 24, 128, false) :: statusRange (c.u64 56)) = .ready x c' → x.statusOk c' = true →
    x.localRange c' (c'.u64 24) 128 = true → x.readVa ⟨.c0, some c'.job⟩ c' (c'.u64 24) 128 = (.ok d, y) →
    T = { Table.init with desc := d } →
    (T.reservedField = true → ∃ u, exec (.tableCreate dt g) s = .next u ∧ Faulted y u) ∧
    (T.reservedField = false →
      ((y.table c'.tableNo).state ≠ .absent → exec (.tableCreate dt g) s = .next (y.adminEnd c' 1 0)) ∧
      ((y.table c'.tableNo).state = .absent →
        (y.fieldsOk T = false → exec (.tableCreate dt g) s = .next (y.adminEnd c' 2 0)) ∧
        (y.fieldsOk T = true →
          (T.sharded = true → y.inGroup T = false → exec (.tableCreate dt g) s = .next (y.adminEnd c' 5 0)) ∧
          ((T.sharded = true → y.inGroup T = true) →
            (T.extentPages 0 < T.neededPages → exec (.tableCreate dt g) s = .next (y.adminEnd c' 3 0)) ∧
            (T.neededPages ≤ T.extentPages 0 → (T.scope = 0 ∨ T.replicaPages ≠ 0) → ∀ (l : List Nat) (z : State),
              y.resolvePages c'.job ((List.range T.extentCount).flatMap (fun j => (List.range (T.extentPages 0)).map (T.regionVa j)) ++
                (List.range T.replicaPages).map (T.regionVa 8)) = (.pages l, z) →
              (∀ p ∈ l, p ∉ z.tablePages) → distinct l = true → (∀ p ∈ l.drop (T.extentCount * T.extentPages 0), z.inSpread p = true) →
              z.cmd? c'.id = some c' →
              ∃ u, exec (.tableCreate dt g) s = .next u ∧ (u.table c'.tableNo).state = .initialising ∧
                (u.table c'.tableNo).desc = d ∧ (u.table c'.tableNo).extents.length = T.extentCount ∧
                (∀ n, n ≠ c'.tableNo → u.table n = z.table n) ∧ u.mem = z.mem ∧ u.cmd? c'.id = some { c' with phase := .finished })))))) ∧
  (∀ (s t : State) (dt n : Nat), s.tick dt = t →
    ((t.table n).state ≠ .initialising → exec (.tableInitComplete dt n) s = .next t) ∧
    ((t.table n).state = .initialising → (t.table n).owed = [] →
      ∃ u, exec (.tableInitComplete dt n) s = .next u ∧ u.table n = { t.table n with state := .ready } ∧
        (∀ m, m ≠ n → u.table m = t.table m) ∧
        ((t.table n).tiered = false → ∀ a,
          u.byte a = if a / 0x200000 ∈ (t.table n).extents.flatMap (fun e => e.take (t.table n).neededPages) ∧
            a / 0x200000 ∉ t.mem.retired then 0 else t.byte a))) ∧
  (∀ (s t : State) (dt g : Nat) (c : Cmd), s.tick dt = t → t.engineCmd? ⟨.lookup, g⟩ 0xC1 = some c → c.u64 56 = 0 → c.held = none →
    ((t.table c.tableNo).state = .absent ∨ (t.table c.tableNo).state = .retiring →
      exec (.tableDestroy dt g) s = .next (t.setCmd { c with phase := .finished })) ∧
    ((t.table c.tableNo).state = .ready ∨ (t.table c.tableNo).state = .initialising →
      ∃ u, exec (.tableDestroy dt g) s = .next u ∧ (u.table c.tableNo).state = .retiring ∧ (u.table c.tableNo).changes = [] ∧
        (∀ e ∈ u.update.entries, ∀ m ∈ e.2, m.table ≠ c.tableNo) ∧ (∀ d ∈ u.update.deliveries, d.table ≠ c.tableNo) ∧
        ((t.table c.tableNo).state = .ready → ∀ a, u.byte a = t.byte a) ∧
        ((t.table c.tableNo).state = .initialising → (t.table c.tableNo).tiered = false →
          (∀ a, u.byte a = t.byte a ∨ a / 0x200000 ∈ (t.table c.tableNo).initPages ∧ u.byte a = 0) ∧
          Rose t u (acctKey 64 4) (t.now - (t.table c.tableNo).since)))) ∧
  (∀ (s t : State) (dt n : Nat), s.tick dt = t → (t.table n).state = .retiring →
    (t.tableIdle n = false → exec (.tableDestroyComplete dt n) s = .next t) ∧
    (t.tableIdle n = true → (t.table n).owed = [] →
      ∃ u, exec (.tableDestroyComplete dt n) s = .next u ∧ u.table n = Table.init ∧ (∀ m, m ≠ n → u.table m = t.table m) ∧ u.mem = t.mem))

/-- Loads and reads of rows, swaps, pins and replicates, and the epoch commands do what R101 to R104 give them. With epochs running
a swap waits for its boundary and a pin or replicate for the next apply phase; without them a swap of drained tables exchanges their
storage at once. -/
def Obligations.TableCommandsTakeEffect : Prop :=
  (∀ (s t x y : State) (dt g : Nat) (c c' : Cmd) (T : Table) (b row : Bytes), s.tick dt = t → T = t.table c.tableNo →
    t.engineCmd? ⟨.lookup, g⟩ 0xC2 = some c → T.state = .ready → c.rowsOk = true → t.readsOutstanding c.tableNo = false →
    c.rowsDefault = true → c.u64 56 = 0 → c.held = none → T.bufferSize c.rowsFormat 0 ≤ c.u16 22 →
    t.needRanges c ⟨.lookup, g⟩ [(c.u64 40, T.bufferSize c.rowsFormat 0, false)] = .ready x c' → c'.bytes = c.bytes →
    c'.job = c.job → x.tables = t.tables → x.localRange c' (c.u64 40) (T.bufferSize c.rowsFormat 0) = true →
    x.readVa ⟨.c2, some c.job⟩ c' (c.u64 40) (T.bufferSize c.rowsFormat 0) = (.ok b, y) → y.tables = t.tables →
    convertIn T.dim (T.code 0) c.rowsFormat b = some row → y.cmd? c'.id = some c' →
    ∃ u, exec (.tableLoad dt g) s = .next u ∧ (u.table c.tableNo).defaultRow = row ∧ (u.table c.tableNo).desc = T.desc ∧
      u.mem = y.mem ∧
      u.cmd? c'.id = some { c' with phase := .finished }) ∧
  (∀ (s t x y : State) (dt g : Nat) (c c' : Cmd) (T : Table) (r : Bytes), s.tick dt = t → T = t.table c.tableNo →
    t.engineCmd? ⟨.lookup, g⟩ 0xC3 = some c → T.state = .ready → c.rowsOk = true →
    c.rowsDefault = true → c.u64 48 = 0 → c.u64 56 = 0 → c.held = none → T.bufferSize c.rowsFormat 0 ≤ c.u16 22 →
    t.needRanges c ⟨.lookup, g⟩ [(c.u64 40, T.bufferSize c.rowsFormat 0, true)] = .ready x c' → c'.bytes = c.bytes → c'.job = c.job →
    x.tables = t.tables → x.localRange c' (c.u64 40) (T.bufferSize c.rowsFormat 0) = true →
    x.writeVa ⟨.c2, some c.job⟩ c' (c.u64 40) (convertOut T.dim T.defaultCode c.rowsFormat T.defaultBytes) = (.ok r, y) →
    y.cmd? c'.id = some c' →
    ∃ u, exec (.tableRead dt g) s = .next u ∧ u.mem = y.mem ∧ (u.table c.tableNo).defaultRow = (y.table c.tableNo).defaultRow ∧
      u.cmd? c'.id = some { c' with phase := .finished }) ∧
  (∀ (s t x : State) (dt g a b : Nat) (c c' : Cmd), s.tick dt = t → t.engineCmd? ⟨.lookup, g⟩ 0xC4 = some c → a = c.tableNo →
    b = bits (c.u16 18) 9 0 → c.u64 56 % 16 = 0 → t.tableReady a = true → t.tableReady b = true →
    t.needRanges c ⟨.lookup, g⟩ (statusRange (c.u64 56)) = .ready x c' → x.statusOk c' = true →
    ((x.table a).shape ≠ (x.table b).shape → exec (.tableSwap dt g) s = .next (x.adminEnd c' 7 0)) ∧
    ((x.table a).shape = (x.table b).shape → (x.table a).trainable = true → exec (.tableSwap dt g) s = .next (x.adminEnd c' 8 0)) ∧
    ((x.table a).shape = (x.table b).shape → (x.table a).trainable = false → x.cmd? c'.id = some c' →
      ∃ u, exec (.tableSwap dt g) s = .next u ∧ u.tables = x.tables ∧ u.mem = x.mem ∧
        u.update.swaps = x.update.swaps ++ [⟨a, b, c'.id, none, c'.owes⟩] ∧ u.cmd? c'.id = some { c' with phase := .finished })) ∧
  (∀ (s t : State) (dt : Nat) (c : Cmd) (w : Swap), s.tick dt = t → t.cmd? c.id = some c → c.phase = .finished →
    w ∈ t.update.swaps → w.cmd = c.id → w.epoch = none → t.epochsRunning = true →
    ∃ u, exec (.commandComplete dt c.id) s = .next u ∧ u.tables = t.tables ∧
      { w with epoch := some (t.epoch + (if t.num nextBoundaryKey = 0 then 1 else 2)) } ∈ u.update.swaps) ∧
  (∀ (x : State) (w : Swap), x.epochsRunning = false → x.update.swaps = [w] → w.epoch.isSome = true → w.owed = none → w.a ≠ w.b →
    (x.drained w.a = true → x.drained w.b = true → (∀ e ∈ x.tables, e.2.changes = []) →
      (x.table w.a).state = .ready → (x.table w.b).state = .ready →
      x.settle.table w.a = (x.table w.a).onStorage (x.table w.b) ∧ x.settle.table w.b = (x.table w.b).onStorage (x.table w.a) ∧
        (∀ n, n ≠ w.a → n ≠ w.b → x.settle.table n = x.table n) ∧ x.settle.mem = x.mem ∧ x.settle.update.swaps = [])) ∧
  (∀ (s t x y : State) (dt g : Nat) (pin : Bool) (c c' : Cmd) (d : Bytes), s.tick dt = t →
    t.engineCmd? ⟨.lookup, g⟩ (if pin then 0xC6 else 0xC5) = some c → c.u64 56 % 16 = 0 → t.tableReady c.tableNo = true →
    (pin = false → bits (c.u8 18) 1 0 ≤ 1) → (pin = true → (t.table c.tableNo).tiered = true) →
    t.needRanges c ⟨.lookup, g⟩ ((c.u64 24, 8 * (c.u16 20 + 1), false) :: statusRange (c.u64 56)) = .ready x c' →
    c'.bytes = c.bytes → c'.job = c.job → x.statusOk c' = true → x.localRange c' (c.u64 24) (8 * (c.u16 20 + 1)) = true →
    x.readVa ⟨.c0, some c'.job⟩ c' (c.u64 24) (8 * (c.u16 20 + 1)) = (.ok d, y) → y.cmd? c'.id = some c' → y.epochsRunning = true →
    ∃ u, exec (if pin then .tablePin dt g else .tableReplicate dt g) s = .next u ∧ u.mem = y.mem ∧
      u.cmd? c'.id = some { c' with phase := .finished } ∧
      ∃ rows skipped, (rows, skipped) = y.changeRows (y.table c.tableNo) pin
          ((List.range (c.u16 20 + 1)).map (fun i => fieldLe d (8 * i) 8)) ∧
        u.table c.tableNo = { y.table c.tableNo with
          changes := (y.table c.tableNo).changes ++ [⟨pin, bits (c.u8 18) 1 0, rows, 0, skipped, false, y.epoch, c'.owes⟩] }) ∧
  (∀ (s t : State) (dt g : Nat) (c : Cmd), s.tick dt = t → t.engineCmd? ⟨.lookup, g⟩ 0xC6 = some c → t.tableReady c.tableNo = true →
    (t.table c.tableNo).tiered = false → ∃ u, exec (.tablePin dt g) s = .next u ∧ Faulted t u) ∧
  (∀ (s t : State) (dt g : Nat) (c : Cmd), s.tick dt = t → t.engineCmd? ⟨.lookup, g⟩ 0xC8 = some c →
    (fenceOk (c.u64 40) = false → ∃ u, exec (.epochFence dt g) s = .next u ∧ Faulted t u) ∧
    (fenceOk (c.u64 40) = true → ∃ u, exec (.epochFence dt g) s = .next u ∧ u.mem = t.mem ∧ u.tables = t.tables ∧
      (∀ n, n ≠ c.u64 40 → u.fence n = t.fence n) ∧
      (t.epochEvent (bits (c.u8 16) 0 0) (c.u64 24) = true →
        u.fence (c.u64 40) = max (t.fence (c.u64 40)) (c.u64 48 % 2 ^ 64) ∧ u.update = t.update) ∧
      (t.epochEvent (bits (c.u8 16) 0 0) (c.u64 24) = false → u.fence (c.u64 40) = t.fence (c.u64 40) ∧
        u.update.epochFences = t.update.epochFences ++ [(bits (c.u8 16) 0 0, c.u64 24, c.u64 40, c.u64 48)]))) ∧
  (∀ (s t x y : State) (dt g : Nat) (c c' : Cmd) (r : Bytes), s.tick dt = t → t.engineCmd? ⟨.lookup, g⟩ 0xC9 = some c →
    c.u64 40 % 32 = 0 → t.needRanges c ⟨.lookup, g⟩ [(c.u64 40, 32, true)] = .ready x c' → x.localRange c' (c.u64 40) 32 = true →
    x.writeVa ⟨.c1, some c'.job⟩ c' (c.u64 40) (natLe 8 x.epoch ++ natLe 8 (x.num (objKey 0x2100 5)) ++
      natLe 8 (x.num (objKey 0x2100 6)) ++ natLe 8 ((if x.applyActive then 1 else 0) + (if x.epochsRunning then 2 else 0))) =
        (.ok r, y) →
    exec (.epochRead dt g) s = .next (y.setCmd { c' with phase := .finished }))

/-! ### Lookups and updates -/

/-- A lookup whose fields pass is stamped once its pages, its offsets and, for a Sharded lookup, its channel are there, unless its list
spans too much (R111) or another goes before it (R341); a row with no home and no copy here is skipped by a Lookup and goes into a
slice, or is dropped, by a Sharded one (R120, R124); a returned row is added to its bag in FP32 and a complete bag is written in the
output format (R115, R117, R118); the command finishes with its last bag; and the slices of a sharded exchange are served, wait for
an apply phase, are taken, or are discarded as late (R125, R126, R129, R164). -/
def Obligations.LookupsPool : Prop :=
  (∀ (s t : State) (dt id g : Nat) (sharded : Bool) (c : Cmd), s.tick dt = t →
    t.lookupCmd? id (if sharded then 0x71 else 0x70) = some (c, g) →
    (t.run? c.id = none → t.tableReady c.tableNo = false ∨ c.lookupOk (t.table c.tableNo) = false →
      ∃ u, exec (if sharded then .shardedLookup dt id else .lookup dt id) s = .next u ∧ Faulted t u) ∧
    (∀ (x y z : State) (c1 c2 : Cmd) (d : Bytes) (offsets : List Nat),
      t.run? c.id = none → t.tableReady c.tableNo = true → c.lookupOk (t.table c.tableNo) = true →
      t.lookupPages c g [(c.u64 32, 4 * (c.bags + 1), false)] (c.outRanges (t.table c.tableNo)) = .ready x c1 → c1.bytes = c.bytes →
      x.readVa ⟨.c0, some c1.job⟩ c1 (c.u64 32) (4 * (c.bags + 1)) = (.ok d, y) →
      offsets = (List.range (c.bags + 1)).map (fun i => fieldLe d (4 * i) 4) →
      (offsets.headD 0 + 16777216 < offsets.getD c.bags 0 →
        ∃ u, exec (if sharded then .shardedLookup dt id else .lookup dt id) s = .next u ∧ Faulted y u) ∧
      (offsets.getD c.bags 0 ≤ offsets.headD 0 + 16777216 →
        y.lookupPages c1 g (c1.listRange offsets) [] = .ready z c2 → c2.bytes = c.bytes → z.run? c2.id = none →
        z.cmd? c2.id = some c2 → c2.scratch.headD 0 ≠ 1 →
        (z.goesFirst c2 = false → exec (if sharded then .shardedLookup dt id else .lookup dt id) s = .next z) ∧
        (z.goesFirst c2 = true → sharded = false ∨ z.holdsChannel c2.lookupChannel .lookup c2.id = true →
          ∃ u, exec (if sharded then .shardedLookup dt id else .lookup dt id) s = .next u ∧
            ((∀ r ∈ z.lookups, ∀ e, z.cmd? r.cmd = some e →
              meetRanges (c2.outPieces (z.table c.tableNo)) (e.outPieces (z.table r.table)) = []) → u.mem = z.mem) ∧
            (∃ r, u.run? c2.id = some r ∧ r.stamp = z.now ∧ r.offsets = offsets ∧ r.nextBag = 0 ∧ r.bag = 0 ∧ r.table = c.tableNo ∧
              r.number = c.tableNo ∧ r.deadline = z.now + z.num (objKey 0x2210 1) * 1000) ∧
            ∃ c', u.cmd? c2.id = some c' ∧ c'.armed = true ∧ c'.unwatched = z.mustAwaitApply c.tableNo z.now) ∧
        (z.goesFirst c2 = true → sharded = true → z.holdsChannel c2.lookupChannel .lookup c2.id = false →
          (∀ o ∈ (z.channel c2.lookupChannel).waiting, o.owner ≠ c2.id) →
          ∃ u, exec (.shardedLookup dt id) s = .next u ∧ u.mem = z.mem ∧ u.run? c2.id = none ∧
            (u.channel c2.lookupChannel).waiting =
              (z.channel c2.lookupChannel).waiting ++ [⟨.lookup, c2.exchangeNo % 65536, c2.id, z.now⟩]))) ∧
    (∀ r, t.run? c.id = some r → t.mustAwaitApply r.table r.stamp = true →
      exec (if sharded then .shardedLookup dt id else .lookup dt id) s = .next t) ∧
    (∀ r x c', sharded = false → t.run? c.id = some r → t.mustAwaitApply r.table r.stamp = false → c.bags ≤ r.nextBag → c.bags ≤ r.bag →
      c.u64 56 = 0 → t.runPages c r = .ready x c' → c'.bytes = c.bytes → c'.id = c.id → x.run? c.id = some r → x.cmd? c.id = some c' →
      ∃ u, exec (.lookup dt id) s = .next u ∧ u.run? c.id = none ∧ u.mem = x.mem ∧ u.cmd? c.id = some { c' with phase := .finished })) ∧
  (∀ (t : State) (c : Cmd) (r : LookupRun) (i row chip : Nat) (T : Table), T = t.table r.table → T.resolve i = .row row →
    t.homeRow T row = none → T.replicaOf row = none → chip = T.shardChip (T.place row).1 →
    (c.isSharded = false → t.resolveIndex c r i = (none, (t.countTable r.number 0x13 1).setRun { r with skips := r.skips + 1 })) ∧
    (c.isSharded = true → (r.entries.filter (fun e => e.1 = chip)).length < c.indexCapacity →
      (r.nextBag ∈ (r.entries.filter (fun e => e.1 = chip)).map (fun e => e.2.2) ∨
        (((r.entries.filter (fun e => e.1 = chip)).map (fun e => e.2.2)).eraseDups).length < c.bagCapacity) →
      t.resolveIndex c r i = (none, t.setRun { r with entries := r.entries ++ [(chip, row, r.nextBag)] })) ∧
    (c.isSharded = true → c.indexCapacity ≤ (r.entries.filter (fun e => e.1 = chip)).length →
      ∃ u : State, t.resolveIndex c r i = (none, u.setRun { r with dropped := r.dropped + 1 }) ∧ u.mem = t.mem ∧ u.cmds = t.cmds ∧
        Map.get 0 (u.table r.number).counts 0x14 = Map.get 0 (t.table r.number).counts 0x14 + 1 ∧
        Map.get 0 (u.table r.number).drops chip = Map.get 0 (t.table r.number).drops chip + 1)) ∧
  (∀ (s t x : State) (dt id k : Nat) (r : LookupRun) (c : Cmd) (e f : RowRead), s.tick dt = t → t.run? id = some r → t.cmd? id = some c →
    r.reads[k]? = some e → e.values = none → f = t.freshRead (t.table r.table) e →
    (∀ code, t.readCut ⟨.c0, some c.job⟩ f.granules = (.bad code, x) → ∃ u, exec (.rowReadReturn dt id k) s = .next u ∧ Faulted x u) ∧
    (∀ (d b : Bytes) (v : List Nat) (r' : LookupRun) (y z : State) (c' : Cmd), t.readCut ⟨.c0, some c.job⟩ f.granules = (.ok d, x) →
      r' = { r with reads := setAt r.reads k { f with values := some (rowValues (x.table r.table).dim f.code d) } } →
      (x.setRun r').runPages c r' = .ready y c' → c'.bytes = c.bytes → c'.id = id → y.run? id = some r' → y.cmd? id = some c' →
      v = addRows r.sum (rowValues (x.table r.table).dim f.code d) → c.opcode = 0x70 → c.bags = 1 → r.nextBag = 1 → r.bag = 0 →
      r.reads = [e] → e.bag = 0 → c.u64 56 = 0 → poolNonFinite c.outFormat v = false → r.clash = [] →
      (y.setRun { r' with reads := [], bag := 1, sum := v.map (fun _ => 0) }).writeVa ⟨.c0, some c'.job⟩ c' (c.u64 40)
        (poolBytes c.outFormat v) = (.ok b, z) →
      ∃ u, exec (.rowReadReturn dt id k) s = .next u ∧ u.mem = z.mem ∧ u.run? id = none ∧
        u.cmd? id = some { c' with phase := .finished })) ∧
  (∀ (s t : State) (dt ch : Nat) (b : Bytes), s.tick dt = t → t.exchangeRun ch (sliceTable b) (sliceNumber b) = none →
    (t.completedOn ch (sliceNumber b) = false → exec (.requestSliceArrive dt ch b) s = .next t) ∧
    (t.completedOn ch (sliceNumber b) = true → exec (.requestSliceArrive dt ch b) s = .next (t.countTable (sliceTable b) 0x16 1)) ∧
    exec (.returnSliceArrive dt ch b) s = .next (t.countTable (sliceTable b) 0x16 1)) ∧
  (∀ (s t x w y : State) (dt ch : Nat) (b : Bytes) (r r1 r2 : LookupRun) (c c' : Cmd) (T : Table), s.tick dt = t →
    t.exchangeRun ch (sliceTable b) (sliceNumber b) = some (r, c) → T = t.table r.table → sliceChip b ∈ t.others T →
    (b.length = 32 + 12 * c.indexCapacity → r.has (sliceChip b) = false → t.mustAwaitApply r.number t.now = true →
      ∃ u, exec (.requestSliceArrive dt ch b) s = .next u ∧ u.run? c.id = some { r with waiting := r.waiting ++ [b] } ∧
        u.mem = t.mem ∧ u.cmd? c.id = some { c with unwatched := true }) ∧
    (∀ l, b.length = 32 + 12 * c.indexCapacity → r.has (sliceChip b) = false → t.mustAwaitApply r.number t.now = false →
      t.serveEntries c r (t.table r.number).dim ((List.range (min (fieldLe b 8 4) c.indexCapacity)).map (fun i =>
        (fieldLe b (32 + 12 * i) 8, fieldLe b (40 + 12 * i) 4))) [] = (.ok l, x) →
      x.run? c.id = some r1 → r2 = { r1 with served := r1.served ++ [sliceChip b] } →
      w = ((x.offer ⟨ch, sliceChip b, c.exchangeNo, 1, [],
        returnSlice c x.chip (t.table r.number).dim (l.take c.bagCapacity), c.job, false, x.now⟩).bump (lookupKey r.engine 5) 1).bump
          (lookupKey r.engine 6) 1 →
      (w.setRun r2).runPages c r2 = .ready y c' → c'.bytes = c.bytes → c'.id = c.id → y.run? c.id = some r2 →
      r1.nextBag < c.bags → r1.bag ≤ r1.nextBag → r1.reads = [] →
      ∃ u r3, exec (.requestSliceArrive dt ch b) s = .next u ∧ u.mem = y.mem ∧ u.fabric = y.fabric ∧ y.fabric = w.fabric ∧
        u.run? c.id = some r3 ∧ r3.served = r1.served ++ [sliceChip b]) ∧
    (b.length = 32 + c.bagCapacity * (4 + 4 * T.dim) → sliceChip b ∉ r.returned → r.combined = false → r.timedOut = false →
      ∃ l, l.length = min (fieldLe b 12 4) c.bagCapacity ∧
        (r1 = { r with partials := r.partials ++ l, returned := r.returned ++ [sliceChip b] } →
          (t.setRun r1).runPages c r1 = .ready y c' → c'.bytes = c.bytes → c'.id = c.id → y.run? c.id = some r1 →
          r.nextBag < c.bags → r.bag ≤ r.nextBag → r.reads = [] →
          ∃ u r3, exec (.returnSliceArrive dt ch b) s = .next u ∧ u.mem = y.mem ∧ u.run? c.id = some r3 ∧
            r3.returned = r.returned ++ [sliceChip b] ∧ r3.partials = r.partials ++ l))) ∧
  (∀ (s t y : State) (dt id n : Nat) (r r1 : LookupRun) (c c' : Cmd), s.tick dt = t → t.run? id = some r → t.cmd? id = some c →
    c.isSharded = true → r.timedOut = false →
    (t.now < r.deadline → exec (.exchangeTimeout dt id) s = .next t) ∧
    (r.deadline ≤ t.now → n = ((t.others (t.table r.table)).filter (fun k => !r.returned.contains k)).length →
      r1 = { r with timedOut := true, missing := r.missing + n } →
      ((t.countTable r.number 0x15 n).setRun r1).runPages c r1 = .ready y c' → c'.bytes = c.bytes → c'.id = id → y.run? id = some r1 →
      r.nextBag < c.bags → r.bag ≤ r.nextBag → r.reads = [] →
      ∃ u r', exec (.exchangeTimeout dt id) s = .next u ∧ u.run? id = some r' ∧ r'.timedOut = true ∧ u.mem = y.mem ∧
        r'.missing = r.missing + n))

/-- A gradient push is an illegal operation, refused by its sequence, or admitted with one contribution for each row (R135 to R139);
a contribution is folded by one FP32 addition into the entry of its row, or opens one (R141); an update exchange seals its table's
outbound entries into one slice for each other member once it holds its channel (R149), and ends when every slice has come and gone,
or at its timeout (R150); and train configure sets the parameters that the next apply phases use (R166). -/
def Obligations.UpdatesAreFolded : Prop :=
  (∀ (s t : State) (dt g : Nat) (c : Cmd), s.tick dt = t → t.engineCmd? ⟨.rowMerge, g⟩ 0x90 = some c →
    (t.update.runs.find? (fun r => r.cmd = c.id) = none → t.tableReady c.tableNo = false ∨ c.pushOk (t.table c.tableNo) = false →
      ∃ u, exec (.gradientPush dt g) s = .next u ∧ Faulted t u) ∧
    (∀ (x y : State) (c' : Cmd) (p : PushSums), t.update.runs.find? (fun r => r.cmd = c.id) = none → t.tableReady c.tableNo = true →
      c.pushOk (t.table c.tableNo) = true → c.grouped = false → c.u64 56 = 0 → c.held = none →
      t.needRanges c ⟨.rowMerge, g⟩ [(c.u64 40, (c.bags - 1) * c.u16 22 + gradBytes (t.table c.tableNo).dim c.gradFormat, false),
        (c.u64 24, c.bags * c.indexWidth, false)] = .ready x c' → c'.bytes = c.bytes →
      x.localRange c' (c.u64 40) ((c.bags - 1) * c.u16 22 + gradBytes (t.table c.tableNo).dim c.gradFormat) = true →
      x.localRange c' (c.u64 24) (c.bags * c.indexWidth) = true →
      x.readPush c' (t.table c.tableNo) (pushPairs c []) ⟨[], 0, []⟩ = (.ok p, y) → y.cmd? c'.id = some c' →
      ∃ u, exec (.gradientPush dt g) s = .next u ∧ u.mem = y.mem ∧
        (c.u32 48 ≤ Map.get 0 y.update.sequences c.tableNo → u.update.deliveries = y.update.deliveries ∧
          u.update.sequences = y.update.sequences ∧ u.cmd? c'.id = some { c' with phase := .finished }) ∧
        (Map.get 0 y.update.sequences c.tableNo < c.u32 48 → Map.get 0 u.update.sequences c.tableNo = c.u32 48 ∧
          u.update.deliveries = y.update.deliveries ++ p.sums.map (y.contributionOf c' c.tableNo))) ∧
    (∀ r, t.update.runs.find? (fun r => r.cmd = c.id) = some r →
      (t.update.deliveries.any (fun d => d.cmd = c.id) = true → exec (.gradientPush dt g) s = .next t) ∧
      (t.update.deliveries.any (fun d => d.cmd = c.id) = false → c.u64 56 = 0 → t.cmd? c.id = some c →
        ∃ u, exec (.gradientPush dt g) s = .next u ∧ u.mem = t.mem ∧ u.cmd? c.id = some { c with phase := .finished } ∧
          u.update.runs = t.update.runs.filter (fun r => r.cmd ≠ c.id)))) ∧
  (∀ (s t : State) (dt g : Nat) (d : Contribution) (k : MergeEntry), s.tick dt = t →
    t.update.deliveries.find? (fun d => d.unit = g) = some d → d.home = true →
    k = ⟨d.table, .home, d.epoch, t.chip, d.row, d.values, none, none, none⟩ →
    (∀ e, (t.entriesOf g).find? (fun x => x.same k) = some e → e.place = none → e.taken = none →
      ∃ u, exec (.contributionFold dt g) s = .next u ∧ u.mem = t.mem ∧ u.update.deliveries = t.update.deliveries.erase d ∧
        u.entriesOf g = (t.entriesOf g).filter (fun x => !x.same k) ++
          [{ e with sum := List.zipWith f32Add e.sum d.values, since := none }]) ∧
    ((t.entriesOf g).find? (fun x => x.same k) = none → t.areaUsed g + (t.table d.table).entryBytes ≤ t.mergeSize →
      ∃ u, exec (.contributionFold dt g) s = .next u ∧ u.mem = t.mem ∧ u.update.deliveries = t.update.deliveries.erase d ∧
        u.entriesOf g = t.entriesOf g ++ [{ k with sum := d.values.map (fun v => f32Add 0 v) }])) ∧
  (∀ (s t : State) (dt g : Nat) (c : Cmd), s.tick dt = t → t.engineCmd? ⟨.rowMerge, g⟩ 0x91 = some c →
    (t.update.runs.find? (fun r => r.cmd = c.id) = none →
      (t.tableReady c.tableNo = false ∨ c.updateCapacity = 0 ∨ c.u64 56 % 32 ≠ 0 →
        ∃ u, exec (.updateExchange dt g) s = .next u ∧ Faulted t u) ∧
      (t.tableReady c.tableNo = true → c.updateCapacity ≠ 0 → c.u64 56 = 0 → c.held = none → t.cmd? c.id = some c →
        (∀ x ∈ t.outbound c.tableNo, x.2.place = none) →
        ∃ (w : State) (r : PushRun), w.update.runs.find? (fun r => r.cmd = c.id) = some r ∧ exec (.updateExchange dt g) s = .next
            (w.handExchange { c with armed := true } r) ∧ r.stamp = t.now ∧ r.epoch = t.epoch ∧ r.handed = false ∧ w.mem = t.mem ∧
          w.fabric = t.fabric ∧
          ∀ k ∈ t.others (t.table c.tableNo), ∀ g' m, m ∈ t.entriesOf g' →
            (g', m) ∈ (((t.outbound c.tableNo).filter (fun x => x.2.taken.isNone)).filter (fun x => x.2.chip = k)).take
              c.updateCapacity →
            { m with taken := some (c.id, m.sum), since := none } ∈ w.entriesOf g')) ∧
    (∀ r, t.cmd? c.id = some c → c.scratch.headD 0 ≠ 1 →
      (t.holdsChannel c.updateChannel .update c.id = false → (∀ o ∈ (t.channel c.updateChannel).waiting, o.owner ≠ c.id) →
        (t.handExchange c r).mem = t.mem ∧ (t.handExchange c r).update = t.update ∧
        ((t.handExchange c r).channel c.updateChannel).waiting =
          (t.channel c.updateChannel).waiting ++ [⟨.update, c.updateNo % 65536, c.id, t.now⟩]) ∧
      (t.holdsChannel c.updateChannel .update c.id = true →
        (t.handExchange c r).fabric.outgoing = t.fabric.outgoing ++ (t.others (t.table r.table)).map (fun k =>
          ⟨c.updateChannel, k, c.updateNo, 0, [], updateSlice c.updateNo r.table t.chip r.epoch
            (((t.sealedBy r.table c.id).filter (fun x => x.2.1.chip = k)).map (fun x => (x.2.1.row, x.2.2))),
            c.job, false, t.now⟩))) ∧
    (∀ r, t.update.runs.find? (fun r => r.cmd = c.id) = some r → c.u64 56 = 0 → t.cmd? c.id = some c →
      (r.handed = false → exec (.updateExchange dt g) s = .next (t.handExchange c r)) ∧
      (r.handed = true → t.exchangeDone c r = false → exec (.updateExchange dt g) s = .next t) ∧
      (t.exchangeDone c r = true → ∃ u, exec (.updateExchange dt g) s = .next u ∧ u.mem = t.mem ∧
        u.cmd? c.id = some { c with phase := .finished } ∧ u.update.runs = t.update.runs.filter (fun r => r.cmd ≠ c.id)) ∧
      (t.now < r.deadline → exec (.updateExchangeTimeout dt g) s = .next t) ∧
      (r.deadline ≤ t.now → ∃ u, exec (.updateExchangeTimeout dt g) s = .next u ∧ u.mem = t.mem ∧
        u.cmd? c.id = some { c with phase := .finished } ∧ u.update.runs = t.update.runs.filter (fun r => r.cmd ≠ c.id)))) ∧
  (∀ (s t : State) (dt ch : Nat) (b : Bytes) (T : Table), s.tick dt = t → T = t.table (sliceTable b) →
    (T.state ≠ .ready ∨ T.trainable = false → exec (.updateSliceArrive dt ch b) s = .next t) ∧
    (∀ r, T.state = .ready → T.trainable = true → t.updateRun ch (sliceTable b) (sliceNumber b) = some r →
      (sliceChip b ∈ r.heard → exec (.updateSliceArrive dt ch b) s = .next t) ∧
      (sliceChip b ∉ r.heard → ∃ u, exec (.updateSliceArrive dt ch b) s = .next u ∧
        u.updateRun ch (sliceTable b) (sliceNumber b) = some { r with
          received := r.received + min (fieldLe b 8 4) ((b.length - 32) / (8 + 4 * T.dim)), heard := r.heard ++ [sliceChip b] })) ∧
    (T.state = .ready → T.trainable = true → t.updateRun ch (sliceTable b) (sliceNumber b) = none →
      (t.reachedBy ch (sliceTable b) (sliceNumber b) = none → exec (.updateSliceArrive dt ch b) s = .next t) ∧
      (∀ j, t.reachedBy ch (sliceTable b) (sliceNumber b) = some j → ∃ u, exec (.updateSliceArrive dt ch b) s = .next u ∧
        Map.get 0 (u.table (sliceTable b)).counts 0x10D = Map.get 0 T.counts 0x10D + 1))) ∧
  (∀ (s t x : State) (dt g : Nat) (c c' : Cmd), s.tick dt = t → t.engineCmd? ⟨.rowMerge, g⟩ 0x92 = some c →
    (t.tableReady c.tableNo = false ∨ (t.table c.tableNo).trainable = false →
      ∃ u, exec (.trainConfigure dt g) s = .next u ∧ Faulted t u) ∧
    (t.tableReady c.tableNo = true → (t.table c.tableNo).trainable = true → c.u64 56 % 16 = 0 → bits (c.u64 40) 20 0 = 0 →
      t.needRanges c ⟨.rowMerge, g⟩ (statusRange (c.u64 56)) = .ready x c' → x.statusOk c' = true → c'.bytes = c.bytes →
      (c.trainOk = false → exec (.trainConfigure dt g) s = .next (x.adminEnd c' 2 0)) ∧
      (c.trainOk = true → 3 * x.num (objKey 0x2100 1) ≤ 4 * c.u32 28 → exec (.trainConfigure dt g) s = .next (x.adminEnd c' 0x0B 0)) ∧
      (c.trainOk = true → 4 * c.u32 28 < 3 * x.num (objKey 0x2100 1) → bit (c.u8 18) 0 = false →
        exec (.trainConfigure dt g) s = .next ((x.setTable c.tableNo { x.table c.tableNo with
          rate := c.u32 20, epsilon := c.u32 24, budget := c.u32 28, channel := bits (c.u8 19) 3 0 }).adminEnd c' 0 0))))

/-- The apply phase: a part opens when its three conditions hold and not before (R156); a row with one gradient and no move is
stepped, which for the first optimiser is each element less the rate times its gradient, every operation rounded to FP32 (R152); the
budget ends a part (R158); slots return to their lists at their boundary (R89); and refreshes and end markers of other members are
taken (R94, R159). -/
def Obligations.ApplyPhase : Prop :=
  (∀ (s t : State) (dt g n : Nat) (p : Part), s.tick dt = t →
    t.update.parts.find? (fun p => p.unit = g && p.table = n && !p.ended && !p.open_) = some p →
    (t.partMayOpen p = false → exec (.applyTableStart dt g n) s = .next t) ∧
    (t.partMayOpen p = true → ∃ u, exec (.applyTableStart dt g n) s = .next u ∧ u.mem = t.mem ∧ u.tables = t.tables ∧
      { p with open_ := true } ∈ u.update.parts)) ∧
  (∀ (s t x : State) (dt g b a k tier slot : Nat) (p : Part) (rest : List Nat) (e : MergeEntry) (T : Table)
      (w grad step after : List Nat) (row : Bytes),
    s.tick dt = t → t.nextPart g = some p → p.unit = g → T = t.table p.table → t.rowsLeft g p.table = b :: rest →
    t.rowEntries g p.table b = [e] → e.place = none → T.moves.find? (fun m => m.row = b) = none → T.optimiser = 1 →
    t.readEntry applyAccess T b = (.ok (tier, slot), x) → tier ≤ 2 →
    T.replicaOf (t.rowNumber T b) = none → T.slotPieces tier slot = [(a, k)] → isStacked a = true → t.meetsRetired a k = false →
    t.firstBad a k = none → w = rowValues T.dim (T.code tier) (t.bytes a k) → grad = addRows (List.replicate T.dim 0) e.sum →
    step = grad.map (f32Mul p.rate) → after = List.zipWith f32Sub w step → (∀ v ∈ step ++ after, badF32 v = false) →
    encodeRow (T.code tier) after = some row → row.length = k →
    ∃ u, exec (.applyRow dt g) s = .next u ∧
      (∀ b', u.byte b' = if a ≤ b' ∧ b' < a + k then row.getD (b' - a) 0 else t.byte b') ∧
      (∀ m ∈ u.entriesOf g, ¬ (m.table = p.table ∧ m.row = b ∧ m.kind = .home ∧ m.epoch < t.update.applyEpoch))) ∧
  (∀ (s t : State) (dt g : Nat), s.tick dt = t → t.nextPart g = none →
    (∀ p ∈ t.update.parts, p.unit = g → p.marked = true → p.ended = true) → exec (.applyRow dt g) s = .next t) ∧
  (∀ (s t : State) (dt g n : Nat) (p : Part), s.tick dt = t →
    t.update.parts.find? (fun p => p.unit = g && p.table = n && !p.ended) = some p →
    (t.now < t.update.applyStart + p.budget * 1000 → exec (.applyBudgetExpire dt g n) s = .next t) ∧
    (t.update.applyStart + p.budget * 1000 ≤ t.now → ∃ u, exec (.applyBudgetExpire dt g n) s = .next u ∧
      (∀ q ∈ u.update.parts, q.unit = g → q.table = n → q.ended = true) ∧
      Map.get 0 (u.table n).counts 0x111 = Map.get 0 (t.table n).counts 0x111 + 1)) ∧
  (∀ (s t : State) (dt n : Nat), s.tick dt = t →
    (t.lookups.any (fun r => r.table = n && r.stamp < t.num (objKey 0x2100 5)) = true → exec (.slotRelease dt n) s = .next t) ∧
    (t.lookups.any (fun r => r.table = n && r.stamp < t.num (objKey 0x2100 5)) = false →
      ∃ u, exec (.slotRelease dt n) s = .next u ∧ u.mem = t.mem ∧ (∀ m, m ≠ n → u.table m = t.table m) ∧
        (u.table n).releases = (t.table n).releases.filter (fun r => t.epoch < r.epoch) ∧
        (∀ tier k, tier ≤ 2 → (k ∈ (u.table n).used tier ↔ k ∈ (t.table n).used tier ∧
          ∀ r ∈ (t.table n).releases, r.epoch ≤ t.epoch → ¬ (r.tier = tier ∧ r.slot = k))))) ∧
  (∀ (s t x : State) (dt n row tier set old : Nat) (d : Bytes), s.tick dt = t →
    (Map.find (t.table n).replicas row = none → exec (.refreshSlotReceive dt n row tier d) s = .next t) ∧
    (Map.find (t.table n).replicas row = some (set, old) → (t.table n).state = .ready → tier ≤ 2 → d.length = (t.table n).slot tier →
      t.writeCopies applyAccess (t.table n) set d = (none, x) →
      ∃ u, exec (.refreshSlotReceive dt n row tier d) s = .next u ∧ u.mem = x.mem ∧
        Map.find (u.table n).replicas row = some (set, tier) ∧ (∀ m, m ≠ n → u.table m = x.table m))) ∧
  (∀ (s t : State) (dt n chip m : Nat), s.tick dt = t →
    (t.update.parts.any (fun p => p.table = n) = false ∨ 32 ≤ m ∨ (n, chip, m) ∈ t.update.markers →
      exec (.refreshMarkerReceive dt n chip m) s = .next t) ∧
    (∀ t', t.update.parts.any (fun p => p.table = n) = true → m < 32 → (n, chip, m) ∉ t.update.markers →
      t' = { t with update := { t.update with markers := t.update.markers ++ [(n, chip, m)] } } → t'.markersHeld n = false →
      exec (.refreshMarkerReceive dt n chip m) s = .next t'))

/-! ### Engines -/

/-- The matrix engine: of the commands started on an array the first one runs its passes (R182), one a step; a pass counts itself and
takes its tile from the bank that holds it (R174, R177, R197); a block that is complete drains to the scratchpad (R186 to R188) and the
command ends with its last pass; a multiply whose fields fail is an illegal operation (R191), and a parity error is the execution
fault of R404; a capture writes the raw accumulators of its stop pass (R195) and a weight-bank read both banks and their records
(R196). Results that meet an operand are free values (R192). -/
def Obligations.MatrixCommands : Prop :=
  (∀ (t : State) (core op : Nat) (c : Cmd), t.matrixCmd? core op = some c → c ∈ t.cmds ∧ c.opcode = op ∧
    ∀ d ∈ t.cmds, d.unit = some ⟨.matrix, core⟩ → d.phase = .running → c.started ≤ d.started) ∧
  (∀ (s t : State) (dt core stalls : Nat) (parity : Bool) (c : Cmd) (run : MatrixRun), s.tick dt = t → core < 256 →
    t.matrixCmd? core 0x30 = some c → run = t.matrixRun c core →
    (c.matrix.ok = false ∨ parity = true → ∃ u, exec (.matrixMultiply dt core stalls parity) s = .next u ∧ Faulted t u) ∧
    (∀ q, c.matrix.ok = true → parity = false → t.mem.sramBad = [] → t.cmd? c.id = some c → run.core = core →
      c.matrix.passes[run.pass]? = some q →
      ∃ u x run', exec (.matrixMultiply dt core stalls parity) s = .next u ∧
        (t.bump (matrixKey core 4) stalls).runPass c.matrix run q = (.ok run', x) ∧ u = x.afterPass c c.matrix run' q ∧
        x.mem = t.mem ∧ Rose t u (matrixKey core 1) 1 ∧ Rose t u (matrixKey core 4) stalls ∧
        (run.pass + 1 < c.matrix.passes.length → u.cmd? c.id = some c ∧ u.matrixRun c core = run' ∧ run'.pass = run.pass + 1) ∧
        (c.matrix.passes.length ≤ run.pass + 1 → u.cmd? c.id = some { c with phase := .finished }))) ∧
  (∀ (t : State) (c : Cmd) (x : MatrixCmd) (run : MatrixRun) (q : Nat × Nat × Nat) (v : Vectors), x.closes q = true →
    t.readVectors run.core x q.1 q.2.1 = .ok v →
    ∃ (w : State) (lines shifts : List (Nat × Bytes)), w.mem = t.mem ∧
      lines.map (fun l => (l.1, l.2.length)) = (x.outLines q.1 q.2.1 (x.drain v run.acc)).map (fun l => (l.1, l.2.length)) ∧
      shifts.map (fun l => (l.1, l.2.length)) = (x.shiftLine q.1 (x.drain v run.acc)).map (fun l => (l.1, l.2.length)) ∧
      (x.overlaps x.outRanges = false → w.free = t.free ∧ lines = x.outLines q.1 q.2.1 (x.drain v run.acc) ∧
        shifts = x.shiftLine q.1 (x.drain v run.acc)) ∧
      ∀ y z, w.writeLines x.column (scratchBase run.core) lines = (none, y) →
        y.writeLines false (scratchBase run.core) shifts = (none, z) → (t.afterPass c x run q).mem = z.mem) ∧
  (∀ (t : State) (core o k : Nat) (x : MatrixCmd), (t.bank (2 * core)).active = true →
    (t.bank (2 * core)).sameTile (x.tileRecord o k) = false → (t.bank (2 * core + 1)).sameTile (x.tileRecord o k) = true →
    ∃ y, t.useTile core x o k = (.ok (t.bank (2 * core + 1)), y) ∧ Rose t y (matrixKey core 6) 1 ∧ y.mem = t.mem ∧
      (y.bank (2 * core + 1)).active = true ∧ (y.bank (2 * core)).active = false) ∧
  (∀ (s t : State) (dt core stalls : Nat) (parity : Bool) (c : Cmd) (run : MatrixRun), s.tick dt = t → core < 256 →
    t.matrixCmd? core 0xD0 = some c → run = t.matrixRun c core →
    (c.matrix.codesOk = false ∨ c.matrix.operandsOk = false ∨ c.matrix.captured.getLast?.all c.matrix.captureOk = false ∨ parity = true →
      ∃ u, exec (.matrixCapture dt ⟨core, stalls, parity⟩) s = .next u ∧ Faulted t u) ∧
    (∀ q, c.matrix.codesOk = true → c.matrix.operandsOk = true → c.matrix.captured.getLast?.all c.matrix.captureOk = true →
      parity = false → t.mem.sramBad = [] → t.cmd? c.id = some c → run.core = core → c.matrix.captured[run.pass]? = some q →
      ∃ u x run', exec (.matrixCapture dt ⟨core, stalls, parity⟩) s = .next u ∧
        (t.bump (matrixKey core 4) stalls).runPass c.matrix run q = (.ok run', x) ∧ x.mem = t.mem ∧
        (run.pass + 1 < c.matrix.captured.length → u.mem = t.mem ∧ u.cmd? c.id = some c ∧ u.matrixRun c core = run') ∧
        (c.matrix.captured.length ≤ run.pass + 1 → u.cmd? c.id = some { c with phase := .finished } ∧
          (c.matrix.overlaps ((List.range (c.matrix.rowsIn q.1)).map (fun i =>
              (c.matrix.output + i * c.matrix.outStride * 64, c.matrix.rawLine q))) = false →
            u.mem = (x.writeLines false (scratchBase core) (c.matrix.rawBlock run'.acc)).2.mem)))) ∧
  (∀ (s t : State) (dt core : Nat) (parity : Bool) (c : Cmd), s.tick dt = t → core < 256 → t.matrixCmd? core 0xD1 = some c →
    (offsetOk (c.u32 36) = false ∨ 0x800000 < c.u32 36 + 8224 ∨ parity = true →
      ∃ u, exec (.weightBankRead dt ⟨core, parity⟩) s = .next u ∧ Faulted t u) ∧
    (offsetOk (c.u32 36) = true → c.u32 36 + 8224 ≤ 0x800000 → parity = false → t.mem.sramBad = [] → t.cmd? c.id = some c →
      ∃ u, exec (.weightBankRead dt ⟨core, parity⟩) s = .next u ∧ u.cmd? c.id = some { c with phase := .finished } ∧
        u.mem = (t.writeLines false (scratchBase core) [(c.u32 36, sub (t.bank (2 * core)).bytes 0 4096),
          (c.u32 36 + 4096, sub (t.bank (2 * core + 1)).bytes 0 4096),
          (c.u32 36 + 8192, (t.bank (2 * core)).record ++ (t.bank (2 * core + 1)).record)]).2.mem))

/-- The vector engine: a run whose fields and bindings pass begins with its program, its state inputs and its fixed inputs (R203,
R207, R219), a lane program that its slot does not hold changes nothing but its record and its count (R217), a load fills its slot
(R216), and each group stores what the program computes of the group's inputs, the run's counts with it (R206, R207); after the last
group the run ends with its state outputs. -/
def Obligations.VectorCommands : Prop :=
  (∀ (s t : State) (dt core op : Nat) (i : Instr) (c : Cmd), s.tick dt = t → core < 256 → t.engineCmd? ⟨.vector, core⟩ op = some c →
    c.armed = false → c.opcode = op → (i = .vectorRun dt core ∧ op = 0x50 ∨ i = .laneProgramRun dt core ∧ op = 0x51) →
    (c.runFieldsOk = false → ∃ u, exec i s = .next u ∧ Faulted t u) ∧
    (c.runFieldsOk = true → t.program? c core = none → c.u64 56 = 0 → c.held = none → t.cmd? c.id = some c →
      ∃ u, exec i s = .next u ∧ u.mem = t.mem ∧ Rose t u (vectorKey core 6) 1 ∧ u.cmd? c.id = some { c with phase := .finished }) ∧
    (∀ (program : List Nat) (d : Bytes) (l : List Binding), c.runFieldsOk = true → t.program? c core = some program →
      t.mem.sramBad = [] → d = t.bytes (scratchBase core + c.u32 24) (16 * (bits (c.u8 17) 2 0 + 1)) → l = (chunks 16 9 d).map bindingOf →
      ((program.all (wordOk c.packing) && c.bindingsOk l) = false → ∃ u, exec i s = .next u ∧ Faulted t u) ∧
      (program.all (wordOk c.packing) = true → c.bindingsOk l = true → (∀ r ∈ t.arith.runs, r.core ≠ core) →
        (∀ (y : State) (c' : Cmd), t.needRanges c ⟨.vector, core⟩ (placeRanges (stateReads l) false ++
            placeRanges (stateWrites l) true ++ placeRanges c.statusPlace true) = .ready y c' →
          y.vectorTargets c' core false (stateReads l) = true → y.vectorTargets c' core true (stateWrites l ++ c'.statusPlace) = true →
          y.prepare c' core (stateReads l) = .ok → y.cmd? c'.id = some c' →
          ∃ u r, exec i s = .next u ∧ u.vectorRun? core = some r ∧ r.cmd = c'.id ∧ r.program = program ∧ r.group = 0 ∧
            r.bindings.map bindingOf = l ∧ r.regs = y.loadState c' core l ∧ r.fixed = y.loadFixed c' core l ∧
            r.undefined = c'.clashes l ∧ r.ending = none ∧ r.storing = false ∧ (∀ a, u.byte a = t.byte a) ∧
            ∃ c'', u.cmd? c'.id = some c'' ∧ c''.armed = true) ∧
        ((∀ b ∈ l, b.virt = false) → c.u64 56 = 0 → c.held = none → t.cmd? c.id = some c →
          t.vectorTargets c core false (stateReads l) = true → t.vectorTargets c core true (stateWrites l) = true →
          ∃ u r, exec i s = .next u ∧ u.vectorRun? core = some r ∧ r.cmd = c.id ∧ r.program = program ∧ r.group = 0 ∧
            r.bindings.map bindingOf = l ∧ r.regs = t.loadState c core l ∧ r.fixed = t.loadFixed c core l ∧ u.mem = t.mem ∧
            ∃ c', u.cmd? c.id = some c' ∧ c'.armed = true)))) ∧
  (∀ (s t : State) (dt core : Nat) (c : Cmd) (a n : Nat), s.tick dt = t → core < 256 → t.engineCmd? ⟨.vector, core⟩ 0x52 = some c →
    a = c.u32 24 → n = bits (c.u8 18) 5 0 + 1 →
    (0x800000 ≤ a ∨ a % 64 ≠ 0 ∨ 0x800000 < a + 4 * n → ∃ u, exec (.laneProgramLoad dt core) s = .next u ∧ Faulted t u) ∧
    (a < 0x800000 → a % 64 = 0 → a + 4 * n ≤ 0x800000 → t.firstSramBad (scratchBase core + a) (4 * n) = none → t.cmd? c.id = some c →
      ∃ u, exec (.laneProgramLoad dt core) s = .next u ∧ u.mem = t.mem ∧ u.cmd? c.id = some { c with phase := .finished } ∧
        u.slotOf core (bits (c.u8 16) 3 0) =
          ⟨true, c.job, c.u32 20, (chunks 4 65 (t.bytes (scratchBase core + a) (4 * n))).map leNat⟩ ∧
        (∀ k, k ≠ bits (c.u8 16) 3 0 → u.slotOf core k = t.slotOf core k))) ∧
  (∀ (s t : State) (dt core holds : Nat) (parity : Bool) (r : VectorRun) (c : Cmd) (l : List Binding), s.tick dt = t → core < 256 →
    t.vectorRun? core = some r → (∀ r2 ∈ t.arith.runs, r2.core = core → r2.cmd = r.cmd) → t.cmd? r.cmd = some c →
    l = r.bindings.map bindingOf → (l.filter Binding.isSum).length ≤ 1 →
    (parity = true → ∃ u, exec (.vectorGroup dt core holds parity) s = .next u ∧ Faulted t u) ∧
    (parity = false → r.ending = none → r.storing = true →
      exec (.vectorGroup dt core holds parity) s = .next (t.flushStores c core r)) ∧
    (∀ (ins : List (Nat × VPlace)) (stores : List (VPlace × Bytes × Stored)) (v : Lanes) (k1 sum : Nat), parity = false →
      r.ending = none → r.storing = false → r.group < c.groups → (∀ b ∈ l, b.virt = false ∧ b.isMask = false) → c.held = none →
      t.translating c = false → r.undefined = false → t.mem.sramBad = [] → k1 = r.masks.getD 1 0 →
      ins = (l.filter (fun b => b.isInput && b.stride ≠ 0)).flatMap (fun b => c.places b r.group k1) →
      v = execProgram r.group r.program (t.loadGroup c core l r k1) →
      sum = (match l.find? Binding.isSum with
        | some b => c.rowSum b r.group r.carry v
        | none => 0) →
      stores = c.stores l r.group v ++ c.sumStore l r.group sum →
      t.vectorTargets c core false (ins.map (fun x => x.2)) = true →
      t.vectorTargets c core true ((c.outPlaces l r.group k1).map (fun x => x.2)) = true →
      t.vectorTargets c core true ((c.outPlaces l r.group (v.mask 1)).map (fun x => x.2)) = true →
      (accessesOf c core false ins ++ accessesOf c core true (c.outPlaces l r.group (v.mask 1))).any (fun a =>
        (r.seen ++ (accessesOf c core false ins ++ accessesOf c core true (c.outPlaces l r.group (v.mask 1)))).any a.clash) = false →
      ∃ (u w : State) (r' : VectorRun), exec (.vectorGroup dt core holds parity) s = .next u ∧ w.mem = t.mem ∧
        u.mem = (w.putSome c core (writesOf c core (stores.map (fun x => (x.1, x.2.1))))).2.mem ∧
        u.vectorRun? core = some r' ∧ r'.group = r.group + 1 ∧ r'.regs = v.regs ∧ r'.masks = v.masks ∧
        r'.carry = (if c.rowEnds r.group then 0 else sum) ∧ Rose t u (vectorKey core 1) 1 ∧
        ((l.find? Binding.isSum).isSome = true → Rose t u (vectorKey core 5) holds) ∧
        ((l.find? Binding.isSum).isSome = false → u.num (vectorKey core 5) = t.num (vectorKey core 5))) ∧
    (parity = false → r.ending = none → r.storing = false → c.groups ≤ r.group → (∀ b ∈ l, b.stateOut = false) → c.held = none →
      c.u64 56 = 0 →
      ∃ u, exec (.vectorGroup dt core holds parity) s = .next u ∧ u.mem = t.mem ∧ (∀ v ∈ u.arith.runs, v.cmd ≠ c.id) ∧
        u.cmd? c.id = some { c with phase := .finished }))

/-- Stream engines: an arm copies its descriptor into an idle slot, becomes a shadow, or is refused with status 1 (R296, R297); a
descriptor beyond its limits is an illegal operation (R293); a regulator takes its rate and depth and a full bucket (R303); a tile
is translated whole before any of its requests issues (R304); a request reads its source as it issues, and waits without a tag or
enough tokens (R300, R302); its write, once performed, frees its tag and is counted, the last of a descriptor ending its arm (R299).
-/
def Obligations.StreamCommands : Prop :=
  (∀ (s t x : State) (dt core : Nat) (c : Cmd) (b : Bytes), s.tick dt = t → t.streamCmd? core 0x10 = some c → c.armed = false →
    (armOk c = false → ∃ u, exec (.streamArm dt core) s = .next u ∧ Faulted t u) ∧
    (armOk c = true → bit (c.u8 17) 0 = false → t.meetsMerge (scratchBase core + c.u64 24) 64 = false →
      t.read ⟨.c1, some c.job⟩ (scratchBase core + c.u64 24) 64 = (.ok b, x) → x.cmd? c.id = some c →
      ((t.streamSlot core (bits (c.u8 16) 3 0)).active = none →
        (descOk b x.mergeSize = true → ∃ u, exec (.streamArm dt core) s = .next u ∧
          ∃ d, u.streamSlot core (bits (c.u8 16) 3 0) = { state := .running, active := some d, shadow := none } ∧ d.bytes = b ∧
            d.cmd = c.id ∧ d.job = c.job ∧ d.tile = 0 ∧ d.moved = 0) ∧
        (descOk b x.mergeSize = false → ∃ u, exec (.streamArm dt core) s = .next u ∧ Faulted x u)) ∧
      (∀ d0, (t.streamSlot core (bits (c.u8 16) 3 0)).active = some d0 →
        ((t.streamSlot core (bits (c.u8 16) 3 0)).shadow = none → ∃ u, exec (.streamArm dt core) s = .next u ∧
          (u.streamSlot core (bits (c.u8 16) 3 0)).active = some d0 ∧
          ∃ d, (u.streamSlot core (bits (c.u8 16) 3 0)).shadow = some d ∧ d.bytes = b ∧ d.cmd = c.id) ∧
        (∀ d1, (t.streamSlot core (bits (c.u8 16) 3 0)).shadow = some d1 → c.u64 56 = 0 →
          ∃ u, exec (.streamArm dt core) s = .next u ∧ u.streams = t.streams ∧ Rose x u (streamKey core 3) 1 ∧
            ∃ c', u.cmd? c.id = some c' ∧ c'.phase = .finished ∧ c'.scratch.headD 0 = 1)))) ∧
  (∀ (s t : State) (dt core : Nat) (c : Cmd), s.tick dt = t → t.streamCmd? core 0x11 = some c →
    (1000000 < c.u32 16 ∨ c.u32 20 < 256 ∨ 16777216 < c.u32 20 → ∃ u, exec (.streamRegulate dt core) s = .next u ∧ Faulted t u) ∧
    (c.u32 16 ≤ 1000000 → 256 ≤ c.u32 20 → c.u32 20 ≤ 16777216 → t.cmd? c.id = some c →
      ∃ u, exec (.streamRegulate dt core) s = .next u ∧
        u.regulator core = ⟨c.u32 16, c.u32 20, c.u32 20 * 1000, t.now, (t.regulator core).wanted⟩ ∧
        (∀ k, k ≠ core → u.regulator k = t.regulator k) ∧ u.mem = t.mem ∧ u.streams.slots = t.streams.slots ∧
        ∃ c', u.cmd? c.id = some c' ∧ c'.phase = .finished)) ∧
  (∀ (s t : State) (dt core slot : Nat) (d : Desc) (c : Cmd), s.tick dt = t →
    t.streamSlot core slot = { state := .running, active := some d, shadow := (t.streamSlot core slot).shadow } →
    t.cmd? d.cmd = some c → d.translated = false → d.tile < descTiles d.bytes →
    descSpace d.bytes false ≠ 1 → descSpace d.bytes true ≠ 1 → c.held = none → c.xl = [] → c.id = d.cmd →
    ∃ u d', exec (.streamTile dt core slot) s = .next u ∧ (u.streamSlot core slot).active = some d' ∧ d'.translated = true ∧
      d'.issued = 0 ∧ d'.tile = d.tile ∧ (∃ since, (d.tile, since) ∈ d'.underWay) ∧ u.mem = t.mem) ∧
  (∀ (s t : State) (dt core slot n : Nat) (d : Desc) (c : Cmd), s.tick dt = t →
    t.streamSlot core slot = { state := .running, active := some d, shadow := (t.streamSlot core slot).shadow } →
    t.cmd? d.cmd = some c → d.translated = true → n = requestLength d.bytes d.tile d.issued →
    (256 ≤ (t.tags core).length ∨ t.issueSlot core ≠ some slot → exec (.streamRequestIssue dt core slot) s = .next t) ∧
    ((t.tags core).length < 256 → t.issueSlot core = some slot → c.needsHost = false →
      (t.regulator core).rate ≠ 0 → (t.regulator core).level t.now < n * 1000 →
      ∃ u, exec (.streamRequestIssue dt core slot) s = .next u ∧ u.streams.requests = t.streams.requests ∧ u.mem = t.mem ∧
        (u.regulator core).wanted.any (fun w => w.1 = slot) = true) ∧
    (∀ (x : State) (a : Nat) (dst : Target) (b : Bytes) (q : StreamReq), (t.tags core).length < 256 → t.issueSlot core = some slot →
      c.needsHost = false → t.readsOut ≤ 1024 →
      ((t.regulator core).rate = 0 ∨ n * 1000 ≤ (t.regulator core).level t.now) →
      t.sourceParts core d (descAddr d.bytes false d.tile (d.issued / descRowBytes d.bytes) + ((d.issued % descRowBytes d.bytes : Nat) : Int)) n =
        some [⟨.here a, 0, n, none⟩] →
      t.sideTarget core d true (descAddr d.bytes true d.tile (d.issued / descRowBytes d.bytes) + ((d.issued % descRowBytes d.bytes : Nat) : Int)) =
        some dst →
      t.read ⟨.c1, some c.job⟩ a n = (.ok b, x) →
      q = ⟨core, slot, d.tile, d.issued, [⟨.here a, 0, n, some b⟩], dst, n, d.clash ⟨core, slot, d.tile, d.issued,
        [⟨.here a, 0, n, some b⟩], dst, n, false, false⟩, false⟩ →
      ∃ u, exec (.streamRequestIssue dt core slot) s = .next u ∧ u.streams.requests.getLast? = some q ∧
        u.streams.requests.length = t.streams.requests.length + 1 ∧
        Map.get 15 u.streams.turns (2 * core + (if t.latency d.job then 0 else 1)) = slot ∧
        (d.clashHere q = [] → ∀ a, u.byte a = t.byte a))) ∧
  (∀ (s t x : State) (dt core slot tile number a : Nat) (q : StreamReq) (d : Desc) (c : Cmd) (b r : Bytes), s.tick dt = t → slot < 16 →
    t.streams.requests.find? (fun r => r.core = core && r.slot = slot && r.tile = tile && r.number = number) = some q →
    (t.streamSlot core slot).active = some d → t.cmd? d.cmd = some c →
    (∃ u, exec (.streamWritePerformed dt core slot tile number true) s = .next u ∧ Faulted t u) ∧
    (t.mustWait q = true → exec (.streamWritePerformed dt core slot tile number false) s = .next t) ∧
    (t.mustWait q = false → q.data = some b → q.undefined = false → q.dest = .here a → t.write ⟨.c1, some c.job⟩ a b = (.ok r, x) →
      ∃ u, exec (.streamWritePerformed dt core slot tile number false) s = .next u ∧
        (d.tile < descTiles d.bytes ∨ (∃ y ∈ t.streams.requests, y.core = core ∧ y.slot = slot ∧ y.key ≠ q.key) → u.mem = x.mem ∧
          u.streams.requests = t.streams.requests.filter (fun y => !(y.core = core && y.slot = slot && y.key = q.key)) ∧
          Rose x u (streamKey core 2) q.length ∧ ∃ d', (u.streamSlot core slot).active = some d' ∧ d'.moved = d.moved + q.length) ∧
        (descTiles d.bytes ≤ d.tile → (∀ y ∈ t.streams.requests, y.core = core → y.slot = slot → y.key = q.key) →
          (t.streamSlot core slot).shadow = none → c.u64 56 = 0 → bit (c.u8 17) 1 = false →
          u.mem = x.mem ∧ u.streamSlot core slot = StreamSlot.init ∧ ∃ c', u.cmd? d.cmd = some c' ∧ c'.phase = .finished)))

/-! ### Mailbox and SPDM -/

/-- Every mailbox command answers with a code and a payload and changes what R394, R395, R467 and R468 give it and nothing else;
with the link down nothing answers, before the dictionary is ready the mailbox is busy, and after a stopped start-up only the
firmware commands are served (R47, R456). A dictionary request does what the row of its operation does. Codes and layouts are
notes/assumptions/51.md and 52.md. -/
def Obligations.MailboxCommands : Prop :=
  (∀ (s t : State) (dt held : Nat) (waits store : Bool) (b : Bytes) (r : Request), s.reach dt r = t → 16 ≤ b.length →
    r = { via := .host, held := held, waits := waits, whole := true, store := store,
          msg := { version := fieldLe b 0 1, transaction := fieldLe b 2 2, index := fieldLe b 4 2, sub := fieldLe b 6 1,
                   type := fieldLe b 7 1, offset := fieldLe b 8 4, length := fieldLe b 12 2, value := b.drop 16 } } →
    (bits (fieldLe b 1 1) 6 0 = 1 → exec (.mailboxDictionaryRequest dt ⟨held, waits⟩ store b) s = exec (.objectRead dt r) s) ∧
    (bits (fieldLe b 1 1) 6 0 = 2 → exec (.mailboxDictionaryRequest dt ⟨held, waits⟩ store b) s = exec (.objectWrite dt r) s) ∧
    (bits (fieldLe b 1 1) 6 0 = 3 → exec (.mailboxDictionaryRequest dt ⟨held, waits⟩ store b) s = exec (.objectDescribe dt r) s) ∧
    (bits (fieldLe b 1 1) 6 0 = 4 → exec (.mailboxDictionaryRequest dt ⟨held, waits⟩ store b) s = exec (.objectEnumerate dt r) s) ∧
    (bits (fieldLe b 1 1) 6 0 = 5 → exec (.mailboxDictionaryRequest dt ⟨held, waits⟩ store b) s = exec (.segmentRead dt r) s) ∧
    (bits (fieldLe b 1 1) 6 0 = 6 → exec (.mailboxDictionaryRequest dt ⟨held, waits⟩ store b) s = exec (.segmentWrite dt r) s) ∧
    (∀ o : ObjRow, bits (fieldLe b 1 1) 6 0 = 1 → t.serves 1 r = true → objRow r.msg.index r.msg.sub = some o → o.readable .host = true →
      o.ty ≠ .domain → r.msg.type = 0 ∨ r.msg.type = o.ty.code →
      ∃ u, exec (.mailboxDictionaryRequest dt ⟨held, waits⟩ store b) s = .next u ∧ SameObjects t u ∧
        u = ((t.heard r).noteRead 1 r).respond 1 r (sessionOf r)
          ⟨0, o.ty.code, r.msg.index, r.msg.sub, (t.heard r).objValue o (objKey r.msg.index r.msg.sub)⟩)) ∧
  (∀ (s t : State) (dt : Nat) (i : Instr), s.tick dt = t →
    (i = .identifyMemoryDevice dt ∨ i = .getSupportedLogs dt ∨ i = .getTimestamp dt ∨ i = .getEventInterruptPolicy dt ∨
      (∃ x y, i = .mailboxActionStatus dt x y) ∨ (∃ x y z, i = .getLog dt x y z) ∨ (∃ x, i = .getEventRecords dt x) ∨
      (∃ x y z, i = .clearEventRecords dt x y z) ∨ (∃ x, i = .setEventInterruptPolicy dt x) ∨ (∃ x y, i = .getPoisonList dt x y) ∨
      (∃ x, i = .setTimestamp dt x)) →
    (t.host.dlUp = false → exec i s = .next t) ∧
    (t.host.dlUp = true → t.dictReady = false → exec i s = .next (t.emit (.mailbox 6 []))) ∧
    (t.host.dlUp = true → t.dictReady = true → t.num startupKey = 2 → exec i s = .next (t.emit (.mailbox 3 [])))) ∧
  (∀ (s t : State) (dt : Nat), s.tick dt = t → t.host.dlUp = true → t.dictReady = true →
    (t.num startupKey ≠ 2 →
      (∀ index sub o, objRow index sub = some o → o.ty = .action →
        exec (.mailboxActionStatus dt index sub) s = .next (t.emit (.mailbox 0 (natLe 4 (t.num (objKey index sub)))))) ∧
      (∃ p, exec (.identifyMemoryDevice dt) s = .next (t.emit (.mailbox 0 p)) ∧ sub p 16 32 = natLe 8 3072 ++ natLe 8 3072 ++ natLe 8 0 ++
        natLe 8 0) ∧
      exec (.getSupportedLogs dt) s =
        .next (t.emit (.mailbox 0 (natLe 2 1 ++ natLe 6 0 ++ effectsUuid ++ natLe 4 effectsLog.length))) ∧
      (∀ offset n, offset + n ≤ effectsLog.length →
        exec (.getLog dt effectsUuid offset n) s = .next (t.emit (.mailbox 0 ((effectsLog.drop offset).take n)))) ∧
      (∀ log, log < 4 → exec (.getEventRecords dt log) s = .next (t.emit (.mailbox 0 (natLe 20 0 ++ natLe 2 (t.eventsOf log).length ++
        natLe 10 0 ++ (t.eventsOf log).flatMap t.eventBytes)))) ∧
      (∀ log, log < 4 → ∃ u, exec (.clearEventRecords dt log true []) s = .next u ∧ u.eventsOf log = [] ∧
        (∀ l, l ≠ log → u.eventsOf l = t.eventsOf l) ∧ u.out = t.out ++ [.mailbox 0 []]) ∧
      exec (.getEventInterruptPolicy dt) s = .next (t.emit (.mailbox 0 t.mailbox.policy)) ∧
      (∀ p : Bytes, p.length = 5 → ∃ u, exec (.setEventInterruptPolicy dt p) s = .next u ∧ u.mailbox.policy = p ∧
        u.mailbox.events = t.mailbox.events ∧ u.out = t.out ++ [.mailbox 0 []]) ∧
      (∀ a n, exec (.getPoisonList dt a n) s = .next (t.emit (.mailbox 0 (natLe 10 0 ++ natLe 2 (t.poisonRecords a n).length ++ natLe 20 0 ++
        (t.poisonRecords a n).flatten)))) ∧
      exec (.getTimestamp dt) s = .next (t.emit (.mailbox 0 (natLe 8 (t.stampAt t.now)))) ∧
      (∀ n, 0 < n → n < 2 ^ 64 → ∃ u, exec (.setTimestamp dt n) s = .next u ∧ u.stampAt u.now = n ∧ u.now = t.now)) ∧
    (∃ p, exec (.getFwInfo dt) s = .next (t.emit (.mailbox 0 p)) ∧ fieldLe p 0 1 = 2) ∧
    (∀ action slot offset (d : Bytes) x, 2 ≤ action → action ≤ 3 → slot = t.inactiveSlot + 1 → t.programSlot (offset * 128) d = (0, x) →
      exec (.transferFw dt action slot offset d) s = .next (x.emit (.mailbox 0 []))) ∧
    (∀ slot, slot = t.inactiveSlot + 1 → t.startup.erasing = false → t.slotValid t.inactiveSlot = true →
      ∃ u, exec (.activateFw dt 1 slot) s = .next u ∧ u.startup.preferred = t.inactiveSlot ∧ u.startup.trial = true ∧
        u.num slotActionKey = 2 ∧ u.out = t.out ++ [.mailbox 0 []]))

/-- The SPDM responder on each of its transports: version, capabilities and algorithms are negotiated in that order and any other
order is an unexpected request; digests, certificates and challenges need the chain (R460); measurements are blocks 1 to 3 as taken
at start-up and block 4 afresh (R459, R462); a session begins with a key exchange, at most four at a time, opens with a right
FINISH, and ends (R461). Nothing here changes an object. Layouts and codes are notes/assumptions/49.md. -/
def Obligations.SpdmRequests : Prop :=
  ∀ (s t : State) (dt : Nat) (tr : Transport) (b : Bytes), s.tick dt = t → t.spdmUp tr = true → tr ≠ .rack →
    (∃ u, exec (.spdmGetVersion dt tr b) s = .next u ∧ (u.conn tr).stage = .version ∧ u.dict = t.dict ∧
      u.out = t.out ++ [.spdm tr (natLe 1 0x10 ++ natLe 1 0x04 ++ natLe 3 0 ++ natLe 1 1 ++ natLe 2 0x1200)]) ∧
    ((t.conn tr).stage ≠ .version → exec (.spdmGetCapabilities dt tr b) s = .next (t.emit (.spdm tr (spdmError 4)))) ∧
    ((t.conn tr).stage = .version → ∃ u, exec (.spdmGetCapabilities dt tr b) s = .next u ∧ (u.conn tr).stage = .capabilities ∧
      u.dict = t.dict) ∧
    ((t.conn tr).stage = .capabilities → fieldLe b 6 4 &&& 0x200 ≠ 0 → fieldLe b 10 4 &&& 0x04 ≠ 0 →
      ∃ u, exec (.spdmNegotiateAlgorithms dt tr b) s = .next u ∧ (u.conn tr).stage = .algorithms ∧ u.dict = t.dict) ∧
    ((t.conn tr).stage = .capabilities → fieldLe b 6 4 &&& 0x200 = 0 ∨ fieldLe b 10 4 &&& 0x04 = 0 →
      exec (.spdmNegotiateAlgorithms dt tr b) s = .next (t.emit (.spdm tr (spdmError 1)))) ∧
    ((t.conn tr).stage = .algorithms → t.startup.chainValid = true →
      (∃ u, exec (.spdmGetDigests dt tr b) s = .next u ∧ u.dict = t.dict ∧
        u.out = t.out ++ [.spdm tr (spdmMessage 0x01 (natLe 1 0 ++ natLe 1 1 ++ sha512 spdmChain))]) ∧
      (fieldLe b 0 1 = 0 → fieldLe b 2 2 < spdmChain.length → ∃ u, exec (.spdmGetCertificate dt tr b) s = .next u ∧ u.dict = t.dict ∧
        ∃ head, u.out = t.out ++ [.spdm tr (spdmMessage 0x02 (head ++ (spdmChain.drop (fieldLe b 2 2)).take (fieldLe b 4 2)))]) ∧
      (fieldLe b 0 1 = 0 → ∃ u, exec (.spdmChallenge dt tr b) s = .next u ∧ (u.conn tr).transcriptB = [] ∧
        u.net.draws = t.net.draws + 1 ∧ u.dict = t.dict) ∧
      (fieldLe b 1 1 = 0 → 4 ≤ t.spdm.sessions.length → exec (.spdmKeyExchange dt tr b) s = .next (t.emit (.spdm tr (spdmError 3)))) ∧
      (fieldLe b 1 1 = 0 → t.spdm.sessions.length < 4 → ∃ u x, exec (.spdmKeyExchange dt tr b) s = .next u ∧
        u.spdm.sessions = t.spdm.sessions ++ [x] ∧ x.transport = tr ∧ x.established = false ∧ u.dict = t.dict ∧
        (∀ y ∈ t.spdm.sessions, y.id / 65536 ≠ x.id / 65536))) ∧
    ((t.conn tr).stage = .algorithms → t.startup.chainValid = false →
      exec (.spdmGetDigests dt tr b) s = .next (t.emit (.spdm tr (spdmError 5))) ∧
      exec (.spdmGetCertificate dt tr b) s = .next (t.emit (.spdm tr (spdmError 5))) ∧
      exec (.spdmChallenge dt tr b) s = .next (t.emit (.spdm tr (spdmError 5))) ∧
      exec (.spdmKeyExchange dt tr b) s = .next (t.emit (.spdm tr (spdmError 5)))) ∧
    ((t.conn tr).stage = .algorithms → fieldLe b 1 1 = 0xFF → ∃ u nonce, exec (.spdmGetMeasurements dt tr b) s = .next u ∧
      u.dict = t.dict ∧ ∃ tail, u.out = t.out ++ [.spdm tr (spdmMessage 0x60 (natLe 1 0 ++ natLe 1 0 ++ natLe 1 t.measured.length ++
        natLe 3 (blocksOf t.measured).length ++ blocksOf t.measured ++ nonce ++ natLe 2 0) ++ tail)]) ∧
    (∀ (n : Nat) (x : SpdmSession), t.spdmSession? tr n = some x →
      (x.established = false → sub b 2 64 = spdmMac x.exchange (x.transcript ++ spdmMessage 0xE5 (sub b 0 2)) →
        ∃ u, exec (.spdmFinish dt tr n b) s = .next u ∧ u.dict = t.dict ∧
          ∃ y, u.spdmSession? tr n = some y ∧ y.established = true) ∧
      (x.established = false → sub b 2 64 ≠ spdmMac x.exchange (x.transcript ++ spdmMessage 0xE5 (sub b 0 2)) →
        ∃ u, exec (.spdmFinish dt tr n b) s = .next u ∧ u.dict = t.dict ∧ u.spdmSession? tr n = none) ∧
      (x.established = true → ∀ op tag, 1 ≤ op → op ≤ 3 →
        exec (.spdmHeartbeat dt tr n) s = .next (t.emit (.spdm tr (spdmMessage 0x68 (natLe 2 0)))) ∧
        (∃ u y, exec (.spdmKeyUpdate dt tr n op tag) s = .next u ∧ u.dict = t.dict ∧ u.spdmSession? tr n = some y ∧
          y.keyUpdates = x.keyUpdates + (if op = 3 then 0 else 1)) ∧
        (∃ u, exec (.spdmEndSession dt tr n) s = .next u ∧ u.dict = t.dict ∧ u.spdmSession? tr n = none)))
end

