-- ==== Sys2Proof/Laws/Map.lean ====
section
/-! SUPPORT. Laws of the sparse map: a read after a write, a write elsewhere, and the canonical form, which every operation keeps. -/
namespace Sys2Proof

variable {α : Type}

@[simp] theorem Map.get_put_same (d : α) (m : Map α) (k : Nat) (v : Option α) : Map.get d (Map.put m k v) k = v.getD d := by
  induction m with
  | nil => cases v <;> simp [Map.put, Map.get]
  | cons e m ih =>
    obtain ⟨k', w⟩ := e
    unfold Map.put
    split
    · cases v with
      | none => simpa using ih
      | some v => simp [Map.get]
    · split
      · cases v with
        | none => simp [Map.get, *]
        | some v => simp [Map.get]
      · simp [Map.get, *]

theorem Map.get_put_other (d : α) (m : Map α) {k j : Nat} (v : Option α) (h : j ≠ k) :
    Map.get d (Map.put m k v) j = Map.get d m j := by
  induction m with
  | nil => cases v <;> simp [Map.put, Map.get, h]
  | cons e m ih =>
    obtain ⟨k', w⟩ := e
    unfold Map.put
    split
    · subst_vars
      cases v with
      | none => simp [Map.get, h, ih]
      | some v => simp [Map.get, h]
    · split
      · cases v with
        | none => simp [Map.get, ih]
        | some v => simp [Map.get, h]
      · simp [Map.get, ih]

/-- A read after a write to the same key gives the value written. -/
@[simp] theorem Map.get_set_same [DecidableEq α] (d : α) (m : Map α) (k : Nat) (v : α) : Map.get d (Map.set d m k v) k = v := by
  unfold Map.set
  rw [Map.get_put_same]
  split <;> simp_all

/-- A write leaves every other key alone. -/
theorem Map.get_set_other [DecidableEq α] (d : α) (m : Map α) {k j : Nat} (v : α) (h : j ≠ k) :
    Map.get d (Map.set d m k v) j = Map.get d m j := Map.get_put_other d m _ h

/-- Keys rise strictly and no entry is the default. -/
def Map.Canon (d : α) (m : Map α) : Prop := m.Pairwise (fun a b => a.1 < b.1) ∧ ∀ e ∈ m, e.2 ≠ d

theorem Map.wf_iff [DecidableEq α] (d : α) (m : Map α) : Map.wf d m = true ↔ Map.Canon d m := by
  induction m with
  | nil => simp [Map.wf, Map.Canon]
  | cons e m ih =>
    obtain ⟨k, v⟩ := e
    cases m with
    | nil => simp [Map.wf, Map.Canon]
    | cons e' m =>
      obtain ⟨k', v'⟩ := e'
      simp only [Map.wf, Bool.and_eq_true, decide_eq_true_eq, ih, Map.Canon, List.pairwise_cons, List.mem_cons, forall_eq_or_imp]
      constructor
      · rintro ⟨⟨h1, h2⟩, ⟨h3, h4⟩, h5, h6⟩
        exact ⟨⟨⟨h2, fun a ha => Nat.lt_trans h2 (h3 a ha)⟩, h3, h4⟩, h1, h5, h6⟩
      · rintro ⟨⟨⟨h2, _⟩, h3, h4⟩, h1, h5, h6⟩
        exact ⟨⟨h1, h2⟩, ⟨h3, h4⟩, h5, h6⟩

theorem Map.mem_put {m : Map α} {k : Nat} {v : Option α} {e : Nat × α} (h : e ∈ Map.put m k v) :
    e ∈ m ∨ (e.1 = k ∧ v = some e.2) := by
  induction m with
  | nil => cases v <;> simp_all [Map.put]
  | cons a m ih =>
    obtain ⟨k', w⟩ := a
    unfold Map.put at h
    split at h
    · cases v with
      | none => rcases ih h with h | h <;> simp_all
      | some v => rcases List.mem_cons.1 h with h | h <;> simp_all
    · split at h
      · cases v with
        | none => rcases List.mem_cons.1 h with h | h
                  · simp [h]
                  · rcases ih h with h | h <;> simp_all
        | some v => rcases List.mem_cons.1 h with h | h
                    · simp [h]
                    · simp_all
      · rcases List.mem_cons.1 h with h | h
        · simp [h]
        · rcases ih h with h | h <;> simp_all

theorem Map.canon_put {d : α} {m : Map α} (k : Nat) {v : Option α} (hv : v ≠ some d) (h : Map.Canon d m) :
    Map.Canon d (Map.put m k v) := by
  refine ⟨?_, fun e he => ?_⟩
  · obtain ⟨h, -⟩ := h
    induction m with
    | nil => cases v <;> simp [Map.put]
    | cons a m ih =>
      obtain ⟨k', w⟩ := a
      obtain ⟨h1, h2⟩ := List.pairwise_cons.1 h
      unfold Map.put
      split
      · subst_vars
        cases v with
        | none => exact ih h2
        | some v => exact List.pairwise_cons.2 ⟨h1, h2⟩
      · split
        · cases v with
          | none =>
            refine List.pairwise_cons.2 ⟨fun e he => ?_, ih h2⟩
            rcases Map.mem_put he with he | he
            · exact h1 e he
            · cases he.2
          | some v =>
            refine List.pairwise_cons.2 ⟨fun e he => ?_, h⟩
            rcases List.mem_cons.1 he with he | he
            · subst he; assumption
            · exact Nat.lt_trans ‹k < k'› (h1 e he)
        · refine List.pairwise_cons.2 ⟨fun e he => ?_, ih h2⟩
          rcases Map.mem_put he with he | he
          · exact h1 e he
          · rw [he.1]; show k' < k; omega
  · rcases Map.mem_put he with he | he
    · exact h.2 e he
    · intro hd; rw [hd] at he; exact hv he.2

/-- Writing keeps the canonical form. -/
theorem Map.wf_set [DecidableEq α] {d : α} {m : Map α} (k : Nat) (v : α) (h : Map.wf d m = true) :
    Map.wf d (Map.set d m k v) = true := by
  rw [Map.wf_iff] at *
  refine Map.canon_put k ?_ h
  split <;> simp_all

/-- Dropping entries keeps the canonical form. -/
theorem Map.wf_filter [DecidableEq α] {d : α} {m : Map α} (p : Nat × α → Bool) (h : Map.wf d m = true) :
    Map.wf d (m.filter p) = true := by
  rw [Map.wf_iff] at *
  exact ⟨h.1.filter p, fun e he => h.2 e (List.mem_filter.1 he).1⟩

theorem Map.wf_keep [DecidableEq α] {d : α} {m : Map α} (p : Nat → Bool) (h : Map.wf d m = true) :
    Map.wf d (Map.keep m p) = true := Map.wf_filter _ h

end Sys2Proof
end

