-- ==== Sys2Proof/Laws/Keep.lean ====
section
/-! SUPPORT. How `Keeps` is shown of an operation from its parts: it composes, a record update of other fields keeps it, and it passes
through folds and through the results that carry a state. -/
namespace Sys2Proof.Machine

theorem Keeps.refl (s : State) : Keeps s s :=
  ⟨rfl, List.prefix_refl _, Nat.le_refl _, Nat.le_refl _, Nat.le_refl _, id⟩

theorem Keeps.trans {a b c : State} (h : Keeps a b) (k : Keeps b c) : Keeps a c :=
  ⟨k.pending.trans h.pending, h.out.trans k.out, Nat.le_trans h.free k.free, Nat.le_trans h.draws k.draws,
    Nat.le_trans h.security k.security, fun w => k.mem (h.mem w)⟩

/-- `Keeps` said of the six fields it is about. -/
def KeepsCore (s : State) (pending : List Instr) (out : List Output) (free draws security : Nat) (cells : List Host.Cell) : Prop :=
  pending = s.pending ∧ s.out <+: out ∧ s.free ≤ free ∧ s.net.draws ≤ draws ∧ s.startup.minSecurity ≤ security ∧
    (Map.wf 0 s.mem.cells = true → Map.wf 0 cells = true)

theorem keeps_iff {s0 t : State} :
    Keeps s0 t ↔ KeepsCore s0 t.pending t.out t.free t.net.draws t.startup.minSecurity t.mem.cells :=
  ⟨fun h => ⟨h.pending, h.out, h.free, h.draws, h.security, h.mem⟩, fun ⟨a, b, c, d, e, f⟩ => ⟨a, b, c, d, e, f⟩⟩

/-- A record keeps when its six fields do. -/
theorem keeps_mk {s0 : State} {now dict net clocks epochs queues cmds nextCmd engines fences xlat mem streams integ fabric host mailbox
    power pins startup spdm tables lookups update arith free out pending} :
    Keeps s0 (State.mk now dict net clocks epochs queues cmds nextCmd engines fences xlat mem streams integ fabric host mailbox
      power pins startup spdm tables lookups update arith free out pending) ↔
    KeepsCore s0 pending out free net.draws startup.minSecurity mem.cells := keeps_iff

/-- An update that leaves the six fields alone keeps. -/
theorem core_of {s0 t : State} (h : Keeps s0 t) :
    KeepsCore s0 t.pending t.out t.free t.net.draws t.startup.minSecurity t.mem.cells := keeps_iff.1 h

/-- An update of memory's cells that keeps their canonical form keeps. -/
theorem core_cells {s0 t : State} {cells : List Host.Cell} (h : Keeps s0 t)
    (w : Map.wf 0 t.mem.cells = true → Map.wf 0 cells = true) :
    KeepsCore s0 t.pending t.out t.free t.net.draws t.startup.minSecurity cells :=
  ⟨h.pending, h.out, h.free, h.draws, h.security, fun k => w (h.mem k)⟩

/-- Storing bytes keeps the canonical form of memory. -/
theorem wf_storeCells : ∀ {m : List Host.Cell} (a : Nat) (d : Bytes), Map.wf 0 m = true → Map.wf 0 (storeCells m a d) = true
  | _, _, [], h => h
  | _, a, b :: bs, h => wf_storeCells (a + 1) bs (Map.wf_set a b h)

theorem keeps_cut {p q : Prop} (hp : p) (k : p → q) : q := k hp

theorem all_foldl {α β : Type} {P : β → Prop} {f : β → α → β} (hf : ∀ b a, P b → P (f b a)) :
    ∀ (l : List α) {b : β}, P b → P (l.foldl f b)
  | [], _, h => h
  | a :: l, _, h => all_foldl hf l (hf _ a h)

theorem keeps_foldl {α : Type} {s0 : State} {f : State → α → State} (hf : ∀ t a, Keeps s0 t → Keeps s0 (f t a)) :
    ∀ (l : List α) {s : State}, Keeps s0 s → Keeps s0 (l.foldl f s)
  | [], _, h => h
  | a :: l, _, h => keeps_foldl hf l (hf _ a h)

theorem keeps_foldl_snd {α β : Type} {s0 : State} {f : β × State → α → β × State}
    (hf : ∀ t a, Keeps s0 t.2 → Keeps s0 (f t a).2) :
    ∀ (l : List α) {s : β × State}, Keeps s0 s.2 → Keeps s0 (l.foldl f s).2
  | [], _, h => h
  | a :: l, _, h => keeps_foldl_snd hf l (hf _ a h)

theorem keeps_of_fun {s0 t : State} {f : State → State} (hf : ∀ t, Keeps s0 t → Keeps s0 (f t)) (h : Keeps s0 t) : Keeps s0 (f t) :=
  hf t h

theorem keeps_of_fun0 {α β : Type} {s0 : State} {f : α → β → State} {a : α} {b : β} (hf : ∀ a b, Keeps s0 (f a b)) : Keeps s0 (f a b) :=
  hf a b

theorem keeps_of_fun2 {α : Type} {s0 t : State} {f : State → α → State} {a : α} (hf : ∀ t a, Keeps s0 t → Keeps s0 (f t a))
    (h : Keeps s0 t) : Keeps s0 (f t a) := hf t a h

theorem keeps_of_fun3 {α β : Type} {s0 t : State} {f : State → α → β → State} {a : α} {b : β}
    (hf : ∀ t a b, Keeps s0 t → Keeps s0 (f t a b)) (h : Keeps s0 t) : Keeps s0 (f t a b) := hf t a b h

theorem keeps_of_funp {α β : Type} {s0 : State} {f : α × State → β × State} {p : α × State}
    (hf : ∀ t, Keeps s0 t.2 → Keeps s0 (f t).2) (h : Keeps s0 p.2) : Keeps s0 (f p).2 := hf p h

theorem keeps_of_pair {α : Type} {s0 t : State} {p : α × State} {a : α} (e : p = (a, t)) (h : Keeps s0 p.2) : Keeps s0 t := by
  rw [e] at h; exact h

theorem keeps_of_triple {α β : Type} {s0 t : State} {p : α × β × State} {a : α} {b : β} (e : p = (a, b, t))
    (h : Keeps s0 p.2.2) : Keeps s0 t := by
  rw [e] at h; exact h

theorem keeps_of_quad {α β γ : Type} {s0 t : State} {p : α × β × γ × State} {a : α} {b : β} {c : γ} (e : p = (a, b, c, t))
    (h : Keeps s0 p.2.2.2) : Keeps s0 t := by
  rw [e] at h; exact h

/-- The state that an optional result carries. -/
def someAll {α : Type} (p : α → Prop) : Option α → Prop
  | some a => p a
  | none => True

theorem keeps_of_some {α : Type} {p : α → Prop} {o : Option α} {a : α} (e : o = some a) (h : someAll p o) : p a := by
  rw [e] at h; exact h

theorem keeps_of_some_snd {α : Type} {s0 t : State} {o : Option (α × State)} {a : α} (e : o = some (a, t))
    (h : someAll (fun x => Keeps s0 x.2) o) : Keeps s0 t := by
  rw [e] at h; exact h

theorem keeps_of_some_fst {α : Type} {s0 t : State} {o : Option (State × α)} {a : α} (e : o = some (t, a))
    (h : someAll (fun x => Keeps s0 x.1) o) : Keeps s0 t := by
  rw [e] at h; exact h

theorem someAll_none {α : Type} {p : α → Prop} : someAll p none := trivial
theorem someAll_some {α : Type} {p : α → Prop} {a : α} (h : p a) : someAll p (some a) := h

theorem outcome_next {p : State → Prop} {t : State} (h : p t) : Outcome.all p (.next t) := h
theorem outcome_fault {p : State → Prop} {r : Fault} : Outcome.all p (.fault r) := trivial
theorem outcome_refused {p : State → Prop} {r : Refusal} : Outcome.all p (.refused r) := trivial

theorem outcome_ite {p : State → Prop} {c : Prop} [Decidable c] {a b : Host.Outcome State Fault Refusal} (ha : Outcome.all p a)
    (hb : Outcome.all p b) : Outcome.all p (if c then a else b) := by split <;> assumption

theorem pair_ite {α : Type} {s0 : State} {c : Prop} [Decidable c] {a b : α × State} (ha : Keeps s0 a.2) (hb : Keeps s0 b.2) :
    Keeps s0 (if c then a else b).2 := by split <;> assumption

end Sys2Proof.Machine
end

