-- ==== Sys2Proof/Laws/KeepsObjects.lean ====
section
/-! SUPPORT. Every operation of Machine/Objects.lean keeps (`Keeps`). -/
set_option linter.tactic.unusedName false
set_option linter.unusedVariables false
set_option linter.unusedSimpArgs false
namespace Sys2Proof.Machine

theorem State.setNum_keeps {s0 : State} {s : State} (k : Nat) (v : Nat) (h : Keeps s0 s) : Keeps s0 (State.setNum s k v) := by
  unfold State.setNum
  repeat' first
    | with_reducible assumption
    | extract_lets +onlyGivenNames x
    | (simp only [keeps_mk]; refine core_of ?_)

theorem State.setBlob_keeps {s0 : State} {s : State} (k : Nat) (v : Bytes) (h : Keeps s0 s) : Keeps s0 (State.setBlob s k v) := by
  unfold State.setBlob
  repeat' first
    | with_reducible assumption
    | extract_lets +onlyGivenNames x
    | (simp only [keeps_mk]; refine core_of ?_)

theorem State.setFlag_keeps {s0 : State} {s : State} (k : Nat) (b : Bool) (h : Keeps s0 s) : Keeps s0 (State.setFlag s k b) := by
  unfold State.setFlag
  repeat' first
    | with_reducible assumption
    | with_reducible apply State.setNum_keeps

theorem State.bump_keeps {s0 : State} {s : State} (k : Nat) (n : Nat) (h : Keeps s0 s) : Keeps s0 (State.bump s k n) := by
  unfold State.bump
  repeat' first
    | with_reducible assumption
    | extract_lets +onlyGivenNames x
    | with_reducible apply State.setNum_keeps

theorem State.durable_keeps {s0 : State} {s : State} {old : State} (h : Keeps s0 s) (h1 : Keeps s0 old) : Keeps s0 (State.durable s old) := by
  unfold State.durable
  repeat' first
    | with_reducible assumption
    | (extract_lets +onlyGivenNames x; apply keeps_cut (p := Keeps s0 x); (case' hp => (unfold x; clear x)); (case' k => (clear_value x; intro hx)))
    | extract_lets +onlyGivenNames x
    | (simp only [keeps_mk]; refine core_of ?_)
    | with_reducible apply State.bump_keeps

theorem State.clearNums_keeps {s0 : State} {s : State} (lo : Nat) (hi : Nat) (h : Keeps s0 s) : Keeps s0 (State.clearNums s lo hi) := by
  unfold State.clearNums
  repeat' first
    | with_reducible assumption
    | extract_lets +onlyGivenNames x
    | (simp only [keeps_mk]; refine core_of ?_)

end Sys2Proof.Machine
end

