-- ==== Sys2Proof/Laws/KeepsOps.lean ====
section
/-! SUPPORT. Every operation of Machine/Ops.lean keeps (`Keeps`). -/
set_option linter.tactic.unusedName false
set_option linter.unusedVariables false
set_option linter.unusedSimpArgs false
namespace Sys2Proof.Machine

theorem State.emit_keeps {s0 : State} {s : State} (o : Output) (h : Keeps s0 s) : Keeps s0 (State.emit s o) :=
  ⟨h.pending, h.out.trans (List.prefix_append _ _), h.free, h.draws, h.security, h.mem⟩

theorem State.drawNat_keeps {s0 : State} {s : State} (h : Keeps s0 s) : Keeps s0 (State.drawNat s).2 :=
  ⟨h.pending, h.out, Nat.le_succ_of_le h.free, h.draws, h.security, h.mem⟩

theorem State.drawBytes_keeps {s0 : State} {s : State} (n : Nat) (h : Keeps s0 s) : Keeps s0 (State.drawBytes s n).2 :=
  ⟨h.pending, h.out, Nat.le_succ_of_le h.free, h.draws, h.security, h.mem⟩

theorem State.drawNonce_keeps {s0 : State} {s : State} (h : Keeps s0 s) : Keeps s0 (State.drawNonce s).2 :=
  ⟨h.pending, h.out, h.free, Nat.le_succ_of_le h.draws, h.security, h.mem⟩

theorem State.setEngine_keeps {s0 : State} {s : State} (u : UnitId) (e : Engine) (h : Keeps s0 s) : Keeps s0 (State.setEngine s u e) := by
  unfold State.setEngine
  repeat' first
    | with_reducible assumption
    | (simp only [keeps_mk]; refine core_of ?_)

theorem State.setQueue_keeps {s0 : State} {s : State} (q : Nat) (v : Queue) (h : Keeps s0 s) : Keeps s0 (State.setQueue s q v) := by
  unfold State.setQueue
  repeat' first
    | with_reducible assumption
    | (simp only [keeps_mk]; refine core_of ?_)

theorem State.setCore_keeps {s0 : State} {s : State} (c : Nat) (v : CoreClock) (h : Keeps s0 s) : Keeps s0 (State.setCore s c v) := by
  unfold State.setCore
  repeat' first
    | with_reducible assumption
    | (simp only [keeps_mk]; refine core_of ?_)

theorem State.setTable_keeps {s0 : State} {s : State} (t : Nat) (v : Table) (h : Keeps s0 s) : Keeps s0 (State.setTable s t v) := by
  unfold State.setTable
  repeat' first
    | with_reducible assumption
    | (simp only [keeps_mk]; refine core_of ?_)

theorem State.setStreamSlot_keeps {s0 : State} {s : State} (core : Nat) (slot : Nat) (v : StreamSlot) (h : Keeps s0 s) : Keeps s0 (State.setStreamSlot s core slot v) := by
  unfold State.setStreamSlot
  repeat' first
    | with_reducible assumption
    | extract_lets +onlyGivenNames x
    | (simp only [keeps_mk]; refine core_of ?_)

theorem State.setChannel_keeps {s0 : State} {s : State} (c : Nat) (v : Channel) (h : Keeps s0 s) : Keeps s0 (State.setChannel s c v) := by
  unfold State.setChannel
  repeat' first
    | with_reducible assumption
    | extract_lets +onlyGivenNames x
    | (simp only [keeps_mk]; refine core_of ?_)

theorem State.setPort_keeps {s0 : State} {s : State} (p : Nat) (v : Port) (h : Keeps s0 s) : Keeps s0 (State.setPort s p v) := by
  unfold State.setPort
  repeat' first
    | with_reducible assumption
    | extract_lets +onlyGivenNames x
    | (simp only [keeps_mk]; refine core_of ?_)

theorem State.acct_keeps {s0 : State} {s : State} (a : Nat) (sub : Nat) (n : Nat) (h : Keeps s0 s) : Keeps s0 (State.acct s a sub n) := by
  unfold State.acct
  repeat' first
    | with_reducible assumption
    | with_reducible apply State.bump_keeps
    | split

theorem State.setCmd_keeps {s0 : State} {s : State} (c : Cmd) (h : Keeps s0 s) : Keeps s0 (State.setCmd s c) := by
  unfold State.setCmd
  repeat' first
    | with_reducible assumption
    | (simp only [keeps_mk]; refine core_of ?_)

theorem State.raise_keeps {s0 : State} {s : State} (v : Nat) (h : Keeps s0 s) : Keeps s0 (State.raise s v) := by
  unfold State.raise
  repeat' first
    | with_reducible assumption
    | extract_lets +onlyGivenNames x
    | (simp only [keeps_mk]; refine core_of ?_)

theorem State.report_keeps {s0 : State} {s : State} (r : Report) (h : Keeps s0 s) : Keeps s0 (State.report s r) := by
  unfold State.report
  repeat' first
    | with_reducible assumption
    | extract_lets +onlyGivenNames x
    | (simp only [keeps_mk]; refine core_of ?_)
    | with_reducible apply State.bump_keeps
    | split

theorem State.firmwareLog_keeps {s0 : State} {s : State} (b : Bytes) (h : Keeps s0 s) : Keeps s0 (State.firmwareLog s b) := by
  unfold State.firmwareLog
  repeat' first
    | with_reducible assumption
    | (extract_lets +onlyGivenNames x; apply keeps_cut (p := Keeps s0 x); (case' hp => (unfold x; clear x)); (case' k => (clear_value x; intro hx)))
    | extract_lets +onlyGivenNames x
    | (simp only [keeps_mk]; refine core_of ?_)
    | with_reducible apply State.bump_keeps
    | split

theorem State.chargeCmd_keeps {s0 : State} {s : State} (dt : Nat) (c : Cmd) (h : Keeps s0 s) : Keeps s0 (State.chargeCmd s dt c) := by
  unfold State.chargeCmd
  repeat' first
    | with_reducible assumption
    | (extract_lets +onlyGivenNames x; apply keeps_cut (p := Keeps s0 x); (case' hp => (unfold x; clear x)); (case' k => (clear_value x; intro hx)))
    | extract_lets +onlyGivenNames x
    | with_reducible apply State.setEngine_keeps
    | with_reducible apply State.acct_keeps
    | split

theorem State.chargeRefresh_keeps {s0 : State} {s : State} (dt : Nat) (h : Keeps s0 s) : Keeps s0 (State.chargeRefresh s dt) := by
  unfold State.chargeRefresh
  repeat' first
    | with_reducible assumption
    | extract_lets +onlyGivenNames x
    | with_reducible apply State.bump_keeps
    | (with_reducible apply keeps_foldl; intro _ _ _)
    | split

theorem State.chargeSuspended_keeps {s0 : State} {s : State} (dt : Nat) (h : Keeps s0 s) : Keeps s0 (State.chargeSuspended s dt) := by
  unfold State.chargeSuspended
  repeat' first
    | with_reducible assumption
    | with_reducible apply State.bump_keeps
    | split

theorem State.chargeTests_keeps {s0 : State} {s : State} (dt : Nat) (h : Keeps s0 s) : Keeps s0 (State.chargeTests s dt) := by
  unfold State.chargeTests
  repeat' first
    | with_reducible assumption
    | intro _
    | with_reducible apply State.acct_keeps
    | (with_reducible apply keeps_foldl; intro _ _ _)
    | split

theorem State.pass_keeps {s0 : State} {s : State} (dt : Nat) (h : Keeps s0 s) : Keeps s0 (State.pass s dt) := by
  unfold State.pass
  repeat' first
    | with_reducible assumption
    | intro _
    | (extract_lets +onlyGivenNames x; apply keeps_cut (p := Keeps s0 x); (case' hp => (unfold x; clear x)); (case' k => (clear_value x; intro hx)))
    | extract_lets +onlyGivenNames x
    | (simp only [keeps_mk]; refine core_of ?_)
    | with_reducible apply State.chargeTests_keeps
    | with_reducible apply State.chargeSuspended_keeps
    | with_reducible apply State.chargeRefresh_keeps
    | with_reducible apply State.chargeCmd_keeps
    | (with_reducible apply keeps_foldl; intro _ _ _)
    | (with_reducible apply keeps_foldl_snd; intro _ _ _)
    | split

theorem State.tick_keeps {s0 : State} {s : State} (dt : Nat) (h : Keeps s0 s) : Keeps s0 (State.tick s dt) := by
  unfold State.tick
  repeat' first
    | with_reducible assumption
    | intro _
    | (extract_lets +onlyGivenNames x; apply keeps_cut (p := Keeps s0 x); (case' hp => (unfold x; clear x)); (case' k => (clear_value x; intro hx)))
    | extract_lets +onlyGivenNames x
    | (simp only [keeps_mk]; refine core_of ?_)
    | with_reducible apply State.pass_keeps
    | split

theorem State.countBytes_keeps {s0 : State} {s : State} (acc : Access) (write : Bool) (a : Nat) (n : Nat) (h : Keeps s0 s) : Keeps s0 (State.countBytes s acc write a n) := by
  unfold State.countBytes
  repeat' first
    | with_reducible assumption
    | (extract_lets +onlyGivenNames x; apply keeps_cut (p := Keeps s0 x); (case' hp => (unfold x; clear x)); (case' k => (clear_value x; intro hx)))
    | extract_lets +onlyGivenNames x
    | with_reducible apply State.bump_keeps
    | with_reducible apply State.acct_keeps
    | (with_reducible apply keeps_foldl; intro _ _ _)
    | split

theorem State.makePending_keeps {s0 : State} {s : State} (word : Nat) (h : Keeps s0 s) : Keeps s0 (State.makePending s word) := by
  unfold State.makePending
  repeat' first
    | with_reducible assumption
    | extract_lets +onlyGivenNames x
    | (simp only [keeps_mk]; refine core_of ?_)
    | with_reducible apply State.report_keeps
    | split

theorem State.correct_keeps {s0 : State} {s : State} (account : Option Nat) (word : Nat) (h : Keeps s0 s) : Keeps s0 (State.correct s account word) := by
  unfold State.correct
  repeat' first
    | with_reducible assumption
    | intro _
    | (extract_lets +onlyGivenNames x; apply keeps_cut (p := Keeps s0 x); (case' hp => (unfold x; clear x)); (case' k => (clear_value x; intro hx)))
    | extract_lets +onlyGivenNames x
    | (simp only [keeps_mk]; refine core_of ?_)
    | with_reducible apply State.makePending_keeps
    | with_reducible apply State.countBytes_keeps
    | with_reducible apply State.bump_keeps
    | split

theorem State.foundBad_keeps {s0 : State} {s : State} (word : Nat) (h : Keeps s0 s) : Keeps s0 (State.foundBad s word) := by
  unfold State.foundBad
  repeat' first
    | with_reducible assumption
    | intro _
    | with_reducible apply State.makePending_keeps
    | with_reducible apply State.bump_keeps
    | split

theorem State.correctRange_keeps {s0 : State} {s : State} (a : Nat) (n : Nat) (h : Keeps s0 s) : Keeps s0 (State.correctRange s a n) := by
  unfold State.correctRange
  repeat' first
    | with_reducible assumption
    | intro _
    | with_reducible apply State.correct_keeps
    | (with_reducible apply keeps_foldl; intro _ _ _)
    | (with_reducible apply keeps_foldl_snd; intro _ _ _)
    | split

theorem State.read_keeps {s0 : State} {s : State} (acc : Access) (a : Nat) (n : Nat) (h : Keeps s0 s) : Keeps s0 (State.read s acc a n).2 := by
  unfold State.read
  repeat' first
    | with_reducible assumption
    | intro _
    | (extract_lets +onlyGivenNames x; apply keeps_cut (p := Keeps s0 x); (case' hp => (unfold x; clear x)); (case' k => (clear_value x; intro hx)))
    | extract_lets +onlyGivenNames x
    | (simp only [keeps_mk]; refine core_of ?_)
    | with_reducible apply State.correctRange_keeps
    | with_reducible apply State.foundBad_keeps
    | with_reducible apply State.countBytes_keeps
    | (with_reducible refine keeps_of_pair (by assumption) ?_)
    | (with_reducible refine keeps_of_triple (by assumption) ?_)
    | (with_reducible refine keeps_of_some_snd (by assumption) ?_)
    | (with_reducible refine keeps_of_some_fst (by assumption) ?_)
    | split

theorem State.touchBanks_keeps {s0 : State} {s : State} (a : Nat) (n : Nat) (h : Keeps s0 s) : Keeps s0 (State.touchBanks s a n) := by
  unfold State.touchBanks
  repeat' first
    | with_reducible assumption
    | extract_lets +onlyGivenNames x
    | (simp only [keeps_mk]; refine core_of ?_)
    | split

theorem State.store_keeps {s0 : State} {s : State} (a : Nat) (data : Bytes) (h : Keeps s0 s) : Keeps s0 (State.store s a data) :=
  State.touchBanks_keeps _ _ (keeps_mk.2 (core_cells h (wf_storeCells _ _)))

theorem State.write_keeps {s0 : State} {s : State} (acc : Access) (a : Nat) (data : Bytes) (h : Keeps s0 s) : Keeps s0 (State.write s acc a data).2 := by
  unfold State.write
  repeat' first
    | with_reducible assumption
    | extract_lets +onlyGivenNames x
    | with_reducible apply State.countBytes_keeps
    | with_reducible apply State.store_keeps
    | with_reducible apply State.bump_keeps
    | split

theorem State.mergeWrite_keeps {s0 : State} {s : State} (acc : Access) (a : Nat) (data : Bytes) (h : Keeps s0 s) : Keeps s0 (State.mergeWrite s acc a data).2 := by
  unfold State.mergeWrite
  repeat' first
    | with_reducible assumption
    | intro _
    | (extract_lets +onlyGivenNames x; apply keeps_cut (p := Keeps s0 x); (case' hp => (unfold x; clear x)); (case' k => (clear_value x; intro hx)))
    | extract_lets +onlyGivenNames x
    | (simp only [keeps_mk]; refine core_of ?_)
    | with_reducible apply State.store_keeps
    | with_reducible apply State.correctRange_keeps
    | with_reducible apply State.foundBad_keeps
    | with_reducible apply State.countBytes_keeps
    | (with_reducible apply keeps_foldl; intro _ _ _)
    | (with_reducible apply keeps_foldl_snd; intro _ _ _)
    | (with_reducible refine keeps_of_pair (by assumption) ?_)
    | (with_reducible refine keeps_of_triple (by assumption) ?_)
    | (with_reducible refine keeps_of_some_snd (by assumption) ?_)
    | (with_reducible refine keeps_of_some_fst (by assumption) ?_)
    | split

theorem State.updateByte_keeps {s0 : State} {s : State} (acc : Access) (a : Nat) (f : Byte → Byte) (h : Keeps s0 s) : Keeps s0 (State.updateByte s acc a f).2 := by
  unfold State.updateByte
  repeat' first
    | with_reducible assumption
    | intro _
    | (extract_lets +onlyGivenNames x; apply keeps_cut (p := Keeps s0 x); (case' hp => (unfold x; clear x)); (case' k => (clear_value x; intro hx)))
    | extract_lets +onlyGivenNames x
    | (simp only [keeps_mk]; refine core_of ?_)
    | with_reducible apply State.mergeWrite_keeps
    | with_reducible apply State.foundBad_keeps
    | (with_reducible refine keeps_of_pair (by assumption) ?_)
    | (with_reducible refine keeps_of_triple (by assumption) ?_)
    | (with_reducible refine keeps_of_some_snd (by assumption) ?_)
    | (with_reducible refine keeps_of_some_fst (by assumption) ?_)
    | split

theorem State.loseJob_keeps {s0 : State} {s : State} (j : Nat) (h : Keeps s0 s) : Keeps s0 (State.loseJob s j) := by
  unfold State.loseJob
  repeat' first
    | with_reducible assumption
    | extract_lets +onlyGivenNames x
    | with_reducible apply State.setNum_keeps
    | split

theorem State.dropEngineState_keeps {s0 : State} {s : State} (h : Keeps s0 s) : Keeps s0 (State.dropEngineState s) := by
  unfold State.dropEngineState
  repeat' first
    | with_reducible assumption
    | extract_lets +onlyGivenNames x
    | (simp only [keeps_mk]; refine core_of ?_)

theorem State.idleEngines_keeps {s0 : State} {s : State} (h : Keeps s0 s) : Keeps s0 (State.idleEngines s) := by
  unfold State.idleEngines
  repeat' first
    | with_reducible assumption
    | (simp only [keeps_mk]; refine core_of ?_)

theorem State.execFault_keeps {s0 : State} {s : State} (r : Report) (h : Keeps s0 s) : Keeps s0 (State.execFault s r) := by
  unfold State.execFault
  extract_lets a b c d
  have ha : Keeps s0 a := keeps_foldl (fun _ _ => State.loseJob_keeps _) _ h
  have hb : Keeps s0 b := State.bump_keeps _ _ (State.idleEngines_keeps (State.dropEngineState_keeps ha))
  have hc : Keeps s0 c := State.bump_keeps _ _ (State.report_keeps _ hb)
  exact keeps_mk.2 (core_of (State.setFlag_keeps _ _ hc))

theorem State.cmdFault_keeps {s0 : State} {s : State} (c : Cmd) (code : Nat) (h : Keeps s0 s) : Keeps s0 (State.cmdFault s c code) := by
  unfold State.cmdFault
  repeat' first
    | with_reducible assumption
    | with_reducible apply State.execFault_keeps

theorem State.illegal_keeps {s0 : State} {s : State} (c : Cmd) (h : Keeps s0 s) : Keeps s0 (State.illegal s c) := by
  unfold State.illegal
  repeat' first
    | with_reducible assumption
    | with_reducible apply State.cmdFault_keeps

end Sys2Proof.Machine
end

