-- ==== Sys2Proof/Laws/KeepsXlat.lean ====
section
/-! SUPPORT. Every operation of Machine/Xlat.lean keeps (`Keeps`). -/
set_option linter.tactic.unusedName false
set_option linter.unusedVariables false
set_option linter.unusedSimpArgs false
namespace Sys2Proof.Machine

theorem State.walkEntry_keeps {s0 : State} {s : State} (cls : Class) (base : Nat) (index : Nat) (h : Keeps s0 s) : Keeps s0 (State.walkEntry s cls base index).2 := by
  unfold State.walkEntry
  repeat' first
    | with_reducible assumption
    | extract_lets +onlyGivenNames x
    | with_reducible apply State.read_keeps
    | (with_reducible refine keeps_of_pair (by assumption) ?_)
    | split

theorem State.walk_keeps {s0 : State} {s : State} (cls : Class) (j : Nat) (va : Nat) (h : Keeps s0 s) : Keeps s0 (State.walk s cls j va).2 := by
  unfold State.walk
  repeat' first
    | with_reducible assumption
    | extract_lets +onlyGivenNames x
    | with_reducible apply State.walkEntry_keeps
    | (with_reducible refine keeps_of_pair (by assumption) ?_)
    | split

theorem State.setTlb_keeps {s0 : State} {s : State} (u : UnitId) (t : List TlbEntry) (h : Keeps s0 s) : Keeps s0 (State.setTlb s u t) := by
  unfold State.setTlb
  repeat' first
    | with_reducible assumption
    | extract_lets +onlyGivenNames x
    | (simp only [keeps_mk]; refine core_of ?_)

theorem State.xlatFault_keeps {s0 : State} {s : State} (r : Report) (tag : Nat) (va : Nat) (detail : Nat) (h : Keeps s0 s) : Keeps s0 (State.xlatFault s r tag va detail) := by
  unfold State.xlatFault
  repeat' first
    | with_reducible assumption
    | extract_lets +onlyGivenNames x
    | with_reducible apply State.execFault_keeps
    | with_reducible apply State.bump_keeps

theorem State.startWalk_keeps {s0 : State} {s : State} (w : Waiter) (tag : Nat) (h : Keeps s0 s) : Keeps s0 (State.startWalk s w tag) := by
  unfold State.startWalk
  repeat' first
    | with_reducible assumption
    | (extract_lets +onlyGivenNames x; apply keeps_cut (p := Keeps s0 x); (case' hp => (unfold x; clear x)); (case' k => (clear_value x; intro hx)))
    | extract_lets +onlyGivenNames x
    | (simp only [keeps_mk]; refine core_of ?_)
    | with_reducible apply State.bump_keeps
    | split

theorem State.blur_keeps {s0 : State} {s : State} (l : List (Nat × Nat)) (h : Keeps s0 s) : Keeps s0 (State.blur s l) := by
  unfold State.blur
  repeat' first
    | with_reducible assumption
    | intro _
    | (extract_lets +onlyGivenNames x; apply keeps_cut (p := Keeps s0 x); (case' hp => (unfold x; clear x)); (case' k => (clear_value x; intro hx)))
    | extract_lets +onlyGivenNames x
    | with_reducible apply State.store_keeps
    | with_reducible apply State.drawBytes_keeps
    | (with_reducible apply keeps_foldl; intro _ _ _)
    | (with_reducible apply keeps_foldl_snd; intro _ _ _)
    | split

/-- The state that a translation step carries. -/
def Pages.all (p : State → Prop) : Pages → Prop
  | .ready s _ => p s
  | .wait s => p s
  | .fault s => p s

theorem pages_ready {p : State → Prop} {s : State} {c : Cmd} (h : p s) : (Pages.ready s c).all p := h
theorem pages_wait {p : State → Prop} {s : State} (h : p s) : (Pages.wait s).all p := h
theorem pages_fault {p : State → Prop} {s : State} (h : p s) : (Pages.fault s).all p := h
theorem keeps_of_ready {s0 t : State} {x : Pages} {c : Cmd} (e : x = .ready t c) (h : x.all (Keeps s0)) : Keeps s0 t := by
  rw [e] at h; exact h
theorem keeps_of_wait {s0 t : State} {x : Pages} (e : x = .wait t) (h : x.all (Keeps s0)) : Keeps s0 t := by
  rw [e] at h; exact h
theorem keeps_of_fault {s0 t : State} {x : Pages} (e : x = .fault t) (h : x.all (Keeps s0)) : Keeps s0 t := by
  rw [e] at h; exact h

theorem State.needPage_keeps {s0 : State} {s : State} (c : Cmd) (u : UnitId) (va : Nat) (write : Bool) (h : Keeps s0 s) : Pages.all (Keeps s0) (State.needPage s c u va write) := by
  unfold State.needPage
  repeat' first
    | with_reducible assumption
    | (extract_lets +onlyGivenNames x; apply keeps_cut (p := Keeps s0 x); (case' hp => (unfold x; clear x)); (case' k => (clear_value x; intro hx)))
    | extract_lets +onlyGivenNames x
    | with_reducible apply pages_ready
    | with_reducible apply pages_wait
    | with_reducible apply pages_fault
    | with_reducible apply State.xlatFault_keeps
    | with_reducible apply State.startWalk_keeps
    | with_reducible apply State.setTlb_keeps
    | with_reducible apply State.setCmd_keeps
    | split

theorem State.needRanges_keeps {s0 : State} {s : State} (c : Cmd) (u : UnitId) (ranges : List (Nat × Nat × Bool)) (h : Keeps s0 s) : Pages.all (Keeps s0) (State.needRanges s c u ranges) := by
  unfold State.needRanges
  split
  · exact h
  · refine all_foldl (P := Pages.all (Keeps s0)) (fun p a hp => ?_) _ (pages_ready h)
    cases p with
    | fault t => exact hp
    | ready t d => exact State.needPage_keeps _ _ _ _ hp
    | wait t =>
      have k := State.needPage_keeps ((t.cmd? c.id).getD c) u a.1 a.2 (show Keeps s0 t from hp)
      dsimp only
      split <;> simp_all [Pages.all]

theorem State.readPieces_keeps {s0 : State} {s : State} (acc : Access) (x2 : List (Nat × Nat × Option Target)) (h : Keeps s0 s) : Keeps s0 (State.readPieces s acc x2).2 := by
  induction x2 generalizing s with
  | nil => exact h
  | cons a rest ih =>
    obtain ⟨a0, a1, a2⟩ := a
    unfold State.readPieces
    repeat' first
      | with_reducible assumption
      | extract_lets +onlyGivenNames x
      | (with_reducible refine keeps_of_fun (by assumption) ?_)
      | with_reducible apply State.read_keeps
      | (with_reducible refine keeps_of_pair (by assumption) ?_)
      | split

theorem State.writePieces_keeps {s0 : State} {s : State} (acc : Access) (x2 : List (Nat × Nat × Option Target)) (x3 : Bytes) (h : Keeps s0 s) : Keeps s0 (State.writePieces s acc x2 x3).2 := by
  induction x2 generalizing s x3 with
  | nil => exact h
  | cons a rest ih =>
    obtain ⟨a0, a1, a2⟩ := a
    unfold State.writePieces
    repeat' first
      | with_reducible assumption
      | extract_lets +onlyGivenNames x
      | with_reducible apply State.write_keeps
      | with_reducible apply ih
      | (with_reducible refine keeps_of_pair (by assumption) ?_)
      | split

theorem State.readVa_keeps {s0 : State} {s : State} (acc : Access) (c : Cmd) (va : Nat) (n : Nat) (h : Keeps s0 s) : Keeps s0 (State.readVa s acc c va n).2 := by
  unfold State.readVa
  repeat' first
    | with_reducible assumption
    | with_reducible apply State.readPieces_keeps

theorem State.writeVa_keeps {s0 : State} {s : State} (acc : Access) (c : Cmd) (va : Nat) (d : Bytes) (h : Keeps s0 s) : Keeps s0 (State.writeVa s acc c va d).2 := by
  unfold State.writeVa
  repeat' first
    | with_reducible assumption
    | with_reducible apply State.writePieces_keeps

theorem State.endWait_keeps {s0 : State} {s : State} (core : Nat) (slot : Nat) (h : Keeps s0 s) : Keeps s0 (State.endWait s core slot) := by
  unfold State.endWait
  repeat' first
    | with_reducible assumption
    | intro _
    | (extract_lets +onlyGivenNames x; apply keeps_cut (p := Keeps s0 x); (case' hp => (unfold x; clear x)); (case' k => (clear_value x; intro hx)))
    | extract_lets +onlyGivenNames x
    | (simp only [keeps_mk]; refine core_of ?_)
    | with_reducible apply State.bump_keeps
    | (with_reducible refine keeps_of_pair (by assumption) ?_)
    | (with_reducible refine keeps_of_some_snd (by assumption) ?_)
    | (with_reducible refine keeps_of_some_fst (by assumption) ?_)
    | split

theorem State.dropRequests_keeps {s0 : State} {s : State} (core : Nat) (slot : Nat) (t : Nat) (h : Keeps s0 s) : Keeps s0 (State.dropRequests s core slot t) := by
  unfold State.dropRequests
  repeat' first
    | with_reducible assumption
    | intro _
    | (extract_lets +onlyGivenNames x; apply keeps_cut (p := Keeps s0 x); (case' hp => (unfold x; clear x)); (case' k => (clear_value x; intro hx)))
    | extract_lets +onlyGivenNames x
    | (simp only [keeps_mk]; refine core_of ?_)
    | with_reducible apply State.endWait_keeps
    | (with_reducible refine keeps_of_pair (by assumption) ?_)
    | (with_reducible refine keeps_of_some_snd (by assumption) ?_)
    | (with_reducible refine keeps_of_some_fst (by assumption) ?_)
    | split

theorem State.haltSlots_keeps {s0 : State} {s : State} (cmd : Nat) (h : Keeps s0 s) : Keeps s0 (State.haltSlots s cmd) := by
  unfold State.haltSlots
  repeat' first
    | with_reducible assumption
    | intro _
    | (extract_lets +onlyGivenNames x; apply keeps_cut (p := Keeps s0 x); (case' hp => (unfold x; clear x)); (case' k => (clear_value x; intro hx)))
    | extract_lets +onlyGivenNames x
    | (simp only [keeps_mk]; refine core_of ?_)
    | with_reducible apply State.dropRequests_keeps
    | with_reducible apply State.bump_keeps
    | with_reducible apply State.setStreamSlot_keeps
    | (with_reducible apply keeps_foldl; intro _ _ _)
    | (with_reducible apply keeps_foldl_snd; intro _ _ _)
    | (with_reducible refine keeps_of_pair (by assumption) ?_)
    | (with_reducible refine keeps_of_some_snd (by assumption) ?_)
    | (with_reducible refine keeps_of_some_fst (by assumption) ?_)
    | split

theorem State.holdWaiter_keeps {s0 : State} {s : State} (w : Waiter) (h : Keeps s0 s) : Keeps s0 (State.holdWaiter s w) := by
  unfold State.holdWaiter
  repeat' first
    | with_reducible assumption
    | extract_lets +onlyGivenNames x
    | with_reducible apply State.haltSlots_keeps
    | with_reducible apply State.setCmd_keeps
    | with_reducible apply State.setQueue_keeps
    | split

theorem State.resolvable_keeps {s0 : State} {s : State} (tag : Nat) (w : Waiter) (h : Keeps s0 s) : Keeps s0 (State.resolvable s tag w) := by
  unfold State.resolvable
  repeat' first
    | with_reducible assumption
    | extract_lets +onlyGivenNames x
    | with_reducible apply State.holdWaiter_keeps
    | with_reducible apply State.report_keeps
    | with_reducible apply State.bump_keeps
    | with_reducible apply State.xlatFault_keeps
    | split

theorem State.fillWaiter_keeps {s0 : State} {s : State} (tag : Nat) (e : TlbEntry) (w : Waiter) (h : Keeps s0 s) : Keeps s0 (State.fillWaiter s tag e w) := by
  unfold State.fillWaiter
  repeat' first
    | with_reducible assumption
    | (extract_lets +onlyGivenNames x; apply keeps_cut (p := Keeps s0 x); (case' hp => (unfold x; clear x)); (case' k => (clear_value x; intro hx)))
    | with_reducible apply State.setTlb_keeps
    | with_reducible apply State.xlatFault_keeps
    | with_reducible apply State.setCmd_keeps
    | split

theorem execWalkComplete_keeps {s0 : State} (dt : Nat) (cluster : Nat) (tag : Nat) (page : Nat) {s : State} (h : Keeps s0 s) : Outcome.all (Keeps s0) (execWalkComplete dt cluster tag page s) := by
  unfold execWalkComplete
  repeat' first
    | with_reducible assumption
    | (extract_lets +onlyGivenNames x; apply keeps_cut (p := Keeps s0 x); (case' hp => (unfold x; clear x)); (case' k => (clear_value x; intro hx)))
    | extract_lets +onlyGivenNames x
    | (simp only [keeps_mk]; refine core_of ?_)
    | with_reducible apply outcome_next
    | with_reducible apply State.tick_keeps
    | with_reducible apply State.walk_keeps
    | with_reducible apply State.fillWaiter_keeps
    | with_reducible apply State.resolvable_keeps
    | with_reducible apply State.xlatFault_keeps
    | (with_reducible refine keeps_of_pair (by assumption) ?_)
    | (with_reducible apply keeps_foldl; intro _ _ _)
    | split

theorem State.resume_keeps {s0 : State} {s : State} (j : Nat) (h : Keeps s0 s) : Keeps s0 (State.resume s j) := by
  unfold State.resume
  repeat' first
    | with_reducible assumption
    | (extract_lets +onlyGivenNames x; apply keeps_cut (p := Keeps s0 x); (case' hp => (unfold x; clear x)); (case' k => (clear_value x; intro hx)))
    | extract_lets +onlyGivenNames x
    | (simp only [keeps_mk]; refine core_of ?_)
    | with_reducible apply State.bump_keeps

theorem execTrnResume_keeps {s0 : State} (dt : Nat) (value : Nat) {s : State} (h : Keeps s0 s) : Outcome.all (Keeps s0) (execTrnResume dt value s) := by
  unfold execTrnResume
  repeat' first
    | with_reducible assumption
    | extract_lets +onlyGivenNames x
    | with_reducible apply outcome_next
    | with_reducible apply State.resume_keeps
    | with_reducible apply State.tick_keeps

theorem State.startInval_keeps {s0 : State} {s : State} (tag : Nat) (src : InvalSource) (h : Keeps s0 s) : Keeps s0 (State.startInval s tag src) := by
  unfold State.startInval
  repeat' first
    | with_reducible assumption
    | extract_lets +onlyGivenNames x
    | (simp only [keeps_mk]; refine core_of ?_)

theorem State.dropTag_keeps {s0 : State} {s : State} (tag : Nat) (h : Keeps s0 s) : Keeps s0 (State.dropTag s tag) := by
  unfold State.dropTag
  repeat' first
    | with_reducible assumption
    | extract_lets +onlyGivenNames x
    | (simp only [keeps_mk]; refine core_of ?_)

theorem State.invalDone_keeps {s0 : State} {s : State} (register : Bool) (h : Keeps s0 s) : Keeps s0 (State.invalDone s register) := by
  unfold State.invalDone
  repeat' first
    | with_reducible assumption
    | intro _
    | (extract_lets +onlyGivenNames x; apply keeps_cut (p := Keeps s0 x); (case' hp => (unfold x; clear x)); (case' k => (clear_value x; intro hx)))
    | extract_lets +onlyGivenNames x
    | (simp only [keeps_mk]; refine core_of ?_)
    | with_reducible apply State.bump_keeps
    | split

theorem State.writeInval_keeps {s0 : State} {s : State} (value : Nat) (h : Keeps s0 s) : Keeps s0 (State.writeInval s value) := by
  unfold State.writeInval
  repeat' first
    | with_reducible assumption
    | intro _
    | (extract_lets +onlyGivenNames x; apply keeps_cut (p := Keeps s0 x); (case' hp => (unfold x; clear x)); (case' k => (clear_value x; intro hx)))
    | extract_lets +onlyGivenNames x
    | (simp only [keeps_mk]; refine core_of ?_)
    | with_reducible apply State.invalDone_keeps
    | with_reducible apply State.startInval_keeps
    | split

theorem execTrnInval_keeps {s0 : State} (dt : Nat) (value : Nat) {s : State} (h : Keeps s0 s) : Outcome.all (Keeps s0) (execTrnInval dt value s) := by
  unfold execTrnInval
  repeat' first
    | with_reducible assumption
    | (extract_lets +onlyGivenNames x; apply keeps_cut (p := Keeps s0 x); (case' hp => (unfold x; clear x)); (case' k => (clear_value x; intro hx)))
    | extract_lets +onlyGivenNames x
    | (simp only [keeps_mk]; refine core_of ?_)
    | with_reducible apply outcome_next
    | with_reducible apply State.tick_keeps
    | with_reducible apply State.writeInval_keeps
    | split

theorem execTrnInvalOverrunClear_keeps {s0 : State} (dt : Nat) (tag : Nat) {s : State} (h : Keeps s0 s) : Outcome.all (Keeps s0) (execTrnInvalOverrunClear dt tag s) := by
  unfold execTrnInvalOverrunClear
  repeat' first
    | with_reducible assumption
    | (extract_lets +onlyGivenNames x; apply keeps_cut (p := Keeps s0 x); (case' hp => (unfold x; clear x)); (case' k => (clear_value x; intro hx)))
    | extract_lets +onlyGivenNames x
    | (simp only [keeps_mk]; refine core_of ?_)
    | with_reducible apply outcome_next
    | with_reducible apply State.tick_keeps

theorem State.migrationVector_keeps {s0 : State} {s : State} (h : Keeps s0 s) : Keeps s0 (State.migrationVector s) := by
  unfold State.migrationVector
  repeat' first
    | with_reducible assumption
    | with_reducible apply State.raise_keeps
    | split

theorem State.spoilPage_keeps {s0 : State} {s : State} (h : Keeps s0 s) : Keeps s0 (State.spoilPage s) := by
  unfold State.spoilPage
  repeat' first
    | with_reducible assumption
    | with_reducible apply State.store_keeps
    | with_reducible apply State.drawBytes_keeps
    | split

theorem State.migrationFail_keeps {s0 : State} {s : State} (reason : Nat) (h : Keeps s0 s) : Keeps s0 (State.migrationFail s reason) := by
  unfold State.migrationFail
  repeat' first
    | with_reducible assumption
    | (extract_lets +onlyGivenNames x; apply keeps_cut (p := Keeps s0 x); (case' hp => (unfold x; clear x)); (case' k => (clear_value x; intro hx)))
    | extract_lets +onlyGivenNames x
    | (simp only [keeps_mk]; refine core_of ?_)
    | with_reducible apply State.setNum_keeps
    | with_reducible apply State.bump_keeps
    | with_reducible apply State.acct_keeps
    | with_reducible apply State.spoilPage_keeps
    | with_reducible apply State.migrationVector_keeps
    | with_reducible apply State.report_keeps

theorem State.migrationGo_keeps {s0 : State} {s : State} (h : Keeps s0 s) : Keeps s0 (State.migrationGo s) := by
  unfold State.migrationGo
  repeat' first
    | with_reducible assumption
    | intro _
    | (extract_lets +onlyGivenNames x; apply keeps_cut (p := Keeps s0 x); (case' hp => (unfold x; clear x)); (case' k => (clear_value x; intro hx)))
    | extract_lets +onlyGivenNames x
    | (simp only [keeps_mk]; refine core_of ?_)
    | with_reducible apply State.migrationFail_keeps
    | with_reducible apply State.bump_keeps
    | with_reducible apply State.emit_keeps
    | split

theorem State.writeMigCtl_keeps {s0 : State} {s : State} (value : Nat) (h : Keeps s0 s) : Keeps s0 (State.writeMigCtl s value) := by
  unfold State.writeMigCtl
  repeat' first
    | with_reducible assumption
    | (extract_lets +onlyGivenNames x; apply keeps_cut (p := Keeps s0 x); (case' hp => (unfold x; clear x)); (case' k => (clear_value x; intro hx)))
    | extract_lets +onlyGivenNames x
    | (simp only [keeps_mk]; refine core_of ?_)
    | with_reducible apply State.bump_keeps
    | with_reducible apply State.migrationGo_keeps
    | split

theorem execMigrationGo_keeps {s0 : State} (dt : Nat) (value : Nat) {s : State} (h : Keeps s0 s) : Outcome.all (Keeps s0) (execMigrationGo dt value s) := by
  unfold execMigrationGo
  repeat' first
    | with_reducible assumption
    | extract_lets +onlyGivenNames x
    | with_reducible apply outcome_next
    | with_reducible apply State.writeMigCtl_keeps
    | with_reducible apply State.tick_keeps

theorem State.migrationDone_keeps {s0 : State} {s : State} (h : Keeps s0 s) : Keeps s0 (State.migrationDone s) := by
  unfold State.migrationDone
  repeat' first
    | with_reducible assumption
    | (extract_lets +onlyGivenNames x; apply keeps_cut (p := Keeps s0 x); (case' hp => (unfold x; clear x)); (case' k => (clear_value x; intro hx)))
    | extract_lets +onlyGivenNames x
    | (simp only [keeps_mk]; refine core_of ?_)
    | with_reducible apply State.setNum_keeps
    | with_reducible apply State.bump_keeps
    | with_reducible apply State.acct_keeps
    | with_reducible apply State.migrationVector_keeps

theorem execMigrationComplete_keeps {s0 : State} (dt : Nat) {s : State} (h : Keeps s0 s) : Outcome.all (Keeps s0) (execMigrationComplete dt s) := by
  unfold execMigrationComplete
  obtain ⟨f1, e1, k1⟩ : ∃ f1, f1 = @State.read ∧ (∀ {s : State} (acc : Access) (a : Nat) (n : Nat) (h : Keeps s0 s), Keeps s0 (f1 s acc a n).2) := ⟨_, rfl, @State.read_keeps s0⟩
  rw [← e1]
  clear e1
  obtain ⟨f6, e6, k6⟩ : ∃ f6, f6 = @State.write ∧ (∀ {s : State} (acc : Access) (a : Nat) (data : Bytes) (h : Keeps s0 s), Keeps s0 (f6 s acc a data).2) := ⟨_, rfl, @State.write_keeps s0⟩
  rw [← e6]
  clear e6
  repeat' first
    | with_reducible assumption
    | (extract_lets +onlyGivenNames x; apply keeps_cut (p := Keeps s0 x); (case' hp => (unfold x; clear x)); (case' k => (clear_value x; intro hx)))
    | extract_lets +onlyGivenNames x
    | (simp only [keeps_mk]; refine core_of ?_)
    | with_reducible apply outcome_next
    | with_reducible apply State.tick_keeps
    | with_reducible apply k1
    | with_reducible apply State.migrationFail_keeps
    | with_reducible apply State.migrationDone_keeps
    | with_reducible apply State.emit_keeps
    | with_reducible apply State.bump_keeps
    | with_reducible apply k6
    | (with_reducible refine keeps_of_pair (by assumption) ?_)
    | split

end Sys2Proof.Machine
end

