-- ==== Sys2Proof/Laws/KeepsHostIo.lean ====
section
/-! SUPPORT. Every operation of Machine/HostIo.lean keeps (`Keeps`). -/
set_option linter.tactic.unusedName false
set_option linter.unusedVariables false
set_option linter.unusedSimpArgs false
namespace Sys2Proof.Machine

theorem State.takeHost_keeps {s0 : State} {s : State} (u : HostUser) (a : Nat) (n : Nat) (h : Keeps s0 s) : someAll (fun x => Keeps s0 x.2) (State.takeHost s u a n) := by
  unfold State.takeHost
  repeat' first
    | with_reducible assumption
    | extract_lets +onlyGivenNames x
    | (simp only [keeps_mk]; refine core_of ?_)
    | with_reducible apply someAll_some
    | with_reducible apply someAll_none
    | split

theorem State.sendHostRead_keeps {s0 : State} {s : State} (a : Nat) (n : Nat) (h : Keeps s0 s) : Keeps s0 (State.sendHostRead s a n) := by
  unfold State.sendHostRead
  repeat' first
    | with_reducible assumption
    | intro _
    | with_reducible apply State.emit_keeps
    | split

theorem State.sendHostWrite_keeps {s0 : State} {s : State} (a : Nat) (d : Bytes) (h : Keeps s0 s) : Keeps s0 (State.sendHostWrite s a d) := by
  unfold State.sendHostWrite
  repeat' first
    | with_reducible assumption
    | intro _
    | (extract_lets +onlyGivenNames x; apply keeps_cut (p := Keeps s0 x); (case' hp => (unfold x; clear x)); (case' k => (clear_value x; intro hx)))
    | extract_lets +onlyGivenNames x
    | (simp only [keeps_mk]; refine core_of ?_)
    | with_reducible apply State.emit_keeps
    | (with_reducible apply keeps_foldl; intro _ _ _)
    | (with_reducible apply keeps_foldl_snd; intro _ _ _)
    | split

theorem State.askHost_keeps {s0 : State} {s : State} (u : HostUser) (a : Nat) (n : Nat) (h : Keeps s0 s) : Keeps s0 (State.askHost s u a n) := by
  unfold State.askHost
  repeat' first
    | with_reducible assumption
    | intro _
    | (extract_lets +onlyGivenNames x; apply keeps_cut (p := Keeps s0 x); (case' hp => (unfold x; clear x)); (case' k => (clear_value x; intro hx)))
    | extract_lets +onlyGivenNames x
    | (simp only [keeps_mk]; refine core_of ?_)
    | with_reducible apply State.bump_keeps
    | with_reducible apply State.sendHostRead_keeps
    | split

theorem State.putHost_keeps {s0 : State} {s : State} (tag : Nat) (source : Nat) (unit : Nat) (a : Nat) (d : Bytes) (h : Keeps s0 s) : Keeps s0 (State.putHost s tag source unit a d) := by
  unfold State.putHost
  repeat' first
    | with_reducible assumption
    | intro _
    | (extract_lets +onlyGivenNames x; apply keeps_cut (p := Keeps s0 x); (case' hp => (unfold x; clear x)); (case' k => (clear_value x; intro hx)))
    | extract_lets +onlyGivenNames x
    | (simp only [keeps_mk]; refine core_of ?_)
    | with_reducible apply State.bump_keeps
    | with_reducible apply State.sendHostWrite_keeps
    | split

theorem State.hostBytes_keeps {s0 : State} {s : State} (j : Nat) (n : Nat) (h : Keeps s0 s) : Keeps s0 (State.hostBytes s j n) := by
  unfold State.hostBytes
  repeat' first
    | with_reducible assumption
    | with_reducible apply State.acct_keeps

theorem State.hostLost_keeps {s0 : State} {s : State} (u : UnitId) (job : Nat) (h : Keeps s0 s) : Keeps s0 (State.hostLost s u job) := by
  unfold State.hostLost
  repeat' first
    | with_reducible assumption
    | extract_lets +onlyGivenNames x
    | (simp only [keeps_mk]; refine core_of ?_)
    | with_reducible apply State.report_keeps
    | split

theorem State.logDiscard_keeps {s0 : State} {s : State} (w : HostWrite) (h : Keeps s0 s) : Keeps s0 (State.logDiscard s w) := by
  unfold State.logDiscard
  repeat' first
    | with_reducible assumption
    | (extract_lets +onlyGivenNames x; apply keeps_cut (p := Keeps s0 x); (case' hp => (unfold x; clear x)); (case' k => (clear_value x; intro hx)))
    | extract_lets +onlyGivenNames x
    | (simp only [keeps_mk]; refine core_of ?_)
    | with_reducible apply State.setNum_keeps
    | with_reducible apply State.report_keeps
    | with_reducible apply State.bump_keeps
    | split

theorem State.discardWrites_keeps {s0 : State} {s : State} (h : Keeps s0 s) : Keeps s0 (State.discardWrites s) := by
  unfold State.discardWrites
  repeat' first
    | with_reducible assumption
    | (extract_lets +onlyGivenNames x; apply keeps_cut (p := Keeps s0 x); (case' hp => (unfold x; clear x)); (case' k => (clear_value x; intro hx)))
    | extract_lets +onlyGivenNames x
    | (simp only [keeps_mk]; refine core_of ?_)
    | with_reducible apply State.bump_keeps
    | with_reducible apply State.logDiscard_keeps
    | (with_reducible apply keeps_foldl; intro _ _ _)

end Sys2Proof.Machine
end

