-- ==== Sys2Proof/Laws/KeepsFabricIo.lean ====
section
/-! SUPPORT. Every operation of Machine/FabricIo.lean keeps (`Keeps`). -/
set_option linter.tactic.unusedName false
set_option linter.unusedVariables false
set_option linter.unusedSimpArgs false
namespace Sys2Proof.Machine

theorem State.putFrame_keeps {s0 : State} {s : State} (p : Nat) (frame : Bytes) (h : Keeps s0 s) : Keeps s0 (State.putFrame s p frame) := by
  unfold State.putFrame
  repeat' first
    | with_reducible assumption
    | extract_lets +onlyGivenNames x
    | with_reducible apply State.emit_keeps
    | with_reducible apply State.bump_keeps

theorem State.sendBody_keeps {s0 : State} {s : State} (p : Nat) (body : Bytes) (h : Keeps s0 s) : Keeps s0 (State.sendBody s p body) := by
  unfold State.sendBody
  repeat' first
    | with_reducible assumption
    | extract_lets +onlyGivenNames x
    | with_reducible apply State.setPort_keeps
    | with_reducible apply State.putFrame_keeps
    | split

theorem State.sendTo_keeps {s0 : State} {s : State} (type : Nat) (chip : Nat) (channel : Nat) (field : Nat) (payload : Bytes) (h : Keeps s0 s) : Keeps s0 (State.sendTo s type chip channel field payload) := by
  unfold State.sendTo
  repeat' first
    | with_reducible assumption
    | extract_lets +onlyGivenNames x
    | with_reducible apply State.sendBody_keeps
    | (with_reducible apply keeps_foldl; intro _ _ _)
    | split

theorem State.putControl_keeps {s0 : State} {s : State} (source : Nat) (p : Nat) (type : Nat) (dest : Nat) (channel : Nat) (field : Nat) (payload : Bytes) (h : Keeps s0 s) : Keeps s0 (State.putControl s source p type dest channel field payload) := by
  unfold State.putControl
  repeat' first
    | with_reducible assumption
    | intro _
    | with_reducible apply State.putFrame_keeps
    | split

theorem State.sendControl_keeps {s0 : State} {s : State} (p : Nat) (type : Nat) (dest : Nat) (channel : Nat) (field : Nat) (payload : Bytes) (h : Keeps s0 s) : Keeps s0 (State.sendControl s p type dest channel field payload) := by
  unfold State.sendControl
  repeat' first
    | with_reducible assumption
    | intro _
    | with_reducible apply State.putControl_keeps
    | split

theorem State.sendCredit_keeps {s0 : State} {s : State} (chip : Nat) (channel : Nat) (number : Nat) (index : Nat) (h : Keeps s0 s) : Keeps s0 (State.sendCredit s chip channel number index) := by
  unfold State.sendCredit
  repeat' first
    | with_reducible assumption
    | with_reducible apply State.sendControl_keeps
    | split

theorem State.remoteFault_keeps {s0 : State} {s : State} (core : Nat) (code : Nat) (detail : Nat) (c : Option Cmd) (h : Keeps s0 s) : Keeps s0 (State.remoteFault s core code detail c) := by
  unfold State.remoteFault
  repeat' first
    | with_reducible assumption
    | intro _
    | (extract_lets +onlyGivenNames x; apply keeps_cut (p := Keeps s0 x); (case' hp => (unfold x; clear x)); (case' k => (clear_value x; intro hx)))
    | extract_lets +onlyGivenNames x
    | (simp only [keeps_mk]; refine core_of ?_)
    | with_reducible apply State.execFault_keeps
    | (with_reducible refine keeps_of_pair (by assumption) ?_)
    | (with_reducible refine keeps_of_some_snd (by assumption) ?_)
    | (with_reducible refine keeps_of_some_fst (by assumption) ?_)
    | split

theorem State.remoteFailed_keeps {s0 : State} {s : State} (core : Nat) (detail : Nat) (c : Option Cmd) (h : Keeps s0 s) : Keeps s0 (State.remoteFailed s core detail c) := by
  unfold State.remoteFailed
  repeat' first
    | with_reducible assumption
    | intro _
    | with_reducible apply State.remoteFault_keeps
    | split

theorem State.sendRemote_keeps {s0 : State} {s : State} (core : Nat) (slot : Nat) (number : Nat) (write : Bool) (chip : Nat) (offset : Nat) (length : Nat) (job : Nat) (data : Bytes) (h : Keeps s0 s) : Keeps s0 (State.sendRemote s core slot number write chip offset length job data) := by
  unfold State.sendRemote
  repeat' first
    | with_reducible assumption
    | (extract_lets +onlyGivenNames x; apply keeps_cut (p := Keeps s0 x); (case' hp => (unfold x; clear x)); (case' k => (clear_value x; intro hx)))
    | extract_lets +onlyGivenNames x
    | (simp only [keeps_mk]; refine core_of ?_)
    | with_reducible apply State.acct_keeps
    | with_reducible apply State.sendTo_keeps

theorem State.offer_keeps {s0 : State} {s : State} (o : Outgoing) (h : Keeps s0 s) : Keeps s0 (State.offer s o) := by
  unfold State.offer
  repeat' first
    | with_reducible assumption
    | extract_lets +onlyGivenNames x
    | (simp only [keeps_mk]; refine core_of ?_)

end Sys2Proof.Machine
end

