-- ==== Sys2Proof/Laws/KeepsQueue.lean ====
section
/-! SUPPORT. Every operation of Machine/Queue.lean keeps (`Keeps`). -/
set_option linter.tactic.unusedName false
set_option linter.unusedVariables false
set_option linter.unusedSimpArgs false
namespace Sys2Proof.Machine

theorem State.signal_keeps {s0 : State} {s : State} (n : Nat) (v : Nat) (h : Keeps s0 s) : Keeps s0 (State.signal s n v) := by
  unfold State.signal
  repeat' first
    | with_reducible assumption
    | (simp only [keeps_mk]; refine core_of ?_)

theorem State.hand_keeps {s0 : State} {s : State} (c : Cmd) (h : Keeps s0 s) : Keeps s0 (State.hand s c) := by
  unfold State.hand
  repeat' first
    | with_reducible assumption
    | extract_lets +onlyGivenNames x
    | with_reducible apply State.setCmd_keeps
    | with_reducible apply State.cmdFault_keeps
    | split

theorem State.handOver_keeps {s0 : State} (x0 : Nat) {x1 : State} (h : Keeps s0 x1) : Keeps s0 (State.handOver x0 x1) := by
  induction x0 generalizing x1 with
  | zero => exact h
  | succ fuel ih =>
    unfold State.handOver
    repeat' first
      | with_reducible assumption
      | extract_lets +onlyGivenNames x
      | (with_reducible refine keeps_of_fun (by assumption) ?_)
      | with_reducible apply State.hand_keeps
      | split

theorem State.dispatch_keeps {s0 : State} {s : State} (h : Keeps s0 s) : Keeps s0 (State.dispatch s) := by
  unfold State.dispatch
  repeat' first
    | with_reducible assumption
    | with_reducible apply State.handOver_keeps

theorem State.passTurn_keeps {s0 : State} {s : State} (u : UnitId) (h : Keeps s0 s) : Keeps s0 (State.passTurn s u) := by
  unfold State.passTurn
  repeat' first
    | with_reducible assumption
    | intro _
    | (extract_lets +onlyGivenNames x; apply keeps_cut (p := Keeps s0 x); (case' hp => (unfold x; clear x)); (case' k => (clear_value x; intro hx)))
    | extract_lets +onlyGivenNames x
    | (simp only [keeps_mk]; refine core_of ?_)
    | with_reducible apply State.setEngine_keeps
    | (with_reducible refine keeps_of_pair (by assumption) ?_)
    | (with_reducible refine keeps_of_some_snd (by assumption) ?_)
    | (with_reducible refine keeps_of_some_fst (by assumption) ?_)
    | with_reducible apply someAll_none
    | with_reducible apply someAll_some
    | split

theorem State.complete_keeps {s0 : State} {s : State} (c : Cmd) (h : Keeps s0 s) : Keeps s0 (State.complete s c) := by
  unfold State.complete
  repeat' first
    | with_reducible assumption
    | intro _
    | (extract_lets +onlyGivenNames x; apply keeps_cut (p := Keeps s0 x); (case' hp => (unfold x; clear x)); (case' k => (clear_value x; intro hx)))
    | extract_lets +onlyGivenNames x
    | (simp only [keeps_mk]; refine core_of ?_)
    | with_reducible apply State.acct_keeps
    | with_reducible apply State.passTurn_keeps
    | with_reducible apply State.bump_keeps
    | with_reducible apply State.dispatch_keeps
    | with_reducible apply State.setQueue_keeps
    | with_reducible apply State.setEngine_keeps
    | (with_reducible refine keeps_of_pair (by assumption) ?_)
    | (with_reducible refine keeps_of_some_snd (by assumption) ?_)
    | (with_reducible refine keeps_of_some_fst (by assumption) ?_)
    | with_reducible apply someAll_none
    | with_reducible apply someAll_some
    | split

theorem State.holdForHost_keeps {s0 : State} {s : State} (q : Nat) (h : Keeps s0 s) : Keeps s0 (State.holdForHost s q) := by
  unfold State.holdForHost
  repeat' first
    | with_reducible assumption
    | extract_lets +onlyGivenNames x
    | with_reducible apply State.setQueue_keeps

theorem State.feTarget_keeps {s0 : State} {s : State} (q : Nat) (va : Nat) (write : Bool) (h : Keeps s0 s) : (∀ e, (State.feTarget s q va write).1 = .error e → Keeps s0 e) ∧ Keeps s0 (State.feTarget s q va write).2 := by
  unfold State.feTarget
  dsimp only
  generalize s.translate _ _ va write = t
  have hw := State.startWalk_keeps ⟨⟨.frontEnd, q⟩, 0, va, write⟩ (queueJob q) h
  cases t with
  | hit t e =>
    refine ⟨fun e he => ?_, State.setTlb_keeps _ _ h⟩
    injection he
  | miss =>
    refine ⟨fun e he => ?_, h⟩
    injection he with he
    rw [← he]
    split
    · exact h
    · exact hw
  | fault d =>
    refine ⟨fun e he => ?_, h⟩
    injection he with he
    rw [← he]
    exact State.xlatFault_keeps _ _ _ _ h

/-- The state that a front end's access carries. -/
def FeResult.all (p : State → Prop) : FeResult → Prop
  | .ok _ s => p s
  | .wait s => p s
  | .fault s => p s

theorem fe_ok {p : State → Prop} {s : State} {d : Bytes} (h : p s) : (FeResult.ok d s).all p := h
theorem fe_wait {p : State → Prop} {s : State} (h : p s) : (FeResult.wait s).all p := h
theorem fe_fault {p : State → Prop} {s : State} (h : p s) : (FeResult.fault s).all p := h
theorem keeps_of_fe_ok {s0 t : State} {x : FeResult} {d : Bytes} (e : x = .ok d t) (h : x.all (Keeps s0)) : Keeps s0 t := by
  rw [e] at h; exact h
theorem keeps_of_fe_wait {s0 t : State} {x : FeResult} (e : x = .wait t) (h : x.all (Keeps s0)) : Keeps s0 t := by
  rw [e] at h; exact h
theorem keeps_of_fe_fault {s0 t : State} {x : FeResult} (e : x = .fault t) (h : x.all (Keeps s0)) : Keeps s0 t := by
  rw [e] at h; exact h

theorem keeps_of_fe_error {s0 s t r : State} {q va : Nat} {w : Bool} (e : s.feTarget q va w = (.error t, r)) (h : Keeps s0 s) :
    Keeps s0 t := (State.feTarget_keeps q va w h).1 t (by rw [e])

theorem keeps_of_fe_target {s0 s r : State} {q va : Nat} {w : Bool} {a : Target} (e : s.feTarget q va w = (.ok a, r))
    (h : Keeps s0 s) : Keeps s0 r := by
  have k := (State.feTarget_keeps q va w h).2
  rw [e] at k; exact k

theorem State.feRead_keeps {s0 : State} {s : State} (q : Nat) (user : HostUser) (va : Nat) (n : Nat) (ring : Bool) (h : Keeps s0 s) : FeResult.all (Keeps s0) (State.feRead s q user va n ring) := by
  unfold State.feRead
  repeat' first
    | with_reducible assumption
    | extract_lets +onlyGivenNames x
    | with_reducible apply fe_ok
    | with_reducible apply fe_wait
    | with_reducible apply fe_fault
    | with_reducible apply State.xlatFault_keeps
    | with_reducible apply State.holdForHost_keeps
    | with_reducible apply State.takeHost_keeps
    | with_reducible apply State.askHost_keeps
    | with_reducible apply State.execFault_keeps
    | with_reducible apply State.read_keeps
    | (with_reducible refine keeps_of_fe_error (by assumption) ?_)
    | (with_reducible refine keeps_of_fe_target (by assumption) ?_)
    | (with_reducible refine keeps_of_pair (by assumption) ?_)
    | (with_reducible refine keeps_of_some_snd (by assumption) ?_)
    | split

theorem State.feWrite_keeps {s0 : State} {s : State} (q : Nat) (va : Nat) (d : Bytes) (h : Keeps s0 s) : FeResult.all (Keeps s0) (State.feWrite s q va d) := by
  unfold State.feWrite
  repeat' first
    | with_reducible assumption
    | extract_lets +onlyGivenNames x
    | with_reducible apply fe_ok
    | with_reducible apply fe_wait
    | with_reducible apply fe_fault
    | with_reducible apply State.xlatFault_keeps
    | with_reducible apply State.holdForHost_keeps
    | with_reducible apply State.hostBytes_keeps
    | with_reducible apply State.putHost_keeps
    | with_reducible apply State.execFault_keeps
    | with_reducible apply State.write_keeps
    | (with_reducible refine keeps_of_fe_error (by assumption) ?_)
    | (with_reducible refine keeps_of_fe_target (by assumption) ?_)
    | (with_reducible refine keeps_of_pair (by assumption) ?_)
    | split

theorem State.finishError_keeps {s0 : State} {s : State} (q : Nat) (h : Keeps s0 s) : Keeps s0 (State.finishError s q) := by
  unfold State.finishError
  repeat' first
    | with_reducible assumption
    | (extract_lets +onlyGivenNames x; apply keeps_cut (p := Keeps s0 x); (case' hp => (unfold x; clear x)); (case' k => (clear_value x; intro hx)))
    | extract_lets +onlyGivenNames x
    | with_reducible apply State.setQueue_keeps
    | with_reducible apply State.raise_keeps
    | with_reducible apply State.report_keeps
    | split

theorem State.queueError_keeps {s0 : State} {s : State} (q : Nat) (code : Nat) (h : Keeps s0 s) : Keeps s0 (State.queueError s q code) := by
  unfold State.queueError
  repeat' first
    | with_reducible assumption
    | (extract_lets +onlyGivenNames x; apply keeps_cut (p := Keeps s0 x); (case' hp => (unfold x; clear x)); (case' k => (clear_value x; intro hx)))
    | extract_lets +onlyGivenNames x
    | (simp only [keeps_mk]; refine core_of ?_)
    | with_reducible apply State.bump_keeps
    | with_reducible apply State.setQueue_keeps
    | with_reducible apply State.finishError_keeps
    | split

theorem State.enableQueue_keeps {s0 : State} {s : State} (q : Nat) (value : Nat) (h : Keeps s0 s) : Keeps s0 (State.enableQueue s q value) := by
  unfold State.enableQueue
  repeat' first
    | with_reducible assumption
    | (extract_lets +onlyGivenNames x; apply keeps_cut (p := Keeps s0 x); (case' hp => (unfold x; clear x)); (case' k => (clear_value x; intro hx)))
    | extract_lets +onlyGivenNames x
    | (simp only [keeps_mk]; refine core_of ?_)
    | with_reducible apply State.setQueue_keeps
    | split

theorem execQueueEnable_keeps {s0 : State} (dt : Nat) (q : Nat) (value : Nat) {s : State} (h : Keeps s0 s) : Outcome.all (Keeps s0) (execQueueEnable dt q value s) := by
  unfold execQueueEnable
  repeat' first
    | with_reducible assumption
    | (extract_lets +onlyGivenNames x; apply keeps_cut (p := Keeps s0 x); (case' hp => (unfold x; clear x)); (case' k => (clear_value x; intro hx)))
    | extract_lets +onlyGivenNames x
    | with_reducible apply outcome_next
    | with_reducible apply State.tick_keeps
    | with_reducible apply State.enableQueue_keeps
    | split

theorem State.disableQueue_keeps {s0 : State} {s : State} (q : Nat) (h : Keeps s0 s) : Keeps s0 (State.disableQueue s q) := by
  unfold State.disableQueue
  repeat' first
    | with_reducible assumption
    | extract_lets +onlyGivenNames x
    | with_reducible apply State.setQueue_keeps
    | split

theorem State.clearEnable_keeps {s0 : State} {s : State} (q : Nat) (value : Nat) (h : Keeps s0 s) : Keeps s0 (State.clearEnable s q value) := by
  unfold State.clearEnable
  repeat' first
    | with_reducible assumption
    | extract_lets +onlyGivenNames x
    | with_reducible apply State.setQueue_keeps
    | with_reducible apply State.disableQueue_keeps
    | split

theorem execQueueDisable_keeps {s0 : State} (dt : Nat) (q : Nat) (value : Nat) {s : State} (h : Keeps s0 s) : Outcome.all (Keeps s0) (execQueueDisable dt q value s) := by
  unfold execQueueDisable
  repeat' first
    | with_reducible assumption
    | (extract_lets +onlyGivenNames x; apply keeps_cut (p := Keeps s0 x); (case' hp => (unfold x; clear x)); (case' k => (clear_value x; intro hx)))
    | extract_lets +onlyGivenNames x
    | with_reducible apply outcome_next
    | with_reducible apply State.tick_keeps
    | with_reducible apply State.clearEnable_keeps
    | split

theorem State.doorbell_keeps {s0 : State} {s : State} (q : Nat) (t : Nat) (h : Keeps s0 s) : Keeps s0 (State.doorbell s q t) := by
  unfold State.doorbell
  repeat' first
    | with_reducible assumption
    | extract_lets +onlyGivenNames x
    | with_reducible apply State.bump_keeps
    | with_reducible apply State.queueError_keeps
    | with_reducible apply State.setQueue_keeps
    | split

theorem execDoorbell_keeps {s0 : State} (dt : Nat) (q : Nat) (value : Nat) (whole : Bool) {s : State} (h : Keeps s0 s) : Outcome.all (Keeps s0) (execDoorbell dt q value whole s) := by
  unfold execDoorbell
  repeat' first
    | with_reducible assumption
    | (extract_lets +onlyGivenNames x; apply keeps_cut (p := Keeps s0 x); (case' hp => (unfold x; clear x)); (case' k => (clear_value x; intro hx)))
    | extract_lets +onlyGivenNames x
    | with_reducible apply outcome_next
    | with_reducible apply outcome_fault
    | with_reducible apply State.tick_keeps
    | with_reducible apply State.doorbell_keeps
    | with_reducible apply State.bump_keeps
    | split

theorem State.slotRead_keeps {s0 : State} {s : State} (q : Nat) (l : Launch) (b : Bytes) (h : Keeps s0 s) : Keeps s0 (State.slotRead s q l b) := by
  unfold State.slotRead
  repeat' first
    | with_reducible assumption
    | extract_lets +onlyGivenNames x
    | with_reducible apply State.queueError_keeps
    | with_reducible apply State.execFault_keeps
    | with_reducible apply State.setQueue_keeps
    | split

theorem execSlotFetch_keeps {s0 : State} (dt : Nat) (q : Nat) {s : State} (h : Keeps s0 s) : Outcome.all (Keeps s0) (execSlotFetch dt q s) := by
  unfold execSlotFetch
  repeat' first
    | with_reducible assumption
    | (extract_lets +onlyGivenNames x; apply keeps_cut (p := Keeps s0 x); (case' hp => (unfold x; clear x)); (case' k => (clear_value x; intro hx)))
    | extract_lets +onlyGivenNames x
    | with_reducible apply outcome_next
    | with_reducible apply State.tick_keeps
    | with_reducible apply State.feRead_keeps
    | with_reducible apply State.setQueue_keeps
    | with_reducible apply State.slotRead_keeps
    | (with_reducible refine keeps_of_fe_fault (by assumption) ?_)
    | (with_reducible refine keeps_of_fe_ok (by assumption) ?_)
    | (with_reducible refine keeps_of_fe_wait (by assumption) ?_)
    | split

theorem execSlotReread_keeps {s0 : State} (dt : Nat) (q : Nat) {s : State} (h : Keeps s0 s) : Outcome.all (Keeps s0) (execSlotReread dt q s) := by
  unfold execSlotReread
  repeat' first
    | with_reducible assumption
    | (extract_lets +onlyGivenNames x; apply keeps_cut (p := Keeps s0 x); (case' hp => (unfold x; clear x)); (case' k => (clear_value x; intro hx)))
    | extract_lets +onlyGivenNames x
    | with_reducible apply outcome_next
    | with_reducible apply State.tick_keeps
    | with_reducible apply State.feRead_keeps
    | with_reducible apply State.bump_keeps
    | with_reducible apply State.queueError_keeps
    | with_reducible apply State.slotRead_keeps
    | (with_reducible refine keeps_of_fe_fault (by assumption) ?_)
    | (with_reducible refine keeps_of_fe_ok (by assumption) ?_)
    | (with_reducible refine keeps_of_fe_wait (by assumption) ?_)
    | split

theorem State.enter_keeps {s0 : State} {s : State} (q : Nat) (l : Launch) (b : Bytes) (h : Keeps s0 s) : Keeps s0 (State.enter s q l b) := by
  unfold State.enter
  repeat' first
    | with_reducible assumption
    | (extract_lets +onlyGivenNames x; apply keeps_cut (p := Keeps s0 x); (case' hp => (unfold x; clear x)); (case' k => (clear_value x; intro hx)))
    | extract_lets +onlyGivenNames x
    | (simp only [keeps_mk]; refine core_of ?_)
    | with_reducible apply State.dispatch_keeps
    | with_reducible apply State.setQueue_keeps

theorem execCommandFetch_keeps {s0 : State} (dt : Nat) (q : Nat) {s : State} (h : Keeps s0 s) : Outcome.all (Keeps s0) (execCommandFetch dt q s) := by
  unfold execCommandFetch
  repeat' first
    | with_reducible assumption
    | (extract_lets +onlyGivenNames x; apply keeps_cut (p := Keeps s0 x); (case' hp => (unfold x; clear x)); (case' k => (clear_value x; intro hx)))
    | extract_lets +onlyGivenNames x
    | with_reducible apply outcome_next
    | with_reducible apply State.tick_keeps
    | with_reducible apply State.feRead_keeps
    | with_reducible apply State.enter_keeps
    | with_reducible apply State.execFault_keeps
    | (with_reducible refine keeps_of_fe_fault (by assumption) ?_)
    | (with_reducible refine keeps_of_fe_ok (by assumption) ?_)
    | (with_reducible refine keeps_of_fe_wait (by assumption) ?_)
    | split

theorem State.launchEnded_keeps {s0 : State} {s : State} (q : Nat) (h : Keeps s0 s) : Keeps s0 (State.launchEnded s q) := by
  unfold State.launchEnded
  repeat' first
    | with_reducible assumption
    | extract_lets +onlyGivenNames x
    | with_reducible apply State.finishError_keeps
    | with_reducible apply State.setQueue_keeps
    | split

theorem State.noteVerify_keeps {s0 : State} {s : State} (q : Nat) (seq : Nat) (clusters : List Nat) (h : Keeps s0 s) : Keeps s0 (State.noteVerify s q seq clusters) := by
  unfold State.noteVerify
  repeat' first
    | with_reducible assumption
    | extract_lets +onlyGivenNames x
    | (simp only [keeps_mk]; refine core_of ?_)
    | (with_reducible apply keeps_foldl; intro _ _ _)
    | split

theorem State.launchDone_keeps {s0 : State} {s : State} (q : Nat) (l : Launch) (h : Keeps s0 s) : Keeps s0 (State.launchDone s q l) := by
  unfold State.launchDone
  repeat' first
    | with_reducible assumption
    | (extract_lets +onlyGivenNames x; apply keeps_cut (p := Keeps s0 x); (case' hp => (unfold x; clear x)); (case' k => (clear_value x; intro hx)))
    | extract_lets +onlyGivenNames x
    | with_reducible apply State.signal_keeps
    | with_reducible apply State.bump_keeps
    | with_reducible apply State.setQueue_keeps
    | with_reducible apply State.raise_keeps
    | with_reducible apply State.launchEnded_keeps
    | with_reducible apply State.noteVerify_keeps
    | split

theorem execLaunchComplete_keeps {s0 : State} (dt : Nat) (q : Nat) {s : State} (h : Keeps s0 s) : Outcome.all (Keeps s0) (execLaunchComplete dt q s) := by
  unfold execLaunchComplete
  repeat' first
    | with_reducible assumption
    | (extract_lets +onlyGivenNames x; apply keeps_cut (p := Keeps s0 x); (case' hp => (unfold x; clear x)); (case' k => (clear_value x; intro hx)))
    | extract_lets +onlyGivenNames x
    | with_reducible apply outcome_next
    | with_reducible apply State.tick_keeps
    | with_reducible apply State.feWrite_keeps
    | with_reducible apply State.launchDone_keeps
    | (with_reducible refine keeps_of_fe_fault (by assumption) ?_)
    | (with_reducible refine keeps_of_fe_ok (by assumption) ?_)
    | (with_reducible refine keeps_of_fe_wait (by assumption) ?_)
    | split

theorem execQueueDrainDone_keeps {s0 : State} (dt : Nat) (q : Nat) {s : State} (h : Keeps s0 s) : Outcome.all (Keeps s0) (execQueueDrainDone dt q s) := by
  unfold execQueueDrainDone
  repeat' first
    | with_reducible assumption
    | (extract_lets +onlyGivenNames x; apply keeps_cut (p := Keeps s0 x); (case' hp => (unfold x; clear x)); (case' k => (clear_value x; intro hx)))
    | extract_lets +onlyGivenNames x
    | with_reducible apply outcome_next
    | with_reducible apply State.tick_keeps
    | with_reducible apply State.finishError_keeps
    | with_reducible apply State.setQueue_keeps
    | with_reducible apply State.feWrite_keeps
    | (with_reducible refine keeps_of_fe_fault (by assumption) ?_)
    | (with_reducible refine keeps_of_fe_ok (by assumption) ?_)
    | (with_reducible refine keeps_of_fe_wait (by assumption) ?_)
    | split

theorem execNoOp_keeps {s0 : State} (dt : Nat) (id : Nat) {s : State} (h : Keeps s0 s) : Outcome.all (Keeps s0) (execNoOp dt id s) := by
  unfold execNoOp
  repeat' first
    | with_reducible assumption
    | (extract_lets +onlyGivenNames x; apply keeps_cut (p := Keeps s0 x); (case' hp => (unfold x; clear x)); (case' k => (clear_value x; intro hx)))
    | extract_lets +onlyGivenNames x
    | with_reducible apply outcome_next
    | with_reducible apply State.tick_keeps
    | with_reducible apply State.complete_keeps
    | split

theorem execFenceSignal_keeps {s0 : State} (dt : Nat) (id : Nat) {s : State} (h : Keeps s0 s) : Outcome.all (Keeps s0) (execFenceSignal dt id s) := by
  unfold execFenceSignal
  repeat' first
    | with_reducible assumption
    | (extract_lets +onlyGivenNames x; apply keeps_cut (p := Keeps s0 x); (case' hp => (unfold x; clear x)); (case' k => (clear_value x; intro hx)))
    | extract_lets +onlyGivenNames x
    | with_reducible apply outcome_next
    | with_reducible apply State.tick_keeps
    | with_reducible apply State.complete_keeps
    | with_reducible apply State.signal_keeps
    | split

theorem execFenceWait_keeps {s0 : State} (dt : Nat) (id : Nat) {s : State} (h : Keeps s0 s) : Outcome.all (Keeps s0) (execFenceWait dt id s) := by
  unfold execFenceWait
  repeat' first
    | with_reducible assumption
    | (extract_lets +onlyGivenNames x; apply keeps_cut (p := Keeps s0 x); (case' hp => (unfold x; clear x)); (case' k => (clear_value x; intro hx)))
    | extract_lets +onlyGivenNames x
    | with_reducible apply outcome_next
    | with_reducible apply State.tick_keeps
    | with_reducible apply State.complete_keeps
    | split

theorem execFenceWaitTimeout_keeps {s0 : State} (dt : Nat) (id : Nat) {s : State} (h : Keeps s0 s) : Outcome.all (Keeps s0) (execFenceWaitTimeout dt id s) := by
  unfold execFenceWaitTimeout
  repeat' first
    | with_reducible assumption
    | (extract_lets +onlyGivenNames x; apply keeps_cut (p := Keeps s0 x); (case' hp => (unfold x; clear x)); (case' k => (clear_value x; intro hx)))
    | extract_lets +onlyGivenNames x
    | with_reducible apply outcome_next
    | with_reducible apply State.tick_keeps
    | with_reducible apply State.queueError_keeps
    | split

theorem execTagInvalidate_keeps {s0 : State} (dt : Nat) (id : Nat) {s : State} (h : Keeps s0 s) : Outcome.all (Keeps s0) (execTagInvalidate dt id s) := by
  unfold execTagInvalidate
  repeat' first
    | with_reducible assumption
    | (extract_lets +onlyGivenNames x; apply keeps_cut (p := Keeps s0 x); (case' hp => (unfold x; clear x)); (case' k => (clear_value x; intro hx)))
    | extract_lets +onlyGivenNames x
    | with_reducible apply outcome_next
    | with_reducible apply State.tick_keeps
    | with_reducible apply State.setCmd_keeps
    | with_reducible apply State.startInval_keeps
    | split

theorem execBarrier_keeps {s0 : State} (dt : Nat) (id : Nat) {s : State} (h : Keeps s0 s) : Outcome.all (Keeps s0) (execBarrier dt id s) := by
  unfold execBarrier
  repeat' first
    | with_reducible assumption
    | (extract_lets +onlyGivenNames x; apply keeps_cut (p := Keeps s0 x); (case' hp => (unfold x; clear x)); (case' k => (clear_value x; intro hx)))
    | extract_lets +onlyGivenNames x
    | with_reducible apply outcome_next
    | with_reducible apply State.tick_keeps
    | with_reducible apply State.complete_keeps
    | split

theorem execFenceValueWrite_keeps {s0 : State} (dt : Nat) (n : Nat) (value : Nat) (whole : Bool) {s : State} (h : Keeps s0 s) : Outcome.all (Keeps s0) (execFenceValueWrite dt n value whole s) := by
  unfold execFenceValueWrite
  repeat' first
    | with_reducible assumption
    | (extract_lets +onlyGivenNames x; apply keeps_cut (p := Keeps s0 x); (case' hp => (unfold x; clear x)); (case' k => (clear_value x; intro hx)))
    | extract_lets +onlyGivenNames x
    | with_reducible apply outcome_next
    | with_reducible apply State.tick_keeps
    | with_reducible apply State.signal_keeps
    | split

theorem State.queueSnapshot_keeps {s0 : State} {s : State} (q : Nat) (h : Keeps s0 s) : Keeps s0 (State.queueSnapshot s q).2 := by
  unfold State.queueSnapshot
  repeat' first
    | with_reducible assumption
    | (extract_lets +onlyGivenNames x; apply keeps_cut (p := Keeps s0 x); (case' hp => (unfold x; clear x)); (case' k => (clear_value x; intro hx)))
    | extract_lets +onlyGivenNames x
    | with_reducible apply State.setNum_keeps
    | split

end Sys2Proof.Machine
end

