-- ==== Sys2Proof/Laws/KeepsSched.lean ====
section
/-! SUPPORT. Every operation of Machine/Sched.lean keeps (`Keeps`). -/
set_option linter.tactic.unusedName false
set_option linter.unusedVariables false
set_option linter.unusedSimpArgs false
namespace Sys2Proof.Machine

theorem State.turn_keeps {s0 : State} {s : State} (u : UnitId) (h : Keeps s0 s) : Keeps s0 (State.turn s u).2 := by
  unfold State.turn
  repeat' first
    | with_reducible assumption
    | (extract_lets +onlyGivenNames x; apply keeps_cut (p := Keeps s0 x); (case' hp => (unfold x; clear x)); (case' k => (clear_value x; intro hx)))
    | extract_lets +onlyGivenNames x
    | with_reducible apply State.bump_keeps
    | with_reducible apply State.setEngine_keeps
    | (with_reducible apply keeps_foldl; intro _ _ _)
    | split

theorem execCommandStart_keeps {s0 : State} (dt : Nat) (kind : Nat) (num : Nat) {s : State} (h : Keeps s0 s) : Outcome.all (Keeps s0) (execCommandStart dt kind num s) := by
  unfold execCommandStart
  repeat' first
    | with_reducible assumption
    | intro _
    | (extract_lets +onlyGivenNames x; apply keeps_cut (p := Keeps s0 x); (case' hp => (unfold x; clear x)); (case' k => (clear_value x; intro hx)))
    | extract_lets +onlyGivenNames x
    | (simp only [keeps_mk]; refine core_of ?_)
    | with_reducible apply outcome_next
    | with_reducible apply State.cmdFault_keeps
    | with_reducible apply State.tick_keeps
    | with_reducible apply State.setCmd_keeps
    | with_reducible apply State.passTurn_keeps
    | with_reducible apply State.turn_keeps
    | with_reducible apply State.setEngine_keeps
    | (with_reducible refine keeps_of_pair (by assumption) ?_)
    | (with_reducible refine keeps_of_some_snd (by assumption) ?_)
    | (with_reducible refine keeps_of_some_fst (by assumption) ?_)
    | with_reducible apply someAll_none
    | with_reducible apply someAll_some
    | split

theorem execFloorIntervalEnd_keeps {s0 : State} (dt : Nat) (kind : Nat) (num : Nat) {s : State} (h : Keeps s0 s) : Outcome.all (Keeps s0) (execFloorIntervalEnd dt kind num s) := by
  unfold execFloorIntervalEnd
  repeat' first
    | with_reducible assumption
    | (extract_lets +onlyGivenNames x; apply keeps_cut (p := Keeps s0 x); (case' hp => (unfold x; clear x)); (case' k => (clear_value x; intro hx)))
    | extract_lets +onlyGivenNames x
    | with_reducible apply outcome_next
    | with_reducible apply State.tick_keeps
    | with_reducible apply State.setEngine_keeps
    | split

theorem execEngineClockGate_keeps {s0 : State} (dt : Nat) (kind : Nat) (num : Nat) {s : State} (h : Keeps s0 s) : Outcome.all (Keeps s0) (execEngineClockGate dt kind num s) := by
  unfold execEngineClockGate
  repeat' first
    | with_reducible assumption
    | (extract_lets +onlyGivenNames x; apply keeps_cut (p := Keeps s0 x); (case' hp => (unfold x; clear x)); (case' k => (clear_value x; intro hx)))
    | extract_lets +onlyGivenNames x
    | with_reducible apply outcome_next
    | with_reducible apply State.tick_keeps
    | with_reducible apply State.bump_keeps
    | with_reducible apply State.setEngine_keeps
    | split

theorem execWatchdogExpiry_keeps {s0 : State} (dt : Nat) (id : Nat) {s : State} (h : Keeps s0 s) : Outcome.all (Keeps s0) (execWatchdogExpiry dt id s) := by
  unfold execWatchdogExpiry
  repeat' first
    | with_reducible assumption
    | (extract_lets +onlyGivenNames x; apply keeps_cut (p := Keeps s0 x); (case' hp => (unfold x; clear x)); (case' k => (clear_value x; intro hx)))
    | extract_lets +onlyGivenNames x
    | with_reducible apply outcome_next
    | with_reducible apply State.tick_keeps
    | with_reducible apply State.cmdFault_keeps
    | with_reducible apply State.bump_keeps
    | split

theorem State.assertFault_keeps {s0 : State} {s : State} (h : Keeps s0 s) : Keeps s0 (State.assertFault s) := by
  unfold State.assertFault
  repeat' first
    | with_reducible assumption
    | extract_lets +onlyGivenNames x
    | (simp only [keeps_mk]; refine core_of ?_)

theorem State.serviceRequired_keeps {s0 : State} {s : State} (h : Keeps s0 s) : Keeps s0 (State.serviceRequired s) := by
  unfold State.serviceRequired
  repeat' first
    | with_reducible assumption
    | extract_lets +onlyGivenNames x
    | with_reducible apply State.assertFault_keeps
    | with_reducible apply State.durable_keeps
    | with_reducible apply State.setFlag_keeps
    | split

theorem State.fence__keeps {s0 : State} {s : State} (u : UnitId) (h : Keeps s0 s) : Keeps s0 (State.fence_ s u) := by
  unfold State.fence_
  repeat' first
    | with_reducible assumption
    | extract_lets +onlyGivenNames x
    | with_reducible apply State.report_keeps
    | with_reducible apply State.durable_keeps
    | with_reducible apply State.setNum_keeps
    | split

theorem State.checkerFailed_keeps {s0 : State} {s : State} (u : UnitId) (h : Keeps s0 s) : Keeps s0 (State.checkerFailed s u) := by
  unfold State.checkerFailed
  repeat' first
    | with_reducible assumption
    | (extract_lets +onlyGivenNames x; apply keeps_cut (p := Keeps s0 x); (case' hp => (unfold x; clear x)); (case' k => (clear_value x; intro hx)))
    | with_reducible apply State.report_keeps
    | with_reducible apply State.fence__keeps
    | with_reducible apply State.serviceRequired_keeps
    | split

theorem execRecoveryComplete_keeps {s0 : State} (dt : Nat) (failed : List Nat) {s : State} (h : Keeps s0 s) : Outcome.all (Keeps s0) (execRecoveryComplete dt failed s) := by
  unfold execRecoveryComplete
  repeat' first
    | with_reducible assumption
    | (extract_lets +onlyGivenNames x; apply keeps_cut (p := Keeps s0 x); (case' hp => (unfold x; clear x)); (case' k => (clear_value x; intro hx)))
    | extract_lets +onlyGivenNames x
    | (simp only [keeps_mk]; refine core_of ?_)
    | with_reducible apply outcome_next
    | with_reducible apply State.tick_keeps
    | with_reducible apply State.checkerFailed_keeps
    | with_reducible apply State.setNum_keeps
    | with_reducible apply State.bump_keeps
    | with_reducible apply State.setFlag_keeps
    | (with_reducible apply keeps_foldl; intro _ _ _)
    | split

end Sys2Proof.Machine
end

