-- ==== Sys2Proof/Laws/KeepsClocks.lean ====
section
/-! SUPPORT. Every operation of Machine/Clocks.lean keeps (`Keeps`). -/
set_option linter.tactic.unusedName false
set_option linter.unusedVariables false
set_option linter.unusedSimpArgs false
namespace Sys2Proof.Machine

theorem State.requestClock_keeps {s0 : State} {s : State} (core : Nat) (h : Keeps s0 s) : Keeps s0 (State.requestClock s core) := by
  unfold State.requestClock
  repeat' first
    | with_reducible assumption
    | extract_lets +onlyGivenNames x
    | with_reducible apply State.setCore_keeps

theorem State.lowerVoltage_keeps {s0 : State} {s : State} (cluster : Nat) (h : Keeps s0 s) : Keeps s0 (State.lowerVoltage s cluster) := by
  unfold State.lowerVoltage
  repeat' first
    | with_reducible assumption
    | intro _
    | with_reducible apply State.setNum_keeps
    | split

theorem State.setClock_keeps {s0 : State} {s : State} (core : Nat) (v : Nat) (h : Keeps s0 s) : Keeps s0 (State.setClock s core v) := by
  unfold State.setClock
  repeat' first
    | with_reducible assumption
    | intro _
    | (extract_lets +onlyGivenNames x; apply keeps_cut (p := Keeps s0 x); (case' hp => (unfold x; clear x)); (case' k => (clear_value x; intro hx)))
    | extract_lets +onlyGivenNames x
    | (simp only [keeps_mk]; refine core_of ?_)
    | with_reducible apply State.setNum_keeps
    | with_reducible apply State.lowerVoltage_keeps
    | with_reducible apply State.requestClock_keeps
    | split

theorem execVoltageSettled_keeps {s0 : State} (dt : Nat) (cluster : Nat) {s : State} (h : Keeps s0 s) : Outcome.all (Keeps s0) (execVoltageSettled dt cluster s) := by
  unfold execVoltageSettled
  repeat' first
    | with_reducible assumption
    | (extract_lets +onlyGivenNames x; apply keeps_cut (p := Keeps s0 x); (case' hp => (unfold x; clear x)); (case' k => (clear_value x; intro hx)))
    | extract_lets +onlyGivenNames x
    | (simp only [keeps_mk]; refine core_of ?_)
    | with_reducible apply outcome_next
    | with_reducible apply State.tick_keeps
    | with_reducible apply State.setNum_keeps
    | with_reducible apply State.requestClock_keeps
    | (with_reducible apply keeps_foldl; intro _ _ _)
    | split

theorem execClockChangeApply_keeps {s0 : State} (dt : Nat) (core : Nat) {s : State} (h : Keeps s0 s) : Outcome.all (Keeps s0) (execClockChangeApply dt core s) := by
  unfold execClockChangeApply
  repeat' first
    | with_reducible assumption
    | (extract_lets +onlyGivenNames x; apply keeps_cut (p := Keeps s0 x); (case' hp => (unfold x; clear x)); (case' k => (clear_value x; intro hx)))
    | extract_lets +onlyGivenNames x
    | with_reducible apply outcome_next
    | with_reducible apply State.tick_keeps
    | with_reducible apply State.setCore_keeps
    | with_reducible apply State.setNum_keeps
    | split

theorem execClockRelockDone_keeps {s0 : State} (dt : Nat) (core : Nat) {s : State} (h : Keeps s0 s) : Outcome.all (Keeps s0) (execClockRelockDone dt core s) := by
  unfold execClockRelockDone
  repeat' first
    | with_reducible assumption
    | intro _
    | (extract_lets +onlyGivenNames x; apply keeps_cut (p := Keeps s0 x); (case' hp => (unfold x; clear x)); (case' k => (clear_value x; intro hx)))
    | extract_lets +onlyGivenNames x
    | (simp only [keeps_mk]; refine core_of ?_)
    | with_reducible apply outcome_next
    | with_reducible apply State.tick_keeps
    | with_reducible apply State.setCore_keeps
    | with_reducible apply State.lowerVoltage_keeps
    | split

end Sys2Proof.Machine
end

