-- ==== Sys2Proof/Laws/KeepsPower.lean ====
section
/-! SUPPORT. Every operation of Machine/Power.lean keeps (`Keeps`). -/
set_option linter.tactic.unusedName false
set_option linter.unusedVariables false
set_option linter.unusedSimpArgs false
namespace Sys2Proof.Machine

theorem State.deviceReport_keeps {s0 : State} {s : State} (u : UnitId) (code : Nat) (h : Keeps s0 s) : Keeps s0 (State.deviceReport s u code) := by
  unfold State.deviceReport
  repeat' first
    | with_reducible assumption
    | with_reducible apply State.report_keeps

theorem State.regulatorsOff_keeps {s0 : State} {s : State} (h : Keeps s0 s) : Keeps s0 (State.regulatorsOff s) := by
  unfold State.regulatorsOff
  repeat' first
    | with_reducible assumption
    | (extract_lets +onlyGivenNames x; apply keeps_cut (p := Keeps s0 x); (case' hp => (unfold x; clear x)); (case' k => (clear_value x; intro hx)))
    | extract_lets +onlyGivenNames x
    | (simp only [keeps_mk]; refine core_of ?_)
    | with_reducible apply State.dropEngineState_keeps
    | with_reducible apply State.loseJob_keeps
    | with_reducible apply State.setNum_keeps
    | with_reducible apply State.clearNums_keeps
    | (with_reducible apply keeps_foldl; intro _ _ _)

theorem State.trip_keeps {s0 : State} {s : State} (u : UnitId) (h : Keeps s0 s) : Keeps s0 (State.trip s u) := by
  unfold State.trip
  repeat' first
    | with_reducible assumption
    | (extract_lets +onlyGivenNames x; apply keeps_cut (p := Keeps s0 x); (case' hp => (unfold x; clear x)); (case' k => (clear_value x; intro hx)))
    | extract_lets +onlyGivenNames x
    | (simp only [keeps_mk]; refine core_of ?_)
    | with_reducible apply State.regulatorsOff_keeps
    | with_reducible apply State.firmwareLog_keeps
    | with_reducible apply State.setNum_keeps
    | split

theorem State.capLimit_keeps {s0 : State} {s : State} (h : Keeps s0 s) : Keeps s0 (State.capLimit s) := by
  unfold State.capLimit
  repeat' first
    | with_reducible assumption
    | with_reducible apply State.setNum_keeps

theorem State.uncapLimit_keeps {s0 : State} {s : State} (h : Keeps s0 s) : Keeps s0 (State.uncapLimit s) := by
  unfold State.uncapLimit
  repeat' first
    | with_reducible assumption
    | with_reducible apply State.setNum_keeps

theorem State.abandonStart_keeps {s0 : State} {s : State} (h : Keeps s0 s) : Keeps s0 (State.abandonStart s) := by
  unfold State.abandonStart
  repeat' first
    | with_reducible assumption
    | (extract_lets +onlyGivenNames x; apply keeps_cut (p := Keeps s0 x); (case' hp => (unfold x; clear x)); (case' k => (clear_value x; intro hx)))
    | extract_lets +onlyGivenNames x
    | (simp only [keeps_mk]; refine core_of ?_)
    | with_reducible apply State.regulatorsOff_keeps

theorem execSupplyOutOfRange_keeps {s0 : State} (dt : Nat) (absolute : Bool) {s : State} (h : Keeps s0 s) : Outcome.all (Keeps s0) (execSupplyOutOfRange dt absolute s) := by
  unfold execSupplyOutOfRange
  repeat' first
    | with_reducible assumption
    | (extract_lets +onlyGivenNames x; apply keeps_cut (p := Keeps s0 x); (case' hp => (unfold x; clear x)); (case' k => (clear_value x; intro hx)))
    | extract_lets +onlyGivenNames x
    | (simp only [keeps_mk]; refine core_of ?_)
    | with_reducible apply outcome_next
    | with_reducible apply State.tick_keeps
    | with_reducible apply State.trip_keeps
    | with_reducible apply State.abandonStart_keeps
    | with_reducible apply State.deviceReport_keeps
    | with_reducible apply State.capLimit_keeps
    | split

theorem execSupplyRestored_keeps {s0 : State} (dt : Nat) (within : Nat) {s : State} (h : Keeps s0 s) : Outcome.all (Keeps s0) (execSupplyRestored dt within s) := by
  unfold execSupplyRestored
  repeat' first
    | with_reducible assumption
    | (extract_lets +onlyGivenNames x; apply keeps_cut (p := Keeps s0 x); (case' hp => (unfold x; clear x)); (case' k => (clear_value x; intro hx)))
    | extract_lets +onlyGivenNames x
    | (simp only [keeps_mk]; refine core_of ?_)
    | with_reducible apply outcome_next
    | with_reducible apply State.tick_keeps
    | with_reducible apply State.uncapLimit_keeps
    | split

theorem State.engage_keeps {s0 : State} {s : State} (i : Nat) (h : Keeps s0 s) : Keeps s0 (State.engage s i) := by
  unfold State.engage
  repeat' first
    | with_reducible assumption
    | extract_lets +onlyGivenNames x
    | with_reducible apply State.deviceReport_keeps
    | with_reducible apply State.bump_keeps
    | with_reducible apply State.setNum_keeps
    | split

theorem State.engageTo_keeps {s0 : State} {s : State} (i : Nat) (h : Keeps s0 s) : Keeps s0 (State.engageTo s i) := by
  unfold State.engageTo
  repeat' first
    | with_reducible assumption
    | extract_lets +onlyGivenNames x
    | with_reducible apply State.engage_keeps
    | (with_reducible apply keeps_foldl; intro _ _ _)

theorem State.release_keeps {s0 : State} {s : State} (h : Keeps s0 s) : Keeps s0 (State.release s) := by
  unfold State.release
  repeat' first
    | with_reducible assumption
    | (extract_lets +onlyGivenNames x; apply keeps_cut (p := Keeps s0 x); (case' hp => (unfold x; clear x)); (case' k => (clear_value x; intro hx)))
    | extract_lets +onlyGivenNames x
    | (simp only [keeps_mk]; refine core_of ?_)
    | with_reducible apply State.setNum_keeps
    | split

theorem State.runAfter_keeps {s0 : State} {s : State} (mw : Nat) (l : Nat) (h : Keeps s0 s) : Keeps s0 (State.runAfter s mw l) := by
  unfold State.runAfter
  repeat' first
    | with_reducible assumption
    | extract_lets +onlyGivenNames x
    | (simp only [keeps_mk]; refine core_of ?_)
    | split

theorem State.leversAfter_keeps {s0 : State} {s : State} (mw : Nat) (l : Nat) (h : Keeps s0 s) : Keeps s0 (State.leversAfter s mw l) := by
  unfold State.leversAfter
  repeat' first
    | with_reducible assumption
    | (extract_lets +onlyGivenNames x; apply keeps_cut (p := Keeps s0 x); (case' hp => (unfold x; clear x)); (case' k => (clear_value x; intro hx)))
    | extract_lets +onlyGivenNames x
    | (simp only [keeps_mk]; refine core_of ?_)
    | with_reducible apply State.engageTo_keeps
    | with_reducible apply State.release_keeps
    | split

theorem State.noteMetered_keeps {s0 : State} {s : State} (h : Keeps s0 s) : Keeps s0 (State.noteMetered s) := by
  unfold State.noteMetered
  repeat' first
    | with_reducible assumption
    | intro _
    | (extract_lets +onlyGivenNames x; apply keeps_cut (p := Keeps s0 x); (case' hp => (unfold x; clear x)); (case' k => (clear_value x; intro hx)))
    | (extract_lets +onlyGivenNames x; apply keeps_cut (p := Keeps s0 x.2); (case' hp => (unfold x; clear x)); (case' k => (clear_value x; intro hx)))
    | (extract_lets +onlyGivenNames x; apply keeps_cut (p := ∀ t, Keeps s0 t → Keeps s0 (x t)); (case' hp => (unfold x; clear x)); (case' k => (clear_value x; intro hx)))
    | (extract_lets +onlyGivenNames x; apply keeps_cut (p := ∀ t a, Keeps s0 t → Keeps s0 (x t a)); (case' hp => (unfold x; clear x)); (case' k => (clear_value x; intro hx)))
    | (extract_lets +onlyGivenNames x; apply keeps_cut (p := ∀ t a b, Keeps s0 t → Keeps s0 (x t a b)); (case' hp => (unfold x; clear x)); (case' k => (clear_value x; intro hx)))
    | extract_lets +onlyGivenNames x
    | (with_reducible refine keeps_of_fun (by assumption) ?_)
    | (with_reducible refine keeps_of_fun2 (by assumption) ?_)
    | (with_reducible refine keeps_of_fun3 (by assumption) ?_)
    | (simp only [keeps_mk]; refine core_of ?_)
    | with_reducible apply State.bump_keeps
    | with_reducible apply State.setEngine_keeps
    | (with_reducible apply keeps_foldl; intro _ _ _)
    | (with_reducible refine keeps_of_pair (by assumption) ?_)
    | (with_reducible refine keeps_of_some_snd (by assumption) ?_)
    | (with_reducible refine keeps_of_some_fst (by assumption) ?_)
    | split

theorem execPowerSample_keeps {s0 : State} (dt : Nat) (mv : Nat) (mgt : Nat) (vio : Nat) (current : Nat) {s : State} (h : Keeps s0 s) : Outcome.all (Keeps s0) (execPowerSample dt mv mgt vio current s) := by
  unfold execPowerSample
  repeat' first
    | with_reducible assumption
    | intro _
    | (extract_lets +onlyGivenNames x; apply keeps_cut (p := Keeps s0 x); (case' hp => (unfold x; clear x)); (case' k => (clear_value x; intro hx)))
    | (extract_lets +onlyGivenNames x; apply keeps_cut (p := Keeps s0 x.2); (case' hp => (unfold x; clear x)); (case' k => (clear_value x; intro hx)))
    | extract_lets +onlyGivenNames x
    | (simp only [keeps_mk]; refine core_of ?_)
    | with_reducible apply outcome_next
    | with_reducible apply State.tick_keeps
    | with_reducible apply State.noteMetered_keeps
    | with_reducible apply State.leversAfter_keeps
    | with_reducible apply State.runAfter_keeps
    | with_reducible apply State.uncapLimit_keeps
    | with_reducible apply State.setNum_keeps
    | split

theorem State.grant_keeps {s0 : State} {s : State} (u : UnitId) (c : Cmd) (h : Keeps s0 s) : Keeps s0 (State.grant s u c) := by
  unfold State.grant
  repeat' first
    | with_reducible assumption
    | (extract_lets +onlyGivenNames x; apply keeps_cut (p := Keeps s0 x); (case' hp => (unfold x; clear x)); (case' k => (clear_value x; intro hx)))
    | extract_lets +onlyGivenNames x
    | (simp only [keeps_mk]; refine core_of ?_)
    | with_reducible apply State.setEngine_keeps
    | with_reducible apply State.bump_keeps

theorem execFennelGrant_keeps {s0 : State} (dt : Nat) (die : Nat) {s : State} (h : Keeps s0 s) : Outcome.all (Keeps s0) (execFennelGrant dt die s) := by
  unfold execFennelGrant
  repeat' first
    | with_reducible assumption
    | intro _
    | (extract_lets +onlyGivenNames x; apply keeps_cut (p := Keeps s0 x); (case' hp => (unfold x; clear x)); (case' k => (clear_value x; intro hx)))
    | (extract_lets +onlyGivenNames x; apply keeps_cut (p := Keeps s0 x.2); (case' hp => (unfold x; clear x)); (case' k => (clear_value x; intro hx)))
    | extract_lets +onlyGivenNames x
    | (simp only [keeps_mk]; refine core_of ?_)
    | with_reducible apply outcome_next
    | with_reducible apply State.tick_keeps
    | with_reducible apply State.grant_keeps
    | with_reducible apply State.noteMetered_keeps
    | (with_reducible refine keeps_of_pair (by assumption) ?_)
    | (with_reducible refine keeps_of_some_snd (by assumption) ?_)
    | (with_reducible refine keeps_of_some_fst (by assumption) ?_)
    | split

theorem execLogicTempSample_keeps {s0 : State} (dt : Nat) (cluster : Nat) (temp : Int) {s : State} (h : Keeps s0 s) : Outcome.all (Keeps s0) (execLogicTempSample dt cluster temp s) := by
  unfold execLogicTempSample
  repeat' first
    | with_reducible assumption
    | (extract_lets +onlyGivenNames x; apply keeps_cut (p := Keeps s0 x); (case' hp => (unfold x; clear x)); (case' k => (clear_value x; intro hx)))
    | extract_lets +onlyGivenNames x
    | (simp only [keeps_mk]; refine core_of ?_)
    | with_reducible apply outcome_next
    | with_reducible apply State.tick_keeps
    | with_reducible apply State.setNum_keeps
    | with_reducible apply State.trip_keeps
    | with_reducible apply State.deviceReport_keeps
    | split

theorem State.coolantReport_keeps {s0 : State} {s : State} (flow : Bool) (v : Nat) (h : Keeps s0 s) : Keeps s0 (State.coolantReport s flow v) := by
  unfold State.coolantReport
  repeat' first
    | with_reducible assumption
    | (extract_lets +onlyGivenNames x; apply keeps_cut (p := Keeps s0 x); (case' hp => (unfold x; clear x)); (case' k => (clear_value x; intro hx)))
    | extract_lets +onlyGivenNames x
    | (simp only [keeps_mk]; refine core_of ?_)
    | with_reducible apply State.setFlag_keeps
    | with_reducible apply State.setNum_keeps
    | with_reducible apply State.deviceReport_keeps
    | with_reducible apply State.capLimit_keeps
    | split

theorem execCoolantReportStale_keeps {s0 : State} (dt : Nat) {s : State} (h : Keeps s0 s) : Outcome.all (Keeps s0) (execCoolantReportStale dt s) := by
  unfold execCoolantReportStale
  repeat' first
    | with_reducible assumption
    | (extract_lets +onlyGivenNames x; apply keeps_cut (p := Keeps s0 x); (case' hp => (unfold x; clear x)); (case' k => (clear_value x; intro hx)))
    | extract_lets +onlyGivenNames x
    | (simp only [keeps_mk]; refine core_of ?_)
    | with_reducible apply outcome_next
    | with_reducible apply State.tick_keeps
    | with_reducible apply State.uncapLimit_keeps
    | with_reducible apply State.setFlag_keeps
    | split

theorem execCoolantCapRelease_keeps {s0 : State} (dt : Nat) {s : State} (h : Keeps s0 s) : Outcome.all (Keeps s0) (execCoolantCapRelease dt s) := by
  unfold execCoolantCapRelease
  repeat' first
    | with_reducible assumption
    | (extract_lets +onlyGivenNames x; apply keeps_cut (p := Keeps s0 x); (case' hp => (unfold x; clear x)); (case' k => (clear_value x; intro hx)))
    | extract_lets +onlyGivenNames x
    | (simp only [keeps_mk]; refine core_of ?_)
    | with_reducible apply outcome_next
    | with_reducible apply State.tick_keeps
    | with_reducible apply State.uncapLimit_keeps
    | split

theorem execUcieRetryExhausted_keeps {s0 : State} (dt : Nat) (m : Nat) (counts : RetryCounts) (retries : Retries) {s : State} (h : Keeps s0 s) : Outcome.all (Keeps s0) (execUcieRetryExhausted dt m counts retries s) := by
  unfold execUcieRetryExhausted
  repeat' first
    | with_reducible assumption
    | intro _
    | (extract_lets +onlyGivenNames x; apply keeps_cut (p := Keeps s0 x); (case' hp => (unfold x; clear x)); (case' k => (clear_value x; intro hx)))
    | (extract_lets +onlyGivenNames x; apply keeps_cut (p := Keeps s0 x.2); (case' hp => (unfold x; clear x)); (case' k => (clear_value x; intro hx)))
    | extract_lets +onlyGivenNames x
    | (simp only [keeps_mk]; refine core_of ?_)
    | with_reducible apply outcome_next
    | with_reducible apply State.execFault_keeps
    | with_reducible apply State.tick_keeps
    | with_reducible apply State.bump_keeps
    | with_reducible apply State.setNum_keeps
    | (with_reducible refine keeps_of_pair (by assumption) ?_)
    | (with_reducible refine keeps_of_some_snd (by assumption) ?_)
    | (with_reducible refine keeps_of_some_fst (by assumption) ?_)
    | split

end Sys2Proof.Machine
end

