-- ==== Sys2Proof/Laws/KeepsMemory.lean ====
section
/-! SUPPORT. Every operation of Machine/Memory.lean keeps (`Keeps`). -/
set_option linter.tactic.unusedName false
set_option linter.unusedVariables false
set_option linter.unusedSimpArgs false
namespace Sys2Proof.Machine

theorem State.spoilWord_keeps {s0 : State} {s : State} (w : Nat) (h : Keeps s0 s) : Keeps s0 (State.spoilWord s w) := by
  unfold State.spoilWord
  repeat' first
    | with_reducible assumption
    | intro _
    | (extract_lets +onlyGivenNames x; apply keeps_cut (p := Keeps s0 x); (case' hp => (unfold x; clear x)); (case' k => (clear_value x; intro hx)))
    | (extract_lets +onlyGivenNames x; apply keeps_cut (p := Keeps s0 x.2); (case' hp => (unfold x; clear x)); (case' k => (clear_value x; intro hx)))
    | extract_lets +onlyGivenNames x
    | (simp only [keeps_mk]; refine core_of ?_)
    | split

theorem State.beyondCode_keeps {s0 : State} {s : State} (w : Nat) (data : Bytes) (h : Keeps s0 s) : Keeps s0 (State.beyondCode s w data) := by
  unfold State.beyondCode
  repeat' first
    | with_reducible assumption
    | intro _
    | (extract_lets +onlyGivenNames x; apply keeps_cut (p := Keeps s0 x); (case' hp => (unfold x; clear x)); (case' k => (clear_value x; intro hx)))
    | (extract_lets +onlyGivenNames x; apply keeps_cut (p := Keeps s0 x.2); (case' hp => (unfold x; clear x)); (case' k => (clear_value x; intro hx)))
    | extract_lets +onlyGivenNames x
    | with_reducible apply State.store_keeps
    | with_reducible apply State.spoilWord_keeps
    | with_reducible apply State.drawNat_keeps
    | (with_reducible refine keeps_of_pair (by assumption) ?_)
    | (with_reducible refine keeps_of_some_snd (by assumption) ?_)
    | (with_reducible refine keeps_of_some_fst (by assumption) ?_)
    | split

theorem State.upset_keeps {s0 : State} {s : State} (u : Upset) (h : Keeps s0 s) : Keeps s0 (State.upset s u) := by
  unfold State.upset
  repeat' first
    | with_reducible assumption
    | intro _
    | (extract_lets +onlyGivenNames x; apply keeps_cut (p := Keeps s0 x); (case' hp => (unfold x; clear x)); (case' k => (clear_value x; intro hx)))
    | (extract_lets +onlyGivenNames x; apply keeps_cut (p := Keeps s0 x.2); (case' hp => (unfold x; clear x)); (case' k => (clear_value x; intro hx)))
    | extract_lets +onlyGivenNames x
    | (simp only [keeps_mk]; refine core_of ?_)
    | with_reducible apply State.beyondCode_keeps
    | with_reducible apply State.spoilWord_keeps
    | with_reducible apply State.drawBytes_keeps
    | (with_reducible refine keeps_of_pair (by assumption) ?_)
    | (with_reducible refine keeps_of_some_snd (by assumption) ?_)
    | (with_reducible refine keeps_of_some_fst (by assumption) ?_)
    | split

theorem State.scrubNext_keeps {s0 : State} {s : State} (stack : Nat) (h : Keeps s0 s) : Keeps s0 (State.scrubNext s stack) := by
  unfold State.scrubNext
  repeat' first
    | with_reducible assumption
    | (extract_lets +onlyGivenNames x; apply keeps_cut (p := Keeps s0 x); (case' hp => (unfold x; clear x)); (case' k => (clear_value x; intro hx)))
    | extract_lets +onlyGivenNames x
    | (simp only [keeps_mk]; refine core_of ?_)
    | with_reducible apply State.setNum_keeps
    | split

theorem State.scrubRead_keeps {s0 : State} {s : State} (stack : Nat) (w : Nat) (h : Keeps s0 s) : Keeps s0 (State.scrubRead s stack w) := by
  unfold State.scrubRead
  repeat' first
    | with_reducible assumption
    | intro _
    | (extract_lets +onlyGivenNames x; apply keeps_cut (p := Keeps s0 x); (case' hp => (unfold x; clear x)); (case' k => (clear_value x; intro hx)))
    | (extract_lets +onlyGivenNames x; apply keeps_cut (p := Keeps s0 x.2); (case' hp => (unfold x; clear x)); (case' k => (clear_value x; intro hx)))
    | extract_lets +onlyGivenNames x
    | (simp only [keeps_mk]; refine core_of ?_)
    | with_reducible apply State.correct_keeps
    | with_reducible apply State.makePending_keeps
    | with_reducible apply State.countBytes_keeps
    | with_reducible apply State.report_keeps
    | with_reducible apply State.bump_keeps
    | split

theorem execScrubStep_keeps {s0 : State} (dt : Nat) (stack : Nat) (finding : ScrubFinding) {s : State} (h : Keeps s0 s) : Outcome.all (Keeps s0) (execScrubStep dt stack finding s) := by
  unfold execScrubStep
  repeat' first
    | with_reducible assumption
    | intro _
    | (extract_lets +onlyGivenNames x; apply keeps_cut (p := Keeps s0 x); (case' hp => (unfold x; clear x)); (case' k => (clear_value x; intro hx)))
    | (extract_lets +onlyGivenNames x; apply keeps_cut (p := Keeps s0 x.2); (case' hp => (unfold x; clear x)); (case' k => (clear_value x; intro hx)))
    | extract_lets +onlyGivenNames x
    | with_reducible apply outcome_next
    | with_reducible apply State.tick_keeps
    | with_reducible apply State.scrubRead_keeps
    | with_reducible apply State.bump_keeps
    | with_reducible apply State.scrubNext_keeps
    | with_reducible apply State.upset_keeps
    | (with_reducible apply keeps_foldl; intro _ _ _)
    | (with_reducible apply keeps_foldl_snd; intro _ _ _)
    | split

theorem State.retire_keeps {s0 : State} {s : State} (page : Nat) (h : Keeps s0 s) : Keeps s0 (State.retire s page) := by
  unfold State.retire
  split
  · exact h
  · exact State.report_keeps _ (keeps_mk.2 (core_cells h (Map.wf_filter _)))

theorem State.retirePending_keeps {s0 : State} {s : State} (h : Keeps s0 s) : Keeps s0 (State.retirePending s) := by
  unfold State.retirePending
  repeat' first
    | with_reducible assumption
    | extract_lets +onlyGivenNames x
    | with_reducible apply State.retire_keeps
    | with_reducible apply State.report_keeps
    | (with_reducible apply keeps_foldl; intro _ _ _)
    | split

theorem State.retireNow_keeps {s0 : State} {s : State} (page : Nat) (h : Keeps s0 s) : Keeps s0 (State.retireNow s page).2 := by
  unfold State.retireNow
  repeat' first
    | with_reducible assumption
    | extract_lets +onlyGivenNames x
    | with_reducible apply State.setNum_keeps
    | with_reducible apply State.retire_keeps
    | split

theorem State.zeroMemory_keeps {s0 : State} {s : State} (h : Keeps s0 s) : Keeps s0 (State.zeroMemory s) := by
  unfold State.zeroMemory
  exact keeps_mk.2 (core_cells (keeps_foldl (fun _ _ k => State.bump_keeps _ _ k) _ h) fun _ => rfl)

theorem execStackTempSample_keeps {s0 : State} (dt : Nat) (stack : Nat) (temp : Int) {s : State} (h : Keeps s0 s) : Outcome.all (Keeps s0) (execStackTempSample dt stack temp s) := by
  unfold execStackTempSample
  repeat' first
    | with_reducible assumption
    | (extract_lets +onlyGivenNames x; apply keeps_cut (p := Keeps s0 x); (case' hp => (unfold x; clear x)); (case' k => (clear_value x; intro hx)))
    | extract_lets +onlyGivenNames x
    | (simp only [keeps_mk]; refine core_of ?_)
    | with_reducible apply outcome_next
    | with_reducible apply State.tick_keeps
    | with_reducible apply State.setNum_keeps
    | with_reducible apply State.trip_keeps
    | with_reducible apply State.deviceReport_keeps
    | split

theorem execSramScrub_keeps {s0 : State} (dt : Nat) (address : Nat) (struck : List Nat) {s : State} (h : Keeps s0 s) : Outcome.all (Keeps s0) (execSramScrub dt address struck s) := by
  unfold execSramScrub
  repeat' first
    | with_reducible assumption
    | intro _
    | (extract_lets +onlyGivenNames x; apply keeps_cut (p := Keeps s0 x); (case' hp => (unfold x; clear x)); (case' k => (clear_value x; intro hx)))
    | (extract_lets +onlyGivenNames x; apply keeps_cut (p := Keeps s0 x.2); (case' hp => (unfold x; clear x)); (case' k => (clear_value x; intro hx)))
    | extract_lets +onlyGivenNames x
    | (simp only [keeps_mk]; refine core_of ?_)
    | with_reducible apply outcome_next
    | with_reducible apply State.tick_keeps
    | with_reducible apply State.report_keeps
    | (with_reducible apply keeps_foldl; intro _ _ _)
    | split

end Sys2Proof.Machine
end

