-- ==== Sys2Proof/Laws/KeepsFlags.lean ====
section
/-! SUPPORT. Every operation of Machine/Flags.lean keeps (`Keeps`). -/
set_option linter.tactic.unusedName false
set_option linter.unusedVariables false
set_option linter.unusedSimpArgs false
namespace Sys2Proof.Machine

theorem State.setPaused_keeps {s0 : State} {s : State} (code : Nat) (b : Bool) (h : Keeps s0 s) : Keeps s0 (State.setPaused s code b) := by
  unfold State.setPaused
  repeat' first
    | with_reducible assumption
    | extract_lets +onlyGivenNames x
    | with_reducible apply State.setEngine_keeps
    | (with_reducible apply keeps_foldl; intro _ _ _)

theorem State.countSuspicion_keeps {s0 : State} {s : State} (code : Nat) (h : Keeps s0 s) : Keeps s0 (State.countSuspicion s code) := by
  unfold State.countSuspicion
  repeat' first
    | with_reducible assumption
    | extract_lets +onlyGivenNames x
    | with_reducible apply State.durable_keeps
    | with_reducible apply State.setNum_keeps
    | split

theorem State.exhausted_keeps {s0 : State} {s : State} (code : Nat) (h : Keeps s0 s) : Keeps s0 (State.exhausted s code) := by
  unfold State.exhausted
  repeat' first
    | with_reducible assumption
    | extract_lets +onlyGivenNames x
    | with_reducible apply State.fence__keeps
    | with_reducible apply State.report_keeps
    | with_reducible apply State.serviceRequired_keeps
    | with_reducible apply State.durable_keeps
    | with_reducible apply State.setNum_keeps
    | split

theorem State.makeSuspect_keeps {s0 : State} {s : State} (code : Nat) (h : Keeps s0 s) : Keeps s0 (State.makeSuspect s code) := by
  unfold State.makeSuspect
  repeat' first
    | with_reducible assumption
    | (extract_lets +onlyGivenNames x; apply keeps_cut (p := Keeps s0 x); (case' hp => (unfold x; clear x)); (case' k => (clear_value x; intro hx)))
    | extract_lets +onlyGivenNames x
    | (simp only [keeps_mk]; refine core_of ?_)
    | with_reducible apply State.countSuspicion_keeps
    | with_reducible apply State.exhausted_keeps
    | with_reducible apply State.setPaused_keeps
    | split

theorem State.parityFault_keeps {s0 : State} {s : State} (c : Cmd) (u : UnitId) (h : Keeps s0 s) : Keeps s0 (State.parityFault s c u) := by
  unfold State.parityFault
  repeat' first
    | with_reducible assumption
    | extract_lets +onlyGivenNames x
    | with_reducible apply State.makeSuspect_keeps
    | with_reducible apply State.cmdFault_keeps

end Sys2Proof.Machine
end

