-- ==== Sys2Proof/Laws/KeepsStream.lean ====
section
/-! SUPPORT. Every operation of Machine/Stream.lean keeps (`Keeps`). -/
set_option linter.tactic.unusedName false
set_option linter.unusedVariables false
set_option linter.unusedSimpArgs false
namespace Sys2Proof.Machine

theorem State.armFinish_keeps {s0 : State} {s : State} (c : Cmd) (h : Keeps s0 s) : Keeps s0 (State.armFinish s c) := by
  unfold State.armFinish
  repeat' first
    | with_reducible assumption
    | (extract_lets +onlyGivenNames x; apply keeps_cut (p := Keeps s0 x); (case' hp => (unfold x; clear x)); (case' k => (clear_value x; intro hx)))
    | with_reducible apply State.signal_keeps
    | with_reducible apply State.setCmd_keeps
    | split

theorem State.armStatus_keeps {s0 : State} {s : State} (core : Nat) (c : Cmd) (h : Keeps s0 s) : Keeps s0 (State.armStatus s core c) := by
  unfold State.armStatus
  repeat' first
    | with_reducible assumption
    | extract_lets +onlyGivenNames x
    | (simp only [keeps_mk]; refine core_of ?_)
    | with_reducible apply State.armFinish_keeps
    | with_reducible apply State.needRanges_keeps
    | with_reducible apply State.illegal_keeps
    | with_reducible apply State.write_keeps
    | with_reducible apply State.cmdFault_keeps
    | with_reducible apply State.hostBytes_keeps
    | with_reducible apply State.putHost_keeps
    | with_reducible apply State.remoteFailed_keeps
    | with_reducible apply State.sendRemote_keeps
    | (with_reducible refine keeps_of_fault (by assumption) ?_)
    | (with_reducible refine keeps_of_pair (by assumption) ?_)
    | (with_reducible refine keeps_of_ready (by assumption) ?_)
    | (with_reducible refine keeps_of_wait (by assumption) ?_)
    | split

theorem State.armEnd_keeps {s0 : State} {s : State} (core : Nat) (id : Nat) (status : Nat) (tiles : Nat) (xh : Nat) (hh : Nat) (moved : Nat) (h : Keeps s0 s) : Keeps s0 (State.armEnd s core id status tiles xh hh moved) := by
  unfold State.armEnd
  repeat' first
    | with_reducible assumption
    | extract_lets +onlyGivenNames x
    | with_reducible apply State.armStatus_keeps
    | with_reducible apply State.setCmd_keeps
    | split

theorem State.activate_keeps {s0 : State} {s : State} (core : Nat) (slot : Nat) (d : Desc) (h : Keeps s0 s) : Keeps s0 (State.activate s core slot d) := by
  unfold State.activate
  repeat' first
    | with_reducible assumption
    | with_reducible apply State.setStreamSlot_keeps
    | with_reducible apply State.illegal_keeps
    | split

theorem State.descDone_keeps {s0 : State} {s : State} (core : Nat) (slot : Nat) (d : Desc) (status : Nat) (h : Keeps s0 s) : Keeps s0 (State.descDone s core slot d status) := by
  unfold State.descDone
  repeat' first
    | with_reducible assumption
    | (extract_lets +onlyGivenNames x; apply keeps_cut (p := Keeps s0 x); (case' hp => (unfold x; clear x)); (case' k => (clear_value x; intro hx)))
    | extract_lets +onlyGivenNames x
    | with_reducible apply State.setStreamSlot_keeps
    | with_reducible apply State.armEnd_keeps
    | with_reducible apply State.activate_keeps
    | split

theorem State.armRefused_keeps {s0 : State} {s : State} (core : Nat) (c : Cmd) (h : Keeps s0 s) : Keeps s0 (State.armRefused s core c) := by
  unfold State.armRefused
  repeat' first
    | with_reducible assumption
    | extract_lets +onlyGivenNames x
    | with_reducible apply State.armEnd_keeps
    | with_reducible apply State.bump_keeps

theorem State.armTakes_keeps {s0 : State} {s : State} (core : Nat) (c : Cmd) (b : Bytes) (h : Keeps s0 s) : Keeps s0 (State.armTakes s core c b) := by
  unfold State.armTakes
  repeat' first
    | with_reducible assumption
    | extract_lets +onlyGivenNames x
    | with_reducible apply State.activate_keeps
    | with_reducible apply State.setCmd_keeps
    | with_reducible apply State.setStreamSlot_keeps
    | with_reducible apply State.armRefused_keeps
    | split

theorem State.armRead_keeps {s0 : State} {s : State} (core : Nat) (c : Cmd) (h : Keeps s0 s) : Keeps s0 (State.armRead s core c) := by
  unfold State.armRead
  obtain ⟨f1, e1, k1⟩ : ∃ f1, f1 = @State.read ∧ (∀ {s : State} (acc : Access) (a : Nat) (n : Nat) (h : Keeps s0 s), Keeps s0 (f1 s acc a n).2) := ⟨_, rfl, @State.read_keeps s0⟩
  rw [← e1]
  clear e1
  repeat' first
    | with_reducible assumption
    | intro _
    | (extract_lets +onlyGivenNames x; apply keeps_cut (p := ∀ t (c : Cmd) (o : Nat), Keeps s0 t → Keeps s0 (x t c o)); (case' hp => (unfold x; clear x)); (case' k => (clear_value x; intro hx)))
    | (with_reducible refine keeps_of_fun3 (by assumption) ?_)
    | extract_lets +onlyGivenNames x
    | (simp only [keeps_mk]; refine core_of ?_)
    | with_reducible apply State.illegal_keeps
    | with_reducible apply k1
    | with_reducible apply State.armTakes_keeps
    | with_reducible apply State.cmdFault_keeps
    | with_reducible apply State.needRanges_keeps
    | with_reducible apply State.takeHost_keeps
    | with_reducible apply State.hostBytes_keeps
    | with_reducible apply State.askHost_keeps
    | with_reducible apply State.remoteFailed_keeps
    | with_reducible apply State.sendRemote_keeps
    | (with_reducible refine keeps_of_fault (by assumption) ?_)
    | (with_reducible refine keeps_of_pair (by assumption) ?_)
    | (with_reducible refine keeps_of_ready (by assumption) ?_)
    | (with_reducible refine keeps_of_some_snd (by assumption) ?_)
    | (with_reducible refine keeps_of_wait (by assumption) ?_)
    | split

theorem execStreamArm_keeps {s0 : State} (dt : Nat) (core : Nat) {s : State} (h : Keeps s0 s) : Outcome.all (Keeps s0) (execStreamArm dt core s) := by
  unfold execStreamArm
  repeat' first
    | with_reducible assumption
    | (extract_lets +onlyGivenNames x; apply keeps_cut (p := Keeps s0 x); (case' hp => (unfold x; clear x)); (case' k => (clear_value x; intro hx)))
    | extract_lets +onlyGivenNames x
    | with_reducible apply outcome_next
    | with_reducible apply State.tick_keeps
    | with_reducible apply State.armStatus_keeps
    | with_reducible apply State.illegal_keeps
    | with_reducible apply State.armRead_keeps
    | split

theorem State.setRegulator_keeps {s0 : State} {s : State} (core : Nat) (r : Regulator) (h : Keeps s0 s) : Keeps s0 (State.setRegulator s core r) := by
  unfold State.setRegulator
  repeat' first
    | with_reducible assumption
    | extract_lets +onlyGivenNames x
    | (simp only [keeps_mk]; refine core_of ?_)

theorem State.takeTokens_keeps {s0 : State} {s : State} (core : Nat) (slot : Nat) (n : Nat) (h : Keeps s0 s) : Keeps s0 (State.takeTokens s core slot n) := by
  unfold State.takeTokens
  repeat' first
    | with_reducible assumption
    | intro _
    | (extract_lets +onlyGivenNames x; apply keeps_cut (p := Keeps s0 x); (case' hp => (unfold x; clear x)); (case' k => (clear_value x; intro hx)))
    | (extract_lets +onlyGivenNames x; apply keeps_cut (p := Keeps s0 x.2); (case' hp => (unfold x; clear x)); (case' k => (clear_value x; intro hx)))
    | extract_lets +onlyGivenNames x
    | (simp only [keeps_mk]; refine core_of ?_)
    | with_reducible apply State.request_keeps
    | with_reducible apply State.endWait_keeps
    | with_reducible apply State.setRegulator_keeps
    | split

theorem State.awaitTokens_keeps {s0 : State} {s : State} (core : Nat) (slot : Nat) (n : Nat) (h : Keeps s0 s) : Keeps s0 (State.awaitTokens s core slot n) := by
  unfold State.awaitTokens
  repeat' first
    | with_reducible assumption
    | intro _
    | (extract_lets +onlyGivenNames x; apply keeps_cut (p := Keeps s0 x); (case' hp => (unfold x; clear x)); (case' k => (clear_value x; intro hx)))
    | (extract_lets +onlyGivenNames x; apply keeps_cut (p := Keeps s0 x.2); (case' hp => (unfold x; clear x)); (case' k => (clear_value x; intro hx)))
    | extract_lets +onlyGivenNames x
    | (simp only [keeps_mk]; refine core_of ?_)
    | with_reducible apply State.request_keeps
    | with_reducible apply State.setRegulator_keeps
    | split

theorem State.notePeakTags_keeps {s0 : State} {s : State} (core : Nat) (n : Nat) (h : Keeps s0 s) : Keeps s0 (State.notePeakTags s core n) := by
  unfold State.notePeakTags
  repeat' first
    | with_reducible assumption
    | intro _
    | with_reducible apply State.setNum_keeps
    | split

theorem execStreamRegulate_keeps {s0 : State} (dt : Nat) (core : Nat) {s : State} (h : Keeps s0 s) : Outcome.all (Keeps s0) (execStreamRegulate dt core s) := by
  unfold execStreamRegulate
  repeat' first
    | with_reducible assumption
    | (extract_lets +onlyGivenNames x; apply keeps_cut (p := Keeps s0 x); (case' hp => (unfold x; clear x)); (case' k => (clear_value x; intro hx)))
    | extract_lets +onlyGivenNames x
    | with_reducible apply outcome_next
    | with_reducible apply State.tick_keeps
    | with_reducible apply State.illegal_keeps
    | with_reducible apply State.setCmd_keeps
    | with_reducible apply State.setRegulator_keeps
    | split

theorem State.haltHost_keeps {s0 : State} {s : State} (core : Nat) (slot : Nat) (t : Nat) (h : Keeps s0 s) : Keeps s0 (State.haltHost s core slot t) := by
  unfold State.haltHost
  repeat' first
    | with_reducible assumption
    | intro _
    | (extract_lets +onlyGivenNames x; apply keeps_cut (p := Keeps s0 x); (case' hp => (unfold x; clear x)); (case' k => (clear_value x; intro hx)))
    | (extract_lets +onlyGivenNames x; apply keeps_cut (p := Keeps s0 x.2); (case' hp => (unfold x; clear x)); (case' k => (clear_value x; intro hx)))
    | extract_lets +onlyGivenNames x
    | (simp only [keeps_mk]; refine core_of ?_)
    | with_reducible apply RowsRun.state_keeps
    | with_reducible apply State.dropRequests_keeps
    | with_reducible apply State.blur_keeps
    | with_reducible apply State.setCmd_keeps
    | with_reducible apply State.hostLost_keeps
    | with_reducible apply State.bump_keeps
    | with_reducible apply State.setStreamSlot_keeps
    | (with_reducible refine keeps_of_pair (by assumption) ?_)
    | (with_reducible refine keeps_of_some_snd (by assumption) ?_)
    | (with_reducible refine keeps_of_some_fst (by assumption) ?_)
    | split

theorem State.timeTile_keeps {s0 : State} {s : State} (core : Nat) (slot : Nat) (d : Desc) (c : Cmd) (h : Keeps s0 s) : Keeps s0 (State.timeTile s core slot d c) := by
  unfold State.timeTile
  repeat' first
    | with_reducible assumption
    | (extract_lets +onlyGivenNames x; apply keeps_cut (p := Keeps s0 x); (case' hp => (unfold x; clear x)); (case' k => (clear_value x; intro hx)))
    | extract_lets +onlyGivenNames x
    | with_reducible apply State.setStreamSlot_keeps
    | with_reducible apply State.setCmd_keeps
    | split

theorem execStreamTile_keeps {s0 : State} (dt : Nat) (core : Nat) (slot : Nat) {s : State} (h : Keeps s0 s) : Outcome.all (Keeps s0) (execStreamTile dt core slot s) := by
  unfold execStreamTile
  repeat' first
    | with_reducible assumption
    | (extract_lets +onlyGivenNames x; apply keeps_cut (p := Keeps s0 x); (case' hp => (unfold x; clear x)); (case' k => (clear_value x; intro hx)))
    | extract_lets +onlyGivenNames x
    | with_reducible apply outcome_next
    | with_reducible apply State.tick_keeps
    | with_reducible apply State.timeTile_keeps
    | with_reducible apply State.needRanges_keeps
    | with_reducible apply State.illegal_keeps
    | with_reducible apply State.haltHost_keeps
    | with_reducible apply State.setStreamSlot_keeps
    | (with_reducible refine keeps_of_fault (by assumption) ?_)
    | (with_reducible refine keeps_of_ready (by assumption) ?_)
    | (with_reducible refine keeps_of_wait (by assumption) ?_)
    | split

theorem State.readPart_keeps {s0 : State} {s : State} (core : Nat) (slot : Nat) (key : Nat) (c : Cmd) (p : StreamPart) (h : Keeps s0 s) : Keeps s0 (State.readPart s core slot key c p).2 := by
  unfold State.readPart
  repeat' first
    | with_reducible assumption
    | intro _
    | (extract_lets +onlyGivenNames x; apply keeps_cut (p := Keeps s0 x); (case' hp => (unfold x; clear x)); (case' k => (clear_value x; intro hx)))
    | (extract_lets +onlyGivenNames x; apply keeps_cut (p := Keeps s0 x.2); (case' hp => (unfold x; clear x)); (case' k => (clear_value x; intro hx)))
    | extract_lets +onlyGivenNames x
    | (simp only [keeps_mk]; refine core_of ?_)
    | with_reducible apply State.cmdFault_keeps
    | with_reducible apply State.read_keeps
    | with_reducible apply RowsRun.read_keeps
    | with_reducible apply State.sendRemote_keeps
    | with_reducible apply State.remoteFailed_keeps
    | with_reducible apply State.askHost_keeps
    | (with_reducible refine keeps_of_pair (by assumption) ?_)
    | (with_reducible refine keeps_of_triple (by assumption) ?_)
    | (with_reducible refine keeps_of_some_snd (by assumption) ?_)
    | (with_reducible refine keeps_of_some_fst (by assumption) ?_)
    | with_reducible apply someAll_none
    | with_reducible apply someAll_some
    | split

theorem State.readParts_keeps {s0 : State} {s : State} (core : Nat) (slot : Nat) (key : Nat) (c : Cmd) (x5 : List StreamPart) (h : Keeps s0 s) : Keeps s0 (State.readParts s core slot key c x5).2 := by
  induction x5 generalizing s core slot key c with
  | nil =>
    unfold State.readParts
    repeat' first
      | with_reducible assumption
      | intro _
      | (extract_lets +onlyGivenNames x; apply keeps_cut (p := Keeps s0 x); (case' hp => (unfold x; clear x)); (case' k => (clear_value x; intro hx)))
      | (extract_lets +onlyGivenNames x; apply keeps_cut (p := Keeps s0 x.2); (case' hp => (unfold x; clear x)); (case' k => (clear_value x; intro hx)))
      | extract_lets +onlyGivenNames x
      | (simp only [keeps_mk]; refine core_of ?_)
      | with_reducible apply State.readPart_keeps
      | (with_reducible refine keeps_of_pair (by assumption) ?_)
      | (with_reducible refine keeps_of_triple (by assumption) ?_)
      | (with_reducible refine keeps_of_some_snd (by assumption) ?_)
      | (with_reducible refine keeps_of_some_fst (by assumption) ?_)
      | with_reducible apply someAll_none
      | with_reducible apply someAll_some
      | split
  | cons a rest ih =>
    unfold State.readParts
    repeat' first
      | with_reducible assumption
      | with_reducible apply ih
      | intro _
      | (extract_lets +onlyGivenNames x; apply keeps_cut (p := Keeps s0 x); (case' hp => (unfold x; clear x)); (case' k => (clear_value x; intro hx)))
      | (extract_lets +onlyGivenNames x; apply keeps_cut (p := Keeps s0 x.2); (case' hp => (unfold x; clear x)); (case' k => (clear_value x; intro hx)))
      | extract_lets +onlyGivenNames x
      | (simp only [keeps_mk]; refine core_of ?_)
      | with_reducible apply State.readPart_keeps
      | (with_reducible refine keeps_of_pair (by assumption) ?_)
      | (with_reducible refine keeps_of_triple (by assumption) ?_)
      | (with_reducible refine keeps_of_some_snd (by assumption) ?_)
      | (with_reducible refine keeps_of_some_fst (by assumption) ?_)
      | with_reducible apply someAll_none
      | with_reducible apply someAll_some
      | split

theorem State.joinRequest_keeps {s0 : State} {s : State} (d : Desc) (q : StreamReq) (h : Keeps s0 s) : Keeps s0 (State.joinRequest s d q) := by
  unfold State.joinRequest
  repeat' first
    | with_reducible assumption
    | intro _
    | (extract_lets +onlyGivenNames x; apply keeps_cut (p := Keeps s0 x); (case' hp => (unfold x; clear x)); (case' k => (clear_value x; intro hx)))
    | (extract_lets +onlyGivenNames x; apply keeps_cut (p := Keeps s0 x.2); (case' hp => (unfold x; clear x)); (case' k => (clear_value x; intro hx)))
    | extract_lets +onlyGivenNames x
    | (simp only [keeps_mk]; refine core_of ?_)
    | with_reducible apply State.request_keeps
    | with_reducible apply State.write_keeps
    | with_reducible apply State.blur_keeps
    | with_reducible apply State.setStreamSlot_keeps
    | (with_reducible apply keeps_foldl; intro _ _ _)
    | (with_reducible apply keeps_foldl_snd; intro _ _ _)
    | split

theorem State.issuedOne_keeps {s0 : State} {s : State} (core : Nat) (slot : Nat) (n : Nat) (h : Keeps s0 s) : Keeps s0 (State.issuedOne s core slot n) := by
  unfold State.issuedOne
  repeat' first
    | with_reducible assumption
    | intro _
    | (extract_lets +onlyGivenNames x; apply keeps_cut (p := Keeps s0 x); (case' hp => (unfold x; clear x)); (case' k => (clear_value x; intro hx)))
    | (extract_lets +onlyGivenNames x; apply keeps_cut (p := Keeps s0 x.2); (case' hp => (unfold x; clear x)); (case' k => (clear_value x; intro hx)))
    | extract_lets +onlyGivenNames x
    | (simp only [keeps_mk]; refine core_of ?_)
    | with_reducible apply State.request_keeps
    | with_reducible apply State.notePeakTags_keeps
    | with_reducible apply State.takeTokens_keeps
    | with_reducible apply State.setCmd_keeps
    | with_reducible apply State.turn_keeps
    | with_reducible apply State.setStreamSlot_keeps
    | (with_reducible refine keeps_of_pair (by assumption) ?_)
    | (with_reducible refine keeps_of_some_snd (by assumption) ?_)
    | (with_reducible refine keeps_of_some_fst (by assumption) ?_)
    | with_reducible apply someAll_none
    | with_reducible apply someAll_some
    | split

theorem State.issueRequest_keeps {s0 : State} {s : State} (core : Nat) (slot : Nat) (d : Desc) (c : Cmd) (n : Nat) (h : Keeps s0 s) : Keeps s0 (State.issueRequest s core slot d c n) := by
  unfold State.issueRequest
  repeat' first
    | with_reducible assumption
    | intro _
    | (extract_lets +onlyGivenNames x; apply keeps_cut (p := Keeps s0 x); (case' hp => (unfold x; clear x)); (case' k => (clear_value x; intro hx)))
    | (extract_lets +onlyGivenNames x; apply keeps_cut (p := Keeps s0 x.2); (case' hp => (unfold x; clear x)); (case' k => (clear_value x; intro hx)))
    | extract_lets +onlyGivenNames x
    | (simp only [keeps_mk]; refine core_of ?_)
    | with_reducible apply State.request_keeps
    | with_reducible apply State.read_keeps
    | with_reducible apply State.issuedOne_keeps
    | with_reducible apply State.joinRequest_keeps
    | with_reducible apply State.readParts_keeps
    | with_reducible apply RowsRun.read_keeps
    | (with_reducible refine keeps_of_pair (by assumption) ?_)
    | (with_reducible refine keeps_of_some_snd (by assumption) ?_)
    | (with_reducible refine keeps_of_some_fst (by assumption) ?_)
    | with_reducible apply someAll_none
    | with_reducible apply someAll_some
    | split

theorem State.tookTurn_keeps {s0 : State} {s : State} (core : Nat) (slot : Nat) (lat : Bool) (h : Keeps s0 s) : Keeps s0 (State.tookTurn s core slot lat) := by
  unfold State.tookTurn
  repeat' first
    | with_reducible assumption
    | intro _
    | (extract_lets +onlyGivenNames x; apply keeps_cut (p := Keeps s0 x); (case' hp => (unfold x; clear x)); (case' k => (clear_value x; intro hx)))
    | (extract_lets +onlyGivenNames x; apply keeps_cut (p := Keeps s0 x.2); (case' hp => (unfold x; clear x)); (case' k => (clear_value x; intro hx)))
    | extract_lets +onlyGivenNames x
    | (simp only [keeps_mk]; refine core_of ?_)
    | with_reducible apply State.turn_keeps
    | with_reducible apply someAll_none
    | with_reducible apply someAll_some
    | split

theorem execStreamRequestIssue_keeps {s0 : State} (dt : Nat) (core : Nat) (slot : Nat) {s : State} (h : Keeps s0 s) : Outcome.all (Keeps s0) (execStreamRequestIssue dt core slot s) := by
  unfold execStreamRequestIssue
  repeat' first
    | with_reducible assumption
    | intro _
    | (extract_lets +onlyGivenNames x; apply keeps_cut (p := Keeps s0 x); (case' hp => (unfold x; clear x)); (case' k => (clear_value x; intro hx)))
    | (extract_lets +onlyGivenNames x; apply keeps_cut (p := Keeps s0 x.2); (case' hp => (unfold x; clear x)); (case' k => (clear_value x; intro hx)))
    | extract_lets +onlyGivenNames x
    | (simp only [keeps_mk]; refine core_of ?_)
    | with_reducible apply outcome_next
    | with_reducible apply State.request_keeps
    | with_reducible apply State.tookTurn_keeps
    | with_reducible apply State.issueRequest_keeps
    | with_reducible apply State.tick_keeps
    | with_reducible apply State.haltHost_keeps
    | with_reducible apply State.awaitTokens_keeps
    | with_reducible apply State.turn_keeps
    | (with_reducible refine keeps_of_pair (by assumption) ?_)
    | (with_reducible refine keeps_of_some_snd (by assumption) ?_)
    | (with_reducible refine keeps_of_some_fst (by assumption) ?_)
    | with_reducible apply someAll_none
    | with_reducible apply someAll_some
    | split

theorem State.performed_keeps {s0 : State} {s : State} (q : StreamReq) (h : Keeps s0 s) : Keeps s0 (State.performed s q) := by
  unfold State.performed
  repeat' first
    | with_reducible assumption
    | (extract_lets +onlyGivenNames x; apply keeps_cut (p := Keeps s0 x); (case' hp => (unfold x; clear x)); (case' k => (clear_value x; intro hx)))
    | extract_lets +onlyGivenNames x
    | (simp only [keeps_mk]; refine core_of ?_)
    | with_reducible apply State.bump_keeps
    | with_reducible apply State.setCmd_keeps
    | with_reducible apply State.setStreamSlot_keeps
    | with_reducible apply State.descDone_keeps
    | split

theorem State.performWrite_keeps {s0 : State} {s : State} (q : StreamReq) (c : Cmd) (b : Bytes) (h : Keeps s0 s) : Keeps s0 (State.performWrite s q c b) := by
  unfold State.performWrite
  repeat' first
    | with_reducible assumption
    | intro _
    | (extract_lets +onlyGivenNames x; apply keeps_cut (p := Keeps s0 x); (case' hp => (unfold x; clear x)); (case' k => (clear_value x; intro hx)))
    | (extract_lets +onlyGivenNames x; apply keeps_cut (p := Keeps s0 x.2); (case' hp => (unfold x; clear x)); (case' k => (clear_value x; intro hx)))
    | extract_lets +onlyGivenNames x
    | (simp only [keeps_mk]; refine core_of ?_)
    | with_reducible apply State.cmdFault_keeps
    | with_reducible apply State.request_keeps
    | with_reducible apply State.performed_keeps
    | with_reducible apply State.write_keeps
    | with_reducible apply State.sendRemote_keeps
    | with_reducible apply State.remoteFailed_keeps
    | with_reducible apply State.hostBytes_keeps
    | with_reducible apply State.putHost_keeps
    | with_reducible apply State.drawBytes_keeps
    | (with_reducible refine keeps_of_pair (by assumption) ?_)
    | (with_reducible refine keeps_of_some_snd (by assumption) ?_)
    | (with_reducible refine keeps_of_some_fst (by assumption) ?_)
    | split

theorem State.takeParts_keeps {s0 : State} {s : State} (q : StreamReq) (c : Cmd) (h : Keeps s0 s) : Keeps s0 (State.takeParts s q c).2 := by
  unfold State.takeParts
  repeat' first
    | with_reducible assumption
    | intro _
    | (extract_lets +onlyGivenNames x; apply keeps_cut (p := Keeps s0 x); (case' hp => (unfold x; clear x)); (case' k => (clear_value x; intro hx)))
    | (extract_lets +onlyGivenNames x; apply keeps_cut (p := Keeps s0 x.2); (case' hp => (unfold x; clear x)); (case' k => (clear_value x; intro hx)))
    | extract_lets +onlyGivenNames x
    | (simp only [keeps_mk]; refine core_of ?_)
    | with_reducible apply State.hostBytes_keeps
    | with_reducible apply State.takeHost_keeps
    | (with_reducible apply keeps_foldl; intro _ _ _)
    | (with_reducible apply keeps_foldl_snd; intro _ _ _)
    | (with_reducible refine keeps_of_pair (by assumption) ?_)
    | (with_reducible refine keeps_of_triple (by assumption) ?_)
    | (with_reducible refine keeps_of_some_snd (by assumption) ?_)
    | (with_reducible refine keeps_of_some_fst (by assumption) ?_)
    | with_reducible apply someAll_none
    | with_reducible apply someAll_some
    | split

theorem execStreamWritePerformed_keeps {s0 : State} (dt : Nat) (core : Nat) (slot : Nat) (tile : Nat) (number : Nat) (parity : Bool) {s : State} (h : Keeps s0 s) : Outcome.all (Keeps s0) (execStreamWritePerformed dt core slot tile number parity s) := by
  unfold execStreamWritePerformed
  repeat' first
    | with_reducible assumption
    | intro _
    | (extract_lets +onlyGivenNames x; apply keeps_cut (p := Keeps s0 x); (case' hp => (unfold x; clear x)); (case' k => (clear_value x; intro hx)))
    | (extract_lets +onlyGivenNames x; apply keeps_cut (p := Keeps s0 x.2); (case' hp => (unfold x; clear x)); (case' k => (clear_value x; intro hx)))
    | extract_lets +onlyGivenNames x
    | (simp only [keeps_mk]; refine core_of ?_)
    | with_reducible apply outcome_next
    | with_reducible apply State.request_keeps
    | with_reducible apply State.takeParts_keeps
    | with_reducible apply State.performWrite_keeps
    | with_reducible apply State.performed_keeps
    | with_reducible apply State.write_keeps
    | with_reducible apply State.tick_keeps
    | with_reducible apply State.armFinish_keeps
    | with_reducible apply State.parityFault_keeps
    | (with_reducible refine keeps_of_pair (by assumption) ?_)
    | (with_reducible refine keeps_of_some_snd (by assumption) ?_)
    | (with_reducible refine keeps_of_some_fst (by assumption) ?_)
    | split

theorem State.abandonSlot_keeps {s0 : State} {s : State} (j : Nat) (core : Nat) (slot : Nat) (h : Keeps s0 s) : Keeps s0 (State.abandonSlot s j core slot) := by
  unfold State.abandonSlot
  repeat' first
    | with_reducible assumption
    | intro _
    | (extract_lets +onlyGivenNames x; apply keeps_cut (p := Keeps s0 x); (case' hp => (unfold x; clear x)); (case' k => (clear_value x; intro hx)))
    | (extract_lets +onlyGivenNames x; apply keeps_cut (p := Keeps s0 x.2); (case' hp => (unfold x; clear x)); (case' k => (clear_value x; intro hx)))
    | extract_lets +onlyGivenNames x
    | (simp only [keeps_mk]; refine core_of ?_)
    | with_reducible apply State.dropRequests_keeps
    | with_reducible apply State.descDone_keeps
    | with_reducible apply State.armEnd_keeps
    | with_reducible apply State.bump_keeps
    | with_reducible apply State.setStreamSlot_keeps
    | (with_reducible refine keeps_of_pair (by assumption) ?_)
    | (with_reducible refine keeps_of_some_snd (by assumption) ?_)
    | (with_reducible refine keeps_of_some_fst (by assumption) ?_)
    | split

theorem State.abandonArms_keeps {s0 : State} {s : State} (j : Nat) (h : Keeps s0 s) : Keeps s0 (State.abandonArms s j) := by
  unfold State.abandonArms
  repeat' first
    | with_reducible assumption
    | extract_lets +onlyGivenNames x
    | with_reducible apply State.abandonSlot_keeps
    | (with_reducible apply keeps_foldl; intro _ _ _)

theorem State.resumeHost_keeps {s0 : State} {s : State} (h : Keeps s0 s) : Keeps s0 (State.resumeHost s) := by
  unfold State.resumeHost
  repeat' first
    | with_reducible assumption
    | extract_lets +onlyGivenNames x
    | (simp only [keeps_mk]; refine core_of ?_)

end Sys2Proof.Machine
end

