-- ==== Sys2Proof/Laws/KeepsTenancy.lean ====
section
/-! SUPPORT. Every operation of Machine/Tenancy.lean keeps (`Keeps`). -/
set_option linter.tactic.unusedName false
set_option linter.unusedVariables false
set_option linter.unusedSimpArgs false
namespace Sys2Proof.Machine

theorem State.clearAccount_keeps {s0 : State} {s : State} (a : Nat) (h : Keeps s0 s) : Keeps s0 (State.clearAccount s a) := by
  unfold State.clearAccount
  repeat' first
    | with_reducible assumption
    | with_reducible apply State.clearNums_keeps

theorem State.clearBalances_keeps {s0 : State} {s : State} (h : Keeps s0 s) : Keeps s0 (State.clearBalances s) := by
  unfold State.clearBalances
  repeat' first
    | with_reducible assumption
    | (simp only [keeps_mk]; refine core_of ?_)

theorem State.clearBalance_keeps {s0 : State} {s : State} (j : Nat) (h : Keeps s0 s) : Keeps s0 (State.clearBalance s j) := by
  unfold State.clearBalance
  repeat' first
    | with_reducible assumption
    | (simp only [keeps_mk]; refine core_of ?_)

theorem State.clearFaultQueue_keeps {s0 : State} {s : State} (h : Keeps s0 s) : Keeps s0 (State.clearFaultQueue s) := by
  unfold State.clearFaultQueue
  repeat' first
    | with_reducible assumption
    | (extract_lets +onlyGivenNames x; apply keeps_cut (p := Keeps s0 x); (case' hp => (unfold x; clear x)); (case' k => (clear_value x; intro hx)))
    | extract_lets +onlyGivenNames x
    | (simp only [keeps_mk]; refine core_of ?_)
    | with_reducible apply State.clearNums_keeps

theorem State.freeJobs_keeps {s0 : State} {s : State} (h : Keeps s0 s) : Keeps s0 (State.freeJobs s) := by
  unfold State.freeJobs
  repeat' first
    | with_reducible assumption
    | intro _
    | (extract_lets +onlyGivenNames x; apply keeps_cut (p := Keeps s0 x); (case' hp => (unfold x; clear x)); (case' k => (clear_value x; intro hx)))
    | (extract_lets +onlyGivenNames x; apply keeps_cut (p := Keeps s0 x.2); (case' hp => (unfold x; clear x)); (case' k => (clear_value x; intro hx)))
    | extract_lets +onlyGivenNames x
    | with_reducible apply State.setNum_keeps
    | (with_reducible apply keeps_foldl; intro _ _ _)
    | (with_reducible apply keeps_foldl_snd; intro _ _ _)
    | split

theorem State.tenancyStart_keeps {s0 : State} {s : State} (owner : Nat) (h : Keeps s0 s) : Keeps s0 (State.tenancyStart s owner).2 := by
  unfold State.tenancyStart
  repeat' first
    | with_reducible assumption
    | (extract_lets +onlyGivenNames x; apply keeps_cut (p := Keeps s0 x); (case' hp => (unfold x; clear x)); (case' k => (clear_value x; intro hx)))
    | extract_lets +onlyGivenNames x
    | (simp only [keeps_mk]; refine core_of ?_)
    | with_reducible apply State.clearNums_keeps
    | with_reducible apply State.clearFaultQueue_keeps
    | with_reducible apply State.clearBalances_keeps
    | with_reducible apply State.clearAccount_keeps
    | with_reducible apply State.freeJobs_keeps
    | with_reducible apply State.setNum_keeps
    | with_reducible apply State.bump_keeps
    | with_reducible apply State.durable_keeps
    | (with_reducible apply keeps_foldl; intro _ _ _)
    | split

theorem State.closeJobs_keeps {s0 : State} {s : State} (h : Keeps s0 s) : Keeps s0 (State.closeJobs s) := by
  unfold State.closeJobs
  repeat' first
    | with_reducible assumption
    | extract_lets +onlyGivenNames x
    | with_reducible apply State.abandonArms_keeps
    | with_reducible apply State.setNum_keeps
    | (with_reducible apply keeps_foldl; intro _ _ _)
    | split

theorem State.tenancyEnd_keeps {s0 : State} {s : State} (arg : Nat) (h : Keeps s0 s) : Keeps s0 (State.tenancyEnd s arg).2 := by
  unfold State.tenancyEnd
  repeat' first
    | with_reducible assumption
    | (extract_lets +onlyGivenNames x; apply keeps_cut (p := Keeps s0 x); (case' hp => (unfold x; clear x)); (case' k => (clear_value x; intro hx)))
    | extract_lets +onlyGivenNames x
    | (simp only [keeps_mk]; refine core_of ?_)
    | with_reducible apply State.setNum_keeps
    | with_reducible apply State.closeJobs_keeps
    | split

theorem State.chargeUnit_keeps {s0 : State} {s : State} (u : Nat) (h : Keeps s0 s) : Keeps s0 (State.chargeUnit s u) := by
  unfold State.chargeUnit
  repeat' first
    | with_reducible assumption
    | (extract_lets +onlyGivenNames x; apply keeps_cut (p := Keeps s0 x); (case' hp => (unfold x; clear x)); (case' k => (clear_value x; intro hx)))
    | extract_lets +onlyGivenNames x
    | (simp only [keeps_mk]; refine core_of ?_)
    | with_reducible apply State.bump_keeps

theorem State.chargeApply_keeps {s0 : State} {s : State} (u : Nat) (h : Keeps s0 s) : Keeps s0 (State.chargeApply s u) := by
  unfold State.chargeApply
  repeat' first
    | with_reducible assumption
    | (extract_lets +onlyGivenNames x; apply keeps_cut (p := Keeps s0 x); (case' hp => (unfold x; clear x)); (case' k => (clear_value x; intro hx)))
    | (extract_lets +onlyGivenNames x; clear_value x)
    | with_reducible apply State.acct_keeps
    | (with_reducible apply keeps_foldl; intro _ _ _)
    | split

theorem State.stopEpochs_keeps {s0 : State} {s : State} (h : Keeps s0 s) : Keeps s0 (State.stopEpochs s) := by
  unfold State.stopEpochs
  repeat' first
    | with_reducible assumption
    | intro _
    | (extract_lets +onlyGivenNames x; apply keeps_cut (p := Keeps s0 x); (case' hp => (unfold x; clear x)); (case' k => (clear_value x; intro hx)))
    | (extract_lets +onlyGivenNames x; apply keeps_cut (p := Keeps s0 x.2); (case' hp => (unfold x; clear x)); (case' k => (clear_value x; intro hx)))
    | extract_lets +onlyGivenNames x
    | (simp only [keeps_mk]; refine core_of ?_)
    | with_reducible apply State.clearNums_keeps
    | with_reducible apply State.chargeApply_keeps
    | with_reducible apply State.chargeUnit_keeps
    | (with_reducible apply keeps_foldl; intro _ _ _)
    | (with_reducible apply keeps_foldl_snd; intro _ _ _)
    | split

theorem State.dropJobTags_keeps {s0 : State} {s : State} (h : Keeps s0 s) : Keeps s0 (State.dropJobTags s) := by
  unfold State.dropJobTags
  repeat' first
    | with_reducible assumption
    | extract_lets +onlyGivenNames x
    | (simp only [keeps_mk]; refine core_of ?_)
    | with_reducible apply State.bump_keeps

theorem execTenancyEndDrained_keeps {s0 : State} (dt : Nat) {s : State} (h : Keeps s0 s) : Outcome.all (Keeps s0) (execTenancyEndDrained dt s) := by
  unfold execTenancyEndDrained
  repeat' first
    | with_reducible assumption
    | (extract_lets +onlyGivenNames x; apply keeps_cut (p := Keeps s0 x); (case' hp => (unfold x; clear x)); (case' k => (clear_value x; intro hx)))
    | extract_lets +onlyGivenNames x
    | (simp only [keeps_mk]; refine core_of ?_)
    | with_reducible apply outcome_next
    | with_reducible apply State.tick_keeps
    | with_reducible apply State.dropJobTags_keeps
    | with_reducible apply State.stopEpochs_keeps
    | with_reducible apply State.retirePending_keeps
    | split

theorem execTenancyEndComplete_keeps {s0 : State} (dt : Nat) {s : State} (h : Keeps s0 s) : Outcome.all (Keeps s0) (execTenancyEndComplete dt s) := by
  unfold execTenancyEndComplete
  repeat' first
    | with_reducible assumption
    | (extract_lets +onlyGivenNames x; apply keeps_cut (p := Keeps s0 x); (case' hp => (unfold x; clear x)); (case' k => (clear_value x; intro hx)))
    | extract_lets +onlyGivenNames x
    | (simp only [keeps_mk]; refine core_of ?_)
    | with_reducible apply outcome_next
    | with_reducible apply State.tick_keeps
    | with_reducible apply State.freeJobs_keeps
    | with_reducible apply State.clearFaultQueue_keeps
    | with_reducible apply State.zeroMemory_keeps
    | with_reducible apply State.setNum_keeps
    | split

theorem State.jobOpens_keeps {s0 : State} {s : State} (j : Nat) (h : Keeps s0 s) : Keeps s0 (State.jobOpens s j).2 := by
  unfold State.jobOpens
  repeat' first
    | with_reducible assumption
    | (extract_lets +onlyGivenNames x; apply keeps_cut (p := Keeps s0 x); (case' hp => (unfold x; clear x)); (case' k => (clear_value x; intro hx)))
    | extract_lets +onlyGivenNames x
    | with_reducible apply State.setNum_keeps
    | with_reducible apply State.clearBalance_keeps
    | with_reducible apply State.clearAccount_keeps
    | split

theorem State.freeJob_keeps {s0 : State} {s : State} (j : Nat) (h : Keeps s0 s) : Keeps s0 (State.freeJob s j) := by
  unfold State.freeJob
  repeat' first
    | with_reducible assumption
    | (extract_lets +onlyGivenNames x; apply keeps_cut (p := Keeps s0 x); (case' hp => (unfold x; clear x)); (case' k => (clear_value x; intro hx)))
    | (simp only [keeps_mk]; refine core_of ?_)
    | with_reducible apply State.setNum_keeps

theorem State.jobCloses_keeps {s0 : State} {s : State} (j : Nat) (h : Keeps s0 s) : Keeps s0 (State.jobCloses s j).2 := by
  unfold State.jobCloses
  repeat' first
    | with_reducible assumption
    | extract_lets +onlyGivenNames x
    | with_reducible apply State.abandonArms_keeps
    | with_reducible apply State.setNum_keeps
    | with_reducible apply State.freeJob_keeps
    | split

theorem execJobCloseComplete_keeps {s0 : State} (dt : Nat) (j : Nat) {s : State} (h : Keeps s0 s) : Outcome.all (Keeps s0) (execJobCloseComplete dt j s) := by
  unfold execJobCloseComplete
  repeat' first
    | with_reducible assumption
    | (extract_lets +onlyGivenNames x; apply keeps_cut (p := Keeps s0 x); (case' hp => (unfold x; clear x)); (case' k => (clear_value x; intro hx)))
    | extract_lets +onlyGivenNames x
    | with_reducible apply outcome_next
    | with_reducible apply State.tick_keeps
    | with_reducible apply State.setNum_keeps
    | with_reducible apply State.freeJob_keeps
    | with_reducible apply State.bump_keeps
    | with_reducible apply State.dropTag_keeps
    | split

theorem execInvalidationComplete_keeps {s0 : State} (dt : Nat) (tag : Nat) {s : State} (h : Keeps s0 s) : Outcome.all (Keeps s0) (execInvalidationComplete dt tag s) := by
  unfold execInvalidationComplete
  repeat' first
    | with_reducible assumption
    | intro _
    | (extract_lets +onlyGivenNames x; apply keeps_cut (p := Keeps s0 x); (case' hp => (unfold x; clear x)); (case' k => (clear_value x; intro hx)))
    | (extract_lets +onlyGivenNames x; apply keeps_cut (p := Keeps s0 x.2); (case' hp => (unfold x; clear x)); (case' k => (clear_value x; intro hx)))
    | extract_lets +onlyGivenNames x
    | (simp only [keeps_mk]; refine core_of ?_)
    | with_reducible apply outcome_next
    | with_reducible apply State.performed_keeps
    | with_reducible apply State.invalDone_keeps
    | with_reducible apply State.dropTag_keeps
    | with_reducible apply State.tick_keeps
    | with_reducible apply State.complete_keeps
    | with_reducible apply State.setNum_keeps
    | (with_reducible refine keeps_of_pair (by assumption) ?_)
    | (with_reducible refine keeps_of_some_snd (by assumption) ?_)
    | (with_reducible refine keeps_of_some_fst (by assumption) ?_)
    | split

theorem State.accountSnapshot_keeps {s0 : State} {s : State} (a : Nat) (h : Keeps s0 s) : Keeps s0 (State.accountSnapshot s a).2 := by
  unfold State.accountSnapshot
  repeat' first
    | with_reducible assumption
    | (extract_lets +onlyGivenNames x; apply keeps_cut (p := Keeps s0 x); (case' hp => (unfold x; clear x)); (case' k => (clear_value x; intro hx)))
    | extract_lets +onlyGivenNames x
    | with_reducible apply State.setNum_keeps
    | (with_reducible apply keeps_foldl; intro _ _ _)
    | split

end Sys2Proof.Machine
end

