-- ==== Sys2Proof/Laws/KeepsTables.lean ====
section
/-! SUPPORT. Every operation of Machine/Tables.lean keeps (`Keeps`). -/
set_option linter.tactic.unusedName false
set_option linter.unusedVariables false
set_option linter.unusedSimpArgs false
namespace Sys2Proof.Machine

theorem State.readCut_keeps {s0 : State} {s : State} (acc : Access) (x2 : List (Nat × Nat)) (h : Keeps s0 s) : Keeps s0 (State.readCut s acc x2).2 := by
  induction x2 generalizing s with
  | nil => exact h
  | cons a rest ih =>
    obtain ⟨a0, a1⟩ := a
    unfold State.readCut
    repeat' first
      | with_reducible assumption
      | extract_lets +onlyGivenNames x
      | (with_reducible refine keeps_of_fun (by assumption) ?_)
      | with_reducible apply State.read_keeps
      | (with_reducible refine keeps_of_pair (by assumption) ?_)
      | split

theorem State.writeCut_keeps {s0 : State} {s : State} (acc : Access) (x2 : List (Nat × Nat)) (x3 : Bytes) (h : Keeps s0 s) : Keeps s0 (State.writeCut s acc x2 x3).2 := by
  induction x2 generalizing s x3 with
  | nil => exact h
  | cons a rest ih =>
    obtain ⟨a0, a1⟩ := a
    unfold State.writeCut
    repeat' first
      | with_reducible assumption
      | extract_lets +onlyGivenNames x
      | with_reducible apply State.mergeWrite_keeps
      | with_reducible apply ih
      | (with_reducible refine keeps_of_pair (by assumption) ?_)
      | split

theorem State.readEntry_keeps {s0 : State} {s : State} (acc : Access) (t : Table) (row : Nat) (h : Keeps s0 s) : Keeps s0 (State.readEntry s acc t row).2 := by
  unfold State.readEntry
  repeat' first
    | with_reducible assumption
    | intro _
    | (extract_lets +onlyGivenNames x; apply keeps_cut (p := Keeps s0 x); (case' hp => (unfold x; clear x)); (case' k => (clear_value x; intro hx)))
    | (extract_lets +onlyGivenNames x; apply keeps_cut (p := Keeps s0 x.2); (case' hp => (unfold x; clear x)); (case' k => (clear_value x; intro hx)))
    | extract_lets +onlyGivenNames x
    | (simp only [keeps_mk]; refine core_of ?_)
    | with_reducible apply State.read_keeps
    | with_reducible apply RowsRun.read_keeps
    | (with_reducible refine keeps_of_pair (by assumption) ?_)
    | (with_reducible refine keeps_of_triple (by assumption) ?_)
    | (with_reducible refine keeps_of_some_snd (by assumption) ?_)
    | (with_reducible refine keeps_of_some_fst (by assumption) ?_)
    | split

theorem State.applyBad_keeps {s0 : State} {s : State} (u : Nat) (code : Nat) (h : Keeps s0 s) : Keeps s0 (State.applyBad s u code) := by
  unfold State.applyBad
  repeat' first
    | with_reducible assumption
    | with_reducible apply State.report_keeps

theorem State.touchCounter_keeps {s0 : State} {s : State} (t : Table) (tier : Nat) (slot : Nat) (h : Keeps s0 s) : Keeps s0 (State.touchCounter s t tier slot) := by
  unfold State.touchCounter
  repeat' first
    | with_reducible assumption
    | intro _
    | (extract_lets +onlyGivenNames x; apply keeps_cut (p := Keeps s0 x); (case' hp => (unfold x; clear x)); (case' k => (clear_value x; intro hx)))
    | (extract_lets +onlyGivenNames x; apply keeps_cut (p := Keeps s0 x.2); (case' hp => (unfold x; clear x)); (case' k => (clear_value x; intro hx)))
    | extract_lets +onlyGivenNames x
    | (simp only [keeps_mk]; refine core_of ?_)
    | with_reducible apply State.updateByte_keeps
    | with_reducible apply State.read_keeps
    | with_reducible apply RowsRun.read_keeps
    | with_reducible apply State.applyBad_keeps
    | (with_reducible refine keeps_of_pair (by assumption) ?_)
    | (with_reducible refine keeps_of_some_snd (by assumption) ?_)
    | (with_reducible refine keeps_of_some_fst (by assumption) ?_)
    | split

theorem State.countAccess_keeps {s0 : State} {s : State} (n : Nat) (tier : Nat) (slot : Nat) (row : Nat) (h : Keeps s0 s) : Keeps s0 (State.countAccess s n tier slot row) := by
  unfold State.countAccess
  repeat' first
    | with_reducible assumption
    | extract_lets +onlyGivenNames x
    | with_reducible apply State.touchCounter_keeps
    | with_reducible apply State.setTable_keeps
    | split

end Sys2Proof.Machine
end

