-- ==== Sys2Proof/Laws/KeepsChannel.lean ====
section
/-! SUPPORT. Every operation of Machine/Channel.lean keeps (`Keeps`). -/
set_option linter.tactic.unusedName false
set_option linter.unusedVariables false
set_option linter.unusedSimpArgs false
namespace Sys2Proof.Machine

theorem State.askChannel_keeps {s0 : State} {s : State} (ch : Nat) (kind : OpKind) (number : Nat) (owner : Nat) (h : Keeps s0 s) : Keeps s0 (State.askChannel s ch kind number owner) := by
  unfold State.askChannel
  repeat' first
    | with_reducible assumption
    | extract_lets +onlyGivenNames x
    | with_reducible apply State.setChannel_keeps
    | split

theorem State.freeChannel_keeps {s0 : State} {s : State} (ch : Nat) (kind : OpKind) (owner : Nat) (h : Keeps s0 s) : Keeps s0 (State.freeChannel s ch kind owner) := by
  unfold State.freeChannel
  repeat' first
    | with_reducible assumption
    | extract_lets +onlyGivenNames x
    | with_reducible apply State.bump_keeps
    | with_reducible apply State.setChannel_keeps
    | split

theorem State.leaveChannel_keeps {s0 : State} {s : State} (ch : Nat) (kind : OpKind) (owner : Nat) (h : Keeps s0 s) : Keeps s0 (State.leaveChannel s ch kind owner) := by
  unfold State.leaveChannel
  repeat' first
    | with_reducible assumption
    | extract_lets +onlyGivenNames x
    | with_reducible apply State.setChannel_keeps

theorem State.countTable_keeps {s0 : State} {s : State} (n : Nat) (k : Nat) (a : Nat) (h : Keeps s0 s) : Keeps s0 (State.countTable s n k a) := by
  unfold State.countTable
  repeat' first
    | with_reducible assumption
    | with_reducible apply State.setTable_keeps
    | split

end Sys2Proof.Machine
end

