-- ==== Sys2Proof/Laws/KeepsDirectory.lean ====
section
/-! SUPPORT. Every operation of Machine/Directory.lean keeps (`Keeps`). -/
set_option linter.tactic.unusedName false
set_option linter.unusedVariables false
set_option linter.unusedSimpArgs false
namespace Sys2Proof.Machine

theorem State.readSlot_keeps {s0 : State} {s : State} (acc : Access) (t : Table) (tier : Nat) (slot : Nat) (h : Keeps s0 s) : Keeps s0 (State.readSlot s acc t tier slot).2 := by
  unfold State.readSlot
  repeat' first
    | with_reducible assumption
    | with_reducible apply State.readCut_keeps

theorem State.writeCopies_keeps {s0 : State} {s : State} (acc : Access) (t : Table) (set : Nat) (data : Bytes) (h : Keeps s0 s) : Keeps s0 (State.writeCopies s acc t set data).2 := by
  unfold State.writeCopies
  obtain ⟨f0, e0, k0⟩ : ∃ f0, f0 = @State.write ∧ (∀ {s : State} (acc : Access) (a : Nat) (data : Bytes) (h : Keeps s0 s), Keeps s0 (f0 s acc a data).2) := ⟨_, rfl, @State.write_keeps s0⟩
  rw [← e0]
  clear e0
  repeat' first
    | with_reducible assumption
    | extract_lets +onlyGivenNames x
    | with_reducible apply k0
    | (with_reducible refine keeps_of_pair (by assumption) ?_)
    | (with_reducible apply keeps_foldl_snd; intro _ _ _)
    | split

/-- The state that placing a row carries. -/
def RowPut.all (p : State → Prop) : RowPut → Prop
  | .done s => p s
  | .noSlot s => p s
  | .bad _ s => p s

theorem put_done {p : State → Prop} {s : State} (h : p s) : (RowPut.done s).all p := h
theorem put_noSlot {p : State → Prop} {s : State} (h : p s) : (RowPut.noSlot s).all p := h
theorem put_bad {p : State → Prop} {s : State} {n : Nat} (h : p s) : (RowPut.bad n s).all p := h
theorem keeps_of_done {s0 t : State} {x : RowPut} (e : x = .done t) (h : x.all (Keeps s0)) : Keeps s0 t := by
  rw [e] at h; exact h
theorem keeps_of_noSlot {s0 t : State} {x : RowPut} (e : x = .noSlot t) (h : x.all (Keeps s0)) : Keeps s0 t := by
  rw [e] at h; exact h
theorem keeps_of_bad {s0 t : State} {x : RowPut} {n : Nat} (e : x = .bad n t) (h : x.all (Keeps s0)) : Keeps s0 t := by
  rw [e] at h; exact h

theorem State.placeRow_keeps {s0 : State} {s : State} (acc : Access) (n : Nat) (b : Nat) (tier : Nat) (data : Bytes) (h : Keeps s0 s) : RowPut.all (Keeps s0) (State.placeRow s acc n b tier data) := by
  unfold State.placeRow
  obtain ⟨f0, e0, k0⟩ : ∃ f0, f0 = @State.writeCut ∧ (∀ {s : State} (acc : Access) (x2 : List (Nat × Nat)) (x3 : Bytes) (h : Keeps s0 s), Keeps s0 (f0 s acc x2 x3).2) := ⟨_, rfl, @State.writeCut_keeps s0⟩
  rw [← e0]
  clear e0
  repeat' first
    | with_reducible assumption
    | extract_lets +onlyGivenNames x
    | with_reducible apply put_done
    | with_reducible apply put_noSlot
    | with_reducible apply put_bad
    | with_reducible apply k0
    | with_reducible apply State.setTable_keeps
    | (with_reducible refine keeps_of_pair (by assumption) ?_)
    | split

theorem State.putRow_keeps {s0 : State} {s : State} (acc : Access) (n : Nat) (r : Nat) (b : Nat) (tier : Nat) (data : Bytes) (h : Keeps s0 s) : RowPut.all (Keeps s0) (State.putRow s acc n r b tier data) := by
  unfold State.putRow
  obtain ⟨f0, e0, k0⟩ : ∃ f0, f0 = @State.writeCut ∧ (∀ {s : State} (acc : Access) (x2 : List (Nat × Nat)) (x3 : Bytes) (h : Keeps s0 s), Keeps s0 (f0 s acc x2 x3).2) := ⟨_, rfl, @State.writeCut_keeps s0⟩
  rw [← e0]
  clear e0
  obtain ⟨f1, e1, k1⟩ : ∃ f1, f1 = @State.writeCopies ∧ (∀ {s : State} (acc : Access) (t : Table) (set : Nat) (data : Bytes) (h : Keeps s0 s), Keeps s0 (f1 s acc t set data).2) := ⟨_, rfl, @State.writeCopies_keeps s0⟩
  rw [← e1]
  clear e1
  obtain ⟨f3, e3, k3⟩ : ∃ f3, f3 = @State.readEntry ∧ (∀ {s : State} (acc : Access) (t : Table) (row : Nat) (h : Keeps s0 s), Keeps s0 (f3 s acc t row).2) := ⟨_, rfl, @State.readEntry_keeps s0⟩
  rw [← e3]
  clear e3
  repeat' first
    | with_reducible assumption
    | intro _
    | (extract_lets +onlyGivenNames x; apply keeps_cut (p := ∀ t, Keeps s0 t → Keeps s0 (x t)); (case' hp => (unfold x; clear x)); (case' k => (clear_value x; intro hx)))
    | extract_lets +onlyGivenNames x
    | (with_reducible refine keeps_of_fun (by assumption) ?_)
    | with_reducible apply put_done
    | with_reducible apply put_bad
    | with_reducible apply k0
    | with_reducible apply k1
    | with_reducible apply State.setTable_keeps
    | with_reducible apply k3
    | with_reducible apply State.placeRow_keeps
    | (with_reducible refine keeps_of_done (by assumption) ?_)
    | (with_reducible refine keeps_of_pair (by assumption) ?_)
    | split

theorem State.releaseSlot_keeps {s0 : State} {s : State} (n : Nat) (tier : Nat) (slot : Nat) (h : Keeps s0 s) : Keeps s0 (State.releaseSlot s n tier slot) := by
  unfold State.releaseSlot
  repeat' first
    | with_reducible assumption
    | extract_lets +onlyGivenNames x
    | with_reducible apply State.setTable_keeps
    | split

theorem State.sendRefresh_keeps {s0 : State} {s : State} (n : Nat) (row : Nat) (tier : Nat) (data : Bytes) (h : Keeps s0 s) : Keeps s0 (State.sendRefresh s n row tier data) := by
  unfold State.sendRefresh
  repeat' first
    | with_reducible assumption
    | extract_lets +onlyGivenNames x
    | with_reducible apply State.offer_keeps
    | (with_reducible apply keeps_foldl; intro _ _ _)
    | split

theorem State.refreshRow_keeps {s0 : State} {s : State} (u : Nat) (n : Nat) (row : Nat) (b : Nat) (h : Keeps s0 s) : Keeps s0 (State.refreshRow s u n row b) := by
  unfold State.refreshRow
  obtain ⟨f0, e0, k0⟩ : ∃ f0, f0 = @State.readEntry ∧ (∀ {s : State} (acc : Access) (t : Table) (row : Nat) (h : Keeps s0 s), Keeps s0 (f0 s acc t row).2) := ⟨_, rfl, @State.readEntry_keeps s0⟩
  rw [← e0]
  clear e0
  obtain ⟨f2, e2, k2⟩ : ∃ f2, f2 = @State.readSlot ∧ (∀ {s : State} (acc : Access) (t : Table) (tier : Nat) (slot : Nat) (h : Keeps s0 s), Keeps s0 (f2 s acc t tier slot).2) := ⟨_, rfl, @State.readSlot_keeps s0⟩
  rw [← e2]
  clear e2
  obtain ⟨f3, e3, k3⟩ : ∃ f3, f3 = @State.writeCopies ∧ (∀ {s : State} (acc : Access) (t : Table) (set : Nat) (data : Bytes) (h : Keeps s0 s), Keeps s0 (f3 s acc t set data).2) := ⟨_, rfl, @State.writeCopies_keeps s0⟩
  rw [← e3]
  clear e3
  repeat' first
    | with_reducible assumption
    | extract_lets +onlyGivenNames x
    | with_reducible apply k0
    | with_reducible apply State.applyBad_keeps
    | with_reducible apply k2
    | with_reducible apply k3
    | with_reducible apply State.sendRefresh_keeps
    | with_reducible apply State.setTable_keeps
    | (with_reducible refine keeps_of_pair (by assumption) ?_)
    | split

theorem State.writeMoved_keeps {s0 : State} {s : State} (acc : Access) (n : Nat) (b : Nat) (tier : Nat) (slot : Nat) (data : Bytes) (h : Keeps s0 s) : Keeps s0 (State.writeMoved s acc n b tier slot data).2 := by
  unfold State.writeMoved
  obtain ⟨f0, e0, k0⟩ : ∃ f0, f0 = @State.writeCut ∧ (∀ {s : State} (acc : Access) (x2 : List (Nat × Nat)) (x3 : Bytes) (h : Keeps s0 s), Keeps s0 (f0 s acc x2 x3).2) := ⟨_, rfl, @State.writeCut_keeps s0⟩
  rw [← e0]
  clear e0
  repeat' first
    | with_reducible assumption
    | extract_lets +onlyGivenNames x
    | with_reducible apply k0
    | (with_reducible refine keeps_of_pair (by assumption) ?_)
    | split

theorem State.giveBack_keeps {s0 : State} {s : State} (n : Nat) (tier : Nat) (slot : Nat) (h : Keeps s0 s) : Keeps s0 (State.giveBack s n tier slot) := by
  unfold State.giveBack
  repeat' first
    | with_reducible assumption
    | with_reducible apply State.setTable_keeps

theorem State.moveRowTo_keeps {s0 : State} {s : State} (u : Nat) (n : Nat) (b : Nat) (tier : Nat) (slot : Nat) (h : Keeps s0 s) : Keeps s0 (State.moveRowTo s u n b tier slot) := by
  unfold State.moveRowTo
  repeat' first
    | with_reducible assumption
    | (extract_lets +onlyGivenNames x; apply keeps_cut (p := Keeps s0 x); (case' hp => (unfold x; clear x)); (case' k => (clear_value x; intro hx)))
    | extract_lets +onlyGivenNames x
    | with_reducible apply State.readEntry_keeps
    | with_reducible apply State.applyBad_keeps
    | with_reducible apply State.giveBack_keeps
    | with_reducible apply State.readSlot_keeps
    | with_reducible apply State.setTable_keeps
    | with_reducible apply State.writeMoved_keeps
    | with_reducible apply State.releaseSlot_keeps
    | with_reducible apply State.refreshRow_keeps
    | (with_reducible refine keeps_of_pair (by assumption) ?_)
    | split

theorem State.takeSlot_keeps {s0 : State} {s : State} (n : Nat) (tier : Nat) (h : Keeps s0 s) : someAll (fun x => Keeps s0 x.2) (State.takeSlot s n tier) := by
  unfold State.takeSlot
  dsimp only
  cases (s.table n).freeSlot tier with
  | none => trivial
  | some k => exact State.setTable_keeps _ _ h

theorem State.moveRow_keeps {s0 : State} {s : State} (u : Nat) (n : Nat) (b : Nat) (tier : Nat) (h : Keeps s0 s) : Keeps s0 (State.moveRow s u n b tier) := by
  unfold State.moveRow
  repeat' first
    | with_reducible assumption
    | extract_lets +onlyGivenNames x
    | with_reducible apply State.takeSlot_keeps
    | with_reducible apply State.moveRowTo_keeps
    | with_reducible apply State.setTable_keeps
    | (with_reducible refine keeps_of_some_snd (by assumption) ?_)
    | split

theorem State.payOwed_keeps {s0 : State} {s : State} (o : Owed) (status : Nat) (count : Nat) (h : Keeps s0 s) : Keeps s0 (State.payOwed s o status count) := by
  unfold State.payOwed
  repeat' first
    | with_reducible assumption
    | extract_lets +onlyGivenNames x
    | with_reducible apply State.write_keeps
    | with_reducible apply State.execFault_keeps
    | (with_reducible refine keeps_of_pair (by assumption) ?_)
    | split

theorem State.pay_keeps {s0 : State} {s : State} (o : Option Owed) (status : Nat) (count : Nat) (h : Keeps s0 s) : Keeps s0 (State.pay s o status count) := by
  unfold State.pay
  repeat' first
    | with_reducible assumption
    | with_reducible apply State.payOwed_keeps
    | split

theorem State.takePin_keeps {s0 : State} {s : State} (n : Nat) (c : Change) (b : Nat) (h : Keeps s0 s) : Keeps s0 (State.takePin s n c b).2 := by
  unfold State.takePin
  repeat' first
    | with_reducible assumption
    | intro _
    | (extract_lets +onlyGivenNames x; apply keeps_cut (p := Keeps s0 x); (case' hp => (unfold x; clear x)); (case' k => (clear_value x; intro hx)))
    | (extract_lets +onlyGivenNames x; apply keeps_cut (p := Keeps s0 x.2); (case' hp => (unfold x; clear x)); (case' k => (clear_value x; intro hx)))
    | extract_lets +onlyGivenNames x
    | (simp only [keeps_mk]; refine core_of ?_)
    | with_reducible apply State.moveRow_keeps
    | with_reducible apply State.setTable_keeps
    | split

theorem State.addReplica_keeps {s0 : State} {s : State} (n : Nat) (r : Nat) (h : Keeps s0 s) : someAll (fun x => Keeps s0 x.1) (State.addReplica s n r) := by
  unfold State.addReplica
  repeat' first
    | with_reducible assumption
    | (extract_lets +onlyGivenNames x; apply keeps_cut (p := Keeps s0 x); (case' hp => (unfold x; clear x)); (case' k => (clear_value x; intro hx)))
    | extract_lets +onlyGivenNames x
    | with_reducible apply someAll_some
    | with_reducible apply someAll_none
    | with_reducible apply State.setTable_keeps
    | with_reducible apply State.refreshRow_keeps
    | split

theorem State.takeReplicate_keeps {s0 : State} {s : State} (n : Nat) (c : Change) (r : Nat) (h : Keeps s0 s) : Keeps s0 (State.takeReplicate s n c r).2 := by
  unfold State.takeReplicate
  repeat' first
    | with_reducible assumption
    | intro _
    | (extract_lets +onlyGivenNames x; apply keeps_cut (p := Keeps s0 x); (case' hp => (unfold x; clear x)); (case' k => (clear_value x; intro hx)))
    | (extract_lets +onlyGivenNames x; apply keeps_cut (p := Keeps s0 x.2); (case' hp => (unfold x; clear x)); (case' k => (clear_value x; intro hx)))
    | extract_lets +onlyGivenNames x
    | (simp only [keeps_mk]; refine core_of ?_)
    | with_reducible apply State.addReplica_keeps
    | with_reducible apply State.releaseSlot_keeps
    | with_reducible apply State.setTable_keeps
    | (with_reducible refine keeps_of_pair (by assumption) ?_)
    | (with_reducible refine keeps_of_triple (by assumption) ?_)
    | (with_reducible refine keeps_of_some_snd (by assumption) ?_)
    | (with_reducible refine keeps_of_some_fst (by assumption) ?_)
    | with_reducible apply someAll_none
    | with_reducible apply someAll_some
    | split

theorem State.payChange_keeps {s0 : State} {s : State} (c : Change) (h : Keeps s0 s) : Keeps s0 (State.payChange s c) := by
  unfold State.payChange
  repeat' first
    | with_reducible assumption
    | intro _
    | with_reducible apply State.pay_keeps
    | with_reducible apply State.exhausted_keeps
    | split

theorem State.applyChange_keeps {s0 : State} {s : State} (n : Nat) (u : Option Nat) (c : Change) (h : Keeps s0 s) : Keeps s0 (State.applyChange s n u c) := by
  unfold State.applyChange
  repeat' first
    | with_reducible assumption
    | intro _
    | (extract_lets +onlyGivenNames x; apply keeps_cut (p := Keeps s0 x); (case' hp => (unfold x; clear x)); (case' k => (clear_value x; intro hx)))
    | (extract_lets +onlyGivenNames x; apply keeps_cut (p := Keeps s0 x.2); (case' hp => (unfold x; clear x)); (case' k => (clear_value x; intro hx)))
    | (extract_lets +onlyGivenNames x; apply keeps_cut (p := ∀ t, Keeps s0 t → Keeps s0 (x t)); (case' hp => (unfold x; clear x)); (case' k => (clear_value x; intro hx)))
    | (extract_lets +onlyGivenNames x; apply keeps_cut (p := ∀ t a, Keeps s0 t → Keeps s0 (x t a)); (case' hp => (unfold x; clear x)); (case' k => (clear_value x; intro hx)))
    | (extract_lets +onlyGivenNames x; apply keeps_cut (p := ∀ t a b, Keeps s0 t → Keeps s0 (x t a b)); (case' hp => (unfold x; clear x)); (case' k => (clear_value x; intro hx)))
    | extract_lets +onlyGivenNames x
    | (with_reducible refine keeps_of_fun (by assumption) ?_)
    | (with_reducible refine keeps_of_fun2 (by assumption) ?_)
    | (with_reducible refine keeps_of_fun3 (by assumption) ?_)
    | (simp only [keeps_mk]; refine core_of ?_)
    | with_reducible apply State.payChange_keeps
    | with_reducible apply State.takeReplicate_keeps
    | with_reducible apply State.takePin_keeps
    | with_reducible apply State.setTable_keeps
    | (with_reducible apply keeps_foldl; intro _ _ _)
    | (with_reducible apply keeps_foldl_snd; intro _ _ _)
    | split

theorem State.applyChanges_keeps {s0 : State} {s : State} (n : Nat) (u : Option Nat) (h : Keeps s0 s) : Keeps s0 (State.applyChanges s n u) := by
  unfold State.applyChanges
  repeat' first
    | with_reducible assumption
    | intro _
    | (extract_lets +onlyGivenNames x; apply keeps_cut (p := Keeps s0 x); (case' hp => (unfold x; clear x)); (case' k => (clear_value x; intro hx)))
    | (extract_lets +onlyGivenNames x; apply keeps_cut (p := Keeps s0 x.2); (case' hp => (unfold x; clear x)); (case' k => (clear_value x; intro hx)))
    | (extract_lets +onlyGivenNames x; apply keeps_cut (p := ∀ t, Keeps s0 t → Keeps s0 (x t)); (case' hp => (unfold x; clear x)); (case' k => (clear_value x; intro hx)))
    | (extract_lets +onlyGivenNames x; apply keeps_cut (p := ∀ t a, Keeps s0 t → Keeps s0 (x t a)); (case' hp => (unfold x; clear x)); (case' k => (clear_value x; intro hx)))
    | (extract_lets +onlyGivenNames x; apply keeps_cut (p := ∀ t a b, Keeps s0 t → Keeps s0 (x t a b)); (case' hp => (unfold x; clear x)); (case' k => (clear_value x; intro hx)))
    | extract_lets +onlyGivenNames x
    | (with_reducible refine keeps_of_fun (by assumption) ?_)
    | (with_reducible refine keeps_of_fun2 (by assumption) ?_)
    | (with_reducible refine keeps_of_fun3 (by assumption) ?_)
    | (simp only [keeps_mk]; refine core_of ?_)
    | with_reducible apply State.applyChange_keeps
    | with_reducible apply State.setTable_keeps
    | (with_reducible apply keeps_foldl; intro _ _ _)
    | split

theorem State.refreshDirty_keeps {s0 : State} {s : State} (n : Nat) (u : Nat) (h : Keeps s0 s) : Keeps s0 (State.refreshDirty s n u) := by
  unfold State.refreshDirty
  repeat' first
    | with_reducible assumption
    | intro _
    | (extract_lets +onlyGivenNames x; apply keeps_cut (p := Keeps s0 x); (case' hp => (unfold x; clear x)); (case' k => (clear_value x; intro hx)))
    | (extract_lets +onlyGivenNames x; apply keeps_cut (p := Keeps s0 x.2); (case' hp => (unfold x; clear x)); (case' k => (clear_value x; intro hx)))
    | (extract_lets +onlyGivenNames x; apply keeps_cut (p := ∀ t, Keeps s0 t → Keeps s0 (x t)); (case' hp => (unfold x; clear x)); (case' k => (clear_value x; intro hx)))
    | (extract_lets +onlyGivenNames x; apply keeps_cut (p := ∀ t a, Keeps s0 t → Keeps s0 (x t a)); (case' hp => (unfold x; clear x)); (case' k => (clear_value x; intro hx)))
    | (extract_lets +onlyGivenNames x; apply keeps_cut (p := ∀ t a b, Keeps s0 t → Keeps s0 (x t a b)); (case' hp => (unfold x; clear x)); (case' k => (clear_value x; intro hx)))
    | extract_lets +onlyGivenNames x
    | (with_reducible refine keeps_of_fun (by assumption) ?_)
    | (with_reducible refine keeps_of_fun2 (by assumption) ?_)
    | (with_reducible refine keeps_of_fun3 (by assumption) ?_)
    | (simp only [keeps_mk]; refine core_of ?_)
    | with_reducible apply State.refreshRow_keeps
    | with_reducible apply State.setTable_keeps
    | (with_reducible apply keeps_foldl; intro _ _ _)
    | (with_reducible apply keeps_foldl_snd; intro _ _ _)
    | (with_reducible refine keeps_of_pair (by assumption) ?_)
    | (with_reducible refine keeps_of_some_snd (by assumption) ?_)
    | (with_reducible refine keeps_of_some_fst (by assumption) ?_)
    | split

theorem State.exchange_keeps {s0 : State} {s : State} (a : Nat) (b : Nat) (h : Keeps s0 s) : Keeps s0 (State.exchange s a b) := by
  unfold State.exchange
  repeat' first
    | with_reducible assumption
    | (extract_lets +onlyGivenNames x; apply keeps_cut (p := Keeps s0 x); (case' hp => (unfold x; clear x)); (case' k => (clear_value x; intro hx)))
    | extract_lets +onlyGivenNames x
    | (simp only [keeps_mk]; refine core_of ?_)
    | with_reducible apply State.setTable_keeps
    | split

theorem State.swapDue_keeps {s0 : State} {s : State} (due : Swap → Bool) (h : Keeps s0 s) : Keeps s0 (State.swapDue s due) := by
  unfold State.swapDue
  repeat' first
    | with_reducible assumption
    | intro _
    | (extract_lets +onlyGivenNames x; apply keeps_cut (p := Keeps s0 x); (case' hp => (unfold x; clear x)); (case' k => (clear_value x; intro hx)))
    | (extract_lets +onlyGivenNames x; apply keeps_cut (p := Keeps s0 x.2); (case' hp => (unfold x; clear x)); (case' k => (clear_value x; intro hx)))
    | extract_lets +onlyGivenNames x
    | (simp only [keeps_mk]; refine core_of ?_)
    | with_reducible apply State.exchange_keeps
    | with_reducible apply State.pay_keeps
    | (with_reducible apply keeps_foldl; intro _ _ _)
    | split

theorem State.swapCompletes_keeps {s0 : State} {s : State} (id : Nat) (h : Keeps s0 s) : Keeps s0 (State.swapCompletes s id) := by
  unfold State.swapCompletes
  repeat' first
    | with_reducible assumption
    | intro _
    | (extract_lets +onlyGivenNames x; apply keeps_cut (p := Keeps s0 x); (case' hp => (unfold x; clear x)); (case' k => (clear_value x; intro hx)))
    | (extract_lets +onlyGivenNames x; apply keeps_cut (p := Keeps s0 x.2); (case' hp => (unfold x; clear x)); (case' k => (clear_value x; intro hx)))
    | extract_lets +onlyGivenNames x
    | (simp only [keeps_mk]; refine core_of ?_)
    | with_reducible apply State.exchange_keeps
    | split

theorem State.settle_keeps {s0 : State} {s : State} (h : Keeps s0 s) : Keeps s0 (State.settle s) := by
  unfold State.settle
  repeat' first
    | with_reducible assumption
    | intro _
    | (extract_lets +onlyGivenNames x; apply keeps_cut (p := Keeps s0 x); (case' hp => (unfold x; clear x)); (case' k => (clear_value x; intro hx)))
    | (extract_lets +onlyGivenNames x; apply keeps_cut (p := Keeps s0 x.2); (case' hp => (unfold x; clear x)); (case' k => (clear_value x; intro hx)))
    | (extract_lets +onlyGivenNames x; apply keeps_cut (p := ∀ t, Keeps s0 t → Keeps s0 (x t)); (case' hp => (unfold x; clear x)); (case' k => (clear_value x; intro hx)))
    | (extract_lets +onlyGivenNames x; apply keeps_cut (p := ∀ t a, Keeps s0 t → Keeps s0 (x t a)); (case' hp => (unfold x; clear x)); (case' k => (clear_value x; intro hx)))
    | (extract_lets +onlyGivenNames x; apply keeps_cut (p := ∀ t a b, Keeps s0 t → Keeps s0 (x t a b)); (case' hp => (unfold x; clear x)); (case' k => (clear_value x; intro hx)))
    | extract_lets +onlyGivenNames x
    | (with_reducible refine keeps_of_fun (by assumption) ?_)
    | (with_reducible refine keeps_of_fun2 (by assumption) ?_)
    | (with_reducible refine keeps_of_fun3 (by assumption) ?_)
    | with_reducible apply RowsRun.state_keeps
    | with_reducible apply State.swapDue_keeps
    | with_reducible apply State.applyChanges_keeps
    | (with_reducible apply keeps_foldl; intro _ _ _)
    | (with_reducible apply keeps_foldl_snd; intro _ _ _)
    | split

theorem execCommandComplete_keeps {s0 : State} (dt : Nat) (id : Nat) {s : State} (h : Keeps s0 s) : Outcome.all (Keeps s0) (execCommandComplete dt id s) := by
  unfold execCommandComplete
  repeat' first
    | with_reducible assumption
    | intro _
    | (extract_lets +onlyGivenNames x; apply keeps_cut (p := Keeps s0 x); (case' hp => (unfold x; clear x)); (case' k => (clear_value x; intro hx)))
    | (extract_lets +onlyGivenNames x; apply keeps_cut (p := Keeps s0 x.2); (case' hp => (unfold x; clear x)); (case' k => (clear_value x; intro hx)))
    | extract_lets +onlyGivenNames x
    | (simp only [keeps_mk]; refine core_of ?_)
    | with_reducible apply outcome_next
    | with_reducible apply State.performed_keeps
    | with_reducible apply State.settle_keeps
    | with_reducible apply State.swapCompletes_keeps
    | with_reducible apply State.tick_keeps
    | with_reducible apply State.complete_keeps
    | (with_reducible refine keeps_of_pair (by assumption) ?_)
    | (with_reducible refine keeps_of_some_snd (by assumption) ?_)
    | (with_reducible refine keeps_of_some_fst (by assumption) ?_)
    | split

end Sys2Proof.Machine
end

