-- ==== Sys2Proof/Laws/KeepsMerge.lean ====
section
/-! SUPPORT. Every operation of Machine/Merge.lean keeps (`Keeps`). -/
set_option linter.tactic.unusedName false
set_option linter.unusedVariables false
set_option linter.unusedSimpArgs false
namespace Sys2Proof.Machine

theorem State.setEntries_keeps {s0 : State} {s : State} (u : Nat) (l : List MergeEntry) (h : Keeps s0 s) : Keeps s0 (State.setEntries s u l) := by
  unfold State.setEntries
  repeat' first
    | with_reducible assumption
    | extract_lets +onlyGivenNames x
    | (simp only [keeps_mk]; refine core_of ?_)

theorem State.dropEntry_keeps {s0 : State} {s : State} (u : Nat) (e : MergeEntry) (h : Keeps s0 s) : Keeps s0 (State.dropEntry s u e) := by
  unfold State.dropEntry
  repeat' first
    | with_reducible assumption
    | with_reducible apply State.setEntries_keeps

theorem State.loseEntry_keeps {s0 : State} {s : State} (u : Nat) (e : MergeEntry) (h : Keeps s0 s) : Keeps s0 (State.loseEntry s u e) := by
  unfold State.loseEntry
  repeat' first
    | with_reducible assumption
    | extract_lets +onlyGivenNames x
    | with_reducible apply State.report_keeps
    | with_reducible apply State.countTable_keeps
    | with_reducible apply State.dropEntry_keeps

theorem State.readEntryAt_keeps {s0 : State} {s : State} (u : Nat) (e : MergeEntry) (h : Keeps s0 s) : Keeps s0 (State.readEntryAt s u e).2 := by
  unfold State.readEntryAt
  repeat' first
    | with_reducible assumption
    | extract_lets +onlyGivenNames x
    | with_reducible apply State.read_keeps
    | with_reducible apply State.loseEntry_keeps
    | (with_reducible refine keeps_of_pair (by assumption) ?_)
    | split

theorem State.writeEntryAt_keeps {s0 : State} {s : State} (u : Nat) (e : MergeEntry) (h : Keeps s0 s) : Keeps s0 (State.writeEntryAt s u e).2 := by
  unfold State.writeEntryAt
  repeat' first
    | with_reducible assumption
    | extract_lets +onlyGivenNames x
    | with_reducible apply State.write_keeps
    | with_reducible apply State.bump_keeps
    | with_reducible apply State.loseEntry_keeps
    | (with_reducible refine keeps_of_pair (by assumption) ?_)
    | split

theorem State.makeRoom_keeps {s0 : State} (u : Nat) (need : Nat) (x2 : Nat) {x3 : State} (h : Keeps s0 x3) : Keeps s0 (State.makeRoom u need x2 x3) := by
  induction x2 generalizing x3 with
  | zero => exact h
  | succ fuel ih =>
    unfold State.makeRoom
    repeat' first
      | with_reducible assumption
      | (extract_lets +onlyGivenNames x; apply keeps_cut (p := Keeps s0 x); (case' hp => (unfold x; clear x)); (case' k => (clear_value x; intro hx)))
      | extract_lets +onlyGivenNames x
      | (with_reducible refine keeps_of_fun (by assumption) ?_)
      | with_reducible apply State.setEntries_keeps
      | with_reducible apply State.writeEntryAt_keeps
      | split

theorem State.moveBack_keeps {s0 : State} (u : Nat) (x1 : Nat) {x2 : State} (h : Keeps s0 x2) : Keeps s0 (State.moveBack u x1 x2) := by
  induction x1 generalizing x2 with
  | zero => exact h
  | succ fuel ih =>
    unfold State.moveBack
    repeat' first
      | with_reducible assumption
      | extract_lets +onlyGivenNames x
      | (with_reducible refine keeps_of_fun (by assumption) ?_)
      | with_reducible apply State.readEntryAt_keeps
      | with_reducible apply State.setEntries_keeps
      | (with_reducible refine keeps_of_pair (by assumption) ?_)
      | split

theorem State.settleArea_keeps {s0 : State} {s : State} (u : Nat) (h : Keeps s0 s) : Keeps s0 (State.settleArea s u) := by
  unfold State.settleArea
  repeat' first
    | with_reducible assumption
    | with_reducible apply State.moveBack_keeps

end Sys2Proof.Machine
end

