-- ==== Sys2Proof/Laws/KeepsTableAdmin.lean ====
section
/-! SUPPORT. Every operation of Machine/TableAdmin.lean keeps (`Keeps`). -/
set_option linter.tactic.unusedName false
set_option linter.unusedVariables false
set_option linter.unusedSimpArgs false
namespace Sys2Proof.Machine

theorem State.adminEnd_keeps {s0 : State} {s : State} (c : Cmd) (status : Nat) (count : Nat) (h : Keeps s0 s) : Keeps s0 (State.adminEnd s c status count) := by
  unfold State.adminEnd
  repeat' first
    | with_reducible assumption
    | extract_lets +onlyGivenNames x
    | with_reducible apply State.setCmd_keeps
    | with_reducible apply State.writeVa_keeps
    | with_reducible apply State.cmdFault_keeps
    | (with_reducible refine keeps_of_pair (by assumption) ?_)
    | split

theorem State.resolvePage_keeps {s0 : State} {s : State} (j : Nat) (va : Nat) (h : Keeps s0 s) : Keeps s0 (State.resolvePage s j va).2 := by
  unfold State.resolvePage
  repeat' first
    | with_reducible assumption
    | intro _
    | (extract_lets +onlyGivenNames x; apply keeps_cut (p := Keeps s0 x); (case' hp => (unfold x; clear x)); (case' k => (clear_value x; intro hx)))
    | (extract_lets +onlyGivenNames x; apply keeps_cut (p := Keeps s0 x.2); (case' hp => (unfold x; clear x)); (case' k => (clear_value x; intro hx)))
    | extract_lets +onlyGivenNames x
    | (simp only [keeps_mk]; refine core_of ?_)
    | with_reducible apply State.bump_keeps
    | with_reducible apply State.walk_keeps
    | (with_reducible refine keeps_of_pair (by assumption) ?_)
    | (with_reducible refine keeps_of_triple (by assumption) ?_)
    | (with_reducible refine keeps_of_some_snd (by assumption) ?_)
    | (with_reducible refine keeps_of_some_fst (by assumption) ?_)
    | split

theorem State.resolvePages_keeps {s0 : State} {s : State} (j : Nat) (x2 : List Nat) (h : Keeps s0 s) : Keeps s0 (State.resolvePages s j x2).2 := by
  induction x2 generalizing s with
  | nil => exact h
  | cons a rest ih =>
    unfold State.resolvePages
    repeat' first
      | with_reducible assumption
      | extract_lets +onlyGivenNames x
      | (with_reducible refine keeps_of_fun (by assumption) ?_)
      | with_reducible apply State.resolvePage_keeps
      | (with_reducible refine keeps_of_pair (by assumption) ?_)
      | split

theorem State.pageFault_keeps {s0 : State} {s : State} (c : Cmd) (detail : Nat) (va : Nat) (h : Keeps s0 s) : Keeps s0 (State.pageFault s c detail va) := by
  unfold State.pageFault
  repeat' first
    | with_reducible assumption
    | with_reducible apply State.xlatFault_keeps

theorem State.createTable_keeps {s0 : State} {s : State} (c : Cmd) (desc : Bytes) (h : Keeps s0 s) : Keeps s0 (State.createTable s c desc) := by
  unfold State.createTable
  repeat' first
    | with_reducible assumption
    | extract_lets +onlyGivenNames x
    | with_reducible apply State.illegal_keeps
    | with_reducible apply State.adminEnd_keeps
    | with_reducible apply State.resolvePages_keeps
    | with_reducible apply State.pageFault_keeps
    | with_reducible apply State.setCmd_keeps
    | with_reducible apply State.setTable_keeps
    | (with_reducible refine keeps_of_pair (by assumption) ?_)
    | split

theorem execTableCreate_keeps {s0 : State} (dt : Nat) (g : Nat) {s : State} (h : Keeps s0 s) : Outcome.all (Keeps s0) (execTableCreate dt g s) := by
  unfold execTableCreate
  repeat' first
    | with_reducible assumption
    | (extract_lets +onlyGivenNames x; apply keeps_cut (p := Keeps s0 x); (case' hp => (unfold x; clear x)); (case' k => (clear_value x; intro hx)))
    | extract_lets +onlyGivenNames x
    | with_reducible apply outcome_next
    | with_reducible apply State.tick_keeps
    | with_reducible apply State.illegal_keeps
    | with_reducible apply State.needRanges_keeps
    | with_reducible apply State.readVa_keeps
    | with_reducible apply State.createTable_keeps
    | with_reducible apply State.cmdFault_keeps
    | (with_reducible refine keeps_of_fault (by assumption) ?_)
    | (with_reducible refine keeps_of_pair (by assumption) ?_)
    | (with_reducible refine keeps_of_ready (by assumption) ?_)
    | (with_reducible refine keeps_of_wait (by assumption) ?_)
    | split

theorem State.wipePage_keeps {s0 : State} {s : State} (p : Nat) (h : Keeps s0 s) : Keeps s0 (State.wipePage s p) := by
  unfold State.wipePage
  split
  · exact State.report_keeps _ h
  · exact State.countBytes_keeps _ _ _ _ (keeps_mk.2 (core_cells h (fun w => Map.wf_keep (fun a => !decide (a / 0x200000 = p)) w)))

theorem State.unallocate_keeps {s0 : State} {s : State} (t : Table) (b : Nat) (h : Keeps s0 s) : Keeps s0 (State.unallocate s t b) := by
  unfold State.unallocate
  extract_lets a
  split
  · exact h
  · exact keeps_mk.2 (core_cells h (Map.wf_set _ _))

theorem State.initialise_keeps {s0 : State} {s : State} (t : Table) (pages : List Nat) (h : Keeps s0 s) : Keeps s0 (State.initialise s t pages) := by
  unfold State.initialise
  repeat' first
    | with_reducible assumption
    | intro _
    | (extract_lets +onlyGivenNames x; apply keeps_cut (p := Keeps s0 x); (case' hp => (unfold x; clear x)); (case' k => (clear_value x; intro hx)))
    | (extract_lets +onlyGivenNames x; apply keeps_cut (p := Keeps s0 x.2); (case' hp => (unfold x; clear x)); (case' k => (clear_value x; intro hx)))
    | extract_lets +onlyGivenNames x
    | with_reducible apply State.unallocate_keeps
    | with_reducible apply State.wipePage_keeps
    | (with_reducible apply keeps_foldl; intro _ _ _)
    | (with_reducible apply keeps_foldl_snd; intro _ _ _)
    | split

theorem State.chargeInit_keeps {s0 : State} {s : State} (t : Table) (h : Keeps s0 s) : Keeps s0 (State.chargeInit s t) := by
  unfold State.chargeInit
  repeat' first
    | with_reducible assumption
    | intro _
    | with_reducible apply State.acct_keeps
    | split

theorem execTableInitComplete_keeps {s0 : State} (dt : Nat) (n : Nat) {s : State} (h : Keeps s0 s) : Outcome.all (Keeps s0) (execTableInitComplete dt n s) := by
  unfold execTableInitComplete
  repeat' first
    | with_reducible assumption
    | intro _
    | (extract_lets +onlyGivenNames x; apply keeps_cut (p := Keeps s0 x); (case' hp => (unfold x; clear x)); (case' k => (clear_value x; intro hx)))
    | (extract_lets +onlyGivenNames x; apply keeps_cut (p := Keeps s0 x.2); (case' hp => (unfold x; clear x)); (case' k => (clear_value x; intro hx)))
    | extract_lets +onlyGivenNames x
    | (simp only [keeps_mk]; refine core_of ?_)
    | with_reducible apply outcome_next
    | with_reducible apply RowsRun.state_keeps
    | with_reducible apply State.tick_keeps
    | with_reducible apply State.payOwed_keeps
    | with_reducible apply State.chargeInit_keeps
    | with_reducible apply State.initialise_keeps
    | with_reducible apply State.setTable_keeps
    | (with_reducible apply keeps_foldl; intro _ _ _)
    | split

theorem State.discardGradients_keeps {s0 : State} {s : State} (n : Nat) (h : Keeps s0 s) : Keeps s0 (State.discardGradients s n) := by
  unfold State.discardGradients
  repeat' first
    | with_reducible assumption
    | (extract_lets +onlyGivenNames x; apply keeps_cut (p := Keeps s0 x); (case' hp => (unfold x; clear x)); (case' k => (clear_value x; intro hx)))
    | extract_lets +onlyGivenNames x
    | (simp only [keeps_mk]; refine core_of ?_)
    | with_reducible apply State.settleArea_keeps
    | (with_reducible apply keeps_foldl; intro _ _ _)

theorem State.stopInit_keeps {s0 : State} {s : State} (t : Table) (h : Keeps s0 s) : Keeps s0 (State.stopInit s t) := by
  unfold State.stopInit
  repeat' first
    | with_reducible assumption
    | intro _
    | (extract_lets +onlyGivenNames x; apply keeps_cut (p := Keeps s0 x); (case' hp => (unfold x; clear x)); (case' k => (clear_value x; intro hx)))
    | (extract_lets +onlyGivenNames x; apply keeps_cut (p := Keeps s0 x.2); (case' hp => (unfold x; clear x)); (case' k => (clear_value x; intro hx)))
    | extract_lets +onlyGivenNames x
    | with_reducible apply RowsRun.state_keeps
    | with_reducible apply State.chargeInit_keeps
    | with_reducible apply State.initialise_keeps
    | with_reducible apply State.drawNat_keeps
    | (with_reducible refine keeps_of_pair (by assumption) ?_)
    | (with_reducible refine keeps_of_some_snd (by assumption) ?_)
    | (with_reducible refine keeps_of_some_fst (by assumption) ?_)
    | split

theorem execTableDestroy_keeps {s0 : State} (dt : Nat) (g : Nat) {s : State} (h : Keeps s0 s) : Outcome.all (Keeps s0) (execTableDestroy dt g s) := by
  unfold execTableDestroy
  repeat' first
    | with_reducible assumption
    | intro _
    | (extract_lets +onlyGivenNames x; apply keeps_cut (p := Keeps s0 x); (case' hp => (unfold x; clear x)); (case' k => (clear_value x; intro hx)))
    | (extract_lets +onlyGivenNames x; apply keeps_cut (p := Keeps s0 x.2); (case' hp => (unfold x; clear x)); (case' k => (clear_value x; intro hx)))
    | extract_lets +onlyGivenNames x
    | (simp only [keeps_mk]; refine core_of ?_)
    | with_reducible apply outcome_next
    | with_reducible apply State.illegal_keeps
    | with_reducible apply RowsRun.state_keeps
    | with_reducible apply State.tick_keeps
    | with_reducible apply State.stopInit_keeps
    | with_reducible apply State.discardGradients_keeps
    | with_reducible apply State.needRanges_keeps
    | with_reducible apply State.setCmd_keeps
    | with_reducible apply State.setTable_keeps
    | with_reducible apply State.adminEnd_keeps
    | (with_reducible refine keeps_of_ready (by assumption) ?_)
    | (with_reducible refine keeps_of_wait (by assumption) ?_)
    | (with_reducible refine keeps_of_fault (by assumption) ?_)
    | with_reducible apply pages_ready
    | with_reducible apply pages_wait
    | with_reducible apply pages_fault
    | (with_reducible refine keeps_of_pair (by assumption) ?_)
    | (with_reducible refine keeps_of_some_snd (by assumption) ?_)
    | (with_reducible refine keeps_of_some_fst (by assumption) ?_)
    | split

theorem execTableDestroyComplete_keeps {s0 : State} (dt : Nat) (n : Nat) {s : State} (h : Keeps s0 s) : Outcome.all (Keeps s0) (execTableDestroyComplete dt n s) := by
  unfold execTableDestroyComplete
  repeat' first
    | with_reducible assumption
    | (extract_lets +onlyGivenNames x; apply keeps_cut (p := Keeps s0 x); (case' hp => (unfold x; clear x)); (case' k => (clear_value x; intro hx)))
    | extract_lets +onlyGivenNames x
    | (simp only [keeps_mk]; refine core_of ?_)
    | with_reducible apply outcome_next
    | with_reducible apply State.tick_keeps
    | with_reducible apply State.setTable_keeps
    | with_reducible apply State.payOwed_keeps
    | (with_reducible apply keeps_foldl; intro _ _ _)
    | split

theorem RowsRun.load_keeps {s0 : State} {x : RowsRun} (c : Cmd) (n i : Nat) (p : Place) (h : Keeps s0 x.state) :
    Keeps s0 (x.load c n i p).state := by
  unfold RowsRun.load
  obtain ⟨f1, e1, k1⟩ : ∃ f, f = @State.readVa ∧ (∀ {s : State} (acc : Access) (c : Cmd) (va n : Nat), Keeps s0 s →
      Keeps s0 (f s acc c va n).2) := ⟨_, rfl, @State.readVa_keeps s0⟩
  rw [← e1]
  clear e1
  split
  · exact h
  · extract_lets s t acc
    split
    · exact h
    · split
      · exact keeps_of_pair (by assumption) (k1 _ _ _ _ h)
      · have hs := keeps_of_pair (by assumption) (k1 acc c _ _ h)
        split
        · exact hs
        · split
          · split
            · exact keeps_of_done (by assumption) (State.putRow_keeps _ _ _ _ _ _ hs)
            · exact keeps_of_noSlot (by assumption) (State.putRow_keeps _ _ _ _ _ _ hs)
            · exact keeps_of_bad (by assumption) (State.putRow_keeps _ _ _ _ _ _ hs)
          · exact State.setTable_keeps _ _ hs

theorem State.fetchRow_keeps {s0 : State} {s : State} (acc : Access) (t : Table) (b : Nat) (h : Keeps s0 s) : Keeps s0 (State.fetchRow s acc t b).2 := by
  unfold State.fetchRow
  repeat' first
    | with_reducible assumption
    | extract_lets +onlyGivenNames x
    | with_reducible apply State.readEntry_keeps
    | with_reducible apply State.readSlot_keeps
    | (with_reducible refine keeps_of_pair (by assumption) ?_)
    | split

theorem RowsRun.read_keeps {s0 : State} {x : RowsRun} (c : Cmd) (n i : Nat) (p : Place) (h : Keeps s0 x.state) :
    Keeps s0 (x.read c n i p).state := by
  unfold RowsRun.read
  split
  · exact h
  · extract_lets s t acc put
    have hput : ∀ (t : State) d code mark, Keeps s0 t → Keeps s0 (put t d code mark).state := by
      intro t d code mark ht
      show Keeps s0 (match t.writeVa acc c _ _ with
        | (.ok _, s) => _
        | (.bad e, s) => _ : RowsRun).state
      split
      · exact keeps_of_pair (by assumption) (State.writeVa_keeps _ _ _ _ ht)
      · exact keeps_of_pair (by assumption) (State.writeVa_keeps _ _ _ _ ht)
    clear_value put
    split
    · exact h
    · refine hput _ _ _ _ ?_
      split
      · exact h
      · exact State.setTable_keeps _ _ h
    · split
      · exact keeps_of_pair (by assumption) (State.fetchRow_keeps _ _ _ h)
      · refine hput _ _ _ _ ?_
        have hs := keeps_of_pair (by assumption) (State.fetchRow_keeps acc t _ h)
        split
        · exact State.setTable_keeps _ _ hs
        · exact hs

theorem RowsRun.finish_keeps {s0 : State} {x : RowsRun} (c : Cmd) (n : Nat) (load : Bool) (total : Nat) (h : Keeps s0 x.state) :
    Keeps s0 (x.finish c n load total) := by
  unfold RowsRun.finish
  split
  · exact State.cmdFault_keeps _ _ h
  · extract_lets s status count
    have hs : Keeps s0 s := State.setTable_keeps _ _ h
    clear_value s
    split
    · exact State.adminEnd_keeps _ _ _ hs
    · split
      · exact State.adminEnd_keeps _ _ _ (keeps_of_pair (by assumption) (State.writeVa_keeps _ _ _ _ hs))
      · exact State.cmdFault_keeps _ _ (keeps_of_pair (by assumption) (State.writeVa_keeps _ _ _ _ hs))

theorem State.rowsBody_keeps {s0 : State} {s : State} (g : Nat) (c : Cmd) (load : Bool) (list : Bytes) (h : Keeps s0 s) : Keeps s0 (State.rowsBody s g c load list) := by
  unfold State.rowsBody
  extract_lets n t places ranges
  clear_value n t places ranges
  split
  · exact State.illegal_keeps _ h
  · have hn := State.needRanges_keeps c ⟨.lookup, g⟩ (ranges.map (fun r => (r.1, r.2, !load))) h
    split
    · exact keeps_of_wait (by assumption) hn
    · exact keeps_of_fault (by assumption) hn
    · have hs := keeps_of_ready (by assumption) hn
      split
      · exact State.illegal_keeps _ hs
      · refine RowsRun.finish_keeps _ _ _ _ (all_foldl (P := fun y : RowsRun => Keeps s0 y.state) (fun x p k => ?_) _ hs)
        split
        · exact RowsRun.load_keeps _ _ _ _ k
        · exact RowsRun.read_keeps _ _ _ _ k

theorem State.rowsStart_keeps {s0 : State} {s : State} (g : Nat) (c : Cmd) (load : Bool) (h : Keeps s0 s) : Keeps s0 (State.rowsStart s g c load) := by
  unfold State.rowsStart
  repeat' first
    | with_reducible assumption
    | extract_lets +onlyGivenNames x
    | with_reducible apply State.illegal_keeps
    | with_reducible apply State.needRanges_keeps
    | with_reducible apply State.rowsBody_keeps
    | with_reducible apply State.readVa_keeps
    | with_reducible apply State.cmdFault_keeps
    | (with_reducible refine keeps_of_fault (by assumption) ?_)
    | (with_reducible refine keeps_of_pair (by assumption) ?_)
    | (with_reducible refine keeps_of_ready (by assumption) ?_)
    | (with_reducible refine keeps_of_wait (by assumption) ?_)
    | split

theorem execTableLoad_keeps {s0 : State} (dt : Nat) (g : Nat) {s : State} (h : Keeps s0 s) : Outcome.all (Keeps s0) (execTableLoad dt g s) := by
  unfold execTableLoad
  repeat' first
    | with_reducible assumption
    | (extract_lets +onlyGivenNames x; apply keeps_cut (p := Keeps s0 x); (case' hp => (unfold x; clear x)); (case' k => (clear_value x; intro hx)))
    | extract_lets +onlyGivenNames x
    | with_reducible apply outcome_next
    | with_reducible apply State.tick_keeps
    | with_reducible apply State.rowsStart_keeps
    | split

theorem execTableRead_keeps {s0 : State} (dt : Nat) (g : Nat) {s : State} (h : Keeps s0 s) : Outcome.all (Keeps s0) (execTableRead dt g s) := by
  unfold execTableRead
  repeat' first
    | with_reducible assumption
    | (extract_lets +onlyGivenNames x; apply keeps_cut (p := Keeps s0 x); (case' hp => (unfold x; clear x)); (case' k => (clear_value x; intro hx)))
    | extract_lets +onlyGivenNames x
    | with_reducible apply outcome_next
    | with_reducible apply State.tick_keeps
    | with_reducible apply State.rowsStart_keeps
    | split

theorem execTableSwap_keeps {s0 : State} (dt : Nat) (g : Nat) {s : State} (h : Keeps s0 s) : Outcome.all (Keeps s0) (execTableSwap dt g s) := by
  unfold execTableSwap
  repeat' first
    | with_reducible assumption
    | (extract_lets +onlyGivenNames x; apply keeps_cut (p := Keeps s0 x); (case' hp => (unfold x; clear x)); (case' k => (clear_value x; intro hx)))
    | extract_lets +onlyGivenNames x
    | (simp only [keeps_mk]; refine core_of ?_)
    | with_reducible apply outcome_next
    | with_reducible apply State.tick_keeps
    | with_reducible apply State.illegal_keeps
    | with_reducible apply State.needRanges_keeps
    | with_reducible apply State.adminEnd_keeps
    | with_reducible apply State.settle_keeps
    | with_reducible apply State.setCmd_keeps
    | (with_reducible refine keeps_of_fault (by assumption) ?_)
    | (with_reducible refine keeps_of_ready (by assumption) ?_)
    | (with_reducible refine keeps_of_wait (by assumption) ?_)
    | split

theorem State.changeCmd_keeps {s0 : State} {s : State} (g : Nat) (c : Cmd) (pin : Bool) (h : Keeps s0 s) : Keeps s0 (State.changeCmd s g c pin) := by
  unfold State.changeCmd
  repeat' first
    | with_reducible assumption
    | (extract_lets +onlyGivenNames x; apply keeps_cut (p := Keeps s0 x); (case' hp => (unfold x; clear x)); (case' k => (clear_value x; intro hx)))
    | extract_lets +onlyGivenNames x
    | with_reducible apply State.illegal_keeps
    | with_reducible apply State.needRanges_keeps
    | with_reducible apply State.readVa_keeps
    | with_reducible apply State.cmdFault_keeps
    | with_reducible apply State.setTable_keeps
    | with_reducible apply State.settle_keeps
    | with_reducible apply State.setCmd_keeps
    | (with_reducible refine keeps_of_fault (by assumption) ?_)
    | (with_reducible refine keeps_of_pair (by assumption) ?_)
    | (with_reducible refine keeps_of_ready (by assumption) ?_)
    | (with_reducible refine keeps_of_wait (by assumption) ?_)
    | split

theorem execTableReplicate_keeps {s0 : State} (dt : Nat) (g : Nat) {s : State} (h : Keeps s0 s) : Outcome.all (Keeps s0) (execTableReplicate dt g s) := by
  unfold execTableReplicate
  repeat' first
    | with_reducible assumption
    | (extract_lets +onlyGivenNames x; apply keeps_cut (p := Keeps s0 x); (case' hp => (unfold x; clear x)); (case' k => (clear_value x; intro hx)))
    | extract_lets +onlyGivenNames x
    | with_reducible apply outcome_next
    | with_reducible apply State.tick_keeps
    | with_reducible apply State.changeCmd_keeps
    | split

theorem execTablePin_keeps {s0 : State} (dt : Nat) (g : Nat) {s : State} (h : Keeps s0 s) : Outcome.all (Keeps s0) (execTablePin dt g s) := by
  unfold execTablePin
  repeat' first
    | with_reducible assumption
    | (extract_lets +onlyGivenNames x; apply keeps_cut (p := Keeps s0 x); (case' hp => (unfold x; clear x)); (case' k => (clear_value x; intro hx)))
    | extract_lets +onlyGivenNames x
    | with_reducible apply outcome_next
    | with_reducible apply State.tick_keeps
    | with_reducible apply State.changeCmd_keeps
    | split

theorem execEpochFence_keeps {s0 : State} (dt : Nat) (g : Nat) {s : State} (h : Keeps s0 s) : Outcome.all (Keeps s0) (execEpochFence dt g s) := by
  unfold execEpochFence
  repeat' first
    | with_reducible assumption
    | (extract_lets +onlyGivenNames x; apply keeps_cut (p := Keeps s0 x); (case' hp => (unfold x; clear x)); (case' k => (clear_value x; intro hx)))
    | extract_lets +onlyGivenNames x
    | (simp only [keeps_mk]; refine core_of ?_)
    | with_reducible apply outcome_next
    | with_reducible apply State.tick_keeps
    | with_reducible apply State.illegal_keeps
    | with_reducible apply State.setCmd_keeps
    | with_reducible apply State.signal_keeps
    | split

theorem State.signalEpochs_keeps {s0 : State} {s : State} (h : Keeps s0 s) : Keeps s0 (State.signalEpochs s) := by
  unfold State.signalEpochs
  repeat' first
    | with_reducible assumption
    | (extract_lets +onlyGivenNames x; apply keeps_cut (p := Keeps s0 x); (case' hp => (unfold x; clear x)); (case' k => (clear_value x; intro hx)))
    | extract_lets +onlyGivenNames x
    | (simp only [keeps_mk]; refine core_of ?_)
    | with_reducible apply State.signal_keeps
    | (with_reducible apply keeps_foldl; intro _ _ _)

theorem execEpochRead_keeps {s0 : State} (dt : Nat) (g : Nat) {s : State} (h : Keeps s0 s) : Outcome.all (Keeps s0) (execEpochRead dt g s) := by
  unfold execEpochRead
  repeat' first
    | with_reducible assumption
    | (extract_lets +onlyGivenNames x; apply keeps_cut (p := Keeps s0 x); (case' hp => (unfold x; clear x)); (case' k => (clear_value x; intro hx)))
    | extract_lets +onlyGivenNames x
    | with_reducible apply outcome_next
    | with_reducible apply State.tick_keeps
    | with_reducible apply State.illegal_keeps
    | with_reducible apply State.needRanges_keeps
    | with_reducible apply State.writeVa_keeps
    | with_reducible apply State.setCmd_keeps
    | with_reducible apply State.cmdFault_keeps
    | (with_reducible refine keeps_of_fault (by assumption) ?_)
    | (with_reducible refine keeps_of_pair (by assumption) ?_)
    | (with_reducible refine keeps_of_ready (by assumption) ?_)
    | (with_reducible refine keeps_of_wait (by assumption) ?_)
    | split

theorem State.tableSnapshot_keeps {s0 : State} {s : State} (n : Nat) (h : Keeps s0 s) : Keeps s0 (State.tableSnapshot s n).2 := by
  unfold State.tableSnapshot
  repeat' first
    | with_reducible assumption
    | (extract_lets +onlyGivenNames x; apply keeps_cut (p := Keeps s0 x); (case' hp => (unfold x; clear x)); (case' k => (clear_value x; intro hx)))
    | extract_lets +onlyGivenNames x
    | with_reducible apply State.setNum_keeps
    | with_reducible apply State.setBlob_keeps
    | (with_reducible apply keeps_foldl; intro _ _ _)
    | split

end Sys2Proof.Machine
end

