-- ==== Sys2Proof/Laws/KeepsLookup.lean ====
section
/-! SUPPORT. Every operation of Machine/Lookup.lean keeps (`Keeps`). -/
set_option linter.tactic.unusedName false
set_option linter.unusedVariables false
set_option linter.unusedSimpArgs false
namespace Sys2Proof.Machine

theorem State.setRun_keeps {s0 : State} {s : State} (r : LookupRun) (h : Keeps s0 s) : Keeps s0 (State.setRun s r) := by
  unfold State.setRun
  repeat' first
    | with_reducible assumption
    | (simp only [keeps_mk]; refine core_of ?_)

theorem State.lookupPages_keeps {s0 : State} {s : State} (c : Cmd) (g : Nat) (reads : List (Nat × Nat × Bool)) (writes : List (Nat × Nat × Bool)) (h : Keeps s0 s) : Pages.all (Keeps s0) (State.lookupPages s c g reads writes) := by
  unfold State.lookupPages
  repeat' first
    | with_reducible assumption
    | intro _
    | (extract_lets +onlyGivenNames x; apply keeps_cut (p := Keeps s0 x); (case' hp => (unfold x; clear x)); (case' k => (clear_value x; intro hx)))
    | (extract_lets +onlyGivenNames x; apply keeps_cut (p := Keeps s0 x.2); (case' hp => (unfold x; clear x)); (case' k => (clear_value x; intro hx)))
    | extract_lets +onlyGivenNames x
    | (simp only [keeps_mk]; refine core_of ?_)
    | with_reducible apply State.illegal_keeps
    | with_reducible apply State.needRanges_keeps
    | (with_reducible refine keeps_of_ready (by assumption) ?_)
    | (with_reducible refine keeps_of_wait (by assumption) ?_)
    | (with_reducible refine keeps_of_fault (by assumption) ?_)
    | with_reducible apply pages_ready
    | with_reducible apply pages_wait
    | with_reducible apply pages_fault
    | (with_reducible refine keeps_of_pair (by assumption) ?_)
    | (with_reducible refine keeps_of_some_snd (by assumption) ?_)
    | (with_reducible refine keeps_of_some_fst (by assumption) ?_)
    | split
    | (clear_value *; split)

theorem State.clashes_keeps {s0 : State} {s : State} (c : Cmd) (t : Table) (offsets : List Nat) (h : Keeps s0 s) : Keeps s0 (State.clashes s c t offsets).2 := by
  unfold State.clashes
  repeat' first
    | with_reducible assumption
    | intro _
    | (extract_lets +onlyGivenNames x; apply keeps_cut (p := Keeps s0 x); (case' hp => (unfold x; clear x)); (case' k => (clear_value x; intro hx)))
    | (extract_lets +onlyGivenNames x; apply keeps_cut (p := Keeps s0 x.2); (case' hp => (unfold x; clear x)); (case' k => (clear_value x; intro hx)))
    | (extract_lets +onlyGivenNames x; apply keeps_cut (p := ∀ t, Keeps s0 t → Keeps s0 (x t)); (case' hp => (unfold x; clear x)); (case' k => (clear_value x; intro hx)))
    | (extract_lets +onlyGivenNames x; apply keeps_cut (p := ∀ t a, Keeps s0 t → Keeps s0 (x t a)); (case' hp => (unfold x; clear x)); (case' k => (clear_value x; intro hx)))
    | (extract_lets +onlyGivenNames x; apply keeps_cut (p := ∀ t a b, Keeps s0 t → Keeps s0 (x t a b)); (case' hp => (unfold x; clear x)); (case' k => (clear_value x; intro hx)))
    | extract_lets +onlyGivenNames x
    | (with_reducible refine keeps_of_fun (by assumption) ?_)
    | (with_reducible refine keeps_of_fun2 (by assumption) ?_)
    | (with_reducible refine keeps_of_fun3 (by assumption) ?_)
    | (simp only [keeps_mk]; refine core_of ?_)
    | with_reducible apply State.blur_keeps
    | (with_reducible refine keeps_of_pair (by assumption) ?_)
    | (with_reducible refine keeps_of_triple (by assumption) ?_)
    | (with_reducible refine keeps_of_some_snd (by assumption) ?_)
    | (with_reducible refine keeps_of_some_fst (by assumption) ?_)
    | split
    | (clear_value *; split)

theorem State.stampLookup_keeps {s0 : State} {s : State} (c : Cmd) (g : Nat) (offsets : List Nat) (alone : Bool) (h : Keeps s0 s) : Keeps s0 (State.stampLookup s c g offsets alone) := by
  unfold State.stampLookup
  repeat' first
    | with_reducible assumption
    | intro _
    | (extract_lets +onlyGivenNames x; apply keeps_cut (p := Keeps s0 x); (case' hp => (unfold x; clear x)); (case' k => (clear_value x; intro hx)))
    | (extract_lets +onlyGivenNames x; apply keeps_cut (p := Keeps s0 x.2); (case' hp => (unfold x; clear x)); (case' k => (clear_value x; intro hx)))
    | extract_lets +onlyGivenNames x
    | (simp only [keeps_mk]; refine core_of ?_)
    | with_reducible apply State.setCmd_keeps
    | with_reducible apply State.clashes_keeps
    | with_reducible apply State.countTable_keeps
    | split
    | (clear_value *; split)

theorem State.channelThenStamp_keeps {s0 : State} {s : State} (c : Cmd) (g : Nat) (offsets : List Nat) (h : Keeps s0 s) : Keeps s0 (State.channelThenStamp s c g offsets) := by
  unfold State.channelThenStamp
  repeat' first
    | with_reducible assumption
    | extract_lets +onlyGivenNames x
    | with_reducible apply State.stampLookup_keeps
    | with_reducible apply State.setCmd_keeps
    | with_reducible apply State.askChannel_keeps
    | split

theorem State.startLookup_keeps {s0 : State} {s : State} (c : Cmd) (g : Nat) (h : Keeps s0 s) : Keeps s0 (State.startLookup s c g) := by
  unfold State.startLookup
  repeat' first
    | with_reducible assumption
    | intro _
    | (extract_lets +onlyGivenNames x; apply keeps_cut (p := Keeps s0 x); (case' hp => (unfold x; clear x)); (case' k => (clear_value x; intro hx)))
    | (extract_lets +onlyGivenNames x; apply keeps_cut (p := Keeps s0 x.2); (case' hp => (unfold x; clear x)); (case' k => (clear_value x; intro hx)))
    | extract_lets +onlyGivenNames x
    | (simp only [keeps_mk]; refine core_of ?_)
    | with_reducible apply State.illegal_keeps
    | with_reducible apply State.cmdFault_keeps
    | with_reducible apply State.read_keeps
    | with_reducible apply RowsRun.read_keeps
    | with_reducible apply State.readVa_keeps
    | with_reducible apply State.channelThenStamp_keeps
    | with_reducible apply State.lookupPages_keeps
    | (with_reducible refine keeps_of_ready (by assumption) ?_)
    | (with_reducible refine keeps_of_wait (by assumption) ?_)
    | (with_reducible refine keeps_of_fault (by assumption) ?_)
    | with_reducible apply pages_ready
    | with_reducible apply pages_wait
    | with_reducible apply pages_fault
    | (with_reducible refine keeps_of_pair (by assumption) ?_)
    | (with_reducible refine keeps_of_some_snd (by assumption) ?_)
    | (with_reducible refine keeps_of_some_fst (by assumption) ?_)
    | split
    | (clear_value *; split)

theorem State.rowSource_keeps {s0 : State} {s : State} (acc : Access) (n : Nat) (g : Nat) (r : Nat) (h : Keeps s0 s) : Keeps s0 (State.rowSource s acc n g r).2 := by
  unfold State.rowSource
  repeat' first
    | with_reducible assumption
    | intro _
    | (extract_lets +onlyGivenNames x; apply keeps_cut (p := Keeps s0 x); (case' hp => (unfold x; clear x)); (case' k => (clear_value x; intro hx)))
    | (extract_lets +onlyGivenNames x; apply keeps_cut (p := Keeps s0 x.2); (case' hp => (unfold x; clear x)); (case' k => (clear_value x; intro hx)))
    | extract_lets +onlyGivenNames x
    | (simp only [keeps_mk]; refine core_of ?_)
    | with_reducible apply State.read_keeps
    | with_reducible apply RowsRun.read_keeps
    | with_reducible apply State.countAccess_keeps
    | with_reducible apply State.applyBad_keeps
    | with_reducible apply State.readEntry_keeps
    | (with_reducible refine keeps_of_pair (by assumption) ?_)
    | (with_reducible refine keeps_of_triple (by assumption) ?_)
    | (with_reducible refine keeps_of_some_snd (by assumption) ?_)
    | (with_reducible refine keeps_of_some_fst (by assumption) ?_)
    | split
    | (clear_value *; split)

theorem State.countRow_keeps {s0 : State} {s : State} (g : Nat) (job : Nat) (bytes : Nat) (h : Keeps s0 s) : Keeps s0 (State.countRow s g job bytes) := by
  unfold State.countRow
  repeat' first
    | with_reducible assumption
    | extract_lets +onlyGivenNames x
    | with_reducible apply State.acct_keeps
    | with_reducible apply State.bump_keeps

theorem State.defaultRead_keeps {s0 : State} {s : State} (r : LookupRun) (why : Resolved) (h : Keeps s0 s) : Keeps s0 (State.defaultRead s r why) := by
  unfold State.defaultRead
  repeat' first
    | with_reducible assumption
    | extract_lets +onlyGivenNames x
    | with_reducible apply State.setRun_keeps
    | with_reducible apply State.bump_keeps
    | with_reducible apply State.setTable_keeps

theorem State.sendEntry_keeps {s0 : State} {s : State} (c : Cmd) (r : LookupRun) (t : Table) (row : Nat) (h : Keeps s0 s) : Keeps s0 (State.sendEntry s c r t row) := by
  unfold State.sendEntry
  repeat' first
    | with_reducible assumption
    | extract_lets +onlyGivenNames x
    | with_reducible apply State.setRun_keeps
    | with_reducible apply State.setTable_keeps
    | split

theorem State.resolveIndex_keeps {s0 : State} {s : State} (c : Cmd) (r : LookupRun) (i : Nat) (h : Keeps s0 s) : Keeps s0 (State.resolveIndex s c r i).2 := by
  unfold State.resolveIndex
  repeat' first
    | with_reducible assumption
    | extract_lets +onlyGivenNames x
    | with_reducible apply State.rowSource_keeps
    | with_reducible apply State.defaultRead_keeps
    | with_reducible apply State.setRun_keeps
    | with_reducible apply State.countRow_keeps
    | with_reducible apply State.sendEntry_keeps
    | with_reducible apply State.countTable_keeps
    | (with_reducible refine keeps_of_pair (by assumption) ?_)
    | split

theorem State.readIndex_keeps {s0 : State} {s : State} (c : Cmd) (pos : Nat) (h : Keeps s0 s) : Keeps s0 (State.readIndex s c pos).2 := by
  unfold State.readIndex
  repeat' first
    | with_reducible assumption
    | extract_lets +onlyGivenNames x
    | with_reducible apply State.readVa_keeps
    | (with_reducible refine keeps_of_pair (by assumption) ?_)
    | split

theorem State.resolveRun_keeps {s0 : State} (c : Cmd) (x1 : Nat) {x2 : State} (h : Keeps s0 x2) : Keeps s0 (State.resolveRun c x1 x2).2 := by
  induction x1 generalizing x2 with
  | zero => exact h
  | succ fuel ih =>
    unfold State.resolveRun
    repeat' first
      | with_reducible assumption
      | (extract_lets +onlyGivenNames x; apply keeps_cut (p := Keeps s0 x); (case' hp => (unfold x; clear x)); (case' k => (clear_value x; intro hx)))
      | extract_lets +onlyGivenNames x
      | (with_reducible refine keeps_of_fun (by assumption) ?_)
      | with_reducible apply State.countTable_keeps
      | with_reducible apply State.setRun_keeps
      | with_reducible apply State.readIndex_keeps
      | with_reducible apply State.resolveIndex_keeps
      | (with_reducible refine keeps_of_pair (by assumption) ?_)
      | split

theorem State.writeBag_keeps {s0 : State} {s : State} (c : Cmd) (b : Nat) (sum : List Nat) (h : Keeps s0 s) : Keeps s0 (State.writeBag s c b sum).2 := by
  unfold State.writeBag
  repeat' first
    | with_reducible assumption
    | intro _
    | (extract_lets +onlyGivenNames x; apply keeps_cut (p := Keeps s0 x); (case' hp => (unfold x; clear x)); (case' k => (clear_value x; intro hx)))
    | (extract_lets +onlyGivenNames x; apply keeps_cut (p := Keeps s0 x.2); (case' hp => (unfold x; clear x)); (case' k => (clear_value x; intro hx)))
    | extract_lets +onlyGivenNames x
    | (simp only [keeps_mk]; refine core_of ?_)
    | with_reducible apply RowsRun.state_keeps
    | with_reducible apply State.writeVa_keeps
    | with_reducible apply State.blur_keeps
    | with_reducible apply State.countTable_keeps
    | with_reducible apply State.setRun_keeps
    | (with_reducible refine keeps_of_pair (by assumption) ?_)
    | (with_reducible refine keeps_of_triple (by assumption) ?_)
    | (with_reducible refine keeps_of_some_snd (by assumption) ?_)
    | (with_reducible refine keeps_of_some_fst (by assumption) ?_)
    | with_reducible apply someAll_none
    | with_reducible apply someAll_some
    | split
    | (clear_value *; split)

theorem State.writeBags_keeps {s0 : State} {s : State} (c : Cmd) (l : List (Nat × List Nat)) (h : Keeps s0 s) : Keeps s0 (State.writeBags s c l).2 := by
  unfold State.writeBags
  repeat' first
    | with_reducible assumption
    | extract_lets +onlyGivenNames x
    | with_reducible apply State.writeBag_keeps
    | (with_reducible apply keeps_foldl_snd; intro _ _ _)
    | split

theorem State.poolRun_keeps {s0 : State} {s : State} (c : Cmd) (h : Keeps s0 s) : Keeps s0 (State.poolRun s c).2 := by
  unfold State.poolRun
  repeat' first
    | with_reducible assumption
    | extract_lets +onlyGivenNames x
    | with_reducible apply State.setRun_keeps
    | with_reducible apply State.writeBags_keeps
    | split

theorem State.sendSlices_keeps {s0 : State} {s : State} (c : Cmd) (r : LookupRun) (h : Keeps s0 s) : Keeps s0 (State.sendSlices s c r) := by
  unfold State.sendSlices
  repeat' first
    | with_reducible assumption
    | (extract_lets +onlyGivenNames x; apply keeps_cut (p := Keeps s0 x); (case' hp => (unfold x; clear x)); (case' k => (clear_value x; intro hx)))
    | extract_lets +onlyGivenNames x
    | with_reducible apply State.bump_keeps
    | with_reducible apply State.offer_keeps
    | with_reducible apply State.setRun_keeps
    | (with_reducible apply keeps_foldl; intro _ _ _)

theorem State.combineRun_keeps {s0 : State} {s : State} (c : Cmd) (r : LookupRun) (h : Keeps s0 s) : Keeps s0 (State.combineRun s c r).2 := by
  unfold State.combineRun
  repeat' first
    | with_reducible assumption
    | extract_lets +onlyGivenNames x
    | with_reducible apply State.writeBags_keeps
    | with_reducible apply State.setRun_keeps

theorem State.endLookup_keeps {s0 : State} {s : State} (c : Cmd) (r : LookupRun) (h : Keeps s0 s) : Keeps s0 (State.endLookup s c r) := by
  unfold State.endLookup
  repeat' first
    | with_reducible assumption
    | intro _
    | (extract_lets +onlyGivenNames x; apply keeps_cut (p := Keeps s0 x); (case' hp => (unfold x; clear x)); (case' k => (clear_value x; intro hx)))
    | (extract_lets +onlyGivenNames x; apply keeps_cut (p := ∀ t, Keeps s0 t → Keeps s0 (x t)); (case' hp => (unfold x; clear x)); (case' k => (clear_value x; intro hx)))
    | extract_lets +onlyGivenNames x
    | (with_reducible refine keeps_of_fun (by assumption) ?_)
    | (simp only [keeps_mk]; refine core_of ?_)
    | with_reducible apply State.freeChannel_keeps
    | with_reducible apply State.setCmd_keeps
    | with_reducible apply State.writeVa_keeps
    | with_reducible apply State.cmdFault_keeps
    | (with_reducible refine keeps_of_pair (by assumption) ?_)
    | split

theorem State.advancePooled_keeps {s0 : State} {s : State} (c : Cmd) (h : Keeps s0 s) : Keeps s0 (State.advancePooled s c) := by
  unfold State.advancePooled
  repeat' first
    | with_reducible assumption
    | intro _
    | (extract_lets +onlyGivenNames x; apply keeps_cut (p := Keeps s0 x); (case' hp => (unfold x; clear x)); (case' k => (clear_value x; intro hx)))
    | (extract_lets +onlyGivenNames x; apply keeps_cut (p := Keeps s0 x.2); (case' hp => (unfold x; clear x)); (case' k => (clear_value x; intro hx)))
    | extract_lets +onlyGivenNames x
    | (simp only [keeps_mk]; refine core_of ?_)
    | with_reducible apply State.cmdFault_keeps
    | with_reducible apply State.endLookup_keeps
    | with_reducible apply State.combineRun_keeps
    | with_reducible apply State.sendSlices_keeps
    | with_reducible apply State.poolRun_keeps
    | (with_reducible refine keeps_of_pair (by assumption) ?_)
    | (with_reducible refine keeps_of_some_snd (by assumption) ?_)
    | (with_reducible refine keeps_of_some_fst (by assumption) ?_)
    | with_reducible apply someAll_none
    | with_reducible apply someAll_some
    | split
    | (clear_value *; split)

theorem State.runPages_keeps {s0 : State} {s : State} (c : Cmd) (r : LookupRun) (h : Keeps s0 s) : Pages.all (Keeps s0) (State.runPages s c r) := by
  unfold State.runPages
  repeat' first
    | with_reducible assumption
    | intro _
    | with_reducible apply State.lookupPages_keeps
    | with_reducible apply pages_ready
    | with_reducible apply pages_wait
    | with_reducible apply pages_fault
    | split
    | (clear_value *; split)

theorem State.advanceLookup_keeps {s0 : State} {s : State} (c : Cmd) (h : Keeps s0 s) : Keeps s0 (State.advanceLookup s c) := by
  unfold State.advanceLookup
  repeat' first
    | with_reducible assumption
    | intro _
    | (extract_lets +onlyGivenNames x; apply keeps_cut (p := Keeps s0 x); (case' hp => (unfold x; clear x)); (case' k => (clear_value x; intro hx)))
    | (extract_lets +onlyGivenNames x; apply keeps_cut (p := Keeps s0 x.2); (case' hp => (unfold x; clear x)); (case' k => (clear_value x; intro hx)))
    | extract_lets +onlyGivenNames x
    | (simp only [keeps_mk]; refine core_of ?_)
    | with_reducible apply State.runPages_keeps
    | with_reducible apply State.advancePooled_keeps
    | (with_reducible refine keeps_of_ready (by assumption) ?_)
    | (with_reducible refine keeps_of_wait (by assumption) ?_)
    | (with_reducible refine keeps_of_fault (by assumption) ?_)
    | with_reducible apply pages_ready
    | with_reducible apply pages_wait
    | with_reducible apply pages_fault
    | (with_reducible refine keeps_of_pair (by assumption) ?_)
    | (with_reducible refine keeps_of_some_snd (by assumption) ?_)
    | (with_reducible refine keeps_of_some_fst (by assumption) ?_)
    | split
    | (clear_value *; split)

theorem State.notePeak_keeps {s0 : State} {s : State} (g : Nat) (h : Keeps s0 s) : Keeps s0 (State.notePeak s g) := by
  unfold State.notePeak
  repeat' first
    | with_reducible assumption
    | with_reducible apply State.setNum_keeps
    | split

theorem State.lookupStep_keeps {s0 : State} {s : State} (c : Cmd) (g : Nat) (h : Keeps s0 s) : Keeps s0 (State.lookupStep s c g) := by
  unfold State.lookupStep
  repeat' first
    | with_reducible assumption
    | intro _
    | (extract_lets +onlyGivenNames x; apply keeps_cut (p := Keeps s0 x); (case' hp => (unfold x; clear x)); (case' k => (clear_value x; intro hx)))
    | (extract_lets +onlyGivenNames x; apply keeps_cut (p := Keeps s0 x.2); (case' hp => (unfold x; clear x)); (case' k => (clear_value x; intro hx)))
    | extract_lets +onlyGivenNames x
    | (simp only [keeps_mk]; refine core_of ?_)
    | with_reducible apply State.cmdFault_keeps
    | with_reducible apply State.notePeak_keeps
    | with_reducible apply State.runPages_keeps
    | with_reducible apply State.advancePooled_keeps
    | with_reducible apply State.resolveRun_keeps
    | with_reducible apply State.startLookup_keeps
    | (with_reducible refine keeps_of_ready (by assumption) ?_)
    | (with_reducible refine keeps_of_wait (by assumption) ?_)
    | (with_reducible refine keeps_of_fault (by assumption) ?_)
    | with_reducible apply pages_ready
    | with_reducible apply pages_wait
    | with_reducible apply pages_fault
    | (with_reducible refine keeps_of_pair (by assumption) ?_)
    | (with_reducible refine keeps_of_some_snd (by assumption) ?_)
    | (with_reducible refine keeps_of_some_fst (by assumption) ?_)
    | with_reducible apply someAll_none
    | with_reducible apply someAll_some
    | split
    | (clear_value *; split)

theorem execLookup_keeps {s0 : State} (dt : Nat) (id : Nat) {s : State} (h : Keeps s0 s) : Outcome.all (Keeps s0) (execLookup dt id s) := by
  unfold execLookup
  repeat' first
    | with_reducible assumption
    | (extract_lets +onlyGivenNames x; apply keeps_cut (p := Keeps s0 x); (case' hp => (unfold x; clear x)); (case' k => (clear_value x; intro hx)))
    | extract_lets +onlyGivenNames x
    | with_reducible apply outcome_next
    | with_reducible apply State.tick_keeps
    | with_reducible apply State.lookupStep_keeps
    | split

theorem execShardedLookup_keeps {s0 : State} (dt : Nat) (id : Nat) {s : State} (h : Keeps s0 s) : Outcome.all (Keeps s0) (execShardedLookup dt id s) := by
  unfold execShardedLookup
  repeat' first
    | with_reducible assumption
    | (extract_lets +onlyGivenNames x; apply keeps_cut (p := Keeps s0 x); (case' hp => (unfold x; clear x)); (case' k => (clear_value x; intro hx)))
    | extract_lets +onlyGivenNames x
    | with_reducible apply outcome_next
    | with_reducible apply State.tick_keeps
    | with_reducible apply State.lookupStep_keeps
    | split

theorem execRowReadReturn_keeps {s0 : State} (dt : Nat) (id : Nat) (k : Nat) {s : State} (h : Keeps s0 s) : Outcome.all (Keeps s0) (execRowReadReturn dt id k s) := by
  unfold execRowReadReturn
  repeat' first
    | with_reducible assumption
    | (extract_lets +onlyGivenNames x; apply keeps_cut (p := Keeps s0 x); (case' hp => (unfold x; clear x)); (case' k => (clear_value x; intro hx)))
    | extract_lets +onlyGivenNames x
    | with_reducible apply outcome_next
    | with_reducible apply State.tick_keeps
    | with_reducible apply State.readCut_keeps
    | with_reducible apply State.execFault_keeps
    | with_reducible apply State.advanceLookup_keeps
    | with_reducible apply State.setRun_keeps
    | (with_reducible refine keeps_of_pair (by assumption) ?_)
    | split

theorem State.takeDefault_keeps {s0 : State} {s : State} (id : Nat) (t : Table) (h : Keeps s0 s) : Keeps s0 (State.takeDefault s id t).2 := by
  unfold State.takeDefault
  repeat' first
    | with_reducible assumption
    | intro _
    | (extract_lets +onlyGivenNames x; apply keeps_cut (p := Keeps s0 x); (case' hp => (unfold x; clear x)); (case' k => (clear_value x; intro hx)))
    | (extract_lets +onlyGivenNames x; apply keeps_cut (p := Keeps s0 x.2); (case' hp => (unfold x; clear x)); (case' k => (clear_value x; intro hx)))
    | extract_lets +onlyGivenNames x
    | (simp only [keeps_mk]; refine core_of ?_)
    | with_reducible apply State.read_keeps
    | with_reducible apply RowsRun.read_keeps
    | with_reducible apply State.setRun_keeps
    | (with_reducible refine keeps_of_pair (by assumption) ?_)
    | (with_reducible refine keeps_of_triple (by assumption) ?_)
    | (with_reducible refine keeps_of_some_snd (by assumption) ?_)
    | (with_reducible refine keeps_of_some_fst (by assumption) ?_)
    | split
    | (clear_value *; split)

theorem State.serveEntry_keeps {s0 : State} {s : State} (c : Cmd) (r : LookupRun) (row : Nat) (sum : List Nat) (h : Keeps s0 s) : Keeps s0 (State.serveEntry s c r row sum).2 := by
  unfold State.serveEntry
  repeat' first
    | with_reducible assumption
    | intro _
    | (extract_lets +onlyGivenNames x; apply keeps_cut (p := Keeps s0 x); (case' hp => (unfold x; clear x)); (case' k => (clear_value x; intro hx)))
    | (extract_lets +onlyGivenNames x; apply keeps_cut (p := Keeps s0 x.2); (case' hp => (unfold x; clear x)); (case' k => (clear_value x; intro hx)))
    | extract_lets +onlyGivenNames x
    | (simp only [keeps_mk]; refine core_of ?_)
    | with_reducible apply State.request_keeps
    | with_reducible apply State.takeDefault_keeps
    | with_reducible apply State.read_keeps
    | with_reducible apply RowsRun.read_keeps
    | with_reducible apply State.readCut_keeps
    | with_reducible apply State.countRow_keeps
    | with_reducible apply State.rowSource_keeps
    | with_reducible apply State.bump_keeps
    | with_reducible apply State.setTable_keeps
    | (with_reducible refine keeps_of_pair (by assumption) ?_)
    | (with_reducible refine keeps_of_triple (by assumption) ?_)
    | (with_reducible refine keeps_of_some_snd (by assumption) ?_)
    | (with_reducible refine keeps_of_some_fst (by assumption) ?_)
    | split
    | (clear_value *; split)

theorem State.serveEntries_keeps {s0 : State} {s : State} (c : Cmd) (r : LookupRun) (dim : Nat) (x4 : List (Nat × Nat)) (x5 : List (Nat × List Nat)) (h : Keeps s0 s) : Keeps s0 (State.serveEntries s c r dim x4 x5).2 := by
  induction x4 generalizing s x5 with
  | nil => exact h
  | cons a rest ih =>
    obtain ⟨a0, a1⟩ := a
    unfold State.serveEntries
    repeat' first
      | with_reducible assumption
      | extract_lets +onlyGivenNames x
      | with_reducible apply State.serveEntry_keeps
      | with_reducible apply ih
      | (with_reducible refine keeps_of_pair (by assumption) ?_)
      | split

theorem State.serveSlice_keeps {s0 : State} {s : State} (c : Cmd) (r : LookupRun) (slice : Bytes) (h : Keeps s0 s) : Keeps s0 (State.serveSlice s c r slice) := by
  unfold State.serveSlice
  repeat' first
    | with_reducible assumption
    | intro _
    | (extract_lets +onlyGivenNames x; apply keeps_cut (p := Keeps s0 x); (case' hp => (unfold x; clear x)); (case' k => (clear_value x; intro hx)))
    | (extract_lets +onlyGivenNames x; apply keeps_cut (p := Keeps s0 x.2); (case' hp => (unfold x; clear x)); (case' k => (clear_value x; intro hx)))
    | extract_lets +onlyGivenNames x
    | (simp only [keeps_mk]; refine core_of ?_)
    | with_reducible apply State.cmdFault_keeps
    | with_reducible apply State.request_keeps
    | with_reducible apply State.serveEntries_keeps
    | with_reducible apply State.advanceLookup_keeps
    | with_reducible apply State.offer_keeps
    | with_reducible apply State.bump_keeps
    | with_reducible apply State.hand_keeps
    | with_reducible apply State.setRun_keeps
    | (with_reducible refine keeps_of_pair (by assumption) ?_)
    | (with_reducible refine keeps_of_triple (by assumption) ?_)
    | (with_reducible refine keeps_of_some_snd (by assumption) ?_)
    | (with_reducible refine keeps_of_some_fst (by assumption) ?_)
    | split
    | (clear_value *; split)

theorem State.serveWaiting_keeps {s0 : State} {s : State} (n : Nat) (h : Keeps s0 s) : Keeps s0 (State.serveWaiting s n) := by
  unfold State.serveWaiting
  repeat' first
    | with_reducible assumption
    | intro _
    | (extract_lets +onlyGivenNames x; apply keeps_cut (p := Keeps s0 x); (case' hp => (unfold x; clear x)); (case' k => (clear_value x; intro hx)))
    | (extract_lets +onlyGivenNames x; apply keeps_cut (p := Keeps s0 x.2); (case' hp => (unfold x; clear x)); (case' k => (clear_value x; intro hx)))
    | extract_lets +onlyGivenNames x
    | (simp only [keeps_mk]; refine core_of ?_)
    | with_reducible apply State.serveSlice_keeps
    | with_reducible apply State.request_keeps
    | with_reducible apply State.setRun_keeps
    | (with_reducible apply keeps_foldl; intro _ _ _)
    | (with_reducible refine keeps_of_pair (by assumption) ?_)
    | (with_reducible refine keeps_of_some_snd (by assumption) ?_)
    | (with_reducible refine keeps_of_some_fst (by assumption) ?_)
    | split
    | (clear_value *; split)

theorem execRequestSliceArrive_keeps {s0 : State} (dt : Nat) (ch : Nat) (slice : Bytes) {s : State} (h : Keeps s0 s) : Outcome.all (Keeps s0) (execRequestSliceArrive dt ch slice s) := by
  unfold execRequestSliceArrive
  repeat' first
    | with_reducible assumption
    | intro _
    | (extract_lets +onlyGivenNames x; apply keeps_cut (p := Keeps s0 x); (case' hp => (unfold x; clear x)); (case' k => (clear_value x; intro hx)))
    | (extract_lets +onlyGivenNames x; apply keeps_cut (p := Keeps s0 x.2); (case' hp => (unfold x; clear x)); (case' k => (clear_value x; intro hx)))
    | extract_lets +onlyGivenNames x
    | (simp only [keeps_mk]; refine core_of ?_)
    | with_reducible apply outcome_next
    | with_reducible apply State.serveSlice_keeps
    | with_reducible apply State.request_keeps
    | with_reducible apply State.exchange_keeps
    | with_reducible apply State.tick_keeps
    | with_reducible apply State.setCmd_keeps
    | with_reducible apply State.countTable_keeps
    | with_reducible apply State.setRun_keeps
    | (with_reducible refine keeps_of_pair (by assumption) ?_)
    | (with_reducible refine keeps_of_some_snd (by assumption) ?_)
    | (with_reducible refine keeps_of_some_fst (by assumption) ?_)
    | split
    | (clear_value *; split)

theorem execReturnSliceArrive_keeps {s0 : State} (dt : Nat) (ch : Nat) (slice : Bytes) {s : State} (h : Keeps s0 s) : Outcome.all (Keeps s0) (execReturnSliceArrive dt ch slice s) := by
  unfold execReturnSliceArrive
  repeat' first
    | with_reducible assumption
    | (extract_lets +onlyGivenNames x; apply keeps_cut (p := Keeps s0 x); (case' hp => (unfold x; clear x)); (case' k => (clear_value x; intro hx)))
    | extract_lets +onlyGivenNames x
    | with_reducible apply outcome_next
    | with_reducible apply State.tick_keeps
    | with_reducible apply State.countTable_keeps
    | with_reducible apply State.advanceLookup_keeps
    | with_reducible apply State.setRun_keeps
    | split

theorem execExchangeTimeout_keeps {s0 : State} (dt : Nat) (id : Nat) {s : State} (h : Keeps s0 s) : Outcome.all (Keeps s0) (execExchangeTimeout dt id s) := by
  unfold execExchangeTimeout
  repeat' first
    | with_reducible assumption
    | (extract_lets +onlyGivenNames x; apply keeps_cut (p := Keeps s0 x); (case' hp => (unfold x; clear x)); (case' k => (clear_value x; intro hx)))
    | extract_lets +onlyGivenNames x
    | with_reducible apply outcome_next
    | with_reducible apply State.tick_keeps
    | with_reducible apply State.advanceLookup_keeps
    | with_reducible apply State.setRun_keeps
    | with_reducible apply State.countTable_keeps
    | split

end Sys2Proof.Machine
end

