-- ==== Sys2Proof/Laws/KeepsUpdate.lean ====
section
/-! SUPPORT. Every operation of Machine/Update.lean keeps (`Keeps`). -/
set_option linter.tactic.unusedName false
set_option linter.unusedVariables false
set_option linter.unusedSimpArgs false
namespace Sys2Proof.Machine

theorem State.noteEntries_keeps {s0 : State} {s : State} (u : Nat) (h : Keeps s0 s) : Keeps s0 (State.noteEntries s u) := by
  unfold State.noteEntries
  repeat' first
    | with_reducible assumption
    | extract_lets +onlyGivenNames x
    | with_reducible apply State.setNum_keeps
    | split

theorem State.fold_keeps {s0 : State} {s : State} (u : Nat) (k : MergeEntry) (h : Keeps s0 s) : Keeps s0 (State.fold s u k).2 := by
  unfold State.fold
  obtain ⟨f1, e1, k1⟩ : ∃ f1, f1 = @State.readEntryAt ∧ (∀ {s : State} (u : Nat) (e : MergeEntry) (h : Keeps s0 s), Keeps s0 (f1 s u e).2) := ⟨_, rfl, @State.readEntryAt_keeps s0⟩
  rw [← e1]
  clear e1
  obtain ⟨f2, e2, k2⟩ : ∃ f2, f2 = @State.writeEntryAt ∧ (∀ {s : State} (u : Nat) (e : MergeEntry) (h : Keeps s0 s), Keeps s0 (f2 s u e).2) := ⟨_, rfl, @State.writeEntryAt_keeps s0⟩
  rw [← e2]
  clear e2
  repeat' first
    | with_reducible assumption
    | intro _
    | (extract_lets +onlyGivenNames x; apply keeps_cut (p := Keeps s0 x); (case' hp => (unfold x; clear x)); (case' k => (clear_value x; intro hx)))
    | (extract_lets +onlyGivenNames x; apply keeps_cut (p := ∀ t, Keeps s0 t.2 → Keeps s0 (x t).2); (case' hp => (unfold x; clear x)); (case' k => (clear_value x; intro hx)))
    | (with_reducible refine keeps_of_funp (by assumption) ?_)
    | extract_lets +onlyGivenNames x
    | with_reducible apply State.bump_keeps
    | with_reducible apply k1
    | with_reducible apply k2
    | with_reducible apply State.setEntries_keeps
    | with_reducible apply State.makeRoom_keeps
    | with_reducible apply State.noteEntries_keeps
    | with_reducible apply State.countTable_keeps
    | (with_reducible refine keeps_of_pair (by assumption) ?_)
    | split

theorem State.noteDelivered_keeps {s0 : State} {s : State} (u : Nat) (epoch : Nat) (job : Nat) (h : Keeps s0 s) : Keeps s0 (State.noteDelivered s u epoch job) := by
  unfold State.noteDelivered
  repeat' first
    | with_reducible assumption
    | extract_lets +onlyGivenNames x
    | (simp only [keeps_mk]; refine core_of ?_)

theorem State.endRun_keeps {s0 : State} {s : State} (c : Cmd) (record : Bytes) (h : Keeps s0 s) : Keeps s0 (State.endRun s c record) := by
  unfold State.endRun
  repeat' first
    | with_reducible assumption
    | intro _
    | (extract_lets +onlyGivenNames x; apply keeps_cut (p := ∀ t, Keeps s0 t → Keeps s0 (x t)); (case' hp => (unfold x; clear x)); (case' k => (clear_value x; intro hx)))
    | extract_lets +onlyGivenNames x
    | (with_reducible refine keeps_of_fun (by assumption) ?_)
    | (simp only [keeps_mk]; refine core_of ?_)
    | with_reducible apply State.setCmd_keeps
    | with_reducible apply State.writeVa_keeps
    | with_reducible apply State.cmdFault_keeps
    | (with_reducible refine keeps_of_pair (by assumption) ?_)
    | split

theorem State.setPush_keeps {s0 : State} {s : State} (r : PushRun) (h : Keeps s0 s) : Keeps s0 (State.setPush s r) := by
  unfold State.setPush
  repeat' first
    | with_reducible assumption
    | extract_lets +onlyGivenNames x
    | (simp only [keeps_mk]; refine core_of ?_)

theorem State.admitPush_keeps {s0 : State} {s : State} (c : Cmd) (u : Nat) (x' : PushSums) (malformed : Nat) (h : Keeps s0 s) : Keeps s0 (State.admitPush s c u x' malformed) := by
  unfold State.admitPush
  repeat' first
    | with_reducible assumption
    | (extract_lets +onlyGivenNames x; apply keeps_cut (p := Keeps s0 x); (case' hp => (unfold x; clear x)); (case' k => (clear_value x; intro hx)))
    | extract_lets +onlyGivenNames x
    | (simp only [keeps_mk]; refine core_of ?_)
    | with_reducible apply State.endRun_keeps
    | with_reducible apply State.countTable_keeps
    | with_reducible apply State.setCmd_keeps
    | split

theorem State.readPush_keeps {s0 : State} {s : State} (c : Cmd) (t : Table) (x3 : List (Nat × Nat)) (x4 : PushSums) (h : Keeps s0 s) : Keeps s0 (State.readPush s c t x3 x4).2 := by
  induction x3 generalizing s x4 with
  | nil => exact h
  | cons a rest ih =>
    obtain ⟨a0, a1⟩ := a
    unfold State.readPush
    repeat' first
      | with_reducible assumption
      | extract_lets +onlyGivenNames x
      | with_reducible apply State.readVa_keeps
      | with_reducible apply ih
      | (with_reducible refine keeps_of_pair (by assumption) ?_)
      | split

theorem State.pushBody_keeps {s0 : State} {s : State} (c : Cmd) (u : Nat) (offsets : List Nat) (h : Keeps s0 s) : Keeps s0 (State.pushBody s c u offsets) := by
  unfold State.pushBody
  repeat' first
    | with_reducible assumption
    | extract_lets +onlyGivenNames x
    | with_reducible apply State.needRanges_keeps
    | with_reducible apply State.illegal_keeps
    | with_reducible apply State.readPush_keeps
    | with_reducible apply State.cmdFault_keeps
    | with_reducible apply State.admitPush_keeps
    | (with_reducible refine keeps_of_fault (by assumption) ?_)
    | (with_reducible refine keeps_of_pair (by assumption) ?_)
    | (with_reducible refine keeps_of_ready (by assumption) ?_)
    | (with_reducible refine keeps_of_wait (by assumption) ?_)
    | split

theorem State.startPush_keeps {s0 : State} {s : State} (c : Cmd) (u : Nat) (h : Keeps s0 s) : Keeps s0 (State.startPush s c u) := by
  unfold State.startPush
  repeat' first
    | with_reducible assumption
    | extract_lets +onlyGivenNames x
    | with_reducible apply State.illegal_keeps
    | with_reducible apply State.needRanges_keeps
    | with_reducible apply State.pushBody_keeps
    | with_reducible apply State.readVa_keeps
    | with_reducible apply State.cmdFault_keeps
    | (with_reducible refine keeps_of_fault (by assumption) ?_)
    | (with_reducible refine keeps_of_pair (by assumption) ?_)
    | (with_reducible refine keeps_of_ready (by assumption) ?_)
    | (with_reducible refine keeps_of_wait (by assumption) ?_)
    | split

theorem execGradientPush_keeps {s0 : State} (dt : Nat) (u : Nat) {s : State} (h : Keeps s0 s) : Outcome.all (Keeps s0) (execGradientPush dt u s) := by
  unfold execGradientPush
  repeat' first
    | with_reducible assumption
    | (extract_lets +onlyGivenNames x; apply keeps_cut (p := Keeps s0 x); (case' hp => (unfold x; clear x)); (case' k => (clear_value x; intro hx)))
    | extract_lets +onlyGivenNames x
    | with_reducible apply outcome_next
    | with_reducible apply State.tick_keeps
    | with_reducible apply State.startPush_keeps
    | with_reducible apply State.endRun_keeps
    | split

theorem execContributionFold_keeps {s0 : State} (dt : Nat) (u : Nat) {s : State} (h : Keeps s0 s) : Outcome.all (Keeps s0) (execContributionFold dt u s) := by
  unfold execContributionFold
  repeat' first
    | with_reducible assumption
    | (extract_lets +onlyGivenNames x; apply keeps_cut (p := Keeps s0 x); (case' hp => (unfold x; clear x)); (case' k => (clear_value x; intro hx)))
    | (extract_lets +onlyGivenNames x; apply keeps_cut (p := Keeps s0 x.2); (case' hp => (unfold x; clear x)); (case' k => (clear_value x; intro hx)))
    | extract_lets +onlyGivenNames x
    | (simp only [keeps_mk]; refine core_of ?_)
    | with_reducible apply outcome_next
    | with_reducible apply State.tick_keeps
    | with_reducible apply State.fold_keeps
    | with_reducible apply State.noteDelivered_keeps
    | with_reducible apply State.countTable_keeps
    | split

theorem State.sealEntries_keeps {s0 : State} {s : State} (c : Cmd) (r : PushRun) (h : Keeps s0 s) : Keeps s0 (State.sealEntries s c r) := by
  unfold State.sealEntries
  repeat' first
    | with_reducible assumption
    | intro _
    | (extract_lets +onlyGivenNames x; apply keeps_cut (p := Keeps s0 x); (case' hp => (unfold x; clear x)); (case' k => (clear_value x; intro hx)))
    | (extract_lets +onlyGivenNames x; apply keeps_cut (p := Keeps s0 x.2); (case' hp => (unfold x; clear x)); (case' k => (clear_value x; intro hx)))
    | extract_lets +onlyGivenNames x
    | (simp only [keeps_mk]; refine core_of ?_)
    | with_reducible apply State.read_keeps
    | with_reducible apply RowsRun.read_keeps
    | with_reducible apply State.setPush_keeps
    | with_reducible apply State.readEntryAt_keeps
    | with_reducible apply State.setEntries_keeps
    | (with_reducible apply keeps_foldl; intro _ _ _)
    | (with_reducible apply keeps_foldl_snd; intro _ _ _)
    | split
    | (clear_value *; split)

theorem State.giveSealed_keeps {s0 : State} {s : State} (u : Nat) (e : MergeEntry) (h : Keeps s0 s) : Keeps s0 (State.giveSealed s u e) := by
  unfold State.giveSealed
  repeat' first
    | with_reducible assumption
    | intro _
    | (extract_lets +onlyGivenNames x; apply keeps_cut (p := Keeps s0 x); (case' hp => (unfold x; clear x)); (case' k => (clear_value x; intro hx)))
    | (extract_lets +onlyGivenNames x; apply keeps_cut (p := Keeps s0 x.2); (case' hp => (unfold x; clear x)); (case' k => (clear_value x; intro hx)))
    | extract_lets +onlyGivenNames x
    | (simp only [keeps_mk]; refine core_of ?_)
    | with_reducible apply State.settleArea_keeps
    | with_reducible apply State.writeEntryAt_keeps
    | with_reducible apply State.dropEntry_keeps
    | with_reducible apply State.setEntries_keeps
    | (with_reducible refine keeps_of_pair (by assumption) ?_)
    | (with_reducible refine keeps_of_some_snd (by assumption) ?_)
    | (with_reducible refine keeps_of_some_fst (by assumption) ?_)
    | split
    | (clear_value *; split)

theorem State.handSlices_keeps {s0 : State} {s : State} (c : Cmd) (r : PushRun) (h : Keeps s0 s) : Keeps s0 (State.handSlices s c r) := by
  unfold State.handSlices
  repeat' first
    | with_reducible assumption
    | intro _
    | (extract_lets +onlyGivenNames x; apply keeps_cut (p := Keeps s0 x); (case' hp => (unfold x; clear x)); (case' k => (clear_value x; intro hx)))
    | (extract_lets +onlyGivenNames x; apply keeps_cut (p := Keeps s0 x.2); (case' hp => (unfold x; clear x)); (case' k => (clear_value x; intro hx)))
    | extract_lets +onlyGivenNames x
    | (simp only [keeps_mk]; refine core_of ?_)
    | with_reducible apply State.giveSealed_keeps
    | with_reducible apply State.offer_keeps
    | with_reducible apply State.setPush_keeps
    | with_reducible apply State.setCmd_keeps
    | with_reducible apply State.countTable_keeps
    | (with_reducible apply keeps_foldl; intro _ _ _)
    | (with_reducible apply keeps_foldl_snd; intro _ _ _)
    | split
    | (clear_value *; split)

theorem State.endExchange_keeps {s0 : State} {s : State} (c : Cmd) (r : PushRun) (h : Keeps s0 s) : Keeps s0 (State.endExchange s c r) := by
  unfold State.endExchange
  repeat' first
    | with_reducible assumption
    | (extract_lets +onlyGivenNames x; apply keeps_cut (p := Keeps s0 x); (case' hp => (unfold x; clear x)); (case' k => (clear_value x; intro hx)))
    | extract_lets +onlyGivenNames x
    | (simp only [keeps_mk]; refine core_of ?_)
    | with_reducible apply State.freeChannel_keeps
    | with_reducible apply State.endRun_keeps

theorem State.expireExchange_keeps {s0 : State} {s : State} (c : Cmd) (r : PushRun) (h : Keeps s0 s) : Keeps s0 (State.expireExchange s c r) := by
  unfold State.expireExchange
  repeat' first
    | with_reducible assumption
    | intro _
    | (extract_lets +onlyGivenNames x; apply keeps_cut (p := Keeps s0 x); (case' hp => (unfold x; clear x)); (case' k => (clear_value x; intro hx)))
    | (extract_lets +onlyGivenNames x; apply keeps_cut (p := Keeps s0 x.2); (case' hp => (unfold x; clear x)); (case' k => (clear_value x; intro hx)))
    | extract_lets +onlyGivenNames x
    | (simp only [keeps_mk]; refine core_of ?_)
    | with_reducible apply State.exchange_keeps
    | with_reducible apply State.endExchange_keeps
    | with_reducible apply State.countTable_keeps
    | with_reducible apply State.leaveChannel_keeps
    | with_reducible apply State.setEntries_keeps
    | (with_reducible apply keeps_foldl; intro _ _ _)
    | (with_reducible apply keeps_foldl_snd; intro _ _ _)
    | split
    | (clear_value *; split)

theorem State.handExchange_keeps {s0 : State} {s : State} (c : Cmd) (r : PushRun) (h : Keeps s0 s) : Keeps s0 (State.handExchange s c r) := by
  unfold State.handExchange
  repeat' first
    | with_reducible assumption
    | intro _
    | (extract_lets +onlyGivenNames x; apply keeps_cut (p := Keeps s0 x); (case' hp => (unfold x; clear x)); (case' k => (clear_value x; intro hx)))
    | (extract_lets +onlyGivenNames x; apply keeps_cut (p := Keeps s0 x.2); (case' hp => (unfold x; clear x)); (case' k => (clear_value x; intro hx)))
    | extract_lets +onlyGivenNames x
    | (simp only [keeps_mk]; refine core_of ?_)
    | with_reducible apply State.exchange_keeps
    | with_reducible apply State.expireExchange_keeps
    | with_reducible apply State.handSlices_keeps
    | with_reducible apply State.setCmd_keeps
    | with_reducible apply State.askChannel_keeps
    | split
    | (clear_value *; split)

theorem State.stampExchange_keeps {s0 : State} {s : State} (c : Cmd) (u : Nat) (h : Keeps s0 s) : Keeps s0 (State.stampExchange s c u) := by
  unfold State.stampExchange
  repeat' first
    | with_reducible assumption
    | intro _
    | (extract_lets +onlyGivenNames x; apply keeps_cut (p := Keeps s0 x); (case' hp => (unfold x; clear x)); (case' k => (clear_value x; intro hx)))
    | (extract_lets +onlyGivenNames x; apply keeps_cut (p := Keeps s0 x.2); (case' hp => (unfold x; clear x)); (case' k => (clear_value x; intro hx)))
    | extract_lets +onlyGivenNames x
    | (simp only [keeps_mk]; refine core_of ?_)
    | with_reducible apply State.handExchange_keeps
    | with_reducible apply State.sealEntries_keeps
    | with_reducible apply State.setCmd_keeps
    | (with_reducible refine keeps_of_pair (by assumption) ?_)
    | (with_reducible refine keeps_of_some_snd (by assumption) ?_)
    | (with_reducible refine keeps_of_some_fst (by assumption) ?_)
    | split
    | (clear_value *; split)

theorem State.startExchange_keeps {s0 : State} {s : State} (c : Cmd) (u : Nat) (h : Keeps s0 s) : Keeps s0 (State.startExchange s c u) := by
  unfold State.startExchange
  repeat' first
    | with_reducible assumption
    | intro _
    | (extract_lets +onlyGivenNames x; apply keeps_cut (p := Keeps s0 x); (case' hp => (unfold x; clear x)); (case' k => (clear_value x; intro hx)))
    | (extract_lets +onlyGivenNames x; apply keeps_cut (p := Keeps s0 x.2); (case' hp => (unfold x; clear x)); (case' k => (clear_value x; intro hx)))
    | extract_lets +onlyGivenNames x
    | (simp only [keeps_mk]; refine core_of ?_)
    | with_reducible apply State.illegal_keeps
    | with_reducible apply State.stampExchange_keeps
    | with_reducible apply State.exchange_keeps
    | with_reducible apply State.needRanges_keeps
    | (with_reducible refine keeps_of_ready (by assumption) ?_)
    | (with_reducible refine keeps_of_wait (by assumption) ?_)
    | (with_reducible refine keeps_of_fault (by assumption) ?_)
    | with_reducible apply pages_ready
    | with_reducible apply pages_wait
    | with_reducible apply pages_fault
    | (with_reducible refine keeps_of_pair (by assumption) ?_)
    | (with_reducible refine keeps_of_some_snd (by assumption) ?_)
    | (with_reducible refine keeps_of_some_fst (by assumption) ?_)
    | split
    | (clear_value *; split)

theorem execUpdateExchange_keeps {s0 : State} (dt : Nat) (u : Nat) {s : State} (h : Keeps s0 s) : Outcome.all (Keeps s0) (execUpdateExchange dt u s) := by
  unfold execUpdateExchange
  repeat' first
    | with_reducible assumption
    | intro _
    | (extract_lets +onlyGivenNames x; apply keeps_cut (p := Keeps s0 x); (case' hp => (unfold x; clear x)); (case' k => (clear_value x; intro hx)))
    | (extract_lets +onlyGivenNames x; apply keeps_cut (p := Keeps s0 x.2); (case' hp => (unfold x; clear x)); (case' k => (clear_value x; intro hx)))
    | extract_lets +onlyGivenNames x
    | (simp only [keeps_mk]; refine core_of ?_)
    | with_reducible apply outcome_next
    | with_reducible apply State.startExchange_keeps
    | with_reducible apply State.handExchange_keeps
    | with_reducible apply State.exchange_keeps
    | with_reducible apply State.tick_keeps
    | with_reducible apply State.endExchange_keeps
    | (with_reducible refine keeps_of_pair (by assumption) ?_)
    | (with_reducible refine keeps_of_some_snd (by assumption) ?_)
    | (with_reducible refine keeps_of_some_fst (by assumption) ?_)
    | split
    | (clear_value *; split)

theorem State.foldSlice_keeps {s0 : State} {s : State} (n : Nat) (chip : Nat) (job : Nat) (used : Nat) (slice : Bytes) (h : Keeps s0 s) : Keeps s0 (State.foldSlice s n chip job used slice) := by
  unfold State.foldSlice
  repeat' first
    | with_reducible assumption
    | extract_lets +onlyGivenNames x
    | with_reducible apply State.noteDelivered_keeps
    | with_reducible apply State.fold_keeps
    | (with_reducible apply keeps_foldl; intro _ _ _)
    | split

theorem execUpdateSliceArrive_keeps {s0 : State} (dt : Nat) (ch : Nat) (slice : Bytes) {s : State} (h : Keeps s0 s) : Outcome.all (Keeps s0) (execUpdateSliceArrive dt ch slice s) := by
  unfold execUpdateSliceArrive
  repeat' first
    | with_reducible assumption
    | intro _
    | (extract_lets +onlyGivenNames x; apply keeps_cut (p := Keeps s0 x); (case' hp => (unfold x; clear x)); (case' k => (clear_value x; intro hx)))
    | (extract_lets +onlyGivenNames x; apply keeps_cut (p := ∀ t, Keeps s0 t → Keeps s0 (x t)); (case' hp => (unfold x; clear x)); (case' k => (clear_value x; intro hx)))
    | extract_lets +onlyGivenNames x
    | (with_reducible refine keeps_of_fun (by assumption) ?_)
    | with_reducible apply outcome_next
    | with_reducible apply State.tick_keeps
    | with_reducible apply State.countTable_keeps
    | with_reducible apply State.foldSlice_keeps
    | with_reducible apply State.setPush_keeps
    | split

theorem execUpdateExchangeTimeout_keeps {s0 : State} (dt : Nat) (u : Nat) {s : State} (h : Keeps s0 s) : Outcome.all (Keeps s0) (execUpdateExchangeTimeout dt u s) := by
  unfold execUpdateExchangeTimeout
  repeat' first
    | with_reducible assumption
    | intro _
    | (extract_lets +onlyGivenNames x; apply keeps_cut (p := Keeps s0 x); (case' hp => (unfold x; clear x)); (case' k => (clear_value x; intro hx)))
    | (extract_lets +onlyGivenNames x; apply keeps_cut (p := Keeps s0 x.2); (case' hp => (unfold x; clear x)); (case' k => (clear_value x; intro hx)))
    | extract_lets +onlyGivenNames x
    | (simp only [keeps_mk]; refine core_of ?_)
    | with_reducible apply outcome_next
    | with_reducible apply State.expireExchange_keeps
    | with_reducible apply State.tick_keeps
    | (with_reducible refine keeps_of_pair (by assumption) ?_)
    | (with_reducible refine keeps_of_some_snd (by assumption) ?_)
    | (with_reducible refine keeps_of_some_fst (by assumption) ?_)
    | split
    | (clear_value *; split)

theorem State.trainConfigure_keeps {s0 : State} {s : State} (c : Cmd) (h : Keeps s0 s) : Keeps s0 (State.trainConfigure s c) := by
  unfold State.trainConfigure
  repeat' first
    | with_reducible assumption
    | extract_lets +onlyGivenNames x
    | with_reducible apply State.adminEnd_keeps
    | with_reducible apply State.setTable_keeps
    | with_reducible apply State.resolvePages_keeps
    | with_reducible apply State.pageFault_keeps
    | (with_reducible refine keeps_of_pair (by assumption) ?_)
    | split

theorem execTrainConfigure_keeps {s0 : State} (dt : Nat) (u : Nat) {s : State} (h : Keeps s0 s) : Outcome.all (Keeps s0) (execTrainConfigure dt u s) := by
  unfold execTrainConfigure
  repeat' first
    | with_reducible assumption
    | (extract_lets +onlyGivenNames x; apply keeps_cut (p := Keeps s0 x); (case' hp => (unfold x; clear x)); (case' k => (clear_value x; intro hx)))
    | extract_lets +onlyGivenNames x
    | with_reducible apply outcome_next
    | with_reducible apply State.tick_keeps
    | with_reducible apply State.illegal_keeps
    | with_reducible apply State.needRanges_keeps
    | with_reducible apply State.trainConfigure_keeps
    | (with_reducible refine keeps_of_fault (by assumption) ?_)
    | (with_reducible refine keeps_of_ready (by assumption) ?_)
    | (with_reducible refine keeps_of_wait (by assumption) ?_)
    | split

end Sys2Proof.Machine
end

