-- ==== Sys2Proof/Laws/KeepsApply.lean ====
section
/-! SUPPORT. Every operation of Machine/Apply.lean keeps (`Keeps`). -/
set_option linter.tactic.unusedName false
set_option linter.unusedVariables false
set_option linter.unusedSimpArgs false
namespace Sys2Proof.Machine

theorem State.takeGradient_keeps {s0 : State} {s : State} (u : Nat) (n : Nat) (b : Nat) (h : Keeps s0 s) : Keeps s0 (State.takeGradient s u n b).2 := by
  unfold State.takeGradient
  repeat' first
    | with_reducible assumption
    | extract_lets +onlyGivenNames x
    | with_reducible apply State.readEntryAt_keeps
    | with_reducible apply State.dropEntry_keeps
    | (with_reducible refine keeps_of_pair (by assumption) ?_)
    | (with_reducible apply keeps_foldl_snd; intro _ _ _)
    | split

theorem State.digestRow_keeps {s0 : State} {s : State} (n : Nat) (b : Nat) (tier : Nat) (slot : Bytes) (state : Bytes) (h : Keeps s0 s) : Keeps s0 (State.digestRow s n b tier slot state) := by
  unfold State.digestRow
  repeat' first
    | with_reducible assumption
    | extract_lets +onlyGivenNames x
    | (simp only [keeps_mk]; refine core_of ?_)
    | (with_reducible apply keeps_foldl; intro _ _ _)
    | split

theorem State.clearMove_keeps {s0 : State} {s : State} (n : Nat) (b : Nat) (h : Keeps s0 s) : Keeps s0 (State.clearMove s n b) := by
  unfold State.clearMove
  repeat' first
    | with_reducible assumption
    | extract_lets +onlyGivenNames x
    | with_reducible apply State.setTable_keeps

theorem State.doMove_keeps {s0 : State} {s : State} (u : Nat) (n : Nat) (b : Nat) (m : Option Move) (h : Keeps s0 s) : Keeps s0 (State.doMove s u n b m) := by
  unfold State.doMove
  repeat' first
    | with_reducible assumption
    | with_reducible apply State.moveRowTo_keeps
    | split

theorem State.rowBefore_keeps {s0 : State} {s : State} (n : Nat) (b : Nat) (h : Keeps s0 s) : Keeps s0 (State.rowBefore s n b).2 := by
  unfold State.rowBefore
  repeat' first
    | with_reducible assumption
    | extract_lets +onlyGivenNames x
    | with_reducible apply State.readEntry_keeps
    | with_reducible apply State.readSlot_keeps
    | with_reducible apply State.readCut_keeps
    | (with_reducible refine keeps_of_pair (by assumption) ?_)
    | split

theorem State.dropMove_keeps {s0 : State} {s : State} (n : Nat) (m : Option Move) (h : Keeps s0 s) : Keeps s0 (State.dropMove s n m) := by
  unfold State.dropMove
  repeat' first
    | with_reducible assumption
    | intro _
    | (extract_lets +onlyGivenNames x; apply keeps_cut (p := Keeps s0 x); (case' hp => (unfold x; clear x)); (case' k => (clear_value x; intro hx)))
    | (extract_lets +onlyGivenNames x; apply keeps_cut (p := Keeps s0 x.2); (case' hp => (unfold x; clear x)); (case' k => (clear_value x; intro hx)))
    | extract_lets +onlyGivenNames x
    | (simp only [keeps_mk]; refine core_of ?_)
    | with_reducible apply RowsRun.load_keeps
    | with_reducible apply State.giveBack_keeps
    | (with_reducible refine keeps_of_pair (by assumption) ?_)
    | (with_reducible refine keeps_of_some_snd (by assumption) ?_)
    | (with_reducible refine keeps_of_some_fst (by assumption) ?_)
    | split
    | (clear_value *; split)

theorem State.storeStep_keeps {s0 : State} {s : State} (u : Nat) (n : Nat) (b : Nat) (old : Nat × Nat) (dest : Nat) (slot : Nat) (row : Bytes) (state : Bytes) (h : Keeps s0 s) : Keeps s0 (State.storeStep s u n b old dest slot row state) := by
  unfold State.storeStep
  obtain ⟨f2, e2, k2⟩ : ∃ f2, f2 = @State.writeCut ∧ (∀ {s : State} (acc : Access) (x2 : List (Nat × Nat)) (x3 : Bytes) (h : Keeps s0 s), Keeps s0 (f2 s acc x2 x3).2) := ⟨_, rfl, @State.writeCut_keeps s0⟩
  rw [← e2]
  clear e2
  obtain ⟨f3, e3, k3⟩ : ∃ f3, f3 = @State.writeMoved ∧ (∀ {s : State} (acc : Access) (n : Nat) (b : Nat) (tier : Nat) (slot : Nat) (data : Bytes) (h : Keeps s0 s), Keeps s0 (f3 s acc n b tier slot data).2) := ⟨_, rfl, @State.writeMoved_keeps s0⟩
  rw [← e3]
  clear e3
  repeat' first
    | with_reducible assumption
    | (extract_lets +onlyGivenNames x; clear_value x)
    | with_reducible apply State.applyBad_keeps
    | with_reducible apply State.giveBack_keeps
    | with_reducible apply k2
    | with_reducible apply k3
    | with_reducible apply State.releaseSlot_keeps
    | with_reducible apply State.setTable_keeps
    | with_reducible apply State.bump_keeps
    | with_reducible apply State.countTable_keeps
    | with_reducible apply State.digestRow_keeps
    | with_reducible apply State.refreshRow_keeps
    | (with_reducible refine keeps_of_pair (by assumption) ?_)
    | split
    | dsimp only

theorem State.stepRow_keeps {s0 : State} {s : State} (p : Part) (b : Nat) (g : List Nat) (m : Option Move) (h : Keeps s0 s) : Keeps s0 (State.stepRow s p b g m) := by
  unfold State.stepRow
  repeat' first
    | with_reducible assumption
    | intro _
    | (extract_lets +onlyGivenNames x; apply keeps_cut (p := Keeps s0 x); (case' hp => (unfold x; clear x)); (case' k => (clear_value x; intro hx)))
    | (extract_lets +onlyGivenNames x; apply keeps_cut (p := Keeps s0 x.2); (case' hp => (unfold x; clear x)); (case' k => (clear_value x; intro hx)))
    | extract_lets +onlyGivenNames x
    | (simp only [keeps_mk]; refine core_of ?_)
    | with_reducible apply State.applyBad_keeps
    | with_reducible apply State.takeSlot_keeps
    | with_reducible apply State.storeStep_keeps
    | with_reducible apply State.dropMove_keeps
    | with_reducible apply State.rowBefore_keeps
    | with_reducible apply State.countTable_keeps
    | (with_reducible refine keeps_of_pair (by assumption) ?_)
    | (with_reducible refine keeps_of_triple (by assumption) ?_)
    | (with_reducible refine keeps_of_some_snd (by assumption) ?_)
    | (with_reducible refine keeps_of_some_fst (by assumption) ?_)
    | with_reducible apply someAll_none
    | with_reducible apply someAll_some
    | split
    | (clear_value *; split)

theorem State.applyOne_keeps {s0 : State} {s : State} (p : Part) (b : Nat) (h : Keeps s0 s) : Keeps s0 (State.applyOne s p b) := by
  unfold State.applyOne
  repeat' first
    | with_reducible assumption
    | (extract_lets +onlyGivenNames x; apply keeps_cut (p := Keeps s0 x); (case' hp => (unfold x; clear x)); (case' k => (clear_value x; intro hx)))
    | extract_lets +onlyGivenNames x
    | with_reducible apply State.clearMove_keeps
    | with_reducible apply State.takeGradient_keeps
    | with_reducible apply State.doMove_keeps
    | with_reducible apply State.settleArea_keeps
    | with_reducible apply State.stepRow_keeps
    | (with_reducible refine keeps_of_pair (by assumption) ?_)
    | split

theorem State.digestsDue_keeps {s0 : State} {s : State} (h : Keeps s0 s) : Keeps s0 (State.digestsDue s) := by
  unfold State.digestsDue
  repeat' first
    | with_reducible assumption
    | extract_lets +onlyGivenNames x
    | (simp only [keeps_mk]; refine core_of ?_)
    | (with_reducible apply keeps_foldl; intro _ _ _)
    | split

theorem State.endPhase_keeps {s0 : State} {s : State} (h : Keeps s0 s) : Keeps s0 (State.endPhase s) := by
  unfold State.endPhase
  repeat' first
    | with_reducible assumption
    | (extract_lets +onlyGivenNames x; apply keeps_cut (p := Keeps s0 x); (case' hp => (unfold x; clear x)); (case' k => (clear_value x; intro hx)))
    | extract_lets +onlyGivenNames x
    | (simp only [keeps_mk]; refine core_of ?_)
    | with_reducible apply State.setNum_keeps
    | with_reducible apply State.setFlag_keeps
    | with_reducible apply State.chargeApply_keeps
    | with_reducible apply State.signalEpochs_keeps
    | with_reducible apply State.digestsDue_keeps
    | (with_reducible apply keeps_foldl; intro _ _ _)
    | split

theorem State.dropRefresh_keeps {s0 : State} {s : State} (n : Nat) (h : Keeps s0 s) : Keeps s0 (State.dropRefresh s n) := by
  unfold State.dropRefresh
  repeat' first
    | with_reducible assumption
    | intro _
    | (extract_lets +onlyGivenNames x; apply keeps_cut (p := Keeps s0 x); (case' hp => (unfold x; clear x)); (case' k => (clear_value x; intro hx)))
    | (extract_lets +onlyGivenNames x; apply keeps_cut (p := Keeps s0 x.2); (case' hp => (unfold x; clear x)); (case' k => (clear_value x; intro hx)))
    | extract_lets +onlyGivenNames x
    | (simp only [keeps_mk]; refine core_of ?_)
    | split
    | (clear_value *; split)

theorem State.wakeLookups_keeps {s0 : State} {s : State} (n : Nat) (h : Keeps s0 s) : Keeps s0 (State.wakeLookups s n) := by
  unfold State.wakeLookups
  repeat' first
    | with_reducible assumption
    | intro _
    | (extract_lets +onlyGivenNames x; apply keeps_cut (p := Keeps s0 x); (case' hp => (unfold x; clear x)); (case' k => (clear_value x; intro hx)))
    | (extract_lets +onlyGivenNames x; apply keeps_cut (p := Keeps s0 x.2); (case' hp => (unfold x; clear x)); (case' k => (clear_value x; intro hx)))
    | extract_lets +onlyGivenNames x
    | (simp only [keeps_mk]; refine core_of ?_)
    | split
    | (clear_value *; split)

theorem State.endRefresh_keeps {s0 : State} {s : State} (p : Part) (h : Keeps s0 s) : Keeps s0 (State.endRefresh s p) := by
  unfold State.endRefresh
  repeat' first
    | with_reducible assumption
    | intro _
    | (extract_lets +onlyGivenNames x; apply keeps_cut (p := Keeps s0 x); (case' hp => (unfold x; clear x)); (case' k => (clear_value x; intro hx)))
    | (extract_lets +onlyGivenNames x; apply keeps_cut (p := Keeps s0 x.2); (case' hp => (unfold x; clear x)); (case' k => (clear_value x; intro hx)))
    | extract_lets +onlyGivenNames x
    | with_reducible apply State.serveWaiting_keeps
    | with_reducible apply State.wakeLookups_keeps
    | with_reducible apply State.leaveChannel_keeps
    | with_reducible apply State.freeChannel_keeps
    | split
    | (clear_value *; split)

theorem State.setPart_keeps {s0 : State} {s : State} (p : Part) (h : Keeps s0 s) : Keeps s0 (State.setPart s p) := by
  unfold State.setPart
  repeat' first
    | with_reducible assumption
    | extract_lets +onlyGivenNames x
    | (simp only [keeps_mk]; refine core_of ?_)

theorem State.endParts_keeps {s0 : State} {s : State} (n : Nat) (h : Keeps s0 s) : Keeps s0 (State.endParts s n) := by
  unfold State.endParts
  repeat' first
    | with_reducible assumption
    | extract_lets +onlyGivenNames x
    | with_reducible apply State.endPhase_keeps
    | with_reducible apply State.endRefresh_keeps
    | with_reducible apply State.setPart_keeps
    | (with_reducible apply keeps_foldl; intro _ _ _)
    | split

theorem State.sendMarkers_keeps {s0 : State} {s : State} (p : Part) (h : Keeps s0 s) : Keeps s0 (State.sendMarkers s p) := by
  unfold State.sendMarkers
  repeat' first
    | with_reducible assumption
    | extract_lets +onlyGivenNames x
    | with_reducible apply State.offer_keeps
    | (with_reducible apply keeps_foldl; intro _ _ _)
    | split

theorem State.finishPart_keeps {s0 : State} {s : State} (p : Part) (h : Keeps s0 s) : Keeps s0 (State.finishPart s p) := by
  unfold State.finishPart
  repeat' first
    | with_reducible assumption
    | (extract_lets +onlyGivenNames x; apply keeps_cut (p := Keeps s0 x); (case' hp => (unfold x; clear x)); (case' k => (clear_value x; intro hx)))
    | extract_lets +onlyGivenNames x
    | with_reducible apply State.refreshDirty_keeps
    | with_reducible apply State.applyChanges_keeps
    | with_reducible apply State.endParts_keeps
    | with_reducible apply State.setPart_keeps
    | with_reducible apply State.sendMarkers_keeps
    | split

theorem execApplyTableStart_keeps {s0 : State} (dt : Nat) (u : Nat) (n : Nat) {s : State} (h : Keeps s0 s) : Outcome.all (Keeps s0) (execApplyTableStart dt u n s) := by
  unfold execApplyTableStart
  repeat' first
    | with_reducible assumption
    | (extract_lets +onlyGivenNames x; apply keeps_cut (p := Keeps s0 x); (case' hp => (unfold x; clear x)); (case' k => (clear_value x; intro hx)))
    | extract_lets +onlyGivenNames x
    | (simp only [keeps_mk]; refine core_of ?_)
    | with_reducible apply outcome_next
    | with_reducible apply State.tick_keeps
    | with_reducible apply State.setPart_keeps
    | split

theorem execApplyRow_keeps {s0 : State} (dt : Nat) (u : Nat) {s : State} (h : Keeps s0 s) : Outcome.all (Keeps s0) (execApplyRow dt u s) := by
  unfold execApplyRow
  repeat' first
    | with_reducible assumption
    | intro _
    | (extract_lets +onlyGivenNames x; apply keeps_cut (p := Keeps s0 x); (case' hp => (unfold x; clear x)); (case' k => (clear_value x; intro hx)))
    | (extract_lets +onlyGivenNames x; apply keeps_cut (p := Keeps s0 x.2); (case' hp => (unfold x; clear x)); (case' k => (clear_value x; intro hx)))
    | extract_lets +onlyGivenNames x
    | (simp only [keeps_mk]; refine core_of ?_)
    | with_reducible apply outcome_next
    | with_reducible apply State.tick_keeps
    | with_reducible apply State.finishPart_keeps
    | with_reducible apply State.endParts_keeps
    | with_reducible apply State.applyOne_keeps
    | with_reducible apply State.chargeUnit_keeps
    | (with_reducible apply keeps_foldl; intro _ _ _)
    | (with_reducible refine keeps_of_pair (by assumption) ?_)
    | (with_reducible refine keeps_of_some_snd (by assumption) ?_)
    | (with_reducible refine keeps_of_some_fst (by assumption) ?_)
    | split
    | (clear_value *; split)

theorem State.carryRow_keeps {s0 : State} {s : State} (u : Nat) (n : Nat) (b : Nat) (h : Keeps s0 s) : Keeps s0 (State.carryRow s u n b) := by
  unfold State.carryRow
  repeat' first
    | with_reducible assumption
    | extract_lets +onlyGivenNames x
    | with_reducible apply State.takeGradient_keeps
    | with_reducible apply State.countTable_keeps
    | with_reducible apply State.writeEntryAt_keeps
    | with_reducible apply State.setEntries_keeps
    | (with_reducible refine keeps_of_pair (by assumption) ?_)
    | split

theorem State.expirePart_keeps {s0 : State} {s : State} (p : Part) (h : Keeps s0 s) : Keeps s0 (State.expirePart s p) := by
  unfold State.expirePart
  repeat' first
    | with_reducible assumption
    | intro _
    | (extract_lets +onlyGivenNames x; apply keeps_cut (p := Keeps s0 x); (case' hp => (unfold x; clear x)); (case' k => (clear_value x; intro hx)))
    | (extract_lets +onlyGivenNames x; apply keeps_cut (p := Keeps s0 x.2); (case' hp => (unfold x; clear x)); (case' k => (clear_value x; intro hx)))
    | extract_lets +onlyGivenNames x
    | (simp only [keeps_mk]; refine core_of ?_)
    | with_reducible apply State.carryRow_keeps
    | with_reducible apply State.setPart_keeps
    | with_reducible apply State.endRefresh_keeps
    | with_reducible apply State.dropRefresh_keeps
    | with_reducible apply State.giveBack_keeps
    | with_reducible apply State.clearMove_keeps
    | with_reducible apply State.settleArea_keeps
    | with_reducible apply State.countTable_keeps
    | (with_reducible apply keeps_foldl; intro _ _ _)
    | split
    | (clear_value *; split)

theorem execApplyBudgetExpire_keeps {s0 : State} (dt : Nat) (u : Nat) (n : Nat) {s : State} (h : Keeps s0 s) : Outcome.all (Keeps s0) (execApplyBudgetExpire dt u n s) := by
  unfold execApplyBudgetExpire
  repeat' first
    | with_reducible assumption
    | (extract_lets +onlyGivenNames x; apply keeps_cut (p := Keeps s0 x); (case' hp => (unfold x; clear x)); (case' k => (clear_value x; intro hx)))
    | extract_lets +onlyGivenNames x
    | with_reducible apply outcome_next
    | with_reducible apply State.tick_keeps
    | with_reducible apply State.endPhase_keeps
    | with_reducible apply State.expirePart_keeps
    | split

theorem execSlotRelease_keeps {s0 : State} (dt : Nat) (n : Nat) {s : State} (h : Keeps s0 s) : Outcome.all (Keeps s0) (execSlotRelease dt n s) := by
  unfold execSlotRelease
  repeat' first
    | with_reducible assumption
    | (extract_lets +onlyGivenNames x; apply keeps_cut (p := Keeps s0 x); (case' hp => (unfold x; clear x)); (case' k => (clear_value x; intro hx)))
    | extract_lets +onlyGivenNames x
    | with_reducible apply outcome_next
    | with_reducible apply State.tick_keeps
    | with_reducible apply State.setTable_keeps
    | split

theorem execRefreshSlotReceive_keeps {s0 : State} (dt : Nat) (n : Nat) (row : Nat) (tier : Nat) (slot : Bytes) {s : State} (h : Keeps s0 s) : Outcome.all (Keeps s0) (execRefreshSlotReceive dt n row tier slot s) := by
  unfold execRefreshSlotReceive
  repeat' first
    | with_reducible assumption
    | (extract_lets +onlyGivenNames x; apply keeps_cut (p := Keeps s0 x); (case' hp => (unfold x; clear x)); (case' k => (clear_value x; intro hx)))
    | extract_lets +onlyGivenNames x
    | with_reducible apply outcome_next
    | with_reducible apply State.tick_keeps
    | with_reducible apply State.writeCopies_keeps
    | with_reducible apply State.applyBad_keeps
    | with_reducible apply State.setTable_keeps
    | (with_reducible refine keeps_of_pair (by assumption) ?_)
    | split

theorem execRefreshMarkerReceive_keeps {s0 : State} (dt : Nat) (n : Nat) (chip : Nat) (unit : Nat) {s : State} (h : Keeps s0 s) : Outcome.all (Keeps s0) (execRefreshMarkerReceive dt n chip unit s) := by
  unfold execRefreshMarkerReceive
  repeat' first
    | with_reducible assumption
    | (extract_lets +onlyGivenNames x; apply keeps_cut (p := Keeps s0 x); (case' hp => (unfold x; clear x)); (case' k => (clear_value x; intro hx)))
    | extract_lets +onlyGivenNames x
    | (simp only [keeps_mk]; refine core_of ?_)
    | with_reducible apply outcome_next
    | with_reducible apply State.tick_keeps
    | with_reducible apply State.endParts_keeps
    | split

end Sys2Proof.Machine
end

