-- ==== Sys2Proof/Laws/KeepsFabric.lean ====
section
/-! SUPPORT. Every operation of Machine/Fabric.lean keeps (`Keeps`). -/
set_option linter.tactic.unusedName false
set_option linter.unusedVariables false
set_option linter.unusedSimpArgs false
namespace Sys2Proof.Machine

theorem State.frameIn_keeps {s0 : State} {s : State} (p : Nat) (payload : Nat) (h : Keeps s0 s) : Keeps s0 (State.frameIn s p payload) := by
  unfold State.frameIn
  repeat' first
    | with_reducible assumption
    | extract_lets +onlyGivenNames x
    | with_reducible apply State.bump_keeps

theorem State.sendAck_keeps {s0 : State} {s : State} (p : Nat) (nak : Bool) (h : Keeps s0 s) : Keeps s0 (State.sendAck s p nak) := by
  unfold State.sendAck
  repeat' first
    | with_reducible assumption
    | with_reducible apply State.sendControl_keeps

theorem State.refuseRemote_keeps {s0 : State} {s : State} (f : Bytes) (h : Keeps s0 s) : Keeps s0 (State.refuseRemote s f) := by
  unfold State.refuseRemote
  repeat' first
    | with_reducible assumption
    | with_reducible apply State.sendTo_keeps

theorem State.passOn_keeps {s0 : State} {s : State} (p : Nat) (f : Bytes) (h : Keeps s0 s) : Keeps s0 (State.passOn s p f) := by
  unfold State.passOn
  repeat' first
    | with_reducible assumption
    | extract_lets +onlyGivenNames x
    | with_reducible apply State.refuseRemote_keeps
    | with_reducible apply State.sendBody_keeps
    | split

theorem execSequencedFrameReceive_keeps {s0 : State} (dt : Nat) (p : Nat) (corrected : Nat) (uncorrectable : Nat) (f : Bytes) {s : State} (h : Keeps s0 s) : Outcome.all (Keeps s0) (execSequencedFrameReceive dt p corrected uncorrectable f s) := by
  unfold execSequencedFrameReceive
  repeat' first
    | with_reducible assumption
    | (extract_lets +onlyGivenNames x; apply keeps_cut (p := Keeps s0 x); (case' hp => (unfold x; clear x)); (case' k => (clear_value x; intro hx)))
    | extract_lets +onlyGivenNames x
    | with_reducible apply outcome_next
    | with_reducible apply State.tick_keeps
    | with_reducible apply State.bump_keeps
    | with_reducible apply State.frameIn_keeps
    | with_reducible apply State.setPort_keeps
    | with_reducible apply State.sendAck_keeps
    | with_reducible apply State.passOn_keeps
    | split

theorem State.drainPort_keeps {s0 : State} {s : State} (p : Nat) (x2 : Nat) (h : Keeps s0 s) : Keeps s0 (State.drainPort s p x2) := by
  induction x2 generalizing s with
  | zero => exact h
  | succ fuel ih =>
    unfold State.drainPort
    repeat' first
      | with_reducible assumption
      | extract_lets +onlyGivenNames x
      | (with_reducible refine keeps_of_fun (by assumption) ?_)
      | with_reducible apply State.putFrame_keeps
      | with_reducible apply State.setPort_keeps
      | split

theorem State.replayPort_keeps {s0 : State} {s : State} (p : Nat) (h : Keeps s0 s) : Keeps s0 (State.replayPort s p) := by
  unfold State.replayPort
  repeat' first
    | with_reducible assumption
    | extract_lets +onlyGivenNames x
    | with_reducible apply State.bump_keeps
    | with_reducible apply State.putFrame_keeps
    | (with_reducible apply keeps_foldl; intro _ _ _)

theorem execAcknowledgeReceive_keeps {s0 : State} (dt : Nat) (p : Nat) (kind : Nat) (value : Nat) {s : State} (h : Keeps s0 s) : Outcome.all (Keeps s0) (execAcknowledgeReceive dt p kind value s) := by
  unfold execAcknowledgeReceive
  repeat' first
    | with_reducible assumption
    | (extract_lets +onlyGivenNames x; apply keeps_cut (p := Keeps s0 x); (case' hp => (unfold x; clear x)); (case' k => (clear_value x; intro hx)))
    | extract_lets +onlyGivenNames x
    | (simp only [keeps_mk]; refine core_of ?_)
    | with_reducible apply outcome_next
    | with_reducible apply State.tick_keeps
    | with_reducible apply State.frameIn_keeps
    | with_reducible apply State.setPort_keeps
    | with_reducible apply State.drainPort_keeps
    | with_reducible apply State.replayPort_keeps
    | split

theorem State.loseAlignment_keeps {s0 : State} {s : State} (h : Keeps s0 s) : Keeps s0 (State.loseAlignment s) := by
  unfold State.loseAlignment
  repeat' first
    | with_reducible assumption
    | (extract_lets +onlyGivenNames x; apply keeps_cut (p := Keeps s0 x); (case' hp => (unfold x; clear x)); (case' k => (clear_value x; intro hx)))
    | extract_lets +onlyGivenNames x
    | (simp only [keeps_mk]; refine core_of ?_)
    | with_reducible apply State.report_keeps
    | with_reducible apply State.bump_keeps
    | with_reducible apply State.setFlag_keeps
    | split

theorem State.choose_keeps {s0 : State} {s : State} (h : Keeps s0 s) : Keeps s0 (State.choose s) := by
  unfold State.choose
  repeat' first
    | with_reducible assumption
    | intro _
    | (extract_lets +onlyGivenNames x; apply keeps_cut (p := Keeps s0 x); (case' hp => (unfold x; clear x)); (case' k => (clear_value x; intro hx)))
    | (extract_lets +onlyGivenNames x; apply keeps_cut (p := Keeps s0 x.2); (case' hp => (unfold x; clear x)); (case' k => (clear_value x; intro hx)))
    | extract_lets +onlyGivenNames x
    | (simp only [keeps_mk]; refine core_of ?_)
    | with_reducible apply State.report_keeps
    | (with_reducible apply keeps_foldl; intro _ _ _)
    | (with_reducible apply keeps_foldl_snd; intro _ _ _)
    | (with_reducible refine keeps_of_pair (by assumption) ?_)
    | (with_reducible refine keeps_of_some_snd (by assumption) ?_)
    | (with_reducible refine keeps_of_some_fst (by assumption) ?_)
    | split
    | (clear_value *; split)

theorem State.newRoot_keeps {s0 : State} {s : State} (h : Keeps s0 s) : Keeps s0 (State.newRoot s) := by
  unfold State.newRoot
  repeat' first
    | with_reducible assumption
    | intro _
    | (extract_lets +onlyGivenNames x; apply keeps_cut (p := Keeps s0 x); (case' hp => (unfold x; clear x)); (case' k => (clear_value x; intro hx)))
    | (extract_lets +onlyGivenNames x; apply keeps_cut (p := Keeps s0 x.2); (case' hp => (unfold x; clear x)); (case' k => (clear_value x; intro hx)))
    | extract_lets +onlyGivenNames x
    | (simp only [keeps_mk]; refine core_of ?_)
    | with_reducible apply State.loseAlignment_keeps
    | with_reducible apply State.setFlag_keeps
    | with_reducible apply State.setBlob_keeps
    | split
    | (clear_value *; split)

theorem State.elect_keeps {s0 : State} {s : State} (h : Keeps s0 s) : Keeps s0 (State.elect s) := by
  unfold State.elect
  repeat' first
    | with_reducible assumption
    | intro _
    | (extract_lets +onlyGivenNames x; apply keeps_cut (p := Keeps s0 x); (case' hp => (unfold x; clear x)); (case' k => (clear_value x; intro hx)))
    | (extract_lets +onlyGivenNames x; apply keeps_cut (p := Keeps s0 x.2); (case' hp => (unfold x; clear x)); (case' k => (clear_value x; intro hx)))
    | extract_lets +onlyGivenNames x
    | with_reducible apply State.newRoot_keeps
    | with_reducible apply State.choose_keeps
    | split
    | (clear_value *; split)

theorem State.sendBeacon_keeps {s0 : State} {s : State} (p : Nat) (h : Keeps s0 s) : Keeps s0 (State.sendBeacon s p) := by
  unfold State.sendBeacon
  repeat' first
    | with_reducible assumption
    | (extract_lets +onlyGivenNames x; apply keeps_cut (p := Keeps s0 x); (case' hp => (unfold x; clear x)); (case' k => (clear_value x; intro hx)))
    | extract_lets +onlyGivenNames x
    | with_reducible apply State.setPort_keeps
    | with_reducible apply State.sendControl_keeps
    | split

theorem State.sendReport_keeps {s0 : State} {s : State} (r : Nat × Nat) (h : Keeps s0 s) : Keeps s0 (State.sendReport s r) := by
  unfold State.sendReport
  repeat' first
    | with_reducible assumption
    | with_reducible apply State.sendControl_keeps
    | split

theorem State.setPresent_keeps {s0 : State} {s : State} (present : List Nat) (h : Keeps s0 s) : Keeps s0 (State.setPresent s present) := by
  unfold State.setPresent
  repeat' first
    | with_reducible assumption
    | extract_lets +onlyGivenNames x
    | (simp only [keeps_mk]; refine core_of ?_)
    | with_reducible apply State.setNum_keeps

theorem State.settleTorus_keeps {s0 : State} {s : State} (chip : Nat) (present : List Nat) (h : Keeps s0 s) : Keeps s0 (State.settleTorus s chip present) := by
  unfold State.settleTorus
  repeat' first
    | with_reducible assumption
    | (extract_lets +onlyGivenNames x; apply keeps_cut (p := Keeps s0 x); (case' hp => (unfold x; clear x)); (case' k => (clear_value x; intro hx)))
    | extract_lets +onlyGivenNames x
    | (simp only [keeps_mk]; refine core_of ?_)
    | with_reducible apply State.setNum_keeps
    | with_reducible apply State.setPresent_keeps
    | with_reducible apply State.setBlob_keeps
    | with_reducible apply State.setFlag_keeps
    | (with_reducible apply keeps_foldl; intro _ _ _)
    | split

theorem State.rootSettles_keeps {s0 : State} {s : State} (h : Keeps s0 s) : Keeps s0 (State.rootSettles s) := by
  unfold State.rootSettles
  repeat' first
    | with_reducible assumption
    | extract_lets +onlyGivenNames x
    | with_reducible apply State.setPresent_keeps
    | with_reducible apply State.settleTorus_keeps
    | split

theorem State.takeReport_keeps {s0 : State} {s : State} (r : Nat × Nat) (h : Keeps s0 s) : Keeps s0 (State.takeReport s r) := by
  unfold State.takeReport
  repeat' first
    | with_reducible assumption
    | extract_lets +onlyGivenNames x
    | (simp only [keeps_mk]; refine core_of ?_)
    | with_reducible apply State.rootSettles_keeps
    | with_reducible apply State.sendReport_keeps
    | split

theorem State.discoveryError_keeps {s0 : State} {s : State} (p : Nat) (reason : Nat) (h : Keeps s0 s) : Keeps s0 (State.discoveryError s p reason) := by
  unfold State.discoveryError
  repeat' first
    | with_reducible assumption
    | (extract_lets +onlyGivenNames x; apply keeps_cut (p := Keeps s0 x); (case' hp => (unfold x; clear x)); (case' k => (clear_value x; intro hx)))
    | extract_lets +onlyGivenNames x
    | with_reducible apply State.setNum_keeps
    | with_reducible apply State.report_keeps
    | split

theorem State.discover_keeps {s0 : State} {s : State} (h : Keeps s0 s) : Keeps s0 (State.discover s) := by
  unfold State.discover
  repeat' first
    | with_reducible assumption
    | (extract_lets +onlyGivenNames x; apply keeps_cut (p := Keeps s0 x); (case' hp => (unfold x; clear x)); (case' k => (clear_value x; intro hx)))
    | extract_lets +onlyGivenNames x
    | (simp only [keeps_mk]; refine core_of ?_)
    | with_reducible apply State.elect_keeps
    | with_reducible apply State.setNum_keeps
    | with_reducible apply State.discoveryError_keeps
    | with_reducible apply State.takeReport_keeps
    | split

theorem State.linkUp_keeps {s0 : State} {s : State} (p : Nat) (h : Keeps s0 s) : Keeps s0 (State.linkUp s p) := by
  unfold State.linkUp
  repeat' first
    | with_reducible assumption
    | (extract_lets +onlyGivenNames x; apply keeps_cut (p := Keeps s0 x); (case' hp => (unfold x; clear x)); (case' k => (clear_value x; intro hx)))
    | extract_lets +onlyGivenNames x
    | with_reducible apply State.setPort_keeps
    | with_reducible apply State.drainPort_keeps
    | with_reducible apply State.setNum_keeps
    | with_reducible apply State.sendBeacon_keeps
    | with_reducible apply State.discover_keeps

theorem execVarxLinkUp_keeps {s0 : State} (dt : Nat) (p : Nat) {s : State} (h : Keeps s0 s) : Outcome.all (Keeps s0) (execVarxLinkUp dt p s) := by
  unfold execVarxLinkUp
  repeat' first
    | with_reducible assumption
    | (extract_lets +onlyGivenNames x; apply keeps_cut (p := Keeps s0 x); (case' hp => (unfold x; clear x)); (case' k => (clear_value x; intro hx)))
    | extract_lets +onlyGivenNames x
    | with_reducible apply outcome_next
    | with_reducible apply State.tick_keeps
    | with_reducible apply State.linkUp_keeps
    | split

theorem State.endRemote_keeps {s0 : State} {s : State} (r : RemoteReq) (h : Keeps s0 s) : Keeps s0 (State.endRemote s r) := by
  unfold State.endRemote
  repeat' first
    | with_reducible assumption
    | extract_lets +onlyGivenNames x
    | (simp only [keeps_mk]; refine core_of ?_)

theorem State.digestRemote_keeps {s0 : State} {s : State} (cluster : Nat) (slot : Nat) (number : Nat) (code : Nat) (detail : Nat) (h : Keeps s0 s) : Keeps s0 (State.digestRemote s cluster slot number code detail) := by
  unfold State.digestRemote
  repeat' first
    | with_reducible assumption
    | intro _
    | (extract_lets +onlyGivenNames x; apply keeps_cut (p := Keeps s0 x); (case' hp => (unfold x; clear x)); (case' k => (clear_value x; intro hx)))
    | (extract_lets +onlyGivenNames x; apply keeps_cut (p := Keeps s0 x.2); (case' hp => (unfold x; clear x)); (case' k => (clear_value x; intro hx)))
    | extract_lets +onlyGivenNames x
    | (simp only [keeps_mk]; refine core_of ?_)
    | with_reducible apply State.execFault_keeps
    | with_reducible apply State.write_keeps
    | split
    | (clear_value *; split)

theorem State.failRemote_keeps {s0 : State} {s : State} (code : Nat) (detail : Nat) (r : RemoteReq) (h : Keeps s0 s) : Keeps s0 (State.failRemote s code detail r) := by
  unfold State.failRemote
  repeat' first
    | with_reducible assumption
    | intro _
    | (extract_lets +onlyGivenNames x; apply keeps_cut (p := Keeps s0 x); (case' hp => (unfold x; clear x)); (case' k => (clear_value x; intro hx)))
    | (extract_lets +onlyGivenNames x; apply keeps_cut (p := Keeps s0 x.2); (case' hp => (unfold x; clear x)); (case' k => (clear_value x; intro hx)))
    | extract_lets +onlyGivenNames x
    | (simp only [keeps_mk]; refine core_of ?_)
    | with_reducible apply State.request_keeps
    | with_reducible apply State.digestRemote_keeps
    | with_reducible apply State.endRemote_keeps
    | with_reducible apply State.remoteFault_keeps
    | split
    | (clear_value *; split)

theorem execVarxLinkDown_keeps {s0 : State} (dt : Nat) (p : Nat) (lockLost : Bool) {s : State} (h : Keeps s0 s) : Outcome.all (Keeps s0) (execVarxLinkDown dt p lockLost s) := by
  unfold execVarxLinkDown
  repeat' first
    | with_reducible assumption
    | intro _
    | (extract_lets +onlyGivenNames x; apply keeps_cut (p := Keeps s0 x); (case' hp => (unfold x; clear x)); (case' k => (clear_value x; intro hx)))
    | (extract_lets +onlyGivenNames x; apply keeps_cut (p := Keeps s0 x.2); (case' hp => (unfold x; clear x)); (case' k => (clear_value x; intro hx)))
    | extract_lets +onlyGivenNames x
    | (simp only [keeps_mk]; refine core_of ?_)
    | with_reducible apply outcome_next
    | with_reducible apply State.failRemote_keeps
    | with_reducible apply State.discover_keeps
    | with_reducible apply State.tick_keeps
    | with_reducible apply State.report_keeps
    | with_reducible apply State.loseAlignment_keeps
    | with_reducible apply State.bump_keeps
    | with_reducible apply State.setPort_keeps
    | with_reducible apply State.setNum_keeps
    | with_reducible apply State.refuseRemote_keeps
    | (with_reducible apply keeps_foldl; intro _ _ _)
    | (with_reducible apply keeps_foldl_snd; intro _ _ _)
    | split
    | (clear_value *; split)

theorem execVarxRetrain_keeps {s0 : State} (dt : Nat) (p : Nat) (trained : Bool) {s : State} (h : Keeps s0 s) : Outcome.all (Keeps s0) (execVarxRetrain dt p trained s) := by
  unfold execVarxRetrain
  repeat' first
    | with_reducible assumption
    | (extract_lets +onlyGivenNames x; apply keeps_cut (p := Keeps s0 x); (case' hp => (unfold x; clear x)); (case' k => (clear_value x; intro hx)))
    | extract_lets +onlyGivenNames x
    | with_reducible apply outcome_next
    | with_reducible apply State.tick_keeps
    | with_reducible apply State.linkUp_keeps
    | with_reducible apply State.setPort_keeps
    | split

theorem execBeaconTimer_keeps {s0 : State} (dt : Nat) (p : Nat) {s : State} (h : Keeps s0 s) : Outcome.all (Keeps s0) (execBeaconTimer dt p s) := by
  unfold execBeaconTimer
  repeat' first
    | with_reducible assumption
    | (extract_lets +onlyGivenNames x; apply keeps_cut (p := Keeps s0 x); (case' hp => (unfold x; clear x)); (case' k => (clear_value x; intro hx)))
    | extract_lets +onlyGivenNames x
    | with_reducible apply outcome_next
    | with_reducible apply State.tick_keeps
    | with_reducible apply State.sendBeacon_keeps
    | split

theorem State.hearSettled_keeps {s0 : State} {s : State} (p : Nat) (present : List Nat) (h : Keeps s0 s) : Keeps s0 (State.hearSettled s p present) := by
  unfold State.hearSettled
  repeat' first
    | with_reducible assumption
    | with_reducible apply State.setPresent_keeps
    | with_reducible apply State.settleTorus_keeps
    | split

theorem execBeaconReceive_keeps {s0 : State} (dt : Nat) (p : Nat) (serial : Nat) (port : Nat) (candidate : Nat) (hops : Nat) (settled : Bool) (coords : List (Option Nat)) (shape : Nat × Nat × Nat × Nat) (present : List Nat) {s : State} (h : Keeps s0 s) : Outcome.all (Keeps s0) (execBeaconReceive dt p serial port candidate hops settled coords shape present s) := by
  unfold execBeaconReceive
  repeat' first
    | with_reducible assumption
    | (extract_lets +onlyGivenNames x; apply keeps_cut (p := Keeps s0 x); (case' hp => (unfold x; clear x)); (case' k => (clear_value x; intro hx)))
    | extract_lets +onlyGivenNames x
    | (simp only [keeps_mk]; refine core_of ?_)
    | with_reducible apply outcome_next
    | with_reducible apply State.tick_keeps
    | with_reducible apply State.frameIn_keeps
    | with_reducible apply State.setPort_keeps
    | with_reducible apply State.setNum_keeps
    | with_reducible apply State.setBlob_keeps
    | with_reducible apply State.discover_keeps
    | with_reducible apply State.loseAlignment_keeps
    | with_reducible apply State.hearSettled_keeps
    | split

theorem execDiscoveryReport_keeps {s0 : State} (dt : Nat) (p : Nat) (chip : Nat) (serial : Nat) {s : State} (h : Keeps s0 s) : Outcome.all (Keeps s0) (execDiscoveryReport dt p chip serial s) := by
  unfold execDiscoveryReport
  repeat' first
    | with_reducible assumption
    | (extract_lets +onlyGivenNames x; apply keeps_cut (p := Keeps s0 x); (case' hp => (unfold x; clear x)); (case' k => (clear_value x; intro hx)))
    | extract_lets +onlyGivenNames x
    | with_reducible apply outcome_next
    | with_reducible apply State.tick_keeps
    | with_reducible apply State.takeReport_keeps
    | with_reducible apply State.sendControl_keeps
    | with_reducible apply State.frameIn_keeps
    | split

theorem execReportResend_keeps {s0 : State} (dt : Nat) {s : State} (h : Keeps s0 s) : Outcome.all (Keeps s0) (execReportResend dt s) := by
  unfold execReportResend
  repeat' first
    | with_reducible assumption
    | (extract_lets +onlyGivenNames x; apply keeps_cut (p := Keeps s0 x); (case' hp => (unfold x; clear x)); (case' k => (clear_value x; intro hx)))
    | extract_lets +onlyGivenNames x
    | with_reducible apply outcome_next
    | with_reducible apply State.tick_keeps
    | with_reducible apply State.sendReport_keeps
    | (with_reducible apply keeps_foldl; intro _ _ _)

theorem execRootLossTimeout_keeps {s0 : State} (dt : Nat) {s : State} (h : Keeps s0 s) : Outcome.all (Keeps s0) (execRootLossTimeout dt s) := by
  unfold execRootLossTimeout
  repeat' first
    | with_reducible assumption
    | intro _
    | (extract_lets +onlyGivenNames x; apply keeps_cut (p := Keeps s0 x); (case' hp => (unfold x; clear x)); (case' k => (clear_value x; intro hx)))
    | (extract_lets +onlyGivenNames x; apply keeps_cut (p := Keeps s0 x.2); (case' hp => (unfold x; clear x)); (case' k => (clear_value x; intro hx)))
    | extract_lets +onlyGivenNames x
    | (simp only [keeps_mk]; refine core_of ?_)
    | with_reducible apply outcome_next
    | with_reducible apply State.tick_keeps
    | with_reducible apply State.newRoot_keeps
    | with_reducible apply State.choose_keeps
    | split
    | (clear_value *; split)

theorem execTimeMessageSend_keeps {s0 : State} (dt : Nat) {s : State} (h : Keeps s0 s) : Outcome.all (Keeps s0) (execTimeMessageSend dt s) := by
  unfold execTimeMessageSend
  repeat' first
    | with_reducible assumption
    | (extract_lets +onlyGivenNames x; apply keeps_cut (p := Keeps s0 x); (case' hp => (unfold x; clear x)); (case' k => (clear_value x; intro hx)))
    | extract_lets +onlyGivenNames x
    | (simp only [keeps_mk]; refine core_of ?_)
    | with_reducible apply outcome_next
    | with_reducible apply State.tick_keeps
    | with_reducible apply State.sendControl_keeps
    | split

theorem State.align_keeps {s0 : State} {s : State} (offset : Int) (h : Keeps s0 s) : Keeps s0 (State.align s offset) := by
  unfold State.align
  repeat' first
    | with_reducible assumption
    | (extract_lets +onlyGivenNames x; apply keeps_cut (p := Keeps s0 x); (case' hp => (unfold x; clear x)); (case' k => (clear_value x; intro hx)))
    | extract_lets +onlyGivenNames x
    | (simp only [keeps_mk]; refine core_of ?_)
    | with_reducible apply State.setNum_keeps
    | with_reducible apply State.setFlag_keeps
    | split

theorem execTimeMessageReceive_keeps {s0 : State} (dt : Nat) (p : Nat) (t2 : Nat) (t3 : Nat) {s : State} (h : Keeps s0 s) : Outcome.all (Keeps s0) (execTimeMessageReceive dt p t2 t3 s) := by
  unfold execTimeMessageReceive
  repeat' first
    | with_reducible assumption
    | (extract_lets +onlyGivenNames x; apply keeps_cut (p := Keeps s0 x); (case' hp => (unfold x; clear x)); (case' k => (clear_value x; intro hx)))
    | extract_lets +onlyGivenNames x
    | (simp only [keeps_mk]; refine core_of ?_)
    | with_reducible apply outcome_next
    | with_reducible apply State.tick_keeps
    | with_reducible apply State.frameIn_keeps
    | with_reducible apply State.align_keeps
    | with_reducible apply State.sendControl_keeps
    | split

theorem execAlignmentLoss_keeps {s0 : State} (dt : Nat) {s : State} (h : Keeps s0 s) : Outcome.all (Keeps s0) (execAlignmentLoss dt s) := by
  unfold execAlignmentLoss
  repeat' first
    | with_reducible assumption
    | (extract_lets +onlyGivenNames x; apply keeps_cut (p := Keeps s0 x); (case' hp => (unfold x; clear x)); (case' k => (clear_value x; intro hx)))
    | extract_lets +onlyGivenNames x
    | with_reducible apply outcome_next
    | with_reducible apply State.tick_keeps
    | with_reducible apply State.loseAlignment_keeps
    | split

theorem State.outsideError_keeps {s0 : State} {s : State} (code : Nat) (a : Nat) (h : Keeps s0 s) : Keeps s0 (State.outsideError s code a) := by
  unfold State.outsideError
  repeat' first
    | with_reducible assumption
    | extract_lets +onlyGivenNames x
    | with_reducible apply State.report_keeps
    | split

theorem execRemoteRequestReceive_keeps {s0 : State} (dt : Nat) (source : Nat) (id : Nat) (owner : Nat) (write : Bool) (offset : Nat) (length : Nat) (data : Bytes) {s : State} (h : Keeps s0 s) : Outcome.all (Keeps s0) (execRemoteRequestReceive dt source id owner write offset length data s) := by
  unfold execRemoteRequestReceive
  repeat' first
    | with_reducible assumption
    | (extract_lets +onlyGivenNames x; apply keeps_cut (p := Keeps s0 x); (case' hp => (unfold x; clear x)); (case' k => (clear_value x; intro hx)))
    | extract_lets +onlyGivenNames x
    | with_reducible apply outcome_next
    | with_reducible apply State.tick_keeps
    | with_reducible apply State.sendTo_keeps
    | with_reducible apply State.write_keeps
    | with_reducible apply State.read_keeps
    | with_reducible apply State.outsideError_keeps
    | (with_reducible refine keeps_of_pair (by assumption) ?_)
    | split

theorem State.remoteAnswer_keeps {s0 : State} {s : State} (r : RemoteReq) (d : Bytes) (h : Keeps s0 s) : Keeps s0 (State.remoteAnswer s r d) := by
  unfold State.remoteAnswer
  repeat' first
    | with_reducible assumption
    | extract_lets +onlyGivenNames x
    | (simp only [keeps_mk]; refine core_of ?_)

theorem execRemoteResponseReceive_keeps {s0 : State} (dt : Nat) (id : Nat) (status : Nat) (data : Bytes) {s : State} (h : Keeps s0 s) : Outcome.all (Keeps s0) (execRemoteResponseReceive dt id status data s) := by
  unfold execRemoteResponseReceive
  repeat' first
    | with_reducible assumption
    | intro _
    | (extract_lets +onlyGivenNames x; apply keeps_cut (p := Keeps s0 x); (case' hp => (unfold x; clear x)); (case' k => (clear_value x; intro hx)))
    | (extract_lets +onlyGivenNames x; apply keeps_cut (p := Keeps s0 x.2); (case' hp => (unfold x; clear x)); (case' k => (clear_value x; intro hx)))
    | extract_lets +onlyGivenNames x
    | (simp only [keeps_mk]; refine core_of ?_)
    | with_reducible apply outcome_next
    | with_reducible apply State.request_keeps
    | with_reducible apply State.remoteAnswer_keeps
    | with_reducible apply State.write_keeps
    | with_reducible apply State.failRemote_keeps
    | with_reducible apply State.endRemote_keeps
    | with_reducible apply State.tick_keeps
    | (with_reducible refine keeps_of_pair (by assumption) ?_)
    | (with_reducible refine keeps_of_some_snd (by assumption) ?_)
    | (with_reducible refine keeps_of_some_fst (by assumption) ?_)
    | split
    | (clear_value *; split)

theorem execRemoteRequestTimeout_keeps {s0 : State} (dt : Nat) (id : Nat) {s : State} (h : Keeps s0 s) : Outcome.all (Keeps s0) (execRemoteRequestTimeout dt id s) := by
  unfold execRemoteRequestTimeout
  repeat' first
    | with_reducible assumption
    | intro _
    | (extract_lets +onlyGivenNames x; apply keeps_cut (p := Keeps s0 x); (case' hp => (unfold x; clear x)); (case' k => (clear_value x; intro hx)))
    | (extract_lets +onlyGivenNames x; apply keeps_cut (p := Keeps s0 x.2); (case' hp => (unfold x; clear x)); (case' k => (clear_value x; intro hx)))
    | extract_lets +onlyGivenNames x
    | (simp only [keeps_mk]; refine core_of ?_)
    | with_reducible apply outcome_next
    | with_reducible apply State.failRemote_keeps
    | with_reducible apply State.tick_keeps
    | (with_reducible refine keeps_of_pair (by assumption) ?_)
    | (with_reducible refine keeps_of_some_snd (by assumption) ?_)
    | (with_reducible refine keeps_of_some_fst (by assumption) ?_)
    | split
    | (clear_value *; split)

end Sys2Proof.Machine
end

