-- ==== Sys2Proof/Laws/KeepsCollective.lean ====
section
/-! SUPPORT. Every operation of Machine/Collective.lean keeps (`Keeps`). -/
set_option linter.tactic.unusedName false
set_option linter.unusedVariables false
set_option linter.unusedSimpArgs false
namespace Sys2Proof.Machine

theorem State.setColl_keeps {s0 : State} {s : State} (k : Collective) (h : Keeps s0 s) : Keeps s0 (State.setColl s k) := by
  unfold State.setColl
  repeat' first
    | with_reducible assumption
    | extract_lets +onlyGivenNames x
    | (simp only [keeps_mk]; refine core_of ?_)

theorem State.offerChunk_keeps {s0 : State} {s : State} (c : Cmd) (k : Collective) (v : PhaseView) (port : Nat) (g : Nat) (j : Nat) (l : List Nat) (h : Keeps s0 s) : Keeps s0 (State.offerChunk s c k v port g j l) := by
  unfold State.offerChunk
  repeat' first
    | with_reducible assumption
    | with_reducible apply State.offer_keeps

theorem State.queueChunks_keeps {s0 : State} {s : State} (c : Cmd) (k : Collective) (v : PhaseView) (x4 : Nat) (h : Keeps s0 s) : Keeps s0 (State.queueChunks s c k v x4).2 := by
  induction x4 generalizing s k with
  | zero => exact h
  | succ fuel ih =>
    unfold State.queueChunks
    repeat' first
      | with_reducible assumption
      | extract_lets +onlyGivenNames x
      | with_reducible apply State.offerChunk_keeps
      | with_reducible apply ih
      | split

theorem State.advance_keeps {s0 : State} {s : State} (c : Cmd) (k : Collective) (x3 : Nat) (h : Keeps s0 s) : Keeps s0 (State.advance s c k x3).2 := by
  induction x3 generalizing s k with
  | zero => exact h
  | succ fuel ih =>
    unfold State.advance
    repeat' first
      | with_reducible assumption
      | extract_lets +onlyGivenNames x
      | with_reducible apply State.queueChunks_keeps
      | with_reducible apply ih
      | (with_reducible refine keeps_of_pair (by assumption) ?_)
      | split

theorem State.creditChunk_keeps {s0 : State} {s : State} (k : Collective) (v : PhaseView) (x' : Nat × Nat × Nat) (h : Keeps s0 s) : Keeps s0 (State.creditChunk s k v x') := by
  unfold State.creditChunk
  repeat' first
    | with_reducible assumption
    | with_reducible apply State.sendCredit_keeps

theorem State.grantSlots_keeps {s0 : State} {s : State} (port : Nat) (x2 : Nat) (h : Keeps s0 s) : Keeps s0 (State.grantSlots s port x2) := by
  induction x2 generalizing s with
  | zero => exact h
  | succ fuel ih =>
    unfold State.grantSlots
    repeat' first
      | with_reducible assumption
      | (extract_lets +onlyGivenNames x; clear_value x)
      | (with_reducible refine keeps_of_fun (by assumption) ?_)
      | with_reducible apply State.creditChunk_keeps
      | with_reducible apply State.setPort_keeps
      | with_reducible apply State.setColl_keeps
      | split

theorem State.grantAll_keeps {s0 : State} {s : State} (h : Keeps s0 s) : Keeps s0 (State.grantAll s) := by
  unfold State.grantAll
  repeat' first
    | with_reducible assumption
    | extract_lets +onlyGivenNames x
    | with_reducible apply State.grantSlots_keeps
    | (with_reducible apply keeps_foldl; intro _ _ _)

theorem State.rewatch_keeps {s0 : State} {s : State} (k : Collective) (h : Keeps s0 s) : Keeps s0 (State.rewatch s k) := by
  unfold State.rewatch
  repeat' first
    | with_reducible assumption
    | intro _
    | (extract_lets +onlyGivenNames x; apply keeps_cut (p := Keeps s0 x); (case' hp => (unfold x; clear x)); (case' k => (clear_value x; intro hx)))
    | (extract_lets +onlyGivenNames x; apply keeps_cut (p := Keeps s0 x.2); (case' hp => (unfold x; clear x)); (case' k => (clear_value x; intro hx)))
    | extract_lets +onlyGivenNames x
    | (simp only [keeps_mk]; refine core_of ?_)
    | with_reducible apply State.rewatchAll_keeps
    | with_reducible apply State.setCmd_keeps
    | (with_reducible apply keeps_foldl; intro _ _ _)
    | (with_reducible refine keeps_of_pair (by assumption) ?_)
    | (with_reducible refine keeps_of_some_snd (by assumption) ?_)
    | (with_reducible refine keeps_of_some_fst (by assumption) ?_)
    | split
    | (clear_value *; split)

theorem State.rewatchAll_keeps {s0 : State} {s : State} (h : Keeps s0 s) : Keeps s0 (State.rewatchAll s) := by
  unfold State.rewatchAll
  repeat' first
    | with_reducible assumption
    | intro _
    | with_reducible apply State.rewatch_keeps
    | (with_reducible apply keeps_foldl; intro _ _ _)
    | split
    | (clear_value *; split)

theorem State.collStep_keeps {s0 : State} {s : State} (k : Collective) (h : Keeps s0 s) : Keeps s0 (State.collStep s k) := by
  unfold State.collStep
  repeat' first
    | with_reducible assumption
    | intro _
    | (extract_lets +onlyGivenNames x; apply keeps_cut (p := Keeps s0 x); (case' hp => (unfold x; clear x)); (case' k => (clear_value x; intro hx)))
    | (extract_lets +onlyGivenNames x; apply keeps_cut (p := Keeps s0 x.2); (case' hp => (unfold x; clear x)); (case' k => (clear_value x; intro hx)))
    | extract_lets +onlyGivenNames x
    | with_reducible apply State.rewatchAll_keeps
    | with_reducible apply State.grantAll_keeps
    | with_reducible apply State.setColl_keeps
    | split
    | (clear_value *; split)

theorem State.collFinish_keeps {s0 : State} {s : State} (c : Cmd) (k : Collective) (status : Nat) (h : Keeps s0 s) : Keeps s0 (State.collFinish s c k status) := by
  unfold State.collFinish
  repeat' first
    | with_reducible assumption
    | intro _
    | (extract_lets +onlyGivenNames x; apply keeps_cut (p := Keeps s0 x); (case' hp => (unfold x; clear x)); (case' k => (clear_value x; intro hx)))
    | (extract_lets +onlyGivenNames x; apply keeps_cut (p := Keeps s0 x.2); (case' hp => (unfold x; clear x)); (case' k => (clear_value x; intro hx)))
    | extract_lets +onlyGivenNames x
    | (simp only [keeps_mk]; refine core_of ?_)
    | with_reducible apply State.setCmd_keeps
    | with_reducible apply State.armStatus_keeps
    | (with_reducible refine keeps_of_pair (by assumption) ?_)
    | (with_reducible refine keeps_of_some_snd (by assumption) ?_)
    | (with_reducible refine keeps_of_some_fst (by assumption) ?_)
    | split
    | (clear_value *; split)

theorem State.startCollective_keeps {s0 : State} {s : State} (id : Nat) (op : Nat) (h : Keeps s0 s) : Keeps s0 (State.startCollective s id op) := by
  unfold State.startCollective
  repeat' first
    | with_reducible assumption
    | extract_lets +onlyGivenNames x
    | with_reducible apply State.illegal_keeps
    | with_reducible apply State.needRanges_keeps
    | with_reducible apply State.askChannel_keeps
    | with_reducible apply State.setCmd_keeps
    | (with_reducible refine keeps_of_fault (by assumption) ?_)
    | (with_reducible refine keeps_of_ready (by assumption) ?_)
    | (with_reducible refine keeps_of_wait (by assumption) ?_)
    | split

theorem execAllReduce_keeps {s0 : State} (dt : Nat) (id : Nat) {s : State} (h : Keeps s0 s) : Outcome.all (Keeps s0) (execAllReduce dt id s) := by
  unfold execAllReduce
  repeat' first
    | with_reducible assumption
    | extract_lets +onlyGivenNames x
    | with_reducible apply outcome_next
    | with_reducible apply State.startCollective_keeps
    | with_reducible apply State.tick_keeps

theorem execReduceScatter_keeps {s0 : State} (dt : Nat) (id : Nat) {s : State} (h : Keeps s0 s) : Outcome.all (Keeps s0) (execReduceScatter dt id s) := by
  unfold execReduceScatter
  repeat' first
    | with_reducible assumption
    | extract_lets +onlyGivenNames x
    | with_reducible apply outcome_next
    | with_reducible apply State.startCollective_keeps
    | with_reducible apply State.tick_keeps

theorem execAllGather_keeps {s0 : State} (dt : Nat) (id : Nat) {s : State} (h : Keeps s0 s) : Outcome.all (Keeps s0) (execAllGather dt id s) := by
  unfold execAllGather
  repeat' first
    | with_reducible assumption
    | extract_lets +onlyGivenNames x
    | with_reducible apply outcome_next
    | with_reducible apply State.startCollective_keeps
    | with_reducible apply State.tick_keeps

theorem State.creditOp_keeps {s0 : State} {s : State} (ch : Nat) (o : ChannelOp) (h : Keeps s0 s) : Keeps s0 (State.creditOp s ch o) := by
  unfold State.creditOp
  repeat' first
    | with_reducible assumption
    | intro _
    | (extract_lets +onlyGivenNames x; apply keeps_cut (p := Keeps s0 x); (case' hp => (unfold x; clear x)); (case' k => (clear_value x; intro hx)))
    | (extract_lets +onlyGivenNames x; apply keeps_cut (p := Keeps s0 x.2); (case' hp => (unfold x; clear x)); (case' k => (clear_value x; intro hx)))
    | (extract_lets +onlyGivenNames x; apply keeps_cut (p := ∀ t, Keeps s0 t → Keeps s0 (x t)); (case' hp => (unfold x; clear x)); (case' k => (clear_value x; intro hx)))
    | (extract_lets +onlyGivenNames x; apply keeps_cut (p := ∀ t a, Keeps s0 t → Keeps s0 (x t a)); (case' hp => (unfold x; clear x)); (case' k => (clear_value x; intro hx)))
    | (extract_lets +onlyGivenNames x; apply keeps_cut (p := ∀ t a b, Keeps s0 t → Keeps s0 (x t a b)); (case' hp => (unfold x; clear x)); (case' k => (clear_value x; intro hx)))
    | extract_lets +onlyGivenNames x
    | (with_reducible refine keeps_of_fun (by assumption) ?_)
    | (with_reducible refine keeps_of_fun2 (by assumption) ?_)
    | (with_reducible refine keeps_of_fun3 (by assumption) ?_)
    | (simp only [keeps_mk]; refine core_of ?_)
    | with_reducible apply State.rewatchAll_keeps
    | with_reducible apply State.grantAll_keeps
    | with_reducible apply State.creditChunk_keeps
    | with_reducible apply State.sendCredit_keeps
    | (with_reducible apply keeps_foldl; intro _ _ _)
    | (with_reducible apply keeps_foldl_snd; intro _ _ _)
    | (with_reducible refine keeps_of_pair (by assumption) ?_)
    | (with_reducible refine keeps_of_some_snd (by assumption) ?_)
    | (with_reducible refine keeps_of_some_fst (by assumption) ?_)
    | split
    | (clear_value *; split)

theorem State.beginOp_keeps {s0 : State} {s : State} (o : ChannelOp) (h : Keeps s0 s) : Keeps s0 (State.beginOp s o) := by
  unfold State.beginOp
  repeat' first
    | with_reducible assumption
    | extract_lets +onlyGivenNames x
    | (simp only [keeps_mk]; refine core_of ?_)
    | with_reducible apply State.setCmd_keeps
    | split

theorem execChannelAcquire_keeps {s0 : State} (dt : Nat) (ch : Nat) {s : State} (h : Keeps s0 s) : Outcome.all (Keeps s0) (execChannelAcquire dt ch s) := by
  unfold execChannelAcquire
  repeat' first
    | with_reducible assumption
    | (extract_lets +onlyGivenNames x; apply keeps_cut (p := Keeps s0 x); (case' hp => (unfold x; clear x)); (case' k => (clear_value x; intro hx)))
    | extract_lets +onlyGivenNames x
    | with_reducible apply outcome_next
    | with_reducible apply State.tick_keeps
    | with_reducible apply State.creditOp_keeps
    | with_reducible apply State.beginOp_keeps
    | with_reducible apply State.setChannel_keeps
    | split

theorem execCreditReceive_keeps {s0 : State} (dt : Nat) (p : Nat) (dest : Nat) (source : Nat) (channel : Nat) (number : Nat) (index : Nat) {s : State} (h : Keeps s0 s) : Outcome.all (Keeps s0) (execCreditReceive dt p dest source channel number index s) := by
  unfold execCreditReceive
  repeat' first
    | with_reducible assumption
    | intro _
    | (extract_lets +onlyGivenNames x; apply keeps_cut (p := Keeps s0 x); (case' hp => (unfold x; clear x)); (case' k => (clear_value x; intro hx)))
    | (extract_lets +onlyGivenNames x; apply keeps_cut (p := Keeps s0 x.2); (case' hp => (unfold x; clear x)); (case' k => (clear_value x; intro hx)))
    | extract_lets +onlyGivenNames x
    | (simp only [keeps_mk]; refine core_of ?_)
    | with_reducible apply outcome_next
    | with_reducible apply State.rewatchAll_keeps
    | with_reducible apply State.tick_keeps
    | with_reducible apply State.endParts_keeps
    | with_reducible apply State.acct_keeps
    | with_reducible apply State.putControl_keeps
    | with_reducible apply State.sendTo_keeps
    | with_reducible apply State.bump_keeps
    | with_reducible apply State.frameIn_keeps
    | (with_reducible refine keeps_of_pair (by assumption) ?_)
    | (with_reducible refine keeps_of_some_snd (by assumption) ?_)
    | (with_reducible refine keeps_of_some_fst (by assumption) ?_)
    | split
    | (clear_value *; split)

theorem execChannelWaitTimeout_keeps {s0 : State} (dt : Nat) (ch : Nat) (owner : Nat) {s : State} (h : Keeps s0 s) : Outcome.all (Keeps s0) (execChannelWaitTimeout dt ch owner s) := by
  unfold execChannelWaitTimeout
  repeat' first
    | with_reducible assumption
    | (extract_lets +onlyGivenNames x; apply keeps_cut (p := Keeps s0 x); (case' hp => (unfold x; clear x)); (case' k => (clear_value x; intro hx)))
    | extract_lets +onlyGivenNames x
    | with_reducible apply outcome_next
    | with_reducible apply State.tick_keeps
    | with_reducible apply State.leaveChannel_keeps
    | with_reducible apply State.collFinish_keeps
    | with_reducible apply State.bump_keeps
    | with_reducible apply State.setCmd_keeps
    | split

theorem State.readChunk_keeps {s0 : State} {s : State} (c : Cmd) (k : Nat) (h : Keeps s0 s) : Keeps s0 (State.readChunk s c k).2 := by
  unfold State.readChunk
  repeat' first
    | with_reducible assumption
    | extract_lets +onlyGivenNames x
    | with_reducible apply State.readVa_keeps
    | (with_reducible refine keeps_of_pair (by assumption) ?_)
    | (with_reducible apply keeps_foldl_snd; intro _ _ _)
    | split

theorem State.issueBytes_keeps {s0 : State} {s : State} (c : Cmd) (paid : Nat) (m : Nat) (h : Keeps s0 s) : Keeps s0 (State.issueBytes s c paid m).2 := by
  unfold State.issueBytes
  repeat' first
    | with_reducible assumption
    | intro _
    | (extract_lets +onlyGivenNames x; apply keeps_cut (p := Keeps s0 x); (case' hp => (unfold x; clear x)); (case' k => (clear_value x; intro hx)))
    | (extract_lets +onlyGivenNames x; apply keeps_cut (p := Keeps s0 x.2); (case' hp => (unfold x; clear x)); (case' k => (clear_value x; intro hx)))
    | extract_lets +onlyGivenNames x
    | (simp only [keeps_mk]; refine core_of ?_)
    | with_reducible apply State.notePeakTags_keeps
    | with_reducible apply State.awaitTokens_keeps
    | with_reducible apply State.takeTokens_keeps
    | (with_reducible refine keeps_of_pair (by assumption) ?_)
    | (with_reducible refine keeps_of_triple (by assumption) ?_)
    | (with_reducible refine keeps_of_some_snd (by assumption) ?_)
    | (with_reducible refine keeps_of_some_fst (by assumption) ?_)
    | with_reducible apply someAll_none
    | with_reducible apply someAll_some
    | split
    | (clear_value *; split)

theorem State.collSettle_keeps {s0 : State} {s : State} (c : Cmd) (k : Collective) (h : Keeps s0 s) : Keeps s0 (State.collSettle s c k) := by
  unfold State.collSettle
  repeat' first
    | with_reducible assumption
    | intro _
    | (extract_lets +onlyGivenNames x; apply keeps_cut (p := Keeps s0 x); (case' hp => (unfold x; clear x)); (case' k => (clear_value x; intro hx)))
    | (extract_lets +onlyGivenNames x; apply keeps_cut (p := Keeps s0 x.2); (case' hp => (unfold x; clear x)); (case' k => (clear_value x; intro hx)))
    | extract_lets +onlyGivenNames x
    | (simp only [keeps_mk]; refine core_of ?_)
    | with_reducible apply State.collFinish_keeps
    | with_reducible apply State.freeChannel_keeps
    | split
    | (clear_value *; split)

theorem State.writePiece_keeps {s0 : State} {s : State} (c : Cmd) (k : Collective) (x : Nat × Nat) (h : Keeps s0 s) : Keeps s0 (State.writePiece s c k x) := by
  unfold State.writePiece
  repeat' first
    | with_reducible assumption
    | intro _
    | (extract_lets +onlyGivenNames x; apply keeps_cut (p := Keeps s0 x); (case' hp => (unfold x; clear x)); (case' k => (clear_value x; intro hx)))
    | (extract_lets +onlyGivenNames x; apply keeps_cut (p := Keeps s0 x.2); (case' hp => (unfold x; clear x)); (case' k => (clear_value x; intro hx)))
    | extract_lets +onlyGivenNames x
    | (simp only [keeps_mk]; refine core_of ?_)
    | with_reducible apply State.cmdFault_keeps
    | with_reducible apply State.collSettle_keeps
    | with_reducible apply State.collStep_keeps
    | with_reducible apply State.writeVa_keeps
    | (with_reducible refine keeps_of_pair (by assumption) ?_)
    | (with_reducible refine keeps_of_some_snd (by assumption) ?_)
    | (with_reducible refine keeps_of_some_fst (by assumption) ?_)
    | split
    | (clear_value *; split)

theorem State.sumChunk_keeps {s0 : State} {s : State} (c : Cmd) (k : Collective) (h : Keeps s0 s) : Keeps s0 (State.sumChunk s c k) := by
  unfold State.sumChunk
  repeat' first
    | with_reducible assumption
    | intro _
    | (extract_lets +onlyGivenNames x; apply keeps_cut (p := Keeps s0 x); (case' hp => (unfold x; clear x)); (case' k => (clear_value x; intro hx)))
    | (extract_lets +onlyGivenNames x; apply keeps_cut (p := Keeps s0 x.2); (case' hp => (unfold x; clear x)); (case' k => (clear_value x; intro hx)))
    | extract_lets +onlyGivenNames x
    | (simp only [keeps_mk]; refine core_of ?_)
    | with_reducible apply State.cmdFault_keeps
    | with_reducible apply State.readChunk_keeps
    | with_reducible apply State.read_keeps
    | with_reducible apply RowsRun.read_keeps
    | with_reducible apply State.collStep_keeps
    | with_reducible apply State.advance_keeps
    | (with_reducible refine keeps_of_pair (by assumption) ?_)
    | (with_reducible refine keeps_of_triple (by assumption) ?_)
    | (with_reducible refine keeps_of_some_snd (by assumption) ?_)
    | (with_reducible refine keeps_of_some_fst (by assumption) ?_)
    | split
    | (clear_value *; split)

theorem State.collWork_keeps {s0 : State} {s : State} (c : Cmd) (k : Collective) (h : Keeps s0 s) : Keeps s0 (State.collWork s c k) := by
  unfold State.collWork
  repeat' first
    | with_reducible assumption
    | intro _
    | (extract_lets +onlyGivenNames x; apply keeps_cut (p := Keeps s0 x); (case' hp => (unfold x; clear x)); (case' k => (clear_value x; intro hx)))
    | (extract_lets +onlyGivenNames x; apply keeps_cut (p := Keeps s0 x.2); (case' hp => (unfold x; clear x)); (case' k => (clear_value x; intro hx)))
    | extract_lets +onlyGivenNames x
    | (simp only [keeps_mk]; refine core_of ?_)
    | with_reducible apply State.sumChunk_keeps
    | with_reducible apply State.writePiece_keeps
    | with_reducible apply State.collSettle_keeps
    | with_reducible apply State.issueBytes_keeps
    | with_reducible apply State.read_keeps
    | with_reducible apply RowsRun.read_keeps
    | with_reducible apply State.setColl_keeps
    | (with_reducible refine keeps_of_pair (by assumption) ?_)
    | (with_reducible refine keeps_of_some_snd (by assumption) ?_)
    | (with_reducible refine keeps_of_some_fst (by assumption) ?_)
    | with_reducible apply someAll_none
    | with_reducible apply someAll_some
    | split
    | (clear_value *; split)

theorem execCollectiveChunk_keeps {s0 : State} (dt : Nat) (id : Nat) {s : State} (h : Keeps s0 s) : Outcome.all (Keeps s0) (execCollectiveChunk dt id s) := by
  unfold execCollectiveChunk
  repeat' first
    | with_reducible assumption
    | intro _
    | (extract_lets +onlyGivenNames x; apply keeps_cut (p := Keeps s0 x); (case' hp => (unfold x; clear x)); (case' k => (clear_value x; intro hx)))
    | (extract_lets +onlyGivenNames x; apply keeps_cut (p := Keeps s0 x.2); (case' hp => (unfold x; clear x)); (case' k => (clear_value x; intro hx)))
    | extract_lets +onlyGivenNames x
    | (simp only [keeps_mk]; refine core_of ?_)
    | with_reducible apply outcome_next
    | with_reducible apply State.collWork_keeps
    | with_reducible apply State.tick_keeps
    | with_reducible apply State.needRanges_keeps
    | with_reducible apply State.armStatus_keeps
    | (with_reducible refine keeps_of_ready (by assumption) ?_)
    | (with_reducible refine keeps_of_wait (by assumption) ?_)
    | (with_reducible refine keeps_of_fault (by assumption) ?_)
    | with_reducible apply pages_ready
    | with_reducible apply pages_wait
    | with_reducible apply pages_fault
    | (with_reducible refine keeps_of_pair (by assumption) ?_)
    | (with_reducible refine keeps_of_some_snd (by assumption) ?_)
    | (with_reducible refine keeps_of_some_fst (by assumption) ?_)
    | split
    | (clear_value *; split)

theorem State.takeChunk_keeps {s0 : State} {s : State} (c : Cmd) (k : Collective) (v : PhaseView) (port : Nat) (g : Nat) (j : Nat) (l : List Nat) (h : Keeps s0 s) : Keeps s0 (State.takeChunk s c k v port g j l) := by
  unfold State.takeChunk
  repeat' first
    | with_reducible assumption
    | intro _
    | (extract_lets +onlyGivenNames x; apply keeps_cut (p := Keeps s0 x); (case' hp => (unfold x; clear x)); (case' k => (clear_value x; intro hx)))
    | (extract_lets +onlyGivenNames x; apply keeps_cut (p := Keeps s0 x.2); (case' hp => (unfold x; clear x)); (case' k => (clear_value x; intro hx)))
    | extract_lets +onlyGivenNames x
    | (simp only [keeps_mk]; refine core_of ?_)
    | with_reducible apply State.collStep_keeps
    | with_reducible apply State.advance_keeps
    | with_reducible apply State.offerChunk_keeps
    | (with_reducible refine keeps_of_pair (by assumption) ?_)
    | (with_reducible refine keeps_of_some_snd (by assumption) ?_)
    | (with_reducible refine keeps_of_some_fst (by assumption) ?_)
    | split
    | (clear_value *; split)

theorem execCollectiveDataReceive_keeps {s0 : State} (dt : Nat) (p : Nat) (channel : Nat) (number : Nat) (format : Nat) (elements : Nat) (axes : Nat) (phase : Nat) (seg : Nat) (chunk : Nat) (data : Bytes) {s : State} (h : Keeps s0 s) : Outcome.all (Keeps s0) (execCollectiveDataReceive dt p channel number format elements axes phase seg chunk data s) := by
  unfold execCollectiveDataReceive
  repeat' first
    | with_reducible assumption
    | (extract_lets +onlyGivenNames x; apply keeps_cut (p := Keeps s0 x); (case' hp => (unfold x; clear x)); (case' k => (clear_value x; intro hx)))
    | extract_lets +onlyGivenNames x
    | with_reducible apply outcome_next
    | with_reducible apply State.tick_keeps
    | with_reducible apply State.bump_keeps
    | with_reducible apply State.takeChunk_keeps
    | split

theorem State.undefine_keeps {s0 : State} {s : State} (c : Cmd) (x2 : List (Nat × Nat)) (h : Keeps s0 s) : Keeps s0 (State.undefine s c x2).2 := by
  induction x2 generalizing s c with
  | nil =>
    unfold State.undefine
    repeat' first
      | with_reducible assumption
      | intro _
      | (extract_lets +onlyGivenNames x; apply keeps_cut (p := Keeps s0 x); (case' hp => (unfold x; clear x)); (case' k => (clear_value x; intro hx)))
      | (extract_lets +onlyGivenNames x; apply keeps_cut (p := Keeps s0 x.2); (case' hp => (unfold x; clear x)); (case' k => (clear_value x; intro hx)))
      | extract_lets +onlyGivenNames x
      | (simp only [keeps_mk]; refine core_of ?_)
      | with_reducible apply State.writeVa_keeps
      | with_reducible apply State.drawBytes_keeps
      | (with_reducible refine keeps_of_pair (by assumption) ?_)
      | (with_reducible refine keeps_of_triple (by assumption) ?_)
      | (with_reducible refine keeps_of_some_snd (by assumption) ?_)
      | (with_reducible refine keeps_of_some_fst (by assumption) ?_)
      | with_reducible apply someAll_none
      | with_reducible apply someAll_some
      | split
      | (clear_value *; split)
  | cons a rest ih =>
    unfold State.undefine
    repeat' first
      | with_reducible assumption
      | with_reducible apply ih
      | intro _
      | (extract_lets +onlyGivenNames x; apply keeps_cut (p := Keeps s0 x); (case' hp => (unfold x; clear x)); (case' k => (clear_value x; intro hx)))
      | (extract_lets +onlyGivenNames x; apply keeps_cut (p := Keeps s0 x.2); (case' hp => (unfold x; clear x)); (case' k => (clear_value x; intro hx)))
      | extract_lets +onlyGivenNames x
      | (simp only [keeps_mk]; refine core_of ?_)
      | with_reducible apply State.writeVa_keeps
      | with_reducible apply State.drawBytes_keeps
      | (with_reducible refine keeps_of_pair (by assumption) ?_)
      | (with_reducible refine keeps_of_triple (by assumption) ?_)
      | (with_reducible refine keeps_of_some_snd (by assumption) ?_)
      | (with_reducible refine keeps_of_some_fst (by assumption) ?_)
      | with_reducible apply someAll_none
      | with_reducible apply someAll_some
      | split
      | (clear_value *; split)

theorem execCollectiveTimeout_keeps {s0 : State} (dt : Nat) (id : Nat) {s : State} (h : Keeps s0 s) : Outcome.all (Keeps s0) (execCollectiveTimeout dt id s) := by
  unfold execCollectiveTimeout
  repeat' first
    | with_reducible assumption
    | intro _
    | (extract_lets +onlyGivenNames x; apply keeps_cut (p := Keeps s0 x); (case' hp => (unfold x; clear x)); (case' k => (clear_value x; intro hx)))
    | (extract_lets +onlyGivenNames x; apply keeps_cut (p := Keeps s0 x.2); (case' hp => (unfold x; clear x)); (case' k => (clear_value x; intro hx)))
    | (extract_lets +onlyGivenNames x; apply keeps_cut (p := ∀ t, Keeps s0 t → Keeps s0 (x t)); (case' hp => (unfold x; clear x)); (case' k => (clear_value x; intro hx)))
    | (extract_lets +onlyGivenNames x; apply keeps_cut (p := ∀ t a, Keeps s0 t → Keeps s0 (x t a)); (case' hp => (unfold x; clear x)); (case' k => (clear_value x; intro hx)))
    | (extract_lets +onlyGivenNames x; apply keeps_cut (p := ∀ t a b, Keeps s0 t → Keeps s0 (x t a b)); (case' hp => (unfold x; clear x)); (case' k => (clear_value x; intro hx)))
    | extract_lets +onlyGivenNames x
    | (with_reducible refine keeps_of_fun (by assumption) ?_)
    | (with_reducible refine keeps_of_fun2 (by assumption) ?_)
    | (with_reducible refine keeps_of_fun3 (by assumption) ?_)
    | (simp only [keeps_mk]; refine core_of ?_)
    | with_reducible apply outcome_next
    | with_reducible apply State.undefine_keeps
    | with_reducible apply State.cmdFault_keeps
    | with_reducible apply State.collFinish_keeps
    | with_reducible apply State.tick_keeps
    | with_reducible apply State.needRanges_keeps
    | with_reducible apply State.bump_keeps
    | with_reducible apply State.freeChannel_keeps
    | (with_reducible refine keeps_of_ready (by assumption) ?_)
    | (with_reducible refine keeps_of_wait (by assumption) ?_)
    | (with_reducible refine keeps_of_fault (by assumption) ?_)
    | with_reducible apply pages_ready
    | with_reducible apply pages_wait
    | with_reducible apply pages_fault
    | (with_reducible refine keeps_of_pair (by assumption) ?_)
    | (with_reducible refine keeps_of_some_snd (by assumption) ?_)
    | (with_reducible refine keeps_of_some_fst (by assumption) ?_)
    | with_reducible apply someAll_none
    | with_reducible apply someAll_some
    | split
    | (clear_value *; split)

end Sys2Proof.Machine
end

