-- ==== Sys2Proof/Laws/KeepsEpochs.lean ====
section
/-! SUPPORT. Every operation of Machine/Epochs.lean keeps (`Keeps`). -/
set_option linter.tactic.unusedName false
set_option linter.unusedVariables false
set_option linter.unusedSimpArgs false
namespace Sys2Proof.Machine

theorem State.relabel_keeps {s0 : State} {s : State} (k : Nat) (h : Keeps s0 s) : Keeps s0 (State.relabel s k) := by
  unfold State.relabel
  repeat' first
    | with_reducible assumption
    | extract_lets +onlyGivenNames x
    | (simp only [keeps_mk]; refine core_of ?_)

theorem State.epochsStart_keeps {s0 : State} {s : State} (h : Keeps s0 s) : Keeps s0 (State.epochsStart s).2 := by
  unfold State.epochsStart
  repeat' first
    | with_reducible assumption
    | (extract_lets +onlyGivenNames x; apply keeps_cut (p := Keeps s0 x); (case' hp => (unfold x; clear x)); (case' k => (clear_value x; intro hx)))
    | extract_lets +onlyGivenNames x
    | with_reducible apply State.setNum_keeps
    | with_reducible apply State.setFlag_keeps
    | with_reducible apply State.signalEpochs_keeps
    | with_reducible apply State.relabel_keeps
    | split

theorem execBoundaryCommit_keeps {s0 : State} (dt : Nat) {s : State} (h : Keeps s0 s) : Outcome.all (Keeps s0) (execBoundaryCommit dt s) := by
  unfold execBoundaryCommit
  repeat' first
    | with_reducible assumption
    | (extract_lets +onlyGivenNames x; apply keeps_cut (p := Keeps s0 x); (case' hp => (unfold x; clear x)); (case' k => (clear_value x; intro hx)))
    | extract_lets +onlyGivenNames x
    | with_reducible apply outcome_next
    | with_reducible apply State.tick_keeps
    | with_reducible apply State.setNum_keeps
    | split

theorem execSyncInEdge_keeps {s0 : State} (dt : Nat) {s : State} (h : Keeps s0 s) : Outcome.all (Keeps s0) (execSyncInEdge dt s) := by
  unfold execSyncInEdge
  repeat' first
    | with_reducible assumption
    | (extract_lets +onlyGivenNames x; apply keeps_cut (p := Keeps s0 x); (case' hp => (unfold x; clear x)); (case' k => (clear_value x; intro hx)))
    | extract_lets +onlyGivenNames x
    | with_reducible apply outcome_next
    | with_reducible apply State.tick_keeps
    | with_reducible apply State.setNum_keeps
    | with_reducible apply State.bump_keeps
    | split

theorem execWindowDecide_keeps {s0 : State} (dt : Nat) {s : State} (h : Keeps s0 s) : Outcome.all (Keeps s0) (execWindowDecide dt s) := by
  unfold execWindowDecide
  repeat' first
    | with_reducible assumption
    | (extract_lets +onlyGivenNames x; apply keeps_cut (p := Keeps s0 x); (case' hp => (unfold x; clear x)); (case' k => (clear_value x; intro hx)))
    | extract_lets +onlyGivenNames x
    | with_reducible apply outcome_next
    | with_reducible apply State.tick_keeps
    | with_reducible apply State.bump_keeps
    | with_reducible apply State.setNum_keeps
    | split

theorem State.rowTiers_keeps {s0 : State} (t : Table) (x1 : List Nat) {x2 : State} (h : Keeps s0 x2) : Keeps s0 (State.rowTiers t x1 x2).2 := by
  induction x1 generalizing x2 t with
  | nil =>
    unfold State.rowTiers
    repeat' first
      | with_reducible assumption
      | intro _
      | (extract_lets +onlyGivenNames x; apply keeps_cut (p := Keeps s0 x); (case' hp => (unfold x; clear x)); (case' k => (clear_value x; intro hx)))
      | (extract_lets +onlyGivenNames x; apply keeps_cut (p := Keeps s0 x.2); (case' hp => (unfold x; clear x)); (case' k => (clear_value x; intro hx)))
      | extract_lets +onlyGivenNames x
      | (simp only [keeps_mk]; refine core_of ?_)
      | with_reducible apply State.read_keeps
      | with_reducible apply RowsRun.read_keeps
      | with_reducible apply State.applyBad_keeps
      | with_reducible apply State.readEntry_keeps
      | (with_reducible refine keeps_of_pair (by assumption) ?_)
      | (with_reducible refine keeps_of_triple (by assumption) ?_)
      | (with_reducible refine keeps_of_quad (by assumption) ?_)
      | (with_reducible refine keeps_of_some_snd (by assumption) ?_)
      | (with_reducible refine keeps_of_some_fst (by assumption) ?_)
      | split
      | (clear_value *; split)
  | cons a rest ih =>
    unfold State.rowTiers
    repeat' first
      | with_reducible assumption
      | with_reducible apply ih
      | intro _
      | (extract_lets +onlyGivenNames x; apply keeps_cut (p := Keeps s0 x); (case' hp => (unfold x; clear x)); (case' k => (clear_value x; intro hx)))
      | (extract_lets +onlyGivenNames x; apply keeps_cut (p := Keeps s0 x.2); (case' hp => (unfold x; clear x)); (case' k => (clear_value x; intro hx)))
      | extract_lets +onlyGivenNames x
      | (simp only [keeps_mk]; refine core_of ?_)
      | with_reducible apply State.read_keeps
      | with_reducible apply RowsRun.read_keeps
      | with_reducible apply State.applyBad_keeps
      | with_reducible apply State.readEntry_keeps
      | (with_reducible refine keeps_of_pair (by assumption) ?_)
      | (with_reducible refine keeps_of_triple (by assumption) ?_)
      | (with_reducible refine keeps_of_quad (by assumption) ?_)
      | (with_reducible refine keeps_of_some_snd (by assumption) ?_)
      | (with_reducible refine keeps_of_some_fst (by assumption) ?_)
      | split
      | (clear_value *; split)

theorem State.readCounter_keeps {s0 : State} {s : State} (a : Nat) (h : Keeps s0 s) : Keeps s0 (State.readCounter s a).2 := by
  unfold State.readCounter
  repeat' first
    | with_reducible assumption
    | intro _
    | (extract_lets +onlyGivenNames x; apply keeps_cut (p := Keeps s0 x); (case' hp => (unfold x; clear x)); (case' k => (clear_value x; intro hx)))
    | (extract_lets +onlyGivenNames x; apply keeps_cut (p := Keeps s0 x.2); (case' hp => (unfold x; clear x)); (case' k => (clear_value x; intro hx)))
    | extract_lets +onlyGivenNames x
    | (simp only [keeps_mk]; refine core_of ?_)
    | with_reducible apply State.read_keeps
    | with_reducible apply RowsRun.read_keeps
    | with_reducible apply State.applyBad_keeps
    | (with_reducible refine keeps_of_pair (by assumption) ?_)
    | (with_reducible refine keeps_of_triple (by assumption) ?_)
    | (with_reducible refine keeps_of_quad (by assumption) ?_)
    | (with_reducible refine keeps_of_some_snd (by assumption) ?_)
    | (with_reducible refine keeps_of_some_fst (by assumption) ?_)
    | with_reducible apply someAll_none
    | with_reducible apply someAll_some
    | split
    | (clear_value *; split)

theorem State.rowCounts_keeps {s0 : State} (t : Table) (x1 : List (Nat × Nat × Nat)) {x2 : State} (h : Keeps s0 x2) : Keeps s0 (State.rowCounts t x1 x2).2 := by
  induction x1 generalizing x2 t with
  | nil =>
    unfold State.rowCounts
    repeat' first
      | with_reducible assumption
      | intro _
      | (extract_lets +onlyGivenNames x; apply keeps_cut (p := Keeps s0 x); (case' hp => (unfold x; clear x)); (case' k => (clear_value x; intro hx)))
      | (extract_lets +onlyGivenNames x; apply keeps_cut (p := Keeps s0 x.2); (case' hp => (unfold x; clear x)); (case' k => (clear_value x; intro hx)))
      | extract_lets +onlyGivenNames x
      | with_reducible apply State.read_keeps
      | with_reducible apply RowsRun.read_keeps
      | with_reducible apply State.readCounter_keeps
      | with_reducible apply someAll_none
      | with_reducible apply someAll_some
      | split
      | (clear_value *; split)
  | cons a rest ih =>
    unfold State.rowCounts
    repeat' first
      | with_reducible assumption
      | with_reducible apply ih
      | intro _
      | (extract_lets +onlyGivenNames x; apply keeps_cut (p := Keeps s0 x); (case' hp => (unfold x; clear x)); (case' k => (clear_value x; intro hx)))
      | (extract_lets +onlyGivenNames x; apply keeps_cut (p := Keeps s0 x.2); (case' hp => (unfold x; clear x)); (case' k => (clear_value x; intro hx)))
      | extract_lets +onlyGivenNames x
      | with_reducible apply State.read_keeps
      | with_reducible apply RowsRun.read_keeps
      | with_reducible apply State.readCounter_keeps
      | with_reducible apply someAll_none
      | with_reducible apply someAll_some
      | split
      | (clear_value *; split)

theorem State.decideMoves_keeps {s0 : State} {s : State} (n : Nat) (h : Keeps s0 s) : Keeps s0 (State.decideMoves s n) := by
  unfold State.decideMoves
  repeat' first
    | with_reducible assumption
    | intro _
    | (extract_lets +onlyGivenNames x; apply keeps_cut (p := Keeps s0 x); (case' hp => (unfold x; clear x)); (case' k => (clear_value x; intro hx)))
    | (extract_lets +onlyGivenNames x; apply keeps_cut (p := Keeps s0 x.2); (case' hp => (unfold x; clear x)); (case' k => (clear_value x; intro hx)))
    | extract_lets +onlyGivenNames x
    | (simp only [keeps_mk]; refine core_of ?_)
    | with_reducible apply State.rowCounts_keeps
    | with_reducible apply State.setTable_keeps
    | with_reducible apply State.rowTiers_keeps
    | (with_reducible apply keeps_foldl; intro _ _ _)
    | (with_reducible apply keeps_foldl_snd; intro _ _ _)
    | split
    | (clear_value *; split)

theorem State.halvePiece_keeps {s0 : State} {s : State} (p : Nat × Nat) (h : Keeps s0 s) : Keeps s0 (State.halvePiece s p) := by
  unfold State.halvePiece
  repeat' first
    | with_reducible assumption
    | intro _
    | (extract_lets +onlyGivenNames x; apply keeps_cut (p := Keeps s0 x); (case' hp => (unfold x; clear x)); (case' k => (clear_value x; intro hx)))
    | (extract_lets +onlyGivenNames x; apply keeps_cut (p := Keeps s0 x.2); (case' hp => (unfold x; clear x)); (case' k => (clear_value x; intro hx)))
    | extract_lets +onlyGivenNames x
    | (simp only [keeps_mk]; refine core_of ?_)
    | with_reducible apply State.write_keeps
    | with_reducible apply State.read_keeps
    | with_reducible apply RowsRun.read_keeps
    | with_reducible apply State.applyBad_keeps
    | (with_reducible refine keeps_of_pair (by assumption) ?_)
    | (with_reducible refine keeps_of_some_snd (by assumption) ?_)
    | (with_reducible refine keeps_of_some_fst (by assumption) ?_)
    | split
    | (clear_value *; split)

theorem State.halveCounters_keeps {s0 : State} {s : State} (n : Nat) (h : Keeps s0 s) : Keeps s0 (State.halveCounters s n) := by
  unfold State.halveCounters
  repeat' first
    | with_reducible assumption
    | intro _
    | (extract_lets +onlyGivenNames x; apply keeps_cut (p := Keeps s0 x); (case' hp => (unfold x; clear x)); (case' k => (clear_value x; intro hx)))
    | (extract_lets +onlyGivenNames x; apply keeps_cut (p := Keeps s0 x.2); (case' hp => (unfold x; clear x)); (case' k => (clear_value x; intro hx)))
    | extract_lets +onlyGivenNames x
    | (simp only [keeps_mk]; refine core_of ?_)
    | with_reducible apply State.halvePiece_keeps
    | with_reducible apply State.setTable_keeps
    | (with_reducible apply keeps_foldl; intro _ _ _)
    | (with_reducible apply keeps_foldl_snd; intro _ _ _)
    | split
    | (clear_value *; split)

theorem State.decideTiers_keeps {s0 : State} {s : State} (h : Keeps s0 s) : Keeps s0 (State.decideTiers s) := by
  unfold State.decideTiers
  repeat' first
    | with_reducible assumption
    | extract_lets +onlyGivenNames x
    | with_reducible apply State.halveCounters_keeps
    | with_reducible apply State.decideMoves_keeps
    | (with_reducible apply keeps_foldl; intro _ _ _)

theorem State.beginApply_keeps {s0 : State} {s : State} (boundary : Nat) (h : Keeps s0 s) : Keeps s0 (State.beginApply s boundary) := by
  unfold State.beginApply
  repeat' first
    | with_reducible assumption
    | (extract_lets +onlyGivenNames x; apply keeps_cut (p := Keeps s0 x); (case' hp => (unfold x; clear x)); (case' k => (clear_value x; intro hx)))
    | extract_lets +onlyGivenNames x
    | (simp only [keeps_mk]; refine core_of ?_)
    | with_reducible apply State.askChannel_keeps
    | with_reducible apply State.endPhase_keeps
    | with_reducible apply State.bump_keeps
    | with_reducible apply State.setFlag_keeps
    | (with_reducible apply keeps_foldl; intro _ _ _)

theorem State.syncPulse_keeps {s0 : State} {s : State} (boundary : Nat) (h : Keeps s0 s) : Keeps s0 (State.syncPulse s boundary) := by
  unfold State.syncPulse
  repeat' first
    | with_reducible assumption
    | extract_lets +onlyGivenNames x
    | (simp only [keeps_mk]; refine core_of ?_)
    | with_reducible apply State.emit_keeps
    | split

theorem State.armDigests_keeps {s0 : State} {s : State} (h : Keeps s0 s) : Keeps s0 (State.armDigests s) := by
  unfold State.armDigests
  repeat' first
    | with_reducible assumption
    | (extract_lets +onlyGivenNames x; apply keeps_cut (p := Keeps s0 x); (case' hp => (unfold x; clear x)); (case' k => (clear_value x; intro hx)))
    | extract_lets +onlyGivenNames x
    | (simp only [keeps_mk]; refine core_of ?_)
    | with_reducible apply State.setNum_keeps
    | (with_reducible apply keeps_foldl; intro _ _ _)
    | split

theorem State.closePhase_keeps {s0 : State} {s : State} (h : Keeps s0 s) : Keeps s0 (State.closePhase s) := by
  unfold State.closePhase
  repeat' first
    | with_reducible assumption
    | extract_lets +onlyGivenNames x
    | with_reducible apply State.endPhase_keeps
    | with_reducible apply State.expirePart_keeps
    | (with_reducible apply keeps_foldl; intro _ _ _)

theorem State.boundaryFalls_keeps {s0 : State} {s : State} (b : Nat) (h : Keeps s0 s) : Keeps s0 (State.boundaryFalls s b) := by
  unfold State.boundaryFalls
  repeat' first
    | with_reducible assumption
    | intro _
    | (extract_lets +onlyGivenNames x; apply keeps_cut (p := Keeps s0 x); (case' hp => (unfold x; clear x)); (case' k => (clear_value x; intro hx)))
    | (extract_lets +onlyGivenNames x; apply keeps_cut (p := Keeps s0 x.2); (case' hp => (unfold x; clear x)); (case' k => (clear_value x; intro hx)))
    | extract_lets +onlyGivenNames x
    | (simp only [keeps_mk]; refine core_of ?_)
    | with_reducible apply State.signalEpochs_keeps
    | with_reducible apply State.swapDue_keeps
    | with_reducible apply State.closePhase_keeps
    | with_reducible apply State.armDigests_keeps
    | with_reducible apply State.syncPulse_keeps
    | with_reducible apply State.beginApply_keeps
    | with_reducible apply State.decideTiers_keeps
    | with_reducible apply State.bump_keeps
    | with_reducible apply State.setNum_keeps
    | split
    | (clear_value *; split)

theorem State.toBoundary_keeps {s0 : State} {s : State} (b : Nat) (h : Keeps s0 s) : Keeps s0 (State.toBoundary s b) := by
  unfold State.toBoundary
  repeat' first
    | with_reducible assumption
    | intro _
    | (extract_lets +onlyGivenNames x; apply keeps_cut (p := Keeps s0 x); (case' hp => (unfold x; clear x)); (case' k => (clear_value x; intro hx)))
    | (extract_lets +onlyGivenNames x; apply keeps_cut (p := Keeps s0 x.2); (case' hp => (unfold x; clear x)); (case' k => (clear_value x; intro hx)))
    | extract_lets +onlyGivenNames x
    | (simp only [keeps_mk]; refine core_of ?_)
    | with_reducible apply State.pass_keeps
    | split
    | (clear_value *; split)

theorem execEpochBoundary_keeps {s0 : State} (dt : Nat) {s : State} (h : Keeps s0 s) : Outcome.all (Keeps s0) (execEpochBoundary dt s) := by
  unfold execEpochBoundary
  repeat' first
    | with_reducible assumption
    | intro _
    | (extract_lets +onlyGivenNames x; apply keeps_cut (p := Keeps s0 x); (case' hp => (unfold x; clear x)); (case' k => (clear_value x; intro hx)))
    | (extract_lets +onlyGivenNames x; apply keeps_cut (p := Keeps s0 x.2); (case' hp => (unfold x; clear x)); (case' k => (clear_value x; intro hx)))
    | extract_lets +onlyGivenNames x
    | with_reducible apply outcome_next
    | with_reducible apply State.tick_keeps
    | with_reducible apply State.pass_keeps
    | with_reducible apply State.toBoundary_keeps
    | with_reducible apply State.boundaryFalls_keeps
    | split
    | (clear_value *; split)

theorem execSyncOutPulseEnd_keeps {s0 : State} (dt : Nat) {s : State} (h : Keeps s0 s) : Outcome.all (Keeps s0) (execSyncOutPulseEnd dt s) := by
  unfold execSyncOutPulseEnd
  repeat' first
    | with_reducible assumption
    | (extract_lets +onlyGivenNames x; apply keeps_cut (p := Keeps s0 x); (case' hp => (unfold x; clear x)); (case' k => (clear_value x; intro hx)))
    | extract_lets +onlyGivenNames x
    | (simp only [keeps_mk]; refine core_of ?_)
    | with_reducible apply outcome_next
    | with_reducible apply State.tick_keeps
    | with_reducible apply State.emit_keeps
    | split

end Sys2Proof.Machine
end

