-- ==== Sys2Proof/Laws/KeepsMatrix.lean ====
section
/-! SUPPORT. Every operation of Machine/Matrix.lean keeps (`Keeps`). -/
set_option linter.tactic.unusedName false
set_option linter.unusedVariables false
set_option linter.unusedSimpArgs false
namespace Sys2Proof.Machine

theorem State.setBank_keeps {s0 : State} {s : State} (i : Nat) (b : Bank) (h : Keeps s0 s) : Keeps s0 (State.setBank s i b) := by
  unfold State.setBank
  repeat' first
    | with_reducible assumption
    | extract_lets +onlyGivenNames x
    | (simp only [keeps_mk]; refine core_of ?_)

theorem State.useTile_keeps {s0 : State} {s : State} (core : Nat) (x : MatrixCmd) (o : Nat) (t : Nat) (h : Keeps s0 s) : Keeps s0 (State.useTile s core x o t).2 := by
  unfold State.useTile
  repeat' first
    | with_reducible assumption
    | intro _
    | (extract_lets +onlyGivenNames x; apply keeps_cut (p := Keeps s0 x); (case' hp => (unfold x; clear x)); (case' k => (clear_value x; intro hx)))
    | (extract_lets +onlyGivenNames x; apply keeps_cut (p := Keeps s0 x.2); (case' hp => (unfold x; clear x)); (case' k => (clear_value x; intro hx)))
    | extract_lets +onlyGivenNames x
    | (simp only [keeps_mk]; refine core_of ?_)
    | with_reducible apply State.setBank_keeps
    | with_reducible apply State.bump_keeps
    | (with_reducible refine keeps_of_pair (by assumption) ?_)
    | (with_reducible refine keeps_of_triple (by assumption) ?_)
    | (with_reducible refine keeps_of_quad (by assumption) ?_)
    | (with_reducible refine keeps_of_some_snd (by assumption) ?_)
    | (with_reducible refine keeps_of_some_fst (by assumption) ?_)
    | split
    | (clear_value *; split)

theorem State.countPass_keeps {s0 : State} {s : State} (core : Nat) (x : MatrixCmd) (a : List Bytes) (b : Bank) (p : Nat × Nat × Nat) (h : Keeps s0 s) : Keeps s0 (State.countPass s core x a b p) := by
  unfold State.countPass
  repeat' first
    | with_reducible assumption
    | intro _
    | (extract_lets +onlyGivenNames x; apply keeps_cut (p := Keeps s0 x); (case' hp => (unfold x; clear x)); (case' k => (clear_value x; intro hx)))
    | (extract_lets +onlyGivenNames x; apply keeps_cut (p := Keeps s0 x.2); (case' hp => (unfold x; clear x)); (case' k => (clear_value x; intro hx)))
    | extract_lets +onlyGivenNames x
    | with_reducible apply State.pass_keeps
    | with_reducible apply State.bump_keeps
    | split
    | (clear_value *; split)

theorem State.runPass_keeps {s0 : State} {s : State} (x : MatrixCmd) (run : MatrixRun) (p : Nat × Nat × Nat) (h : Keeps s0 s) : Keeps s0 (State.runPass s x run p).2 := by
  unfold State.runPass
  repeat' first
    | with_reducible assumption
    | intro _
    | (extract_lets +onlyGivenNames x; apply keeps_cut (p := Keeps s0 x); (case' hp => (unfold x; clear x)); (case' k => (clear_value x; intro hx)))
    | (extract_lets +onlyGivenNames x; apply keeps_cut (p := Keeps s0 x.2); (case' hp => (unfold x; clear x)); (case' k => (clear_value x; intro hx)))
    | extract_lets +onlyGivenNames x
    | (simp only [keeps_mk]; refine core_of ?_)
    | with_reducible apply State.read_keeps
    | with_reducible apply RowsRun.read_keeps
    | with_reducible apply State.pass_keeps
    | with_reducible apply State.countPass_keeps
    | with_reducible apply State.useTile_keeps
    | (with_reducible refine keeps_of_pair (by assumption) ?_)
    | (with_reducible refine keeps_of_triple (by assumption) ?_)
    | (with_reducible refine keeps_of_quad (by assumption) ?_)
    | (with_reducible refine keeps_of_some_snd (by assumption) ?_)
    | (with_reducible refine keeps_of_some_fst (by assumption) ?_)
    | split
    | (clear_value *; split)

theorem State.writeLine_keeps {s0 : State} {s : State} (merge : Bool) (a : Nat) (d : Bytes) (h : Keeps s0 s) : Keeps s0 (State.writeLine s merge a d).2 := by
  unfold State.writeLine
  repeat' first
    | with_reducible assumption
    | intro _
    | (extract_lets +onlyGivenNames x; apply keeps_cut (p := Keeps s0 x); (case' hp => (unfold x; clear x)); (case' k => (clear_value x; intro hx)))
    | (extract_lets +onlyGivenNames x; apply keeps_cut (p := Keeps s0 x.2); (case' hp => (unfold x; clear x)); (case' k => (clear_value x; intro hx)))
    | extract_lets +onlyGivenNames x
    | (simp only [keeps_mk]; refine core_of ?_)
    | with_reducible apply State.write_keeps
    | with_reducible apply State.read_keeps
    | with_reducible apply RowsRun.read_keeps
    | (with_reducible refine keeps_of_pair (by assumption) ?_)
    | (with_reducible refine keeps_of_triple (by assumption) ?_)
    | (with_reducible refine keeps_of_quad (by assumption) ?_)
    | (with_reducible refine keeps_of_some_snd (by assumption) ?_)
    | (with_reducible refine keeps_of_some_fst (by assumption) ?_)
    | with_reducible apply someAll_none
    | with_reducible apply someAll_some
    | split
    | (clear_value *; split)

theorem State.writeLines_keeps {s0 : State} {s : State} (merge : Bool) (base : Nat) (x3 : List (Nat × Bytes)) (h : Keeps s0 s) : Keeps s0 (State.writeLines s merge base x3).2 := by
  induction x3 generalizing s merge base with
  | nil =>
    unfold State.writeLines
    repeat' first
      | with_reducible assumption
      | intro _
      | (extract_lets +onlyGivenNames x; apply keeps_cut (p := Keeps s0 x); (case' hp => (unfold x; clear x)); (case' k => (clear_value x; intro hx)))
      | (extract_lets +onlyGivenNames x; apply keeps_cut (p := Keeps s0 x.2); (case' hp => (unfold x; clear x)); (case' k => (clear_value x; intro hx)))
      | extract_lets +onlyGivenNames x
      | (simp only [keeps_mk]; refine core_of ?_)
      | with_reducible apply State.writeLine_keeps
      | (with_reducible refine keeps_of_pair (by assumption) ?_)
      | (with_reducible refine keeps_of_triple (by assumption) ?_)
      | (with_reducible refine keeps_of_quad (by assumption) ?_)
      | (with_reducible refine keeps_of_some_snd (by assumption) ?_)
      | (with_reducible refine keeps_of_some_fst (by assumption) ?_)
      | with_reducible apply someAll_none
      | with_reducible apply someAll_some
      | split
      | (clear_value *; split)
  | cons a rest ih =>
    unfold State.writeLines
    repeat' first
      | with_reducible assumption
      | with_reducible apply ih
      | intro _
      | (extract_lets +onlyGivenNames x; apply keeps_cut (p := Keeps s0 x); (case' hp => (unfold x; clear x)); (case' k => (clear_value x; intro hx)))
      | (extract_lets +onlyGivenNames x; apply keeps_cut (p := Keeps s0 x.2); (case' hp => (unfold x; clear x)); (case' k => (clear_value x; intro hx)))
      | extract_lets +onlyGivenNames x
      | (simp only [keeps_mk]; refine core_of ?_)
      | with_reducible apply State.writeLine_keeps
      | (with_reducible refine keeps_of_pair (by assumption) ?_)
      | (with_reducible refine keeps_of_triple (by assumption) ?_)
      | (with_reducible refine keeps_of_quad (by assumption) ?_)
      | (with_reducible refine keeps_of_some_snd (by assumption) ?_)
      | (with_reducible refine keeps_of_some_fst (by assumption) ?_)
      | with_reducible apply someAll_none
      | with_reducible apply someAll_some
      | split
      | (clear_value *; split)

theorem State.freeLines_keeps {s0 : State} {s : State} (l : List (Nat × Bytes)) (h : Keeps s0 s) : Keeps s0 (State.freeLines s l).2 := by
  unfold State.freeLines
  repeat' first
    | with_reducible assumption
    | extract_lets +onlyGivenNames x
    | with_reducible apply State.drawBytes_keeps
    | (with_reducible apply keeps_foldl_snd; intro _ _ _)

theorem State.countOutputs_keeps {s0 : State} {s : State} (core : Nat) (nonFinite : Nat) (saturated : Nat) (h : Keeps s0 s) : Keeps s0 (State.countOutputs s core nonFinite saturated) := by
  unfold State.countOutputs
  repeat' first
    | with_reducible assumption
    | extract_lets +onlyGivenNames x
    | with_reducible apply State.bump_keeps

theorem State.drainBlock_keeps {s0 : State} {s : State} (x : MatrixCmd) (core : Nat) (r : Nat) (o : Nat) (acc : List (List (Nat × Bool))) (h : Keeps s0 s) : Keeps s0 (State.drainBlock s x core r o acc).2 := by
  unfold State.drainBlock
  repeat' first
    | with_reducible assumption
    | intro _
    | (extract_lets +onlyGivenNames x; apply keeps_cut (p := Keeps s0 x); (case' hp => (unfold x; clear x)); (case' k => (clear_value x; intro hx)))
    | (extract_lets +onlyGivenNames x; apply keeps_cut (p := Keeps s0 x.2); (case' hp => (unfold x; clear x)); (case' k => (clear_value x; intro hx)))
    | extract_lets +onlyGivenNames x
    | (simp only [keeps_mk]; refine core_of ?_)
    | with_reducible apply State.countOutputs_keeps
    | with_reducible apply State.freeLines_keeps
    | with_reducible apply State.writeLines_keeps
    | with_reducible apply State.drawNat_keeps
    | (with_reducible refine keeps_of_pair (by assumption) ?_)
    | (with_reducible refine keeps_of_triple (by assumption) ?_)
    | (with_reducible refine keeps_of_quad (by assumption) ?_)
    | (with_reducible refine keeps_of_some_snd (by assumption) ?_)
    | (with_reducible refine keeps_of_some_fst (by assumption) ?_)
    | with_reducible apply someAll_none
    | with_reducible apply someAll_some
    | split
    | (clear_value *; split)

theorem State.setMatrixRun_keeps {s0 : State} {s : State} (r : MatrixRun) (h : Keeps s0 s) : Keeps s0 (State.setMatrixRun s r) := by
  unfold State.setMatrixRun
  repeat' first
    | with_reducible assumption
    | intro _
    | (extract_lets +onlyGivenNames x; apply keeps_cut (p := Keeps s0 x); (case' hp => (unfold x; clear x)); (case' k => (clear_value x; intro hx)))
    | (extract_lets +onlyGivenNames x; apply keeps_cut (p := Keeps s0 x.2); (case' hp => (unfold x; clear x)); (case' k => (clear_value x; intro hx)))
    | extract_lets +onlyGivenNames x
    | (simp only [keeps_mk]; refine core_of ?_)
    | split
    | (clear_value *; split)

theorem State.matrixDone_keeps {s0 : State} {s : State} (c : Cmd) (h : Keeps s0 s) : Keeps s0 (State.matrixDone s c) := by
  unfold State.matrixDone
  repeat' first
    | with_reducible assumption
    | intro _
    | (extract_lets +onlyGivenNames x; apply keeps_cut (p := Keeps s0 x); (case' hp => (unfold x; clear x)); (case' k => (clear_value x; intro hx)))
    | (extract_lets +onlyGivenNames x; apply keeps_cut (p := Keeps s0 x.2); (case' hp => (unfold x; clear x)); (case' k => (clear_value x; intro hx)))
    | extract_lets +onlyGivenNames x
    | (simp only [keeps_mk]; refine core_of ?_)
    | with_reducible apply State.performed_keeps
    | with_reducible apply State.setCmd_keeps
    | split
    | (clear_value *; split)

theorem State.afterPass_keeps {s0 : State} {s : State} (c : Cmd) (x : MatrixCmd) (run : MatrixRun) (p : Nat × Nat × Nat) (h : Keeps s0 s) : Keeps s0 (State.afterPass s c x run p) := by
  unfold State.afterPass
  repeat' first
    | with_reducible assumption
    | intro _
    | (extract_lets +onlyGivenNames x; apply keeps_cut (p := Keeps s0 x); (case' hp => (unfold x; clear x)); (case' k => (clear_value x; intro hx)))
    | (extract_lets +onlyGivenNames x; apply keeps_cut (p := Keeps s0 x.2); (case' hp => (unfold x; clear x)); (case' k => (clear_value x; intro hx)))
    | extract_lets +onlyGivenNames x
    | (simp only [keeps_mk]; refine core_of ?_)
    | with_reducible apply State.cmdFault_keeps
    | with_reducible apply State.matrixDone_keeps
    | with_reducible apply State.setMatrixRun_keeps
    | with_reducible apply State.drainBlock_keeps
    | with_reducible apply State.pass_keeps
    | with_reducible apply State.complete_keeps
    | (with_reducible refine keeps_of_pair (by assumption) ?_)
    | (with_reducible refine keeps_of_some_snd (by assumption) ?_)
    | (with_reducible refine keeps_of_some_fst (by assumption) ?_)
    | with_reducible apply someAll_none
    | with_reducible apply someAll_some
    | split
    | (clear_value *; split)

theorem execMatrixMultiply_keeps {s0 : State} (dt : Nat) (core : Nat) (stalls : Nat) (parity : Bool) {s : State} (h : Keeps s0 s) : Outcome.all (Keeps s0) (execMatrixMultiply dt core stalls parity s) := by
  unfold execMatrixMultiply
  repeat' first
    | with_reducible assumption
    | intro _
    | (extract_lets +onlyGivenNames x; apply keeps_cut (p := Keeps s0 x); (case' hp => (unfold x; clear x)); (case' k => (clear_value x; intro hx)))
    | (extract_lets +onlyGivenNames x; apply keeps_cut (p := Keeps s0 x.2); (case' hp => (unfold x; clear x)); (case' k => (clear_value x; intro hx)))
    | extract_lets +onlyGivenNames x
    | (simp only [keeps_mk]; refine core_of ?_)
    | with_reducible apply outcome_next
    | with_reducible apply State.illegal_keeps
    | with_reducible apply State.cmdFault_keeps
    | with_reducible apply State.afterPass_keeps
    | with_reducible apply State.tick_keeps
    | with_reducible apply State.runPass_keeps
    | with_reducible apply State.pass_keeps
    | with_reducible apply State.bump_keeps
    | with_reducible apply State.parityFault_keeps
    | (with_reducible refine keeps_of_pair (by assumption) ?_)
    | (with_reducible refine keeps_of_some_snd (by assumption) ?_)
    | (with_reducible refine keeps_of_some_fst (by assumption) ?_)
    | split
    | (clear_value *; split)

theorem State.afterCapture_keeps {s0 : State} {s : State} (c : Cmd) (x : MatrixCmd) (run : MatrixRun) (p : Nat × Nat × Nat) (h : Keeps s0 s) : Keeps s0 (State.afterCapture s c x run p) := by
  unfold State.afterCapture
  repeat' first
    | with_reducible assumption
    | intro _
    | (extract_lets +onlyGivenNames x; apply keeps_cut (p := Keeps s0 x); (case' hp => (unfold x; clear x)); (case' k => (clear_value x; intro hx)))
    | (extract_lets +onlyGivenNames x; apply keeps_cut (p := Keeps s0 x.2); (case' hp => (unfold x; clear x)); (case' k => (clear_value x; intro hx)))
    | extract_lets +onlyGivenNames x
    | (simp only [keeps_mk]; refine core_of ?_)
    | with_reducible apply State.cmdFault_keeps
    | with_reducible apply State.matrixDone_keeps
    | with_reducible apply State.setMatrixRun_keeps
    | with_reducible apply State.freeLines_keeps
    | with_reducible apply State.writeLines_keeps
    | with_reducible apply State.pass_keeps
    | (with_reducible refine keeps_of_pair (by assumption) ?_)
    | (with_reducible refine keeps_of_triple (by assumption) ?_)
    | (with_reducible refine keeps_of_quad (by assumption) ?_)
    | (with_reducible refine keeps_of_some_snd (by assumption) ?_)
    | (with_reducible refine keeps_of_some_fst (by assumption) ?_)
    | with_reducible apply someAll_none
    | with_reducible apply someAll_some
    | split
    | (clear_value *; split)

theorem execMatrixCapture_keeps {s0 : State} (dt : Nat) (turn : ArrayTurn) {s : State} (h : Keeps s0 s) : Outcome.all (Keeps s0) (execMatrixCapture dt turn s) := by
  unfold execMatrixCapture
  repeat' first
    | with_reducible assumption
    | intro _
    | (extract_lets +onlyGivenNames x; apply keeps_cut (p := Keeps s0 x); (case' hp => (unfold x; clear x)); (case' k => (clear_value x; intro hx)))
    | (extract_lets +onlyGivenNames x; apply keeps_cut (p := Keeps s0 x.2); (case' hp => (unfold x; clear x)); (case' k => (clear_value x; intro hx)))
    | extract_lets +onlyGivenNames x
    | (simp only [keeps_mk]; refine core_of ?_)
    | with_reducible apply outcome_next
    | with_reducible apply State.illegal_keeps
    | with_reducible apply State.cmdFault_keeps
    | with_reducible apply State.afterCapture_keeps
    | with_reducible apply State.tick_keeps
    | with_reducible apply State.runPass_keeps
    | with_reducible apply State.pass_keeps
    | with_reducible apply State.bump_keeps
    | with_reducible apply State.parityFault_keeps
    | (with_reducible refine keeps_of_pair (by assumption) ?_)
    | (with_reducible refine keeps_of_some_snd (by assumption) ?_)
    | (with_reducible refine keeps_of_some_fst (by assumption) ?_)
    | split
    | (clear_value *; split)

theorem execWeightBankRead_keeps {s0 : State} (dt : Nat) (turn : BankTurn) {s : State} (h : Keeps s0 s) : Outcome.all (Keeps s0) (execWeightBankRead dt turn s) := by
  unfold execWeightBankRead
  repeat' first
    | with_reducible assumption
    | intro _
    | (extract_lets +onlyGivenNames x; apply keeps_cut (p := Keeps s0 x); (case' hp => (unfold x; clear x)); (case' k => (clear_value x; intro hx)))
    | (extract_lets +onlyGivenNames x; apply keeps_cut (p := Keeps s0 x.2); (case' hp => (unfold x; clear x)); (case' k => (clear_value x; intro hx)))
    | extract_lets +onlyGivenNames x
    | (simp only [keeps_mk]; refine core_of ?_)
    | with_reducible apply outcome_next
    | with_reducible apply State.illegal_keeps
    | with_reducible apply State.cmdFault_keeps
    | with_reducible apply State.matrixDone_keeps
    | with_reducible apply State.writeLines_keeps
    | with_reducible apply State.tick_keeps
    | with_reducible apply State.parityFault_keeps
    | (with_reducible refine keeps_of_pair (by assumption) ?_)
    | (with_reducible refine keeps_of_some_snd (by assumption) ?_)
    | (with_reducible refine keeps_of_some_fst (by assumption) ?_)
    | with_reducible apply someAll_none
    | with_reducible apply someAll_some
    | split
    | (clear_value *; split)

end Sys2Proof.Machine
end

