-- ==== Sys2Proof/Laws/KeepsFirmware.lean ====
section
/-! SUPPORT. Every operation of Machine/Firmware.lean keeps (`Keeps`). -/
set_option linter.tactic.unusedName false
set_option linter.unusedVariables false
set_option linter.unusedSimpArgs false
namespace Sys2Proof.Machine

theorem State.setImageSlot_keeps {s0 : State} {s : State} (b : Nat) (v : ImageSlot) (h : Keeps s0 s) : Keeps s0 (State.setImageSlot s b v) := by
  unfold State.setImageSlot
  repeat' first
    | with_reducible assumption
    | extract_lets +onlyGivenNames x
    | (simp only [keeps_mk]; refine core_of ?_)
    | split

theorem State.eraseSlot_keeps {s0 : State} {s : State} (h : Keeps s0 s) : Keeps s0 (State.eraseSlot s).2 := by
  unfold State.eraseSlot
  repeat' first
    | with_reducible assumption
    | (extract_lets +onlyGivenNames x; apply keeps_cut (p := Keeps s0 x); (case' hp => (unfold x; clear x)); (case' k => (clear_value x; intro hx)))
    | extract_lets +onlyGivenNames x
    | (simp only [keeps_mk]; refine core_of ?_)
    | with_reducible apply State.setImageSlot_keeps
    | with_reducible apply State.setNum_keeps
    | split

theorem execSlotEraseComplete_keeps {s0 : State} (dt : Nat) {s : State} (h : Keeps s0 s) : Outcome.all (Keeps s0) (execSlotEraseComplete dt s) := by
  unfold execSlotEraseComplete
  repeat' first
    | with_reducible assumption
    | (extract_lets +onlyGivenNames x; apply keeps_cut (p := Keeps s0 x); (case' hp => (unfold x; clear x)); (case' k => (clear_value x; intro hx)))
    | extract_lets +onlyGivenNames x
    | (simp only [keeps_mk]; refine core_of ?_)
    | with_reducible apply outcome_next
    | with_reducible apply State.tick_keeps
    | with_reducible apply State.setNum_keeps
    | split

theorem State.programSlot_keeps {s0 : State} {s : State} (offset : Nat) (data : Bytes) (h : Keeps s0 s) : Keeps s0 (State.programSlot s offset data).2 := by
  unfold State.programSlot
  repeat' first
    | with_reducible assumption
    | extract_lets +onlyGivenNames x
    | with_reducible apply State.setImageSlot_keeps
    | split

theorem State.writeBoot_keeps {s0 : State} {s : State} (preferred : Nat) (trial : Bool) (previous : Nat) (h : Keeps s0 s) : Keeps s0 (State.writeBoot s preferred trial previous) := by
  unfold State.writeBoot
  repeat' first
    | with_reducible assumption
    | intro _
    | (extract_lets +onlyGivenNames x; apply keeps_cut (p := Keeps s0 x); (case' hp => (unfold x; clear x)); (case' k => (clear_value x; intro hx)))
    | extract_lets +onlyGivenNames x
    | (simp only [keeps_mk]; refine core_of ?_)
    | split

theorem State.activateSlot_keeps {s0 : State} {s : State} (h : Keeps s0 s) : Keeps s0 (State.activateSlot s).2 := by
  unfold State.activateSlot
  repeat' first
    | with_reducible assumption
    | intro _
    | (extract_lets +onlyGivenNames x; apply keeps_cut (p := Keeps s0 x); (case' hp => (unfold x; clear x)); (case' k => (clear_value x; intro hx)))
    | extract_lets +onlyGivenNames x
    | with_reducible apply State.writeBoot_keeps
    | with_reducible apply State.setFlag_keeps
    | with_reducible apply State.setNum_keeps
    | split

theorem State.slotAction_keeps {s0 : State} {s : State} (arg : Nat) (h : Keeps s0 s) : Keeps s0 (State.slotAction s arg).2 := by
  unfold State.slotAction
  repeat' first
    | with_reducible assumption
    | with_reducible apply State.eraseSlot_keeps
    | with_reducible apply State.activateSlot_keeps
    | split

theorem State.commitSecurity_keeps {s0 : State} {s : State} (arg : Nat) (h : Keeps s0 s) : Keeps s0 (State.commitSecurity s arg).2 := by
  unfold State.commitSecurity
  split
  · exact h
  · split
    · exact h
    · exact State.setNum_keeps _ _ (State.setNum_keeps _ _
        ⟨h.pending, h.out, h.free, h.draws, Nat.le_trans h.security (Nat.le_max_left _ _), h.mem⟩)

theorem State.cutErase_keeps {s0 : State} {s : State} (h : Keeps s0 s) : Keeps s0 (State.cutErase s) := by
  unfold State.cutErase
  repeat' first
    | with_reducible assumption
    | (extract_lets +onlyGivenNames x; apply keeps_cut (p := Keeps s0 x); (case' hp => (unfold x; clear x)); (case' k => (clear_value x; intro hx)))
    | extract_lets +onlyGivenNames x
    | (simp only [keeps_mk]; refine core_of ?_)
    | with_reducible apply State.setImageSlot_keeps
    | split

end Sys2Proof.Machine
end

