-- ==== Sys2Proof/Laws/KeepsVector.lean ====
section
/-! SUPPORT. Every operation of Machine/Vector.lean keeps (`Keeps`). -/
set_option linter.tactic.unusedName false
set_option linter.unusedVariables false
set_option linter.unusedSimpArgs false
namespace Sys2Proof.Machine

/-- The state that making reads ready carries. -/
def Fetch.all (p : State → Prop) : Fetch → Prop
  | .lost => True
  | .wait s => p s
  | .bad s _ => p s
  | .ok => True

theorem State.prepare_keeps {s0 : State} {s : State} (c : Cmd) (core : Nat) (l : List VPlace) (h : Keeps s0 s) : Fetch.all (Keeps s0) (State.prepare s c core l) := by
  unfold State.prepare
  extract_lets lines missing
  split
  · trivial
  · split
    · exact keeps_foldl (fun _ _ k => State.askHost_keeps _ _ _ k) _ h
    · split
      · rename_i t e he
        obtain ⟨r, -, hr⟩ := List.exists_of_findSome?_eq_some he
        have k := State.read_keeps ⟨.c1, some c.job⟩ r.1 r.2 h
        split at hr
        · rename_i hb
          simp only [Option.some.injEq, Prod.mk.injEq] at hr
          rw [hb] at k
          rw [← hr.1]; exact k
        · cases hr
      · trivial

theorem State.takeReads_keeps {s0 : State} {s : State} (c : Cmd) (core : Nat) (l : List VPlace) (h : Keeps s0 s) : Keeps s0 (State.takeReads s c core l) := by
  unfold State.takeReads
  repeat' first
    | with_reducible assumption
    | (extract_lets +onlyGivenNames x; apply keeps_cut (p := Keeps s0 x); (case' hp => (unfold x; clear x)); (case' k => (clear_value x; intro hx)))
    | extract_lets +onlyGivenNames x
    | (simp only [keeps_mk]; refine core_of ?_)
    | with_reducible apply State.read_keeps
    | with_reducible apply State.hostBytes_keeps
    | (with_reducible apply keeps_foldl; intro _ _ _)

theorem State.dropHostWrite_keeps {s0 : State} {s : State} (tag : Nat) (source : Nat) (unit : Nat) (a : Nat) (d : Bytes) (h : Keeps s0 s) : Keeps s0 (State.dropHostWrite s tag source unit a d) := by
  unfold State.dropHostWrite
  repeat' first
    | with_reducible assumption
    | extract_lets +onlyGivenNames x
    | with_reducible apply State.logDiscard_keeps
    | with_reducible apply State.bump_keeps

theorem State.putSome_keeps {s0 : State} {s : State} (c : Cmd) (core : Nat) (x3 : List (Target × Bytes)) (h : Keeps s0 s) : Keeps s0 (State.putSome s c core x3).2 := by
  induction x3 generalizing s c core with
  | nil =>
    unfold State.putSome
    repeat' first
      | with_reducible assumption
      | intro _
      | (extract_lets +onlyGivenNames x; apply keeps_cut (p := Keeps s0 x); (case' hp => (unfold x; clear x)); (case' k => (clear_value x; intro hx)))
      | (extract_lets +onlyGivenNames x; apply keeps_cut (p := Keeps s0 x.2); (case' hp => (unfold x; clear x)); (case' k => (clear_value x; intro hx)))
      | extract_lets +onlyGivenNames x
      | (simp only [keeps_mk]; refine core_of ?_)
      | with_reducible apply State.write_keeps
      | with_reducible apply State.dropHostWrite_keeps
      | with_reducible apply State.hostBytes_keeps
      | with_reducible apply State.putHost_keeps
      | (with_reducible refine keeps_of_pair (by assumption) ?_)
      | (with_reducible refine keeps_of_triple (by assumption) ?_)
      | (with_reducible refine keeps_of_some_snd (by assumption) ?_)
      | (with_reducible refine keeps_of_some_fst (by assumption) ?_)
      | split
      | (clear_value *; split)
  | cons a rest ih =>
    unfold State.putSome
    repeat' first
      | with_reducible assumption
      | with_reducible apply ih
      | intro _
      | (extract_lets +onlyGivenNames x; apply keeps_cut (p := Keeps s0 x); (case' hp => (unfold x; clear x)); (case' k => (clear_value x; intro hx)))
      | (extract_lets +onlyGivenNames x; apply keeps_cut (p := Keeps s0 x.2); (case' hp => (unfold x; clear x)); (case' k => (clear_value x; intro hx)))
      | extract_lets +onlyGivenNames x
      | (simp only [keeps_mk]; refine core_of ?_)
      | with_reducible apply State.write_keeps
      | with_reducible apply State.dropHostWrite_keeps
      | with_reducible apply State.hostBytes_keeps
      | with_reducible apply State.putHost_keeps
      | (with_reducible refine keeps_of_pair (by assumption) ?_)
      | (with_reducible refine keeps_of_triple (by assumption) ?_)
      | (with_reducible refine keeps_of_some_snd (by assumption) ?_)
      | (with_reducible refine keeps_of_some_fst (by assumption) ?_)
      | split
      | (clear_value *; split)

theorem State.holdVector_keeps {s0 : State} {s : State} (r : VectorRun) (h : Keeps s0 s) : Keeps s0 (State.holdVector s r) := by
  unfold State.holdVector
  repeat' first
    | with_reducible assumption
    | intro _
    | (extract_lets +onlyGivenNames x; apply keeps_cut (p := Keeps s0 x); (case' hp => (unfold x; clear x)); (case' k => (clear_value x; intro hx)))
    | (extract_lets +onlyGivenNames x; apply keeps_cut (p := Keeps s0 x.2); (case' hp => (unfold x; clear x)); (case' k => (clear_value x; intro hx)))
    | extract_lets +onlyGivenNames x
    | (simp only [keeps_mk]; refine core_of ?_)
    | split
    | (clear_value *; split)

theorem State.vectorEnd_keeps {s0 : State} {s : State} (c : Cmd) (core : Nat) (status : Nat) (r : VectorRun) (h : Keeps s0 s) : Keeps s0 (State.vectorEnd s c core status r) := by
  unfold State.vectorEnd
  repeat' first
    | with_reducible assumption
    | intro _
    | (extract_lets +onlyGivenNames x; apply keeps_cut (p := Keeps s0 x); (case' hp => (unfold x; clear x)); (case' k => (clear_value x; intro hx)))
    | (extract_lets +onlyGivenNames x; apply keeps_cut (p := Keeps s0 x.2); (case' hp => (unfold x; clear x)); (case' k => (clear_value x; intro hx)))
    | extract_lets +onlyGivenNames x
    | (simp only [keeps_mk]; refine core_of ?_)
    | with_reducible apply State.illegal_keeps
    | with_reducible apply State.cmdFault_keeps
    | with_reducible apply State.holdVector_keeps
    | with_reducible apply State.putSome_keeps
    | with_reducible apply State.needRanges_keeps
    | with_reducible apply State.setCmd_keeps
    | with_reducible apply State.complete_keeps
    | with_reducible apply State.hostLost_keeps
    | (with_reducible refine keeps_of_ready (by assumption) ?_)
    | (with_reducible refine keeps_of_wait (by assumption) ?_)
    | (with_reducible refine keeps_of_fault (by assumption) ?_)
    | with_reducible apply pages_ready
    | with_reducible apply pages_wait
    | with_reducible apply pages_fault
    | (with_reducible refine keeps_of_pair (by assumption) ?_)
    | (with_reducible refine keeps_of_triple (by assumption) ?_)
    | (with_reducible refine keeps_of_some_snd (by assumption) ?_)
    | (with_reducible refine keeps_of_some_fst (by assumption) ?_)
    | split
    | (clear_value *; split)

theorem State.noteAccess_keeps {s0 : State} {s : State} (r : VectorRun) (l : List VAccess) (h : Keeps s0 s) : Keeps s0 (State.noteAccess s r l).2 := by
  unfold State.noteAccess
  repeat' first
    | with_reducible assumption
    | intro _
    | (extract_lets +onlyGivenNames x; apply keeps_cut (p := Keeps s0 x); (case' hp => (unfold x; clear x)); (case' k => (clear_value x; intro hx)))
    | (extract_lets +onlyGivenNames x; apply keeps_cut (p := Keeps s0 x.2); (case' hp => (unfold x; clear x)); (case' k => (clear_value x; intro hx)))
    | extract_lets +onlyGivenNames x
    | (simp only [keeps_mk]; refine core_of ?_)
    | with_reducible apply State.write_keeps
    | with_reducible apply State.blur_keeps
    | (with_reducible refine keeps_of_pair (by assumption) ?_)
    | (with_reducible refine keeps_of_triple (by assumption) ?_)
    | (with_reducible refine keeps_of_some_snd (by assumption) ?_)
    | (with_reducible refine keeps_of_some_fst (by assumption) ?_)
    | split
    | (clear_value *; split)

theorem fetch_lost {p : State → Prop} : Fetch.lost.all p := trivial
theorem fetch_ok {p : State → Prop} : Fetch.ok.all p := trivial
theorem fetch_wait {p : State → Prop} {s : State} (h : p s) : (Fetch.wait s).all p := h
theorem fetch_bad {p : State → Prop} {s : State} {n : Nat} (h : p s) : (Fetch.bad s n).all p := h
theorem keeps_of_fetch_wait {s0 t : State} {x : Fetch} (e : x = .wait t) (h : x.all (Keeps s0)) : Keeps s0 t := by
  rw [e] at h; exact h
theorem keeps_of_fetch_bad {s0 t : State} {x : Fetch} {n : Nat} (e : x = .bad t n) (h : x.all (Keeps s0)) : Keeps s0 t := by
  rw [e] at h; exact h

theorem State.beginRun_keeps {s0 : State} {s : State} (c : Cmd) (core : Nat) (program : List Nat) (raw : List Bytes) (h : Keeps s0 s) : Keeps s0 (State.beginRun s c core program raw) := by
  unfold State.beginRun
  repeat' first
    | with_reducible assumption
    | intro _
    | (extract_lets +onlyGivenNames x; apply keeps_cut (p := Keeps s0 x); (case' hp => (unfold x; clear x)); (case' k => (clear_value x; intro hx)))
    | (extract_lets +onlyGivenNames x; apply keeps_cut (p := Keeps s0 x.2); (case' hp => (unfold x; clear x)); (case' k => (clear_value x; intro hx)))
    | extract_lets +onlyGivenNames x
    | (simp only [keeps_mk]; refine core_of ?_)
    | with_reducible apply State.illegal_keeps
    | with_reducible apply State.cmdFault_keeps
    | with_reducible apply RowsRun.state_keeps
    | with_reducible apply State.vectorEnd_keeps
    | with_reducible apply State.holdVector_keeps
    | with_reducible apply State.needRanges_keeps
    | with_reducible apply State.takeReads_keeps
    | with_reducible apply State.prepare_keeps
    | with_reducible apply State.setCmd_keeps
    | with_reducible apply State.clashes_keeps
    | (with_reducible refine keeps_of_ready (by assumption) ?_)
    | (with_reducible refine keeps_of_wait (by assumption) ?_)
    | (with_reducible refine keeps_of_fault (by assumption) ?_)
    | with_reducible apply pages_ready
    | with_reducible apply pages_wait
    | with_reducible apply pages_fault
    | (with_reducible refine keeps_of_fetch_wait (by assumption) ?_)
    | (with_reducible refine keeps_of_fetch_bad (by assumption) ?_)
    | with_reducible apply fetch_wait
    | with_reducible apply fetch_bad
    | with_reducible apply fetch_lost
    | with_reducible apply fetch_ok
    | (with_reducible refine keeps_of_pair (by assumption) ?_)
    | (with_reducible refine keeps_of_triple (by assumption) ?_)
    | (with_reducible refine keeps_of_some_snd (by assumption) ?_)
    | (with_reducible refine keeps_of_some_fst (by assumption) ?_)
    | split
    | (clear_value *; split)

theorem State.mismatch_keeps {s0 : State} {s : State} (c : Cmd) (core : Nat) (h : Keeps s0 s) : Keeps s0 (State.mismatch s c core) := by
  unfold State.mismatch
  repeat' first
    | with_reducible assumption
    | extract_lets +onlyGivenNames x
    | with_reducible apply State.needRanges_keeps
    | with_reducible apply State.illegal_keeps
    | with_reducible apply State.vectorEnd_keeps
    | with_reducible apply State.bump_keeps
    | (with_reducible refine keeps_of_fault (by assumption) ?_)
    | (with_reducible refine keeps_of_ready (by assumption) ?_)
    | (with_reducible refine keeps_of_wait (by assumption) ?_)
    | split

theorem State.startRun_keeps {s0 : State} {s : State} (core : Nat) (op : Nat) (h : Keeps s0 s) : Keeps s0 (State.startRun s core op) := by
  unfold State.startRun
  obtain ⟨f2, e2, k2⟩ : ∃ f2, f2 = @State.read ∧ (∀ {s : State} (acc : Access) (a : Nat) (n : Nat) (h : Keeps s0 s), Keeps s0 (f2 s acc a n).2) := ⟨_, rfl, @State.read_keeps s0⟩
  rw [← e2]
  clear e2
  repeat' first
    | with_reducible assumption
    | extract_lets +onlyGivenNames x
    | with_reducible apply State.illegal_keeps
    | with_reducible apply State.mismatch_keeps
    | with_reducible apply k2
    | with_reducible apply State.cmdFault_keeps
    | with_reducible apply State.beginRun_keeps
    | (with_reducible refine keeps_of_pair (by assumption) ?_)
    | split

theorem execVectorRun_keeps {s0 : State} (dt : Nat) (core : Nat) {s : State} (h : Keeps s0 s) : Outcome.all (Keeps s0) (execVectorRun dt core s) := by
  unfold execVectorRun
  repeat' first
    | with_reducible assumption
    | extract_lets +onlyGivenNames x
    | with_reducible apply outcome_next
    | with_reducible apply State.startRun_keeps
    | with_reducible apply State.tick_keeps

theorem execLaneProgramRun_keeps {s0 : State} (dt : Nat) (core : Nat) {s : State} (h : Keeps s0 s) : Outcome.all (Keeps s0) (execLaneProgramRun dt core s) := by
  unfold execLaneProgramRun
  repeat' first
    | with_reducible assumption
    | extract_lets +onlyGivenNames x
    | with_reducible apply outcome_next
    | with_reducible apply State.startRun_keeps
    | with_reducible apply State.tick_keeps

theorem execLaneProgramLoad_keeps {s0 : State} (dt : Nat) (core : Nat) {s : State} (h : Keeps s0 s) : Outcome.all (Keeps s0) (execLaneProgramLoad dt core s) := by
  unfold execLaneProgramLoad
  repeat' first
    | with_reducible assumption
    | (extract_lets +onlyGivenNames x; apply keeps_cut (p := Keeps s0 x); (case' hp => (unfold x; clear x)); (case' k => (clear_value x; intro hx)))
    | extract_lets +onlyGivenNames x
    | (simp only [keeps_mk]; refine core_of ?_)
    | with_reducible apply outcome_next
    | with_reducible apply State.tick_keeps
    | with_reducible apply State.illegal_keeps
    | with_reducible apply State.read_keeps
    | with_reducible apply State.cmdFault_keeps
    | with_reducible apply State.setCmd_keeps
    | with_reducible apply State.bump_keeps
    | (with_reducible refine keeps_of_pair (by assumption) ?_)
    | split

theorem State.freeStores_keeps {s0 : State} {s : State} (l : List (VPlace × Bytes × Stored)) (h : Keeps s0 s) : Keeps s0 (State.freeStores s l).2 := by
  unfold State.freeStores
  repeat' first
    | with_reducible assumption
    | extract_lets +onlyGivenNames x
    | with_reducible apply State.drawBytes_keeps
    | (with_reducible apply keeps_foldl_snd; intro _ _ _)

theorem State.flushStores_keeps {s0 : State} {s : State} (c : Cmd) (core : Nat) (r : VectorRun) (h : Keeps s0 s) : Keeps s0 (State.flushStores s c core r) := by
  unfold State.flushStores
  repeat' first
    | with_reducible assumption
    | intro _
    | (extract_lets +onlyGivenNames x; apply keeps_cut (p := Keeps s0 x); (case' hp => (unfold x; clear x)); (case' k => (clear_value x; intro hx)))
    | (extract_lets +onlyGivenNames x; apply keeps_cut (p := Keeps s0 x.2); (case' hp => (unfold x; clear x)); (case' k => (clear_value x; intro hx)))
    | extract_lets +onlyGivenNames x
    | (simp only [keeps_mk]; refine core_of ?_)
    | with_reducible apply State.cmdFault_keeps
    | with_reducible apply RowsRun.state_keeps
    | with_reducible apply State.vectorEnd_keeps
    | with_reducible apply State.holdVector_keeps
    | with_reducible apply State.putSome_keeps
    | with_reducible apply State.setCmd_keeps
    | (with_reducible refine keeps_of_pair (by assumption) ?_)
    | (with_reducible refine keeps_of_triple (by assumption) ?_)
    | (with_reducible refine keeps_of_some_snd (by assumption) ?_)
    | (with_reducible refine keeps_of_some_fst (by assumption) ?_)
    | split
    | (clear_value *; split)

theorem State.groupDone_keeps {s0 : State} {s : State} (c : Cmd) (core : Nat) (l : List Binding) (r : VectorRun) (k1 : Nat) (v : Lanes) (sum : Nat) (stores : List (VPlace × Bytes × Stored)) (writes : List (Target × Bytes)) (h : Keeps s0 s) : Keeps s0 (State.groupDone s c core l r k1 v sum stores writes) := by
  unfold State.groupDone
  repeat' first
    | with_reducible assumption
    | intro _
    | (extract_lets +onlyGivenNames x; apply keeps_cut (p := Keeps s0 x); (case' hp => (unfold x; clear x)); (case' k => (clear_value x; intro hx)))
    | (extract_lets +onlyGivenNames x; apply keeps_cut (p := Keeps s0 x.2); (case' hp => (unfold x; clear x)); (case' k => (clear_value x; intro hx)))
    | extract_lets +onlyGivenNames x
    | (simp only [keeps_mk]; refine core_of ?_)
    | with_reducible apply State.flushStores_keeps
    | with_reducible apply State.bump_keeps
    | (with_reducible apply keeps_foldl; intro _ _ _)
    | (with_reducible apply keeps_foldl_snd; intro _ _ _)
    | split
    | (clear_value *; split)

theorem State.dropLines_keeps {s0 : State} {s : State} (c : Cmd) (h : Keeps s0 s) : Keeps s0 (State.dropLines s c) := by
  unfold State.dropLines
  repeat' first
    | with_reducible assumption
    | intro _
    | (extract_lets +onlyGivenNames x; apply keeps_cut (p := Keeps s0 x); (case' hp => (unfold x; clear x)); (case' k => (clear_value x; intro hx)))
    | (extract_lets +onlyGivenNames x; apply keeps_cut (p := Keeps s0 x.2); (case' hp => (unfold x; clear x)); (case' k => (clear_value x; intro hx)))
    | extract_lets +onlyGivenNames x
    | (simp only [keeps_mk]; refine core_of ?_)
    | split
    | (clear_value *; split)

theorem State.runGroup_keeps {s0 : State} {s : State} (c : Cmd) (core : Nat) (holds : Nat) (l : List Binding) (r : VectorRun) (reads : List (Nat × VPlace)) (k1 : Nat) (h : Keeps s0 s) : Keeps s0 (State.runGroup s c core holds l r reads k1) := by
  unfold State.runGroup
  repeat' first
    | with_reducible assumption
    | intro _
    | (extract_lets +onlyGivenNames x; apply keeps_cut (p := Keeps s0 x); (case' hp => (unfold x; clear x)); (case' k => (clear_value x; intro hx)))
    | (extract_lets +onlyGivenNames x; apply keeps_cut (p := Keeps s0 x.2); (case' hp => (unfold x; clear x)); (case' k => (clear_value x; intro hx)))
    | extract_lets +onlyGivenNames x
    | (simp only [keeps_mk]; refine core_of ?_)
    | with_reducible apply State.illegal_keeps
    | with_reducible apply State.dropLines_keeps
    | with_reducible apply State.groupDone_keeps
    | with_reducible apply State.freeStores_keeps
    | with_reducible apply State.noteAccess_keeps
    | with_reducible apply State.vectorEnd_keeps
    | with_reducible apply State.needRanges_keeps
    | with_reducible apply State.takeReads_keeps
    | with_reducible apply State.bump_keeps
    | (with_reducible refine keeps_of_ready (by assumption) ?_)
    | (with_reducible refine keeps_of_wait (by assumption) ?_)
    | (with_reducible refine keeps_of_fault (by assumption) ?_)
    | with_reducible apply pages_ready
    | with_reducible apply pages_wait
    | with_reducible apply pages_fault
    | (with_reducible refine keeps_of_pair (by assumption) ?_)
    | (with_reducible refine keeps_of_triple (by assumption) ?_)
    | (with_reducible refine keeps_of_some_snd (by assumption) ?_)
    | (with_reducible refine keeps_of_some_fst (by assumption) ?_)
    | split
    | (clear_value *; split)

theorem State.nextGroup_keeps {s0 : State} {s : State} (c : Cmd) (core : Nat) (holds : Nat) (l : List Binding) (r : VectorRun) (h : Keeps s0 s) : Keeps s0 (State.nextGroup s c core holds l r) := by
  unfold State.nextGroup
  repeat' first
    | with_reducible assumption
    | intro _
    | (extract_lets +onlyGivenNames x; apply keeps_cut (p := Keeps s0 x); (case' hp => (unfold x; clear x)); (case' k => (clear_value x; intro hx)))
    | (extract_lets +onlyGivenNames x; apply keeps_cut (p := Keeps s0 x.2); (case' hp => (unfold x; clear x)); (case' k => (clear_value x; intro hx)))
    | extract_lets +onlyGivenNames x
    | (simp only [keeps_mk]; refine core_of ?_)
    | with_reducible apply State.illegal_keeps
    | with_reducible apply State.cmdFault_keeps
    | with_reducible apply State.runGroup_keeps
    | with_reducible apply State.read_keeps
    | with_reducible apply RowsRun.read_keeps
    | with_reducible apply State.vectorEnd_keeps
    | with_reducible apply State.needRanges_keeps
    | with_reducible apply State.prepare_keeps
    | (with_reducible refine keeps_of_ready (by assumption) ?_)
    | (with_reducible refine keeps_of_wait (by assumption) ?_)
    | (with_reducible refine keeps_of_fault (by assumption) ?_)
    | with_reducible apply pages_ready
    | with_reducible apply pages_wait
    | with_reducible apply pages_fault
    | (with_reducible refine keeps_of_fetch_wait (by assumption) ?_)
    | (with_reducible refine keeps_of_fetch_bad (by assumption) ?_)
    | with_reducible apply fetch_wait
    | with_reducible apply fetch_bad
    | with_reducible apply fetch_lost
    | with_reducible apply fetch_ok
    | (with_reducible refine keeps_of_pair (by assumption) ?_)
    | (with_reducible refine keeps_of_some_snd (by assumption) ?_)
    | (with_reducible refine keeps_of_some_fst (by assumption) ?_)
    | split
    | (clear_value *; split)

theorem State.lastStores_keeps {s0 : State} {s : State} (c : Cmd) (core : Nat) (l : List Binding) (r : VectorRun) (h : Keeps s0 s) : Keeps s0 (State.lastStores s c core l r) := by
  unfold State.lastStores
  repeat' first
    | with_reducible assumption
    | intro _
    | (extract_lets +onlyGivenNames x; apply keeps_cut (p := Keeps s0 x); (case' hp => (unfold x; clear x)); (case' k => (clear_value x; intro hx)))
    | (extract_lets +onlyGivenNames x; apply keeps_cut (p := Keeps s0 x.2); (case' hp => (unfold x; clear x)); (case' k => (clear_value x; intro hx)))
    | extract_lets +onlyGivenNames x
    | (simp only [keeps_mk]; refine core_of ?_)
    | with_reducible apply State.illegal_keeps
    | with_reducible apply State.flushStores_keeps
    | with_reducible apply State.freeStores_keeps
    | with_reducible apply RowsRun.state_keeps
    | with_reducible apply State.noteAccess_keeps
    | with_reducible apply State.vectorEnd_keeps
    | with_reducible apply State.needRanges_keeps
    | (with_reducible refine keeps_of_ready (by assumption) ?_)
    | (with_reducible refine keeps_of_wait (by assumption) ?_)
    | (with_reducible refine keeps_of_fault (by assumption) ?_)
    | with_reducible apply pages_ready
    | with_reducible apply pages_wait
    | with_reducible apply pages_fault
    | (with_reducible refine keeps_of_pair (by assumption) ?_)
    | (with_reducible refine keeps_of_triple (by assumption) ?_)
    | (with_reducible refine keeps_of_some_snd (by assumption) ?_)
    | (with_reducible refine keeps_of_some_fst (by assumption) ?_)
    | split
    | (clear_value *; split)

theorem execVectorGroup_keeps {s0 : State} (dt : Nat) (core : Nat) (holds : Nat) (parity : Bool) {s : State} (h : Keeps s0 s) : Outcome.all (Keeps s0) (execVectorGroup dt core holds parity s) := by
  unfold execVectorGroup
  repeat' first
    | with_reducible assumption
    | intro _
    | (extract_lets +onlyGivenNames x; apply keeps_cut (p := Keeps s0 x); (case' hp => (unfold x; clear x)); (case' k => (clear_value x; intro hx)))
    | (extract_lets +onlyGivenNames x; apply keeps_cut (p := Keeps s0 x.2); (case' hp => (unfold x; clear x)); (case' k => (clear_value x; intro hx)))
    | extract_lets +onlyGivenNames x
    | (simp only [keeps_mk]; refine core_of ?_)
    | with_reducible apply outcome_next
    | with_reducible apply State.lastStores_keeps
    | with_reducible apply State.nextGroup_keeps
    | with_reducible apply State.flushStores_keeps
    | with_reducible apply RowsRun.state_keeps
    | with_reducible apply State.tick_keeps
    | with_reducible apply State.vectorEnd_keeps
    | with_reducible apply State.parityFault_keeps
    | (with_reducible refine keeps_of_pair (by assumption) ?_)
    | (with_reducible refine keeps_of_some_snd (by assumption) ?_)
    | (with_reducible refine keeps_of_some_fst (by assumption) ?_)
    | split
    | (clear_value *; split)

end Sys2Proof.Machine
end

