-- ==== Sys2Proof/Laws/KeepsHostPort.lean ====
section
/-! SUPPORT. Every operation of Machine/HostPort.lean keeps (`Keeps`). -/
set_option linter.tactic.unusedName false
set_option linter.unusedVariables false
set_option linter.unusedSimpArgs false
namespace Sys2Proof.Machine

theorem State.event_keeps {s0 : State} {s : State} (code : Nat) (a : Nat) (h : Keeps s0 s) : Keeps s0 (State.event s code a) := by
  unfold State.event
  repeat' first
    | with_reducible assumption
    | extract_lets +onlyGivenNames x
    | (simp only [keeps_mk]; refine core_of ?_)

theorem execHostLinkUp_keeps {s0 : State} (dt : Nat) (width : Nat) (rate : Nat) {s : State} (h : Keeps s0 s) : Outcome.all (Keeps s0) (execHostLinkUp dt width rate s) := by
  unfold execHostLinkUp
  repeat' first
    | with_reducible assumption
    | (extract_lets +onlyGivenNames x; apply keeps_cut (p := Keeps s0 x); (case' hp => (unfold x; clear x)); (case' k => (clear_value x; intro hx)))
    | extract_lets +onlyGivenNames x
    | (simp only [keeps_mk]; refine core_of ?_)
    | with_reducible apply outcome_next
    | with_reducible apply State.tick_keeps
    | with_reducible apply State.setNum_keeps
    | split

theorem execLinkRecovery_keeps {s0 : State} (dt : Nat) (replays : Nat) {s : State} (h : Keeps s0 s) : Outcome.all (Keeps s0) (execLinkRecovery dt replays s) := by
  unfold execLinkRecovery
  repeat' first
    | with_reducible assumption
    | (extract_lets +onlyGivenNames x; apply keeps_cut (p := Keeps s0 x); (case' hp => (unfold x; clear x)); (case' k => (clear_value x; intro hx)))
    | extract_lets +onlyGivenNames x
    | with_reducible apply outcome_next
    | with_reducible apply State.tick_keeps
    | with_reducible apply State.bump_keeps
    | split

theorem execPerstDeassert_keeps {s0 : State} (dt : Nat) {s : State} (h : Keeps s0 s) : Outcome.all (Keeps s0) (execPerstDeassert dt s) := by
  unfold execPerstDeassert
  repeat' first
    | with_reducible assumption
    | (extract_lets +onlyGivenNames x; apply keeps_cut (p := Keeps s0 x); (case' hp => (unfold x; clear x)); (case' k => (clear_value x; intro hx)))
    | extract_lets +onlyGivenNames x
    | (simp only [keeps_mk]; refine core_of ?_)
    | with_reducible apply outcome_next
    | with_reducible apply State.tick_keeps

theorem State.writeConfig_keeps {s0 : State} {s : State} (f : ConfigField) (v : Bool) (h : Keeps s0 s) : Keeps s0 (State.writeConfig s f v) := by
  unfold State.writeConfig
  repeat' first
    | with_reducible assumption
    | extract_lets +onlyGivenNames x
    | (simp only [keeps_mk]; refine core_of ?_)
    | split

theorem execConfigurationRequest_keeps {s0 : State} (dt : Nat) (field : ConfigField) (write : Bool) (value : Bool) {s : State} (h : Keeps s0 s) : Outcome.all (Keeps s0) (execConfigurationRequest dt field write value s) := by
  unfold execConfigurationRequest
  repeat' first
    | with_reducible assumption
    | (extract_lets +onlyGivenNames x; apply keeps_cut (p := Keeps s0 x); (case' hp => (unfold x; clear x)); (case' k => (clear_value x; intro hx)))
    | extract_lets +onlyGivenNames x
    | with_reducible apply outcome_next
    | with_reducible apply State.tick_keeps
    | with_reducible apply State.emit_keeps
    | with_reducible apply State.writeConfig_keeps
    | split

theorem execHdmCommit_keeps {s0 : State} (dt : Nat) (base : Nat) {s : State} (h : Keeps s0 s) : Outcome.all (Keeps s0) (execHdmCommit dt base s) := by
  unfold execHdmCommit
  repeat' first
    | with_reducible assumption
    | (extract_lets +onlyGivenNames x; apply keeps_cut (p := Keeps s0 x); (case' hp => (unfold x; clear x)); (case' k => (clear_value x; intro hx)))
    | extract_lets +onlyGivenNames x
    | (simp only [keeps_mk]; refine core_of ?_)
    | with_reducible apply outcome_next
    | with_reducible apply State.tick_keeps
    | with_reducible apply State.setNum_keeps
    | split

theorem execIdeKmMessage_keeps {s0 : State} (dt : Nat) (session : Nat) (stream : Nat) (step : IdeStep) {s : State} (h : Keeps s0 s) : Outcome.all (Keeps s0) (execIdeKmMessage dt session stream step s) := by
  unfold execIdeKmMessage
  repeat' first
    | with_reducible assumption
    | intro _
    | (extract_lets +onlyGivenNames x; apply keeps_cut (p := Keeps s0 x); (case' hp => (unfold x; clear x)); (case' k => (clear_value x; intro hx)))
    | (extract_lets +onlyGivenNames x; apply keeps_cut (p := Keeps s0 x.2); (case' hp => (unfold x; clear x)); (case' k => (clear_value x; intro hx)))
    | extract_lets +onlyGivenNames x
    | (simp only [keeps_mk]; refine core_of ?_)
    | with_reducible apply outcome_next
    | with_reducible apply State.tick_keeps
    | with_reducible apply State.activate_keeps
    | split
    | (clear_value *; split)

theorem State.setMsixByte_keeps {s0 : State} {s : State} (k : Nat) (v : Byte) (h : Keeps s0 s) : Keeps s0 (State.setMsixByte s k v) := by
  unfold State.setMsixByte
  repeat' first
    | with_reducible assumption
    | extract_lets +onlyGivenNames x
    | (simp only [keeps_mk]; refine core_of ?_)

theorem State.sendVector_keeps {s0 : State} {s : State} (h' : HeldVector) (h : Keeps s0 s) : Keeps s0 (State.sendVector s h') := by
  unfold State.sendVector
  repeat' first
    | with_reducible assumption
    | extract_lets +onlyGivenNames x
    | (simp only [keeps_mk]; refine core_of ?_)
    | with_reducible apply State.emit_keeps
    | split

theorem execVectorSend_keeps {s0 : State} (dt : Nat) (vector : Nat) {s : State} (h : Keeps s0 s) : Outcome.all (Keeps s0) (execVectorSend dt vector s) := by
  unfold execVectorSend
  repeat' first
    | with_reducible assumption
    | (extract_lets +onlyGivenNames x; apply keeps_cut (p := Keeps s0 x); (case' hp => (unfold x; clear x)); (case' k => (clear_value x; intro hx)))
    | extract_lets +onlyGivenNames x
    | with_reducible apply outcome_next
    | with_reducible apply State.tick_keeps
    | with_reducible apply State.sendVector_keeps
    | split

theorem State.completeHostFences_keeps {s0 : State} {s : State} (h : Keeps s0 s) : Keeps s0 (State.completeHostFences s) := by
  unfold State.completeHostFences
  repeat' first
    | with_reducible assumption
    | extract_lets +onlyGivenNames x
    | with_reducible apply State.complete_keeps
    | (with_reducible apply keeps_foldl; intro _ _ _)

theorem State.resumeQueues_keeps {s0 : State} {s : State} (h : Keeps s0 s) : Keeps s0 (State.resumeQueues s) := by
  unfold State.resumeQueues
  repeat' first
    | with_reducible assumption
    | (simp only [keeps_mk]; refine core_of ?_)

theorem State.attach_keeps {s0 : State} {s : State} (h : Keeps s0 s) : Keeps s0 (State.attach s) := by
  unfold State.attach
  repeat' first
    | with_reducible assumption
    | (extract_lets +onlyGivenNames x; apply keeps_cut (p := Keeps s0 x); (case' hp => (unfold x; clear x)); (case' k => (clear_value x; intro hx)))
    | extract_lets +onlyGivenNames x
    | (simp only [keeps_mk]; refine core_of ?_)
    | with_reducible apply State.bump_keeps
    | with_reducible apply State.setNum_keeps
    | with_reducible apply State.resumeQueues_keeps
    | with_reducible apply State.resumeHost_keeps
    | with_reducible apply State.completeHostFences_keeps
    | with_reducible apply State.sendVector_keeps
    | with_reducible apply State.raise_keeps
    | (with_reducible apply keeps_foldl; intro _ _ _)
    | split

theorem State.writeAttach_keeps {s0 : State} {s : State} (h : Keeps s0 s) : Keeps s0 (State.writeAttach s) := by
  unfold State.writeAttach
  repeat' first
    | with_reducible assumption
    | extract_lets +onlyGivenNames x
    | (simp only [keeps_mk]; refine core_of ?_)
    | with_reducible apply State.attach_keeps
    | split

theorem execHostAttach_keeps {s0 : State} (dt : Nat) {s : State} (h : Keeps s0 s) : Outcome.all (Keeps s0) (execHostAttach dt s) := by
  unfold execHostAttach
  repeat' first
    | with_reducible assumption
    | extract_lets +onlyGivenNames x
    | with_reducible apply outcome_next
    | with_reducible apply State.writeAttach_keeps
    | with_reducible apply State.tick_keeps

theorem State.clearLog_keeps {s0 : State} {s : State} (h : Keeps s0 s) : Keeps s0 (State.clearLog s) := by
  unfold State.clearLog
  repeat' first
    | with_reducible assumption
    | extract_lets +onlyGivenNames x
    | (simp only [keeps_mk]; refine core_of ?_)
    | with_reducible apply State.clearNums_keeps

theorem execHostClearLog_keeps {s0 : State} (dt : Nat) {s : State} (h : Keeps s0 s) : Outcome.all (Keeps s0) (execHostClearLog dt s) := by
  unfold execHostClearLog
  repeat' first
    | with_reducible assumption
    | extract_lets +onlyGivenNames x
    | with_reducible apply outcome_next
    | with_reducible apply State.clearLog_keeps
    | with_reducible apply State.tick_keeps

theorem State.haltStreams_keeps {s0 : State} {s : State} (h : Keeps s0 s) : Keeps s0 (State.haltStreams s) := by
  unfold State.haltStreams
  repeat' first
    | with_reducible assumption
    | extract_lets +onlyGivenNames x
    | with_reducible apply State.haltHost_keeps
    | (with_reducible apply keeps_foldl; intro _ _ _)
    | split

theorem State.endVectorRuns_keeps {s0 : State} {s : State} (reads : List HostRead) (h : Keeps s0 s) : Keeps s0 (State.endVectorRuns s reads) := by
  unfold State.endVectorRuns
  repeat' first
    | with_reducible assumption
    | extract_lets +onlyGivenNames x
    | with_reducible apply State.vectorEnd_keeps
    | (with_reducible apply keeps_foldl; intro _ _ _)
    | split

theorem State.holdQueues_keeps {s0 : State} {s : State} (reads : List HostRead) (h : Keeps s0 s) : Keeps s0 (State.holdQueues s reads) := by
  unfold State.holdQueues
  repeat' first
    | with_reducible assumption
    | extract_lets +onlyGivenNames x
    | with_reducible apply State.holdForHost_keeps
    | (with_reducible apply keeps_foldl; intro _ _ _)
    | split

theorem State.conventionalReset_keeps {s0 : State} {s : State} (h : Keeps s0 s) : Keeps s0 (State.conventionalReset s) := by
  unfold State.conventionalReset
  repeat' first
    | with_reducible assumption
    | (extract_lets +onlyGivenNames x; apply keeps_cut (p := Keeps s0 x); (case' hp => (unfold x; clear x)); (case' k => (clear_value x; intro hx)))
    | extract_lets +onlyGivenNames x
    | (simp only [keeps_mk]; refine core_of ?_)
    | with_reducible apply State.setNum_keeps

theorem State.loseHost_keeps {s0 : State} {s : State} (h : Keeps s0 s) : Keeps s0 (State.loseHost s) := by
  unfold State.loseHost
  repeat' first
    | with_reducible assumption
    | (extract_lets +onlyGivenNames x; apply keeps_cut (p := Keeps s0 x); (case' hp => (unfold x; clear x)); (case' k => (clear_value x; intro hx)))
    | extract_lets +onlyGivenNames x
    | (simp only [keeps_mk]; refine core_of ?_)
    | with_reducible apply State.event_keeps
    | with_reducible apply State.setNum_keeps
    | with_reducible apply State.bump_keeps
    | with_reducible apply State.discardWrites_keeps
    | with_reducible apply State.hostLost_keeps
    | with_reducible apply State.holdQueues_keeps
    | with_reducible apply State.endVectorRuns_keeps
    | with_reducible apply State.haltStreams_keeps
    | with_reducible apply State.migrationFail_keeps
    | with_reducible apply State.conventionalReset_keeps
    | (with_reducible apply keeps_foldl; intro _ _ _)
    | split

theorem execHostLinkLoss_keeps {s0 : State} (dt : Nat) (perst : Bool) {s : State} (h : Keeps s0 s) : Outcome.all (Keeps s0) (execHostLinkLoss dt perst s) := by
  unfold execHostLinkLoss
  repeat' first
    | with_reducible assumption
    | (extract_lets +onlyGivenNames x; apply keeps_cut (p := Keeps s0 x); (case' hp => (unfold x; clear x)); (case' k => (clear_value x; intro hx)))
    | extract_lets +onlyGivenNames x
    | (simp only [keeps_mk]; refine core_of ?_)
    | with_reducible apply outcome_next
    | with_reducible apply State.tick_keeps
    | with_reducible apply State.loseHost_keeps
    | split

theorem execHostMemRead_keeps {s0 : State} (dt : Nat) (address : Nat) (length : Nat) {s : State} (h : Keeps s0 s) : Outcome.all (Keeps s0) (execHostMemRead dt address length s) := by
  unfold execHostMemRead
  repeat' first
    | with_reducible assumption
    | (extract_lets +onlyGivenNames x; apply keeps_cut (p := Keeps s0 x); (case' hp => (unfold x; clear x)); (case' k => (clear_value x; intro hx)))
    | extract_lets +onlyGivenNames x
    | with_reducible apply outcome_next
    | with_reducible apply outcome_fault
    | with_reducible apply State.tick_keeps
    | with_reducible apply State.bump_keeps
    | with_reducible apply State.emit_keeps
    | with_reducible apply State.read_keeps
    | with_reducible apply State.event_keeps
    | with_reducible apply State.report_keeps
    | with_reducible apply State.drawBytes_keeps
    | (with_reducible refine keeps_of_pair (by assumption) ?_)
    | split

theorem execHostMemWrite_keeps {s0 : State} (dt : Nat) (address : Nat) (data : Bytes) (uio : Bool) {s : State} (h : Keeps s0 s) : Outcome.all (Keeps s0) (execHostMemWrite dt address data uio s) := by
  unfold execHostMemWrite
  repeat' first
    | with_reducible assumption
    | (extract_lets +onlyGivenNames x; apply keeps_cut (p := Keeps s0 x); (case' hp => (unfold x; clear x)); (case' k => (clear_value x; intro hx)))
    | extract_lets +onlyGivenNames x
    | with_reducible apply outcome_next
    | with_reducible apply outcome_fault
    | with_reducible apply State.tick_keeps
    | with_reducible apply State.bump_keeps
    | with_reducible apply State.emit_keeps
    | with_reducible apply State.write_keeps
    | with_reducible apply State.event_keeps
    | with_reducible apply State.report_keeps
    | (with_reducible refine keeps_of_pair (by assumption) ?_)
    | split

theorem execPeerMemRequest_keeps {s0 : State} (dt : Nat) (address : Nat) {s : State} (h : Keeps s0 s) : Outcome.all (Keeps s0) (execPeerMemRequest dt address s) := by
  unfold execPeerMemRequest
  repeat' first
    | with_reducible assumption
    | (extract_lets +onlyGivenNames x; apply keeps_cut (p := Keeps s0 x); (case' hp => (unfold x; clear x)); (case' k => (clear_value x; intro hx)))
    | extract_lets +onlyGivenNames x
    | with_reducible apply outcome_next
    | with_reducible apply outcome_fault
    | with_reducible apply State.tick_keeps
    | with_reducible apply State.emit_keeps
    | with_reducible apply State.bump_keeps
    | split

theorem State.hostReadFault_keeps {s0 : State} {s : State} (r : HostRead) (h : Keeps s0 s) : Keeps s0 (State.hostReadFault s r) := by
  unfold State.hostReadFault
  repeat' first
    | with_reducible assumption
    | intro _
    | (extract_lets +onlyGivenNames x; apply keeps_cut (p := ∀ (a : Option Cmd) (u : UnitId), Keeps s0 (x a u)); (case' hp => (unfold x; clear x)); (case' k => (clear_value x; intro hx)))
    | (with_reducible refine keeps_of_fun0 (by assumption))
    | extract_lets +onlyGivenNames x
    | with_reducible apply State.execFault_keeps
    | with_reducible apply State.migrationFail_keeps
    | split

theorem State.dropRead_keeps {s0 : State} {s : State} (r : HostRead) (h : Keeps s0 s) : Keeps s0 (State.dropRead s r) := by
  unfold State.dropRead
  repeat' first
    | with_reducible assumption
    | extract_lets +onlyGivenNames x
    | (simp only [keeps_mk]; refine core_of ?_)

theorem State.flushed_keeps {s0 : State} {s : State} (window : Nat) (after : Nat) (h : Keeps s0 s) : Keeps s0 (State.flushed s window after) := by
  unfold State.flushed
  repeat' first
    | with_reducible assumption
    | extract_lets +onlyGivenNames x
    | (simp only [keeps_mk]; refine core_of ?_)

theorem execHostReadData_keeps {s0 : State} (dt : Nat) (n : Nat) (error : Bool) (data : Bytes) {s : State} (h : Keeps s0 s) : Outcome.all (Keeps s0) (execHostReadData dt n error data s) := by
  unfold execHostReadData
  repeat' first
    | with_reducible assumption
    | (extract_lets +onlyGivenNames x; apply keeps_cut (p := Keeps s0 x); (case' hp => (unfold x; clear x)); (case' k => (clear_value x; intro hx)))
    | extract_lets +onlyGivenNames x
    | (simp only [keeps_mk]; refine core_of ?_)
    | with_reducible apply outcome_next
    | with_reducible apply State.tick_keeps
    | with_reducible apply State.hostReadFault_keeps
    | with_reducible apply State.dropRead_keeps
    | with_reducible apply State.flushed_keeps
    | split

theorem execHostGoReceive_keeps {s0 : State} (dt : Nat) (number : Nat) (error : Bool) {s : State} (h : Keeps s0 s) : Outcome.all (Keeps s0) (execHostGoReceive dt number error s) := by
  unfold execHostGoReceive
  repeat' first
    | with_reducible assumption
    | (extract_lets +onlyGivenNames x; apply keeps_cut (p := Keeps s0 x); (case' hp => (unfold x; clear x)); (case' k => (clear_value x; intro hx)))
    | extract_lets +onlyGivenNames x
    | (simp only [keeps_mk]; refine core_of ?_)
    | with_reducible apply outcome_next
    | with_reducible apply State.tick_keeps
    | with_reducible apply State.execFault_keeps
    | split

theorem execHostSnoop_keeps {s0 : State} (dt : Nat) (address : Nat) {s : State} (h : Keeps s0 s) : Outcome.all (Keeps s0) (execHostSnoop dt address s) := by
  unfold execHostSnoop
  repeat' first
    | with_reducible assumption
    | (extract_lets +onlyGivenNames x; apply keeps_cut (p := Keeps s0 x); (case' hp => (unfold x; clear x)); (case' k => (clear_value x; intro hx)))
    | extract_lets +onlyGivenNames x
    | with_reducible apply outcome_next
    | with_reducible apply State.tick_keeps
    | with_reducible apply State.emit_keeps
    | split

theorem State.flushWindows_keeps {s0 : State} {s : State} (c : Cmd) (h : Keeps s0 s) : Keeps s0 (State.flushWindows s c) := by
  unfold State.flushWindows
  repeat' first
    | with_reducible assumption
    | extract_lets +onlyGivenNames x
    | (simp only [keeps_mk]; refine core_of ?_)
    | with_reducible apply State.emit_keeps
    | with_reducible apply State.bump_keeps
    | (with_reducible apply keeps_foldl; intro _ _ _)

theorem execHostFence_keeps {s0 : State} (dt : Nat) (id : Nat) {s : State} (h : Keeps s0 s) : Outcome.all (Keeps s0) (execHostFence dt id s) := by
  unfold execHostFence
  repeat' first
    | with_reducible assumption
    | (extract_lets +onlyGivenNames x; apply keeps_cut (p := Keeps s0 x); (case' hp => (unfold x; clear x)); (case' k => (clear_value x; intro hx)))
    | extract_lets +onlyGivenNames x
    | with_reducible apply outcome_next
    | with_reducible apply State.tick_keeps
    | with_reducible apply State.complete_keeps
    | with_reducible apply State.setCmd_keeps
    | with_reducible apply State.flushWindows_keeps
    | split

theorem State.writeQueueBlock_keeps {s0 : State} {s : State} (o : Nat) (value : Nat) (h : Keeps s0 s) : Keeps s0 (State.writeQueueBlock s o value) := by
  unfold State.writeQueueBlock
  repeat' first
    | with_reducible assumption
    | extract_lets +onlyGivenNames x
    | with_reducible apply State.setQueue_keeps
    | with_reducible apply State.enableQueue_keeps
    | with_reducible apply State.clearEnable_keeps
    | split

theorem State.writeTranslationBlock_keeps {s0 : State} {s : State} (o : Nat) (value : Nat) (h : Keeps s0 s) : Keeps s0 (State.writeTranslationBlock s o value) := by
  unfold State.writeTranslationBlock
  repeat' first
    | with_reducible assumption
    | extract_lets +onlyGivenNames x
    | (simp only [keeps_mk]; refine core_of ?_)
    | with_reducible apply State.writeInval_keeps
    | with_reducible apply State.writeMigCtl_keeps
    | with_reducible apply State.resume_keeps
    | split

theorem State.writeHostBlock_keeps {s0 : State} {s : State} (o : Nat) (value : Nat) (h : Keeps s0 s) : Keeps s0 (State.writeHostBlock s o value) := by
  unfold State.writeHostBlock
  repeat' first
    | with_reducible assumption
    | (extract_lets +onlyGivenNames x; apply keeps_cut (p := Keeps s0 x); (case' hp => (unfold x; clear x)); (case' k => (clear_value x; intro hx)))
    | extract_lets +onlyGivenNames x
    | (simp only [keeps_mk]; refine core_of ?_)
    | with_reducible apply State.clearLog_keeps
    | with_reducible apply State.writeAttach_keeps
    | split

theorem execRegisterWrite_keeps {s0 : State} (dt : Nat) (offset : Nat) (value : Nat) (width : Nat) {s : State} (h : Keeps s0 s) : Outcome.all (Keeps s0) (execRegisterWrite dt offset value width s) := by
  unfold execRegisterWrite
  repeat' first
    | with_reducible assumption
    | (extract_lets +onlyGivenNames x; apply keeps_cut (p := Keeps s0 x); (case' hp => (unfold x; clear x)); (case' k => (clear_value x; intro hx)))
    | with_reducible apply outcome_ite
    | with_reducible apply outcome_next
    | with_reducible apply outcome_fault
    | with_reducible apply outcome_refused
    | with_reducible apply State.tick_keeps
    | with_reducible apply State.writeQueueBlock_keeps
    | with_reducible apply State.writeTranslationBlock_keeps
    | with_reducible apply State.writeHostBlock_keeps
    | with_reducible apply State.setMsixByte_keeps
    | with_reducible apply State.signal_keeps
    | with_reducible apply State.doorbell_keeps
    | with_reducible apply State.bump_keeps
    | (with_reducible apply keeps_foldl; intro _ _ _)
    | split

end Sys2Proof.Machine
end

