-- ==== Sys2Proof/Laws/KeepsIntegrity.lean ====
section
/-! SUPPORT. Every operation of Machine/Integrity.lean keeps (`Keeps`). -/
set_option linter.tactic.unusedName false
set_option linter.unusedVariables false
set_option linter.unusedSimpArgs false
namespace Sys2Proof.Machine

theorem State.loseRecord_keeps {s0 : State} {s : State} (r : Report) (h : Keeps s0 s) : Keeps s0 (State.loseRecord s r) := by
  unfold State.loseRecord
  repeat' first
    | with_reducible assumption
    | (extract_lets +onlyGivenNames x; apply keeps_cut (p := Keeps s0 x); (case' hp => (unfold x; clear x)); (case' k => (clear_value x; intro hx)))
    | extract_lets +onlyGivenNames x
    | (simp only [keeps_mk]; refine core_of ?_)
    | with_reducible apply State.setNum_keeps
    | with_reducible apply State.bump_keeps
    | with_reducible apply State.firmwareLog_keeps
    | with_reducible apply State.xlatFault_keeps
    | split

theorem State.recordWritten_keeps {s0 : State} {s : State} (r : Report) (n : Nat) (b : Bytes) (h : Keeps s0 s) : Keeps s0 (State.recordWritten s r n b) := by
  unfold State.recordWritten
  repeat' first
    | with_reducible assumption
    | (extract_lets +onlyGivenNames x; apply keeps_cut (p := Keeps s0 x); (case' hp => (unfold x; clear x)); (case' k => (clear_value x; intro hx)))
    | extract_lets +onlyGivenNames x
    | (simp only [keeps_mk]; refine core_of ?_)
    | with_reducible apply State.bump_keeps
    | with_reducible apply State.setNum_keeps
    | with_reducible apply State.firmwareLog_keeps
    | with_reducible apply State.raise_keeps
    | split

theorem execRecorderStart_keeps {s0 : State} (dt : Nat) {s : State} (h : Keeps s0 s) : Outcome.all (Keeps s0) (execRecorderStart dt s) := by
  unfold execRecorderStart
  repeat' first
    | with_reducible assumption
    | (extract_lets +onlyGivenNames x; apply keeps_cut (p := Keeps s0 x); (case' hp => (unfold x; clear x)); (case' k => (clear_value x; intro hx)))
    | extract_lets +onlyGivenNames x
    | (simp only [keeps_mk]; refine core_of ?_)
    | with_reducible apply outcome_next
    | with_reducible apply State.tick_keeps
    | with_reducible apply State.firmwareLog_keeps
    | with_reducible apply State.loseRecord_keeps
    | with_reducible apply State.write_keeps
    | with_reducible apply State.recordWritten_keeps
    | (with_reducible refine keeps_of_pair (by assumption) ?_)
    | split

theorem State.setGroup_keeps {s0 : State} {s : State} (g : Nat) (v : DigestGroup) (h : Keeps s0 s) : Keeps s0 (State.setGroup s g v) := by
  unfold State.setGroup
  repeat' first
    | with_reducible assumption
    | extract_lets +onlyGivenNames x
    | (simp only [keeps_mk]; refine core_of ?_)

theorem State.regionSum_keeps {s0 : State} {s : State} (region : Nat) (base : Nat) (length : Nat) (h : Keeps s0 s) : Keeps s0 (State.regionSum s region base length).2 := by
  unfold State.regionSum
  repeat' first
    | with_reducible assumption
    | extract_lets +onlyGivenNames x
    | with_reducible apply State.read_keeps
    | with_reducible apply State.drawBytes_keeps
    | with_reducible apply State.report_keeps
    | (with_reducible refine keeps_of_pair (by assumption) ?_)
    | (with_reducible apply keeps_foldl_snd; intro _ _ _)
    | split

theorem State.sendDigests_keeps {s0 : State} {s : State} (g : Nat) (m : Nat) (d : Bytes) (h : Keeps s0 s) : Keeps s0 (State.sendDigests s g m d) := by
  unfold State.sendDigests
  repeat' first
    | with_reducible assumption
    | intro _
    | (extract_lets +onlyGivenNames x; apply keeps_cut (p := Keeps s0 x); (case' hp => (unfold x; clear x)); (case' k => (clear_value x; intro hx)))
    | (extract_lets +onlyGivenNames x; apply keeps_cut (p := Keeps s0 x.2); (case' hp => (unfold x; clear x)); (case' k => (clear_value x; intro hx)))
    | extract_lets +onlyGivenNames x
    | (simp only [keeps_mk]; refine core_of ?_)
    | with_reducible apply State.digestRemote_keeps
    | with_reducible apply State.sendRemote_keeps
    | (with_reducible apply keeps_foldl; intro _ _ _)
    | (with_reducible apply keeps_foldl_snd; intro _ _ _)
    | (with_reducible refine keeps_of_pair (by assumption) ?_)
    | (with_reducible refine keeps_of_some_snd (by assumption) ?_)
    | (with_reducible refine keeps_of_some_fst (by assumption) ?_)
    | split
    | (clear_value *; split)

theorem State.digestReport_keeps {s0 : State} {s : State} (code : Nat) (detail : Nat) (h : Keeps s0 s) : Keeps s0 (State.digestReport s code detail) := by
  unfold State.digestReport
  repeat' first
    | with_reducible assumption
    | extract_lets +onlyGivenNames x
    | with_reducible apply State.report_keeps

theorem State.compareDigests_keeps {s0 : State} {s : State} (g : Nat) (m : Nat) (own : Bytes) (h : Keeps s0 s) : Keeps s0 (State.compareDigests s g m own) := by
  unfold State.compareDigests
  repeat' first
    | with_reducible assumption
    | (extract_lets +onlyGivenNames x; apply keeps_cut (p := Keeps s0 x); (case' hp => (unfold x; clear x)); (case' k => (clear_value x; intro hx)))
    | extract_lets +onlyGivenNames x
    | with_reducible apply State.digestReport_keeps
    | with_reducible apply State.setNum_keeps
    | with_reducible apply State.setGroup_keeps
    | (with_reducible apply keeps_foldl; intro _ _ _)
    | split

theorem State.compareDue_keeps {s0 : State} {s : State} (g : Nat) (late : Bool) (h : Keeps s0 s) : Keeps s0 (State.compareDue s g late) := by
  unfold State.compareDue
  repeat' first
    | with_reducible assumption
    | extract_lets +onlyGivenNames x
    | with_reducible apply State.compareDigests_keeps
    | split

theorem execDigestRegionRead_keeps {s0 : State} (dt : Nat) (g : Nat) {s : State} (h : Keeps s0 s) : Outcome.all (Keeps s0) (execDigestRegionRead dt g s) := by
  unfold execDigestRegionRead
  repeat' first
    | with_reducible assumption
    | (extract_lets +onlyGivenNames x; apply keeps_cut (p := Keeps s0 x); (case' hp => (unfold x; clear x)); (case' k => (clear_value x; intro hx)))
    | extract_lets +onlyGivenNames x
    | with_reducible apply outcome_next
    | with_reducible apply State.tick_keeps
    | with_reducible apply State.regionSum_keeps
    | with_reducible apply State.setBlob_keeps
    | with_reducible apply State.signal_keeps
    | with_reducible apply State.setGroup_keeps
    | with_reducible apply State.compareDue_keeps
    | with_reducible apply State.sendDigests_keeps
    | (with_reducible apply keeps_foldl_snd; intro _ _ _)
    | split

theorem execDigestMessageReceive_keeps {s0 : State} (dt : Nat) (g : Nat) (index : Nat) {s : State} (h : Keeps s0 s) : Outcome.all (Keeps s0) (execDigestMessageReceive dt g index s) := by
  unfold execDigestMessageReceive
  repeat' first
    | with_reducible assumption
    | (extract_lets +onlyGivenNames x; apply keeps_cut (p := Keeps s0 x); (case' hp => (unfold x; clear x)); (case' k => (clear_value x; intro hx)))
    | extract_lets +onlyGivenNames x
    | with_reducible apply outcome_next
    | with_reducible apply State.tick_keeps
    | with_reducible apply State.read_keeps
    | with_reducible apply State.outsideError_keeps
    | with_reducible apply State.compareDue_keeps
    | with_reducible apply State.setGroup_keeps
    | (with_reducible refine keeps_of_pair (by assumption) ?_)
    | split

theorem execDigestTimeout_keeps {s0 : State} (dt : Nat) (g : Nat) {s : State} (h : Keeps s0 s) : Outcome.all (Keeps s0) (execDigestTimeout dt g s) := by
  unfold execDigestTimeout
  repeat' first
    | with_reducible assumption
    | (extract_lets +onlyGivenNames x; apply keeps_cut (p := Keeps s0 x); (case' hp => (unfold x; clear x)); (case' k => (clear_value x; intro hx)))
    | extract_lets +onlyGivenNames x
    | with_reducible apply outcome_next
    | with_reducible apply State.tick_keeps
    | with_reducible apply State.compareDue_keeps
    | split

theorem State.setPair_keeps {s0 : State} {s : State} (p : Nat) (v : VerifyPair) (h : Keeps s0 s) : Keeps s0 (State.setPair s p v) := by
  unfold State.setPair
  repeat' first
    | with_reducible assumption
    | extract_lets +onlyGivenNames x
    | (simp only [keeps_mk]; refine core_of ?_)

theorem State.verifyPages_keeps {s0 : State} {s : State} (j : Nat) (x2 : List (Nat × Nat)) (h : Keeps s0 s) : Keeps s0 (State.verifyPages s j x2).2 := by
  induction x2 generalizing s with
  | nil => exact h
  | cons a rest ih =>
    obtain ⟨a0, a1⟩ := a
    unfold State.verifyPages
    repeat' first
      | with_reducible assumption
      | extract_lets +onlyGivenNames x
      | (with_reducible refine keeps_of_fun (by assumption) ?_)
      | with_reducible apply State.walk_keeps
      | with_reducible apply State.bump_keeps
      | with_reducible apply State.read_keeps
      | with_reducible apply State.outsideError_keeps
      | (with_reducible refine keeps_of_pair (by assumption) ?_)
      | split

theorem State.verifyValue_keeps {s0 : State} {s : State} (p : Nat) (seq : Nat) (h : Keeps s0 s) : Keeps s0 (State.verifyValue s p seq).2 := by
  unfold State.verifyValue
  repeat' first
    | with_reducible assumption
    | extract_lets +onlyGivenNames x
    | with_reducible apply State.verifyPages_keeps
    | (with_reducible refine keeps_of_pair (by assumption) ?_)
    | split

theorem State.stopPair_keeps {s0 : State} {s : State} (p : Nat) (code : Nat) (detail : Nat) (d : SideDigest) (h : Keeps s0 s) : Keeps s0 (State.stopPair s p code detail d) := by
  unfold State.stopPair
  repeat' first
    | with_reducible assumption
    | (extract_lets +onlyGivenNames x; apply keeps_cut (p := Keeps s0 x); (case' hp => (unfold x; clear x)); (case' k => (clear_value x; intro hx)))
    | extract_lets +onlyGivenNames x
    | with_reducible apply State.setPair_keeps
    | with_reducible apply State.setNum_keeps
    | with_reducible apply State.report_keeps

theorem State.comparePair_keeps {s0 : State} (p : Nat) (x1 : Nat) {x2 : State} (h : Keeps s0 x2) : Keeps s0 (State.comparePair p x1 x2) := by
  induction x1 generalizing x2 with
  | zero => exact h
  | succ fuel ih =>
    unfold State.comparePair
    repeat' first
      | with_reducible assumption
      | (extract_lets +onlyGivenNames x; apply keeps_cut (p := Keeps s0 x); (case' hp => (unfold x; clear x)); (case' k => (clear_value x; intro hx)))
      | extract_lets +onlyGivenNames x
      | (with_reducible refine keeps_of_fun (by assumption) ?_)
      | with_reducible apply State.stopPair_keeps
      | with_reducible apply State.signal_keeps
      | with_reducible apply State.setPair_keeps
      | with_reducible apply State.setNum_keeps
      | split

theorem State.givePeer_keeps {s0 : State} {s : State} (p : Nat) (d : SideDigest) (h : Keeps s0 s) : Keeps s0 (State.givePeer s p d) := by
  unfold State.givePeer
  repeat' first
    | with_reducible assumption
    | (extract_lets +onlyGivenNames x; apply keeps_cut (p := Keeps s0 x); (case' hp => (unfold x; clear x)); (case' k => (clear_value x; intro hx)))
    | extract_lets +onlyGivenNames x
    | with_reducible apply State.setPair_keeps
    | with_reducible apply State.comparePair_keeps
    | split

theorem execVerifyDigest_keeps {s0 : State} (dt : Nat) (p : Nat) {s : State} (h : Keeps s0 s) : Outcome.all (Keeps s0) (execVerifyDigest dt p s) := by
  unfold execVerifyDigest
  repeat' first
    | with_reducible assumption
    | intro _
    | (extract_lets +onlyGivenNames x; apply keeps_cut (p := Keeps s0 x); (case' hp => (unfold x; clear x)); (case' k => (clear_value x; intro hx)))
    | (extract_lets +onlyGivenNames x; apply keeps_cut (p := Keeps s0 x.2); (case' hp => (unfold x; clear x)); (case' k => (clear_value x; intro hx)))
    | extract_lets +onlyGivenNames x
    | (simp only [keeps_mk]; refine core_of ?_)
    | with_reducible apply outcome_next
    | with_reducible apply State.digestRemote_keeps
    | with_reducible apply State.tick_keeps
    | with_reducible apply State.givePeer_keeps
    | with_reducible apply State.comparePair_keeps
    | with_reducible apply State.verifyValue_keeps
    | with_reducible apply State.setPair_keeps
    | with_reducible apply State.sendRemote_keeps
    | (with_reducible refine keeps_of_pair (by assumption) ?_)
    | (with_reducible refine keeps_of_some_snd (by assumption) ?_)
    | (with_reducible refine keeps_of_some_fst (by assumption) ?_)
    | with_reducible apply someAll_none
    | with_reducible apply someAll_some
    | split
    | (clear_value *; split)

theorem execVerifyValueReceive_keeps {s0 : State} (dt : Nat) (p : Nat) (seq : Nat) {s : State} (h : Keeps s0 s) : Outcome.all (Keeps s0) (execVerifyValueReceive dt p seq s) := by
  unfold execVerifyValueReceive
  repeat' first
    | with_reducible assumption
    | (extract_lets +onlyGivenNames x; apply keeps_cut (p := Keeps s0 x); (case' hp => (unfold x; clear x)); (case' k => (clear_value x; intro hx)))
    | extract_lets +onlyGivenNames x
    | with_reducible apply outcome_next
    | with_reducible apply State.tick_keeps
    | with_reducible apply State.read_keeps
    | with_reducible apply State.outsideError_keeps
    | with_reducible apply State.givePeer_keeps
    | (with_reducible refine keeps_of_pair (by assumption) ?_)
    | split

theorem execVerifyTimeout_keeps {s0 : State} (dt : Nat) (p : Nat) {s : State} (h : Keeps s0 s) : Outcome.all (Keeps s0) (execVerifyTimeout dt p s) := by
  unfold execVerifyTimeout
  repeat' first
    | with_reducible assumption
    | (extract_lets +onlyGivenNames x; apply keeps_cut (p := Keeps s0 x); (case' hp => (unfold x; clear x)); (case' k => (clear_value x; intro hx)))
    | extract_lets +onlyGivenNames x
    | with_reducible apply outcome_next
    | with_reducible apply State.tick_keeps
    | with_reducible apply State.stopPair_keeps
    | split

theorem State.declare_keeps {s0 : State} {s : State} (code : Nat) (h : Keeps s0 s) : Keeps s0 (State.declare s code) := by
  unfold State.declare
  repeat' first
    | with_reducible assumption
    | extract_lets +onlyGivenNames x
    | (simp only [keeps_mk]; refine core_of ?_)
    | with_reducible apply State.setPaused_keeps
    | split

theorem State.declareWindow_keeps {s0 : State} {s : State} (arg : Nat) (h : Keeps s0 s) : Keeps s0 (State.declareWindow s arg).2 := by
  unfold State.declareWindow
  repeat' first
    | with_reducible assumption
    | extract_lets +onlyGivenNames x
    | with_reducible apply State.setNum_keeps
    | with_reducible apply State.declare_keeps
    | (with_reducible apply keeps_foldl; intro _ _ _)
    | split

theorem execTestDeferralExpire_keeps {s0 : State} (dt : Nat) (code : Nat) {s : State} (h : Keeps s0 s) : Outcome.all (Keeps s0) (execTestDeferralExpire dt code s) := by
  unfold execTestDeferralExpire
  repeat' first
    | with_reducible assumption
    | (extract_lets +onlyGivenNames x; apply keeps_cut (p := Keeps s0 x); (case' hp => (unfold x; clear x)); (case' k => (clear_value x; intro hx)))
    | extract_lets +onlyGivenNames x
    | with_reducible apply outcome_next
    | with_reducible apply State.tick_keeps
    | with_reducible apply State.bump_keeps
    | with_reducible apply State.declare_keeps
    | split

theorem execIftStart_keeps {s0 : State} (dt : Nat) (code : Nat) {s : State} (h : Keeps s0 s) : Outcome.all (Keeps s0) (execIftStart dt code s) := by
  unfold execIftStart
  repeat' first
    | with_reducible assumption
    | (extract_lets +onlyGivenNames x; apply keeps_cut (p := Keeps s0 x); (case' hp => (unfold x; clear x)); (case' k => (clear_value x; intro hx)))
    | extract_lets +onlyGivenNames x
    | (simp only [keeps_mk]; refine core_of ?_)
    | with_reducible apply outcome_next
    | with_reducible apply State.tick_keeps
    | split

theorem State.endTest_keeps {s0 : State} {s : State} (code : Nat) (h : Keeps s0 s) : Keeps s0 (State.endTest s code) := by
  unfold State.endTest
  repeat' first
    | with_reducible assumption
    | extract_lets +onlyGivenNames x
    | (simp only [keeps_mk]; refine core_of ?_)
    | with_reducible apply State.setPaused_keeps

theorem State.nextMargin_keeps {s0 : State} {s : State} (code : Nat) (h : Keeps s0 s) : someAll (Keeps s0) (State.nextMargin s code) := by
  unfold State.nextMargin
  repeat' first
    | with_reducible assumption
    | (extract_lets +onlyGivenNames x; apply keeps_cut (p := Keeps s0 x); (case' hp => (unfold x; clear x)); (case' k => (clear_value x; intro hx)))
    | extract_lets +onlyGivenNames x
    | with_reducible apply someAll_some
    | with_reducible apply someAll_none
    | with_reducible apply State.durable_keeps
    | with_reducible apply State.setNum_keeps
    | with_reducible apply State.requestClock_keeps
    | split

theorem State.search_keeps {s0 : State} (code : Nat) (x1 : Nat) (x2 : List Bool) {x3 : State} (h : Keeps s0 x3) : Keeps s0 (State.search code x1 x2 x3).2.2 := by
  induction x1 generalizing x3 x2 with
  | zero => exact h
  | succ fuel ih =>
    unfold State.search
    repeat' first
      | with_reducible assumption
      | (extract_lets +onlyGivenNames x; apply keeps_cut (p := Keeps s0 x); (case' hp => (unfold x; clear x)); (case' k => (clear_value x; intro hx)))
      | extract_lets +onlyGivenNames x
      | with_reducible apply State.bump_keeps
      | with_reducible apply State.nextMargin_keeps
      | with_reducible apply ih
      | (with_reducible refine keeps_of_some (by assumption) ?_)
      | split

theorem State.testPassed_keeps {s0 : State} {s : State} (code : Nat) (h : Keeps s0 s) : Keeps s0 (State.testPassed s code) := by
  unfold State.testPassed
  repeat' first
    | with_reducible assumption
    | extract_lets +onlyGivenNames x
    | with_reducible apply State.endTest_keeps
    | with_reducible apply State.setNum_keeps

theorem State.searchDone_keeps {s0 : State} {s : State} (code : Nat) (runs : List Bool) (h : Keeps s0 s) : Keeps s0 (State.searchDone s code runs) := by
  unfold State.searchDone
  repeat' first
    | with_reducible assumption
    | (extract_lets +onlyGivenNames x; apply keeps_cut (p := Keeps s0 x); (case' hp => (unfold x; clear x)); (case' k => (clear_value x; intro hx)))
    | extract_lets +onlyGivenNames x
    | with_reducible apply State.search_keeps
    | with_reducible apply State.bump_keeps
    | with_reducible apply State.testPassed_keeps
    | with_reducible apply State.report_keeps
    | with_reducible apply State.endTest_keeps
    | with_reducible apply State.exhausted_keeps
    | (with_reducible refine keeps_of_triple (by assumption) ?_)
    | split

theorem execIftComplete_keeps {s0 : State} (dt : Nat) (code : Nat) (runs : List Bool) {s : State} (h : Keeps s0 s) : Outcome.all (Keeps s0) (execIftComplete dt code runs s) := by
  unfold execIftComplete
  repeat' first
    | with_reducible assumption
    | (extract_lets +onlyGivenNames x; apply keeps_cut (p := Keeps s0 x); (case' hp => (unfold x; clear x)); (case' k => (clear_value x; intro hx)))
    | extract_lets +onlyGivenNames x
    | with_reducible apply outcome_next
    | with_reducible apply State.tick_keeps
    | with_reducible apply State.searchDone_keeps
    | with_reducible apply State.testPassed_keeps
    | with_reducible apply State.bump_keeps
    | with_reducible apply State.endTest_keeps
    | with_reducible apply State.makeSuspect_keeps
    | with_reducible apply State.report_keeps
    | split

theorem State.clearSuspicion_keeps {s0 : State} {s : State} (arg : Nat) (h : Keeps s0 s) : Keeps s0 (State.clearSuspicion s arg).2 := by
  unfold State.clearSuspicion
  repeat' first
    | with_reducible assumption
    | (extract_lets +onlyGivenNames x; apply keeps_cut (p := Keeps s0 x); (case' hp => (unfold x; clear x)); (case' k => (clear_value x; intro hx)))
    | extract_lets +onlyGivenNames x
    | with_reducible apply State.durable_keeps
    | with_reducible apply State.clearNums_keeps
    | with_reducible apply State.requestClock_keeps
    | with_reducible apply State.setNum_keeps
    | (with_reducible apply keeps_foldl; intro _ _ _)
    | split

end Sys2Proof.Machine
end

