-- ==== Sys2Proof/Laws/KeepsStartup.lean ====
section
/-! SUPPORT. Every operation of Machine/Startup.lean keeps (`Keeps`). -/
set_option linter.tactic.unusedName false
set_option linter.unusedVariables false
set_option linter.unusedSimpArgs false
namespace Sys2Proof.Machine

theorem State.coldStart_keeps {s0 : State} {s : State} (h : Keeps s0 s) : Keeps s0 (State.coldStart s) :=
  ⟨h.pending, h.out, h.free, h.draws, h.security, fun _ => rfl⟩

theorem State.beginStartup_keeps {s0 : State} {s : State} (cause : Nat) (h : Keeps s0 s) : Keeps s0 (State.beginStartup s cause) := by
  unfold State.beginStartup
  repeat' first
    | with_reducible assumption
    | (extract_lets +onlyGivenNames x; apply keeps_cut (p := Keeps s0 x); (case' hp => (unfold x; clear x)); (case' k => (clear_value x; intro hx)))
    | extract_lets +onlyGivenNames x
    | (simp only [keeps_mk]; refine core_of ?_)
    | with_reducible apply State.coldStart_keeps
    | with_reducible apply State.setNum_keeps

theorem execSuppliesValid_keeps {s0 : State} (dt : Nat) {s : State} (h : Keeps s0 s) : Outcome.all (Keeps s0) (execSuppliesValid dt s) := by
  unfold execSuppliesValid
  repeat' first
    | with_reducible assumption
    | (extract_lets +onlyGivenNames x; apply keeps_cut (p := Keeps s0 x); (case' hp => (unfold x; clear x)); (case' k => (clear_value x; intro hx)))
    | extract_lets +onlyGivenNames x
    | with_reducible apply outcome_next
    | with_reducible apply State.tick_keeps
    | with_reducible apply State.beginStartup_keeps
    | split

theorem State.logNow_keeps {s0 : State} {s : State} (u : UnitId) (code : Nat) (effect : Nat) (detail : Nat) (h : Keeps s0 s) : Keeps s0 (State.logNow s u code effect detail) := by
  unfold State.logNow
  repeat' first
    | with_reducible assumption
    | extract_lets +onlyGivenNames x
    | with_reducible apply State.firmwareLog_keeps

theorem State.countFallback_keeps {s0 : State} {s : State} (h : Keeps s0 s) : Keeps s0 (State.countFallback s) := by
  unfold State.countFallback
  repeat' first
    | with_reducible assumption
    | extract_lets +onlyGivenNames x
    | with_reducible apply State.durable_keeps
    | with_reducible apply State.bump_keeps

theorem State.endTrial_keeps {s0 : State} {s : State} (h : Keeps s0 s) : Keeps s0 (State.endTrial s) := by
  unfold State.endTrial
  repeat' first
    | with_reducible assumption
    | intro _
    | (extract_lets +onlyGivenNames x; apply keeps_cut (p := Keeps s0 x); (case' hp => (unfold x; clear x)); (case' k => (clear_value x; intro hx)))
    | (extract_lets +onlyGivenNames x; apply keeps_cut (p := Keeps s0 x.2); (case' hp => (unfold x; clear x)); (case' k => (clear_value x; intro hx)))
    | extract_lets +onlyGivenNames x
    | (simp only [keeps_mk]; refine core_of ?_)
    | with_reducible apply State.writeBoot_keeps
    | with_reducible apply State.setFlag_keeps
    | with_reducible apply State.countFallback_keeps
    | with_reducible apply State.setNum_keeps
    | with_reducible apply State.logNow_keeps
    | with_reducible apply State.regulatorsOff_keeps
    | split
    | (clear_value *; split)

theorem State.stopStartup_keeps {s0 : State} {s : State} (u : UnitId) (code : Nat) (h : Keeps s0 s) : Keeps s0 (State.stopStartup s u code) := by
  unfold State.stopStartup
  repeat' first
    | with_reducible assumption
    | (extract_lets +onlyGivenNames x; apply keeps_cut (p := Keeps s0 x); (case' hp => (unfold x; clear x)); (case' k => (clear_value x; intro hx)))
    | extract_lets +onlyGivenNames x
    | with_reducible apply State.regulatorsOff_keeps
    | with_reducible apply State.assertFault_keeps
    | with_reducible apply State.logNow_keeps
    | with_reducible apply State.setNum_keeps
    | with_reducible apply State.endTrial_keeps
    | split

theorem execTrialTimeout_keeps {s0 : State} (dt : Nat) {s : State} (h : Keeps s0 s) : Outcome.all (Keeps s0) (execTrialTimeout dt s) := by
  unfold execTrialTimeout
  repeat' first
    | with_reducible assumption
    | (extract_lets +onlyGivenNames x; apply keeps_cut (p := Keeps s0 x); (case' hp => (unfold x; clear x)); (case' k => (clear_value x; intro hx)))
    | extract_lets +onlyGivenNames x
    | with_reducible apply outcome_next
    | with_reducible apply State.tick_keeps
    | with_reducible apply State.endTrial_keeps
    | split

theorem State.toStage_keeps {s0 : State} {s : State} (t : Stage) (h : Keeps s0 s) : Keeps s0 (State.toStage s t) := by
  unfold State.toStage
  repeat' first
    | with_reducible assumption
    | extract_lets +onlyGivenNames x
    | (simp only [keeps_mk]; refine core_of ?_)

theorem State.loadBoot_keeps {s0 : State} {s : State} (o : StageOutcome) (h : Keeps s0 s) : Keeps s0 (State.loadBoot s o) := by
  unfold State.loadBoot
  repeat' first
    | with_reducible assumption
    | intro _
    | (extract_lets +onlyGivenNames x; apply keeps_cut (p := Keeps s0 x); (case' hp => (unfold x; clear x)); (case' k => (clear_value x; intro hx)))
    | (extract_lets +onlyGivenNames x; apply keeps_cut (p := Keeps s0 x.2); (case' hp => (unfold x; clear x)); (case' k => (clear_value x; intro hx)))
    | extract_lets +onlyGivenNames x
    | (simp only [keeps_mk]; refine core_of ?_)
    | split
    | (clear_value *; split)

theorem State.stageFuses_keeps {s0 : State} {s : State} (o : StageOutcome) (h : Keeps s0 s) : Keeps s0 (State.stageFuses s o) := by
  unfold State.stageFuses
  repeat' first
    | with_reducible assumption
    | intro _
    | (extract_lets +onlyGivenNames x; apply keeps_cut (p := Keeps s0 x); (case' hp => (unfold x; clear x)); (case' k => (clear_value x; intro hx)))
    | (extract_lets +onlyGivenNames x; apply keeps_cut (p := Keeps s0 x.2); (case' hp => (unfold x; clear x)); (case' k => (clear_value x; intro hx)))
    | extract_lets +onlyGivenNames x
    | (simp only [keeps_mk]; refine core_of ?_)
    | with_reducible apply State.read_keeps
    | with_reducible apply RowsRun.read_keeps
    | with_reducible apply State.loadBoot_keeps
    | with_reducible apply State.toStage_keeps
    | with_reducible apply State.setNum_keeps
    | with_reducible apply State.logNow_keeps
    | split
    | (clear_value *; split)

theorem State.stageUcie_keeps {s0 : State} {s : State} (o : StageOutcome) (h : Keeps s0 s) : Keeps s0 (State.stageUcie s o) := by
  unfold State.stageUcie
  repeat' first
    | with_reducible assumption
    | (extract_lets +onlyGivenNames x; apply keeps_cut (p := Keeps s0 x); (case' hp => (unfold x; clear x)); (case' k => (clear_value x; intro hx)))
    | extract_lets +onlyGivenNames x
    | with_reducible apply State.toStage_keeps
    | with_reducible apply State.setNum_keeps
    | with_reducible apply State.stopStartup_keeps
    | (with_reducible apply keeps_foldl; intro _ _ _)
    | split

theorem State.bootSlot_keeps {s0 : State} {s : State} (b : Nat) (h : Keeps s0 s) : Keeps s0 (State.bootSlot s b) := by
  unfold State.bootSlot
  repeat' first
    | with_reducible assumption
    | (extract_lets +onlyGivenNames x; apply keeps_cut (p := Keeps s0 x); (case' hp => (unfold x; clear x)); (case' k => (clear_value x; intro hx)))
    | extract_lets +onlyGivenNames x
    | (simp only [keeps_mk]; refine core_of ?_)
    | with_reducible apply State.toStage_keeps
    | with_reducible apply State.setNum_keeps

theorem State.stageSlot_keeps {s0 : State} {s : State} (h : Keeps s0 s) : Keeps s0 (State.stageSlot s) := by
  unfold State.stageSlot
  repeat' first
    | with_reducible assumption
    | extract_lets +onlyGivenNames x
    | with_reducible apply State.bootSlot_keeps
    | with_reducible apply State.toStage_keeps
    | with_reducible apply State.countFallback_keeps
    | with_reducible apply State.logNow_keeps
    | split

theorem State.stageOtherSlot_keeps {s0 : State} {s : State} (h : Keeps s0 s) : Keeps s0 (State.stageOtherSlot s) := by
  unfold State.stageOtherSlot
  repeat' first
    | with_reducible assumption
    | with_reducible apply State.bootSlot_keeps
    | with_reducible apply State.stopStartup_keeps
    | split

theorem State.admitStored_keeps {s0 : State} {s : State} (h : Keeps s0 s) : Keeps s0 (State.admitStored s) := by
  unfold State.admitStored
  repeat' first
    | with_reducible assumption
    | intro _
    | (extract_lets +onlyGivenNames x; apply keeps_cut (p := Keeps s0 x); (case' hp => (unfold x; clear x)); (case' k => (clear_value x; intro hx)))
    | (extract_lets +onlyGivenNames x; apply keeps_cut (p := Keeps s0 x.2); (case' hp => (unfold x; clear x)); (case' k => (clear_value x; intro hx)))
    | extract_lets +onlyGivenNames x
    | (simp only [keeps_mk]; refine core_of ?_)
    | (with_reducible refine keeps_of_pair (by assumption) ?_)
    | (with_reducible refine keeps_of_some_snd (by assumption) ?_)
    | (with_reducible refine keeps_of_some_fst (by assumption) ?_)
    | split
    | (clear_value *; split)

theorem State.loadStore_keeps {s0 : State} {s : State} (o : StageOutcome) (h : Keeps s0 s) : Keeps s0 (State.loadStore s o) := by
  unfold State.loadStore
  repeat' first
    | with_reducible assumption
    | intro _
    | (extract_lets +onlyGivenNames x; apply keeps_cut (p := Keeps s0 x); (case' hp => (unfold x; clear x)); (case' k => (clear_value x; intro hx)))
    | (extract_lets +onlyGivenNames x; apply keeps_cut (p := Keeps s0 x.2); (case' hp => (unfold x; clear x)); (case' k => (clear_value x; intro hx)))
    | (extract_lets +onlyGivenNames x; apply keeps_cut (p := ∀ t, Keeps s0 t → Keeps s0 (x t)); (case' hp => (unfold x; clear x)); (case' k => (clear_value x; intro hx)))
    | (extract_lets +onlyGivenNames x; apply keeps_cut (p := ∀ t a, Keeps s0 t → Keeps s0 (x t a)); (case' hp => (unfold x; clear x)); (case' k => (clear_value x; intro hx)))
    | (extract_lets +onlyGivenNames x; apply keeps_cut (p := ∀ t a b, Keeps s0 t → Keeps s0 (x t a b)); (case' hp => (unfold x; clear x)); (case' k => (clear_value x; intro hx)))
    | extract_lets +onlyGivenNames x
    | (with_reducible refine keeps_of_fun (by assumption) ?_)
    | (with_reducible refine keeps_of_fun2 (by assumption) ?_)
    | (with_reducible refine keeps_of_fun3 (by assumption) ?_)
    | (simp only [keeps_mk]; refine core_of ?_)
    | with_reducible apply State.admitStored_keeps
    | with_reducible apply State.setNum_keeps
    | with_reducible apply State.logNow_keeps
    | (with_reducible apply keeps_foldl; intro _ _ _)
    | (with_reducible apply keeps_foldl_snd; intro _ _ _)
    | split
    | (clear_value *; split)

theorem State.stageFirmware_keeps {s0 : State} {s : State} (o : StageOutcome) (h : Keeps s0 s) : Keeps s0 (State.stageFirmware s o) := by
  unfold State.stageFirmware
  repeat' first
    | with_reducible assumption
    | (extract_lets +onlyGivenNames x; apply keeps_cut (p := Keeps s0 x); (case' hp => (unfold x; clear x)); (case' k => (clear_value x; intro hx)))
    | extract_lets +onlyGivenNames x
    | (simp only [keeps_mk]; refine core_of ?_)
    | with_reducible apply State.loadStore_keeps
    | with_reducible apply State.setFlag_keeps
    | with_reducible apply State.setNum_keeps
    | with_reducible apply State.toStage_keeps
    | with_reducible apply State.assertFault_keeps
    | split

theorem State.checkerBad_keeps {s0 : State} {s : State} (u : UnitId) (h : Keeps s0 s) : Keeps s0 (State.checkerBad s u) := by
  unfold State.checkerBad
  repeat' first
    | with_reducible assumption
    | extract_lets +onlyGivenNames x
    | with_reducible apply State.fence__keeps
    | with_reducible apply State.report_keeps
    | split

theorem State.stageCheckers_keeps {s0 : State} {s : State} (o : StageOutcome) (h : Keeps s0 s) : Keeps s0 (State.stageCheckers s o) := by
  unfold State.stageCheckers
  repeat' first
    | with_reducible assumption
    | (extract_lets +onlyGivenNames x; apply keeps_cut (p := Keeps s0 x); (case' hp => (unfold x; clear x)); (case' k => (clear_value x; intro hx)))
    | extract_lets +onlyGivenNames x
    | with_reducible apply State.checkerBad_keeps
    | with_reducible apply State.stopStartup_keeps
    | with_reducible apply State.toStage_keeps
    | (with_reducible apply keeps_foldl; intro _ _ _)
    | split

theorem State.stageStacks_keeps {s0 : State} {s : State} (o : StageOutcome) (h : Keeps s0 s) : Keeps s0 (State.stageStacks s o) := by
  unfold State.stageStacks
  repeat' first
    | with_reducible assumption
    | with_reducible apply State.toStage_keeps
    | with_reducible apply State.stopStartup_keeps
    | split

theorem State.loadLists_keeps {s0 : State} {s : State} (o : StageOutcome) (h : Keeps s0 s) : Keeps s0 (State.loadLists s o) := by
  unfold State.loadLists
  repeat' first
    | with_reducible assumption
    | intro _
    | (extract_lets +onlyGivenNames x; apply keeps_cut (p := Keeps s0 x); (case' hp => (unfold x; clear x)); (case' k => (clear_value x; intro hx)))
    | (extract_lets +onlyGivenNames x; apply keeps_cut (p := Keeps s0 x.2); (case' hp => (unfold x; clear x)); (case' k => (clear_value x; intro hx)))
    | extract_lets +onlyGivenNames x
    | (simp only [keeps_mk]; refine core_of ?_)
    | with_reducible apply State.logNow_keeps
    | split
    | (clear_value *; split)

theorem State.stageRetirement_keeps {s0 : State} {s : State} (o : StageOutcome) (h : Keeps s0 s) : Keeps s0 (State.stageRetirement s o) := by
  unfold State.stageRetirement
  repeat' first
    | with_reducible assumption
    | intro _
    | with_reducible apply State.loadLists_keeps
    | with_reducible apply State.retirePending_keeps
    | with_reducible apply State.toStage_keeps
    | split
    | (clear_value *; split)

theorem State.stageEngines_keeps {s0 : State} {s : State} (h : Keeps s0 s) : Keeps s0 (State.stageEngines s) := by
  unfold State.stageEngines
  repeat' first
    | with_reducible assumption
    | (extract_lets +onlyGivenNames x; apply keeps_cut (p := Keeps s0 x); (case' hp => (unfold x; clear x)); (case' k => (clear_value x; intro hx)))
    | extract_lets +onlyGivenNames x
    | (simp only [keeps_mk]; refine core_of ?_)
    | with_reducible apply State.setNum_keeps
    | with_reducible apply State.toStage_keeps
    | with_reducible apply State.uncapLimit_keeps
    | (with_reducible apply keeps_foldl; intro _ _ _)
    | split

theorem execStartupStageComplete_keeps {s0 : State} (dt : Nat) (o : StageOutcome) {s : State} (h : Keeps s0 s) : Outcome.all (Keeps s0) (execStartupStageComplete dt o s) := by
  unfold execStartupStageComplete
  repeat' first
    | with_reducible assumption
    | (extract_lets +onlyGivenNames x; apply keeps_cut (p := Keeps s0 x); (case' hp => (unfold x; clear x)); (case' k => (clear_value x; intro hx)))
    | extract_lets +onlyGivenNames x
    | (simp only [keeps_mk]; refine core_of ?_)
    | with_reducible apply outcome_next
    | with_reducible apply State.tick_keeps
    | with_reducible apply State.stageFuses_keeps
    | with_reducible apply State.stageUcie_keeps
    | with_reducible apply State.toStage_keeps
    | with_reducible apply State.stageSlot_keeps
    | with_reducible apply State.stageOtherSlot_keeps
    | with_reducible apply State.stageFirmware_keeps
    | with_reducible apply State.stageCheckers_keeps
    | with_reducible apply State.stageStacks_keeps
    | with_reducible apply State.stageRetirement_keeps
    | with_reducible apply State.zeroMemory_keeps
    | with_reducible apply State.stageEngines_keeps
    | split

theorem execStartupUsable_keeps {s0 : State} (dt : Nat) {s : State} (h : Keeps s0 s) : Outcome.all (Keeps s0) (execStartupUsable dt s) := by
  unfold execStartupUsable
  repeat' first
    | with_reducible assumption
    | intro _
    | (extract_lets +onlyGivenNames x; apply keeps_cut (p := Keeps s0 x); (case' hp => (unfold x; clear x)); (case' k => (clear_value x; intro hx)))
    | (extract_lets +onlyGivenNames x; apply keeps_cut (p := Keeps s0 x.2); (case' hp => (unfold x; clear x)); (case' k => (clear_value x; intro hx)))
    | extract_lets +onlyGivenNames x
    | (simp only [keeps_mk]; refine core_of ?_)
    | with_reducible apply outcome_next
    | with_reducible apply State.tick_keeps
    | with_reducible apply State.writeBoot_keeps
    | with_reducible apply State.durable_keeps
    | with_reducible apply State.bump_keeps
    | with_reducible apply State.setFlag_keeps
    | with_reducible apply State.setNum_keeps
    | split
    | (clear_value *; split)

theorem State.restart_keeps {s0 : State} {s : State} (arg : Nat) (h : Keeps s0 s) : Keeps s0 (State.restart s arg).2 := by
  unfold State.restart
  repeat' first
    | with_reducible assumption
    | (extract_lets +onlyGivenNames x; apply keeps_cut (p := Keeps s0 x); (case' hp => (unfold x; clear x)); (case' k => (clear_value x; intro hx)))
    | extract_lets +onlyGivenNames x
    | (simp only [keeps_mk]; refine core_of ?_)
    | with_reducible apply State.regulatorsOff_keeps
    | with_reducible apply State.setNum_keeps
    | split

theorem execRegulatorsSwitchOn_keeps {s0 : State} (dt : Nat) {s : State} (h : Keeps s0 s) : Outcome.all (Keeps s0) (execRegulatorsSwitchOn dt s) := by
  unfold execRegulatorsSwitchOn
  repeat' first
    | with_reducible assumption
    | (extract_lets +onlyGivenNames x; apply keeps_cut (p := Keeps s0 x); (case' hp => (unfold x; clear x)); (case' k => (clear_value x; intro hx)))
    | extract_lets +onlyGivenNames x
    | with_reducible apply outcome_next
    | with_reducible apply State.tick_keeps
    | with_reducible apply State.beginStartup_keeps
    | split

theorem execSupplyLoss_keeps {s0 : State} (dt : Nat) (main : Bool) {s : State} (h : Keeps s0 s) : Outcome.all (Keeps s0) (execSupplyLoss dt main s) := by
  unfold execSupplyLoss
  repeat' first
    | with_reducible assumption
    | (extract_lets +onlyGivenNames x; apply keeps_cut (p := Keeps s0 x); (case' hp => (unfold x; clear x)); (case' k => (clear_value x; intro hx)))
    | extract_lets +onlyGivenNames x
    | (simp only [keeps_mk]; refine core_of ?_)
    | with_reducible apply outcome_next
    | with_reducible apply State.tick_keeps
    | with_reducible apply State.cutErase_keeps
    | with_reducible apply State.loseHost_keeps
    | with_reducible apply State.regulatorsOff_keeps
    | split

theorem execVmgtLoss_keeps {s0 : State} (dt : Nat) {s : State} (h : Keeps s0 s) : Outcome.all (Keeps s0) (execVmgtLoss dt s) := by
  unfold execVmgtLoss
  repeat' first
    | with_reducible assumption
    | (extract_lets +onlyGivenNames x; apply keeps_cut (p := Keeps s0 x); (case' hp => (unfold x; clear x)); (case' k => (clear_value x; intro hx)))
    | extract_lets +onlyGivenNames x
    | (simp only [keeps_mk]; refine core_of ?_)
    | with_reducible apply outcome_next
    | with_reducible apply State.coldStart_keeps
    | with_reducible apply State.cutErase_keeps
    | with_reducible apply State.tick_keeps

theorem execVmgtValid_keeps {s0 : State} (dt : Nat) {s : State} (h : Keeps s0 s) : Outcome.all (Keeps s0) (execVmgtValid dt s) := by
  unfold execVmgtValid
  repeat' first
    | with_reducible assumption
    | (extract_lets +onlyGivenNames x; apply keeps_cut (p := Keeps s0 x); (case' hp => (unfold x; clear x)); (case' k => (clear_value x; intro hx)))
    | extract_lets +onlyGivenNames x
    | (simp only [keeps_mk]; refine core_of ?_)
    | with_reducible apply outcome_next
    | with_reducible apply State.tick_keeps

end Sys2Proof.Machine
end

