-- ==== Sys2Proof/Laws/KeepsDict.lean ====
section
/-! SUPPORT. Every operation of Machine/Dict.lean keeps (`Keeps`). -/
set_option linter.tactic.unusedName false
set_option linter.unusedVariables false
set_option linter.unusedSimpArgs false
namespace Sys2Proof.Machine

theorem State.storeValue_keeps {s0 : State} {s : State} (r : ObjRow) (k : Nat) (v : Bytes) (h : Keeps s0 s) : Keeps s0 (State.storeValue s r k v) := by
  unfold State.storeValue
  repeat' first
    | with_reducible assumption
    | with_reducible apply State.setBlob_keeps
    | with_reducible apply State.setNum_keeps
    | split

theorem State.storeIf_keeps {s0 : State} {s : State} (ok : Bool) (r : ObjRow) (k : Nat) (v : Bytes) (h : Keeps s0 s) : Keeps s0 (State.storeIf s ok r k v).2 := by
  unfold State.storeIf
  repeat' first
    | with_reducible assumption
    | with_reducible apply State.storeValue_keeps
    | split

theorem State.enableGroup_keeps {s0 : State} {s : State} (g : Nat) (on : Bool) (h : Keeps s0 s) : Keeps s0 (State.enableGroup s g on) := by
  unfold State.enableGroup
  repeat' first
    | with_reducible assumption
    | extract_lets +onlyGivenNames x
    | with_reducible apply State.setGroup_keeps
    | with_reducible apply State.setFlag_keeps
    | with_reducible apply State.setNum_keeps
    | split

theorem State.enablePair_keeps {s0 : State} {s : State} (p : Nat) (on : Bool) (h : Keeps s0 s) : Keeps s0 (State.enablePair s p on).2 := by
  unfold State.enablePair
  repeat' first
    | with_reducible assumption
    | extract_lets +onlyGivenNames x
    | with_reducible apply State.setNum_keeps
    | with_reducible apply State.setPair_keeps
    | with_reducible apply State.setFlag_keeps
    | split

theorem State.closeSlotSessions_keeps {s0 : State} {s : State} (slot : Nat) (h : Keeps s0 s) : Keeps s0 (State.closeSlotSessions s slot) := by
  unfold State.closeSlotSessions
  repeat' first
    | with_reducible assumption
    | extract_lets +onlyGivenNames x
    | (simp only [keeps_mk]; refine core_of ?_)

theorem State.ownerWrite_keeps {s0 : State} {s : State} (r : ObjRow) (index : Nat) (sub : Nat) (v : Bytes) (h : Keeps s0 s) : Keeps s0 (State.ownerWrite s r index sub v).2 := by
  unfold State.ownerWrite
  repeat' first
    | with_reducible assumption
    | (extract_lets +onlyGivenNames x; apply keeps_cut (p := Keeps s0 x); (case' hp => (unfold x; clear x)); (case' k => (clear_value x; intro hx)))
    | with_reducible apply pair_ite
    | extract_lets +onlyGivenNames x
    | (simp only [keeps_mk]; refine core_of ?_)
    | with_reducible apply State.storeValue_keeps
    | with_reducible apply State.closeSlotSessions_keeps
    | with_reducible apply State.coolantReport_keeps
    | with_reducible apply State.setClock_keeps
    | with_reducible apply State.storeIf_keeps
    | with_reducible apply State.epochsStart_keeps
    | with_reducible apply State.enableGroup_keeps
    | with_reducible apply State.enablePair_keeps

theorem State.restoreDefaults_keeps {s0 : State} {s : State} (arg : Nat) (h : Keeps s0 s) : Keeps s0 (State.restoreDefaults s arg).2 := by
  unfold State.restoreDefaults
  repeat' first
    | with_reducible assumption
    | (extract_lets +onlyGivenNames x; apply keeps_cut (p := Keeps s0 x); (case' hp => (unfold x; clear x)); (case' k => (clear_value x; intro hx)))
    | extract_lets +onlyGivenNames x
    | (simp only [keeps_mk]; refine core_of ?_)
    | with_reducible apply State.setNum_keeps
    | with_reducible apply State.durable_keeps
    | split

theorem State.invalidateTag_keeps {s0 : State} {s : State} (tag : Nat) (h : Keeps s0 s) : Keeps s0 (State.invalidateTag s tag).2 := by
  unfold State.invalidateTag
  repeat' first
    | with_reducible assumption
    | intro _
    | with_reducible apply State.invalDone_keeps
    | with_reducible apply State.startInval_keeps
    | with_reducible apply State.setNum_keeps
    | split
    | (clear_value *; split)

theorem State.ownerAction_keeps {s0 : State} {s : State} (index : Nat) (sub : Nat) (arg : Nat) (h : Keeps s0 s) : Keeps s0 (State.ownerAction s index sub arg).2 := by
  unfold State.ownerAction
  repeat' first
    | with_reducible assumption
    | with_reducible apply pair_ite
    | with_reducible apply State.restoreDefaults_keeps
    | with_reducible apply State.restart_keeps
    | with_reducible apply State.tenancyStart_keeps
    | with_reducible apply State.tenancyEnd_keeps
    | with_reducible apply State.jobOpens_keeps
    | with_reducible apply State.jobCloses_keeps
    | with_reducible apply State.tableSnapshot_keeps
    | with_reducible apply State.retireNow_keeps
    | with_reducible apply State.invalidateTag_keeps
    | with_reducible apply State.queueSnapshot_keeps
    | with_reducible apply State.clearSuspicion_keeps
    | with_reducible apply State.declareWindow_keeps
    | with_reducible apply State.slotAction_keeps
    | with_reducible apply State.commitSecurity_keeps
    | with_reducible apply State.accountSnapshot_keeps

theorem State.reach_keeps {s0 : State} {s : State} (dt : Nat) (r : Request) (h : Keeps s0 s) : Keeps s0 (State.reach s dt r) := by
  unfold State.reach
  repeat' first
    | with_reducible assumption
    | intro _
    | with_reducible apply State.request_keeps
    | with_reducible apply State.tick_keeps
    | split
    | (clear_value *; split)

theorem State.sendReply_keeps {s0 : State} {s : State} (t : Transport) (parts : List Bytes) (h : Keeps s0 s) : Keeps s0 (State.sendReply s t parts) := by
  unfold State.sendReply
  repeat' first
    | with_reducible assumption
    | intro _
    | (extract_lets +onlyGivenNames x; apply keeps_cut (p := Keeps s0 x); (case' hp => (unfold x; clear x)); (case' k => (clear_value x; intro hx)))
    | (extract_lets +onlyGivenNames x; apply keeps_cut (p := Keeps s0 x.2); (case' hp => (unfold x; clear x)); (case' k => (clear_value x; intro hx)))
    | extract_lets +onlyGivenNames x
    | (simp only [keeps_mk]; refine core_of ?_)
    | with_reducible apply State.emit_keeps
    | (with_reducible apply keeps_foldl; intro _ _ _)
    | (with_reducible refine keeps_of_pair (by assumption) ?_)
    | (with_reducible refine keeps_of_some_snd (by assumption) ?_)
    | (with_reducible refine keeps_of_some_fst (by assumption) ?_)
    | split
    | (clear_value *; split)

theorem State.sendOwed_keeps {s0 : State} {s : State} (t : Transport) (n : Nat) (h : Keeps s0 s) : Keeps s0 (State.sendOwed s t n) := by
  unfold State.sendOwed
  repeat' first
    | with_reducible assumption
    | intro _
    | (extract_lets +onlyGivenNames x; apply keeps_cut (p := Keeps s0 x); (case' hp => (unfold x; clear x)); (case' k => (clear_value x; intro hx)))
    | (extract_lets +onlyGivenNames x; apply keeps_cut (p := Keeps s0 x.2); (case' hp => (unfold x; clear x)); (case' k => (clear_value x; intro hx)))
    | extract_lets +onlyGivenNames x
    | (simp only [keeps_mk]; refine core_of ?_)
    | with_reducible apply State.sendReply_keeps
    | (with_reducible apply keeps_foldl; intro _ _ _)
    | split
    | (clear_value *; split)

theorem State.deliver_keeps {s0 : State} {s : State} (r : Request) (status : Nat) (parts : List Bytes) (h : Keeps s0 s) : Keeps s0 (State.deliver s r status parts) := by
  unfold State.deliver
  repeat' first
    | with_reducible assumption
    | intro _
    | (extract_lets +onlyGivenNames x; apply keeps_cut (p := Keeps s0 x); (case' hp => (unfold x; clear x)); (case' k => (clear_value x; intro hx)))
    | (extract_lets +onlyGivenNames x; apply keeps_cut (p := Keeps s0 x.2); (case' hp => (unfold x; clear x)); (case' k => (clear_value x; intro hx)))
    | extract_lets +onlyGivenNames x
    | (simp only [keeps_mk]; refine core_of ?_)
    | with_reducible apply State.request_keeps
    | with_reducible apply State.sendOwed_keeps
    | with_reducible apply State.sendReply_keeps
    | split
    | (clear_value *; split)

theorem State.respond_keeps {s0 : State} {s : State} (op : Nat) (r : Request) (session : Nat) (a : Answer) (h : Keeps s0 s) : Keeps s0 (State.respond s op r session a) := by
  unfold State.respond
  repeat' first
    | with_reducible assumption
    | intro _
    | (extract_lets +onlyGivenNames x; apply keeps_cut (p := Keeps s0 x); (case' hp => (unfold x; clear x)); (case' k => (clear_value x; intro hx)))
    | (extract_lets +onlyGivenNames x; apply keeps_cut (p := Keeps s0 x.2); (case' hp => (unfold x; clear x)); (case' k => (clear_value x; intro hx)))
    | extract_lets +onlyGivenNames x
    | (simp only [keeps_mk]; refine core_of ?_)
    | with_reducible apply State.request_keeps
    | with_reducible apply State.deliver_keeps
    | with_reducible apply State.bump_keeps
    | (with_reducible refine keeps_of_pair (by assumption) ?_)
    | (with_reducible refine keeps_of_some_snd (by assumption) ?_)
    | (with_reducible refine keeps_of_some_fst (by assumption) ?_)
    | split
    | (clear_value *; split)

theorem State.setSession_keeps {s0 : State} {s : State} (x' : Session) (h : Keeps s0 s) : Keeps s0 (State.setSession s x') := by
  unfold State.setSession
  repeat' first
    | with_reducible assumption
    | extract_lets +onlyGivenNames x
    | (simp only [keeps_mk]; refine core_of ?_)

theorem State.dropSession_keeps {s0 : State} {s : State} (id : Nat) (h : Keeps s0 s) : Keeps s0 (State.dropSession s id) := by
  unfold State.dropSession
  repeat' first
    | with_reducible assumption
    | extract_lets +onlyGivenNames x
    | (simp only [keeps_mk]; refine core_of ?_)

theorem State.acceptIn_keeps {s0 : State} {s : State} (x' : Session) (sequence : Nat) (h : Keeps s0 s) : Keeps s0 (State.acceptIn s x' sequence) := by
  unfold State.acceptIn
  repeat' first
    | with_reducible assumption
    | with_reducible apply State.setSession_keeps

theorem State.authWrite_keeps {s0 : State} {s : State} (op : Nat) (r : Request) (h : Keeps s0 s) : Keeps s0 (State.authWrite s op r).2 := by
  unfold State.authWrite
  repeat' first
    | with_reducible assumption
    | with_reducible apply State.acceptIn_keeps
    | split

theorem State.noteRead_keeps {s0 : State} {s : State} (op : Nat) (r : Request) (h : Keeps s0 s) : Keeps s0 (State.noteRead s op r) := by
  unfold State.noteRead
  repeat' first
    | with_reducible assumption
    | with_reducible apply State.acceptIn_keeps
    | split

theorem State.sessionOpen_keeps {s0 : State} {s : State} (m : DictMsg) (h : Keeps s0 s) : Keeps s0 (State.sessionOpen s m).2.2 := by
  unfold State.sessionOpen
  repeat' first
    | with_reducible assumption
    | extract_lets +onlyGivenNames x
    | (simp only [keeps_mk]; refine core_of ?_)
    | with_reducible apply State.drawNonce_keeps
    | split

theorem State.sessionProve_keeps {s0 : State} {s : State} (id : Nat) (m : DictMsg) (h : Keeps s0 s) : Keeps s0 (State.sessionProve s id m).2 := by
  unfold State.sessionProve
  repeat' first
    | with_reducible assumption
    | with_reducible apply State.setSession_keeps
    | with_reducible apply State.dropSession_keeps
    | split

theorem State.sessionClose_keeps {s0 : State} {s : State} (id : Nat) (m : DictMsg) (h : Keeps s0 s) : Keeps s0 (State.sessionClose s id m).2 := by
  unfold State.sessionClose
  repeat' first
    | with_reducible assumption
    | with_reducible apply State.dropSession_keeps
    | split

theorem State.serveRead_keeps {s0 : State} {s : State} (op : Nat) (r : Request) (o : ObjRow) (h : Keeps s0 s) : Keeps s0 (State.serveRead s op r o).2 := by
  unfold State.serveRead
  repeat' first
    | with_reducible assumption
    | extract_lets +onlyGivenNames x
    | with_reducible apply State.noteRead_keeps
    | split

theorem State.serveValue_keeps {s0 : State} {s : State} (r : Request) (o : ObjRow) (h : Keeps s0 s) : Keeps s0 (State.serveValue s r o).2 := by
  unfold State.serveValue
  repeat' first
    | with_reducible assumption
    | (extract_lets +onlyGivenNames x; apply keeps_cut (p := Keeps s0 x); (case' hp => (unfold x; clear x)); (case' k => (clear_value x; intro hx)))
    | extract_lets +onlyGivenNames x
    | with_reducible apply State.ownerAction_keeps
    | with_reducible apply State.ownerWrite_keeps
    | with_reducible apply State.durable_keeps
    | (with_reducible refine keeps_of_pair (by assumption) ?_)
    | split

theorem State.serveWrite_keeps {s0 : State} {s : State} (op : Nat) (r : Request) (o : ObjRow) (h : Keeps s0 s) : Keeps s0 (State.serveWrite s op r o).2 := by
  unfold State.serveWrite
  repeat' first
    | with_reducible assumption
    | extract_lets +onlyGivenNames x
    | with_reducible apply State.authWrite_keeps
    | with_reducible apply State.programSlot_keeps
    | with_reducible apply State.serveValue_keeps
    | (with_reducible refine keeps_of_pair (by assumption) ?_)
    | split

theorem State.serveObject_keeps {s0 : State} {s : State} (op : Nat) (r : Request) (h : Keeps s0 s) : Keeps s0 (State.serveObject s op r).2 := by
  unfold State.serveObject
  repeat' first
    | with_reducible assumption
    | extract_lets +onlyGivenNames x
    | with_reducible apply State.noteRead_keeps
    | with_reducible apply State.serveRead_keeps
    | with_reducible apply State.serveWrite_keeps
    | split

theorem State.serveSession_keeps {s0 : State} {s : State} (op : Nat) (r : Request) (h : Keeps s0 s) : Keeps s0 (State.serveSession s op r).2.2 := by
  unfold State.serveSession
  repeat' first
    | with_reducible assumption
    | extract_lets +onlyGivenNames x
    | with_reducible apply State.sessionOpen_keeps
    | with_reducible apply State.sessionProve_keeps
    | with_reducible apply State.sessionClose_keeps
    | split

theorem State.foreign_keeps {s0 : State} {s : State} (h : Keeps s0 s) : Keeps s0 (State.foreign s) := by
  unfold State.foreign
  repeat' first
    | with_reducible assumption
    | with_reducible apply State.bump_keeps

theorem State.takeRequest_keeps {s0 : State} {s : State} (op : Nat) (r : Request) (h : Keeps s0 s) : Keeps s0 (State.takeRequest s op r) := by
  unfold State.takeRequest
  repeat' first
    | with_reducible assumption
    | intro _
    | (extract_lets +onlyGivenNames x; apply keeps_cut (p := Keeps s0 x); (case' hp => (unfold x; clear x)); (case' k => (clear_value x; intro hx)))
    | (extract_lets +onlyGivenNames x; apply keeps_cut (p := Keeps s0 x.2); (case' hp => (unfold x; clear x)); (case' k => (clear_value x; intro hx)))
    | extract_lets +onlyGivenNames x
    | (simp only [keeps_mk]; refine core_of ?_)
    | with_reducible apply State.request_keeps
    | with_reducible apply State.serveSession_keeps
    | with_reducible apply State.serveObject_keeps
    | with_reducible apply State.respond_keeps
    | with_reducible apply State.sendOwed_keeps
    | with_reducible apply State.bump_keeps
    | (with_reducible refine keeps_of_pair (by assumption) ?_)
    | (with_reducible refine keeps_of_triple (by assumption) ?_)
    | (with_reducible refine keeps_of_quad (by assumption) ?_)
    | (with_reducible refine keeps_of_some_snd (by assumption) ?_)
    | (with_reducible refine keeps_of_some_fst (by assumption) ?_)
    | split
    | (clear_value *; split)

theorem State.mailboxCode_keeps {s0 : State} {s : State} (code : Nat) (h : Keeps s0 s) : Keeps s0 (State.mailboxCode s code) := by
  unfold State.mailboxCode
  repeat' first
    | with_reducible assumption
    | with_reducible apply State.emit_keeps

theorem State.request_keeps {s0 : State} {s : State} (op : Nat) (r : Request) (h : Keeps s0 s) : Keeps s0 (State.request s op r) := by
  unfold State.request
  repeat' first
    | with_reducible assumption
    | extract_lets +onlyGivenNames x
    | with_reducible apply State.mailboxCode_keeps
    | with_reducible apply State.foreign_keeps
    | with_reducible apply State.takeRequest_keeps
    | split

theorem execObjectRead_keeps {s0 : State} (dt : Nat) (r : Request) {s : State} (h : Keeps s0 s) : Outcome.all (Keeps s0) (execObjectRead dt r s) := by
  unfold execObjectRead
  repeat' first
    | with_reducible assumption
    | intro _
    | with_reducible apply outcome_next
    | with_reducible apply State.request_keeps
    | with_reducible apply State.reach_keeps
    | split
    | (clear_value *; split)

theorem execObjectWrite_keeps {s0 : State} (dt : Nat) (r : Request) {s : State} (h : Keeps s0 s) : Outcome.all (Keeps s0) (execObjectWrite dt r s) := by
  unfold execObjectWrite
  repeat' first
    | with_reducible assumption
    | intro _
    | with_reducible apply outcome_next
    | with_reducible apply State.request_keeps
    | with_reducible apply State.reach_keeps
    | split
    | (clear_value *; split)

theorem execObjectDescribe_keeps {s0 : State} (dt : Nat) (r : Request) {s : State} (h : Keeps s0 s) : Outcome.all (Keeps s0) (execObjectDescribe dt r s) := by
  unfold execObjectDescribe
  repeat' first
    | with_reducible assumption
    | intro _
    | with_reducible apply outcome_next
    | with_reducible apply State.request_keeps
    | with_reducible apply State.reach_keeps
    | split
    | (clear_value *; split)

theorem execObjectEnumerate_keeps {s0 : State} (dt : Nat) (r : Request) {s : State} (h : Keeps s0 s) : Outcome.all (Keeps s0) (execObjectEnumerate dt r s) := by
  unfold execObjectEnumerate
  repeat' first
    | with_reducible assumption
    | intro _
    | with_reducible apply outcome_next
    | with_reducible apply State.request_keeps
    | with_reducible apply State.reach_keeps
    | split
    | (clear_value *; split)

theorem execSegmentRead_keeps {s0 : State} (dt : Nat) (r : Request) {s : State} (h : Keeps s0 s) : Outcome.all (Keeps s0) (execSegmentRead dt r s) := by
  unfold execSegmentRead
  repeat' first
    | with_reducible assumption
    | intro _
    | with_reducible apply outcome_next
    | with_reducible apply State.request_keeps
    | with_reducible apply State.reach_keeps
    | split
    | (clear_value *; split)

theorem execSegmentWrite_keeps {s0 : State} (dt : Nat) (r : Request) {s : State} (h : Keeps s0 s) : Outcome.all (Keeps s0) (execSegmentWrite dt r s) := by
  unfold execSegmentWrite
  repeat' first
    | with_reducible assumption
    | intro _
    | with_reducible apply outcome_next
    | with_reducible apply State.request_keeps
    | with_reducible apply State.reach_keeps
    | split
    | (clear_value *; split)

theorem execSessionOpen_keeps {s0 : State} (dt : Nat) (r : Request) {s : State} (h : Keeps s0 s) : Outcome.all (Keeps s0) (execSessionOpen dt r s) := by
  unfold execSessionOpen
  repeat' first
    | with_reducible assumption
    | intro _
    | with_reducible apply outcome_next
    | with_reducible apply State.request_keeps
    | with_reducible apply State.reach_keeps
    | split
    | (clear_value *; split)

theorem execSessionProve_keeps {s0 : State} (dt : Nat) (r : Request) {s : State} (h : Keeps s0 s) : Outcome.all (Keeps s0) (execSessionProve dt r s) := by
  unfold execSessionProve
  repeat' first
    | with_reducible assumption
    | intro _
    | with_reducible apply outcome_next
    | with_reducible apply State.request_keeps
    | with_reducible apply State.reach_keeps
    | split
    | (clear_value *; split)

theorem execSessionClose_keeps {s0 : State} (dt : Nat) (r : Request) {s : State} (h : Keeps s0 s) : Outcome.all (Keeps s0) (execSessionClose dt r s) := by
  unfold execSessionClose
  repeat' first
    | with_reducible assumption
    | intro _
    | with_reducible apply outcome_next
    | with_reducible apply State.request_keeps
    | with_reducible apply State.reach_keeps
    | split
    | (clear_value *; split)

theorem execSessionIdleTimeout_keeps {s0 : State} (dt : Nat) (id : Nat) {s : State} (h : Keeps s0 s) : Outcome.all (Keeps s0) (execSessionIdleTimeout dt id s) := by
  unfold execSessionIdleTimeout
  repeat' first
    | with_reducible assumption
    | (extract_lets +onlyGivenNames x; apply keeps_cut (p := Keeps s0 x); (case' hp => (unfold x; clear x)); (case' k => (clear_value x; intro hx)))
    | extract_lets +onlyGivenNames x
    | with_reducible apply outcome_next
    | with_reducible apply State.tick_keeps
    | with_reducible apply State.dropSession_keeps
    | split

theorem execForeignFrameDiscard_keeps {s0 : State} (x : StrayArrival) {s : State} (h : Keeps s0 s) : Outcome.all (Keeps s0) (execForeignFrameDiscard x s) := by
  unfold execForeignFrameDiscard
  repeat' first
    | with_reducible assumption
    | intro _
    | (extract_lets +onlyGivenNames x; apply keeps_cut (p := Keeps s0 x); (case' hp => (unfold x; clear x)); (case' k => (clear_value x; intro hx)))
    | (extract_lets +onlyGivenNames x; apply keeps_cut (p := Keeps s0 x.2); (case' hp => (unfold x; clear x)); (case' k => (clear_value x; intro hx)))
    | extract_lets +onlyGivenNames x
    | with_reducible apply outcome_next
    | with_reducible apply State.foreign_keeps
    | with_reducible apply State.tick_keeps
    | split
    | (clear_value *; split)

theorem execPlcaChangeApply_keeps {s0 : State} (dt : Nat) {s : State} (h : Keeps s0 s) : Outcome.all (Keeps s0) (execPlcaChangeApply dt s) := by
  unfold execPlcaChangeApply
  repeat' first
    | with_reducible assumption
    | (extract_lets +onlyGivenNames x; apply keeps_cut (p := Keeps s0 x); (case' hp => (unfold x; clear x)); (case' k => (clear_value x; intro hx)))
    | extract_lets +onlyGivenNames x
    | (simp only [keeps_mk]; refine core_of ?_)
    | with_reducible apply outcome_next
    | with_reducible apply State.tick_keeps
    | split

theorem execI3cEntdaa_keeps {s0 : State} (dt : Nat) (address : Nat) {s : State} (h : Keeps s0 s) : Outcome.all (Keeps s0) (execI3cEntdaa dt address s) := by
  unfold execI3cEntdaa
  repeat' first
    | with_reducible assumption
    | (extract_lets +onlyGivenNames x; apply keeps_cut (p := Keeps s0 x); (case' hp => (unfold x; clear x)); (case' k => (clear_value x; intro hx)))
    | extract_lets +onlyGivenNames x
    | with_reducible apply outcome_next
    | with_reducible apply State.tick_keeps
    | with_reducible apply State.setNum_keeps
    | split

theorem State.actionRequest_keeps {s0 : State} {s : State} (index : Nat) (sub : Nat) (arg : Nat) (r : Request) (h : Keeps s0 s) : Keeps s0 (State.actionRequest s index sub arg r) := by
  unfold State.actionRequest
  repeat' first
    | with_reducible assumption
    | with_reducible apply State.request_keeps

theorem execRackKeyWrite_keeps {s0 : State} (dt : Nat) (slot : Nat) (key : Bytes) (r : Request) {s : State} (h : Keeps s0 s) : Outcome.all (Keeps s0) (execRackKeyWrite dt slot key r s) := by
  unfold execRackKeyWrite
  repeat' first
    | with_reducible assumption
    | intro _
    | with_reducible apply outcome_next
    | with_reducible apply State.request_keeps
    | with_reducible apply State.write_keeps
    | with_reducible apply State.reach_keeps
    | split
    | (clear_value *; split)

theorem execRestoreDefaults_keeps {s0 : State} (dt : Nat) (arg : Nat) (r : Request) {s : State} (h : Keeps s0 s) : Outcome.all (Keeps s0) (execRestoreDefaults dt arg r s) := by
  unfold execRestoreDefaults
  repeat' first
    | with_reducible assumption
    | intro _
    | with_reducible apply outcome_next
    | with_reducible apply State.actionRequest_keeps
    | with_reducible apply State.reach_keeps
    | split
    | (clear_value *; split)

theorem execRestart_keeps {s0 : State} (dt : Nat) (arg : Nat) (r : Request) {s : State} (h : Keeps s0 s) : Outcome.all (Keeps s0) (execRestart dt arg r s) := by
  unfold execRestart
  repeat' first
    | with_reducible assumption
    | intro _
    | with_reducible apply outcome_next
    | with_reducible apply State.actionRequest_keeps
    | with_reducible apply State.reach_keeps
    | split
    | (clear_value *; split)

theorem execCoreClockSet_keeps {s0 : State} (dt : Nat) (core : Nat) (mhz : Nat) (r : Request) {s : State} (h : Keeps s0 s) : Outcome.all (Keeps s0) (execCoreClockSet dt core mhz r s) := by
  unfold execCoreClockSet
  repeat' first
    | with_reducible assumption
    | intro _
    | with_reducible apply outcome_next
    | with_reducible apply State.request_keeps
    | with_reducible apply State.write_keeps
    | with_reducible apply State.reach_keeps
    | split
    | (clear_value *; split)

theorem execTenancyStart_keeps {s0 : State} (dt : Nat) (owner : Nat) (r : Request) {s : State} (h : Keeps s0 s) : Outcome.all (Keeps s0) (execTenancyStart dt owner r s) := by
  unfold execTenancyStart
  repeat' first
    | with_reducible assumption
    | intro _
    | with_reducible apply outcome_next
    | with_reducible apply State.actionRequest_keeps
    | with_reducible apply State.reach_keeps
    | split
    | (clear_value *; split)

theorem execTenancyEnd_keeps {s0 : State} (dt : Nat) (arg : Nat) (r : Request) {s : State} (h : Keeps s0 s) : Outcome.all (Keeps s0) (execTenancyEnd dt arg r s) := by
  unfold execTenancyEnd
  repeat' first
    | with_reducible assumption
    | intro _
    | with_reducible apply outcome_next
    | with_reducible apply State.actionRequest_keeps
    | with_reducible apply State.reach_keeps
    | split
    | (clear_value *; split)

theorem execJobOpen_keeps {s0 : State} (dt : Nat) (job : Nat) (arg : Nat) (r : Request) {s : State} (h : Keeps s0 s) : Outcome.all (Keeps s0) (execJobOpen dt job arg r s) := by
  unfold execJobOpen
  repeat' first
    | with_reducible assumption
    | intro _
    | with_reducible apply outcome_next
    | with_reducible apply State.actionRequest_keeps
    | with_reducible apply State.reach_keeps
    | split
    | (clear_value *; split)

theorem execJobClose_keeps {s0 : State} (dt : Nat) (job : Nat) (arg : Nat) (r : Request) {s : State} (h : Keeps s0 s) : Outcome.all (Keeps s0) (execJobClose dt job arg r s) := by
  unfold execJobClose
  repeat' first
    | with_reducible assumption
    | intro _
    | with_reducible apply outcome_next
    | with_reducible apply State.actionRequest_keeps
    | with_reducible apply State.reach_keeps
    | split
    | (clear_value *; split)

theorem execAccountingSnapshot_keeps {s0 : State} (dt : Nat) (account : Nat) (r : Request) {s : State} (h : Keeps s0 s) : Outcome.all (Keeps s0) (execAccountingSnapshot dt account r s) := by
  unfold execAccountingSnapshot
  repeat' first
    | with_reducible assumption
    | intro _
    | with_reducible apply outcome_next
    | with_reducible apply State.actionRequest_keeps
    | with_reducible apply State.reach_keeps
    | split
    | (clear_value *; split)

theorem execEpochsStart_keeps {s0 : State} (dt : Nat) (running : Bool) (r : Request) {s : State} (h : Keeps s0 s) : Outcome.all (Keeps s0) (execEpochsStart dt running r s) := by
  unfold execEpochsStart
  repeat' first
    | with_reducible assumption
    | intro _
    | with_reducible apply outcome_next
    | with_reducible apply State.request_keeps
    | with_reducible apply State.write_keeps
    | with_reducible apply State.reach_keeps
    | split
    | (clear_value *; split)

theorem execTableSnapshot_keeps {s0 : State} (dt : Nat) (table : Nat) (r : Request) {s : State} (h : Keeps s0 s) : Outcome.all (Keeps s0) (execTableSnapshot dt table r s) := by
  unfold execTableSnapshot
  repeat' first
    | with_reducible assumption
    | intro _
    | with_reducible apply outcome_next
    | with_reducible apply State.actionRequest_keeps
    | with_reducible apply State.reach_keeps
    | split
    | (clear_value *; split)

theorem execQueueSnapshot_keeps {s0 : State} (dt : Nat) (queue : Nat) (r : Request) {s : State} (h : Keeps s0 s) : Outcome.all (Keeps s0) (execQueueSnapshot dt queue r s) := by
  unfold execQueueSnapshot
  repeat' first
    | with_reducible assumption
    | intro _
    | with_reducible apply outcome_next
    | with_reducible apply State.actionRequest_keeps
    | with_reducible apply State.reach_keeps
    | split
    | (clear_value *; split)

theorem execInvalidateTag_keeps {s0 : State} (dt : Nat) (tag : Nat) (r : Request) {s : State} (h : Keeps s0 s) : Outcome.all (Keeps s0) (execInvalidateTag dt tag r s) := by
  unfold execInvalidateTag
  repeat' first
    | with_reducible assumption
    | intro _
    | with_reducible apply outcome_next
    | with_reducible apply State.actionRequest_keeps
    | with_reducible apply State.reach_keeps
    | split
    | (clear_value *; split)

theorem execRetireNow_keeps {s0 : State} (dt : Nat) (page : Nat) (r : Request) {s : State} (h : Keeps s0 s) : Outcome.all (Keeps s0) (execRetireNow dt page r s) := by
  unfold execRetireNow
  repeat' first
    | with_reducible assumption
    | intro _
    | with_reducible apply outcome_next
    | with_reducible apply State.actionRequest_keeps
    | with_reducible apply State.reach_keeps
    | split
    | (clear_value *; split)

theorem execDeclareWindow_keeps {s0 : State} (dt : Nat) (code : Nat) (r : Request) {s : State} (h : Keeps s0 s) : Outcome.all (Keeps s0) (execDeclareWindow dt code r s) := by
  unfold execDeclareWindow
  repeat' first
    | with_reducible assumption
    | intro _
    | with_reducible apply outcome_next
    | with_reducible apply State.actionRequest_keeps
    | with_reducible apply State.reach_keeps
    | split
    | (clear_value *; split)

theorem execClearSuspicion_keeps {s0 : State} (dt : Nat) (arg : Nat) (r : Request) {s : State} (h : Keeps s0 s) : Outcome.all (Keeps s0) (execClearSuspicion dt arg r s) := by
  unfold execClearSuspicion
  repeat' first
    | with_reducible assumption
    | intro _
    | with_reducible apply outcome_next
    | with_reducible apply State.actionRequest_keeps
    | with_reducible apply State.reach_keeps
    | split
    | (clear_value *; split)

theorem execCoolantReport_keeps {s0 : State} (dt : Nat) (flow : Bool) (value : Nat) (r : Request) {s : State} (h : Keeps s0 s) : Outcome.all (Keeps s0) (execCoolantReport dt flow value r s) := by
  unfold execCoolantReport
  repeat' first
    | with_reducible assumption
    | intro _
    | (extract_lets +onlyGivenNames x; apply keeps_cut (p := Keeps s0 x); (case' hp => (unfold x; clear x)); (case' k => (clear_value x; intro hx)))
    | (extract_lets +onlyGivenNames x; apply keeps_cut (p := Keeps s0 x.2); (case' hp => (unfold x; clear x)); (case' k => (clear_value x; intro hx)))
    | extract_lets +onlyGivenNames x
    | (simp only [keeps_mk]; refine core_of ?_)
    | with_reducible apply outcome_next
    | with_reducible apply State.request_keeps
    | with_reducible apply State.reach_keeps
    | split
    | (clear_value *; split)

theorem execSlotErase_keeps {s0 : State} (dt : Nat) (r : Request) {s : State} (h : Keeps s0 s) : Outcome.all (Keeps s0) (execSlotErase dt r s) := by
  unfold execSlotErase
  repeat' first
    | with_reducible assumption
    | intro _
    | (extract_lets +onlyGivenNames x; apply keeps_cut (p := Keeps s0 x); (case' hp => (unfold x; clear x)); (case' k => (clear_value x; intro hx)))
    | (extract_lets +onlyGivenNames x; apply keeps_cut (p := Keeps s0 x.2); (case' hp => (unfold x; clear x)); (case' k => (clear_value x; intro hx)))
    | extract_lets +onlyGivenNames x
    | (simp only [keeps_mk]; refine core_of ?_)
    | with_reducible apply outcome_next
    | with_reducible apply State.actionRequest_keeps
    | with_reducible apply State.reach_keeps
    | split
    | (clear_value *; split)

theorem execSlotActivate_keeps {s0 : State} (dt : Nat) (r : Request) {s : State} (h : Keeps s0 s) : Outcome.all (Keeps s0) (execSlotActivate dt r s) := by
  unfold execSlotActivate
  repeat' first
    | with_reducible assumption
    | intro _
    | (extract_lets +onlyGivenNames x; apply keeps_cut (p := Keeps s0 x); (case' hp => (unfold x; clear x)); (case' k => (clear_value x; intro hx)))
    | (extract_lets +onlyGivenNames x; apply keeps_cut (p := Keeps s0 x.2); (case' hp => (unfold x; clear x)); (case' k => (clear_value x; intro hx)))
    | extract_lets +onlyGivenNames x
    | (simp only [keeps_mk]; refine core_of ?_)
    | with_reducible apply outcome_next
    | with_reducible apply State.actionRequest_keeps
    | with_reducible apply State.reach_keeps
    | split
    | (clear_value *; split)

theorem execCommitSecurityVersion_keeps {s0 : State} (dt : Nat) (version : Nat) (r : Request) {s : State} (h : Keeps s0 s) : Outcome.all (Keeps s0) (execCommitSecurityVersion dt version r s) := by
  unfold execCommitSecurityVersion
  repeat' first
    | with_reducible assumption
    | intro _
    | with_reducible apply outcome_next
    | with_reducible apply State.actionRequest_keeps
    | with_reducible apply State.reach_keeps
    | split
    | (clear_value *; split)

end Sys2Proof.Machine
end

