-- ==== Sys2Proof/Laws/KeepsMailbox.lean ====
section
/-! SUPPORT. Every operation of Machine/Mailbox.lean keeps (`Keeps`). -/
set_option linter.tactic.unusedName false
set_option linter.unusedVariables false
set_option linter.unusedSimpArgs false
namespace Sys2Proof.Machine

theorem State.mailboxRun_keeps {s0 : State} {s : State} (firmware : Bool) (k : State → Nat × Bytes × State) (hk : ∀ t, Keeps s0 t → Keeps s0 (k t).2.2) (h : Keeps s0 s) : Keeps s0 (State.mailboxRun s firmware k) := by
  unfold State.mailboxRun
  split
  · exact h
  · split
    · exact State.mailboxCode_keeps _ h
    · split
      · exact State.mailboxCode_keeps _ h
      · exact State.emit_keeps _ (hk _ h)

theorem execMailboxDictionaryRequest_keeps {s0 : State} (dt : Nat) (medium : Medium) (store : Bool) (payload : Bytes) {s : State} (h : Keeps s0 s) : Outcome.all (Keeps s0) (execMailboxDictionaryRequest dt medium store payload s) := by
  unfold execMailboxDictionaryRequest
  repeat' first
    | with_reducible assumption
    | intro _
    | (extract_lets +onlyGivenNames x; apply keeps_cut (p := Keeps s0 x); (case' hp => (unfold x; clear x)); (case' k => (clear_value x; intro hx)))
    | (extract_lets +onlyGivenNames x; apply keeps_cut (p := Keeps s0 x.2); (case' hp => (unfold x; clear x)); (case' k => (clear_value x; intro hx)))
    | extract_lets +onlyGivenNames x
    | (simp only [keeps_mk]; refine core_of ?_)
    | with_reducible apply outcome_next
    | with_reducible apply State.request_keeps
    | with_reducible apply State.store_keeps
    | with_reducible apply State.reach_keeps
    | split
    | (clear_value *; split)

theorem execMailboxActionStatus_keeps {s0 : State} (dt : Nat) (index : Nat) (sub : Nat) {s : State} (h : Keeps s0 s) : Outcome.all (Keeps s0) (execMailboxActionStatus dt index sub s) := by
  unfold execMailboxActionStatus
  repeat' first
    | with_reducible assumption
    | intro _
    | (extract_lets +onlyGivenNames x; apply keeps_cut (p := Keeps s0 x); (case' hp => (unfold x; clear x)); (case' k => (clear_value x; intro hx)))
    | extract_lets +onlyGivenNames x
    | with_reducible apply outcome_next
    | with_reducible apply State.tick_keeps
    | with_reducible apply State.mailboxRun_keeps
    | split

theorem execIdentifyMemoryDevice_keeps {s0 : State} (dt : Nat) {s : State} (h : Keeps s0 s) : Outcome.all (Keeps s0) (execIdentifyMemoryDevice dt s) := by
  unfold execIdentifyMemoryDevice
  repeat' first
    | with_reducible assumption
    | intro _
    | (extract_lets +onlyGivenNames x; apply keeps_cut (p := Keeps s0 x); (case' hp => (unfold x; clear x)); (case' k => (clear_value x; intro hx)))
    | extract_lets +onlyGivenNames x
    | with_reducible apply outcome_next
    | with_reducible apply State.tick_keeps
    | with_reducible apply State.mailboxRun_keeps

theorem execGetSupportedLogs_keeps {s0 : State} (dt : Nat) {s : State} (h : Keeps s0 s) : Outcome.all (Keeps s0) (execGetSupportedLogs dt s) := by
  unfold execGetSupportedLogs
  repeat' first
    | with_reducible assumption
    | intro _
    | (extract_lets +onlyGivenNames x; apply keeps_cut (p := Keeps s0 x); (case' hp => (unfold x; clear x)); (case' k => (clear_value x; intro hx)))
    | extract_lets +onlyGivenNames x
    | with_reducible apply outcome_next
    | with_reducible apply State.tick_keeps
    | with_reducible apply State.mailboxRun_keeps

theorem execGetLog_keeps {s0 : State} (dt : Nat) (uuid : Bytes) (offset : Nat) (length : Nat) {s : State} (h : Keeps s0 s) : Outcome.all (Keeps s0) (execGetLog dt uuid offset length s) := by
  unfold execGetLog
  repeat' first
    | with_reducible assumption
    | intro _
    | (extract_lets +onlyGivenNames x; apply keeps_cut (p := Keeps s0 x); (case' hp => (unfold x; clear x)); (case' k => (clear_value x; intro hx)))
    | extract_lets +onlyGivenNames x
    | with_reducible apply outcome_next
    | with_reducible apply State.tick_keeps
    | with_reducible apply State.mailboxRun_keeps
    | split

theorem execGetEventRecords_keeps {s0 : State} (dt : Nat) (log : Nat) {s : State} (h : Keeps s0 s) : Outcome.all (Keeps s0) (execGetEventRecords dt log s) := by
  unfold execGetEventRecords
  repeat' first
    | with_reducible assumption
    | intro _
    | (extract_lets +onlyGivenNames x; apply keeps_cut (p := Keeps s0 x); (case' hp => (unfold x; clear x)); (case' k => (clear_value x; intro hx)))
    | extract_lets +onlyGivenNames x
    | with_reducible apply outcome_next
    | with_reducible apply State.tick_keeps
    | with_reducible apply State.mailboxRun_keeps
    | split

theorem execClearEventRecords_keeps {s0 : State} (dt : Nat) (log : Nat) (all : Bool) (handles : List Nat) {s : State} (h : Keeps s0 s) : Outcome.all (Keeps s0) (execClearEventRecords dt log all handles s) := by
  unfold execClearEventRecords
  repeat' first
    | with_reducible assumption
    | intro _
    | (extract_lets +onlyGivenNames x; apply keeps_cut (p := Keeps s0 x); (case' hp => (unfold x; clear x)); (case' k => (clear_value x; intro hx)))
    | extract_lets +onlyGivenNames x
    | (simp only [keeps_mk]; refine core_of ?_)
    | with_reducible apply outcome_next
    | with_reducible apply State.tick_keeps
    | with_reducible apply State.mailboxRun_keeps
    | split

theorem execGetEventInterruptPolicy_keeps {s0 : State} (dt : Nat) {s : State} (h : Keeps s0 s) : Outcome.all (Keeps s0) (execGetEventInterruptPolicy dt s) := by
  unfold execGetEventInterruptPolicy
  repeat' first
    | with_reducible assumption
    | intro _
    | (extract_lets +onlyGivenNames x; apply keeps_cut (p := Keeps s0 x); (case' hp => (unfold x; clear x)); (case' k => (clear_value x; intro hx)))
    | extract_lets +onlyGivenNames x
    | with_reducible apply outcome_next
    | with_reducible apply State.tick_keeps
    | with_reducible apply State.mailboxRun_keeps

theorem execSetEventInterruptPolicy_keeps {s0 : State} (dt : Nat) (policy : Bytes) {s : State} (h : Keeps s0 s) : Outcome.all (Keeps s0) (execSetEventInterruptPolicy dt policy s) := by
  unfold execSetEventInterruptPolicy
  repeat' first
    | with_reducible assumption
    | intro _
    | (extract_lets +onlyGivenNames x; apply keeps_cut (p := Keeps s0 x); (case' hp => (unfold x; clear x)); (case' k => (clear_value x; intro hx)))
    | extract_lets +onlyGivenNames x
    | (simp only [keeps_mk]; refine core_of ?_)
    | with_reducible apply outcome_next
    | with_reducible apply State.tick_keeps
    | with_reducible apply State.mailboxRun_keeps
    | split

theorem execGetPoisonList_keeps {s0 : State} (dt : Nat) (address : Nat) (length : Nat) {s : State} (h : Keeps s0 s) : Outcome.all (Keeps s0) (execGetPoisonList dt address length s) := by
  unfold execGetPoisonList
  repeat' first
    | with_reducible assumption
    | intro _
    | (extract_lets +onlyGivenNames x; apply keeps_cut (p := Keeps s0 x); (case' hp => (unfold x; clear x)); (case' k => (clear_value x; intro hx)))
    | extract_lets +onlyGivenNames x
    | with_reducible apply outcome_next
    | with_reducible apply State.tick_keeps
    | with_reducible apply State.mailboxRun_keeps

theorem execGetTimestamp_keeps {s0 : State} (dt : Nat) {s : State} (h : Keeps s0 s) : Outcome.all (Keeps s0) (execGetTimestamp dt s) := by
  unfold execGetTimestamp
  repeat' first
    | with_reducible assumption
    | intro _
    | (extract_lets +onlyGivenNames x; apply keeps_cut (p := Keeps s0 x); (case' hp => (unfold x; clear x)); (case' k => (clear_value x; intro hx)))
    | extract_lets +onlyGivenNames x
    | with_reducible apply outcome_next
    | with_reducible apply State.tick_keeps
    | with_reducible apply State.mailboxRun_keeps

theorem execSetTimestamp_keeps {s0 : State} (dt : Nat) (timestamp : Nat) {s : State} (h : Keeps s0 s) : Outcome.all (Keeps s0) (execSetTimestamp dt timestamp s) := by
  unfold execSetTimestamp
  repeat' first
    | with_reducible assumption
    | intro _
    | (extract_lets +onlyGivenNames x; apply keeps_cut (p := Keeps s0 x); (case' hp => (unfold x; clear x)); (case' k => (clear_value x; intro hx)))
    | extract_lets +onlyGivenNames x
    | (simp only [keeps_mk]; refine core_of ?_)
    | with_reducible apply outcome_next
    | with_reducible apply State.tick_keeps
    | with_reducible apply State.mailboxRun_keeps

theorem execGetFwInfo_keeps {s0 : State} (dt : Nat) {s : State} (h : Keeps s0 s) : Outcome.all (Keeps s0) (execGetFwInfo dt s) := by
  unfold execGetFwInfo
  repeat' first
    | with_reducible assumption
    | intro _
    | (extract_lets +onlyGivenNames x; apply keeps_cut (p := Keeps s0 x); (case' hp => (unfold x; clear x)); (case' k => (clear_value x; intro hx)))
    | extract_lets +onlyGivenNames x
    | with_reducible apply outcome_next
    | with_reducible apply State.tick_keeps
    | with_reducible apply State.mailboxRun_keeps

theorem State.transfer_keeps {s0 : State} {s : State} (offset : Nat) (data : Bytes) (h : Keeps s0 s) : Keeps s0 (State.transfer s offset data).2 := by
  unfold State.transfer
  repeat' first
    | with_reducible assumption
    | extract_lets +onlyGivenNames x
    | with_reducible apply State.programSlot_keeps
    | (with_reducible refine keeps_of_pair (by assumption) ?_)
    | split

theorem State.firstTransfer_keeps {s0 : State} {s : State} (offset : Nat) (data : Bytes) (h : Keeps s0 s) : Keeps s0 (State.firstTransfer s offset data).2 := by
  unfold State.firstTransfer
  repeat' first
    | with_reducible assumption
    | extract_lets +onlyGivenNames x
    | (simp only [keeps_mk]; refine core_of ?_)
    | with_reducible apply State.eraseSlot_keeps
    | with_reducible apply State.transfer_keeps
    | (with_reducible refine keeps_of_pair (by assumption) ?_)
    | split

theorem execTransferFw_keeps {s0 : State} (dt : Nat) (action : Nat) (slot : Nat) (offset : Nat) (data : Bytes) {s : State} (h : Keeps s0 s) : Outcome.all (Keeps s0) (execTransferFw dt action slot offset data s) := by
  unfold execTransferFw
  repeat' first
    | with_reducible assumption
    | intro _
    | (extract_lets +onlyGivenNames x; apply keeps_cut (p := Keeps s0 x); (case' hp => (unfold x; clear x)); (case' k => (clear_value x; intro hx)))
    | extract_lets +onlyGivenNames x
    | with_reducible apply outcome_next
    | with_reducible apply State.tick_keeps
    | with_reducible apply State.mailboxRun_keeps
    | with_reducible apply State.firstTransfer_keeps
    | with_reducible apply State.transfer_keeps
    | (with_reducible refine keeps_of_pair (by assumption) ?_)
    | split

theorem execActivateFw_keeps {s0 : State} (dt : Nat) (action : Nat) (slot : Nat) {s : State} (h : Keeps s0 s) : Outcome.all (Keeps s0) (execActivateFw dt action slot s) := by
  unfold execActivateFw
  repeat' first
    | with_reducible assumption
    | intro _
    | (extract_lets +onlyGivenNames x; apply keeps_cut (p := Keeps s0 x); (case' hp => (unfold x; clear x)); (case' k => (clear_value x; intro hx)))
    | extract_lets +onlyGivenNames x
    | with_reducible apply outcome_next
    | with_reducible apply State.tick_keeps
    | with_reducible apply State.mailboxRun_keeps
    | with_reducible apply State.activateSlot_keeps
    | split

end Sys2Proof.Machine
end

