-- ==== Sys2Proof/Laws/KeepsSpdm.lean ====
section
/-! SUPPORT. Every operation of Machine/Spdm.lean keeps (`Keeps`). -/
set_option linter.tactic.unusedName false
set_option linter.unusedVariables false
set_option linter.unusedSimpArgs false
namespace Sys2Proof.Machine

theorem State.spdmSend_keeps {s0 : State} {s : State} (t : Transport) (b : Bytes) (h : Keeps s0 s) : Keeps s0 (State.spdmSend s t b) := by
  unfold State.spdmSend
  repeat' first
    | with_reducible assumption
    | with_reducible apply State.emit_keeps

theorem State.setConn_keeps {s0 : State} {s : State} (t : Transport) (c : SpdmConn) (h : Keeps s0 s) : Keeps s0 (State.setConn s t c) := by
  unfold State.setConn
  repeat' first
    | with_reducible assumption
    | extract_lets +onlyGivenNames x
    | (simp only [keeps_mk]; refine core_of ?_)

theorem State.spdmVersion_keeps {s0 : State} {s : State} (t : Transport) (body : Bytes) (h : Keeps s0 s) : Keeps s0 (State.spdmVersion s t body) := by
  unfold State.spdmVersion
  repeat' first
    | with_reducible assumption
    | extract_lets +onlyGivenNames x
    | with_reducible apply State.spdmSend_keeps
    | with_reducible apply State.setConn_keeps

theorem execSpdmGetVersion_keeps {s0 : State} (dt : Nat) (t : Transport) (body : Bytes) {s : State} (h : Keeps s0 s) : Outcome.all (Keeps s0) (execSpdmGetVersion dt t body s) := by
  unfold execSpdmGetVersion
  repeat' first
    | with_reducible assumption
    | (extract_lets +onlyGivenNames x; apply keeps_cut (p := Keeps s0 x); (case' hp => (unfold x; clear x)); (case' k => (clear_value x; intro hx)))
    | extract_lets +onlyGivenNames x
    | with_reducible apply outcome_next
    | with_reducible apply State.tick_keeps
    | with_reducible apply State.spdmVersion_keeps
    | split

theorem State.spdmCapabilities_keeps {s0 : State} {s : State} (t : Transport) (body : Bytes) (h : Keeps s0 s) : Keeps s0 (State.spdmCapabilities s t body) := by
  unfold State.spdmCapabilities
  repeat' first
    | with_reducible assumption
    | extract_lets +onlyGivenNames x
    | with_reducible apply State.spdmSend_keeps
    | with_reducible apply State.setConn_keeps
    | split

theorem execSpdmGetCapabilities_keeps {s0 : State} (dt : Nat) (t : Transport) (body : Bytes) {s : State} (h : Keeps s0 s) : Outcome.all (Keeps s0) (execSpdmGetCapabilities dt t body s) := by
  unfold execSpdmGetCapabilities
  repeat' first
    | with_reducible assumption
    | (extract_lets +onlyGivenNames x; apply keeps_cut (p := Keeps s0 x); (case' hp => (unfold x; clear x)); (case' k => (clear_value x; intro hx)))
    | extract_lets +onlyGivenNames x
    | with_reducible apply outcome_next
    | with_reducible apply State.tick_keeps
    | with_reducible apply State.spdmCapabilities_keeps
    | split

theorem State.spdmAlgorithms_keeps {s0 : State} {s : State} (t : Transport) (body : Bytes) (h : Keeps s0 s) : Keeps s0 (State.spdmAlgorithms s t body) := by
  unfold State.spdmAlgorithms
  repeat' first
    | with_reducible assumption
    | extract_lets +onlyGivenNames x
    | with_reducible apply State.spdmSend_keeps
    | with_reducible apply State.setConn_keeps
    | split

theorem execSpdmNegotiateAlgorithms_keeps {s0 : State} (dt : Nat) (t : Transport) (body : Bytes) {s : State} (h : Keeps s0 s) : Outcome.all (Keeps s0) (execSpdmNegotiateAlgorithms dt t body s) := by
  unfold execSpdmNegotiateAlgorithms
  repeat' first
    | with_reducible assumption
    | (extract_lets +onlyGivenNames x; apply keeps_cut (p := Keeps s0 x); (case' hp => (unfold x; clear x)); (case' k => (clear_value x; intro hx)))
    | extract_lets +onlyGivenNames x
    | with_reducible apply outcome_next
    | with_reducible apply State.tick_keeps
    | with_reducible apply State.spdmAlgorithms_keeps
    | split

theorem State.withChain_keeps {s0 : State} {s : State} (t : Transport) (k : SpdmConn → State) (hk : ∀ x, Keeps s0 (k x)) (h : Keeps s0 s) : Keeps s0 (State.withChain s t k) := by
  unfold State.withChain
  extract_lets c
  split
  · exact State.spdmSend_keeps _ _ h
  · split
    · exact State.spdmSend_keeps _ _ h
    · exact hk _

theorem State.answerB_keeps {s0 : State} {s : State} (t : Transport) (c : SpdmConn) (q : Bytes) (r : Bytes) (h : Keeps s0 s) : Keeps s0 (State.answerB s t c q r) := by
  unfold State.answerB
  repeat' first
    | with_reducible assumption
    | extract_lets +onlyGivenNames x
    | with_reducible apply State.spdmSend_keeps
    | with_reducible apply State.setConn_keeps

theorem execSpdmGetDigests_keeps {s0 : State} (dt : Nat) (t : Transport) (body : Bytes) {s : State} (h : Keeps s0 s) : Outcome.all (Keeps s0) (execSpdmGetDigests dt t body s) := by
  unfold execSpdmGetDigests
  repeat' first
    | with_reducible assumption
    | intro _
    | (extract_lets +onlyGivenNames x; apply keeps_cut (p := Keeps s0 x); (case' hp => (unfold x; clear x)); (case' k => (clear_value x; intro hx)))
    | extract_lets +onlyGivenNames x
    | with_reducible apply outcome_next
    | with_reducible apply State.tick_keeps
    | with_reducible apply State.withChain_keeps
    | with_reducible apply State.answerB_keeps
    | split

theorem execSpdmGetCertificate_keeps {s0 : State} (dt : Nat) (t : Transport) (body : Bytes) {s : State} (h : Keeps s0 s) : Outcome.all (Keeps s0) (execSpdmGetCertificate dt t body s) := by
  unfold execSpdmGetCertificate
  repeat' first
    | with_reducible assumption
    | intro _
    | (extract_lets +onlyGivenNames x; apply keeps_cut (p := Keeps s0 x); (case' hp => (unfold x; clear x)); (case' k => (clear_value x; intro hx)))
    | extract_lets +onlyGivenNames x
    | with_reducible apply outcome_next
    | with_reducible apply State.tick_keeps
    | with_reducible apply State.withChain_keeps
    | with_reducible apply State.spdmSend_keeps
    | with_reducible apply State.answerB_keeps
    | split

theorem execSpdmChallenge_keeps {s0 : State} (dt : Nat) (t : Transport) (body : Bytes) {s : State} (h : Keeps s0 s) : Outcome.all (Keeps s0) (execSpdmChallenge dt t body s) := by
  unfold execSpdmChallenge
  repeat' first
    | with_reducible assumption
    | intro _
    | (extract_lets +onlyGivenNames x; apply keeps_cut (p := Keeps s0 x); (case' hp => (unfold x; clear x)); (case' k => (clear_value x; intro hx)))
    | extract_lets +onlyGivenNames x
    | with_reducible apply outcome_next
    | with_reducible apply State.tick_keeps
    | with_reducible apply State.withChain_keeps
    | with_reducible apply State.spdmSend_keeps
    | with_reducible apply State.drawNonce_keeps
    | with_reducible apply State.setConn_keeps
    | split

theorem State.spdmMeasure_keeps {s0 : State} {s : State} (t : Transport) (body : Bytes) (h : Keeps s0 s) : Keeps s0 (State.spdmMeasure s t body) := by
  unfold State.spdmMeasure
  repeat' first
    | with_reducible assumption
    | extract_lets +onlyGivenNames x
    | with_reducible apply State.spdmSend_keeps
    | with_reducible apply State.drawNonce_keeps
    | with_reducible apply State.setConn_keeps
    | (with_reducible refine keeps_of_pair (by assumption) ?_)
    | split

theorem execSpdmGetMeasurements_keeps {s0 : State} (dt : Nat) (t : Transport) (body : Bytes) {s : State} (h : Keeps s0 s) : Outcome.all (Keeps s0) (execSpdmGetMeasurements dt t body s) := by
  unfold execSpdmGetMeasurements
  repeat' first
    | with_reducible assumption
    | (extract_lets +onlyGivenNames x; apply keeps_cut (p := Keeps s0 x); (case' hp => (unfold x; clear x)); (case' k => (clear_value x; intro hx)))
    | extract_lets +onlyGivenNames x
    | with_reducible apply outcome_next
    | with_reducible apply State.tick_keeps
    | with_reducible apply State.spdmMeasure_keeps
    | split

theorem execSpdmKeyExchange_keeps {s0 : State} (dt : Nat) (t : Transport) (body : Bytes) {s : State} (h : Keeps s0 s) : Outcome.all (Keeps s0) (execSpdmKeyExchange dt t body s) := by
  unfold execSpdmKeyExchange
  repeat' first
    | with_reducible assumption
    | intro _
    | (extract_lets +onlyGivenNames x; apply keeps_cut (p := Keeps s0 x); (case' hp => (unfold x; clear x)); (case' k => (clear_value x; intro hx)))
    | extract_lets +onlyGivenNames x
    | (simp only [keeps_mk]; refine core_of ?_)
    | with_reducible apply outcome_next
    | with_reducible apply State.tick_keeps
    | with_reducible apply State.withChain_keeps
    | with_reducible apply State.spdmSend_keeps
    | with_reducible apply State.drawNonce_keeps
    | split

theorem State.setSpdmSession_keeps {s0 : State} {s : State} (x' : SpdmSession) (h : Keeps s0 s) : Keeps s0 (State.setSpdmSession s x') := by
  unfold State.setSpdmSession
  repeat' first
    | with_reducible assumption
    | extract_lets +onlyGivenNames x
    | (simp only [keeps_mk]; refine core_of ?_)

theorem State.endSpdmSession_keeps {s0 : State} {s : State} (id : Nat) (h : Keeps s0 s) : Keeps s0 (State.endSpdmSession s id) := by
  unfold State.endSpdmSession
  repeat' first
    | with_reducible assumption
    | extract_lets +onlyGivenNames x
    | (simp only [keeps_mk]; refine core_of ?_)

theorem execSpdmFinish_keeps {s0 : State} (dt : Nat) (t : Transport) (session : Nat) (body : Bytes) {s : State} (h : Keeps s0 s) : Outcome.all (Keeps s0) (execSpdmFinish dt t session body s) := by
  unfold execSpdmFinish
  repeat' first
    | with_reducible assumption
    | (extract_lets +onlyGivenNames x; apply keeps_cut (p := Keeps s0 x); (case' hp => (unfold x; clear x)); (case' k => (clear_value x; intro hx)))
    | extract_lets +onlyGivenNames x
    | with_reducible apply outcome_next
    | with_reducible apply State.tick_keeps
    | with_reducible apply State.spdmSend_keeps
    | with_reducible apply State.setSpdmSession_keeps
    | with_reducible apply State.endSpdmSession_keeps
    | split

theorem State.inSession_keeps {s0 : State} {s : State} (t : Transport) (session : Nat) (k : SpdmSession → State) (hk : ∀ x, Keeps s0 (k x)) (h : Keeps s0 s) : Keeps s0 (State.inSession s t session k) := by
  unfold State.inSession
  split
  · exact State.spdmSend_keeps _ _ h
  · split
    · exact hk _
    · exact State.spdmSend_keeps _ _ h

theorem execSpdmHeartbeat_keeps {s0 : State} (dt : Nat) (t : Transport) (session : Nat) {s : State} (h : Keeps s0 s) : Outcome.all (Keeps s0) (execSpdmHeartbeat dt t session s) := by
  unfold execSpdmHeartbeat
  repeat' first
    | with_reducible assumption
    | intro _
    | (extract_lets +onlyGivenNames x; apply keeps_cut (p := Keeps s0 x); (case' hp => (unfold x; clear x)); (case' k => (clear_value x; intro hx)))
    | extract_lets +onlyGivenNames x
    | with_reducible apply outcome_next
    | with_reducible apply State.tick_keeps
    | with_reducible apply State.inSession_keeps
    | with_reducible apply State.spdmSend_keeps
    | split

theorem execSpdmKeyUpdate_keeps {s0 : State} (dt : Nat) (t : Transport) (session : Nat) (op : Nat) (tag : Nat) {s : State} (h : Keeps s0 s) : Outcome.all (Keeps s0) (execSpdmKeyUpdate dt t session op tag s) := by
  unfold execSpdmKeyUpdate
  repeat' first
    | with_reducible assumption
    | intro _
    | (extract_lets +onlyGivenNames x; apply keeps_cut (p := Keeps s0 x); (case' hp => (unfold x; clear x)); (case' k => (clear_value x; intro hx)))
    | extract_lets +onlyGivenNames x
    | with_reducible apply outcome_next
    | with_reducible apply State.tick_keeps
    | with_reducible apply State.inSession_keeps
    | with_reducible apply State.spdmSend_keeps
    | with_reducible apply State.setSpdmSession_keeps
    | split

theorem execSpdmEndSession_keeps {s0 : State} (dt : Nat) (t : Transport) (session : Nat) {s : State} (h : Keeps s0 s) : Outcome.all (Keeps s0) (execSpdmEndSession dt t session s) := by
  unfold execSpdmEndSession
  repeat' first
    | with_reducible assumption
    | intro _
    | (extract_lets +onlyGivenNames x; apply keeps_cut (p := Keeps s0 x); (case' hp => (unfold x; clear x)); (case' k => (clear_value x; intro hx)))
    | extract_lets +onlyGivenNames x
    | with_reducible apply outcome_next
    | with_reducible apply State.tick_keeps
    | with_reducible apply State.inSession_keeps
    | with_reducible apply State.spdmSend_keeps
    | with_reducible apply State.endSpdmSession_keeps
    | split

end Sys2Proof.Machine
end

