-- ==== Sys2Proof/Laws/State.lean ====
section
/-! SUPPORT. What each named update of the state leaves: one lemma per field and update, and the reads after a write. -/
namespace Sys2Proof.Machine

@[simp] theorem State.setNum_now (s : State) (k v : Nat) : (s.setNum k v).now = s.now := rfl
@[simp] theorem State.setNum_net (s : State) (k v : Nat) : (s.setNum k v).net = s.net := rfl
@[simp] theorem State.setNum_clocks (s : State) (k v : Nat) : (s.setNum k v).clocks = s.clocks := rfl
@[simp] theorem State.setNum_epochs (s : State) (k v : Nat) : (s.setNum k v).epochs = s.epochs := rfl
@[simp] theorem State.setNum_queues (s : State) (k v : Nat) : (s.setNum k v).queues = s.queues := rfl
@[simp] theorem State.setNum_cmds (s : State) (k v : Nat) : (s.setNum k v).cmds = s.cmds := rfl
@[simp] theorem State.setNum_nextCmd (s : State) (k v : Nat) : (s.setNum k v).nextCmd = s.nextCmd := rfl
@[simp] theorem State.setNum_engines (s : State) (k v : Nat) : (s.setNum k v).engines = s.engines := rfl
@[simp] theorem State.setNum_fences (s : State) (k v : Nat) : (s.setNum k v).fences = s.fences := rfl
@[simp] theorem State.setNum_xlat (s : State) (k v : Nat) : (s.setNum k v).xlat = s.xlat := rfl
@[simp] theorem State.setNum_mem (s : State) (k v : Nat) : (s.setNum k v).mem = s.mem := rfl
@[simp] theorem State.setNum_streams (s : State) (k v : Nat) : (s.setNum k v).streams = s.streams := rfl
@[simp] theorem State.setNum_integ (s : State) (k v : Nat) : (s.setNum k v).integ = s.integ := rfl
@[simp] theorem State.setNum_fabric (s : State) (k v : Nat) : (s.setNum k v).fabric = s.fabric := rfl
@[simp] theorem State.setNum_host (s : State) (k v : Nat) : (s.setNum k v).host = s.host := rfl
@[simp] theorem State.setNum_mailbox (s : State) (k v : Nat) : (s.setNum k v).mailbox = s.mailbox := rfl
@[simp] theorem State.setNum_power (s : State) (k v : Nat) : (s.setNum k v).power = s.power := rfl
@[simp] theorem State.setNum_pins (s : State) (k v : Nat) : (s.setNum k v).pins = s.pins := rfl
@[simp] theorem State.setNum_startup (s : State) (k v : Nat) : (s.setNum k v).startup = s.startup := rfl
@[simp] theorem State.setNum_spdm (s : State) (k v : Nat) : (s.setNum k v).spdm = s.spdm := rfl
@[simp] theorem State.setNum_tables (s : State) (k v : Nat) : (s.setNum k v).tables = s.tables := rfl
@[simp] theorem State.setNum_lookups (s : State) (k v : Nat) : (s.setNum k v).lookups = s.lookups := rfl
@[simp] theorem State.setNum_update (s : State) (k v : Nat) : (s.setNum k v).update = s.update := rfl
@[simp] theorem State.setNum_arith (s : State) (k v : Nat) : (s.setNum k v).arith = s.arith := rfl
@[simp] theorem State.setNum_free (s : State) (k v : Nat) : (s.setNum k v).free = s.free := rfl
@[simp] theorem State.setNum_out (s : State) (k v : Nat) : (s.setNum k v).out = s.out := rfl
@[simp] theorem State.setNum_pending (s : State) (k v : Nat) : (s.setNum k v).pending = s.pending := rfl

@[simp] theorem State.setFlag_now (s : State) (k : Nat) (b : Bool) : (s.setFlag k b).now = s.now := rfl
@[simp] theorem State.setFlag_net (s : State) (k : Nat) (b : Bool) : (s.setFlag k b).net = s.net := rfl
@[simp] theorem State.setFlag_clocks (s : State) (k : Nat) (b : Bool) : (s.setFlag k b).clocks = s.clocks := rfl
@[simp] theorem State.setFlag_epochs (s : State) (k : Nat) (b : Bool) : (s.setFlag k b).epochs = s.epochs := rfl
@[simp] theorem State.setFlag_queues (s : State) (k : Nat) (b : Bool) : (s.setFlag k b).queues = s.queues := rfl
@[simp] theorem State.setFlag_cmds (s : State) (k : Nat) (b : Bool) : (s.setFlag k b).cmds = s.cmds := rfl
@[simp] theorem State.setFlag_nextCmd (s : State) (k : Nat) (b : Bool) : (s.setFlag k b).nextCmd = s.nextCmd := rfl
@[simp] theorem State.setFlag_engines (s : State) (k : Nat) (b : Bool) : (s.setFlag k b).engines = s.engines := rfl
@[simp] theorem State.setFlag_fences (s : State) (k : Nat) (b : Bool) : (s.setFlag k b).fences = s.fences := rfl
@[simp] theorem State.setFlag_xlat (s : State) (k : Nat) (b : Bool) : (s.setFlag k b).xlat = s.xlat := rfl
@[simp] theorem State.setFlag_mem (s : State) (k : Nat) (b : Bool) : (s.setFlag k b).mem = s.mem := rfl
@[simp] theorem State.setFlag_streams (s : State) (k : Nat) (b : Bool) : (s.setFlag k b).streams = s.streams := rfl
@[simp] theorem State.setFlag_integ (s : State) (k : Nat) (b : Bool) : (s.setFlag k b).integ = s.integ := rfl
@[simp] theorem State.setFlag_fabric (s : State) (k : Nat) (b : Bool) : (s.setFlag k b).fabric = s.fabric := rfl
@[simp] theorem State.setFlag_host (s : State) (k : Nat) (b : Bool) : (s.setFlag k b).host = s.host := rfl
@[simp] theorem State.setFlag_mailbox (s : State) (k : Nat) (b : Bool) : (s.setFlag k b).mailbox = s.mailbox := rfl
@[simp] theorem State.setFlag_power (s : State) (k : Nat) (b : Bool) : (s.setFlag k b).power = s.power := rfl
@[simp] theorem State.setFlag_pins (s : State) (k : Nat) (b : Bool) : (s.setFlag k b).pins = s.pins := rfl
@[simp] theorem State.setFlag_startup (s : State) (k : Nat) (b : Bool) : (s.setFlag k b).startup = s.startup := rfl
@[simp] theorem State.setFlag_spdm (s : State) (k : Nat) (b : Bool) : (s.setFlag k b).spdm = s.spdm := rfl
@[simp] theorem State.setFlag_tables (s : State) (k : Nat) (b : Bool) : (s.setFlag k b).tables = s.tables := rfl
@[simp] theorem State.setFlag_lookups (s : State) (k : Nat) (b : Bool) : (s.setFlag k b).lookups = s.lookups := rfl
@[simp] theorem State.setFlag_update (s : State) (k : Nat) (b : Bool) : (s.setFlag k b).update = s.update := rfl
@[simp] theorem State.setFlag_arith (s : State) (k : Nat) (b : Bool) : (s.setFlag k b).arith = s.arith := rfl
@[simp] theorem State.setFlag_free (s : State) (k : Nat) (b : Bool) : (s.setFlag k b).free = s.free := rfl
@[simp] theorem State.setFlag_out (s : State) (k : Nat) (b : Bool) : (s.setFlag k b).out = s.out := rfl
@[simp] theorem State.setFlag_pending (s : State) (k : Nat) (b : Bool) : (s.setFlag k b).pending = s.pending := rfl

@[simp] theorem State.setBlob_now (s : State) (k : Nat) (v : Bytes) : (s.setBlob k v).now = s.now := rfl
@[simp] theorem State.setBlob_net (s : State) (k : Nat) (v : Bytes) : (s.setBlob k v).net = s.net := rfl
@[simp] theorem State.setBlob_clocks (s : State) (k : Nat) (v : Bytes) : (s.setBlob k v).clocks = s.clocks := rfl
@[simp] theorem State.setBlob_epochs (s : State) (k : Nat) (v : Bytes) : (s.setBlob k v).epochs = s.epochs := rfl
@[simp] theorem State.setBlob_queues (s : State) (k : Nat) (v : Bytes) : (s.setBlob k v).queues = s.queues := rfl
@[simp] theorem State.setBlob_cmds (s : State) (k : Nat) (v : Bytes) : (s.setBlob k v).cmds = s.cmds := rfl
@[simp] theorem State.setBlob_nextCmd (s : State) (k : Nat) (v : Bytes) : (s.setBlob k v).nextCmd = s.nextCmd := rfl
@[simp] theorem State.setBlob_engines (s : State) (k : Nat) (v : Bytes) : (s.setBlob k v).engines = s.engines := rfl
@[simp] theorem State.setBlob_fences (s : State) (k : Nat) (v : Bytes) : (s.setBlob k v).fences = s.fences := rfl
@[simp] theorem State.setBlob_xlat (s : State) (k : Nat) (v : Bytes) : (s.setBlob k v).xlat = s.xlat := rfl
@[simp] theorem State.setBlob_mem (s : State) (k : Nat) (v : Bytes) : (s.setBlob k v).mem = s.mem := rfl
@[simp] theorem State.setBlob_streams (s : State) (k : Nat) (v : Bytes) : (s.setBlob k v).streams = s.streams := rfl
@[simp] theorem State.setBlob_integ (s : State) (k : Nat) (v : Bytes) : (s.setBlob k v).integ = s.integ := rfl
@[simp] theorem State.setBlob_fabric (s : State) (k : Nat) (v : Bytes) : (s.setBlob k v).fabric = s.fabric := rfl
@[simp] theorem State.setBlob_host (s : State) (k : Nat) (v : Bytes) : (s.setBlob k v).host = s.host := rfl
@[simp] theorem State.setBlob_mailbox (s : State) (k : Nat) (v : Bytes) : (s.setBlob k v).mailbox = s.mailbox := rfl
@[simp] theorem State.setBlob_power (s : State) (k : Nat) (v : Bytes) : (s.setBlob k v).power = s.power := rfl
@[simp] theorem State.setBlob_pins (s : State) (k : Nat) (v : Bytes) : (s.setBlob k v).pins = s.pins := rfl
@[simp] theorem State.setBlob_startup (s : State) (k : Nat) (v : Bytes) : (s.setBlob k v).startup = s.startup := rfl
@[simp] theorem State.setBlob_spdm (s : State) (k : Nat) (v : Bytes) : (s.setBlob k v).spdm = s.spdm := rfl
@[simp] theorem State.setBlob_tables (s : State) (k : Nat) (v : Bytes) : (s.setBlob k v).tables = s.tables := rfl
@[simp] theorem State.setBlob_lookups (s : State) (k : Nat) (v : Bytes) : (s.setBlob k v).lookups = s.lookups := rfl
@[simp] theorem State.setBlob_update (s : State) (k : Nat) (v : Bytes) : (s.setBlob k v).update = s.update := rfl
@[simp] theorem State.setBlob_arith (s : State) (k : Nat) (v : Bytes) : (s.setBlob k v).arith = s.arith := rfl
@[simp] theorem State.setBlob_free (s : State) (k : Nat) (v : Bytes) : (s.setBlob k v).free = s.free := rfl
@[simp] theorem State.setBlob_out (s : State) (k : Nat) (v : Bytes) : (s.setBlob k v).out = s.out := rfl
@[simp] theorem State.setBlob_pending (s : State) (k : Nat) (v : Bytes) : (s.setBlob k v).pending = s.pending := rfl

@[simp] theorem State.bump_now (s : State) (k n : Nat) : (s.bump k n).now = s.now := rfl
@[simp] theorem State.bump_net (s : State) (k n : Nat) : (s.bump k n).net = s.net := rfl
@[simp] theorem State.bump_clocks (s : State) (k n : Nat) : (s.bump k n).clocks = s.clocks := rfl
@[simp] theorem State.bump_epochs (s : State) (k n : Nat) : (s.bump k n).epochs = s.epochs := rfl
@[simp] theorem State.bump_queues (s : State) (k n : Nat) : (s.bump k n).queues = s.queues := rfl
@[simp] theorem State.bump_cmds (s : State) (k n : Nat) : (s.bump k n).cmds = s.cmds := rfl
@[simp] theorem State.bump_nextCmd (s : State) (k n : Nat) : (s.bump k n).nextCmd = s.nextCmd := rfl
@[simp] theorem State.bump_engines (s : State) (k n : Nat) : (s.bump k n).engines = s.engines := rfl
@[simp] theorem State.bump_fences (s : State) (k n : Nat) : (s.bump k n).fences = s.fences := rfl
@[simp] theorem State.bump_xlat (s : State) (k n : Nat) : (s.bump k n).xlat = s.xlat := rfl
@[simp] theorem State.bump_mem (s : State) (k n : Nat) : (s.bump k n).mem = s.mem := rfl
@[simp] theorem State.bump_streams (s : State) (k n : Nat) : (s.bump k n).streams = s.streams := rfl
@[simp] theorem State.bump_integ (s : State) (k n : Nat) : (s.bump k n).integ = s.integ := rfl
@[simp] theorem State.bump_fabric (s : State) (k n : Nat) : (s.bump k n).fabric = s.fabric := rfl
@[simp] theorem State.bump_host (s : State) (k n : Nat) : (s.bump k n).host = s.host := rfl
@[simp] theorem State.bump_mailbox (s : State) (k n : Nat) : (s.bump k n).mailbox = s.mailbox := rfl
@[simp] theorem State.bump_power (s : State) (k n : Nat) : (s.bump k n).power = s.power := rfl
@[simp] theorem State.bump_pins (s : State) (k n : Nat) : (s.bump k n).pins = s.pins := rfl
@[simp] theorem State.bump_startup (s : State) (k n : Nat) : (s.bump k n).startup = s.startup := rfl
@[simp] theorem State.bump_spdm (s : State) (k n : Nat) : (s.bump k n).spdm = s.spdm := rfl
@[simp] theorem State.bump_tables (s : State) (k n : Nat) : (s.bump k n).tables = s.tables := rfl
@[simp] theorem State.bump_lookups (s : State) (k n : Nat) : (s.bump k n).lookups = s.lookups := rfl
@[simp] theorem State.bump_update (s : State) (k n : Nat) : (s.bump k n).update = s.update := rfl
@[simp] theorem State.bump_arith (s : State) (k n : Nat) : (s.bump k n).arith = s.arith := rfl
@[simp] theorem State.bump_free (s : State) (k n : Nat) : (s.bump k n).free = s.free := rfl
@[simp] theorem State.bump_out (s : State) (k n : Nat) : (s.bump k n).out = s.out := rfl
@[simp] theorem State.bump_pending (s : State) (k n : Nat) : (s.bump k n).pending = s.pending := rfl

@[simp] theorem State.clearNums_now (s : State) (lo hi : Nat) : (s.clearNums lo hi).now = s.now := rfl
@[simp] theorem State.clearNums_net (s : State) (lo hi : Nat) : (s.clearNums lo hi).net = s.net := rfl
@[simp] theorem State.clearNums_clocks (s : State) (lo hi : Nat) : (s.clearNums lo hi).clocks = s.clocks := rfl
@[simp] theorem State.clearNums_epochs (s : State) (lo hi : Nat) : (s.clearNums lo hi).epochs = s.epochs := rfl
@[simp] theorem State.clearNums_queues (s : State) (lo hi : Nat) : (s.clearNums lo hi).queues = s.queues := rfl
@[simp] theorem State.clearNums_cmds (s : State) (lo hi : Nat) : (s.clearNums lo hi).cmds = s.cmds := rfl
@[simp] theorem State.clearNums_nextCmd (s : State) (lo hi : Nat) : (s.clearNums lo hi).nextCmd = s.nextCmd := rfl
@[simp] theorem State.clearNums_engines (s : State) (lo hi : Nat) : (s.clearNums lo hi).engines = s.engines := rfl
@[simp] theorem State.clearNums_fences (s : State) (lo hi : Nat) : (s.clearNums lo hi).fences = s.fences := rfl
@[simp] theorem State.clearNums_xlat (s : State) (lo hi : Nat) : (s.clearNums lo hi).xlat = s.xlat := rfl
@[simp] theorem State.clearNums_mem (s : State) (lo hi : Nat) : (s.clearNums lo hi).mem = s.mem := rfl
@[simp] theorem State.clearNums_streams (s : State) (lo hi : Nat) : (s.clearNums lo hi).streams = s.streams := rfl
@[simp] theorem State.clearNums_integ (s : State) (lo hi : Nat) : (s.clearNums lo hi).integ = s.integ := rfl
@[simp] theorem State.clearNums_fabric (s : State) (lo hi : Nat) : (s.clearNums lo hi).fabric = s.fabric := rfl
@[simp] theorem State.clearNums_host (s : State) (lo hi : Nat) : (s.clearNums lo hi).host = s.host := rfl
@[simp] theorem State.clearNums_mailbox (s : State) (lo hi : Nat) : (s.clearNums lo hi).mailbox = s.mailbox := rfl
@[simp] theorem State.clearNums_power (s : State) (lo hi : Nat) : (s.clearNums lo hi).power = s.power := rfl
@[simp] theorem State.clearNums_pins (s : State) (lo hi : Nat) : (s.clearNums lo hi).pins = s.pins := rfl
@[simp] theorem State.clearNums_startup (s : State) (lo hi : Nat) : (s.clearNums lo hi).startup = s.startup := rfl
@[simp] theorem State.clearNums_spdm (s : State) (lo hi : Nat) : (s.clearNums lo hi).spdm = s.spdm := rfl
@[simp] theorem State.clearNums_tables (s : State) (lo hi : Nat) : (s.clearNums lo hi).tables = s.tables := rfl
@[simp] theorem State.clearNums_lookups (s : State) (lo hi : Nat) : (s.clearNums lo hi).lookups = s.lookups := rfl
@[simp] theorem State.clearNums_update (s : State) (lo hi : Nat) : (s.clearNums lo hi).update = s.update := rfl
@[simp] theorem State.clearNums_arith (s : State) (lo hi : Nat) : (s.clearNums lo hi).arith = s.arith := rfl
@[simp] theorem State.clearNums_free (s : State) (lo hi : Nat) : (s.clearNums lo hi).free = s.free := rfl
@[simp] theorem State.clearNums_out (s : State) (lo hi : Nat) : (s.clearNums lo hi).out = s.out := rfl
@[simp] theorem State.clearNums_pending (s : State) (lo hi : Nat) : (s.clearNums lo hi).pending = s.pending := rfl

@[simp] theorem State.durable_now (s : State) (old : State) : (s.durable old).now = s.now := rfl
@[simp] theorem State.durable_clocks (s : State) (old : State) : (s.durable old).clocks = s.clocks := rfl
@[simp] theorem State.durable_epochs (s : State) (old : State) : (s.durable old).epochs = s.epochs := rfl
@[simp] theorem State.durable_queues (s : State) (old : State) : (s.durable old).queues = s.queues := rfl
@[simp] theorem State.durable_cmds (s : State) (old : State) : (s.durable old).cmds = s.cmds := rfl
@[simp] theorem State.durable_nextCmd (s : State) (old : State) : (s.durable old).nextCmd = s.nextCmd := rfl
@[simp] theorem State.durable_engines (s : State) (old : State) : (s.durable old).engines = s.engines := rfl
@[simp] theorem State.durable_fences (s : State) (old : State) : (s.durable old).fences = s.fences := rfl
@[simp] theorem State.durable_xlat (s : State) (old : State) : (s.durable old).xlat = s.xlat := rfl
@[simp] theorem State.durable_mem (s : State) (old : State) : (s.durable old).mem = s.mem := rfl
@[simp] theorem State.durable_streams (s : State) (old : State) : (s.durable old).streams = s.streams := rfl
@[simp] theorem State.durable_integ (s : State) (old : State) : (s.durable old).integ = s.integ := rfl
@[simp] theorem State.durable_fabric (s : State) (old : State) : (s.durable old).fabric = s.fabric := rfl
@[simp] theorem State.durable_host (s : State) (old : State) : (s.durable old).host = s.host := rfl
@[simp] theorem State.durable_mailbox (s : State) (old : State) : (s.durable old).mailbox = s.mailbox := rfl
@[simp] theorem State.durable_power (s : State) (old : State) : (s.durable old).power = s.power := rfl
@[simp] theorem State.durable_pins (s : State) (old : State) : (s.durable old).pins = s.pins := rfl
@[simp] theorem State.durable_startup (s : State) (old : State) : (s.durable old).startup = s.startup := rfl
@[simp] theorem State.durable_spdm (s : State) (old : State) : (s.durable old).spdm = s.spdm := rfl
@[simp] theorem State.durable_tables (s : State) (old : State) : (s.durable old).tables = s.tables := rfl
@[simp] theorem State.durable_lookups (s : State) (old : State) : (s.durable old).lookups = s.lookups := rfl
@[simp] theorem State.durable_update (s : State) (old : State) : (s.durable old).update = s.update := rfl
@[simp] theorem State.durable_arith (s : State) (old : State) : (s.durable old).arith = s.arith := rfl
@[simp] theorem State.durable_free (s : State) (old : State) : (s.durable old).free = s.free := rfl
@[simp] theorem State.durable_out (s : State) (old : State) : (s.durable old).out = s.out := rfl
@[simp] theorem State.durable_pending (s : State) (old : State) : (s.durable old).pending = s.pending := rfl

@[simp] theorem State.emit_now (s : State) (o : Output) : (s.emit o).now = s.now := rfl
@[simp] theorem State.emit_dict (s : State) (o : Output) : (s.emit o).dict = s.dict := rfl
@[simp] theorem State.emit_net (s : State) (o : Output) : (s.emit o).net = s.net := rfl
@[simp] theorem State.emit_clocks (s : State) (o : Output) : (s.emit o).clocks = s.clocks := rfl
@[simp] theorem State.emit_epochs (s : State) (o : Output) : (s.emit o).epochs = s.epochs := rfl
@[simp] theorem State.emit_queues (s : State) (o : Output) : (s.emit o).queues = s.queues := rfl
@[simp] theorem State.emit_cmds (s : State) (o : Output) : (s.emit o).cmds = s.cmds := rfl
@[simp] theorem State.emit_nextCmd (s : State) (o : Output) : (s.emit o).nextCmd = s.nextCmd := rfl
@[simp] theorem State.emit_engines (s : State) (o : Output) : (s.emit o).engines = s.engines := rfl
@[simp] theorem State.emit_fences (s : State) (o : Output) : (s.emit o).fences = s.fences := rfl
@[simp] theorem State.emit_xlat (s : State) (o : Output) : (s.emit o).xlat = s.xlat := rfl
@[simp] theorem State.emit_mem (s : State) (o : Output) : (s.emit o).mem = s.mem := rfl
@[simp] theorem State.emit_streams (s : State) (o : Output) : (s.emit o).streams = s.streams := rfl
@[simp] theorem State.emit_integ (s : State) (o : Output) : (s.emit o).integ = s.integ := rfl
@[simp] theorem State.emit_fabric (s : State) (o : Output) : (s.emit o).fabric = s.fabric := rfl
@[simp] theorem State.emit_host (s : State) (o : Output) : (s.emit o).host = s.host := rfl
@[simp] theorem State.emit_mailbox (s : State) (o : Output) : (s.emit o).mailbox = s.mailbox := rfl
@[simp] theorem State.emit_power (s : State) (o : Output) : (s.emit o).power = s.power := rfl
@[simp] theorem State.emit_pins (s : State) (o : Output) : (s.emit o).pins = s.pins := rfl
@[simp] theorem State.emit_startup (s : State) (o : Output) : (s.emit o).startup = s.startup := rfl
@[simp] theorem State.emit_spdm (s : State) (o : Output) : (s.emit o).spdm = s.spdm := rfl
@[simp] theorem State.emit_tables (s : State) (o : Output) : (s.emit o).tables = s.tables := rfl
@[simp] theorem State.emit_lookups (s : State) (o : Output) : (s.emit o).lookups = s.lookups := rfl
@[simp] theorem State.emit_update (s : State) (o : Output) : (s.emit o).update = s.update := rfl
@[simp] theorem State.emit_arith (s : State) (o : Output) : (s.emit o).arith = s.arith := rfl
@[simp] theorem State.emit_free (s : State) (o : Output) : (s.emit o).free = s.free := rfl
@[simp] theorem State.emit_pending (s : State) (o : Output) : (s.emit o).pending = s.pending := rfl

@[simp] theorem State.raise_now (s : State) (v : Nat) : (s.raise v).now = s.now := rfl
@[simp] theorem State.raise_dict (s : State) (v : Nat) : (s.raise v).dict = s.dict := rfl
@[simp] theorem State.raise_net (s : State) (v : Nat) : (s.raise v).net = s.net := rfl
@[simp] theorem State.raise_clocks (s : State) (v : Nat) : (s.raise v).clocks = s.clocks := rfl
@[simp] theorem State.raise_epochs (s : State) (v : Nat) : (s.raise v).epochs = s.epochs := rfl
@[simp] theorem State.raise_queues (s : State) (v : Nat) : (s.raise v).queues = s.queues := rfl
@[simp] theorem State.raise_cmds (s : State) (v : Nat) : (s.raise v).cmds = s.cmds := rfl
@[simp] theorem State.raise_nextCmd (s : State) (v : Nat) : (s.raise v).nextCmd = s.nextCmd := rfl
@[simp] theorem State.raise_engines (s : State) (v : Nat) : (s.raise v).engines = s.engines := rfl
@[simp] theorem State.raise_fences (s : State) (v : Nat) : (s.raise v).fences = s.fences := rfl
@[simp] theorem State.raise_xlat (s : State) (v : Nat) : (s.raise v).xlat = s.xlat := rfl
@[simp] theorem State.raise_mem (s : State) (v : Nat) : (s.raise v).mem = s.mem := rfl
@[simp] theorem State.raise_streams (s : State) (v : Nat) : (s.raise v).streams = s.streams := rfl
@[simp] theorem State.raise_integ (s : State) (v : Nat) : (s.raise v).integ = s.integ := rfl
@[simp] theorem State.raise_fabric (s : State) (v : Nat) : (s.raise v).fabric = s.fabric := rfl
@[simp] theorem State.raise_mailbox (s : State) (v : Nat) : (s.raise v).mailbox = s.mailbox := rfl
@[simp] theorem State.raise_power (s : State) (v : Nat) : (s.raise v).power = s.power := rfl
@[simp] theorem State.raise_pins (s : State) (v : Nat) : (s.raise v).pins = s.pins := rfl
@[simp] theorem State.raise_startup (s : State) (v : Nat) : (s.raise v).startup = s.startup := rfl
@[simp] theorem State.raise_spdm (s : State) (v : Nat) : (s.raise v).spdm = s.spdm := rfl
@[simp] theorem State.raise_tables (s : State) (v : Nat) : (s.raise v).tables = s.tables := rfl
@[simp] theorem State.raise_lookups (s : State) (v : Nat) : (s.raise v).lookups = s.lookups := rfl
@[simp] theorem State.raise_update (s : State) (v : Nat) : (s.raise v).update = s.update := rfl
@[simp] theorem State.raise_arith (s : State) (v : Nat) : (s.raise v).arith = s.arith := rfl
@[simp] theorem State.raise_free (s : State) (v : Nat) : (s.raise v).free = s.free := rfl
@[simp] theorem State.raise_out (s : State) (v : Nat) : (s.raise v).out = s.out := rfl
@[simp] theorem State.raise_pending (s : State) (v : Nat) : (s.raise v).pending = s.pending := rfl

@[simp] theorem State.setEngine_now (s : State) (u : UnitId) (e : Engine) : (s.setEngine u e).now = s.now := rfl
@[simp] theorem State.setEngine_dict (s : State) (u : UnitId) (e : Engine) : (s.setEngine u e).dict = s.dict := rfl
@[simp] theorem State.setEngine_net (s : State) (u : UnitId) (e : Engine) : (s.setEngine u e).net = s.net := rfl
@[simp] theorem State.setEngine_clocks (s : State) (u : UnitId) (e : Engine) : (s.setEngine u e).clocks = s.clocks := rfl
@[simp] theorem State.setEngine_epochs (s : State) (u : UnitId) (e : Engine) : (s.setEngine u e).epochs = s.epochs := rfl
@[simp] theorem State.setEngine_queues (s : State) (u : UnitId) (e : Engine) : (s.setEngine u e).queues = s.queues := rfl
@[simp] theorem State.setEngine_cmds (s : State) (u : UnitId) (e : Engine) : (s.setEngine u e).cmds = s.cmds := rfl
@[simp] theorem State.setEngine_nextCmd (s : State) (u : UnitId) (e : Engine) : (s.setEngine u e).nextCmd = s.nextCmd := rfl
@[simp] theorem State.setEngine_fences (s : State) (u : UnitId) (e : Engine) : (s.setEngine u e).fences = s.fences := rfl
@[simp] theorem State.setEngine_xlat (s : State) (u : UnitId) (e : Engine) : (s.setEngine u e).xlat = s.xlat := rfl
@[simp] theorem State.setEngine_mem (s : State) (u : UnitId) (e : Engine) : (s.setEngine u e).mem = s.mem := rfl
@[simp] theorem State.setEngine_streams (s : State) (u : UnitId) (e : Engine) : (s.setEngine u e).streams = s.streams := rfl
@[simp] theorem State.setEngine_integ (s : State) (u : UnitId) (e : Engine) : (s.setEngine u e).integ = s.integ := rfl
@[simp] theorem State.setEngine_fabric (s : State) (u : UnitId) (e : Engine) : (s.setEngine u e).fabric = s.fabric := rfl
@[simp] theorem State.setEngine_host (s : State) (u : UnitId) (e : Engine) : (s.setEngine u e).host = s.host := rfl
@[simp] theorem State.setEngine_mailbox (s : State) (u : UnitId) (e : Engine) : (s.setEngine u e).mailbox = s.mailbox := rfl
@[simp] theorem State.setEngine_power (s : State) (u : UnitId) (e : Engine) : (s.setEngine u e).power = s.power := rfl
@[simp] theorem State.setEngine_pins (s : State) (u : UnitId) (e : Engine) : (s.setEngine u e).pins = s.pins := rfl
@[simp] theorem State.setEngine_startup (s : State) (u : UnitId) (e : Engine) : (s.setEngine u e).startup = s.startup := rfl
@[simp] theorem State.setEngine_spdm (s : State) (u : UnitId) (e : Engine) : (s.setEngine u e).spdm = s.spdm := rfl
@[simp] theorem State.setEngine_tables (s : State) (u : UnitId) (e : Engine) : (s.setEngine u e).tables = s.tables := rfl
@[simp] theorem State.setEngine_lookups (s : State) (u : UnitId) (e : Engine) : (s.setEngine u e).lookups = s.lookups := rfl
@[simp] theorem State.setEngine_update (s : State) (u : UnitId) (e : Engine) : (s.setEngine u e).update = s.update := rfl
@[simp] theorem State.setEngine_arith (s : State) (u : UnitId) (e : Engine) : (s.setEngine u e).arith = s.arith := rfl
@[simp] theorem State.setEngine_free (s : State) (u : UnitId) (e : Engine) : (s.setEngine u e).free = s.free := rfl
@[simp] theorem State.setEngine_out (s : State) (u : UnitId) (e : Engine) : (s.setEngine u e).out = s.out := rfl
@[simp] theorem State.setEngine_pending (s : State) (u : UnitId) (e : Engine) : (s.setEngine u e).pending = s.pending := rfl

@[simp] theorem State.setQueue_now (s : State) (q : Nat) (v : Queue) : (s.setQueue q v).now = s.now := rfl
@[simp] theorem State.setQueue_dict (s : State) (q : Nat) (v : Queue) : (s.setQueue q v).dict = s.dict := rfl
@[simp] theorem State.setQueue_net (s : State) (q : Nat) (v : Queue) : (s.setQueue q v).net = s.net := rfl
@[simp] theorem State.setQueue_clocks (s : State) (q : Nat) (v : Queue) : (s.setQueue q v).clocks = s.clocks := rfl
@[simp] theorem State.setQueue_epochs (s : State) (q : Nat) (v : Queue) : (s.setQueue q v).epochs = s.epochs := rfl
@[simp] theorem State.setQueue_cmds (s : State) (q : Nat) (v : Queue) : (s.setQueue q v).cmds = s.cmds := rfl
@[simp] theorem State.setQueue_nextCmd (s : State) (q : Nat) (v : Queue) : (s.setQueue q v).nextCmd = s.nextCmd := rfl
@[simp] theorem State.setQueue_engines (s : State) (q : Nat) (v : Queue) : (s.setQueue q v).engines = s.engines := rfl
@[simp] theorem State.setQueue_fences (s : State) (q : Nat) (v : Queue) : (s.setQueue q v).fences = s.fences := rfl
@[simp] theorem State.setQueue_xlat (s : State) (q : Nat) (v : Queue) : (s.setQueue q v).xlat = s.xlat := rfl
@[simp] theorem State.setQueue_mem (s : State) (q : Nat) (v : Queue) : (s.setQueue q v).mem = s.mem := rfl
@[simp] theorem State.setQueue_streams (s : State) (q : Nat) (v : Queue) : (s.setQueue q v).streams = s.streams := rfl
@[simp] theorem State.setQueue_integ (s : State) (q : Nat) (v : Queue) : (s.setQueue q v).integ = s.integ := rfl
@[simp] theorem State.setQueue_fabric (s : State) (q : Nat) (v : Queue) : (s.setQueue q v).fabric = s.fabric := rfl
@[simp] theorem State.setQueue_host (s : State) (q : Nat) (v : Queue) : (s.setQueue q v).host = s.host := rfl
@[simp] theorem State.setQueue_mailbox (s : State) (q : Nat) (v : Queue) : (s.setQueue q v).mailbox = s.mailbox := rfl
@[simp] theorem State.setQueue_power (s : State) (q : Nat) (v : Queue) : (s.setQueue q v).power = s.power := rfl
@[simp] theorem State.setQueue_pins (s : State) (q : Nat) (v : Queue) : (s.setQueue q v).pins = s.pins := rfl
@[simp] theorem State.setQueue_startup (s : State) (q : Nat) (v : Queue) : (s.setQueue q v).startup = s.startup := rfl
@[simp] theorem State.setQueue_spdm (s : State) (q : Nat) (v : Queue) : (s.setQueue q v).spdm = s.spdm := rfl
@[simp] theorem State.setQueue_tables (s : State) (q : Nat) (v : Queue) : (s.setQueue q v).tables = s.tables := rfl
@[simp] theorem State.setQueue_lookups (s : State) (q : Nat) (v : Queue) : (s.setQueue q v).lookups = s.lookups := rfl
@[simp] theorem State.setQueue_update (s : State) (q : Nat) (v : Queue) : (s.setQueue q v).update = s.update := rfl
@[simp] theorem State.setQueue_arith (s : State) (q : Nat) (v : Queue) : (s.setQueue q v).arith = s.arith := rfl
@[simp] theorem State.setQueue_free (s : State) (q : Nat) (v : Queue) : (s.setQueue q v).free = s.free := rfl
@[simp] theorem State.setQueue_out (s : State) (q : Nat) (v : Queue) : (s.setQueue q v).out = s.out := rfl
@[simp] theorem State.setQueue_pending (s : State) (q : Nat) (v : Queue) : (s.setQueue q v).pending = s.pending := rfl

@[simp] theorem State.setCore_now (s : State) (c : Nat) (v : CoreClock) : (s.setCore c v).now = s.now := rfl
@[simp] theorem State.setCore_dict (s : State) (c : Nat) (v : CoreClock) : (s.setCore c v).dict = s.dict := rfl
@[simp] theorem State.setCore_net (s : State) (c : Nat) (v : CoreClock) : (s.setCore c v).net = s.net := rfl
@[simp] theorem State.setCore_epochs (s : State) (c : Nat) (v : CoreClock) : (s.setCore c v).epochs = s.epochs := rfl
@[simp] theorem State.setCore_queues (s : State) (c : Nat) (v : CoreClock) : (s.setCore c v).queues = s.queues := rfl
@[simp] theorem State.setCore_cmds (s : State) (c : Nat) (v : CoreClock) : (s.setCore c v).cmds = s.cmds := rfl
@[simp] theorem State.setCore_nextCmd (s : State) (c : Nat) (v : CoreClock) : (s.setCore c v).nextCmd = s.nextCmd := rfl
@[simp] theorem State.setCore_engines (s : State) (c : Nat) (v : CoreClock) : (s.setCore c v).engines = s.engines := rfl
@[simp] theorem State.setCore_fences (s : State) (c : Nat) (v : CoreClock) : (s.setCore c v).fences = s.fences := rfl
@[simp] theorem State.setCore_xlat (s : State) (c : Nat) (v : CoreClock) : (s.setCore c v).xlat = s.xlat := rfl
@[simp] theorem State.setCore_mem (s : State) (c : Nat) (v : CoreClock) : (s.setCore c v).mem = s.mem := rfl
@[simp] theorem State.setCore_streams (s : State) (c : Nat) (v : CoreClock) : (s.setCore c v).streams = s.streams := rfl
@[simp] theorem State.setCore_integ (s : State) (c : Nat) (v : CoreClock) : (s.setCore c v).integ = s.integ := rfl
@[simp] theorem State.setCore_fabric (s : State) (c : Nat) (v : CoreClock) : (s.setCore c v).fabric = s.fabric := rfl
@[simp] theorem State.setCore_host (s : State) (c : Nat) (v : CoreClock) : (s.setCore c v).host = s.host := rfl
@[simp] theorem State.setCore_mailbox (s : State) (c : Nat) (v : CoreClock) : (s.setCore c v).mailbox = s.mailbox := rfl
@[simp] theorem State.setCore_power (s : State) (c : Nat) (v : CoreClock) : (s.setCore c v).power = s.power := rfl
@[simp] theorem State.setCore_pins (s : State) (c : Nat) (v : CoreClock) : (s.setCore c v).pins = s.pins := rfl
@[simp] theorem State.setCore_startup (s : State) (c : Nat) (v : CoreClock) : (s.setCore c v).startup = s.startup := rfl
@[simp] theorem State.setCore_spdm (s : State) (c : Nat) (v : CoreClock) : (s.setCore c v).spdm = s.spdm := rfl
@[simp] theorem State.setCore_tables (s : State) (c : Nat) (v : CoreClock) : (s.setCore c v).tables = s.tables := rfl
@[simp] theorem State.setCore_lookups (s : State) (c : Nat) (v : CoreClock) : (s.setCore c v).lookups = s.lookups := rfl
@[simp] theorem State.setCore_update (s : State) (c : Nat) (v : CoreClock) : (s.setCore c v).update = s.update := rfl
@[simp] theorem State.setCore_arith (s : State) (c : Nat) (v : CoreClock) : (s.setCore c v).arith = s.arith := rfl
@[simp] theorem State.setCore_free (s : State) (c : Nat) (v : CoreClock) : (s.setCore c v).free = s.free := rfl
@[simp] theorem State.setCore_out (s : State) (c : Nat) (v : CoreClock) : (s.setCore c v).out = s.out := rfl
@[simp] theorem State.setCore_pending (s : State) (c : Nat) (v : CoreClock) : (s.setCore c v).pending = s.pending := rfl

@[simp] theorem State.setTable_now (s : State) (n : Nat) (v : Table) : (s.setTable n v).now = s.now := rfl
@[simp] theorem State.setTable_dict (s : State) (n : Nat) (v : Table) : (s.setTable n v).dict = s.dict := rfl
@[simp] theorem State.setTable_net (s : State) (n : Nat) (v : Table) : (s.setTable n v).net = s.net := rfl
@[simp] theorem State.setTable_clocks (s : State) (n : Nat) (v : Table) : (s.setTable n v).clocks = s.clocks := rfl
@[simp] theorem State.setTable_epochs (s : State) (n : Nat) (v : Table) : (s.setTable n v).epochs = s.epochs := rfl
@[simp] theorem State.setTable_queues (s : State) (n : Nat) (v : Table) : (s.setTable n v).queues = s.queues := rfl
@[simp] theorem State.setTable_cmds (s : State) (n : Nat) (v : Table) : (s.setTable n v).cmds = s.cmds := rfl
@[simp] theorem State.setTable_nextCmd (s : State) (n : Nat) (v : Table) : (s.setTable n v).nextCmd = s.nextCmd := rfl
@[simp] theorem State.setTable_engines (s : State) (n : Nat) (v : Table) : (s.setTable n v).engines = s.engines := rfl
@[simp] theorem State.setTable_fences (s : State) (n : Nat) (v : Table) : (s.setTable n v).fences = s.fences := rfl
@[simp] theorem State.setTable_xlat (s : State) (n : Nat) (v : Table) : (s.setTable n v).xlat = s.xlat := rfl
@[simp] theorem State.setTable_mem (s : State) (n : Nat) (v : Table) : (s.setTable n v).mem = s.mem := rfl
@[simp] theorem State.setTable_streams (s : State) (n : Nat) (v : Table) : (s.setTable n v).streams = s.streams := rfl
@[simp] theorem State.setTable_integ (s : State) (n : Nat) (v : Table) : (s.setTable n v).integ = s.integ := rfl
@[simp] theorem State.setTable_fabric (s : State) (n : Nat) (v : Table) : (s.setTable n v).fabric = s.fabric := rfl
@[simp] theorem State.setTable_host (s : State) (n : Nat) (v : Table) : (s.setTable n v).host = s.host := rfl
@[simp] theorem State.setTable_mailbox (s : State) (n : Nat) (v : Table) : (s.setTable n v).mailbox = s.mailbox := rfl
@[simp] theorem State.setTable_power (s : State) (n : Nat) (v : Table) : (s.setTable n v).power = s.power := rfl
@[simp] theorem State.setTable_pins (s : State) (n : Nat) (v : Table) : (s.setTable n v).pins = s.pins := rfl
@[simp] theorem State.setTable_startup (s : State) (n : Nat) (v : Table) : (s.setTable n v).startup = s.startup := rfl
@[simp] theorem State.setTable_spdm (s : State) (n : Nat) (v : Table) : (s.setTable n v).spdm = s.spdm := rfl
@[simp] theorem State.setTable_lookups (s : State) (n : Nat) (v : Table) : (s.setTable n v).lookups = s.lookups := rfl
@[simp] theorem State.setTable_update (s : State) (n : Nat) (v : Table) : (s.setTable n v).update = s.update := rfl
@[simp] theorem State.setTable_arith (s : State) (n : Nat) (v : Table) : (s.setTable n v).arith = s.arith := rfl
@[simp] theorem State.setTable_free (s : State) (n : Nat) (v : Table) : (s.setTable n v).free = s.free := rfl
@[simp] theorem State.setTable_out (s : State) (n : Nat) (v : Table) : (s.setTable n v).out = s.out := rfl
@[simp] theorem State.setTable_pending (s : State) (n : Nat) (v : Table) : (s.setTable n v).pending = s.pending := rfl

@[simp] theorem State.setStreamSlot_now (s : State) (c i : Nat) (v : StreamSlot) : (s.setStreamSlot c i v).now = s.now := rfl
@[simp] theorem State.setStreamSlot_dict (s : State) (c i : Nat) (v : StreamSlot) : (s.setStreamSlot c i v).dict = s.dict := rfl
@[simp] theorem State.setStreamSlot_net (s : State) (c i : Nat) (v : StreamSlot) : (s.setStreamSlot c i v).net = s.net := rfl
@[simp] theorem State.setStreamSlot_clocks (s : State) (c i : Nat) (v : StreamSlot) : (s.setStreamSlot c i v).clocks = s.clocks := rfl
@[simp] theorem State.setStreamSlot_epochs (s : State) (c i : Nat) (v : StreamSlot) : (s.setStreamSlot c i v).epochs = s.epochs := rfl
@[simp] theorem State.setStreamSlot_queues (s : State) (c i : Nat) (v : StreamSlot) : (s.setStreamSlot c i v).queues = s.queues := rfl
@[simp] theorem State.setStreamSlot_cmds (s : State) (c i : Nat) (v : StreamSlot) : (s.setStreamSlot c i v).cmds = s.cmds := rfl
@[simp] theorem State.setStreamSlot_nextCmd (s : State) (c i : Nat) (v : StreamSlot) : (s.setStreamSlot c i v).nextCmd = s.nextCmd := rfl
@[simp] theorem State.setStreamSlot_engines (s : State) (c i : Nat) (v : StreamSlot) : (s.setStreamSlot c i v).engines = s.engines := rfl
@[simp] theorem State.setStreamSlot_fences (s : State) (c i : Nat) (v : StreamSlot) : (s.setStreamSlot c i v).fences = s.fences := rfl
@[simp] theorem State.setStreamSlot_xlat (s : State) (c i : Nat) (v : StreamSlot) : (s.setStreamSlot c i v).xlat = s.xlat := rfl
@[simp] theorem State.setStreamSlot_mem (s : State) (c i : Nat) (v : StreamSlot) : (s.setStreamSlot c i v).mem = s.mem := rfl
@[simp] theorem State.setStreamSlot_integ (s : State) (c i : Nat) (v : StreamSlot) : (s.setStreamSlot c i v).integ = s.integ := rfl
@[simp] theorem State.setStreamSlot_fabric (s : State) (c i : Nat) (v : StreamSlot) : (s.setStreamSlot c i v).fabric = s.fabric := rfl
@[simp] theorem State.setStreamSlot_host (s : State) (c i : Nat) (v : StreamSlot) : (s.setStreamSlot c i v).host = s.host := rfl
@[simp] theorem State.setStreamSlot_mailbox (s : State) (c i : Nat) (v : StreamSlot) : (s.setStreamSlot c i v).mailbox = s.mailbox := rfl
@[simp] theorem State.setStreamSlot_power (s : State) (c i : Nat) (v : StreamSlot) : (s.setStreamSlot c i v).power = s.power := rfl
@[simp] theorem State.setStreamSlot_pins (s : State) (c i : Nat) (v : StreamSlot) : (s.setStreamSlot c i v).pins = s.pins := rfl
@[simp] theorem State.setStreamSlot_startup (s : State) (c i : Nat) (v : StreamSlot) : (s.setStreamSlot c i v).startup = s.startup := rfl
@[simp] theorem State.setStreamSlot_spdm (s : State) (c i : Nat) (v : StreamSlot) : (s.setStreamSlot c i v).spdm = s.spdm := rfl
@[simp] theorem State.setStreamSlot_tables (s : State) (c i : Nat) (v : StreamSlot) : (s.setStreamSlot c i v).tables = s.tables := rfl
@[simp] theorem State.setStreamSlot_lookups (s : State) (c i : Nat) (v : StreamSlot) : (s.setStreamSlot c i v).lookups = s.lookups := rfl
@[simp] theorem State.setStreamSlot_update (s : State) (c i : Nat) (v : StreamSlot) : (s.setStreamSlot c i v).update = s.update := rfl
@[simp] theorem State.setStreamSlot_arith (s : State) (c i : Nat) (v : StreamSlot) : (s.setStreamSlot c i v).arith = s.arith := rfl
@[simp] theorem State.setStreamSlot_free (s : State) (c i : Nat) (v : StreamSlot) : (s.setStreamSlot c i v).free = s.free := rfl
@[simp] theorem State.setStreamSlot_out (s : State) (c i : Nat) (v : StreamSlot) : (s.setStreamSlot c i v).out = s.out := rfl
@[simp] theorem State.setStreamSlot_pending (s : State) (c i : Nat) (v : StreamSlot) : (s.setStreamSlot c i v).pending = s.pending := rfl

@[simp] theorem State.setChannel_now (s : State) (c : Nat) (v : Channel) : (s.setChannel c v).now = s.now := rfl
@[simp] theorem State.setChannel_dict (s : State) (c : Nat) (v : Channel) : (s.setChannel c v).dict = s.dict := rfl
@[simp] theorem State.setChannel_net (s : State) (c : Nat) (v : Channel) : (s.setChannel c v).net = s.net := rfl
@[simp] theorem State.setChannel_clocks (s : State) (c : Nat) (v : Channel) : (s.setChannel c v).clocks = s.clocks := rfl
@[simp] theorem State.setChannel_epochs (s : State) (c : Nat) (v : Channel) : (s.setChannel c v).epochs = s.epochs := rfl
@[simp] theorem State.setChannel_queues (s : State) (c : Nat) (v : Channel) : (s.setChannel c v).queues = s.queues := rfl
@[simp] theorem State.setChannel_cmds (s : State) (c : Nat) (v : Channel) : (s.setChannel c v).cmds = s.cmds := rfl
@[simp] theorem State.setChannel_nextCmd (s : State) (c : Nat) (v : Channel) : (s.setChannel c v).nextCmd = s.nextCmd := rfl
@[simp] theorem State.setChannel_engines (s : State) (c : Nat) (v : Channel) : (s.setChannel c v).engines = s.engines := rfl
@[simp] theorem State.setChannel_fences (s : State) (c : Nat) (v : Channel) : (s.setChannel c v).fences = s.fences := rfl
@[simp] theorem State.setChannel_xlat (s : State) (c : Nat) (v : Channel) : (s.setChannel c v).xlat = s.xlat := rfl
@[simp] theorem State.setChannel_mem (s : State) (c : Nat) (v : Channel) : (s.setChannel c v).mem = s.mem := rfl
@[simp] theorem State.setChannel_streams (s : State) (c : Nat) (v : Channel) : (s.setChannel c v).streams = s.streams := rfl
@[simp] theorem State.setChannel_integ (s : State) (c : Nat) (v : Channel) : (s.setChannel c v).integ = s.integ := rfl
@[simp] theorem State.setChannel_host (s : State) (c : Nat) (v : Channel) : (s.setChannel c v).host = s.host := rfl
@[simp] theorem State.setChannel_mailbox (s : State) (c : Nat) (v : Channel) : (s.setChannel c v).mailbox = s.mailbox := rfl
@[simp] theorem State.setChannel_power (s : State) (c : Nat) (v : Channel) : (s.setChannel c v).power = s.power := rfl
@[simp] theorem State.setChannel_pins (s : State) (c : Nat) (v : Channel) : (s.setChannel c v).pins = s.pins := rfl
@[simp] theorem State.setChannel_startup (s : State) (c : Nat) (v : Channel) : (s.setChannel c v).startup = s.startup := rfl
@[simp] theorem State.setChannel_spdm (s : State) (c : Nat) (v : Channel) : (s.setChannel c v).spdm = s.spdm := rfl
@[simp] theorem State.setChannel_tables (s : State) (c : Nat) (v : Channel) : (s.setChannel c v).tables = s.tables := rfl
@[simp] theorem State.setChannel_lookups (s : State) (c : Nat) (v : Channel) : (s.setChannel c v).lookups = s.lookups := rfl
@[simp] theorem State.setChannel_update (s : State) (c : Nat) (v : Channel) : (s.setChannel c v).update = s.update := rfl
@[simp] theorem State.setChannel_arith (s : State) (c : Nat) (v : Channel) : (s.setChannel c v).arith = s.arith := rfl
@[simp] theorem State.setChannel_free (s : State) (c : Nat) (v : Channel) : (s.setChannel c v).free = s.free := rfl
@[simp] theorem State.setChannel_out (s : State) (c : Nat) (v : Channel) : (s.setChannel c v).out = s.out := rfl
@[simp] theorem State.setChannel_pending (s : State) (c : Nat) (v : Channel) : (s.setChannel c v).pending = s.pending := rfl

@[simp] theorem State.setPort_now (s : State) (p : Nat) (v : Port) : (s.setPort p v).now = s.now := rfl
@[simp] theorem State.setPort_dict (s : State) (p : Nat) (v : Port) : (s.setPort p v).dict = s.dict := rfl
@[simp] theorem State.setPort_net (s : State) (p : Nat) (v : Port) : (s.setPort p v).net = s.net := rfl
@[simp] theorem State.setPort_clocks (s : State) (p : Nat) (v : Port) : (s.setPort p v).clocks = s.clocks := rfl
@[simp] theorem State.setPort_epochs (s : State) (p : Nat) (v : Port) : (s.setPort p v).epochs = s.epochs := rfl
@[simp] theorem State.setPort_queues (s : State) (p : Nat) (v : Port) : (s.setPort p v).queues = s.queues := rfl
@[simp] theorem State.setPort_cmds (s : State) (p : Nat) (v : Port) : (s.setPort p v).cmds = s.cmds := rfl
@[simp] theorem State.setPort_nextCmd (s : State) (p : Nat) (v : Port) : (s.setPort p v).nextCmd = s.nextCmd := rfl
@[simp] theorem State.setPort_engines (s : State) (p : Nat) (v : Port) : (s.setPort p v).engines = s.engines := rfl
@[simp] theorem State.setPort_fences (s : State) (p : Nat) (v : Port) : (s.setPort p v).fences = s.fences := rfl
@[simp] theorem State.setPort_xlat (s : State) (p : Nat) (v : Port) : (s.setPort p v).xlat = s.xlat := rfl
@[simp] theorem State.setPort_mem (s : State) (p : Nat) (v : Port) : (s.setPort p v).mem = s.mem := rfl
@[simp] theorem State.setPort_streams (s : State) (p : Nat) (v : Port) : (s.setPort p v).streams = s.streams := rfl
@[simp] theorem State.setPort_integ (s : State) (p : Nat) (v : Port) : (s.setPort p v).integ = s.integ := rfl
@[simp] theorem State.setPort_host (s : State) (p : Nat) (v : Port) : (s.setPort p v).host = s.host := rfl
@[simp] theorem State.setPort_mailbox (s : State) (p : Nat) (v : Port) : (s.setPort p v).mailbox = s.mailbox := rfl
@[simp] theorem State.setPort_power (s : State) (p : Nat) (v : Port) : (s.setPort p v).power = s.power := rfl
@[simp] theorem State.setPort_pins (s : State) (p : Nat) (v : Port) : (s.setPort p v).pins = s.pins := rfl
@[simp] theorem State.setPort_startup (s : State) (p : Nat) (v : Port) : (s.setPort p v).startup = s.startup := rfl
@[simp] theorem State.setPort_spdm (s : State) (p : Nat) (v : Port) : (s.setPort p v).spdm = s.spdm := rfl
@[simp] theorem State.setPort_tables (s : State) (p : Nat) (v : Port) : (s.setPort p v).tables = s.tables := rfl
@[simp] theorem State.setPort_lookups (s : State) (p : Nat) (v : Port) : (s.setPort p v).lookups = s.lookups := rfl
@[simp] theorem State.setPort_update (s : State) (p : Nat) (v : Port) : (s.setPort p v).update = s.update := rfl
@[simp] theorem State.setPort_arith (s : State) (p : Nat) (v : Port) : (s.setPort p v).arith = s.arith := rfl
@[simp] theorem State.setPort_free (s : State) (p : Nat) (v : Port) : (s.setPort p v).free = s.free := rfl
@[simp] theorem State.setPort_out (s : State) (p : Nat) (v : Port) : (s.setPort p v).out = s.out := rfl
@[simp] theorem State.setPort_pending (s : State) (p : Nat) (v : Port) : (s.setPort p v).pending = s.pending := rfl

@[simp] theorem State.setCmd_now (s : State) (c : Cmd) : (s.setCmd c).now = s.now := rfl
@[simp] theorem State.setCmd_dict (s : State) (c : Cmd) : (s.setCmd c).dict = s.dict := rfl
@[simp] theorem State.setCmd_net (s : State) (c : Cmd) : (s.setCmd c).net = s.net := rfl
@[simp] theorem State.setCmd_clocks (s : State) (c : Cmd) : (s.setCmd c).clocks = s.clocks := rfl
@[simp] theorem State.setCmd_epochs (s : State) (c : Cmd) : (s.setCmd c).epochs = s.epochs := rfl
@[simp] theorem State.setCmd_queues (s : State) (c : Cmd) : (s.setCmd c).queues = s.queues := rfl
@[simp] theorem State.setCmd_nextCmd (s : State) (c : Cmd) : (s.setCmd c).nextCmd = s.nextCmd := rfl
@[simp] theorem State.setCmd_engines (s : State) (c : Cmd) : (s.setCmd c).engines = s.engines := rfl
@[simp] theorem State.setCmd_fences (s : State) (c : Cmd) : (s.setCmd c).fences = s.fences := rfl
@[simp] theorem State.setCmd_xlat (s : State) (c : Cmd) : (s.setCmd c).xlat = s.xlat := rfl
@[simp] theorem State.setCmd_mem (s : State) (c : Cmd) : (s.setCmd c).mem = s.mem := rfl
@[simp] theorem State.setCmd_streams (s : State) (c : Cmd) : (s.setCmd c).streams = s.streams := rfl
@[simp] theorem State.setCmd_integ (s : State) (c : Cmd) : (s.setCmd c).integ = s.integ := rfl
@[simp] theorem State.setCmd_fabric (s : State) (c : Cmd) : (s.setCmd c).fabric = s.fabric := rfl
@[simp] theorem State.setCmd_host (s : State) (c : Cmd) : (s.setCmd c).host = s.host := rfl
@[simp] theorem State.setCmd_mailbox (s : State) (c : Cmd) : (s.setCmd c).mailbox = s.mailbox := rfl
@[simp] theorem State.setCmd_power (s : State) (c : Cmd) : (s.setCmd c).power = s.power := rfl
@[simp] theorem State.setCmd_pins (s : State) (c : Cmd) : (s.setCmd c).pins = s.pins := rfl
@[simp] theorem State.setCmd_startup (s : State) (c : Cmd) : (s.setCmd c).startup = s.startup := rfl
@[simp] theorem State.setCmd_spdm (s : State) (c : Cmd) : (s.setCmd c).spdm = s.spdm := rfl
@[simp] theorem State.setCmd_tables (s : State) (c : Cmd) : (s.setCmd c).tables = s.tables := rfl
@[simp] theorem State.setCmd_lookups (s : State) (c : Cmd) : (s.setCmd c).lookups = s.lookups := rfl
@[simp] theorem State.setCmd_update (s : State) (c : Cmd) : (s.setCmd c).update = s.update := rfl
@[simp] theorem State.setCmd_arith (s : State) (c : Cmd) : (s.setCmd c).arith = s.arith := rfl
@[simp] theorem State.setCmd_free (s : State) (c : Cmd) : (s.setCmd c).free = s.free := rfl
@[simp] theorem State.setCmd_out (s : State) (c : Cmd) : (s.setCmd c).out = s.out := rfl
@[simp] theorem State.setCmd_pending (s : State) (c : Cmd) : (s.setCmd c).pending = s.pending := rfl

@[simp] theorem State.acct_now (s : State) (a i n : Nat) : (s.acct a i n).now = s.now := by unfold State.acct; split <;> rfl
@[simp] theorem State.acct_net (s : State) (a i n : Nat) : (s.acct a i n).net = s.net := by unfold State.acct; split <;> rfl
@[simp] theorem State.acct_clocks (s : State) (a i n : Nat) : (s.acct a i n).clocks = s.clocks := by unfold State.acct; split <;> rfl
@[simp] theorem State.acct_epochs (s : State) (a i n : Nat) : (s.acct a i n).epochs = s.epochs := by unfold State.acct; split <;> rfl
@[simp] theorem State.acct_queues (s : State) (a i n : Nat) : (s.acct a i n).queues = s.queues := by unfold State.acct; split <;> rfl
@[simp] theorem State.acct_cmds (s : State) (a i n : Nat) : (s.acct a i n).cmds = s.cmds := by unfold State.acct; split <;> rfl
@[simp] theorem State.acct_nextCmd (s : State) (a i n : Nat) : (s.acct a i n).nextCmd = s.nextCmd := by unfold State.acct; split <;> rfl
@[simp] theorem State.acct_engines (s : State) (a i n : Nat) : (s.acct a i n).engines = s.engines := by unfold State.acct; split <;> rfl
@[simp] theorem State.acct_fences (s : State) (a i n : Nat) : (s.acct a i n).fences = s.fences := by unfold State.acct; split <;> rfl
@[simp] theorem State.acct_xlat (s : State) (a i n : Nat) : (s.acct a i n).xlat = s.xlat := by unfold State.acct; split <;> rfl
@[simp] theorem State.acct_mem (s : State) (a i n : Nat) : (s.acct a i n).mem = s.mem := by unfold State.acct; split <;> rfl
@[simp] theorem State.acct_streams (s : State) (a i n : Nat) : (s.acct a i n).streams = s.streams := by unfold State.acct; split <;> rfl
@[simp] theorem State.acct_integ (s : State) (a i n : Nat) : (s.acct a i n).integ = s.integ := by unfold State.acct; split <;> rfl
@[simp] theorem State.acct_fabric (s : State) (a i n : Nat) : (s.acct a i n).fabric = s.fabric := by unfold State.acct; split <;> rfl
@[simp] theorem State.acct_host (s : State) (a i n : Nat) : (s.acct a i n).host = s.host := by unfold State.acct; split <;> rfl
@[simp] theorem State.acct_mailbox (s : State) (a i n : Nat) : (s.acct a i n).mailbox = s.mailbox := by unfold State.acct; split <;> rfl
@[simp] theorem State.acct_power (s : State) (a i n : Nat) : (s.acct a i n).power = s.power := by unfold State.acct; split <;> rfl
@[simp] theorem State.acct_pins (s : State) (a i n : Nat) : (s.acct a i n).pins = s.pins := by unfold State.acct; split <;> rfl
@[simp] theorem State.acct_startup (s : State) (a i n : Nat) : (s.acct a i n).startup = s.startup := by unfold State.acct; split <;> rfl
@[simp] theorem State.acct_spdm (s : State) (a i n : Nat) : (s.acct a i n).spdm = s.spdm := by unfold State.acct; split <;> rfl
@[simp] theorem State.acct_tables (s : State) (a i n : Nat) : (s.acct a i n).tables = s.tables := by unfold State.acct; split <;> rfl
@[simp] theorem State.acct_lookups (s : State) (a i n : Nat) : (s.acct a i n).lookups = s.lookups := by unfold State.acct; split <;> rfl
@[simp] theorem State.acct_update (s : State) (a i n : Nat) : (s.acct a i n).update = s.update := by unfold State.acct; split <;> rfl
@[simp] theorem State.acct_arith (s : State) (a i n : Nat) : (s.acct a i n).arith = s.arith := by unfold State.acct; split <;> rfl
@[simp] theorem State.acct_free (s : State) (a i n : Nat) : (s.acct a i n).free = s.free := by unfold State.acct; split <;> rfl
@[simp] theorem State.acct_out (s : State) (a i n : Nat) : (s.acct a i n).out = s.out := by unfold State.acct; split <;> rfl
@[simp] theorem State.acct_pending (s : State) (a i n : Nat) : (s.acct a i n).pending = s.pending := by unfold State.acct; split <;> rfl

@[simp] theorem State.report_now (s : State) (r : Report) : (s.report r).now = s.now := by unfold State.report; (repeat' split) <;> rfl
@[simp] theorem State.report_net (s : State) (r : Report) : (s.report r).net = s.net := by unfold State.report; (repeat' split) <;> rfl
@[simp] theorem State.report_clocks (s : State) (r : Report) : (s.report r).clocks = s.clocks := by unfold State.report; (repeat' split) <;> rfl
@[simp] theorem State.report_epochs (s : State) (r : Report) : (s.report r).epochs = s.epochs := by unfold State.report; (repeat' split) <;> rfl
@[simp] theorem State.report_queues (s : State) (r : Report) : (s.report r).queues = s.queues := by unfold State.report; (repeat' split) <;> rfl
@[simp] theorem State.report_cmds (s : State) (r : Report) : (s.report r).cmds = s.cmds := by unfold State.report; (repeat' split) <;> rfl
@[simp] theorem State.report_nextCmd (s : State) (r : Report) : (s.report r).nextCmd = s.nextCmd := by unfold State.report; (repeat' split) <;> rfl
@[simp] theorem State.report_engines (s : State) (r : Report) : (s.report r).engines = s.engines := by unfold State.report; (repeat' split) <;> rfl
@[simp] theorem State.report_fences (s : State) (r : Report) : (s.report r).fences = s.fences := by unfold State.report; (repeat' split) <;> rfl
@[simp] theorem State.report_xlat (s : State) (r : Report) : (s.report r).xlat = s.xlat := by unfold State.report; (repeat' split) <;> rfl
@[simp] theorem State.report_mem (s : State) (r : Report) : (s.report r).mem = s.mem := by unfold State.report; (repeat' split) <;> rfl
@[simp] theorem State.report_streams (s : State) (r : Report) : (s.report r).streams = s.streams := by unfold State.report; (repeat' split) <;> rfl
@[simp] theorem State.report_fabric (s : State) (r : Report) : (s.report r).fabric = s.fabric := by unfold State.report; (repeat' split) <;> rfl
@[simp] theorem State.report_host (s : State) (r : Report) : (s.report r).host = s.host := by unfold State.report; (repeat' split) <;> rfl
@[simp] theorem State.report_mailbox (s : State) (r : Report) : (s.report r).mailbox = s.mailbox := by unfold State.report; (repeat' split) <;> rfl
@[simp] theorem State.report_power (s : State) (r : Report) : (s.report r).power = s.power := by unfold State.report; (repeat' split) <;> rfl
@[simp] theorem State.report_pins (s : State) (r : Report) : (s.report r).pins = s.pins := by unfold State.report; (repeat' split) <;> rfl
@[simp] theorem State.report_startup (s : State) (r : Report) : (s.report r).startup = s.startup := by unfold State.report; (repeat' split) <;> rfl
@[simp] theorem State.report_spdm (s : State) (r : Report) : (s.report r).spdm = s.spdm := by unfold State.report; (repeat' split) <;> rfl
@[simp] theorem State.report_tables (s : State) (r : Report) : (s.report r).tables = s.tables := by unfold State.report; (repeat' split) <;> rfl
@[simp] theorem State.report_lookups (s : State) (r : Report) : (s.report r).lookups = s.lookups := by unfold State.report; (repeat' split) <;> rfl
@[simp] theorem State.report_update (s : State) (r : Report) : (s.report r).update = s.update := by unfold State.report; (repeat' split) <;> rfl
@[simp] theorem State.report_arith (s : State) (r : Report) : (s.report r).arith = s.arith := by unfold State.report; (repeat' split) <;> rfl
@[simp] theorem State.report_free (s : State) (r : Report) : (s.report r).free = s.free := by unfold State.report; (repeat' split) <;> rfl
@[simp] theorem State.report_out (s : State) (r : Report) : (s.report r).out = s.out := by unfold State.report; (repeat' split) <;> rfl
@[simp] theorem State.report_pending (s : State) (r : Report) : (s.report r).pending = s.pending := by unfold State.report; (repeat' split) <;> rfl

@[simp] theorem State.firmwareLog_now (s : State) (b : Bytes) : (s.firmwareLog b).now = s.now := by unfold State.firmwareLog; split <;> rfl
@[simp] theorem State.firmwareLog_net (s : State) (b : Bytes) : (s.firmwareLog b).net = s.net := by unfold State.firmwareLog; split <;> rfl
@[simp] theorem State.firmwareLog_clocks (s : State) (b : Bytes) : (s.firmwareLog b).clocks = s.clocks := by unfold State.firmwareLog; split <;> rfl
@[simp] theorem State.firmwareLog_epochs (s : State) (b : Bytes) : (s.firmwareLog b).epochs = s.epochs := by unfold State.firmwareLog; split <;> rfl
@[simp] theorem State.firmwareLog_queues (s : State) (b : Bytes) : (s.firmwareLog b).queues = s.queues := by unfold State.firmwareLog; split <;> rfl
@[simp] theorem State.firmwareLog_cmds (s : State) (b : Bytes) : (s.firmwareLog b).cmds = s.cmds := by unfold State.firmwareLog; split <;> rfl
@[simp] theorem State.firmwareLog_nextCmd (s : State) (b : Bytes) : (s.firmwareLog b).nextCmd = s.nextCmd := by unfold State.firmwareLog; split <;> rfl
@[simp] theorem State.firmwareLog_engines (s : State) (b : Bytes) : (s.firmwareLog b).engines = s.engines := by unfold State.firmwareLog; split <;> rfl
@[simp] theorem State.firmwareLog_fences (s : State) (b : Bytes) : (s.firmwareLog b).fences = s.fences := by unfold State.firmwareLog; split <;> rfl
@[simp] theorem State.firmwareLog_xlat (s : State) (b : Bytes) : (s.firmwareLog b).xlat = s.xlat := by unfold State.firmwareLog; split <;> rfl
@[simp] theorem State.firmwareLog_mem (s : State) (b : Bytes) : (s.firmwareLog b).mem = s.mem := by unfold State.firmwareLog; split <;> rfl
@[simp] theorem State.firmwareLog_streams (s : State) (b : Bytes) : (s.firmwareLog b).streams = s.streams := by unfold State.firmwareLog; split <;> rfl
@[simp] theorem State.firmwareLog_fabric (s : State) (b : Bytes) : (s.firmwareLog b).fabric = s.fabric := by unfold State.firmwareLog; split <;> rfl
@[simp] theorem State.firmwareLog_host (s : State) (b : Bytes) : (s.firmwareLog b).host = s.host := by unfold State.firmwareLog; split <;> rfl
@[simp] theorem State.firmwareLog_mailbox (s : State) (b : Bytes) : (s.firmwareLog b).mailbox = s.mailbox := by unfold State.firmwareLog; split <;> rfl
@[simp] theorem State.firmwareLog_power (s : State) (b : Bytes) : (s.firmwareLog b).power = s.power := by unfold State.firmwareLog; split <;> rfl
@[simp] theorem State.firmwareLog_pins (s : State) (b : Bytes) : (s.firmwareLog b).pins = s.pins := by unfold State.firmwareLog; split <;> rfl
@[simp] theorem State.firmwareLog_startup (s : State) (b : Bytes) : (s.firmwareLog b).startup = s.startup := by unfold State.firmwareLog; split <;> rfl
@[simp] theorem State.firmwareLog_spdm (s : State) (b : Bytes) : (s.firmwareLog b).spdm = s.spdm := by unfold State.firmwareLog; split <;> rfl
@[simp] theorem State.firmwareLog_tables (s : State) (b : Bytes) : (s.firmwareLog b).tables = s.tables := by unfold State.firmwareLog; split <;> rfl
@[simp] theorem State.firmwareLog_lookups (s : State) (b : Bytes) : (s.firmwareLog b).lookups = s.lookups := by unfold State.firmwareLog; split <;> rfl
@[simp] theorem State.firmwareLog_update (s : State) (b : Bytes) : (s.firmwareLog b).update = s.update := by unfold State.firmwareLog; split <;> rfl
@[simp] theorem State.firmwareLog_arith (s : State) (b : Bytes) : (s.firmwareLog b).arith = s.arith := by unfold State.firmwareLog; split <;> rfl
@[simp] theorem State.firmwareLog_free (s : State) (b : Bytes) : (s.firmwareLog b).free = s.free := by unfold State.firmwareLog; split <;> rfl
@[simp] theorem State.firmwareLog_out (s : State) (b : Bytes) : (s.firmwareLog b).out = s.out := by unfold State.firmwareLog; split <;> rfl
@[simp] theorem State.firmwareLog_pending (s : State) (b : Bytes) : (s.firmwareLog b).pending = s.pending := by unfold State.firmwareLog; split <;> rfl

@[simp] theorem State.num_setNum_same (s : State) (k v : Nat) : (s.setNum k v).num k = v := by
  unfold State.num State.setNum
  rw [Map.get_put_same]
  split <;> simp_all

theorem State.num_setNum_other (s : State) {k j : Nat} (v : Nat) (h : j ≠ k) : (s.setNum k v).num j = s.num j :=
  Map.get_put_other _ _ _ h

/-- A number object after a write: the value written, or what it was. -/
theorem State.num_setNum (s : State) (k v j : Nat) : (s.setNum k v).num j = if j = k then v else s.num j := by
  split
  · subst_vars; simp
  · exact s.num_setNum_other v ‹_›

@[simp] theorem State.blob_setBlob_same (s : State) (k : Nat) (v : Bytes) : (s.setBlob k v).blob k = v := by
  unfold State.blob State.setBlob
  rw [Map.get_put_same]
  split <;> simp_all

theorem State.blob_setBlob_other (s : State) {k j : Nat} (v : Bytes) (h : j ≠ k) : (s.setBlob k v).blob j = s.blob j :=
  Map.get_put_other _ _ _ h

@[simp] theorem State.blob_setNum (s : State) (k v j : Nat) : (s.setNum k v).blob j = s.blob j := rfl
@[simp] theorem State.num_setBlob (s : State) (k : Nat) (v : Bytes) (j : Nat) : (s.setBlob k v).num j = s.num j := rfl
@[simp] theorem State.blob_bump (s : State) (k n j : Nat) : (s.bump k n).blob j = s.blob j := rfl
@[simp] theorem State.blob_acct (s : State) (a i n j : Nat) : (s.acct a i n).blob j = s.blob j := by
  unfold State.acct; split <;> rfl

theorem State.num_bump_other (s : State) {k j : Nat} (n : Nat) (h : j ≠ k) : (s.bump k n).num j = s.num j :=
  s.num_setNum_other _ h

/-- A counter that stays within its width rises by exactly what was added. -/
theorem State.num_bump_same (s : State) (k n : Nat) (h : s.num k + n < objSpan k) : (s.bump k n).num k = s.num k + n := by
  unfold State.bump
  simp [h]

theorem State.num_acct_other (s : State) {a i j : Nat} (n : Nat) (h : j ≠ acctKey a i) : (s.acct a i n).num j = s.num j := by
  unfold State.acct
  split
  · exact s.num_bump_other n h
  · rfl

@[simp] theorem State.queue_setQueue (s : State) (q : Nat) (v : Queue) : (s.setQueue q v).queue q = v := Map.get_set_same _ _ _ _
theorem State.queue_setQueue_other (s : State) {q p : Nat} (v : Queue) (h : p ≠ q) : (s.setQueue q v).queue p = s.queue p :=
  Map.get_set_other _ _ _ h
@[simp] theorem State.engine_setEngine (s : State) (u : UnitId) (e : Engine) : (s.setEngine u e).engine u = e := Map.get_set_same _ _ _ _
@[simp] theorem State.core_setCore (s : State) (c : Nat) (v : CoreClock) : (s.setCore c v).core c = v := Map.get_set_same _ _ _ _
@[simp] theorem State.table_setTable (s : State) (n : Nat) (v : Table) : (s.setTable n v).table n = v := Map.get_set_same _ _ _ _
theorem State.table_setTable_other (s : State) {n m : Nat} (v : Table) (h : m ≠ n) : (s.setTable n v).table m = s.table m :=
  Map.get_set_other _ _ _ h
@[simp] theorem State.streamSlot_setStreamSlot (s : State) (c i : Nat) (v : StreamSlot) : (s.setStreamSlot c i v).streamSlot c i = v :=
  Map.get_set_same _ _ _ _
@[simp] theorem State.channel_setChannel (s : State) (c : Nat) (v : Channel) : (s.setChannel c v).channel c = v := Map.get_set_same _ _ _ _
@[simp] theorem State.port_setPort (s : State) (p : Nat) (v : Port) : (s.setPort p v).port p = v := Map.get_set_same _ _ _ _

end Sys2Proof.Machine
end

