-- ==== Sys2Proof/Laws/Ops.lean ====
section
/-! SUPPORT. What each shared operation can do, said once: stores, reads and writes of memory, counters, reports, the marks of a suspect
unit, and the execution fault. -/
namespace Sys2Proof.Machine

/-! ### Keys and lists -/

theorem objKey_inj {i j a b : Nat} (ha : a < 256) (hb : b < 256) : objKey i a = objKey j b ↔ i = j ∧ a = b := by
  unfold objKey; omega

theorem mem_insertAsc {n k : Nat} : ∀ {l}, k ∈ insertAsc n l ↔ k = n ∨ k ∈ l
  | [] => by simp [insertAsc]
  | m :: l => by
    unfold insertAsc
    split
    · simp
    · split
      · simp_all
      · simp only [List.mem_cons, mem_insertAsc (l := l)]
        exact or_left_comm

/-- A map whose values all change in one way that leaves the default alone. -/
theorem get_map_val {α : Type} (d : α) (f : α → α) (hf : f d = d) : ∀ (m : Map α) (k : Nat),
    Map.get d (m.map (fun e => (e.1, f e.2))) k = f (Map.get d m k)
  | [], k => by simp [Map.get, hf]
  | (k', v) :: m, k => by
    simp only [List.map_cons, Map.get]
    split <;> simp [get_map_val d f hf m k]

/-- Entries that pass are read as before; all others read the default. -/
theorem get_keep {α : Type} (d : α) (m : Map α) (p : Nat → Bool) (k : Nat) :
    Map.get d (Map.keep m p) k = if p k then Map.get d m k else d := by
  induction m with
  | nil => simp [Map.keep, Map.get]
  | cons e m ih =>
    obtain ⟨k', v⟩ := e
    unfold Map.keep at *
    simp only [List.filter_cons]
    by_cases h : p k' = true
    · simp only [h, if_true, Map.get, ih]
      by_cases hk : k = k' <;> simp_all
    · simp only [h, Map.get]
      by_cases hk : k = k' <;> simp_all

/-! ### Bytes of memory -/

theorem get_storeCells : ∀ (d : Bytes) (m : List Host.Cell) (a b : Nat),
    Map.get 0 (storeCells m a d) b = if a ≤ b ∧ b < a + d.length then d.getD (b - a) 0 else Map.get 0 m b
  | [], m, a, b => by rw [if_neg (by simp only [List.length_nil]; omega)]; rfl
  | x :: d, m, a, b => by
    rw [storeCells, get_storeCells d]
    by_cases h : b = a
    · subst h; simp [show ¬ (b + 1 ≤ b) by omega]
    · rw [Map.get_set_other 0 m x h]
      by_cases h2 : a + 1 ≤ b ∧ b < a + 1 + d.length
      · rw [if_pos h2, if_pos (by simp; omega)]
        obtain ⟨k, rfl⟩ := Nat.exists_eq_add_of_le h2.1
        simp [show a + 1 + k - (a + 1) = k by omega, show a + 1 + k - a = k + 1 by omega]
      · rw [if_neg h2, if_neg (by simp; omega)]

theorem State.byte_of_cells {s t : State} (h : t.mem.cells = s.mem.cells) (a : Nat) : t.byte a = s.byte a := by
  unfold State.byte; rw [h]

@[simp] theorem State.touchBanks_mem (s : State) (a n : Nat) : (s.touchBanks a n).mem = s.mem := by
  unfold State.touchBanks; split <;> rfl

/-- A byte after a store: the byte stored, or what it was. -/
theorem State.byte_store (s : State) (a : Nat) (d : Bytes) (b : Nat) :
    (s.store a d).byte b = if a ≤ b ∧ b < a + d.length then d.getD (b - a) 0 else s.byte b := by
  unfold State.store State.byte
  simp only [State.touchBanks_mem]
  exact get_storeCells d _ a b

/-- A store changes memory's cells and error marks and the validity of weight banks, nothing else. -/
theorem State.store_frame (s : State) (a : Nat) (d : Bytes) :
    s.store a d = { s with mem := (s.store a d).mem, arith := (s.store a d).arith } := by
  unfold State.store State.touchBanks; split <;> rfl

/-! ### Counters and reports -/

theorem State.acct_frame (s : State) (a i n : Nat) : s.acct a i n = { s with dict := (s.acct a i n).dict } := by
  unfold State.acct; split <;> rfl

/-- A fold of operations on objects changes objects alone. -/
theorem foldl_dict {α : Type} (f : State → α → State) (hf : ∀ s x, f s x = { s with dict := (f s x).dict }) :
    ∀ (l : List α) (s : State), l.foldl f s = { s with dict := (l.foldl f s).dict }
  | [], s => rfl
  | x :: l, s => by rw [List.foldl_cons, foldl_dict f hf l (f s x), hf s x]

/-- Counting the bytes of an access changes counters alone. -/
theorem State.countBytes_frame (s : State) (acc : Access) (w : Bool) (a n : Nat) :
    s.countBytes acc w a n = { s with dict := (s.countBytes acc w a n).dict } := by
  unfold State.countBytes
  extract_lets t
  have h : t = { s with dict := t.dict } := foldl_dict _ (fun _ _ => rfl) _ _
  split
  · rw [State.acct_frame, h]
  · exact h

@[simp] theorem State.countBytes_mem (s : State) (acc : Access) (w : Bool) (a n : Nat) : (s.countBytes acc w a n).mem = s.mem := by
  rw [State.countBytes_frame]

theorem State.report_frame (s : State) (r : Report) :
    s.report r = { s with dict := (s.report r).dict, integ := (s.report r).integ } := by
  unfold State.report
  split
  · rfl
  · split <;> rfl

/-- A report changes no object but the count of the unheld. -/
theorem State.num_report_other (s : State) (r : Report) {k : Nat} (h : k ≠ objKey 0x4000 7) : (s.report r).num k = s.num k := by
  unfold State.report
  split
  · rfl
  · split
    · rfl
    · exact State.num_bump_other _ _ h

theorem State.report_recoverySince (s : State) (r : Report) : (s.report r).integ.recoverySince = s.integ.recoverySince := by
  unfold State.report
  split
  · rfl
  · split <;> rfl

/-! ### Reads and writes -/

@[simp] theorem Memory.otherLists_cells (m : Memory) : m.otherLists.cells = m.cells := rfl

@[simp] theorem State.makePending_cells (s : State) (w : Nat) : (s.makePending w).mem.cells = s.mem.cells := by
  unfold State.makePending
  extract_lets p
  split
  · rfl
  · rw [State.report_mem]; rfl

theorem State.makePending_frame (s : State) (w : Nat) :
    s.makePending w = { s with dict := (s.makePending w).dict, mem := (s.makePending w).mem, integ := (s.makePending w).integ } := by
  unfold State.makePending
  extract_lets p
  split
  · rfl
  · rw [State.report_frame]

/-- The page of an uncorrectable code word is pending or retired. -/
theorem State.makePending_page (s : State) (w : Nat) :
    w / 0x200000 ∈ (s.makePending w).mem.pendingPages ∨ w / 0x200000 ∈ (s.makePending w).mem.retired := by
  unfold State.makePending
  extract_lets p
  split
  · rename_i hc; simpa using hc
  · rw [State.report_mem]; exact .inl (mem_insertAsc.2 (.inl rfl))

theorem State.correct_frame (s : State) (acct : Option Nat) (w : Nat) :
    s.correct acct w = { s with dict := (s.correct acct w).dict, mem := (s.correct acct w).mem, integ := (s.correct acct w).integ } ∧
    (s.correct acct w).mem.cells = s.mem.cells := by
  unfold State.correct
  extract_lets again t _ u
  obtain ⟨d, hd⟩ : ∃ d, t = { s with dict := d } := ⟨_, State.countBytes_frame _ _ _ _ _⟩
  have hu : u = { s with dict := u.dict, mem := u.mem } ∧ u.mem.cells = s.mem.cells := by
    clear_value t
    subst hd
    exact ⟨rfl, rfl⟩
  clear_value u
  split
  · refine ⟨?_, (State.makePending_cells _ _).trans hu.2⟩
    rw [State.makePending_frame, hu.1]
  · exact ⟨by rw [hu.1], hu.2⟩

/-- Correcting what a range holds changes counters, marks and reports, and no byte. -/
theorem State.correctRange_frame (s : State) (a n : Nat) :
    s.correctRange a n = { s with
      dict := (s.correctRange a n).dict, mem := (s.correctRange a n).mem, integ := (s.correctRange a n).integ } ∧
    (s.correctRange a n).mem.cells = s.mem.cells := by
  unfold State.correctRange
  generalize s.flipped a n = l
  induction l generalizing s with
  | nil => exact ⟨rfl, rfl⟩
  | cons w l ih =>
    rw [List.foldl_cons]
    obtain ⟨h1, h2⟩ := ih (s.correct none w)
    obtain ⟨k1, k2⟩ := s.correct_frame none w
    refine ⟨?_, h2.trans k2⟩
    rw [h1, k1]

/-- A read changes counters, reports, error marks and pending pages, and no byte. -/
theorem State.read_frame (s : State) (acc : Access) (a n : Nat) :
    (s.read acc a n).2 = { s with
      dict := (s.read acc a n).2.dict, mem := (s.read acc a n).2.mem, integ := (s.read acc a n).2.integ } ∧
    (s.read acc a n).2.mem.cells = s.mem.cells := by
  unfold State.read
  split
  · split
    · exact ⟨rfl, rfl⟩
    · split
      · refine ⟨?_, State.makePending_cells _ _⟩
        show State.makePending _ _ = _
        rw [State.makePending_frame]
        rfl
      · obtain ⟨h1, h2⟩ := s.correctRange_frame a n
        exact ⟨by rw [State.countBytes_frame, h1], by rw [State.countBytes_mem]; exact h2⟩
  · split <;> exact ⟨rfl, rfl⟩

/-- What a read answers. -/
theorem State.read_result (s : State) (acc : Access) (a n : Nat) : (s.read acc a n).1 =
    if isStacked a then
      if s.meetsRetired a n then .bad 0x1003 else if (s.firstBad a n).isSome then .bad 0x1001 else .ok (s.bytes a n)
    else if (s.firstSramBad a n).isSome then .bad 0x1007 else .ok (s.bytes a n) := by
  unfold State.read
  split
  · split
    · rfl
    · split <;> simp_all
  · split <;> simp_all

/-- A write either stores all its bytes, and counts them, or stores none. -/
theorem State.write_cases (s : State) (acc : Access) (a : Nat) (d : Bytes) :
    (∃ t, s.write acc a d = (.ok [], t) ∧ t = { s.store a d with dict := t.dict }) ∨
    (∃ e t, s.write acc a d = (.bad e, t) ∧ t = { s with dict := t.dict }) := by
  unfold State.write
  extract_lets n
  split
  · split
    · exact .inr ⟨_, _, rfl, rfl⟩
    · split
      · exact .inl ⟨_, rfl, State.countBytes_frame _ _ _ _ _⟩
      · exact .inr ⟨_, _, rfl, rfl⟩
  · split
    · exact .inr ⟨_, _, rfl, rfl⟩
    · exact .inl ⟨_, rfl, rfl⟩

/-! ### Jobs at an execution fault -/

theorem State.num_loseJob (s : State) (j k : Nat) : (s.loseJob j).num k =
    if k = jobStateKey j ∧ (s.job j = jobOpen ∨ s.job j = jobClosing) then jobLost
    else if k = jobCloseKey j ∧ s.job j = jobClosing then 3 else s.num k := by
  unfold State.loseJob
  by_cases h : s.job j = jobOpen
  · simp only [h, if_true, State.num_setNum]
    have : jobOpen ≠ jobClosing := by decide
    simp [this]
  · by_cases h2 : s.job j = jobClosing
    · have hk : jobStateKey j ≠ jobCloseKey j := by unfold jobStateKey jobCloseKey objKey; omega
      simp only [h2]
      by_cases hk1 : k = jobStateKey j
      · simp [hk1, hk, State.num_setNum, jobClosing, jobOpen]
      · simp [hk1, State.num_setNum, jobClosing, jobOpen]
    · simp [h, h2]

theorem State.loseJob_frame (s : State) (j : Nat) : s.loseJob j = { s with dict := (s.loseJob j).dict } := by
  unfold State.loseJob
  split
  · rfl
  · split <;> rfl

theorem loseJobs_job (l : List Nat) (hl : l.Nodup) (s : State) (j : Nat) : (l.foldl State.loseJob s).job j =
    if j ∈ l ∧ (s.job j = jobOpen ∨ s.job j = jobClosing) then jobLost else s.job j := by
  induction l generalizing s with
  | nil => simp
  | cons x l ih =>
    have hx : ∀ y, (s.loseJob x).job y = if y = x ∧ (s.job x = jobOpen ∨ s.job x = jobClosing) then jobLost else s.job y := by
      intro y
      unfold State.job
      rw [State.num_loseJob]
      have h1 : (jobStateKey y = jobStateKey x) ↔ y = x := by unfold jobStateKey objKey; omega
      have h2 : jobStateKey y ≠ jobCloseKey x := by unfold jobStateKey jobCloseKey objKey; omega
      simp only [h1, h2, State.job, false_and, if_false]
    rw [List.foldl_cons, ih (List.nodup_cons.1 hl).2, hx]
    by_cases hjx : j = x
    · subst hjx
      have := (List.nodup_cons.1 hl).1
      simp [this]
    · simp [hjx]

/-- Losing jobs changes the state and close objects of job slots alone. -/
theorem loseJobs_num (k : Nat) (hk : ∀ j, k ≠ jobStateKey j ∧ k ≠ jobCloseKey j) :
    ∀ (l : List Nat) (s : State), (l.foldl State.loseJob s).num k = s.num k
  | [], _ => rfl
  | x :: l, s => by rw [List.foldl_cons, loseJobs_num k hk l, State.num_loseJob]; simp [hk x]

/-! ### The execution fault -/

/-- What an execution fault is: jobs are lost, what engines hold is dropped, and beyond that only objects, reports and the record of the
recovery differ. `a` is the state in which the jobs have been lost. -/
theorem State.execFault_eq (t : State) (r : Report) : ∃ a : State, a = { t with dict := a.dict } ∧
    (∀ j, j < 64 → a.job j = if t.job j = jobOpen ∨ t.job j = jobClosing then jobLost else t.job j) ∧
    (∀ k, (∀ j, k ≠ jobStateKey j ∧ k ≠ jobCloseKey j) → a.num k = t.num k) ∧
    t.execFault r = { a.dropEngineState.idleEngines with dict := (t.execFault r).dict, integ := (t.execFault r).integ } ∧
    (∀ k, k ≠ objKey 0x2711 5 → k ≠ objKey 0x2000 8 → k ≠ objKey 0x4000 7 → k ≠ objKey 0x2600 2 →
      (t.execFault r).num k = a.num k) ∧
    (t.execFault r).integ.recoverySince = some (t.integ.recoverySince.getD t.now) ∧
    (∀ k, k ∈ (t.execFault r).integ.faultClusters ↔ k = r.unit.cluster ∨ k ∈ t.integ.faultClusters) ∧
    Rose t (t.execFault r) (objKey 0x2000 8) 1 := by
  have ha : (List.range 64).foldl State.loseJob t = { t with dict := ((List.range 64).foldl State.loseJob t).dict } :=
    foldl_dict _ State.loseJob_frame _ _
  have hj : ∀ j, j < 64 → ((List.range 64).foldl State.loseJob t).job j =
      if t.job j = jobOpen ∨ t.job j = jobClosing then jobLost else t.job j := by
    intro j h
    rw [loseJobs_job _ List.nodup_range]; simp [h]
  have hk : ∀ k, (∀ j, k ≠ jobStateKey j ∧ k ≠ jobCloseKey j) → ((List.range 64).foldl State.loseJob t).num k = t.num k :=
    fun k h => loseJobs_num k h _ _
  unfold State.execFault
  generalize (List.range 64).foldl State.loseJob t = a at ha hj hk
  refine ⟨a, ha, hj, hk, ?_⟩
  extract_lets a' b c d
  have hc : c = { b with dict := c.dict, integ := c.integ } := by
    show (State.report _ _).bump _ _ = _
    rw [State.report_frame]; rfl
  have hd : d = { b with dict := d.dict, integ := d.integ } := by show State.setFlag _ _ _ = _; rw [hc]; rfl
  have hi : d.integ.recoverySince = t.integ.recoverySince ∧ d.integ.faultClusters = t.integ.faultClusters := by
    have : ∀ (s : State) (r : Report), (s.report r).integ.faultClusters = s.integ.faultClusters := by
      intro s r
      unfold State.report
      split
      · rfl
      · split <;> rfl
    constructor
    · show (State.report _ _).integ.recoverySince = _
      rw [State.report_recoverySince]
      show a.integ.recoverySince = _
      rw [ha]
    · show (State.report _ _).integ.faultClusters = _
      rw [this]
      show a.integ.faultClusters = _
      rw [ha]
  refine ⟨?_, fun k h1 h2 h3 h4 => ?_, ?_, fun k => ?_, fun h => ?_⟩
  · show ({ d with integ := _ } : State) = _
    rw [hd]; rfl
  · show d.num k = _
    show (State.setFlag _ _ _).num _ = _
    unfold State.setFlag
    rw [State.num_setNum_other _ _ h1]
    show (State.bump _ _ _).num _ = _
    rw [State.num_bump_other _ _ h2, State.num_report_other _ _ h3]
    show (State.bump _ _ _).num _ = _
    rw [State.num_bump_other _ _ h4]
    rfl
  · show some (d.integ.recoverySince.getD d.now) = _
    rw [hi.1, hd]
    show some (Option.getD _ a.now) = _
    rw [ha]
  · show k ∈ insertAsc _ d.integ.faultClusters ↔ _
    rw [mem_insertAsc, hi.2]
  · show d.num _ = _
    show (State.setFlag _ _ _).num _ = _
    unfold State.setFlag
    rw [State.num_setNum_other _ _ (by decide)]
    have hb : b.num (objKey 0x2000 8) = t.num (objKey 0x2000 8) := by
      show (State.bump _ _ _).num _ = _
      rw [State.num_bump_other _ _ (by decide)]
      exact hk _ (fun j => by unfold jobStateKey jobCloseKey objKey; omega)
    have hr : ∀ r, (b.report r).num (objKey 0x2000 8) = t.num (objKey 0x2000 8) := fun r => by
      rw [State.num_report_other _ _ (by decide), hb]
    show (State.bump _ _ _).num _ = _
    rw [State.num_bump_same _ _ _ (by rw [hr]; exact h), hr]

/-- An execution fault has come after one. -/
theorem State.execFault_faulted (t : State) (r : Report) : Faulted t (t.execFault r) := by
  obtain ⟨a, ha, hj, -, he, hn, hs, -, -⟩ := t.execFault_eq r
  refine ⟨fun j h => ?_, fun q => ?_, by rw [he]; rfl, by rw [he]; rfl, by rw [he]; rfl, ?_, ?_, ?_, fun x => ?_⟩
  · rw [← hj j h]
    exact hn _ (by simp only [jobStateKey, objKey, ne_eq]; omega) (by simp only [jobStateKey, objKey, ne_eq]; omega)
      (by simp only [jobStateKey, objKey, ne_eq]; omega) (by simp only [jobStateKey, objKey, ne_eq]; omega)
  · have hq : (t.execFault r).queues = t.queues.map (fun e => (e.1, loseQueue e.2)) := by
      rw [he]
      show a.queues.map _ = _
      rw [ha]
    unfold State.queue
    rw [hq, get_map_val _ _ (by decide)]
    generalize Map.get Queue.init t.queues q = v
    unfold loseQueue
    by_cases hv : v.state = .disabled <;> simp [hv]
  · unfold State.recovering; rw [hs]; rfl
  · rw [he]; show a.fences = _; rw [ha]
  · rw [he]; show a.tables = _; rw [ha]
  · unfold State.byte; rw [he]; show Map.get 0 a.mem.cells x = _; rw [ha]

theorem State.cmdFault_faulted (t : State) (c : Cmd) (code : Nat) : Faulted t (t.cmdFault c code) := t.execFault_faulted _
theorem State.illegal_faulted (t : State) (c : Cmd) : Faulted t (t.illegal c) := t.execFault_faulted _

/-! ### Marks of a suspect unit -/

/-- Between `s` and `t` nothing differs but objects (no job's state among them), the configuration copies, reports and windows, the
engines' pauses, pins and vectors. -/
def Marks (s t : State) : Prop :=
  t = { s with dict := t.dict, net := t.net, integ := t.integ, engines := t.engines, pins := t.pins, host := t.host } ∧
  t.integ.recoverySince = s.integ.recoverySince ∧ ∀ j, j < 64 → t.job j = s.job j

theorem Marks.refl (s : State) : Marks s s := ⟨rfl, rfl, fun _ _ => rfl⟩

theorem Marks.trans {a b c : State} (h : Marks a b) (k : Marks b c) : Marks a c := by
  refine ⟨?_, k.2.1.trans h.2.1, fun j hj => (k.2.2 j hj).trans (h.2.2 j hj)⟩
  have h1 := h.1
  have k1 := k.1
  rw [h1] at k1
  exact k1

/-- Marks after an execution fault leave it one. -/
theorem Marks.faulted {t u v : State} (h : Faulted t u) (k : Marks u v) : Faulted t v := by
  obtain ⟨h1, h2, h3, h4, h5, h6, h7, h8, h9⟩ := h
  have e := k.1
  refine ⟨fun j l => by rw [k.2.2 j l, h1 j l], fun q => ?_, by rw [e, ← h3], by rw [e, ← h4], by rw [e, ← h5], ?_,
    by rw [e, ← h7], by rw [e, ← h8], fun a => ?_⟩
  · rw [← h2 q]; unfold State.queue; rw [e]
  · rw [← h6]; unfold State.recovering; rw [k.2.1]
  · rw [← h9 a]; unfold State.byte; rw [e]

theorem marks_setNum (s : State) (k v : Nat) (h : k < objKey 0x2010 0 ∨ objKey 0x2050 0 ≤ k) : Marks s (s.setNum k v) := by
  refine ⟨rfl, rfl, fun j hj => State.num_setNum_other _ _ ?_⟩
  simp only [jobStateKey, objKey, ne_eq] at *; omega

theorem marks_bump (s : State) (k v : Nat) (h : k < objKey 0x2010 0 ∨ objKey 0x2050 0 ≤ k) : Marks s (s.bump k v) :=
  marks_setNum _ _ _ h

theorem marks_report (s : State) (r : Report) : Marks s (s.report r) := by
  refine ⟨by rw [State.report_frame], State.report_recoverySince _ _, fun j hj => State.num_report_other _ _ ?_⟩
  simp only [jobStateKey, objKey, ne_eq]; omega

theorem marks_durable (s o : State) : Marks s (s.durable o) :=
  ⟨rfl, rfl, fun j hj => State.num_bump_other _ _ (by simp only [jobStateKey, objKey, ne_eq]; omega)⟩

theorem suspectKey_high (u : UnitId) : objKey 0x2050 0 ≤ suspectKey u := by
  unfold suspectKey; split <;> simp only [objKey] <;> omega

theorem marks_fence (s : State) (u : UnitId) : Marks s (s.fence_ u) := by
  unfold State.fence_
  split
  · exact Marks.refl s
  · exact ((marks_setNum s _ _ (.inr (suspectKey_high u))).trans (marks_durable _ _)).trans (marks_report _ _)

theorem marks_setPaused (s : State) (c : Nat) (b : Bool) : Marks s (s.setPaused c b) := by
  unfold State.setPaused
  have : ∀ (l : List UnitId) (s : State), Marks s (l.foldl (fun s u => s.setEngine u { s.engine u with paused := b }) s) := by
    intro l
    induction l with
    | nil => exact fun s => Marks.refl s
    | cons x l ih => exact fun s => Marks.trans ⟨rfl, rfl, fun _ _ => rfl⟩ (ih _)
  exact this _ _

theorem marks_serviceRequired (s : State) : Marks s s.serviceRequired := by
  unfold State.serviceRequired
  split
  · exact Marks.refl _
  · exact ((marks_setNum _ _ _ (.inr (by decide))).trans (marks_durable _ _)).trans ⟨rfl, rfl, fun _ _ => rfl⟩

theorem marks_countSuspicion (s : State) (c : Nat) : Marks s (s.countSuspicion c) := by
  unfold State.countSuspicion
  extract_lets n
  split
  · exact Marks.refl s
  · split
    · exact (marks_setNum s _ _ (.inr (suspectKey_high _))).trans (marks_durable _ _)
    · exact (marks_setNum s _ _ (.inr (by simp only [objKey]; omega))).trans (marks_durable _ _)

theorem marks_exhausted (s : State) (c : Nat) : Marks s (s.exhausted c) := by
  unfold State.exhausted
  split
  · exact marks_fence _ _
  · exact (((marks_setNum s _ _ (.inr (by simp only [objKey]; omega))).trans (marks_durable _ _)).trans (marks_serviceRequired _)).trans
      (marks_report _ _)

/-- What makes a unit suspect leaves jobs, queues, commands, memory, fences and tables alone. -/
theorem marks_makeSuspect (s : State) (c : Nat) : Marks s (s.makeSuspect c) := by
  unfold State.makeSuspect
  split
  · exact Marks.refl s
  · extract_lets u
    refine (marks_countSuspicion s c).trans ?_
    split
    · exact marks_exhausted _ _
    · exact Marks.trans ⟨rfl, rfl, fun _ _ => rfl⟩ (marks_setPaused _ _ _)

theorem State.parityFault_faulted (s : State) (c : Cmd) (u : UnitId) : Faulted s (s.parityFault c u) :=
  Marks.faulted (s.cmdFault_faulted c _) (marks_makeSuspect _ _)

/-! ### Time -/

@[simp] theorem State.tick_zero (s : State) : s.tick 0 = s := rfl

theorem State.chargeCmd_frame (s : State) (dt : Nat) (c : Cmd) :
    s.chargeCmd dt c = { s with dict := (s.chargeCmd dt c).dict, engines := (s.chargeCmd dt c).engines } := by
  unfold State.chargeCmd
  split
  · rfl
  · split
    · rfl
    · extract_lets e i b t
      unfold State.acct
      split <;> (first | rfl | (split <;> rfl))

theorem State.chargeRefresh_frame (s : State) (dt : Nat) : s.chargeRefresh dt = { s with dict := (s.chargeRefresh dt).dict } :=
  foldl_dict _ (fun s k => by split <;> rfl) _ _

theorem State.chargeSuspended_frame (s : State) (dt : Nat) : s.chargeSuspended dt = { s with dict := (s.chargeSuspended dt).dict } := by
  unfold State.chargeSuspended
  split <;> rfl

end Sys2Proof.Machine
end

