-- ==== Sys2Proof/WellFormed.lean ====
section
/-! DEFINITION. Which commands the outside can send: every number names a thing the manual gives the package, and every field fits its
width; SPDM has no rack transport (R461). An ill-formed command stands for nothing on the hardware; `exec` is total all the same. -/
namespace Sys2Proof

/-- The message's fields fit the header of R40. -/
def DictMsg.wellFormed (m : DictMsg) : Bool :=
  decide (m.version < 2 ^ 8 ∧ m.transaction < 2 ^ 16 ∧ m.index < 2 ^ 16 ∧ m.sub < 2 ^ 8 ∧ m.type < 2 ^ 8 ∧ m.offset < 2 ^ 32 ∧
    m.length < 2 ^ 16)

/-- The fields of the transport's own header fit it: the enterprise number of R46, the Edtal header of R42. -/
def Via.wellFormed : Via → Bool
  | .host => true
  | .board h => decide (h.dest < 2 ^ 8 ∧ h.source < 2 ^ 8 ∧ h.tag < 2 ^ 3 ∧ h.enterprise < 2 ^ 32) && h.packets.all (fun p => p.2.2 < 4)
  | .rack h =>
    decide (h.dest.length = 6 ∧ h.source.length = 6 ∧ h.etherType < 2 ^ 16 ∧ h.version < 2 ^ 8 ∧ h.length < 2 ^ 16 ∧ h.session < 2 ^ 32 ∧
      h.sequence < 2 ^ 64) && (!h.signed || decide (h.signature.length = 64))

/-- A request as one of the three transports can carry it. -/
def Request.wellFormed (r : Request) : Bool := r.via.wellFormed && r.msg.wellFormed

/-- The unit of the kind code of R411 exists with that number (R13): the engines that execute commands. -/
def unitExists (kind num : Nat) : Bool :=
  decide (kind ≤ 2 ∧ num < 256 ∨ kind = 3 ∧ num < 64 ∨ kind = 4 ∧ num < 32)

/-- The words are code words of stacked memory, and the bits are bits of one (R252, R257). -/
def Upset.wellFormed : Upset → Bool
  | .flip w l => decide (w % 32 = 0 ∧ w < 0xC000000000) && l.all (fun b => decide (b < 288))
  | .misread w o => decide (w % 32 = 0 ∧ w < 0xC000000000 ∧ o % 32 = 0 ∧ o < 0xC000000000)

/-- A command's operands name what exists and fit their fields. -/
def Instr.wellFormed : Instr → Bool
  | .suppliesValid _ => true
  | .startupStageComplete _ _ => true
  | .startupUsable _ => true
  | .trialTimeout _ => true
  | .supplyLoss _ _ => true
  | .vmgtLoss _ => true
  | .supplyOutOfRange _ _ => true
  | .supplyRestored _ _ => true
  | .perstDeassert _ => true
  | .restart _ arg request => decide (arg < 2 ^ 32) && request.wellFormed
  | .objectRead _ request => request.wellFormed
  | .objectWrite _ request => request.wellFormed
  | .objectDescribe _ request => request.wellFormed
  | .objectEnumerate _ request => request.wellFormed
  | .segmentRead _ request => request.wellFormed
  | .segmentWrite _ request => request.wellFormed
  | .sessionOpen _ request => request.wellFormed
  | .sessionProve _ request => request.wellFormed
  | .sessionClose _ request => request.wellFormed
  | .sessionIdleTimeout _ _ => true
  | .foreignFrameDiscard ⟨_, .frame dest etherType⟩ => decide (dest.length = 6 ∧ etherType < 2 ^ 16)
  | .foreignFrameDiscard ⟨_, .message enterprise⟩ => decide (enterprise < 2 ^ 32)
  | .plcaChangeApply _ => true
  | .rackKeyWrite _ slot _ request => decide (1 ≤ slot ∧ slot ≤ 8) && request.wellFormed
  | .i3cEntdaa _ address => decide (address < 128)
  | .restoreDefaults _ arg request => decide (arg < 2 ^ 32) && request.wellFormed
  | .coreClockSet _ core mhz request => decide (core < 256 ∧ mhz < 2 ^ 16) && request.wellFormed
  | .voltageSettled _ cluster => decide (cluster < 32)
  | .clockChangeApply _ core => decide (core < 256)
  | .clockRelockDone _ core => decide (core < 256)
  | .tenancyStart _ owner request => decide (owner < 2 ^ 32) && request.wellFormed
  | .tenancyEnd _ arg request => decide (arg < 2 ^ 32) && request.wellFormed
  | .tenancyEndDrained _ => true
  | .tenancyEndComplete _ => true
  | .jobOpen _ job arg request => decide (job < 64 ∧ arg < 2 ^ 32) && request.wellFormed
  | .jobClose _ job arg request => decide (job < 64 ∧ arg < 2 ^ 32) && request.wellFormed
  | .jobCloseComplete _ job => decide (job < 64)
  | .accountingSnapshot _ account request => decide (account < 2 ^ 32) && request.wellFormed
  | .epochsStart _ _ request => request.wellFormed
  | .boundaryCommit _ => true
  | .syncInEdge _ => true
  | .windowDecide _ => true
  | .epochBoundary _ => true
  | .applyTableStart _ unit table => decide (unit < 32 ∧ table < 1024)
  | .applyRow _ unit => decide (unit < 32)
  | .applyBudgetExpire _ unit table => decide (unit < 32 ∧ table < 1024)
  | .slotRelease _ table => decide (table < 1024)
  | .refreshSlotReceive _ table row tier _ => decide (table < 1024 ∧ row < 2 ^ 40 ∧ tier < 3)
  | .refreshMarkerReceive _ table chip unit => decide (table < 1024 ∧ chip < 4096 ∧ unit < 32)
  | .timeMessageReceive _ port _ _ => decide (port < 6)
  | .alignmentLoss _ => true
  | .tableCreate _ engine => decide (engine < 64)
  | .tableInitComplete _ table => decide (table < 1024)
  | .tableDestroy _ engine => decide (engine < 64)
  | .tableDestroyComplete _ table => decide (table < 1024)
  | .tableLoad _ engine => decide (engine < 64)
  | .tableRead _ engine => decide (engine < 64)
  | .tableSwap _ engine => decide (engine < 64)
  | .tableReplicate _ engine => decide (engine < 64)
  | .tablePin _ engine => decide (engine < 64)
  | .epochFence _ engine => decide (engine < 64)
  | .epochRead _ engine => decide (engine < 64)
  | .tableSnapshot _ table request => decide (table < 2 ^ 32) && request.wellFormed
  | .lookup _ _ => true
  | .shardedLookup _ _ => true
  | .rowReadReturn _ _ _ => true
  | .requestSliceArrive _ channel _ => decide (channel < 16)
  | .returnSliceArrive _ channel _ => decide (channel < 16)
  | .exchangeTimeout _ _ => true
  | .gradientPush _ unit => decide (unit < 32)
  | .contributionFold _ unit => decide (unit < 32)
  | .updateExchange _ unit => decide (unit < 32)
  | .updateSliceArrive _ channel _ => decide (channel < 16)
  | .updateExchangeTimeout _ unit => decide (unit < 32)
  | .trainConfigure _ unit => decide (unit < 32)
  | .matrixMultiply _ core _ _ => decide (core < 256)
  | .matrixCapture _ turn => decide (turn.core < 256)
  | .weightBankRead _ turn => decide (turn.core < 256)
  | .vectorRun _ core => decide (core < 256)
  | .laneProgramRun _ core => decide (core < 256)
  | .laneProgramLoad _ core => decide (core < 256)
  | .vectorGroup _ core _ _ => decide (core < 256)
  | .streamArm _ core => decide (core < 256)
  | .streamRegulate _ core => decide (core < 256)
  | .streamTile _ core slot => decide (core < 256 ∧ slot < 16)
  | .streamRequestIssue _ core slot => decide (core < 256 ∧ slot < 16)
  | .streamWritePerformed _ core slot _ _ _ => decide (core < 256 ∧ slot < 16)
  | .queueEnable _ queue value => decide (queue < 1024 ∧ value < 2 ^ 64)
  | .queueDisable _ queue value => decide (queue < 1024 ∧ value < 2 ^ 64)
  | .registerWrite _ offset value width => decide (offset < 2 ^ 23 ∧ value < 2 ^ (8 * width) ∧ (width = 1 ∨ width = 2 ∨ width = 4 ∨ width = 8))
  | .doorbell _ queue value _ => decide (queue < 1024 ∧ value < 2 ^ 64)
  | .slotFetch _ queue => decide (queue < 1024)
  | .slotReread _ queue => decide (queue < 1024)
  | .commandFetch _ queue => decide (queue < 1024)
  | .commandStart _ kind num => unitExists kind num
  | .commandComplete _ _ => true
  | .launchComplete _ queue => decide (queue < 1024)
  | .queueDrainDone _ queue => decide (queue < 1024)
  | .noOp _ _ => true
  | .fenceSignal _ _ => true
  | .fenceWait _ _ => true
  | .fenceWaitTimeout _ _ => true
  | .tagInvalidate _ _ => true
  | .hostFence _ _ => true
  | .barrier _ _ => true
  | .fenceValueWrite _ fence value _ => decide (fence < 4096 ∧ value < 2 ^ 64)
  | .queueSnapshot _ queue request => decide (queue < 2 ^ 32) && request.wellFormed
  | .floorIntervalEnd _ kind num => unitExists kind num
  | .watchdogExpiry _ _ => true
  | .recoveryComplete _ _ => true
  | .trnInval _ value => decide (value < 2 ^ 64)
  | .trnInvalOverrunClear _ tag => decide (tag < 256)
  | .invalidateTag _ tag request => decide (tag < 2 ^ 32) && request.wellFormed
  | .invalidationComplete _ tag => decide (tag < 256)
  | .walkComplete _ cluster tag _ => decide (cluster < 32 ∧ tag < 256)
  | .trnResume _ value => decide (value < 2 ^ 64)
  | .migrationGo _ value => decide (value < 2 ^ 64)
  | .migrationComplete _ => true
  | .scrubStep _ stack finding => decide (stack < 32) && finding.upsets.all Upset.wellFormed
  | .retireNow _ page request => decide (page < 2 ^ 32) && request.wellFormed
  | .stackTempSample _ stack _ => decide (stack < 32)
  | .sramScrub _ _ _ => true
  | .recorderStart _ => true
  | .digestRegionRead _ group => decide (group < 8)
  | .digestMessageReceive _ group _ => decide (group < 8)
  | .digestTimeout _ group => decide (group < 8)
  | .verifyDigest _ pair => decide (pair < 16)
  | .verifyValueReceive _ pair _ => decide (pair < 16)
  | .verifyTimeout _ pair => decide (pair < 16)
  | .declareWindow _ code request => decide (code < 2 ^ 32) && request.wellFormed
  | .testDeferralExpire _ _ => true
  | .iftStart _ _ => true
  | .iftComplete _ _ _ => true
  | .clearSuspicion _ arg request => decide (arg < 2 ^ 32) && request.wellFormed
  | .powerSample _ _ _ _ _ => true
  | .fennelGrant _ die => decide (die < 8)
  | .engineClockGate _ kind num => unitExists kind num
  | .logicTempSample _ cluster _ => decide (cluster ≤ 32)
  | .coolantReport _ _ value request => decide (value < 2 ^ 16) && request.wellFormed
  | .coolantReportStale _ => true
  | .coolantCapRelease _ => true
  | .ucieRetryExhausted _ number _ _ => decide (number < 34)
  | .varxLinkUp _ port => decide (port < 6)
  | .varxLinkDown _ port _ => decide (port < 6)
  | .varxRetrain _ port _ => decide (port < 6)
  | .sequencedFrameReceive _ port _ _ _ => decide (port < 6)
  | .acknowledgeReceive _ port kind value => decide (port < 6 ∧ kind < 3 ∧ value < 2 ^ 32)
  | .creditReceive _ port _ _ channel _ _ => decide (port < 6 ∧ channel < 16)
  | .beaconTimer _ port => decide (port < 6)
  | .beaconReceive _ port _ partnerPort _ _ _ _ _ _ => decide (port < 6 ∧ partnerPort < 6)
  | .discoveryReport _ port _ _ => decide (port < 6)
  | .reportResend _ => true
  | .rootLossTimeout _ => true
  | .remoteRequestReceive _ _ _ _ _ _ _ _ => true
  | .remoteResponseReceive _ _ status _ => status < 2 ^ 32
  | .remoteRequestTimeout _ _ => true
  | .allReduce _ _ => true
  | .reduceScatter _ _ => true
  | .allGather _ _ => true
  | .channelAcquire _ channel => decide (channel < 16)
  | .channelWaitTimeout _ channel _ => decide (channel < 16)
  | .collectiveChunk _ _ => true
  | .collectiveDataReceive _ port channel _ _ _ _ _ _ _ _ => decide (port < 6 ∧ channel < 16)
  | .collectiveTimeout _ _ => true
  | .hostLinkUp _ _ _ => true
  | .hostLinkLoss _ _ => true
  | .linkRecovery _ _ => true
  | .hdmCommit _ base => decide (base < 2 ^ 64)
  | .hostAttach _ => true
  | .hostClearLog _ => true
  | .hostMemRead _ address _ => decide (address < 2 ^ 64)
  | .hostMemWrite _ address _ _ => decide (address < 2 ^ 64)
  | .peerMemRequest _ address => decide (address < 2 ^ 64)
  | .hostReadData _ _ _ _ => true
  | .hostGoReceive _ _ _ => true
  | .hostSnoop _ address => decide (address < 2 ^ 64)
  | .vectorSend _ _ => true
  | .mailboxDictionaryRequest _ _ _ _ => true
  | .mailboxActionStatus _ _ _ => true
  | .identifyMemoryDevice _ => true
  | .getSupportedLogs _ => true
  | .getLog _ _ _ _ => true
  | .getEventRecords _ log => decide (log < 256)
  | .clearEventRecords _ log _ _ => decide (log < 256)
  | .getEventInterruptPolicy _ => true
  | .setEventInterruptPolicy _ _ => true
  | .getPoisonList _ _ _ => true
  | .getTimestamp _ => true
  | .setTimestamp _ timestamp => decide (timestamp < 2 ^ 64)
  | .getFwInfo _ => true
  | .transferFw _ _ _ _ _ => true
  | .activateFw _ _ _ => true
  | .slotErase _ request => request.wellFormed
  | .slotEraseComplete _ => true
  | .slotActivate _ request => request.wellFormed
  | .commitSecurityVersion _ version request => decide (version < 2 ^ 32) && request.wellFormed
  | .spdmGetVersion _ transport _ => decide (transport ≠ .rack)
  | .spdmGetCapabilities _ transport _ => decide (transport ≠ .rack)
  | .spdmNegotiateAlgorithms _ transport _ => decide (transport ≠ .rack)
  | .spdmGetDigests _ transport _ => decide (transport ≠ .rack)
  | .spdmGetCertificate _ transport _ => decide (transport ≠ .rack)
  | .spdmChallenge _ transport _ => decide (transport ≠ .rack)
  | .spdmGetMeasurements _ transport _ => decide (transport ≠ .rack)
  | .spdmKeyExchange _ transport _ => decide (transport ≠ .rack)
  | .spdmFinish _ transport _ _ => decide (transport ≠ .rack)
  | .spdmHeartbeat _ transport _ => decide (transport ≠ .rack)
  | .spdmKeyUpdate _ transport _ op tag => decide (transport ≠ .rack ∧ op < 256 ∧ tag < 256)
  | .spdmEndSession _ transport _ => decide (transport ≠ .rack)
  | .vmgtValid _ => true
  | .regulatorsSwitchOn _ => true
  | .configurationRequest _ _ _ _ => true
  | .ideKmMessage _ _ _ _ => true
  | .syncOutPulseEnd _ => true
  | .timeMessageSend _ => true

end Sys2Proof
end

