-- ==== Sys2Proof/Tests/Slice0.lean ====
section
/-! SUPPORT. Tests: ill-formed commands that `Instr.wellFormed` refuses; for every statement of the certificates, states and operands
that meet its hypotheses, clause by clause, with the outcome there. Expected values are hand calculations from the rules cited.
Each runs one command on a small state. -/
namespace Sys2Proof.Tests
set_option Elab.async false
open Sys2Proof Sys2Proof.Machine

/-- The outcome is a next state with a property. -/
def ends (p : State → Bool) : Host.Outcome State Fault Refusal → Bool
  | .next t => p t
  | _ => false

/-- The outcome is a stop with a fault. -/
def faults (p : Fault → Bool) : Host.Outcome State Fault Refusal → Bool
  | .fault r => p r
  | _ => false

/-- The outcome is a refusal. -/
def refuses (p : Refusal → Bool) : Host.Outcome State Fault Refusal → Bool
  | .refused r => p r
  | _ => false

/-- A package in use: started, with a tenancy of owner 9, job 5 open, and the host attached with device memory at 2⁴⁰. -/
def up : State :=
  let r := State.reset
  let s : State := { r with
    now := 5000000000
    startup := { r.startup with stage := .usable, supply12 := true, supplyMgt := true, supplyIo := true, regulators := true }
    host := { r.host with
      perst := true, phy := true, dlUp := true, memSpace := true, busMaster := true, msix := true, committed := true } }
  { s with dict := { s.dict with nums := [
    (0x12A001, 1), (0x200003, 1), (0x200005, 9), (0x200007, 1), (0x201501, jobOpen), (0x260001, 0x10000000000), (0x310001, 2)] } }

/-- A dictionary message by the host's mailbox. -/
def ask (index sub type : Nat) (value : Bytes) : Request :=
  { via := .host, held := 0, waits := false, whole := true, store := true,
    msg := { version := 1, transaction := 7, index := index, sub := sub, type := type, offset := 0, length := value.length,
             value := value } }

/-- The last mailbox payload, and the status byte of a dictionary reply (R40). -/
def lastReply (u : State) : Bytes :=
  match u.out.getLast? with
  | some (.mailbox _ b) => b
  | some (.reply .rack b) => b.drop 30
  | some (.reply _ b) => b.drop 9
  | _ => []

def status (u : State) : Nat := fieldLe (lastReply u) 14 1

/-- A command of a queue that runs on an engine. -/
def onEngine (id job : Nat) (unit : Option UnitId) (bytes : Bytes) : Cmd :=
  { id := id, queue := 16 * job, index := 0, job := job, bytes := bytes, unit := unit, phase := .running, started := 0, watched := 0,
    held := none, xl := [], armed := false, unwatched := false, uncharged := false, progress := 0, scratch := [] }

/-- Bytes of a command: fields as (byte, width, value) in 64 bytes of zeros. -/
def words (fields : List (Nat × Nat × Nat)) : Bytes :=
  fields.foldl (fun b f => overlay b f.1 (natLe f.2.1 f.2.2)) (List.replicate 64 0)

/-! ### Ill-formed commands -/

theorem test_refuses_numbers :
    ([.rackKeyWrite 0 9 [] (ask 0x5020 1 0x0D []), .i3cEntdaa 0 128, .voltageSettled 0 32, .clockChangeApply 0 256, .jobCloseComplete 0 64,
      .applyTableStart 0 32 0, .applyTableStart 0 0 1024, .refreshSlotReceive 0 0 0 3 [], .timeMessageReceive 0 6 0 0, .tableCreate 0 64,
      .tableInitComplete 0 1024, .requestSliceArrive 0 16 [], .gradientPush 0 32, .matrixMultiply 0 256 0 false, .streamTile 0 0 16,
      .slotFetch 0 1024] : List Instr).all (fun i => !i.wellFormed) = true := by decide +kernel

theorem test_refuses_more_numbers :
    ([.commandStart 0 3 64, .floorIntervalEnd 0 5 0, .queueEnable 0 1024 0, .doorbell 0 0 (2 ^ 64) true, .fenceValueWrite 0 4096 0 true,
      .registerWrite 0 (2 ^ 23) 0 8, .registerWrite 0 0 0 3, .trnInvalOverrunClear 0 256, .walkComplete 0 32 0 0, .scrubStep 0 0 ⟨[.flip 3 []], 0⟩,
      .scrubStep 0 0 ⟨[.flip 32 [288]], 0⟩, .stackTempSample 0 32 0, .digestTimeout 0 8, .verifyDigest 0 16, .fennelGrant 0 8, .logicTempSample 0 33 0,
      .ucieRetryExhausted 0 34 ⟨0, 0⟩ .over, .varxLinkUp 0 6, .acknowledgeReceive 0 0 3 0, .channelAcquire 0 16, .hdmCommit 0 (2 ^ 64),
      .setTimestamp 0 (2 ^ 64), .getEventRecords 0 256, .spdmGetVersion 0 .rack []] : List Instr).all (fun i => !i.wellFormed) = true := by
  decide +kernel

theorem test_refuses_messages :
    (({ ask 0 0 0 [] with via := .rack ⟨List.replicate 5 0, List.replicate 6 0, 0, 1, false, 16, 0, 0, []⟩ } : Request).wellFormed ||
     ({ ask 0 0 0 [] with via := .rack ⟨List.replicate 6 0, List.replicate 6 0, 0, 1, true, 16, 0, 0, [0]⟩ } : Request).wellFormed ||
     ({ ask 0 0 0 [] with via := .board ⟨0, 0, 0, 2 ^ 32, [(true, true, 0)]⟩ } : Request).wellFormed ||
     ({ ask 0 0 0 [] with via := .board ⟨0, 0, 0, 0, [(true, true, 4)]⟩ } : Request).wellFormed ||
     (Instr.foreignFrameDiscard ⟨0, .frame [] 0⟩).wellFormed ||
     (ask 0x10000 0 0 []).wellFormed || (ask 0 256 0 []).wellFormed || (ask 0 0 256 []).wellFormed) = false ∧
    (Instr.objectRead 0 (ask 0x1000 1 0 [])).wellFormed = true := by decide +kernel

/-! ### The machine and memory -/

theorem test_step_takes_front_command :
    ends (fun u => u.pending = [.vmgtValid 3] ∧ u.host.perst = true)
      (step { State.reset with pending := [.perstDeassert 2, .vmgtValid 3] }) = true := by decide +kernel

theorem test_step_idles : ends (fun u => u.now = 0) (step State.reset) = true := by decide +kernel

theorem test_stops :
    faults (· = .outsideBar) (exec (.registerWrite 0 0x800000 0 8) State.reset) = true ∧
    faults (· = .outsideBar) (exec (.doorbell 0 1024 0 true) State.reset) = true ∧
    faults (· = .outsideDeviceMemory) (exec (.hostMemRead 0 0x1C000000000 1) up) = true ∧
    faults (· = .outsideDeviceMemory) (exec (.hostMemWrite 0 0xFFFFFFFFFF [1] false) up) = true ∧
    faults (· = .outsideDeviceMemory) (exec (.peerMemRequest 0 0x1C000000000) up) = true ∧
    refuses (· = .cxlStandardRegister) (exec (.registerWrite 0 0x1FFFF 0 8) State.reset) = true := by decide +kernel

/-- A next step from a state with canonical memory. -/
theorem test_step_keeps_canonical :
    up.mem.wf = true ∧ ends (fun u => u.mem.cells = [(0x20, 7)])
      (step { up with pending := [.hostMemWrite 0 0x10000000020 (7 :: List.replicate 31 0) false] }) = true := by decide +kernel

/-- R57: time passing charges the job of the oldest command in flight. -/
theorem test_tick_charges :
    let t := ({ up with cmds := [onEngine 1 5 (some ⟨.matrix, 3⟩) []] } : State).tick 40
    t.now = 5000000040 ∧ t.num (acctKey 5 1) = 40 ∧ (t.engine ⟨.matrix, 3⟩).balances = [(5, -40)] ∧
    (t.cmds.map (fun c => c.watched)) = [40] := by decide +kernel

/-- Time stops 1 ns short of a committed boundary (R64, notes/assumptions/113.md), and an offset of 100 ns is taken off at 100 ppm: 2 ns in 20 µs (R72). -/
theorem test_time_passes :
    let epochsAt (next : Nat) : State := { up with dict := { up.dict with nums := [
      (0x12A001, 1), (0x200003, 1), (0x200005, 9), (0x200007, 1), (0x201501, 1), (0x210003, 1), (0x210006, next), (0x260001, 0x10000000000),
      (0x310001, 2)] } }
    (epochsAt 5000000001).horizon = some 5000000000 ∧ ((epochsAt 5000000001).tick 5).now = 5000000000 ∧ up.horizon = none ∧
    (up.tick 20000).now = 5000020000 ∧
    (({ up with epochs := { up.epochs with toCorrect := 100 } } : State).tick 20000).now = 5000019998 := by decide +kernel

/-- The last code word of stacked memory; a retired page; a partial code word (R258, R268). -/
theorem test_writes :
    let s : State := { up with mem := { up.mem with retired := [3] } }
    isStacked 0xBFFFFFFFE0 = true ∧ s.meetsRetired 0xBFFFFFFFE0 32 = false ∧
    (s.write ⟨.c1, none⟩ 0xBFFFFFFFE0 (List.replicate 32 1)).2.byte 0xBFFFFFFFFF = 1 ∧
    s.meetsRetired 0x7FFFFF 1 = true ∧ (s.write ⟨.c1, none⟩ 0x7FFFFF [1]).1 = .bad 0x1003 ∧
    wholeWords 0x20 31 = false ∧ (s.write ⟨.c1, none⟩ 0x20 (List.replicate 31 1)).1 = .bad 0x1002 := by decide +kernel

theorem test_reads :
    let s : State := { up with mem := { up.mem with retired := [3], bad := [0x40], sramBad := [0xF000000008] } }
    (s.read ⟨.c1, none⟩ 0x600000 1).1 = .bad 0x1003 ∧
    s.firstBad 0x5F 1 = some 0x40 ∧ (s.read ⟨.c1, none⟩ 0x5F 1).1 = .bad 0x1001 ∧ (s.read ⟨.c1, none⟩ 0x5F 1).2.mem.pendingPages = [0] ∧
    s.firstBad 0x60 32 = none ∧ (s.read ⟨.c1, none⟩ 0x60 2).1 = .ok [0, 0] ∧
    isStacked 0xF00000000F = false ∧ (s.read ⟨.c1, none⟩ 0xF00000000F 1).1 = .bad 0x1007 ∧
    s.firstSramBad 0xF000000010 8 = none ∧ (s.read ⟨.c1, none⟩ 0xF000000010 1).1 = .ok [0] := by decide +kernel

/-! ### Start-up and supplies -/

/-- A start-up at a stage. -/
def starting (g : Stage) : State := { State.reset with startup := { State.reset.startup with
  stage := g, supply12 := true, supplyMgt := true, supplyIo := true, regulators := true } }

/-- A step that passes, with no checker failed. -/
def passes : StageOutcome :=
  { passed := true, unit := 0, failed := [], copy0 := true, copy1 := true, lists0 := true, lists1 := true, boot0 := true, boot1 := true,
    chain := true }

theorem test_supplies_valid :
    State.reset.startup.stage = .off ∧ State.reset.pins.thermTrip = false ∧
    ends (fun u => u.startup.stage = .fuses ∧ u.now = 0) (exec (.suppliesValid 5) State.reset) = true ∧
    ends (fun u => u.startup.stage = .usable) (exec (.suppliesValid 0) up) = true ∧
    ends (fun u => u.startup.stage = .off)
      (exec (.suppliesValid 0) { State.reset with pins := { fault := true, thermTrip := true } }) = true := by decide +kernel

theorem test_regulators_on :
    (starting .restarting).startup.stage = .restarting ∧
    ends (fun u => u.startup.stage = .fuses ∧ u.num (objKey 0x12A0 4) = 1) (exec (.regulatorsSwitchOn 0)
      { starting .restarting with startup := { (starting .restarting).startup with cause := 1 } }) = true := by decide +kernel

theorem test_supply_losses :
    ends (fun u => u.startup.stage = .off ∧ u.host.dlUp = false ∧ u.startup.supplyMgt = true) (exec (.supplyLoss 0 true) up) = true ∧
    ends (fun u => u.startup.supplyMgt = false ∧ u.integ.log = []) (exec (.vmgtLoss 0) up) = true := by decide +kernel

theorem test_startup_steps :
    ([(.fuses, .ucie), (.ucie, .cxlPhy), (.cxlPhy, .slot), (.slot, .otherSlot), (.firmware, .checkers), (.checkers, .stacks),
      (.stacks, .retirement), (.retirement, .zeroing), (.zeroing, .engines)] : List (Stage × Stage)).all (fun e =>
        (starting e.1).starting &&
        ends (fun u => u.startup.stage = e.2) (exec (.startupStageComplete 0 passes) (starting e.1))) = true := by decide +kernel

theorem test_startup_ends_engines :
    ends (fun u => u.startup.stage = .usable) (exec (.startupStageComplete 0 passes) (starting .engines)) = true := by decide +kernel

/-- Copy 1 of the boot control is the newer and bad: copy 0 says slot 1; with both bad, slot 0 (R463, log 137). Of the lists, the
newer copy 0 is bad and copy 1 holds page 9 (R267). -/
theorem test_older_copies :
    let s : State := { starting .fuses with startup := { (starting .fuses).startup with newestBoot := 1, olderBoot := (1, true, 0) } }
    let l : State := { starting .retirement with mem := { State.reset.mem with retired := [3], olderRetired := [9] } }
    ends (fun u => u.startup.preferred = 1 ∧ u.startup.trial) (exec (.startupStageComplete 0 { passes with boot1 := false }) s) = true ∧
    ends (fun u => u.startup.preferred = 0 ∧ !u.startup.trial)
      (exec (.startupStageComplete 0 { passes with boot0 := false, boot1 := false }) s) = true ∧
    ends (fun u => u.mem.retired = [9]) (exec (.startupStageComplete 0 { passes with lists0 := false }) l) = true ∧
    ends (fun u => u.mem.retired = [3]) (exec (.startupStageComplete 0 passes) l) = true := by decide +kernel

/-- UCIe, no valid slot, a checker of a walker (unit code 6 × 4,096), stacks (R456). -/
theorem test_startup_stops :
    ([(.ucie, 0x4002), (.otherSlot, 0x9002), (.checkers, 0x3008), (.stacks, 0x100A)] : List (Stage × Nat)).all (fun e =>
        (starting e.1).starting &&
        ends (fun u => u.num stopCodeKey = e.2 ∧ u.num startupKey = 2)
          (exec (.startupStageComplete 0 { passes with passed := false, failed := [0x6000] }) (starting e.1))) = true ∧
    (starting .otherSlot).slotValid 1 = false := by decide +kernel

theorem test_trial_falls_back :
    let s : State := { starting .stacks with now := 1999999999, startup := { (starting .stacks).startup with trialRun := true, preferred := 1 } }
    ends (fun u => u.startup.stage = .restarting ∧ u.startup.preferred = 0)
      (exec (.startupStageComplete 0 { passes with passed := false }) s) = true ∧
    ends (fun u => u.startup.stage = .restarting) (exec (.trialTimeout 1) s) = true ∧
    ends (fun u => u.startup.stage = .stacks) (exec (.trialTimeout 0) s) = true := by decide +kernel

theorem test_startup_usable :
    (starting .usable).starting = true ∧
    ends (fun u => u.num startupKey = 1 ∧ u.num (objKey 0x1001 5) = 1) (exec (.startupUsable 0) (starting .usable)) = true := by
  decide +kernel

theorem test_input_out_of_range :
    up.tripped = false ∧ ends (fun u => u.pins = ⟨true, true⟩) (exec (.supplyOutOfRange 0 true) up) = true ∧
    ends (fun u => u.startup.stage = .off) (exec (.supplyOutOfRange 0 false) (starting .slot)) = true ∧
    up.starting = false ∧ ends (fun u => u.power.supplyCap ∧ u.num (powerKey 2) = 1000) (exec (.supplyOutOfRange 0 false) up) = true ∧
    ends (fun u => u.num (powerKey 2) = 1500)
      (exec (.supplyRestored 0 1000000000) { up with power := { up.power with supplyCap := true } }) = true := by decide +kernel

/-! ### The dictionary -/

/-- Object 0x1011.01 counts store writes (R49). -/
theorem test_read_serves :
    up.serves 1 (ask 0x1011 1 5 []) = true ∧ (objRow 0x1011 1).any (fun o => o.readable .host && o.ty = .u64) = true ∧
    ends (fun u => status u = 0 ∧ (lastReply u).drop 16 = natLe 8 3 ∧ u.num 0x108301 = 1)
      (exec (.objectRead 0 (ask 0x1011 1 5 [])) (up.setNum 0x101101 3)) = true := by decide +kernel

/-- 0x2503.04 lists retired pages, four bytes each (R272). -/
theorem test_segment_read :
    let s : State := { up with mem := { up.mem with retired := [0x3FF] } }
    let r := ask 0x2503 4 0x0E []
    s.serves 5 r = true ∧ (objRow 0x2503 4).any (fun o => o.readable .host && o.ty = .domain) = true ∧
    ends (fun u => status u = 0 ∧ (lastReply u).drop 16 = [3, 0, 0])
      (exec (.segmentRead 0 { r with msg := { r.msg with offset := 1 } }) s) = true ∧
    ends (fun u => status u = 0x10) (exec (.segmentRead 0 { r with msg := { r.msg with offset := 4 } }) s) = true := by decide +kernel

theorem test_describe_enumerate :
    ends (fun u => status u = 0 ∧ fieldLe (lastReply u) 16 1 = 2) (exec (.objectDescribe 0 (ask 0x2010 2 0 [])) up) = true ∧
    nextObject 0x2010 6 = some (objKey 0x2011 0) ∧ nextObject 0xFFFF 255 = none ∧
    ends (fun u => status u = 0 ∧ fieldLe (lastReply u) 4 2 = 0x2011 ∧ fieldLe (lastReply u) 6 1 = 0)
      (exec (.objectEnumerate 0 (ask 0x2010 6 0 [])) up) = true ∧
    ends (fun u => status u = 1) (exec (.objectEnumerate 0 (ask 0xFFFF 255 0 [])) up) = true := by decide +kernel

/-- Statuses 1, 2, 3, 4, 5, 6, 7 and 0x11 of R41, each on the first object that gives it. -/
theorem test_write_refusals :
    ([(ask 0x1FFF 0 2 [0], 1), (ask 0x2010 9 2 [0], 2), (ask 0x2010 1 2 [0], 3), (ask 0x2010 2 3 [0], 4), (ask 0x2010 2 2 [0, 0], 5),
      (ask 0x2100 1 4 (natLe 4 999), 6), (ask 0x2010 2 2 [2], 7), (ask 0x5001 0 0x0E [0], 0x11)] : List (Request × Nat)).all (fun e =>
        up.serves 2 e.1 && ends (fun u => status u = e.2) (exec (.objectWrite 0 e.1) up)) = true := by decide +kernel

theorem test_write_reads_back :
    let r := ask 0x1100 1 3 (natLe 2 700)
    (objRow 0x1100 1).any (fun o => up.mayWrite 2 r o && o.persistent) = true ∧
    ends (fun u => status u = 0 ∧ u.num 0x110001 = 700 ∧ (lastReply u).drop 16 = natLe 2 700) (exec (.objectWrite 0 r) up) = true ∧
    ends (fun u => status u = 0x0F ∧ u.num 0x110001 = 1500) (exec (.objectWrite 0 { r with store := false }) up) = true := by
  decide +kernel

/-- Eight replies owed to the host's transport: the ninth request is refused with 9 ahead of them and counted (R37). -/
theorem test_busy :
    let s : State := { up with net := { up.net with owed := List.replicate 8 (.host, []) } }
    let r : Request := { ask 0x1100 1 3 (natLe 2 700) with held := 8 }
    s.arrives r = true ∧ s.room r = false ∧ s.room { r with held := 7 } = true ∧
    ends (fun u => status u = 9 ∧ u.num (objKey 0x1083 6) = 1 ∧ u.net.owed.length = 8) (exec (.objectRead 0 r) s) = true ∧
    ends (fun u => status u = 9 ∧ u.num 0x110001 = 1500) (exec (.objectWrite 0 r) s) = true := by decide +kernel

/-- A host request in the nanosecond of a rack message comes a nanosecond later (R35, notes/assumptions/1.md). -/
theorem test_same_nanosecond :
    let s : State := { up with net := { up.net with lastPlace := some (up.now, 2) } }
    transportRank (viaOf (ask 0 0 0 [])) = 0 ∧ s.reach 0 (ask 0 0 0 []) = s.tick 1 ∧
    ({ s with net := { s.net with lastPlace := some (up.now, 0) } } : State).reach 0 (ask 0 0 0 []) =
      { s with net := { s.net with lastPlace := some (up.now, 0) } } := by decide +kernel

/-- Job 63 is free, job 5 open (R55). -/
theorem test_job_class :
    up.mayPut (ask 0 0 0 []) (0x2010 + 63) 2 .u8 [0] = true ∧ up.job 63 = jobFree ∧ up.job 5 = jobOpen ∧
    ends (fun u => u.num (jobClassKey 63) = 0) (exec (.objectWrite 0 (ask (0x2010 + 63) 2 2 [0])) up) = true ∧
    ends (fun u => status u = 8 ∧ u.num (jobClassKey 5) = 1) (exec (.objectWrite 0 (ask 0x2015 2 2 [0])) up) = true := by decide +kernel

/-- The last byte of a slot, one past it, and a byte already programmed (R467). -/
theorem test_segment_write :
    let r := ask 0x5001 0 0x0E [0x5A]
    let at_ (n : Nat) : Request := { r with msg := { r.msg with offset := n } }
    let s : State := { up with startup := { up.startup with slotB := { bytes := [], programmed := [(0, 64)] } } }
    (objRow 0x5001 0).any (fun o => s.mayWrite 6 (at_ 29360127) o) = true ∧ s.inactiveSlot = 1 ∧
    ends (fun u => status u = 0 ∧ Map.get erasedByte (u.imageSlot 1).bytes 29360127 = 0x5A)
      (exec (.segmentWrite 0 (at_ 29360127)) s) = true ∧
    ends (fun u => status u = 0x10) (exec (.segmentWrite 0 (at_ 29360128)) s) = true ∧
    ends (fun u => status u = 8) (exec (.segmentWrite 0 (at_ 63)) s) = true ∧
    ends (fun u => status u = 8)
      (exec (.segmentWrite 0 (at_ 64)) { s with startup := { s.startup with erasing := true } }) = true := by decide +kernel

/-! ### Sessions and ports -/

/-- A rack message outside a session, or naming one. -/
def rackAsk (session : Nat) (value : Bytes) : Request :=
  { ask 0 0 0 value with via := .rack ⟨managementMac, List.replicate 6 9, 0x88B5, 1, false, 16 + value.length, session, 0, []⟩ }

def session (id : Nat) (proved : Bool) : Session :=
  { id := id, slot := 8, clientNonce := [], deviceNonce := [], proved := proved, lastSequence := 0, lastAccepted := 0 }

def keyed : State := { up with dict := { up.dict with blobs := [(0x502008, List.replicate 32 1)] } }

theorem test_session_open :
    let m := (rackAsk 0 (8 :: List.replicate 32 0)).msg
    keyed.dictReady = true ∧ (keyed.rackKey 8).all (· = 0) = false ∧ (keyed.sessionOpen m).1.status = 0 ∧
    (keyed.sessionOpen m).2.2.net.sessions.map (fun x => x.id) = [1] ∧ (keyed.sessionOpen m).2.2.net.draws = 1 ∧
    (({ keyed with net := { keyed.net with sessions := (List.range 4).map (fun i => session i true) } } : State).sessionOpen m).1.status =
      0x0E := by
  decide +kernel

/-- A frame to the management address of the EtherType in force is heard; the reply to a session open goes back as a frame. -/
theorem test_rack_heard (session : Nat) (value : Bytes) (h : value.length ≤ 1024) : keyed.hears (rackAsk session value) = true := by
  have e : keyed.num (objKey 0x1080 1) = 0x88B5 ∧ keyed.startup.supplyMgt = true ∧ keyed.net.owed = [] := by decide +kernel
  simp [State.hears, State.arrives, State.room, State.sendOwed, State.owedTo, State.ownFrame, rackAsk, ask, viaOf, e, h]

theorem test_session_prove_close_idle :
    let s : State := { keyed with net := { keyed.net with sessions := [session 1 false, session 2 true] } }
    s.net.sessions.find? (fun y => y.id = 1 && !y.proved) = some (session 1 false) ∧
    edVerify (s.rackKey 8) ([] ++ [] ++ Config.serial ++ natLe 4 1) [] = false ∧
    (s.sessionProve 1 (rackAsk 1 []).msg).1.status = 0x0C ∧ (s.sessionProve 1 (rackAsk 1 []).msg).2.net.sessions = [session 2 true] ∧
    (s.sessionClose 2 (rackAsk 2 []).msg).1.status = 0 ∧ (s.sessionClose 2 (rackAsk 2 []).msg).2.net.sessions = [session 1 false] ∧
    s.num (objKey 0x1080 3) = 60 ∧
    ends (fun u => u.net.sessions = [session 1 false])
      (exec (.sessionIdleTimeout 0 2) { s with now := 60000000000 }) = true := by decide +kernel

theorem test_messages_of_others :
    up.isForeign (.message (Config.enterpriseSource + 1)) = true ∧ up.isForeign (.message Config.enterpriseSource) = false := by
  simp [State.isForeign]

theorem test_ports :
    up.isForeign (.frame (List.replicate 6 0) 0x88B5) = true ∧
    ends (fun u => u.num (objKey 0x1083 7) = 1) (exec (.foreignFrameDiscard ⟨0, .frame (List.replicate 6 0) 0x88B5⟩) up) = true ∧
    ends (fun u => u.net.plcaPending = false ∧ u.net.plca.node = 3 ∧ u.plcaRole = .csmaCd)
      (exec (.plcaChangeApply 0) ({ up with net := { up.net with plcaPending := true } } |>.setNum (objKey 0x1081 2) 3)) = true ∧
    ([(0, .coordinator), (1, .follower), (254, .follower)] : List (Nat × PlcaRole)).all (fun e =>
      ends (fun u => u.plcaRole = e.2) (exec (.plcaChangeApply 0)
        ((({ up with net := { up.net with plcaPending := true } } : State).setNum (objKey 0x1081 1) 1).setNum (objKey 0x1081 2) e.1))) =
      true ∧
    ends (fun u => u.num (objKey 0x1082 1) = 127) (exec (.i3cEntdaa 0 127) up) = true := by decide +kernel

/-! ### Actions and writes with an effect -/

/-- `up` before its tenancy. -/
def bare : State := { up with dict := { up.dict with nums := [(0x12A001, 1), (0x260001, 0x10000000000), (0x310001, 2)] } }

/-- `up` with job 5 lost (state 3) or closing (state 2). -/
def withJob (n : Nat) : State := { up with dict := { up.dict with nums := [
  (0x12A001, 1), (0x200003, 1), (0x200005, 9), (0x200007, 1), (0x201501, n), (0x260001, 0x10000000000), (0x310001, 2)] } }

theorem test_tenancy_start :
    bare.mayStart (ask 0 0 0 []) 0x2000 1 0xFFFFFFFF = true ∧ bare.tenancy = 0 ∧ bare.manyPackages = false ∧
    ends (fun u => u.tenancy = 1 ∧ u.num 0x200004 = 1 ∧ u.num 0x200005 = 0xFFFFFFFF ∧ u.num 0x200006 = 5000000000 ∧ u.fences = [])
      (exec (.tenancyStart 0 0xFFFFFFFF (ask 0 0 0 [])) { bare with fences := [(3, 4)] }) = true := by decide +kernel

theorem test_tenancy_end :
    up.mayStart (ask 0 0 0 []) 0x2000 2 1 = true ∧ up.noArms 5 = true ∧ up.recovering = false ∧
    ends (fun u => u.tenancy = 2 ∧ u.job 5 = jobClosing ∧ u.epochs.ending = .draining)
      (exec (.tenancyEnd 0 1 (ask 0 0 0 [])) up) = true ∧
    up.jobsLive = true ∧ ends (fun u => status u = 8) (exec (.tenancyEnd 0 0 (ask 0 0 0 [])) up) = true := by decide +kernel

theorem test_job_open :
    up.mayStart (ask 0 0 0 []) (0x2010 + 63) 4 0 = true ∧ up.job 63 = jobFree ∧
    ends (fun u => u.job 63 = jobOpen ∧ u.num (jobOpenedKey 63) = 5000000000 ∧ u.job 5 = jobOpen)
      (exec (.jobOpen 0 63 0 (ask 0 0 0 [])) up) = true := by decide +kernel

theorem test_job_close :
    up.mayStart (ask 0 0 0 []) 0x2015 5 0 = true ∧
    ends (fun u => u.job 5 = jobClosing ∧ u.num (jobCloseKey 5) = 1) (exec (.jobClose 0 5 0 (ask 0 0 0 [])) up) = true ∧
    (withJob 3).mayStart (ask 0 0 0 []) 0x2015 5 0 = true ∧
    ends (fun u => u.job 5 = jobFree ∧ u.num (jobCloseKey 5) = 2)
      (exec (.jobClose 0 5 0 (ask 0 0 0 [])) (withJob 3)) = true := by decide +kernel

theorem test_accounting_snapshot :
    up.mayStart (ask 0 0 0 []) 0x6041 0 64 = true ∧
    ends (fun u => u.num 0x60420C = 17 ∧ u.num 0x60420D = 5000000000 ∧ u.num 0x60420E = 64)
      (exec (.accountingSnapshot 0 64 (ask 0 0 0 [])) (up.setNum (acctKey 64 12) 17)) = true := by decide +kernel

theorem test_table_snapshot :
    up.mayStart (ask 0 0 0 []) 0x2201 0 1023 = true ∧
    ends (fun u => u.num 0x220201 = 1023 ∧ u.num 0x220202 = 3 ∧ u.num 0x220100 = 2)
      (exec (.tableSnapshot 0 1023 (ask 0 0 0 [])) { up with tables := [(1023, { Table.init with state := .retiring })] }) = true := by
  decide +kernel

theorem test_queue_snapshot :
    up.mayStart (ask 0 0 0 []) 0x2701 0 1023 = true ∧
    ends (fun u => u.num 0x270201 = 1023 ∧ u.num 0x270202 = 1 ∧ u.num 0x270203 = 8 ∧ u.num 0x270204 = 9)
      (exec (.queueSnapshot 0 1023 (ask 0 0 0 []))
        { up with queues := [(1023, { Queue.init with state := .idle, head := 8, tail := 9 })] }) = true := by decide +kernel

theorem test_invalidate_tag :
    up.mayStart (ask 0 0 0 []) 0x2600 3 255 = true ∧ up.mayStart (ask 0 0 0 []) 0x2600 3 63 = true ∧
    ends (fun u => u.xlat.invals = [⟨63, .action, 5000000000⟩] ∧ u.num 0x260003 = 1)
      (exec (.invalidateTag 0 63 (ask 0 0 0 [])) up) = true ∧
    ends (fun u => u.xlat.invals = [] ∧ u.num 0x260003 = 2) (exec (.invalidateTag 0 64 (ask 0 0 0 [])) up) = true := by decide +kernel

theorem test_declare_window :
    up.mayStart (ask 0 0 0 []) 0x4101 0 0x15F = true ∧ testCodeOk 0x15F = true ∧ testCodeOk 0x160 = false ∧ up.testFenced 0x15F = false ∧
    ends (fun u => u.integ.windows = [0x15F]) (exec (.declareWindow 0 0x15F (ask 0 0 0 [])) up) = true := by decide +kernel

theorem test_slot_actions :
    up.mayStart (ask 0 0 0 []) 0x5002 0 1 = true ∧
    ends (fun u => u.startup.erasing = true ∧ u.num slotActionKey = 1) (exec (.slotErase 0 (ask 0 0 0 [])) up) = true ∧
    ends (fun u => u.startup.erasing = false ∧ u.num slotActionKey = 2)
      (exec (.slotEraseComplete 0) { up with startup := { up.startup with erasing := true } }) = true ∧
    up.mayStart (ask 0 0 0 []) 0x5002 0 2 = true ∧ up.slotValid up.inactiveSlot = false ∧
    ends (fun u => u.num slotActionKey = 3) (exec (.slotActivate 0 (ask 0 0 0 [])) up) = true := by decide +kernel

theorem test_commit_security :
    let s := up.setNum 0x500004 64
    s.mayStart (ask 0 0 0 []) 0x5003 0 64 = true ∧
    ends (fun u => u.startup.minSecurity = 64 ∧ u.num 0x500005 = 64) (exec (.commitSecurityVersion 0 64 (ask 0 0 0 [])) s) = true ∧
    ends (fun u => status u = 6) (exec (.commitSecurityVersion 0 63 (ask 0 0 0 [])) s) = true := by decide +kernel

theorem test_retire_now :
    let s : State := { up with mem := { up.mem with cells := [(0xBFFFDFFFFF, 1), (0xBFFFFFFFFF, 2)], pendingPages := [393215] } }
    s.mayStart (ask 0 0 0 []) 0x2503 6 393215 = true ∧
    ends (fun u => u.mem.retired = [393215] ∧ u.mem.pendingPages = [] ∧ u.mem.cells = [(0xBFFFDFFFFF, 1)])
      (exec (.retireNow 0 393215 (ask 0 0 0 [])) s) = true ∧
    ends (fun u => status u = 8)
      (exec (.retireNow 0 393215 (ask 0 0 0 [])) { s with mem := { s.mem with retired := List.range 1024 } }) = true := by decide +kernel

theorem test_restore_defaults :
    let s := (bare.setNum 0x110001 700).setNum 0x100401 5
    bare.mayStart (ask 0 0 0 []) 0x1010 0 0xD5F0 = true ∧ restoredKey 0x110001 = true ∧ restoredKey 0x101101 = false ∧
    ends (fun u => u.num 0x110001 = 1500 ∧ u.net.plcaPending = true)
      (exec (.restoreDefaults 0 0xD5F0 (ask 0 0 0 [])) s) = true := by decide +kernel

theorem test_clear_suspicion : bare.mayStart (ask 0 0 0 []) 0x4005 2 0 = true ∧ bare.tenancy = 0 := by decide +kernel

theorem test_restart :
    up.mayStart (ask 0 0 0 []) 0x12A1 0 1 = true ∧ up.tripped = false ∧
    ends (fun u => u.startup.stage = .restarting ∧ u.startup.cause = 1 ∧ u.tenancy = 0)
      (exec (.restart 0 1 (ask 0 0 0 [])) up) = true ∧
    ends (fun u => status u = 8) (exec (.restart 0 0 (ask 0 0 0 [])) up) = true := by decide +kernel

theorem test_rack_key_write :
    let s : State := { up with net := { up.net with sessions := [session 1 true] } }
    let key : Bytes := List.replicate 32 7
    s.mayPut (ask 0 0 0 []) 0x5020 8 .octets key = true ∧
    ends (fun u => u.blob 0x502008 = key ∧ u.net.sessions = []) (exec (.rackKeyWrite 0 8 key (ask 0 0 0 [])) s) = true := by decide +kernel

/-- Core 255 at 1,260 MHz, and a rise of core 255 above what its cluster's voltage carries (R23, R446). -/
theorem test_core_clock_set :
    up.mayPut (ask 0 0 0 []) (0x1210 + 31) 8 .u16 (natLe 2 1260) = true ∧
    tableVoltage 1260 + up.voltageOffset 31 ≤ up.num (voltageKey 31) ∧
    ends (fun u => u.num (settingKey 255) = 1260 ∧ (u.core 255).pending = some 1260) (exec (.coreClockSet 0 255 1260 (ask 0 0 0 [])) up) =
      true ∧
    (let s := up.setNum (voltageKey 31) 700
     s.num (voltageKey 31) < tableVoltage 2100 + s.voltageOffset 31 ∧
     ends (fun u => u.power.raising = [(31, 255)]) (exec (.coreClockSet 0 255 2100 (ask 0 0 0 [])) s) = true) := by decide +kernel

/-- Origin 0 and a period of 1 ms: the first boundary at least 1 ms after 5.0000005 s is at 5.002 s (R62). -/
theorem test_epochs_start :
    let s : State := ({ up with now := 5000000500 } : State).setNum 0x210001 1000
    s.mayPut (ask 0 0 0 []) 0x2100 3 .bool (natLe 1 1) = true ∧ s.epochsRunning = false ∧ firstBoundary 0 1000000 5000000500 = 5002 ∧
    ends (fun u => u.epochsRunning = true ∧ u.epoch = 5001 ∧ u.num nextBoundaryKey = 5002000000)
      (exec (.epochsStart 0 true (ask 0 0 0 [])) s) = true ∧
    firstBoundary 0 1000000 5000000000 = 5001 := by decide +kernel

/-- The board reports an inlet of 46 °C, and no flow (R447). -/
theorem test_coolant_report : ∃ r : Request, up.mayPut r 0x1120 1 .i16 (natLe 2 46) = true ∧ inletOk 46 = false ∧
    up.mayPut r 0x1120 2 .u16 (natLe 2 0) = true ∧ flowOk 0 = false := by
  refine ⟨{ ask 0 0 0 [] with via := .board ⟨8, 9, 0, Config.enterpriseSource, [(true, true, 0)]⟩ }, ?_, by decide, ?_, by decide⟩
  all_goals
    have h : (objRow 0x1120 1) = some ⟨0x1120, 1, 1, 1, .i16, 0, 1, 3, 3, 0, .any, false, "Coolant inlet"⟩ := by decide +kernel
    have h' : (objRow 0x1120 2) = some ⟨0x1120, 1, 2, 2, .u16, 0, 1, 3, 3, 0, .any, false, "Coolant flow"⟩ := by decide +kernel
    have g : up.gate 2 0x1120 1 = 0 ∧ up.gate 2 0x1120 2 = 0 ∧ up.startup.supplyMgt = true ∧ up.net.owed = [] ∧
      mctpWhole [(true, true, 0)] = true := by decide +kernel
    simp [State.mayPut, State.mayWrite, State.serves, State.hears, State.arrives, State.room, State.sendOwed, State.owedTo, h, h', g, aimAt, ask, viaOf, sessionOf, State.authWrite,
      ObjRow.writable, ObjRow.right, natLe, lengthOk, reservedValue, outOfRange, ObjType.size, bit, show Nat.testBit 3 1 = true by decide]

/-! ### Clocks and Fennel -/

theorem test_voltage_settled :
    let s : State := { up with power := { up.power with raising := [(31, 255), (0, 0)] } }
    s.power.raising.any (fun x => x.1 = 31) = true ∧
    ends (fun u => u.power.raising = [(0, 0)] ∧ u.num (voltageKey 31) = 840) (exec (.voltageSettled 0 31) s) = true := by decide +kernel

theorem test_clock_change :
    let s : State := { up with clocks := [(255, { pending := some 1260, relocking := false })] }
    (coreEngines 255).all (fun u => s.inFlightOn u = []) = true ∧
    ends (fun u => u.num (effectiveKey 255) = 1260 ∧ u.core 255 = ⟨none, true⟩) (exec (.clockChangeApply 0 255) s) = true ∧
    (let t : State := { s with cmds := [onEngine 1 5 (some ⟨.vector, 255⟩) []] }
     ⟨.vector, 255⟩ ∈ coreEngines 255 ∧ t.inFlightOn ⟨.vector, 255⟩ ≠ [] ∧
     ends (fun u => u.core 255 = ⟨some 1260, false⟩) (exec (.clockChangeApply 0 255) t) = true) := by decide +kernel

theorem test_clock_relock :
    let s : State := { up with clocks := [(255, { pending := none, relocking := true })] }
    let two : State := { up with clocks := [(254, { pending := none, relocking := true }), (255, { pending := none, relocking := true })] }
    ends (fun u => u.core 255 = ⟨none, false⟩ ∧ u.clocksSettled 31 = true) (exec (.clockRelockDone 0 255) s) = true ∧
    ends (fun u => u.clocksSettled 31 = false ∧ u.num (voltageKey 31) = up.num (voltageKey 31)) (exec (.clockRelockDone 0 255) two) = true := by
  decide +kernel

/-- 2 µs idle, and 1 ns less (R444). -/
theorem test_clock_gate :
    engineOf 2 255 = some ⟨.stream, 255⟩ ∧ (⟨.stream, 255⟩ : UnitId).gates = true ∧
    ends (fun u => (u.engine ⟨.stream, 255⟩).gated) (exec (.engineClockGate 0 2 255) { up with now := 2000 }) = true ∧
    ends (fun u => !(u.engine ⟨.stream, 255⟩).gated) (exec (.engineClockGate 0 2 255) { up with now := 1999 }) = true := by decide +kernel

/-- A gated matrix engine of die 7 with a command handed to it. -/
def gated : State := { up with
  cmds := [{ onEngine 1 5 (some ⟨.matrix, 255⟩) [] with phase := .handed }]
  engines := [(255, { Engine.init with gated := true, waitingSince := some 0 })] }

theorem test_fennel_grant :
    (gated.waiting 7).filterMap (fun u => (gated.wouldStart u).map (fun c => (u, c))) =
      [(⟨.matrix, 255⟩, { onEngine 1 5 (some ⟨.matrix, 255⟩) [] with phase := .handed })] ∧
    gated.metered ⟨.matrix, 255⟩ { onEngine 1 5 (some ⟨.matrix, 255⟩) [] with phase := .handed } = false ∧
    ends (fun u => (u.engine ⟨.matrix, 255⟩).granted) (exec (.fennelGrant 0 7) gated) = true ∧
    (let s : State := { gated with power := { gated.power with lastGrant := [(7, 4999999993)] } }
     ends (fun u => !(u.engine ⟨.matrix, 255⟩).granted) (exec (.fennelGrant 0 7) s) = true) := by decide +kernel

/-! ### Ends of tenancies and jobs, boundaries and time -/

theorem test_tenancy_ends :
    let s : State := { withJob 2 with epochs := { up.epochs with ending := .draining }, mem := { up.mem with pendingPages := [393215] } }
    let z : State := { s with epochs := { s.epochs with ending := .zeroing } }
    s.recovering = false ∧ s.anyRunning = false ∧
    ends (fun u => u = withJob 2) (exec (.tenancyEndDrained 0) (withJob 2)) = true ∧
    ends (fun u => u = withJob 2) (exec (.tenancyEndComplete 0) (withJob 2)) = true ∧
    ends (fun u => u.epochs.ending = .zeroing ∧ u.mem.retired = [393215]) (exec (.tenancyEndDrained 0) s) = true ∧
    ends (fun u => u.epochs.ending = .none ∧ u.tenancy = 0 ∧ u.job 5 = jobFree) (exec (.tenancyEndComplete 0) z) = true := by
  decide +kernel

theorem test_job_close_complete :
    (withJob 2).job 5 = jobClosing ∧
    ends (fun u => u.job 5 = jobClosing)
      (exec (.jobCloseComplete 0 5) { withJob 2 with cmds := [onEngine 1 5 (some ⟨.vector, 255⟩) []] }) = true ∧
    ends (fun u => u.job 5 = jobFree ∧ u.num (jobCloseKey 5) = 2) (exec (.jobCloseComplete 0 5) (withJob 2)) = true := by decide +kernel

/-- Epochs running in a mode, with a boundary at 4.9 s behind them and another committed (0 for none). -/
def epochs (mode next : Nat) : State :=
  let s : State := { up with epochs := { up.epochs with mode := mode } }
  { s with dict := { s.dict with nums := [
    (0x12A001, 1), (0x200003, 1), (0x200005, 9), (0x200007, 1), (0x201501, 1), (0x210003, 1), (0x210004, 7), (0x210005, 4900000000),
    (0x210006, next), (0x260001, 0x10000000000), (0x310001, 2)] } }

theorem test_boundary_commit :
    (epochs 0 0).epochsRunning = true ∧ (epochs 0 0).num nextBoundaryKey = 0 ∧
    ends (fun u => u.num nextBoundaryKey = 5000000000) (exec (.boundaryCommit 0) (epochs 0 0)) = true := by decide +kernel

/-- The window of the boundary at 5 s is 5 s ± 25 ms; an edge at t gives a boundary at t + 1,000 ns (R67). -/
theorem test_sync_in_edge :
    let s : State := { epochs 1 0 with now := 5025000000 - 1000 }
    s.inWindow 5025000000 = true ∧ s.inWindow 5025000001 = false ∧
    ends (fun u => u.num nextBoundaryKey = 5025000000 ∧ u.num 0x210103 = 1) (exec (.syncInEdge 0) s) = true ∧
    ends (fun u => u.num nextBoundaryKey = 0 ∧ u.num 0x210104 = 1) (exec (.syncInEdge 0) { s with now := s.now + 1 }) = true ∧
    s.horizon = some s.now ∧ (s.tick 1).now = s.now := by decide +kernel

theorem test_window_decide :
    let s : State := { epochs 1 0 with now := 5025000000 - 1001 }
    ends (fun u => u.num nextBoundaryKey = 0) (exec (.windowDecide 0) s) = true ∧
    ends (fun u => u.num nextBoundaryKey = 5025000000 ∧ u.num 0x210106 = 1) (exec (.windowDecide 1) s) = true := by decide +kernel

theorem test_epoch_boundary :
    let s := epochs 0 5000000001
    ends (fun u => u.epoch = 7) (exec (.epochBoundary 0) s) = true ∧
    ends (fun u => u.epoch = 8 ∧ u.num boundaryKey = 5000000001 ∧ u.num nextBoundaryKey = 0) (exec (.epochBoundary 1) s) = true := by
  decide +kernel

/-- SYNC_OUT rises at a boundary while enabled, and falls 1,000 ns later (R70, R480). -/
theorem test_sync_out :
    let s := (epochs 0 5000000000).setNum 0x210108 1
    ends (fun u => u.epochs.syncOutHigh ∧ u.epochs.syncOutRose = 5000000000 ∧ u.out = [.syncOut true]) (exec (.epochBoundary 0) s) = true ∧
    (let h : State := { up with epochs := { up.epochs with syncOutHigh := true, syncOutRose := 4999999000 } }
     ends (fun u => !u.epochs.syncOutHigh) (exec (.syncOutPulseEnd 0) h) = true) := by decide +kernel

/-- A settled package whose parent is on port 2, which is up. -/
def child : State :=
  let s : State := { up with fabric := { up.fabric with parent := some 2, settled := true } }
  s.setNum (portStateKey 2) 2

theorem test_time_messages :
    child.portUp 2 = true ∧
    ends (fun u => u.epochs.timeSent = some 5000000000 ∧ u.out.length = 1) (exec (.timeMessageSend 0) child) = true ∧
    (let s : State := { child with epochs := { child.epochs with timeSent := some 4999999000 } }
     ends (fun u => u.epochs.stepped ∧ u.now = 5000000050 ∧ u.epochs.linkDelay = 450 ∧ u.flag alignedKey)
       (exec (.timeMessageReceive 0 2 4999999500 4999999600) s) = true ∧
     ends (fun u => u.now = 5000000000 ∧ u.epochs.offsetSince = none)
       (exec (.timeMessageReceive 0 2 4999999500 4999999600) { s with epochs := { s.epochs with stepped := true } }) = true ∧
     ends (fun u => u.epochs.offsetSince = some 5000000000)
       (exec (.timeMessageReceive 0 2 4999999502 4999999600) { s with epochs := { s.epochs with stepped := true } }) = true) ∧
    ends (fun u => u.out.length = 1)
      (exec (.timeMessageReceive 0 2 0 0) { child with fabric := { child.fabric with parent := none }, epochs := { child.epochs with stepped := true } }) =
      true := by decide +kernel

theorem test_alignment_loss :
    let s := ({ up with epochs := { up.epochs with offsetSince := some 4990000000 } } : State).setNum alignedKey 1
    ends (fun u => u.flag alignedKey) (exec (.alignmentLoss 0) s) = true ∧
    ends (fun u => !u.flag alignedKey ∧ u.num 0x210204 = 1) (exec (.alignmentLoss 1) s) = true := by decide +kernel

/-! ### Faults, reports, power -/

def aReport (u : UnitId) (code : Nat) : Report := up.newReport u code 0 0xFF

/-- Four distinct codes of a unit are held; a fifth is not (R412). -/
theorem test_reports :
    let r := aReport ⟨.walker, 31⟩
    let s := (((up.report (r 1)).report (r 2)).report (r 3)).report (r 4)
    (s.pendingOf ⟨.walker, 31⟩).length = 4 ∧ (s.pendingOf ⟨.walker, 31⟩).all (fun p => p.code ≠ 5) = true ∧
    (s.report (r 5)).integ.reports = s.integ.reports ∧ Map.get 0 (s.report (r 5)).integ.unheld 0x601F = 1 ∧
    (up.pendingOf ⟨.walker, 31⟩).length = 0 ∧ (up.report (r 4)).integ.reports = [r 4] ∧
    (s.report (r 4)).integ.reports.map (fun p => p.count) = [1, 1, 1, 2] := by decide +kernel

theorem test_execution_fault :
    let t := up.execFault (aReport ⟨.walker, 31⟩ 0x3001)
    t.job 5 = jobLost ∧ t.recovering = true ∧ t.num 0x200008 = 1 ∧ up.integ.recoverySince = none ∧
    t.integ.recoverySince = some 5000000000 ∧ t.integ.faultClusters = [31] := by decide +kernel

theorem test_recovery_complete :
    let s : State := { up with
      epochs := { up.epochs with ending := .waiting }
      integ := { up.integ with recoverySince := some 4999998001, faultClusters := [31] } }
    (unitOfCode 0xE0FF).cluster = 31 ∧ checkerUnit (unitOfCode 0xE0FF) = some ⟨.core, 255⟩ ∧
    ends (fun u => u.recovering = false ∧ u.epochs.ending = .draining ∧ u.num 0x271104 = 1 ∧ u.num 0x271103 = 1 ∧ u.fenced ⟨.core, 255⟩)
      (exec (.recoveryComplete 0 [0xE0FF]) s) = true := by decide +kernel

/-- 12,000 mV at 125.1 A is 1,501.2 W, above the limit of 1,500 W; after 1,000 µs above it L1 engages (R437, R439). -/
theorem test_power_sample :
    up.limitNow = 1500 ∧
    ends (fun u => u.num (powerKey 3) = 1501 ∧ u.power.runStart = some 5000000000 ∧ u.num (powerKey 5) = 0)
      (exec (.powerSample 0 12000 3300 1800 1251) up) = true ∧
    ends (fun u => u.lever 0 ∧ !u.lever 1)
      (exec (.powerSample 0 12000 3300 1800 1251) { up with power := { up.power with runStart := some 4999000000 } }) = true ∧
    ends (fun u => u.lever 0 ∧ u.lever 1 ∧ u.lever 2 ∧ u.lever 3)
      (exec (.powerSample 0 12000 3300 1800 1251) { up with power := { up.power with runStart := some 4998100000 } }) = true := by
  decide +kernel

/-- 1,425 W is 95 % of the limit: the tenth good sample releases the highest lever. -/
theorem test_lever_release :
    let s : State := ({ up with power := { up.power with goodSamples := 9 } } : State).setNum (powerKey 5) 3
    s.power.runStart = none ∧
    ends (fun u => u.num (powerKey 5) = 1) (exec (.powerSample 0 10000 3300 1800 1425) s) = true ∧
    ends (fun u => u.num (powerKey 5) = 3) (exec (.powerSample 0 10000 3300 1800 1426) s) = true := by decide +kernel

theorem test_logic_temperature :
    up.tripped = false ∧
    ends (fun u => Map.get 0 u.power.clusterSkip 31 = 105) (exec (.logicTempSample 0 31 101) up) = true ∧
    ends (fun u => Map.get 0 u.power.clusterSkip 31 = 0) (exec (.logicTempSample 0 31 100) up) = true ∧
    ends (fun u => u.tripped ∧ u.pins = ⟨true, true⟩) (exec (.logicTempSample 0 31 110) up) = true ∧
    ends (fun u => u.num 0x111801 = 0xFFFF) (exec (.logicTempSample 0 32 (-1)) up) = true := by decide +kernel

theorem test_stack_temperature :
    up.powered = true ∧
    ends (fun u => u.num 0x252F01 = 86 ∧ u.num 0x252F02 = 2) (exec (.stackTempSample 0 31 86) up) = true ∧
    ends (fun u => u.num 0x252F02 = 1) (exec (.stackTempSample 0 31 85) up) = true ∧
    ends (fun u => Map.get 0 u.power.throttledStacks 31 = 2) (exec (.stackTempSample 0 31 95) up) = true ∧
    ends (fun u => u.tripped) (exec (.stackTempSample 0 31 100) up) = true := by decide +kernel

theorem test_coolant :
    ends (fun u => u.num 0x112003 = 0 ∧ u.power.coolantAt = none)
      (exec (.coolantReportStale 0) { up with power := { up.power with coolantAt := some 0 } }) = true ∧
    (let s : State := { up with now := 9999999999, power := { up.power with coolantBack := some 0, coolantCap := true } }
     ends (fun u => u.power.coolantCap) (exec (.coolantCapRelease 0) s) = true ∧
     ends (fun u => !u.power.coolantCap) (exec (.coolantCapRelease 1) s) = true) := by decide +kernel

theorem test_ucie_retry :
    moduleExists 33 = true ∧
    ends (fun u => u.num (moduleKey 33) = 3 ∧ u.num 0x125901 = 3 ∧ u.num 0x125902 = 4 ∧ u.recovering)
      (exec (.ucieRetryExhausted 0 33 ⟨3, 4⟩ .exhausted) up) = true ∧
    ends (fun u => u.num (moduleKey 33) = 2 ∧ u.num 0x125901 = 1) (exec (.ucieRetryExhausted 0 33 ⟨1, 0⟩ .underWay) (up.setNum (moduleKey 33) 1)) =
      true ∧
    ends (fun u => u.num (moduleKey 33) = 1 ∧ u.num 0x125901 = 0) (exec (.ucieRetryExhausted 0 33 ⟨0, 0⟩ .over) (up.setNum (moduleKey 33) 2)) =
      true := by decide +kernel

/-! ### Queues -/

/-- `up` with queue 95 of job 5 and the first GiB of job 5's addresses at local offset 0 for every front end. -/
def withQueue (v : Queue) : State := { up with
  queues := [(95, v)], xlat := { up.xlat with tlbs := [(0x9000, [⟨5, 0, 30, .here 0, true⟩])] } }

/-- A state with bytes stored from a local offset. -/
def putAt (a : Nat) (b : Bytes) (s : State) : State := { s with mem := { s.mem with cells := storeCells s.mem.cells a b } }

/-- A ring of 16 slots at 0x1000 whose accepted tail is 1. -/
def ready : Queue := { Queue.init with ring := 0x1000, config := 4 * 7, state := .active, tail := 1 }

/-- The launch of a slot that has been taken, with `f` of its commands fetched and as many completed. -/
def taken (slot : Bytes) (f : Nat) : Launch :=
  { seq := 1, firstRead := 0, lastRead := 0, read := true, taken := true, slot := slot, started := 0, fetched := f, completed := f,
    done := List.range f, clusters := [], error := 0, held := false, hostHeld := false, heldAt := 0 }

/-- A launch whose slot has been read and did not carry its sequence. -/
def unseen (first : Nat) : Launch := { taken [] 0 with taken := false, firstRead := first, lastRead := first }

theorem test_queue_enable :
    let q (st : QState) : Queue := { Queue.init with ring := 0x40, state := st, head := 3, tail := 4 }
    up.job (queueJob 95) = jobOpen ∧ up.job (queueJob 1023) = jobFree ∧
    ends (fun u => u.queue 95 = { q .idle with config := 0x1FFF, head := 0, tail := 0 })
      (exec (.queueEnable 0 95 0xFFFF) { up with queues := [(95, q .disabled)] }) = true ∧
    ends (fun u => u.queue 1023 = { Queue.init with config := 0x1FFE }) (exec (.queueEnable 0 1023 0xFFFF) up) = true ∧
    ends (fun u => u.queue 95 = q .lost) (exec (.queueEnable 0 95 0xFFFF) { up with queues := [(95, q .lost)] }) = true := by
  decide +kernel

theorem test_queue_disable :
    let q (st : QState) : Queue := { Queue.init with ring := 0x40, state := st, head := 3, tail := 4 }
    let s (st : QState) : State := { up with queues := [(95, q st)] }
    ends (fun u => (u.queue 95).config = 0x0A) (exec (.queueDisable 0 95 0x200A) (s .disabled)) = true ∧
    [QState.idle, .error, .lost].all (fun st =>
      ends (fun u => (u.queue 95).state = .disabled ∧ (u.queue 95).config = 0) (exec (.queueDisable 0 95 10) (s st))) = true ∧
    [QState.active, .draining].all (fun st =>
      ends (fun u => u.queue 95 = { q .draining with disableAfter := true }) (exec (.queueDisable 0 95 10) (s st))) = true ∧
    ends (fun u => (u.queue 95).ring = 0xFFFFFFFFFFCF) (exec (.registerWrite 0 (0x20000 + 64 * 95) 0xFFFFFFFFFFFFFFFF 8) (s .disabled)) =
      true ∧
    ends (fun u => u.queue 95 = q .idle) (exec (.registerWrite 0 (0x20000 + 64 * 95) 0 8) (s .idle)) = true := by decide +kernel

/-- Head 4, accepted tail 8 and 16 slots: the rows of R316, at the values where they meet. -/
theorem test_doorbell_rows :
    let v : Queue := { Queue.init with state := .idle, head := 4, tail := 8 }
    let d (t : Nat) := exec (.doorbell 0 1023 t true) { up with queues := [(1023, v)] }
    v.slots = 16 ∧
    ends (fun u => (u.queue 1023).error = 0x6003) (d 7) = true ∧
    ends (fun u => u.queue 1023 = v ∧ u.num 0x6BFF04 = 1) (d 8) = true ∧
    ends (fun u => u.queue 1023 = { v with tail := 9, state := .active } ∧ u.num 0x6BFF03 = 1) (d 9) = true ∧
    ends (fun u => u.queue 1023 = { v with tail := 20, state := .active }) (d 20) = true ∧
    ends (fun u => (u.queue 1023).error = 0x6004 ∧ (u.queue 1023).tail = 8) (d 21) = true ∧
    ends (fun u => u.queue 1023 = { v with state := .lost } ∧ u.num 0x6BFF05 = 1)
      (exec (.doorbell 0 1023 9 true) { up with queues := [(1023, { v with state := .lost })] }) = true := by decide +kernel

/-- A slot of sequence 1 with two commands at 0x2000; flags Interrupt, Record and Signal as given. -/
def aSlot (flags : Nat) : Bytes :=
  words [(0, 8, 1), (8, 8, 0x2000), (16, 2, 1), (18, 1, flags), (24, 8, 0x3000), (32, 8, 4095), (40, 8, 7)]

theorem test_slot_fetch :
    let s := putAt 0x1000 (aSlot 0) (withQueue ready)
    let m := putAt 0x1000 (words [(0, 8, 1), (8, 8, 0x2001)]) (withQueue ready)
    s.mayFetch (queueJob 95) = true ∧ ready.slotAddress 1 = 0x1000 ∧
    (match (s.setQueue 95 { ready with launch := some { unseen 5000000000 with read := false } }).feRead 95 (.slot 95) 0x1000 64 true with
      | .ok b _ => b = aSlot 0
      | _ => false) = true ∧
    ends (fun u => (u.queue 95).launch.any (fun l => l.taken ∧ l.slot = aSlot 0 ∧ l.started = 5000000000)) (exec (.slotFetch 0 95) s) =
      true ∧
    ends (fun u => (u.queue 95).error = 0x6005 ∧ (u.queue 95).state = .draining) (exec (.slotFetch 0 95) m) = true ∧
    ends (fun u => (u.queue 95).launch = some (unseen 5000000000)) (exec (.slotFetch 0 95) (withQueue ready)) = true := by decide +kernel

/-- The visibility window is 100 µs by default (R319, R337). -/
theorem test_slot_reread :
    let s (first : Nat) : State := withQueue { ready with launch := some (unseen first) }
    (s 4999999000).mayFetch 5 = true ∧ up.num (objKey 0x2700 2) = 100 ∧
    ends (fun u => (u.queue 95).launch.any (fun l => l.taken ∧ l.slot = aSlot 0))
      (exec (.slotReread 0 95) (putAt 0x1000 (aSlot 0) (s 4999999000))) = true ∧
    ends (fun u => (u.queue 95).error = 0x6001 ∧ u.num 0x685F06 = 1) (exec (.slotReread 0 95) (s 4999900000)) = true ∧
    ends (fun u => (u.queue 95).launch = some { unseen 4999900001 with lastRead := 5000000000 })
      (exec (.slotReread 0 95) (s 4999900001)) = true := by decide +kernel

/-- A no-argument vector command for engine 255, and a reserved opcode. -/
theorem test_command_fetch :
    let s := withQueue { ready with launch := some (taken (aSlot 0) 1) }
    let b := words [(0, 1, 0x50), (2, 2, 255)]
    let t := putAt 0x2040 b s
    (taken (aSlot 0) 1).mayFetchNext = true ∧ fetchOk b 1 false = true ∧ t.fenced ⟨.vector, 255⟩ = false ∧
    ends (fun u => (u.queue 95).launch = some { taken (aSlot 0) 1 with fetched := 2 } ∧ u.nextCmd = t.nextCmd + 1 ∧
        u.cmds.map (fun c => (decide (c.bytes = b), c.unit, c.index, c.phase)) = [(true, some ⟨.vector, 255⟩, 1, .handed)])
      (exec (.commandFetch 0 95) t) = true ∧
    fetchOk (words [(0, 1, 0x06)]) 1 false = false ∧
    ends (fun u => u.recovering ∧ u.job 5 = jobLost) (exec (.commandFetch 0 95) (putAt 0x2040 (words [(0, 1, 0x06)]) s)) = true := by
  decide +kernel

theorem test_launch_complete :
    let s (v : Queue) (flags : Nat) : State := withQueue { v with launch := some (taken (aSlot flags) 2) }
    (taken (aSlot 7) 2).allDone = true ∧ slotRecord (aSlot 7) = true ∧ slotSignal (aSlot 7) = true ∧ slotInterrupt (aSlot 7) = true ∧
    (match (s ready 7).feWrite 95 0x3000 (completionRecord 1 0 2 0 5000000000) with
      | .ok _ x => x.bytes 0x3000 8 = natLe 8 1
      | _ => false) = true ∧
    ends (fun u => u.queue 95 = { ready with head := 1, state := .idle } ∧ u.num 0x685F01 = 1 ∧ u.fence 4095 = 7 ∧
        u.host.held = [⟨7, 0⟩] ∧ u.bytes 0x3008 8 = [0, 0, 0, 0, 2, 0, 0, 0]) (exec (.launchComplete 0 95) (s ready 7)) = true ∧
    ends (fun u => (u.queue 95).state = .active ∧ u.fences = []) (exec (.launchComplete 0 95) (s { ready with tail := 2 } 0)) = true ∧
    ends (fun u => (u.queue 95).state = .error) (exec (.launchComplete 0 95) (s { ready with error := 0x6003 } 0)) = true ∧
    ends (fun u => (u.queue 95).state = .disabled) (exec (.launchComplete 0 95) (s { ready with disableAfter := true } 0)) = true := by
  decide +kernel

theorem test_queue_drain :
    let v : Queue := { ready with state := .draining, error := 0x6003 }
    let l : Launch := { taken (aSlot 2) 0 with error := 0x6003 }
    (withQueue v).handedOf 95 = [] ∧
    ends (fun u => (u.queue 95).state = .error) (exec (.queueDrainDone 0 95) (withQueue v)) = true ∧
    ends (fun u => (u.queue 95).state = .disabled) (exec (.queueDrainDone 0 95) (withQueue { v with error := 0 })) = true ∧
    ends (fun u => (u.queue 95).state = .error ∧ (u.queue 95).head = 0 ∧ u.bytes 0x3008 2 = [0x03, 0x60])
      (exec (.queueDrainDone 0 95) (withQueue { v with launch := some l })) = true := by decide +kernel

/-! ### Fences and control commands -/

/-- `up` with queue 80 running a launch and one control command of it, index 1, that is ready. -/
def control (fields : List (Nat × Nat × Nat)) (more : List Nat) : State :=
  let c : Cmd := { onEngine 1 5 none (words fields) with index := 1, scratch := more, started := 4999900000 }
  { up with queues := [(80, { ready with launch := some (taken (aSlot 0) 1) })], cmds := [c] }

theorem test_fences :
    let sig := control [(0, 1, 1), (40, 8, 4095), (48, 8, 5)] []
    let wait := control [(0, 1, 2), (40, 8, 4095), (48, 8, 5)] [100, 0]
    (sig.control? 1 1).isSome = true ∧ (wait.control? 1 2).isSome = true ∧
    ends (fun u => u.fence 4095 = 5 ∧ u.cmds = []) (exec (.fenceSignal 0 1) sig) = true ∧
    ends (fun u => u.fence 4095 = 6) (exec (.fenceSignal 0 1) { sig with fences := [(4095, 6)] }) = true ∧
    ends (fun u => u.cmds = [] ∧ u.num 0x685002 = 1) (exec (.fenceWait 0 1) { wait with fences := [(4095, 5)] }) = true ∧
    ends (fun u => u.cmds = wait.cmds) (exec (.fenceWait 0 1) { wait with fences := [(4095, 4)] }) = true ∧
    ends (fun u => u.fence 4095 = 9) (exec (.fenceValueWrite 0 4095 9 true) up) = true ∧
    ends (fun u => (u.queue 80).error = 0x6002 ∧ u.num 0x685007 = 1) (exec (.fenceWaitTimeout 0 1) { wait with fences := [(4095, 4)] }) =
      true ∧
    ends (fun u => u.cmds = wait.cmds) (exec (.fenceWaitTimeout 0 1) { wait with now := 4999999999 }) = true := by decide +kernel

theorem test_control_commands :
    let c (op : Nat) := control [(0, 1, op)] [0, 4]
    let w : HostWrite := ⟨3, 5, 0, 0, 0x40, [0], false⟩
    ((c 0).control? 1 0).isSome = true ∧ ((c 3).control? 1 3).isSome = true ∧ ((c 4).control? 1 4).isSome = true ∧
    ((c 5).control? 1 5).isSome = true ∧ (c 4).attached = true ∧
    ends (fun u => u.cmds = []) (exec (.noOp 0 1) (c 0)) = true ∧
    (c 5).isDone 80 0 = true ∧ ends (fun u => u.cmds = []) (exec (.barrier 0 1) (c 5)) = true ∧
    (let b : State := { c 5 with queues := [(80, { ready with launch := some (taken (aSlot 0) 0) })] }
     b.isDone 80 0 = false ∧ ends (fun u => u.cmds = b.cmds) (exec (.barrier 0 1) b) = true) ∧
    ends (fun u => u.cmds = []) (exec (.hostFence 0 1) (c 4)) = true ∧
    ends (fun u => u.cmds.map (fun d => (d.id, d.armed)) = [(1, true)])
      (exec (.hostFence 0 1) { c 4 with host := { up.host with writes := [w] } }) = true ∧
    ends (fun u => u.xlat.invals = [⟨5, .command 1, 5000000000⟩] ∧ u.cmds.all (fun d => d.armed)) (exec (.tagInvalidate 0 1) (c 3)) =
      true := by decide +kernel

theorem test_invalidation_complete :
    let i (src : InvalSource) : Inval := ⟨63, src, 0⟩
    let s (src : InvalSource) : State := { control [(0, 1, 3)] [] with
      xlat := { up.xlat with invals := [i src], tlbs := [(0, [⟨63, 0, 21, .here 0, true⟩])] } }
    (s .register).inval? 63 = some (i .register) ∧
    ends (fun u => u.xlat.invals = [] ∧ u.xlat.done = 1 ∧ u.xlat.tlbs.all (fun e => e.2 = [])) (exec (.invalidationComplete 0 63) (s .register)) =
      true ∧
    ends (fun u => u.num 0x260003 = 2) (exec (.invalidationComplete 0 63) (s .action)) = true ∧
    ends (fun u => u.cmds = []) (exec (.invalidationComplete 0 63) (s (.command 1))) = true := by decide +kernel

/-- A stream write of job 5 to a local target of its own virtual space, issued and not performed, holds its invalidation (R283). -/
theorem test_invalidation_waits :
    let d := words [(0, 1, 4), (4, 2, 7), (8, 4, 1), (16, 8, 0x1000), (24, 8, 0x2000), (40, 8, 8), (48, 8, 8)]
    let v : Desc := { bytes := d, cmd := 7, job := 5, tile := 1, translated := true, issued := 0, delivered := 0, moved := 0,
                      xlatHalts := 0, hostHalts := 0, underWay := [], reads := [], writes := [] }
    let s : State := { up with
      xlat := { up.xlat with invals := [⟨5, .register, 0⟩] }
      streams := { up.streams with
        slots := [(15, ⟨.running, some v, none⟩)], requests := [⟨0, 15, 0, 0, [], .here 0x2000, 8, false, false⟩] } }
    s.inval? 5 = some ⟨5, .register, 0⟩ ∧ s.localWriteOut 5 = true ∧ s.localWriteOut 6 = false ∧
    ends (fun u => u = s) (exec (.invalidationComplete 0 5) s) = true := by decide +kernel

/-! ### Scheduling and translation -/

theorem test_command_start :
    let c : Cmd := { onEngine 1 5 (some ⟨.vector, 255⟩) (words [(0, 1, 0x50)]) with phase := .handed }
    let s : State := { up with cmds := [c] }
    engineOf 1 255 = some ⟨.vector, 255⟩ ∧ s.fenced ⟨.vector, 255⟩ = false ∧ s.blocked ⟨.vector, 255⟩ = false ∧
    s.startables ⟨.vector, 255⟩ = [c] ∧ (s.turn ⟨.vector, 255⟩).1 = some 5 ∧
    ((s.turn ⟨.vector, 255⟩).2.startables ⟨.vector, 255⟩).find? (fun c => c.job = 5) = some c ∧
    ends (fun u => u.cmds = [{ c with phase := .running, started := 5000000000 }] ∧ (u.engine ⟨.vector, 255⟩).turn = some 5)
      (exec (.commandStart 0 1 255) s) = true := by decide +kernel

theorem test_command_complete :
    let c : Cmd := { onEngine 1 5 (some ⟨.vector, 255⟩) (words [(0, 1, 0x50)]) with phase := .finished }
    let s : State := { up with cmds := [c] }
    s.tables = [] ∧ s.update.swaps = [] ∧ (epochs 0 0).epochsRunning = true ∧
    ends (fun u => u.cmds = [] ∧ u.num 0x685002 = 1) (exec (.commandComplete 0 1) s) = true ∧
    ends (fun u => u.cmds = []) (exec (.commandComplete 0 1) { epochs 0 0 with cmds := [c], tables := [(1, Table.init)] }) = true := by
  decide +kernel

theorem test_watchdog :
    let c : Cmd := { onEngine 1 5 (some ⟨.vector, 255⟩) (words [(0, 1, 0x50)]) with watched := 10000000 }
    c.inFlight = true ∧
    ends (fun u => u.cmds = [] ∧ u.recovering ∧ u.num 0x271102 = 1) (exec (.watchdogExpiry 0 1) { up with cmds := [c] }) = true ∧
    ends (fun u => u.cmds.length = 1) (exec (.watchdogExpiry 0 1) { up with cmds := [{ c with watched := 9999999 }] }) = true := by
  decide +kernel

theorem test_floor_interval :
    let s : State := { up with engines := [(0x3FFF, Engine.init), (0x401F, { Engine.init with interval := some ⟨4999000000, 10, 0, 0⟩ })] }
    engineOf 4 31 = some ⟨.rowMerge, 31⟩ ∧
    ends (fun u => (u.engine ⟨.rowMerge, 31⟩).interval = none) (exec (.floorIntervalEnd 0 4 31) s) = true ∧
    ends (fun u => (u.engine ⟨.rowMerge, 31⟩).interval.isSome) (exec (.floorIntervalEnd 0 4 31) { s with now := 4999999999 }) = true := by
  decide +kernel

/-- A latency job and a background job; a background share of 9 % below a floor of 10 %, and of 10 %; and balances far below zero. -/
theorem test_turns :
    let e (bg : Nat) (b : Int) : Engine := { Engine.init with interval := some ⟨0, 10, 100, bg⟩, balances := [(0, b), (63, b)] }
    up.slice 63 = 20000 ∧
    (up.beginTurn [63] [0] 9 (e 9 0) []).1.map (fun r => (r.job, r.viaFloor, r.latency, r.engine.balance 0)) =
      some (0, true, false, up.slice 0) ∧
    (up.beginTurn [63] [0] 9 (e 10 (-1)) []).1.map (fun r => (r.job, r.viaFloor, r.latency, r.engine.balance 63)) =
      some (63, false, true, 19999) ∧
    (up.beginTurn [63] [0] 9 (e 10 (-20000)) []).1.map (fun r => (r.job, r.engine.balance 63)) = some (63, 20000) ∧
    (up.beginTurn [63] [0] 9 (e 10 (-20000)) []).2 = [63] ∧
    (up.beginTurn [] [0] 9 (e 0 0) []).1.map (fun r => (r.job, r.viaFloor, r.latency)) = some (0, false, false) := by decide +kernel

theorem test_invalidations :
    let s (n : Nat) : State := { up with xlat := { up.xlat with invals := List.replicate n ⟨1, .register, 0⟩ } }
    (s 15).regPending = 15 ∧
    ends (fun u => u.xlat.invals.length = 16 ∧ !u.xlat.overrun) (exec (.trnInval 0 0x13F) (s 15)) = true ∧
    ends (fun u => u.xlat.invals.length = 15 ∧ u.xlat.done = 1 ∧ u.num 0x260002 = 1) (exec (.trnInval 0 0x40) (s 15)) = true ∧
    ends (fun u => u.xlat.invals.length = 16 ∧ u.xlat.overrun) (exec (.trnInval 0 0xFF) (s 16)) = true ∧
    ends (fun u => !u.xlat.overrun) (exec (.trnInval 0 0x10001) { up with xlat := { up.xlat with overrun := true } }) = true ∧
    ends (fun u => !u.xlat.overrun) (exec (.trnInvalOverrunClear 0 1) { up with xlat := { up.xlat with overrun := true } }) = true := by
  decide +kernel

/-- Job 5's page table at 0x10000 with an entry for page 3 of 2 MiB, a walk of cluster 31 for it, and `n` unread fault records. -/
def walking (entry n : Nat) (write : Bool) : State :=
  let c := onEngine 1 5 (some ⟨.vector, 255⟩) (words [(0, 1, 0x50)])
  let s : State := { up with
    cmds := [c], xlat := { up.xlat with walks := [⟨31, 5, 3, [⟨⟨.vector, 255⟩, 1, 0x600040, write⟩]⟩] } }
  putAt 0x10000 (natLe 8 0x11001) (putAt 0x11000 (natLe 8 0x12001) (putAt 0x12018 (natLe 8 entry)
    { s with dict := { s.dict with nums := [
      (0x12A001, 1), (0x200003, 1), (0x200005, 9), (0x200007, 1), (0x201501, 1), (0x260001, 0x10000000000), (0x261501, 0x10000),
      (0x310001, 2), (0x400002, n)] } }))

/-- A leaf, no command that waits any more, a leaf without write permission, Valid 0 with and without Service, and a reserved Target. -/
theorem test_walk_complete :
    let go (s : State) := exec (.walkComplete 0 31 5 3) s
    ((walking 0x600007 0 true).walk .c1 5 0x600000).1 = .leaf 21 (.here 0x600000) true ∧
    ends (fun u => (u.tlb ⟨.vector, 255⟩).head? = some ⟨5, 0x600000, 21, .here 0x600000, true⟩ ∧ !u.recovering) (go (walking 0x600007 0 true)) =
      true ∧
    ends (fun u => u.tlb ⟨.vector, 255⟩ = [] ∧ !u.recovering) (go { walking 0x600003 0 true with cmds := [] }) = true ∧
    ends (fun u => u.recovering) (go (walking 0x600003 0 true)) = true ∧
    ends (fun u => u.cmds.map (fun c => c.held) = [some 0x600040]) (go (walking 8 4095 false)) = true ∧
    ends (fun u => u.recovering) (go (walking 8 4096 false)) = true ∧
    ends (fun u => u.recovering) (go (walking 0 0 false)) = true ∧
    ((walking 0x600033 0 false).walk .c1 5 0x600000).1 = .fault 3 ∧
    ends (fun u => u.recovering) (go (walking 0x600033 0 false)) = true := by decide +kernel

theorem test_resume :
    let c (id job : Nat) : Cmd := { onEngine id job none [] with held := some 64 }
    ends (fun u => u.cmds.map (fun d => d.held) = [none, some 64]) (exec (.trnResume 0 63) { up with cmds := [c 1 63, c 2 62] }) = true := by
  decide +kernel

/-- Not stacked memory, no host, a retired page, and a copy that begins. -/
theorem test_migration_go :
    let s (dst : Nat) : State := { up with xlat := { up.xlat with migSrc := 0x200000, migDst := dst } }
    ends (fun u => u.xlat.migState = 3 ∧ u.xlat.migReason = 4) (exec (.migrationGo 0 1) (s 0xC000000000)) = true ∧
    ends (fun u => u.xlat.migState = 3 ∧ u.xlat.migReason = 1) (exec (.migrationGo 0 1) ((s 0xBFFFE00000).setNum hostStateKey 1)) = true ∧
    ends (fun u => u.xlat.migState = 3 ∧ u.xlat.migReason = 3)
      (exec (.migrationGo 0 1) { s 0xBFFFE00000 with mem := { up.mem with retired := [393215] } }) = true ∧
    ends (fun u => u.xlat.migState = 1 ∧ u.host.reads.map (fun r => r.address) = [0x200000]) (exec (.migrationGo 0 1) (s 0xBFFFE00000)) = true ∧
    ends (fun u => u.num 0x260104 = 1)
      (exec (.migrationGo 0 1) { up with xlat := { up.xlat with migState := 1 } }) = true := by decide +kernel

/-- States that a copy of either direction ends in: the hypotheses alone, for a page of data. -/
theorem test_migration_complete :
    let d : Bytes := List.replicate 0x200000 7
    let s (ctl : Nat) : State := { up with
      xlat := { up.xlat with migState := 1, copyCtl := ctl, copySrc := 0x200000, copyDst := 0x200000 }
      host := { up.host with reads := [⟨.migration, 0x200000, 0x200000, 0, some d⟩] } }
    d.length = 0x200000 ∧ (s 1).host.reads.find? (fun r => r.user = .migration) = some ⟨.migration, 0x200000, 0x200000, 0, some d⟩ ∧
    (bit (s 1).xlat.copyCtl 1 = false ∧ isStacked (s 1).migrationLocal = true ∧
      (s 1).meetsRetired (s 1).migrationLocal 0x200000 = false ∧ bit (s 3).xlat.copyCtl 1 = true) ∧
    ∃ d x, (s 3).read ⟨.c2, some 0⟩ (s 3).migrationLocal 0x200000 = (.ok d, x) :=
  ⟨List.length_replicate, rfl, by decide +kernel, _, _, rfl⟩

/-- A page that cannot be read to the host: retired, and with an uncorrectable word at its end (R285). -/
theorem test_migration_fails :
    let s (retired bad : List Nat) : State := { up with
      xlat := { up.xlat with migState := 1, copyCtl := 3, copySrc := 0x200000, copyDst := 0x200000 }
      mem := { up.mem with retired := retired, bad := bad } }
    ends (fun u => u.xlat.migState = 3 ∧ u.xlat.migReason = 3 ∧ u.num 0x260102 = 1) (exec (.migrationComplete 0) (s [1] [])) = true ∧
    ends (fun u => u.xlat.migState = 3 ∧ u.xlat.migReason = 2 ∧ u.num 0x260102 = 1) (exec (.migrationComplete 0) (s [] [0x3FFFE0])) =
      true := by decide +kernel

/-! ### The host -/

/-- `up` with a port that is down, up, or attached: 0x3100.01 is 0, 1 or 2. -/
def hostAt (n : Nat) : State := { up with
  host := { up.host with dlUp := n ≠ 0 }
  dict := { up.dict with nums := [
    (0x12A001, 1), (0x200003, 1), (0x200005, 9), (0x200007, 1), (0x201501, 1), (0x260001, 0x10000000000), (0x310001, n)] } }

theorem test_host_link :
    (hostAt 0).host.perst = true ∧ (hostAt 0).host.phy = true ∧ (hostAt 0).host.dlUp = false ∧
    ends (fun u => u.host.dlUp ∧ u.num 0x310001 = 1 ∧ u.num 0x310002 = 16 ∧ u.num 0x310003 = 64) (exec (.hostLinkUp 0 16 64) (hostAt 0)) = true ∧
    ends (fun u => !u.host.dlUp) (exec (.hostLinkUp 0 2 64) (hostAt 0)) = true ∧
    ends (fun u => u.num 0x310102 = 1 ∧ u.num 0x6E0005 = 3) (exec (.linkRecovery 0 3) (hostAt 2)) = true := by decide +kernel

theorem test_configuration :
    let early := (hostAt 1).setNum startupKey 0
    ends (fun u => u.out = [.configRetry]) (exec (.configurationRequest 0 .memorySpace true false) early) = true ∧
    (hostAt 1).num startupKey = 1 ∧
    ends (fun u => !u.host.memSpace ∧ u.host.busMaster ∧ u.out = [.configDone []]) (exec (.configurationRequest 0 .memorySpace true false) (hostAt 1)) =
      true ∧
    ends (fun u => !u.host.busMaster) (exec (.configurationRequest 0 .busMaster true false) (hostAt 1)) = true ∧
    ends (fun u => !u.host.msix) (exec (.configurationRequest 0 .msixEnable true false) (hostAt 1)) = true ∧
    ends (fun u => u.host.uio) (exec (.configurationRequest 0 .uioEnable true true) (hostAt 1)) = true ∧
    [ConfigField.functionReset, .other].all (fun f =>
      ends (fun u => u.host = (hostAt 1).host) (exec (.configurationRequest 0 f true true) (hostAt 1))) = true ∧
    ends (fun u => u.host = (hostAt 1).host ∧ u.out = [.configDone [1]]) (exec (.configurationRequest 0 .memorySpace false false) (hostAt 1)) =
      true ∧
    ends (fun u => u.out = [.configDone [3]]) (exec (.configurationRequest 0 .memoryStatus false false) (hostAt 1)) = true ∧
    ends (fun u => u.out = [.configDone [0, 0, 0x12]]) (exec (.configurationRequest 0 .classCode false false) (hostAt 1)) = true := by
  decide +kernel

theorem test_hdm_commit :
    ends (fun u => u.host.committed ∧ u.num 0x260001 = 0xFFFFFFFFF0000000) (exec (.hdmCommit 0 0xFFFFFFFFF0000000) (hostAt 1)) = true ∧
    ends (fun u => u.num 0x260001 = 0x10000000000) (exec (.hdmCommit 0 0x8000000) (hostAt 1)) = true := by decide +kernel

theorem test_ide :
    let s (keys : Nat) : State := { hostAt 1 with
      spdm := { up.spdm with sessions := [⟨4, .host, true, [], 0, 0⟩] }, host := { (hostAt 1).host with ideKeys := keys } }
    (s 0).spdm.sessions.any (fun x => x.id = 4 && x.established) = true ∧
    ends (fun u => u.host.ideKeys = 8) (exec (.ideKmMessage 0 4 3 .program) (s 0)) = true ∧
    ends (fun u => u.host.ideKeys = 8 + 2048 ∧ !u.host.ideSkid) (exec (.ideKmMessage 0 4 3 (.activate true)) (s 8)) = true ∧
    ends (fun u => u.host.ideKeys = 1 + 256 ∧ u.host.ideSkid) (exec (.ideKmMessage 0 4 0 (.activate true)) (s 1)) = true ∧
    ends (fun u => u.host.ideKeys = 4) (exec (.ideKmMessage 0 4 3 (.activate true)) (s 4)) = true := by decide +kernel

theorem test_attach :
    (hostAt 1).attached = false ∧ (hostAt 1).attachRefusal = 0 ∧
    ends (fun u => u.attached ∧ u.num 0x310103 = 1) (exec (.hostAttach 0) (hostAt 1)) = true ∧
    (let s : State := { hostAt 1 with host := { (hostAt 1).host with msix := false, committed := false } }
     s.attachRefusal = 3 ∧ ends (fun u => !u.attached ∧ u.host.refusal = 3) (exec (.hostAttach 0) s) = true) ∧
    (hostAt 2).attached = true ∧ ends (fun u => u = hostAt 2) (exec (.hostAttach 0) (hostAt 2)) = true := by decide +kernel

theorem test_clear_log :
    ends (fun u => u.host.discards = [] ∧ u.num 0x310107 = 0)
      (exec (.hostClearLog 0) (({ up with host := { up.host with discards := [[1]] } } : State).setNum 0x310107 5)) = true := by decide +kernel

/-- Two device writes without GO are discarded and counted, and those that abut are one record (R398, R399). -/
theorem test_host_loss :
    let w (n a : Nat) : HostWrite := ⟨n, 5, 0, 0, a, [1, 2], false⟩
    let s : State := { hostAt 2 with host := { (hostAt 2).host with writes := [w 0 0x40, w 1 0x42], p2pBase := [(0, 1)] } }
    s.host.dlUp = true ∧ s.host.perst = true ∧
    ends (fun u => !u.host.dlUp ∧ !u.host.committed ∧ u.host.writes = [] ∧ u.host.p2pBase = [] ∧ u.num 0x260001 = 0 ∧ u.num 0x310104 = 2 ∧
      u.host.discards.length = 1 ∧ u.host.perst) (exec (.hostLinkLoss 0 false) s) = true ∧
    ends (fun u => !u.host.perst ∧ !u.host.dlUp) (exec (.hostLinkLoss 0 true) s) = true ∧
    ends (fun u => u = hostAt 0) (exec (.hostLinkLoss 0 false) (hostAt 0)) = true := by decide +kernel

/-- The last 32 bytes of device memory (R382, R384, R391). -/
theorem test_host_memory :
    let b := 0x10000000000 + 0xBFFFFFFFE0
    let d : Bytes := List.replicate 32 7
    up.hdmUp = true ∧ up.outsideHdm b 32 = false ∧ up.tenancy = 1 ∧ bare.tenancy ≠ 1 ∧ bare.outsideHdm b 32 = false ∧
    up.meetsRetired 0xBFFFFFFFE0 32 = false ∧ up.firstBad 0xBFFFFFFFE0 32 = none ∧
    ends (fun u => u.out = [.hostData d false]) (exec (.hostMemRead 0 b 32) (putAt 0xBFFFFFFFE0 d up)) = true ∧
    ends (fun u => u.out = [.hostData (List.replicate 32 0) false]) (exec (.hostMemRead 0 b 32) (putAt 0xBFFFFFFFE0 d bare)) = true ∧
    ends (fun u => u.bytes 0xBFFFFFFFE0 32 = d ∧ u.out = [.hostDone false]) (exec (.hostMemWrite 0 b d true) up) = true ∧
    ends (fun u => u.mem = up.mem ∧ u.out = [.hostDone true] ∧ u.num 0x310301 = 1) (exec (.hostMemWrite 0 (b + 31) [7] true) up) = true ∧
    ends (fun u => u.mem = bare.mem ∧ u.num 0x310304 = 1) (exec (.hostMemWrite 0 b d true) bare) = true ∧
    faults (fun r => r = .outsideDeviceMemory) (exec (.hostMemRead 0 (b + 1) 32) up) = true ∧
    ends (fun u => u.out = [.unsupportedRequest] ∧ u.num 0x310303 = 1) (exec (.peerMemRequest 0 (b + 31)) up) = true := by decide +kernel

theorem test_device_reads_and_writes :
    let r : HostRead := ⟨.slot 95, 0x40, 2, 0, none⟩
    let w : HostWrite := ⟨3, 5, 0, 255, 0x40, [0], false⟩
    let s : State := { up with host := { up.host with reads := [r], writes := [w] } }
    (s.host.reads.filter (fun r => r.data.isNone))[0]? = some r ∧
    ends (fun u => u.host.reads = [{ r with data := some [1, 2] }]) (exec (.hostReadData 0 0 false [1, 2, 3]) s) = true ∧
    ends (fun u => u.recovering) (exec (.hostReadData 0 0 true []) s) = true ∧
    s.host.writes.find? (fun w => w.number = 3 && !w.posted) = some w ∧
    ends (fun u => u.host.writes = []) (exec (.hostGoReceive 0 3 false) s) = true ∧
    ends (fun u => u.recovering) (exec (.hostGoReceive 0 3 true) s) = true ∧
    ends (fun u => u.out = [.snoopMiss]) (exec (.hostSnoop 0 64) up) = true := by decide +kernel

theorem test_vectors :
    let s (mask : Byte) (after : Nat) : State := { up with host := { up.host with
      held := [⟨2047, after⟩], msixTable := [(32764, mask)], writes := [⟨3, 5, 0, 255, 0x40, [0], false⟩] } }
    (s 0 3).vectorOpen 2047 = true ∧ (s 0 3).vectorReady ⟨2047, 3⟩ = true ∧ (s 1 3).vectorOpen 2047 = false ∧
    (s 0 4).vectorReady ⟨2047, 4⟩ = false ∧
    ends (fun u => u.out = [.msi 2047] ∧ u.host.held = []) (exec (.vectorSend 0 2047) (s 0 3)) = true ∧
    ends (fun u => u.out = [] ∧ u.host.held.length = 1) (exec (.vectorSend 0 2047) (s 1 3)) = true ∧
    ends (fun u => u.out = [] ∧ u.host.held.length = 1) (exec (.vectorSend 0 2047) (s 0 4)) = true := by decide +kernel

/-- The last register of each block of the BAR, and a narrow write (R313, R380, R381). -/
theorem test_bar :
    let w (o v n : Nat) := exec (.registerWrite 0 o v n) up
    ends (fun u => u.queue 1023 = { Queue.init with config := 0x0A }) (w (0x20008 + 64 * 1023) 11 8) = true ∧
    ends (fun u => u.queue 1023 = { Queue.init with config := 0x0A }) (w (0x20008 + 64 * 1023) 10 8) = true ∧
    ends (fun u => u.queue 1023 = Queue.init) (w (0x20008 + 64 * 1023) 11 4) = true ∧
    ends (fun u => u.xlat.invals.length = 1) (w 0x30000 5 8) = true ∧
    ends (fun u => u = up) (w 0x3FFFF 5 7) = true ∧
    ends (fun u => u.msixByte 0x7FFF = 0xAB) (w 0x47FFF 0xAB 1) = true ∧
    ends (fun u => u.fence 4095 = 5) (w 0x57FF8 5 8) = true ∧
    ends (fun u => u.num 0x6BFF05 = 1) (w (0x400000 + 0x1000 * 1023) 5 4) = true ∧
    ends (fun u => u.num 0x6BFF05 = 1) (w (0x400000 + 0x1000 * 1023) 5 8) = true ∧
    faults (fun r => r = .outsideBar) (w 0x800000 5 8) = true ∧ refuses (fun r => r = .cxlStandardRegister) (w 0x1FFFF 5 8) = true := by
  decide +kernel

/-- What the blocks' registers read as (R288, R312, R313, R326). -/
theorem test_bar_reads :
    let s : State := { up with fences := [(4095, 6)], queues := [(1023, { ready with ring := 0x2000, head := 3, tail := 4 })] }
    [0x20000 + 64 * 1023, 0x20008 + 64 * 1023, 0x20010 + 64 * 1023, 0x20018 + 64 * 1023, 0x400000 + 0x1000 * 1023, 0x400008 + 0x1000 * 1023,
      0x400010 + 0x1000 * 1023, 0x50000 + 8 * 4095, 0x30000, 0x30008, 0x30058, 0x32000, 0x58000].map s.readRegister =
      [some 0x2000, some 28, some 2, some 0, some 4, some 3, some 2, some 6, some 0, some 0, some 0, some 0, some 0] := by decide +kernel

/-! ### Errors in memory, records and tests -/

/-- The last code word but one of stack 31's pass (R264, R265). -/
theorem test_scrub :
    let i := wordsPerStack - 2
    let w := scrubWord 0 31 i
    let s : State := { up with mem := { up.mem with scrubPos := [(31, i)] } }
    s.spread = 0 ∧ up.powered = true ∧ s.meetsRetired w 32 = false ∧
    ends (fun u => Map.get 0 u.mem.scrubPos 31 = i + 1 ∧ w ∈ u.mem.bad ∧ u.mem.pendingPages = [w / 0x200000] ∧ u.num 0x651F02 = 1)
      (exec (.scrubStep 0 31 ⟨[.flip w [0, 287]], 0⟩) s) = true ∧
    ends (fun u => u.mem.corrected = [(w, 5000000000)] ∧ u.num (objKey (0x6500 + s.stackOf w) 1) = 1 ∧ u.num 0x651F0A = 3)
      (exec (.scrubStep 0 31 ⟨[.flip w [9]], 3⟩) s) = true ∧
    ends (fun u => u.mem.bad = [] ∧ u.mem.corrected = []) (exec (.scrubStep 0 31 ⟨[], 0⟩) s) = true ∧
    (let z : State := { s with mem := { s.mem with retired := [w / 0x200000] } }
     z.meetsRetired w 32 = true ∧
     ends (fun u => u.mem.pendingPages = [] ∧ Map.get 0 u.mem.scrubPos 31 = i + 1) (exec (.scrubStep 0 31 ⟨[.flip w [9]], 0⟩) z) = true) := by
  decide +kernel

/-- Two bits of a code word, one pin's bits, one bit, and a read that answers with the neighbouring word (R257). -/
theorem test_code :
    (up.upset (.flip 0x20 [0, 255])).mem.bad = [0x20] ∧ (up.upset (.flip 0x20 [287])).mem.flips = [(0x20, 287)] ∧
    onePin [0, 32, 64] = true ∧ onePin [0, 1] = false ∧ (up.upset (.flip 0x20 [0, 32, 64])).mem.bad = [0x20] ∧
    bitsApart (codeAddress up.spread 0x20) (codeAddress up.spread 0x40) = 2 ∧ (up.upset (.misread 0x20 0x40)).mem.bad = [0x20] := by
  decide +kernel

theorem test_sram_scrub :
    let w := 0xF11FFFFFF8
    let s (bad seen : List Nat) : State := { up with mem := { up.mem with sramBad := bad, sramSeen := seen } }
    isSram w = true ∧
    ends (fun u => u.mem.sramBad = [w] ∧ u.mem.sramSeen = [w] ∧ u.integ.reports.length = 1) (exec (.sramScrub 0 (w + 7) [w + 7]) (s [] [])) = true ∧
    ends (fun u => u.mem.sramBad = [w] ∧ u.integ.reports = []) (exec (.sramScrub 0 w [w]) (s [] [w])) = true ∧
    ends (fun u => u = s [] [w]) (exec (.sramScrub 0 w []) (s [] [w])) = true := by decide +kernel

/-- The recorder's entry 4,096 of a fault queue at 0x8000, one report in 100 ns, no tenancy, and a full queue (R410 to R414). -/
theorem test_recorder :
    let r := up.newReport ⟨.walker, 31⟩ 0x3001 0 5
    let s (n : Nat) (last : Option Ns) : State :=
      let z := walking 0 n false
      let q := z.setNum (objKey 0x4000 1) 0x8000
      { q with integ := { up.integ with reports := [r], lastRecord := last } }
    nextReport [r] = some r ∧ (s 4095 none).faultQueueRoom = true ∧ (s 4096 none).faultQueueRoom = false ∧
    ends (fun u => u.num 0x400002 = 4096 ∧ u.integ.reports = [] ∧ u.bytes (0x8000 + 4095 * 64) 2 = [1, 0x30])
      (exec (.recorderStart 0) (s 4095 (some 4999999900))) = true ∧
    ends (fun u => u.integ.reports = [r]) (exec (.recorderStart 0) (s 4095 (some 4999999901))) = true ∧
    ends (fun u => u.num 0x400006 = 1 ∧ u.integ.reports = [] ∧ u.integ.lostBefore = 1) (exec (.recorderStart 0) (s 4096 none)) = true ∧
    ends (fun u => u.integ.log.length = 1 ∧ u.integ.reports = [])
      (exec (.recorderStart 0) { bare with integ := { up.integ with reports := [r] } }) = true := by decide +kernel

/-- Core 255's test code, and its cluster's own (R429). -/
theorem test_in_field :
    let hours := up.num (objKey 0x4100 1)
    let late : State := { up with now := hours * 3600000000000 }
    let s (w t : List Nat) : State := { up with integ := { up.integ with windows := w, testing := t } }
    testCodeOk 0xFF = true ∧ up.testFenced 0xFF = false ∧
    ends (fun u => u.integ.windows = [0xFF] ∧ u.num 0x410003 = 1 ∧ (u.engine ⟨.stream, 255⟩).paused) (exec (.testDeferralExpire 0 0xFF) late) =
      true ∧
    (s [0xFF, 0x15F] []).testReady 0xFF = true ∧ testCluster 0xFF = 31 ∧ testCluster 0x15F = 31 ∧
    ends (fun u => u.integ.testing = [0xFF]) (exec (.iftStart 0 0xFF) (s [0xFF, 0x15F] [])) = true ∧
    ends (fun u => u.integ.testing = []) (exec (.iftStart 0 0x15F) (s [0xFF, 0x15F] [])) = true ∧
    ends (fun u => u.integ.windows = [] ∧ u.integ.testing = [] ∧ u.num 0x412F08 = 5000000000) (exec (.iftComplete 0 0xFF [true]) (s [0xFF] [0xFF])) =
      true ∧
    ends (fun u => u.integ.suspects = [0xFF] ∧ u.suspicions 0xFF = 1) (exec (.iftComplete 0 0xFF [false]) (s [0xFF] [0xFF])) = true ∧
    (let two := (s [0xFF] [0xFF]).setNum (suspectKey ⟨.core, 255⟩) 2
     two.suspicions 0xFF = 2 ∧ ends (fun u => u.testFenced 0xFF) (exec (.iftComplete 0 0xFF [false]) two) = true) := by decide +kernel

/-- A digest group 7 of packages 0 (this one) and 1, with an area at 0x4000 and fence 3. -/
def grouped (v : DigestGroup) : State :=
  let s := ((up.setNum (groupKey 7 5) 0x4000).setNum (groupKey 7 7) 3).setBlob (groupKey 7 2) ([0, 0, 1, 0] ++ List.replicate 12 255)
  { s with integ := { s.integ with groups := [(7, v)] } }

theorem test_digest_region :
    let s := grouped { DigestGroup.init with active := true, regionsPending := true, epoch := 6 }
    (s.group 7).active = true ∧ s.regions 7 = [] ∧ s.num (groupKey 7 7) = 3 ∧
    ends (fun u => !(u.group 7).regionsPending ∧ u.fence 3 = 6) (exec (.digestRegionRead 0 7) s) = true := by decide +kernel

theorem test_digest_message :
    let s := putAt 0x4040 (words [(0, 1, 0xAA), (32, 8, 6), (40, 2, 1), (42, 1, 1)]) (grouped { DigestGroup.init with active := true })
    (s.groupMembers 7).any (fun y => y.1 = 1 && y.2 ≠ s.chip) = true ∧ (1, 1) ∈ s.groupMembers 7 ∧ s.num (groupKey 7 9) < 6 ∧
    ends (fun u => (u.group 7).messages.map (fun y => (y.1, y.2.1)) = [(1, 6)]) (exec (.digestMessageReceive 0 7 1) s) = true := by decide +kernel

theorem test_digest_timeout :
    let s := grouped { DigestGroup.init with active := true, due := [(6, 0, []), (7, 0, [])] }
    let z : State := { s with now := s.num (objKey 0x4004 1) * 1000000 }
    ends (fun u => u.num (groupKey 7 9) = 6 ∧ (u.group 7).due.map (fun y => y.1) = [7]) (exec (.digestTimeout 0 7) z) = true := by
  decide +kernel

/-- Verify pair 15: a primary of job 5 whose peer is pair 0 of a package, with a verify area at 0x5000 and fence 4. -/
def paired (chip : Nat) (v : VerifyPair) : State :=
  let s := (((((up.setNum (pairKey 15 1) 1).setNum (pairKey 15 2) 5).setNum (pairKey 15 4) chip).setNum (pairKey 15 6) 4).setNum
    (pairKey 15 7) 0x5000).setNum (pairKey 15 8) 1
  { s with integ := { s.integ with pairs := [(15, v)] } }

theorem test_verify_digest :
    let s := paired 0 { VerifyPair.init with due := [(63, [31]), (64, [])] }
    s.pairLive 15 = true ∧ s.isReplay 15 = false ∧ (s.verifyValue 15 63).1 = none ∧
    ends (fun u => (u.pair 15).due = [(64, [])] ∧ (u.pair 15).own = [⟨63, [], false, [31], 5000000000⟩]) (exec (.verifyDigest 0 15) s) = true := by
  decide +kernel

/-- A replaying pair whose peer cannot be reached: the value that the engine cannot send is a fault (R421, notes/assumptions/128.md). -/
theorem test_verify_replay :
    let s := (paired 1 { VerifyPair.init with due := [(63, [31])] }).setNum (pairKey 15 2) 261
    s.pairLive 15 = true ∧ s.isReplay 15 = true ∧ s.peerChip 15 ≠ s.chip ∧ s.routeDown (s.peerChip 15) = true ∧
    ends (fun u => u.recovering) (exec (.verifyDigest 0 15) s) = true := by decide +kernel

theorem test_verify_value :
    let s := putAt (0x5000 + 64 * 63) (words [(0, 1, 0xAA), (32, 8, 127), (40, 1, 1)]) (paired 1 VerifyPair.init)
    s.peerChip 15 ≠ s.chip ∧ s.num (pairKey 15 9) < 127 ∧
    ends (fun u => (u.pair 15).peer.map (fun y => (y.seq, y.readable)) = [(127, true)]) (exec (.verifyValueReceive 0 15 127) s) = true := by
  decide +kernel

theorem test_verify_timeout :
    let s := paired 1 { VerifyPair.init with own := [⟨1, [], true, [], 0⟩] }
    let z : State := { s with now := s.num (objKey 0x4004 2) * 1000000 }
    ends (fun u => u.num (pairKey 15 8) = 2 ∧ u.pair 15 = VerifyPair.init) (exec (.verifyTimeout 0 15) z) = true := by decide +kernel

/-- Equal values of disjoint clusters, unequal values, an unreadable one, and a shared cluster (R422). -/
theorem test_verify_compare :
    let s (v : Byte) (ok : Bool) (cl : Nat) : State := paired 0
      { VerifyPair.init with own := [⟨9, [1], true, [31], 0⟩], peer := [⟨9, [v], ok, [cl], 0⟩] }
    (s 1 true 30).peerChip 15 = (s 1 true 30).chip ∧
    (State.comparePair 15 1 (s 1 true 30)).fence 4 = 9 ∧ (State.comparePair 15 1 (s 1 true 30)).num (pairKey 15 9) = 9 ∧
    (State.comparePair 15 1 (s 2 true 30)).num (pairKey 15 8) = 2 ∧ (State.comparePair 15 1 (s 1 false 30)).num (pairKey 15 8) = 2 ∧
    (State.comparePair 15 1 (s 1 true 31)).num (pairKey 15 8) = 2 ∧ (State.comparePair 15 1 (s 1 true 31)).fences = [] := by decide +kernel

/-! ### The Varx fabric -/

/-- A torus of 4 × 4 × 4 in which port 5 has a state: 2 trained, 3 down. -/
def torus (state : Nat) (v : Port) : State :=
  let s : State := { up with fabric := { up.fabric with shape := (4, 4, 4, 7), ports := [(5, v)] } }
  s.setNum (portStateKey 5) state

theorem test_links :
    (torus 0 Port.init).portUsed 5 = true ∧ (torus 2 Port.init).portUp 5 = true ∧
    ends (fun u => u.portUp 5) (exec (.varxLinkUp 0 5) (torus 0 Port.init)) = true ∧
    ends (fun u => u.num (portStateKey 5) = 3 ∧ (u.port 5).downAt = 5000000000 ∧ u.num (portKey 5 9) = 1)
      (exec (.varxLinkDown 0 5 true) (torus 2 Port.init)) = true ∧
    ends (fun u => u.num (portStateKey 5) = 3) (exec (.varxLinkDown 0 5 false) (torus 2 { Port.init with replays := 17 })) = true ∧
    ends (fun u => u.portUp 5) (exec (.varxLinkDown 0 5 false) (torus 2 { Port.init with replays := 16 })) = true ∧
    ends (fun u => u.portUp 5) (exec (.varxRetrain 0 5 true) (torus 3 { Port.init with downAt := 4900000000 })) = true ∧
    ends (fun u => (u.port 5).downAt = 5000000000) (exec (.varxRetrain 0 5 false) (torus 3 { Port.init with downAt := 4900000000 })) = true ∧
    ends (fun u => u.num (portStateKey 5) = 3) (exec (.varxRetrain 0 5 true) (torus 3 { Port.init with downAt := 4900000001 })) = true := by
  decide +kernel

/-- A data frame of sequence 4,095 for this package, and the same out of its turn (R350). -/
theorem test_frames :
    let f := frameWhole 4095 (frameBody 3 0 0 1 2 0 [])
    let s (n : Nat) := torus 2 { Port.init with nextAccept := n }
    frameOk f = true ∧ frameSeq f = 4095 ∧ frameDest f = up.chip ∧ frameOk (f.drop 1) = false ∧
    ends (fun u => (u.port 5).nextAccept = 0 ∧ u.num (portKey 5 2) = 1 ∧ u.out.length = 1) (exec (.sequencedFrameReceive 0 5 0 0 f) (s 4095)) =
      true ∧
    ends (fun u => u.fabric = (s 4094).fabric ∧ u.out.length = 1) (exec (.sequencedFrameReceive 0 5 0 0 f) (s 4094)) = true ∧
    ends (fun u => u.fabric = (s 4095).fabric ∧ u.out.length = 1) (exec (.sequencedFrameReceive 0 5 0 0 (f.drop 1)) (s 4095)) = true := by
  decide +kernel

theorem test_acknowledge :
    let all : List (Nat × Bytes) := [(4094, []), (4095, []), (0, [])]
    let s (n : Nat) := torus 2 { Port.init with unacked := all, replays := n }
    all.filter (fun e => (e.1 + 4096 - 4095) % 4096 < 2048) = [(4095, []), (0, [])] ∧
    ends (fun u => (u.port 5).unacked = [(4095, []), (0, [])] ∧ (u.port 5).replays = 0) (exec (.acknowledgeReceive 0 5 0 4095) (s 15)) = true ∧
    ends (fun u => (u.port 5).replays = 16 ∧ u.out.length = 3) (exec (.acknowledgeReceive 0 5 1 4094) (s 15)) = true ∧
    ends (fun u => (u.port 5).replays = 17 ∧ u.out = []) (exec (.acknowledgeReceive 0 5 1 4094) (s 16)) = true := by decide +kernel

theorem test_credit :
    let o : Outgoing := ⟨15, 1, 7, 65537, [], [], 5, true, 4999999000⟩
    let s : State := { torus 2 Port.init with fabric := { (torus 2 Port.init).fabric with outgoing := [o] } }
    s.fabric.outgoing.find? (fun o => o.channel = 15 && o.chip = 1 && o.number = 7 && o.index % 65536 = 1 &&
      (!o.isRefresh || s.holdsChannel 15 .refresh (fieldLe o.data 0 2))) = some o ∧ o.isRefresh = false ∧
    ends (fun u => u.fabric.outgoing = [] ∧ u.num (channelKey 15 5) = 1000) (exec (.creditReceive 0 5 up.chip 1 15 7 1) s) = true := by
  decide +kernel

/-- A request leaves a port whose data waits, and joins the requests that wait (R359). -/
theorem test_send :
    let b := frameBody frameRequest 0 1 0 0 0 []
    let s (v : Port) := torus 2 { v with data := [[1]], nextSend := 4095 }
    ((s Port.init).port 5).waiting b = [] ∧
    ((s Port.init).sendBody 5 b).out = [.frame 5 (frameWhole 4095 b)] ∧ (((s Port.init).sendBody 5 b).port 5).nextSend = 0 ∧
    ((s { Port.init with requests := [b] }).sendBody 5 b).out = [] ∧
    (((s { Port.init with requests := [b] }).sendBody 5 b).port 5).requests = [b, b] ∧
    ((s { Port.init with requests := [b] }).port 5).next = some (b, (s Port.init).port 5) := by decide +kernel

/-- Every 1,000,000 ns. The beacon names the serial, which is free: the hypotheses alone. -/
theorem test_beacons :
    (torus 2 { Port.init with beaconAt := 4999000000 }).portUp 5 = true ∧
    ((torus 2 { Port.init with beaconAt := 4999000000 }).port 5).beaconAt + 1000000 = up.now ∧
    ends (fun u => u.out = []) (exec (.beaconTimer 0 5) (torus 2 { Port.init with beaconAt := 4999000001 })) = true := by decide +kernel

/-- A torus whose root is this package, or another one that was last heard at a time. -/
def rooted (own : Bool) (heard : Ns) : State :=
  { up with fabric := { up.fabric with candidate := if own then ownSerial else ownSerial + 1, settled := true, rootHeard := heard } }

theorem test_root :
    (rooted true 0).fabric.candidate = ownSerial ∧ (rooted false 0).fabric.candidate ≠ ownSerial ∧
    (rooted false 4900000000).fabric.rootHeard + 100000000 = up.now ∧ (rooted false 4900000001).fabric.rootHeard + 100000000 = up.now + 1 :=
  ⟨rfl, Nat.succ_ne_self _, rfl, rfl⟩

theorem test_report_resend :
    let s : State := { child with fabric := { child.fabric with unreported := [(1, 7), (2, 8)] } }
    s.fabric.parent = some 2 ∧ s.portUp 2 = true ∧ ends (fun u => u.out.length = 2) (exec (.reportResend 0) s) = true := by decide +kernel

/-- The last bytes of core 255's scratchpad; the owner is 9 (R360). -/
theorem test_remote_request :
    let a := 0xF07FFFFFF8
    let go (owner : Nat) (w : Bool) (off : Nat) (s : State) := exec (.remoteRequestReceive 0 1 3 owner w off 8 (List.replicate 8 7)) s
    up.usable = true ∧ up.num 0x200005 = 9 ∧ up.remoteRange a 8 = true ∧ up.remoteRange (a + 1) 8 = false ∧
    up.remoteRange (a - 248) 256 = true ∧ up.remoteRange (a - 249) 257 = false ∧
    (match up.write ⟨.c1, none⟩ a (List.replicate 8 7) with
      | (.ok _, x) => x.byte (a + 7) = 7
      | _ => false) = true ∧
    ends (fun u => u.byte a = 7 ∧ u.byte (a + 7) = 7) (go 9 true a up) = true ∧
    ends (fun u => u.mem = up.mem) (go 9 false a up) = true ∧ ends (fun u => u.mem = up.mem) (go 8 true a up) = true ∧
    ends (fun u => u.mem = up.mem) (go 9 true (a + 1) up) = true := by decide +kernel

theorem test_remote_response :
    let r : RemoteReq := ⟨3, 255, 17, 1, false, 1, 4999000000⟩
    let q : StreamReq := { core := 255, slot := 17, tile := 0, number := 1, parts := [⟨.remote 1 0, 0, 2, none⟩], dest := .here 0, length := 2,
                           undefined := false, acked := false }
    let s : State := { up with fabric := { up.fabric with requests := [r] }, streams := { up.streams with requests := [q] } }
    s.fabric.requests.find? (fun r => r.id = 3) = some r ∧
    ends (fun u => u.recovering) (exec (.remoteResponseReceive 0 3 0x1002 []) s) = true ∧
    ends (fun u => u.fabric.requests = [] ∧ u.streams.requests.map (fun q => q.data) = [some [1, 2]]) (exec (.remoteResponseReceive 0 3 0 [1, 2, 3]) s) =
      true ∧
    ends (fun u => u.recovering) (exec (.remoteRequestTimeout 0 3) s) = true ∧
    ends (fun u => !u.recovering) (exec (.remoteRequestTimeout 0 3) { s with now := 4999999999 }) = true := by decide +kernel

/-! ### Collectives -/

/-- A reduction of 64 FP32 elements from 0x1000 to 0x2000 on channel 15, its pages translated. -/
def collective (op : Nat) (fields : List (Nat × Nat × Nat)) : Cmd :=
  { onEngine 1 5 (some ⟨.stream, 255⟩) (words ([(0, 1, op), (16, 1, 15), (18, 2, 7), (20, 4, 64), (24, 8, 0x1000), (32, 8, 0x2000)] ++ fields)) with
    xl := [(0, .here 0, true)] }

theorem test_collective_asks :
    let s (op : Nat) : State := { up with cmds := [collective op []] }
    (s 0xA0).collFieldsOk (collective 0xA0 []) = true ∧
    (match (s 0xA0).needRanges (collective 0xA0 []) ⟨.stream, 255⟩ ((s 0xA0).collRanges (collective 0xA0 [])) with
      | .ready x c => x.collTargetsOk c ∧ c.id = 1
      | _ => false) = true ∧
    ([(.allReduce 0 1, 0xA0), (.reduceScatter 0 1, 0xA1), (.allGather 0 1, 0xA2)] : List (Instr × Nat)).all (fun e =>
      ends (fun u => (u.channel 15).waiting = [⟨.collective, 7, 1, 5000000000⟩] ∧ (u.channel 15).running = none ∧ u.cmds.all (fun c => c.armed))
        (exec e.1 (s e.2))) = true := by decide +kernel

theorem test_collective_illegal :
    let c := collective 0xA0 [(20, 4, 63)]
    up.collFieldsOk c = false ∧ ends (fun u => u.recovering) (exec (.allReduce 0 1) { up with cmds := [c] }) = true := by decide +kernel

theorem test_channel :
    let o (owner : Nat) : ChannelOp := ⟨.update, 3, owner, 4999000000⟩
    let s (run : Option ChannelOp) : State := { up with fabric := { up.fabric with
      channels := [(15, { running := run, waiting := [o 1, o 2], last := none })] } }
    ends (fun u => u.channel 15 = ⟨some (o 1), [o 2], none⟩) (exec (.channelAcquire 0 15) (s none)) = true ∧
    ends (fun u => u.channel 15 = ⟨some (o 3), [o 1, o 2], none⟩) (exec (.channelAcquire 0 15) (s (some (o 3)))) = true := by decide +kernel

/-- One nanosecond beyond the timeout, 1,000 µs by default for an update exchange, and at it (R363). -/
theorem test_channel_wait :
    let s (k : OpKind) (since : Ns) (more : List Nat) : State := { up with
      cmds := [{ collective 0xA0 [] with scratch := more }]
      fabric := { up.fabric with channels := [(15, { running := none, waiting := [⟨k, 7, 1, since⟩], last := none })] } }
    let w := up.num (objKey 0x2310 1) * 1000
    (s .update 0 []).opTimeout ⟨.update, 7, 1, 0⟩ = some w ∧ (s .collective 0 [100]).opTimeout ⟨.collective, 7, 1, 0⟩ = some 100000 ∧
    ends (fun u => (u.channel 15).waiting = [] ∧ u.cmds.map (fun c => c.scratch) = [[1]]) (exec (.channelWaitTimeout 0 15 1) (s .update (5000000000 - w - 1) [])) =
      true ∧
    ends (fun u => (u.channel 15).waiting.length = 1) (exec (.channelWaitTimeout 0 15 1) (s .update (5000000000 - w) [])) = true ∧
    ends (fun u => (u.channel 15).waiting = [] ∧ u.cmds.map (fun c => c.phase) = [.finished])
      (exec (.channelWaitTimeout 0 15 1) (s .collective 4999899999 [100])) = true := by decide +kernel

/-- A collective of this package alone that has its channel and a progress. -/
def collecting (fields : List (Nat × Nat × Nat)) (read : Nat) : State :=
  let c := collective 0xA0 fields
  let k : Collective := { Collective.none_ c 100 with read := read, vector := List.replicate 64 0x3F800000 }
  { up with cmds := [c], fabric := { up.fabric with
    collectives := [k], channels := [(15, { running := some ⟨.collective, 7, 1, 0⟩, waiting := [], last := none })] } }

/-- A part of one chunk: the gate shut at fence value 0, the chunk read, and the output written (R372, R374). -/
theorem test_collective_chunk :
    let gated := collecting [(16, 1, 0x4F), (48, 2, 4095)] 0
    let s := collecting [] 0
    let t := collecting [] 1
    s.partChunks (collective 0xA0 []) = 1 ∧ gated.gateOpen (collective 0xA0 [(16, 1, 0x4F), (48, 2, 4095)]) 0 = false ∧
    ends (fun u => u.fabric = gated.fabric) (exec (.collectiveChunk 0 1) gated) = true ∧
    s.gateOpen (collective 0xA0 []) 0 = true ∧ s.phases (collective 0xA0 []) = [] ∧
    ends (fun u => (u.coll? 1).map (fun k => (k.read, k.vector.headD 9)) = some (1, 0)) (exec (.collectiveChunk 0 1) s) = true ∧
    (t.coll? 1).any (fun k => t.pieces (collective 0xA0 []) k = [(0, 0)] && t.pieceFinal (collective 0xA0 []) k (0, 0) && !t.collWaiting k &&
      t.unrounded (collective 0xA0 []) = false) = true ∧
    ends (fun u => u.coll? 1 = none ∧ (u.channel 15).running = none ∧ u.cmds.map (fun c => c.phase) = [.finished] ∧
      u.bytes 0x20FC 4 = [0, 0, 0x80, 0x3F]) (exec (.collectiveChunk 0 1) t) = true ∧
    (let w : State := { t with fabric := { t.fabric with collectives := t.fabric.collectives.map (fun k => { k with written := [(0, 0)] }) } }
     ends (fun u => u.coll? 1 = none ∧ u.mem = t.mem ∧ u.cmds.map (fun c => c.phase) = [.finished]) (exec (.collectiveChunk 0 1) w) = true) := by
  decide +kernel

/-- A gather of 128 elements by two packages, this one of coordinate 0: its own segment is final and is written first; the other is not
yet there, and its bytes alone are unfinished (R369, R373). -/
theorem test_collective_pieces :
    let f : List (Nat × Nat × Nat) := [(17, 1, 1), (20, 4, 128)]
    let c := collective 0xA2 f
    let k (w : List (Nat × Nat)) : Collective :=
      { Collective.none_ c 100 with read := 1, vector := List.replicate 128 0x3F800000, queued := 1, written := w }
    let s (w : List (Nat × Nat)) : State := { collecting f 1 with
      cmds := [c], fabric := { (collecting f 1).fabric with shape := (2, 1, 1, 0), settled := true, collectives := [k w] } }
    (s []).pieces c (k []) = [(0, 0), (1, 0)] ∧ (s []).pieceFinal c (k []) (0, 0) = true ∧ (s []).pieceFinal c (k []) (1, 0) = false ∧
    ends (fun u => (u.coll? 1).map (fun k => k.written) = some [(0, 0)] ∧ u.bytes 0x20FC 8 = [0, 0, 0x80, 0x3F, 0, 0, 0, 0])
      (exec (.collectiveChunk 0 1) (s [])) = true ∧
    (s [(0, 0)]).unfinished c (k [(0, 0)]) = [(256, 256)] ∧ ((s []).lastView c (k [])).map (fun v => (v.gather, v.segment)) = some (true, 64) ∧
    ends (fun u => u.fabric = (s [(0, 0)]).fabric) (exec (.collectiveChunk 0 1) (s [(0, 0)])) = true := by decide +kernel

/-- Two claims: the older one is timed; and none (R373). -/
theorem test_collective_watch :
    let c := collective 0xA0 []
    let k (g : List ((Nat × Nat × Nat) × Ns)) : Collective := { Collective.none_ c 100 with granted := g }
    let s (g : List ((Nat × Nat × Nat) × Ns)) : State := { up with cmds := [c], fabric := { up.fabric with collectives := [k g] } }
    let g : List ((Nat × Nat × Nat) × Ns) := [((0, 0, 0), 4999999000), ((0, 0, 1), 4999998000)]
    (s g).claims c (k g) = [4999999000, 4999998000] ∧
    ((s g).rewatch (k g)).cmds.map (fun c => (c.watched, c.unwatched)) = [(2000, false)] ∧
    ((s []).rewatch (k [])).cmds.map (fun c => (c.watched, c.unwatched)) = [(0, true)] := by decide +kernel

/-- Two parts of 256 bytes on a regulated engine: 511.999 bytes of tokens issue one request and the other waits; 512 issue both; no
tag is free (R302, R366). -/
theorem test_collective_regulated :
    let q : StreamReq := ⟨255, 0, 0, 0, [], .here 0, 1, false, false⟩
    let s (tokens tags : Nat) : State := { collecting [(50, 1, 1)] 0 with streams := { up.streams with
      regulators := [(255, ⟨1, 65536, tokens, up.now, []⟩)], requests := (List.range tags).map (fun i => { q with number := i }) } }
    ends (fun u => (u.coll? 1).map (fun k => (k.read, k.paid)) = some (0, 256) ∧ u.regulator 255 = ⟨1, 65536, 255999, up.now, [(16, 256, up.now)]⟩)
      (exec (.collectiveChunk 0 1) (s 511999 255)) = true ∧
    ends (fun u => (u.coll? 1).map (fun k => (k.read, k.paid)) = some (1, 0) ∧ (u.regulator 255).tokens = 0)
      (exec (.collectiveChunk 0 1) (s 512000 255)) = true ∧
    ends (fun u => (u.coll? 1).map (fun k => (k.read, k.paid)) = some (0, 0)) (exec (.collectiveChunk 0 1) (s 512000 256)) = true := by
  decide +kernel

/-- Chunks of no collective, late and not, of a differing header, and one that was granted; axis 0 of extent 2, a line. -/
theorem test_collective_data :
    let s : State := { collecting [(17, 1, 1), (20, 4, 128)] 1 with fabric := { (collecting [(17, 1, 1), (20, 4, 128)] 1).fabric with
      shape := (2, 1, 1, 0), settled := true
      collectives := (collecting [(17, 1, 1), (20, 4, 128)] 1).fabric.collectives.map (fun k => { k with
        vector := List.replicate 128 0, queued := 2, granted := [((0, 0, 0), 4999999000)] }) } }
    let late : State := { s with fabric := { s.fabric with channels := [(15, { running := none, waiting := [], last := some 5 })] } }
    ends (fun u => u.fabric = late.fabric ∧ u.num (channelKey 15 3) = 1) (exec (.collectiveDataReceive 0 0 15 5 0 128 1 0 0 0 []) late) = true ∧
    ends (fun u => u.fabric = late.fabric ∧ u.num (channelKey 15 3) = 0) (exec (.collectiveDataReceive 0 0 15 6 0 128 1 0 0 0 []) late) = true ∧
    ends (fun u => u.fabric = s.fabric ∧ u.num (channelKey 15 4) = 1) (exec (.collectiveDataReceive 0 0 15 7 1 128 1 0 0 0 []) s) = true ∧
    ((s.phaseView (collective 0xA0 [(17, 1, 1), (20, 4, 128)]) ((s.coll? 1).getD (Collective.none_ (collective 0xA0 []) 0))).map
      (fun v => (v.gather, v.n, v.i, v.size 0))) = some (false, 2, 0, 64) ∧
    ends (fun u => u.mem = s.mem ∧ (u.coll? 1).any (fun k => k.received = 1))
      (exec (.collectiveDataReceive 0 0 15 7 0 128 1 0 0 0 (List.replicate 256 0)) s) = true := by decide +kernel

/-- Data that has waited for credit beyond the timeout of 100 µs (R373). What is written is free: the hypotheses alone. -/
theorem test_collective_timeout :
    let c := collective 0xA0 []
    let s : State := { collecting [] 1 with fabric := { (collecting [] 1).fabric with outgoing := [⟨15, 1, 7, 0, [], [], 5, true, 0⟩] } }
    let k : Collective := { Collective.none_ c 100 with read := 1, vector := List.replicate 64 0x3F800000 }
    s.coll? 1 = some k ∧ s.cmd? 1 = some c ∧ s.collWaiting k = true ∧ 0 + k.timeout * 1000 < s.now ∧ c.u64 56 = 0 ∧
    (s.collStopped k).unfinished c k = [(0, 256)] ∧
    (match (s.collStopped k).undefine c [(0, 256)] with
      | (none, _) => true
      | _ => false) = true ∧
    ends (fun u => u.coll? 1 = some k) (exec (.collectiveTimeout 0 1) { s with now := 100000 }) = true := by decide +kernel

/-! ### Tables -/

/-- A command of lookup engine 63 for a table: addresses below 2 MiB lead to local offset 0, the next 2 MiB to core 0's scratchpad, and
its status record goes there. -/
def admin (op no : Nat) (fields : List (Nat × Nat × Nat)) : Cmd :=
  { onEngine 1 5 (some ⟨.lookup, 63⟩) (words ([(0, 1, op), (16, 2, no), (56, 8, 0x200000)] ++ fields)) with
    xl := [(0, .here 0, true), (1, .here 0xF000000000, true)] }

/-- A descriptor of 10 rows of 4 elements as 8-bit codes in one extent of two pages at 0x800000, with fields changed. -/
def descriptor (fields : List (Nat × Nat × Nat)) : Bytes :=
  ([(0, 1, 1), (3, 1, 1), (4, 2, 4), (8, 8, 10), (64, 8, 2 * 2 ^ 48 + 0x800000)] ++ fields : List (Nat × Nat × Nat)).foldl
    (fun b f => overlay b f.1 (natLe f.2.1 f.2.2)) (List.replicate 128 0)

/-- The table of a descriptor, ready, on pages 4 and 5. -/
def ready8 (fields : List (Nat × Nat × Nat)) : Table :=
  { Table.init with state := .ready, desc := descriptor fields, extents := [[4, 5]] }

/-- A create of table 1023 from a descriptor at 0x4000, job 5's first GiB being mapped to local offset 0. -/
def creating (fields : List (Nat × Nat × Nat)) : State :=
  let s : State := { up with
    cmds := [admin 0xC0 1023 [(24, 8, 0x4000)]], fabric := { up.fabric with shape := (2, 1, 1, 0), present := [0, 1] }
    dict := { up.dict with nums := [
      (0x12A001, 1), (0x200003, 1), (0x200005, 9), (0x200007, 1), (0x201501, 1), (0x260001, 0x10000000000), (0x261501, 0x10000),
      (0x310001, 2)] } }
  putAt 0x10000 (natLe 8 0x11001) (putAt 0x11000 (natLe 8 7) (putAt 0x4000 (descriptor fields) s))

/-- The status that a command's record holds (R99). -/
def recorded (status : Nat) (u : State) : Bool := u.bytes 0xF000000000 2 = natLe 2 status && u.cmds.all (fun c => c.phase = .finished)

/-- Created; a class of 0; no elements; a group without this package; one page too few; and a table that exists (R99, R100). -/
theorem test_table_create :
    let go (fields : List (Nat × Nat × Nat)) := exec (.tableCreate 0 63) (creating fields)
    (ready8 []).neededPages = 2 ∧ (ready8 []).reservedField = false ∧ up.fieldsOk (ready8 []) = true ∧
    ends (fun u => (u.table 1023).state = .initialising ∧ (u.table 1023).extents = [[4, 5]] ∧ u.cmds.all (fun c => c.phase = .finished)) (go []) =
      true ∧
    ends (fun u => u.recovering) (go [(0, 1, 0)]) = true ∧ ends (recorded 2) (go [(4, 2, 0)]) = true ∧
    ends (recorded 5) (go [(1, 1, 16), (50, 2, 1)]) = true ∧ ends (recorded 3) (go [(64, 8, 2 ^ 48)]) = true ∧
    ends (recorded 1) (exec (.tableCreate 0 63) { creating [] with tables := [(1023, ready8 [])] }) = true := by decide +kernel

/-- Initialisation of a table whose pages are all retired, so that none is written. -/
theorem test_table_initialised :
    let t : Table := { ready8 [] with state := .initialising }
    let s : State := { up with tables := [(1023, t)], mem := { up.mem with retired := [4, 5] } }
    t.owed = [] ∧ t.tiered = false ∧
    ends (fun u => u.table 1023 = { t with state := .ready }) (exec (.tableInitComplete 0 1023) s) = true ∧
    ends (fun u => u.table 1023 = ready8 []) (exec (.tableInitComplete 0 1023) { up with tables := [(1023, ready8 [])] }) = true := by
  decide +kernel

theorem test_table_destroy :
    let m (t : Nat) : MergeEntry := ⟨t, .home, 0, 0, 0, [], none, none, none⟩
    let s (st : TableState) : State := { up with
      cmds := [admin 0xC1 1023 [(56, 8, 0)]], tables := [(1023, { ready8 [] with state := st })]
      update := { up.update with entries := [(31, [m 1023, m 1022])] } }
    [TableState.retiring, .absent].all (fun st =>
      ends (fun u => u.table 1023 = (s st).table 1023 ∧ u.cmds.all (fun c => c.phase = .finished)) (exec (.tableDestroy 0 63) (s st))) = true ∧
    (s .initialising).engineCmd? ⟨.lookup, 63⟩ 0xC1 = some (admin 0xC1 1023 [(56, 8, 0)]) ∧
    ((s .initialising).table 1023).state = .initialising ∧ ((s .initialising).table 1023).tiered = false ∧
    ends (fun u => (u.table 1023).state = .retiring ∧ u.update.entries = [(31, [m 1022])]) (exec (.tableDestroy 0 63) (s .ready)) = true ∧
    (let r : State := { up with tables := [(1022, ready8 []), (1023, { ready8 [] with state := .retiring })] }
     r.tableIdle 1023 = true ∧
     ends (fun u => u.table 1023 = Table.init ∧ u.table 1022 = ready8 []) (exec (.tableDestroyComplete 0 1023) r) = true ∧
     ends (fun u => (u.table 1023).state = .retiring)
       (exec (.tableDestroyComplete 0 1023) { r with update := { r.update with parts := [⟨0, 1023, false, false, false, 0, 0, 0, 0⟩] } }) = true) := by
  decide +kernel

/-- The default row loaded from stored bytes at 0x6000, and read back (R101). -/
theorem test_default_row :
    let b : Bytes := natLe 8 0x0403020100003C00 ++ List.replicate 24 0
    let s (op : Nat) (t : Table) : State := { up with
      cmds := [admin op 1023 [(18, 1, 1), (22, 2, 32), (40, 8, 0x6000), (56, 8, 0)]], tables := [(1023, t)] }
    (ready8 []).bufferSize 0 0 = 32 ∧ (admin 0xC2 1023 [(18, 1, 1), (22, 2, 32)]).rowsOk = true ∧
    ends (fun u => (u.table 1023).defaultRow = b ∧ u.cmds.all (fun c => c.phase = .finished))
      (exec (.tableLoad 0 63) (putAt 0x6000 b (s 0xC2 (ready8 [])))) = true ∧
    ends (fun u => u.bytes 0x6000 32 = b) (exec (.tableRead 0 63) (s 0xC3 { ready8 [] with defaultRow := b })) = true := by decide +kernel

/-- Tables of two shapes; of one shape and trainable; and of one shape: the swap waits for its command's completion, which fixes its
boundary, and without epochs takes effect at once, its tables drained (R102). -/
theorem test_table_swap :
    let a (o : Nat) : Table := { ready8 [(2, 1, o)] with defaultRow := [1] }
    let s (x : State) (a b : Table) : State := { x with cmds := [admin 0xC4 1022 [(18, 2, 1023)]], tables := [(1022, a), (1023, b)] }
    let go (x : State) (a b : Table) := exec (.tableSwap 0 63) (s x a b)
    ends (recorded 7) (go up (a 0) (ready8 [(4, 2, 5)])) = true ∧ ends (recorded 8) (go up (a 1) (ready8 [(2, 1, 1)])) = true ∧
    ends (fun u => u.tables = (s (epochs 0 0) (a 0) (ready8 [])).tables ∧ u.update.swaps.map (fun x => (x.a, x.b, x.epoch)) =
      [(1022, 1023, none)]) (go (epochs 0 0) (a 0) (ready8 [])) = true ∧
    (let w : Swap := ⟨1022, 1023, 1, none, none⟩
     let x (z : State) : State := { s z (a 0) { ready8 [] with extents := [[6, 7]] } with
       cmds := [{ admin 0xC4 1022 [(18, 2, 1023)] with phase := .finished }], update := { up.update with swaps := [w] } }
     [(0, 8), (5000000001, 9)].all (fun e =>
       ends (fun u => u.tables = (x (epochs 0 e.1)).tables ∧ u.update.swaps = [{ w with epoch := some e.2 }])
         (exec (.commandComplete 0 1) (x (epochs 0 e.1)))) = true ∧
     ends (fun u => (u.table 1022).extents = [[6, 7]] ∧ (u.table 1023).extents = [[4, 5]] ∧ u.update.swaps = [])
       (exec (.commandComplete 0 1) (x up)) = true ∧
     (let z : State := { x up with update := { up.update with swaps := [{ w with epoch := some 1 }] } }
      z.epochsRunning = false ∧ z.drained 1022 = true ∧ z.drained 1023 = true ∧ z.tables.all (fun e => e.2.changes.isEmpty) = true ∧
      z.settle.table 1022 = (z.table 1022).onStorage (z.table 1023) ∧ (z.settle.table 1023).extents = [[4, 5]])) := by
  decide +kernel

/-- A row list at 0x4000 of a replicate, and of a pin of a tiered table (R103). -/
theorem test_table_changes :
    let tiered : Table := ready8 [(0, 1, 3), (32, 4, 10)]
    let s (op : Nat) (t : Table) : State := putAt 0x4000 (natLe 8 9) { epochs 0 0 with
      cmds := [admin op 1023 [(18, 1, 1), (24, 8, 0x4000), (56, 8, 0)]], tables := [(1023, t)] }
    (s 0xC5 (ready8 [])).epochsRunning = true ∧ tiered.tiered = true ∧
    ends (fun u => (u.table 1023).changes = [⟨false, 1, [9], 0, 0, false, 7, none⟩]) (exec (.tableReplicate 0 63) (s 0xC5 (ready8 []))) = true ∧
    ends (fun u => (u.table 1023).changes = [⟨true, 1, [9], 0, 0, false, 7, none⟩]) (exec (.tablePin 0 63) (s 0xC6 tiered)) = true ∧
    ends (fun u => u.recovering) (exec (.tablePin 0 63) (s 0xC6 (ready8 []))) = true := by decide +kernel

/-- Epoch 7 runs: its boundary has fallen, epoch 8's has not; fence names 4,095 and 4,096 (R104). -/
theorem test_epoch_commands :
    let s (e f : Nat) : State := { epochs 0 0 with cmds := [admin 0xC8 0 [(24, 8, e), (40, 8, f), (48, 8, 6)]] }
    (s 7 4095).epochEvent 0 7 = true ∧ (s 8 4095).epochEvent 0 8 = false ∧
    ends (fun u => u.fence 4095 = 6 ∧ u.update.epochFences = []) (exec (.epochFence 0 63) (s 7 4095)) = true ∧
    ends (fun u => u.fence 4095 = 0 ∧ u.update.epochFences = [(0, 8, 4095, 6)]) (exec (.epochFence 0 63) (s 8 4095)) = true ∧
    ends (fun u => u.recovering) (exec (.epochFence 0 63) (s 7 4096)) = true ∧
    ends (fun u => u.bytes 0x6000 8 = natLe 8 7 ∧ u.bytes 0x6018 1 = [2])
      (exec (.epochRead 0 63) { epochs 0 0 with cmds := [admin 0xC9 0 [(40, 8, 0x6000)]] }) = true := by decide +kernel

/-! ### Lookups -/

/-- A lookup of row 9 of table 1023 by engine 63: one bag of one 8-byte index at 0x7000, offsets at 0x7100, FP32 elements to the
scratchpad; for a Sharded lookup, number 7 on channel 15 with room for one entry and one bag. -/
def look (op : Nat) : Cmd :=
  { onEngine 1 5 (some ⟨.lookup, 63⟩) (words [(0, 1, op), (16, 2, 1023), (22, 2, 16), (24, 8, 0x7000), (32, 8, 0x7100), (40, 8, 0x200040),
      (48, 2, 7), (50, 2, 1), (52, 2, 1), (54, 1, 15)]) with
    xl := [(0, .here 0, true), (1, .here 0xF000000000, true)] }

/-- A run of that command that has resolved `next` of its bag, summed `done`, and waits for its reads. -/
def running (next done : Nat) (reads : List RowRead) : LookupRun :=
  { cmd := 1, engine := 63, table := 1023, number := 1023, stamp := 4999000000, deadline := 5000000000, offsets := [0, 1], nextBag := next,
    nextPos := 0, reads := reads, bag := done, sum := [0, 0, 0, 0], locals := [], entries := [], partials := [], returned := [], served := [],
    waiting := [], default := none, clash := [], slicesSent := false, combined := false, timedOut := false, rows := 0, defaults := 0, malformed := 0, skips := 0, dropped := 0,
    missing := 0, nonFinite := 0 }

/-- `up` with that command, table 1023, and the channel held by it or not; row 9 is stored as 1, 2, 3, 4. -/
def looking (op : Nat) (t : Table) (runs : List LookupRun) (held : Bool) : State :=
  putAt 0x7000 (natLe 8 9) (putAt 0x7100 (natLe 8 0x100000000) (putAt 0xA00120 (natLe 8 0x0403020100003C00) { up with
    cmds := [look op], lookups := runs, tables := [(1023, t)]
    fabric := { up.fabric with
      shape := (2, 1, 1, 0), present := [0, 1]
      channels := if held then [(15, { running := some ⟨.lookup, 7, 1, 0⟩, waiting := [], last := none })] else [] } }))

theorem test_lookup_start :
    let s := looking 0x70 (ready8 []) [] false
    s.lookupCmd? 1 0x70 = some (look 0x70, 63) ∧ (look 0x70).lookupOk (ready8 []) = true ∧ listSpan [0, 1] = some (0, 1) ∧
    ends (fun u => (u.run? 1).map (fun r => (r.stamp, r.offsets, r.nextBag, r.bag, r.table, r.deadline)) =
      some (5000000000, [0, 1], 0, 0, 1023, 5000000000 + u.num (objKey 0x2210 1) * 1000)) (exec (.lookup 0 1) s) = true ∧
    ends (fun u => u.recovering) (exec (.lookup 0 1) (looking 0x70 { ready8 [] with state := .retiring } [] false)) = true ∧
    (look 0x70).lookupOk (ready8 [(4, 2, 5)]) = false ∧
    ends (fun u => u.recovering) (exec (.lookup 0 1) (looking 0x70 (ready8 [(4, 2, 5)]) [] false)) = true ∧
    ends (fun u => u.lookups.length = 1) (exec (.shardedLookup 0 1) (looking 0x71 (ready8 []) [] true)) = true ∧
    ends (fun u => u.lookups = [] ∧ (u.channel 15).waiting = [⟨.lookup, 7, 1, 5000000000⟩])
      (exec (.shardedLookup 0 1) (looking 0x71 (ready8 []) [] false)) = true := by decide +kernel

/-- Lists that span 16,777,217 and 16,777,216 indices (R111), and a lookup behind an older one of its engine (R341). -/
theorem test_lookup_not_begun :
    let s (a : Nat) : State := putAt 0x7100 (natLe 4 a ++ natLe 4 0x1000002) (looking 0x70 (ready8 []) [] false)
    let two : State := { looking 0x70 (ready8 []) [{ running 0 0 [] with cmd := 0 }] false with cmds := [{ look 0x70 with id := 0 }, look 0x70] }
    ends (fun u => u.recovering) (exec (.lookup 0 1) (s 1)) = true ∧
    ends (fun u => !u.recovering) (exec (.lookup 0 1) (s 2)) = true ∧
    two.goesFirst (look 0x70) = false ∧
    ends (fun u => u.lookups.map (fun r => r.cmd) = [0]) (exec (.lookup 0 1) two) = true := by decide +kernel

/-- Row 9 of a table of two packages is homed at chip 1: skipped by a Lookup, an entry of a Sharded one, and dropped past an index
capacity of 1 (R120, R122, R124). -/
theorem test_resolve_away :
    let t := ready8 [(1, 1, 16), (52, 2, 1)]
    let s (op : Nat) (r : LookupRun) := looking op t [r] true
    let full : LookupRun := { running 0 0 [] with entries := [(1, 1, 0)] }
    let a := ((s 0x70 (running 0 0 [])).resolveIndex (look 0x70) (running 0 0 []) 9).2
    let d := ((s 0x71 full).resolveIndex (look 0x71) full 9).2
    t.resolve 9 = .row 9 ∧ t.replicaOf 9 = none ∧ (s 0x71 full).homeRow t 9 = none ∧ t.shardChip (t.place 9).1 = 1 ∧
    a.lookups.map (fun r => (r.entries, r.skips)) = [([], 1)] ∧ Map.get 0 (a.table 1023).counts 0x13 = 1 ∧
    ((s 0x71 (running 0 0 [])).resolveIndex (look 0x71) (running 0 0 []) 9).2.lookups.map (fun r => r.entries) = [[(1, 9, 0)]] ∧
    (look 0x71).indexCapacity = 1 ∧ d.lookups.map (fun r => (r.entries.length, r.dropped)) = [(1, 1)] ∧
    Map.get 0 (d.table 1023).counts 0x14 = 1 ∧ Map.get 0 (d.table 1023).drops 1 = 1 := by decide +kernel

/-- A request slice that comes while the table's apply phase runs is kept, untimed (R125, R164, R343). -/
theorem test_slice_waits :
    let s : State := { looking 0x71 (ready8 [(1, 1, 18), (52, 2, 1)]) [running 0 0 []] true with
      update := { up.update with applyStart := 4999000000, parts := [⟨0, 1023, false, false, false, 0, 0, 0, 0⟩] } }
    s.mustAwaitApply 1023 s.now = true ∧
    ends (fun u => u.lookups.map (fun r => r.waiting.length) = [1] ∧ u.cmds.all (fun c => c.unwatched)) (exec (.requestSliceArrive 0 15
      (sliceHead 7 1023 1 1 1 ++ List.replicate 16 0 ++ natLe 8 9 ++ natLe 4 0)) s) = true := by decide +kernel

theorem test_lookup_waits_and_ends :
    let s : State := { looking 0x70 (ready8 [(1, 1, 2)]) [running 0 0 []] false with
      update := { up.update with applyStart := 4999000000, parts := [⟨0, 1023, false, false, false, 0, 0, 0, 0⟩] } }
    s.mustAwaitApply 1023 4999000000 = true ∧ ends (fun u => u = s) (exec (.lookup 0 1) s) = true ∧
    (looking 0x70 (ready8 []) [running 1 1 []] false).mustAwaitApply 1023 4999000000 = false ∧
    ends (fun u => u.lookups = [] ∧ u.cmds.map (fun c => c.phase) = [.finished]) (exec (.lookup 0 1) (looking 0x70 (ready8 []) [running 1 1 []] false)) =
      true := by decide +kernel

/-- The row read of 12 bytes: 1, 2, 3 and 4 in FP32; and an uncorrectable word there (R115, R117, R118). -/
theorem test_row_read :
    let e : RowRead := ⟨0, [(0xA00120, 32)], 1, none, none⟩
    let s := looking 0x70 (ready8 []) [running 1 0 [e]] false
    addRows [0, 0, 0, 0] (rowValues 4 1 (natLe 8 0x0403020100003C00)) = [0x3F800000, 0x40000000, 0x40400000, 0x40800000] ∧
    poolNonFinite 0 [0x3F800000, 0x40000000, 0x40400000, 0x40800000] = false ∧
    ends (fun u => u.bytes 0xF000000040 16 = natLe 16 0x4080000040400000400000003F800000 ∧ u.lookups = [] ∧
      u.cmds.map (fun c => c.phase) = [.finished]) (exec (.rowReadReturn 0 1 0) s) = true ∧
    ends (fun u => u.recovering) (exec (.rowReadReturn 0 1 0) { s with mem := { s.mem with bad := [0xA00120] } }) = true := by decide +kernel

/-- A table of two packages: a request slice that is served, a return slice that is taken, both late, and the timeout (R125, R126, R129). -/
theorem test_slices :
    let t := ready8 [(1, 1, 16), (52, 2, 1)]
    let s := looking 0x71 t [running 0 0 []] true
    let request := sliceHead 7 1023 1 1 1 ++ List.replicate 16 0 ++ natLe 8 9 ++ natLe 4 0
    let returned := sliceHead 7 1023 1 0 1 ++ List.replicate 36 0
    let late : State := { s with fabric := { s.fabric with channels := [(15, { running := none, waiting := [], last := some 7 })] } }
    s.exchangeRun 15 1023 7 = some (running 0 0 [], look 0x71) ∧ s.others t = [1] ∧ request.length = 32 + 12 ∧ returned.length = 32 + 20 ∧
    ends (fun u => u.fabric.outgoing.map (fun o => (o.chip, o.index)) = [(1, 1)] ∧ u.lookups.map (fun r => r.served) = [[1]])
      (exec (.requestSliceArrive 0 15 request) s) = true ∧
    ends (fun u => u.lookups.map (fun r => (r.returned, r.partials.length)) = [([1], 1)]) (exec (.returnSliceArrive 0 15 returned) s) = true ∧
    late.completedOn 15 7 = true ∧ late.exchangeRun 15 1023 7 = none ∧
    ends (fun u => Map.get 0 (u.table 1023).counts 0x16 = 1) (exec (.requestSliceArrive 0 15 request) late) = true ∧
    ends (fun u => Map.get 0 (u.table 1023).counts 0x16 = 1) (exec (.returnSliceArrive 0 15 returned) late) = true ∧
    ends (fun u => u.lookups.map (fun r => (r.timedOut, r.missing)) = [(true, 1)]) (exec (.exchangeTimeout 0 1) s) = true ∧
    ends (fun u => u.lookups.map (fun r => r.timedOut) = [false]) (exec (.exchangeTimeout 0 1) { s with now := 4999999999 }) = true := by
  decide +kernel

/-! ### Updates -/

/-- A trainable table of 10 rows in the hot tier, on pages 4 to 7. -/
def trained (fields : List (Nat × Nat × Nat)) : Table :=
  { ready8 ([(0, 1, 3), (2, 1, 1), (32, 4, 10)] ++ fields) with extents := [[4, 5, 6, 7]], hot := [9], rate := 0x3F800000, budget := 100 }

/-- A command of row-merge unit 31. -/
def merge (op : Nat) (fields : List (Nat × Nat × Nat)) : Cmd :=
  { onEngine 1 5 (some ⟨.rowMerge, 31⟩) (words ([(0, 1, op), (16, 2, 1023)] ++ fields)) with
    xl := [(0, .here 0, true), (1, .here 0xF000000000, true)] }

/-- One gradient of ones for row 9, with sequence `n`, where 3 has been admitted (R138). -/
theorem test_gradient_push :
    let c (n : Nat) := merge 0x90 [(22, 2, 16), (24, 8, 0x7000), (40, 8, 0x7200), (48, 4, n)]
    let s (n : Nat) (t : Table) : State := putAt 0x7000 (natLe 8 9) (putAt 0x7200 (natLe 16 0x3F8000003F8000003F8000003F800000) { up with
      cmds := [c n], tables := [(1023, t)], update := { up.update with sequences := [(1023, 3)] } })
    let run : PushRun := (up.newRun (c 4) 31 1023 false)
    (c 4).pushOk (trained []) = true ∧ (c 4).grouped = false ∧
    ends (fun u => Map.get 0 u.update.sequences 1023 = 4 ∧ u.update.deliveries.map (fun d => (d.row, d.home, d.values)) =
      [(9, true, List.replicate 4 0x3F800000)]) (exec (.gradientPush 0 31) (s 4 (trained []))) = true ∧
    ends (fun u => u.update = (s 3 (trained [])).update ∧ u.cmds.map (fun c => c.phase) = [.finished]) (exec (.gradientPush 0 31) (s 3 (trained []))) =
      true ∧
    ends (fun u => u.recovering) (exec (.gradientPush 0 31) (s 4 (ready8 []))) = true ∧
    (let z : State := { s 4 (trained []) with update := { up.update with runs := [run] } }
     ends (fun u => u.update.runs = [] ∧ u.cmds.map (fun c => c.phase) = [.finished]) (exec (.gradientPush 0 31) z) = true ∧
     ends (fun u => u.update.runs = [run])
       (exec (.gradientPush 0 31) { z with update := { z.update with deliveries := [⟨31, 1023, 9, true, 0, 5, 1, []⟩] } }) = true) := by
  decide +kernel

theorem test_fold :
    let d : Contribution := ⟨31, 1023, 9, true, 6, 5, 1, List.replicate 4 0x3F800000⟩
    let e : MergeEntry := ⟨1023, .home, 6, 0, 9, [0x3F800000, 0, 0, 0], none, none, none⟩
    let s (l : List MergeEntry) : State := { up with
      tables := [(1023, trained [])], update := { up.update with entries := if l = [] then [] else [(31, l)], deliveries := [d] } }
    (s []).areaUsed 31 + (trained []).entryBytes ≤ (s []).mergeSize ∧ up.chip = 0 ∧
    ends (fun u => u.update.deliveries = [] ∧ (u.entriesOf 31).map (fun m => m.sum) = [[0x40000000, 0x3F800000, 0x3F800000, 0x3F800000]])
      (exec (.contributionFold 0 31) (s [e])) = true ∧
    ends (fun u => (u.entriesOf 31).map (fun m => m.sum) = [List.replicate 4 0x3F800000]) (exec (.contributionFold 0 31) (s [])) = true := by
  decide +kernel

/-- An update exchange, number 7 on channel 15, with one outbound entry for package 1: sealed at the stamp, handed over with the channel,
and given back at the timeout without one (R149, R150). -/
theorem test_update_exchange :
    let c (more : List Nat) : Cmd := { merge 0x91 [(20, 2, 7), (22, 2, 1), (24, 1, 15)] with scratch := more }
    let t := trained [(1, 1, 16), (52, 2, 1)]
    let m : MergeEntry := ⟨1023, .outbound, 0, 1, 9, List.replicate 4 0x3F800000, none, none, none⟩
    let k : MergeEntry := { m with taken := some (1, m.sum) }
    let at_ (e : List MergeEntry) (held : Bool) (runs : List PushRun) : State := { up with
      cmds := [c []], tables := [(1023, t)], update := { up.update with entries := [(31, e)], runs := runs }
      fabric := { up.fabric with
        shape := (2, 1, 1, 0), present := [0, 1]
        channels := if held then [(15, { running := some ⟨.update, 7, 1, 0⟩, waiting := [], last := none })] else [] } }
    let s := at_ [m]
    let run (heard : List Nat) : PushRun := { up.newRun (c []) 31 1023 true with number := 7, handed := true, deadline := 5000000000, heard := heard }
    let fresh : PushRun := { up.newRun (c []) 31 1023 true with number := 7, sent := 1 }
    let slice := updateSlice 7 1023 0 0 [(9, m.sum)]
    ends (fun u => (u.channel 15).waiting = [⟨.update, 7, 1, 5000000000⟩] ∧ u.update.entries = [(31, [k])] ∧ u.update.runs = [fresh] ∧
      u.cmds.map (fun c => (c.armed, c.unwatched)) = [(true, true)]) (exec (.updateExchange 0 31) (s false [])) = true ∧
    ends (fun u => u.fabric.outgoing = [⟨15, 1, 7, 0, [], slice, 5, false, 5000000000⟩] ∧ u.update.entries = [])
      (exec (.updateExchange 0 31) (s true [])) = true ∧
    ends (fun u => u.fabric.outgoing = [⟨15, 1, 7, 0, [], slice, 5, false, 5000000000⟩] ∧ u.update.entries = [(31, [{ m with sum := [1] }])] ∧
      u.update.runs.all (fun r => r.handed)) (exec (.updateExchange 0 31) (at_ [{ k with since := some [1] }] true [fresh])) = true ∧
    ends (fun u => u.update.entries = [(31, [m])] ∧ u.update.runs = [] ∧ (u.channel 15).waiting = [] ∧ u.cmds.map (fun c => c.phase) = [.finished])
      (exec (.updateExchangeTimeout 0 31) (at_ [k] false [{ fresh with deadline := 5000000000 }])) = true ∧
    ends (fun u => u.recovering) (exec (.updateExchange 0 31) { s false [] with cmds := [merge 0x91 []] }) = true ∧
    (s true [run [1]]).exchangeDone (c []) (run [1]) = true ∧ (s true [run []]).exchangeDone (c []) (run []) = false ∧
    ends (fun u => u.update.runs = [] ∧ u.cmds.map (fun c => c.phase) = [.finished]) (exec (.updateExchange 0 31) (s true [run [1]])) = true ∧
    ends (fun u => u.update.runs = [run []]) (exec (.updateExchange 0 31) (s true [run []])) = true ∧
    ends (fun u => u.update.runs = [] ∧ u.cmds.map (fun c => c.phase) = [.finished]) (exec (.updateExchangeTimeout 0 31) (s true [run []])) = true ∧
    ends (fun u => u.update.runs = [run []]) (exec (.updateExchangeTimeout 0 31) { s true [run []] with now := 4999999999 }) = true ∧
    (let b := updateSlice 7 1023 1 0 [(9, m.sum)]
     let past (number : Nat) : State := { s false [] with update := { up.update with exchanges := [(15, 1023, number, 5)] } }
     (past 7).reachedBy 15 1023 7 = some 5 ∧ (past 8).reachedBy 15 1023 7 = some 5 ∧ (past 6).reachedBy 15 1023 7 = none ∧
     (past 8).reachedBy 14 1023 7 = none ∧
     ends (fun u => u.update = (past 6).update) (exec (.updateSliceArrive 0 15 b) (past 6)) = true ∧
     ends (fun u => Map.get 0 (u.table 1023).counts 0x10D = 1) (exec (.updateSliceArrive 0 15 (updateSlice 7 1023 1 0 [])) (past 8)) = true ∧
     ends (fun u => u.update.runs = [{ run [] with received := 1, heard := [1] }]) (exec (.updateSliceArrive 0 15 b) (s true [run []])) = true ∧
     ends (fun u => u.update.runs = [run [1]]) (exec (.updateSliceArrive 0 15 b) (s true [run [1]])) = true ∧
     ends (fun u => u.update.runs = [run []]) (exec (.updateSliceArrive 0 15 b) { s true [run []] with tables := [(1023, ready8 [])] }) = true) := by
  decide +kernel

/-- Parameters in range, out of range, and a budget of three quarters of the epoch period (R166). -/
theorem test_train_configure :
    let c (rate budget : Nat) := merge 0x92 [(19, 1, 15), (20, 4, rate), (24, 4, 1), (28, 4, budget), (56, 8, 0x200000)]
    let s (rate budget : Nat) (t : Table) : State := { up with cmds := [c rate budget], tables := [(1023, t)] }
    let p := up.num (objKey 0x2100 1)
    p % 4 = 0 ∧
    ends (fun u => recorded 0 u ∧ (u.table 1023).budget = 3 * p / 4 - 1 ∧ (u.table 1023).rate = 0x3F000000 ∧ (u.table 1023).channel = 15)
      (exec (.trainConfigure 0 31) (s 0x3F000000 (3 * p / 4 - 1) (trained []))) = true ∧
    ends (recorded 0x0B) (exec (.trainConfigure 0 31) (s 0x3F000000 (3 * p / 4) (trained []))) = true ∧
    ends (recorded 2) (exec (.trainConfigure 0 31) (s 0x7F800000 100 (trained []))) = true ∧
    ends (fun u => u.recovering) (exec (.trainConfigure 0 31) (s 0x3F000000 100 (ready8 []))) = true := by decide +kernel

/-! ### The apply phase -/

/-- The apply phase of epoch 7's boundary on unit g: row 9 holds 1, 2, 3, 4 in its hot slot, and its gradient is 1, 1, 1, 1. -/
def applying (g : Nat) (p : Part) (more : List Part) : State :=
  let s : State := { epochs 0 0 with
    tables := [(1023, trained [])]
    update := { up.update with
      entries := [(g, [⟨1023, .home, 6, 0, 9, List.replicate 4 0x3F800000, none, none, none⟩])], applyEpoch := 7, applyStart := 5000000000
      parts := p :: more } }
  putAt 0xA00024 [9] (putAt 0xC00120 (natLe 8 0x4080404040003F80) s)

theorem test_apply_row :
    let g := up.stackOf 0xA00024
    let p : Part := ⟨g, 1023, true, false, false, 0x3F800000, 0, 50, 0⟩
    let s := applying g p []
    s.nextPart g = some p ∧ s.rowsLeft g 1023 = [9] ∧ (s.readEntry applyAccess (trained []) 9).1.toOption = some (0, 9) ∧
    (trained []).slotPieces 0 9 = [(0xC00120, 32)] ∧ (trained []).optimiser = 1 ∧
    encodeRow 0 [0, 0x3F800000, 0x40000000, 0x40400000] = some (natLe 8 0x404040003F800000 ++ List.replicate 24 0) ∧
    ends (fun u => u.bytes 0xC00120 8 = natLe 8 0x404040003F800000 ∧ u.entriesOf g = []) (exec (.applyRow 0 g) s) = true ∧
    (let z := applying g { p with budget := 49 } []
     z.nextPart g = none ∧ ends (fun u => u.update.entries = z.update.entries) (exec (.applyRow 0 g) z) = true) := by decide +kernel

theorem test_apply_parts :
    let p : Part := ⟨31, 1023, false, false, false, 0x3F800000, 0, 0, 0⟩
    let s := applying 31 p []
    let w : State := { s with update := { s.update with deliveries := [⟨31, 1023, 9, true, 6, 5, 1, []⟩] } }
    s.partMayOpen p = true ∧ w.partMayOpen p = false ∧
    ends (fun u => u.update.parts = [{ p with open_ := true }]) (exec (.applyTableStart 0 31 1023) s) = true ∧
    ends (fun u => u.update.parts = [p]) (exec (.applyTableStart 0 31 1023) w) = true ∧
    ends (fun u => Map.get 0 (u.table 1023).counts 0x111 = 1 ∧ (u.entriesOf 31).map (fun m => m.kind) = [.carried])
      (exec (.applyBudgetExpire 0 31 1023) (applying 31 p [{ p with unit := 30 }])) = true ∧
    ends (fun u => u.update.parts = [{ p with budget := 1 }]) (exec (.applyBudgetExpire 0 31 1023) (applying 31 { p with budget := 1 } [])) = true := by
  decide +kernel

/-- Hot slots 3 and 9; that of slot 3 returns at epoch 7's boundary, that of slot 9 one later (R89). -/
theorem test_slot_release :
    let t : Table := { trained [] with hot := [3, 9], releases := [⟨0, 3, 7⟩, ⟨0, 9, 8⟩] }
    let s : State := { epochs 0 0 with tables := [(1023, t)] }
    ends (fun u => (u.table 1023).hot = [9] ∧ (u.table 1023).releases = [⟨0, 9, 8⟩]) (exec (.slotRelease 0 1023) s) = true ∧
    ends (fun u => (u.table 1023).hot = [3, 9])
      (exec (.slotRelease 0 1023) { s with lookups := [{ running 0 0 [] with stamp := 4899999999 }] }) = true := by decide +kernel

theorem test_refresh_marker :
    let p : Part := ⟨31, 1023, false, false, false, 0x3F800000, 0, 0, 0⟩
    let s : State := { applying 31 p [] with tables := [(1023, trained [(1, 1, 8 + 16), (52, 2, 1)])] }
    ({ s with update := { s.update with markers := [(1023, 1, 31)] } } : State).markersHeld 1023 = false ∧
    ends (fun u => u.update.markers = [(1023, 1, 31)]) (exec (.refreshMarkerReceive 0 1023 1 31) s) = true ∧
    ends (fun u => u.update.markers = []) (exec (.refreshMarkerReceive 0 1023 1 32) s) = true ∧
    ends (fun u => u.update.markers = []) (exec (.refreshMarkerReceive 0 1022 1 31) s) = true := by decide +kernel

/-- A row that no copy set holds; for one that a set holds, the hypotheses but the writes to its replicas. -/
theorem test_refresh_slot :
    let s (l : List (Nat × Nat × Nat)) : State := { up with tables := [(1023, { trained [] with replica := [100], replicas := l })] }
    (trained []).slot 2 = 32 ∧ Map.find ((s [(9, 0, 2)]).table 1023).replicas 9 = some (0, 2) ∧
    (s [(9, 0, 2)]).tableReady 1023 = true ∧
    ends (fun u => u.mem = up.mem) (exec (.refreshSlotReceive 0 1023 9 2 (List.replicate 32 7)) (s [])) = true := by decide +kernel

/-! ### The matrix engine -/

/-- A 1 × 1 × 1 INT8 multiply on core 255 to INT32, with fields changed; 3 and 5 are its operands. -/
def multiply (fields : List (Nat × Nat × Nat)) : Cmd :=
  onEngine 1 5 (some ⟨.matrix, 255⟩) (words ([(0, 1, 0x30), (17, 1, 5), (32, 4, 0x1000), (36, 4, 0x7FFFC0), (52, 2, 1), (54, 2, 1), (56, 2, 1)] ++ fields))

def multiplying (fields : List (Nat × Nat × Nat)) : State :=
  putAt (scratchBase 255) [3] (putAt (scratchBase 255 + 0x1000) [5] { up with cmds := [multiply fields] })

/-- The last line of the scratchpad takes the product (R171, R190, R191); a line beyond it, an output on the input (R192), and the
dynamic shift of a row (R187). -/
theorem test_multiply :
    let s := multiplying []
    let x := (multiply []).matrix
    let run : MatrixRun := ⟨1, 255, 0, []⟩
    s.matrixCmd? 255 0x30 = some (multiply []) ∧ s.matrixRun (multiply []) 255 = run ∧ x.ok = true ∧ x.passes[0]? = some (0, 0, 0) ∧
    (match s.runPass x run (0, 0, 0) with
      | (.ok r, y) => r = ⟨1, 255, 1, [[(15, false)]]⟩ ∧ y.num (matrixKey 255 1) = 1 ∧ y.num (matrixKey 255 5) = 1
      | _ => false) = true ∧
    x.closes (0, 0, 0) = true ∧ (s.readVectors 255 x 0 0).toOption = some ⟨[], [], []⟩ ∧
    x.outLines 0 0 (x.drain ⟨[], [], []⟩ [[(15, false)]]) = [(0x7FFFC0, natLe 4 15)] ∧ x.overlaps x.outRanges = false ∧
    (match s.writeLines x.column (scratchBase 255) [(0x7FFFC0, natLe 4 15)] with
      | (none, x) => x.bytes (scratchBase 255 + 0x7FFFC0) 4 = natLe 4 15
      | _ => false) = true ∧
    (multiply [(54, 2, 0)]).matrix.ok = false ∧ (multiply [(52, 2, 0)]).matrix.ok = false ∧ (multiply [(18, 1, 3)]).matrix.ok = false ∧
    (multiply [(36, 4, 0x800000)]).matrix.ok = false ∧ (multiply [(16, 1, 6)]).matrix.ok = false ∧ (multiply [(17, 1, 4)]).matrix.ok = false ∧
    ends (fun u => u.recovering) (exec (.matrixMultiply 0 255 0 false) (multiplying [(36, 4, 0x800000)])) = true ∧
    ends (fun u => u.recovering) (exec (.matrixMultiply 0 255 0 true) s) = true ∧
    (multiply [(36, 4, 0)]).matrix.overlaps [(0, 4)] = true ∧
    (let y := (multiply [(17, 1, 7), (18, 1, 2), (60, 4, 0x7FFFC0), (36, 4, 0x2000)]).matrix
     y.ok = true ∧ y.shift = 2 ∧ y.shiftAt = 0x7FFFC0) := by decide +kernel

theorem test_multiply_runs :
    ends (fun u => u.bytes (scratchBase 255 + 0x7FFFC0) 4 = natLe 4 15 ∧ u.num (matrixKey 255 1) = 1 ∧ u.num (matrixKey 255 4) = 9 ∧
      u.cmds.map (fun c => c.phase) = [.finished]) (exec (.matrixMultiply 0 255 9 false) (multiplying [])) = true := by decide +kernel

/-- A contraction of 65 has two passes: the first leaves its product in the block. Of two commands the one started first runs; a bank
that holds the tile is used (R174, R177, R182). -/
theorem test_passes :
    let f : List (Nat × Nat × Nat) := [(22, 2, 64)]
    let x := (multiply f).matrix
    let r := x.tileRecord 0 0
    let s := multiplying f
    let later : Cmd := { multiply [] with id := 2, started := 1 }
    let banked : State := { s with arith := { s.arith with banks := [(510, { Bank.init with active := true }), (511, { r with active := false })] } }
    x.passes = [(0, 0, 0), (0, 0, 1)] ∧
    ends (fun u => u.cmds = s.cmds ∧ u.matrixRun (multiply f) 255 = ⟨1, 255, 1, [[(15, false)]]⟩ ∧ u.num (matrixKey 255 1) = 1)
      (exec (.matrixMultiply 0 255 0 false) s) = true ∧
    ({ s with cmds := [later, multiply f] } : State).matrixCmd? 255 0x30 = some (multiply f) ∧
    (banked.bank 510).active = true ∧ (banked.bank 510).sameTile r = false ∧ (banked.bank 511).sameTile r = true ∧
    (match banked.useTile 255 x 0 0 with
      | (.ok b, y) => b = banked.bank 511 ∧ y.num (matrixKey 255 6) = 1 ∧ (y.bank 511).active ∧ !(y.bank 510).active
      | _ => false) = true := by decide +kernel

/-- A capture after pass 0, one whose block lies beyond the scratchpad, one of two passes, and its codes. -/
theorem test_capture :
    let x := (multiply [(0, 1, 0xD0)]).matrix
    let s := multiplying [(0, 1, 0xD0)]
    let two := multiplying [(0, 1, 0xD0), (22, 2, 64), (58, 2, 1)]
    s.matrixCmd? 255 0xD0 = some (multiply [(0, 1, 0xD0)]) ∧ x.codesOk = true ∧ x.operandsOk = true ∧ x.captured = [(0, 0, 0)] ∧
    x.captureOk (0, 0, 0) = true ∧ x.rawBlock [[(15, false)]] = [(0x7FFFC0, natLe 4 15)] ∧ x.overlaps [(0x7FFFC0, 4)] = false ∧
    ends (fun u => u.bytes (scratchBase 255 + 0x7FFFC0) 4 = natLe 4 15 ∧ u.num (matrixKey 255 4) = 9 ∧ u.cmds.map (fun c => c.phase) = [.finished])
      (exec (.matrixCapture 0 ⟨255, 9, false⟩) s) = true ∧
    ends (fun u => u.mem = two.mem ∧ u.cmds = two.cmds) (exec (.matrixCapture 0 ⟨255, 0, false⟩) two) = true ∧
    (multiply [(0, 1, 0xD0), (16, 1, 7)]).matrix.codesOk = false ∧ (multiply [(0, 1, 0xD0), (28, 4, 1)]).matrix.operandsOk = false ∧
    (multiply [(0, 1, 0xD0), (18, 1, 3)]).matrix.codesOk = false ∧
    (multiply [(0, 1, 0xD0), (36, 4, 0x800000)]).matrix.captured.getLast?.all (multiply [(0, 1, 0xD0), (36, 4, 0x800000)]).matrix.captureOk = false ∧
    [(16, 1, 7), (28, 4, 1), (18, 1, 3), (36, 4, 0x800000)].all (fun f =>
      ends (fun u => u.recovering) (exec (.matrixCapture 0 ⟨255, 0, false⟩) (multiplying [(0, 1, 0xD0), f]))) = true ∧
    ends (fun u => u.recovering) (exec (.matrixCapture 0 ⟨255, 0, true⟩) s) = true := by decide +kernel

/-- 8,224 bytes at the last multiple of 64 that holds them, 0x7FDFC0, and at the next (R196). -/
theorem test_weight_bank_read :
    let c (o : Nat) := multiply [(0, 1, 0xD1), (36, 4, o)]
    let s (o : Nat) := multiplying [(0, 1, 0xD1), (36, 4, o)]
    offsetOk 0x7FDFC0 = true ∧ 0x7FDFC0 + 8224 = 0x7FFFE0 ∧ 0x7FE000 + 8224 = 0x800020 ∧ offsetOk 0x7FDFA0 = false ∧
    (s 0x7FDFC0).matrixCmd? 255 0xD1 = some (c 0x7FDFC0) ∧
    (sub ((s 0).bank 62).bytes 0 4096).length = 4096 ∧ ((s 0).bank 62).record.length = 16 ∧
    (s 0).mem.sramBad = [] ∧
    ends (fun u => u.recovering) (exec (.weightBankRead 0 ⟨255, false⟩) (s 0x7FE000)) = true ∧
    ends (fun u => u.recovering) (exec (.weightBankRead 0 ⟨255, true⟩) (s 0x7FDFC0)) = true ∧
    ends (fun u => u.recovering) (exec (.weightBankRead 0 ⟨255, false⟩) (s 0x7FDFA0)) = true := by decide +kernel

/-! ### The vector engine -/

/-- A run of two INT32 elements on core 255: register 1 is loaded from 0x100, doubled by the word, and stored at 0x7FFFF8. -/
def lane (op : Nat) (fields : List (Nat × Nat × Nat)) : Cmd :=
  onEngine 1 5 (some ⟨.vector, 255⟩) (words ([(0, 1, op), (17, 1, 1), (20, 4, 2), (24, 4, 0x40), (32, 4, doubling)] ++ fields))
where
  doubling : Nat := 2 + 1 * 128 + 1 * 4096 + 1 * 131072 + 1 * 4194304

def laneBindings : Bytes := overlay (overlay (natLe 32 0) 0 (natLe 8 0x400000101 ++ natLe 8 0x100)) 16 (natLe 8 0x400000121 ++ natLe 8 0x7FFFF8)

def laning (op : Nat) (fields : List (Nat × Nat × Nat)) : State :=
  putAt (scratchBase 255 + 0x40) laneBindings (putAt (scratchBase 255 + 0x100) (natLe 8 0x0000000900000007) { up with cmds := [lane op fields] })

/-- The words and bindings of `lane` pass; a run begins. -/
theorem test_run_begins :
    let s := laning 0x50 []
    let c := lane 0x50 []
    let l := (chunks 16 9 laneBindings).map bindingOf
    s.engineCmd? ⟨.vector, 255⟩ 0x50 = some c ∧ c.runFieldsOk = true ∧ s.program? c 255 = some [lane.doubling] ∧
    wordOk c.packing lane.doubling = true ∧ c.bindingsOk l = true ∧ stateReads l = [] ∧ stateWrites l = [] ∧ c.statusPlace = [] ∧
    ends (fun u => (u.vectorRun? 255).map (fun r => (r.cmd, r.group, r.program, r.undefined)) = some (1, 0, [lane.doubling], false) ∧
      u.cmds.map (fun c => c.armed) = [true]) (exec (.vectorRun 0 255) s) = true ∧
    (lane 0x50 [(20, 4, 0)]).runFieldsOk = false ∧ (lane 0x50 [(16, 1, 3)]).runFieldsOk = false ∧
    (lane 0x50 [(24, 4, 0x7FFFC0)]).runFieldsOk = true ∧ (lane 0x50 [(24, 4, 0x800000)]).runFieldsOk = false ∧
    (lane 0x50 [(17, 1, 4), (24, 4, 0x7FFFC0)]).runFieldsOk = false ∧
    ends (fun u => u.recovering) (exec (.vectorRun 0 255) (laning 0x50 [(20, 4, 0)])) = true ∧
    ends (fun u => u.recovering) (exec (.laneProgramRun 0 255) (laning 0x51 [(20, 4, 0)])) = true := by decide +kernel

/-- Slot 3 of core 255 is empty: a mismatch (R217). -/
theorem test_slot_mismatch :
    let c := lane 0x51 [(16, 1, 12), (28, 4, 7)]
    let s := laning 0x51 [(16, 1, 12), (28, 4, 7)]
    c.runFieldsOk = true ∧ s.program? c 255 = none ∧ c.u64 56 = 0 ∧
    ends (fun u => u.num (vectorKey 255 6) = 1 ∧ u.cmds.map (fun c => c.phase) = [.finished]) (exec (.laneProgramRun 0 255) s) = true := by
  decide +kernel

/-- Program 7 of one word goes into slot 15, from the scratchpad's last line. -/
theorem test_program_load :
    let c := lane 0x52 [(16, 1, 15), (20, 4, 7), (24, 4, 0x7FFFC0)]
    let s := putAt (scratchBase 255 + 0x7FFFC0) (natLe 4 9) { up with cmds := [c] }
    s.engineCmd? ⟨.vector, 255⟩ 0x52 = some c ∧ c.u32 24 + 4 * (bits (c.u8 18) 5 0 + 1) ≤ 0x800000 ∧
    ends (fun u => u.slotOf 255 15 = ⟨true, 5, 7, [9]⟩ ∧ u.slotOf 255 14 = ProgramSlot.init) (exec (.laneProgramLoad 0 255) s) = true := by
  decide +kernel

/-- The run of `lane` at a group. -/
def laneRun (g : Nat) : VectorRun :=
  { VectorRun.none_ (lane 0x50 []) 255 with bindings := chunks 16 9 laneBindings, program := [lane.doubling], group := g }

theorem test_group :
    let c : Cmd := { lane 0x50 [] with armed := true }
    let s (g : Nat) : State := { laning 0x50 [] with cmds := [c], arith := { up.arith with runs := [laneRun g] } }
    let l := (laneRun 0).bindings.map bindingOf
    (s 0).vectorRun? 255 = some (laneRun 0) ∧ c.groups = 1 ∧ l.all (fun b => !b.virt && !b.isMask && !b.stateOut) = true ∧ up.writesOut = 0 ∧
    (s 0).prepare c 255 (((l.filter (fun b => b.isInput && b.stride ≠ 0)).flatMap (fun b => c.places b 0 0)).map (fun x => x.2)) = .ok ∧
    ends (fun u => u.bytes (scratchBase 255 + 0x7FFFF8) 8 = natLe 8 0x000000120000000E ∧ (u.vectorRun? 255).map (fun r => (r.group, r.carry)) =
      some (1, 0)) (exec (.vectorGroup 0 255 0 false) (s 0)) = true ∧
    ends (fun u => u.arith.runs = [] ∧ u.cmds.map (fun c => c.phase) = [.finished]) (exec (.vectorGroup 0 255 0 false) (s 1)) = true ∧
    ends (fun u => u.recovering) (exec (.vectorGroup 0 255 0 true) (s 0)) = true := by decide +kernel

/-- A run with an INT32 sum at 0x200 of the elements 14 and 18, its holds counted; and stores that still have to go out (R214, R215). -/
theorem test_group_sum :
    let sum := (natLe 1 0xC1 ++ natLe 1 1 ++ natLe 1 1 ++ natLe 1 0 ++ natLe 4 4 ++ natLe 8 0x200)
    let r : VectorRun := { laneRun 0 with bindings := chunks 16 9 (overlay (overlay (natLe 48 0) 0 laneBindings) 32 sum) }
    let s (r : VectorRun) : State := { laning 0x50 [] with
      cmds := [{ lane 0x50 [(17, 1, 2)] with armed := true }], arith := { up.arith with runs := [r] } }
    (r.bindings.map bindingOf).any Binding.isSum = true ∧
    ends (fun u => u.bytes (scratchBase 255 + 0x200) 4 = natLe 4 32 ∧ u.num (vectorKey 255 5) = 6) (exec (.vectorGroup 0 255 6 false) (s r)) = true ∧
    ends (fun u => u.num (vectorKey 255 5) = 0) (exec (.vectorGroup 0 255 6 false) (s (laneRun 0))) = true ∧
    ends (fun u => u.bytes (scratchBase 255 + 0x300) 1 = [7] ∧ (u.vectorRun? 255).map (fun v => (v.group, v.storing)) = some (1, false))
      (exec (.vectorGroup 0 255 6 false) (s { r with storing := true, left := [(.here (scratchBase 255 + 0x300), [7])] })) = true := by
  decide +kernel

/-! ### Stream engines -/

/-- A descriptor of two tiles of one row of 8 bytes, from offset 0x1000 of the own scratchpad to 0x2000, with fields changed. -/
def tiles (fields : List (Nat × Nat × Nat)) : Bytes :=
  words ([(4, 2, 7), (8, 4, 1), (16, 8, 0x1000), (24, 8, 0x2000), (40, 8, 8), (48, 8, 8)] ++ fields)

def arm (fields : List (Nat × Nat × Nat)) : Cmd :=
  onEngine 1 5 (some ⟨.stream, 255⟩) (words ([(0, 1, 0x10), (16, 1, 15), (24, 8, 0x7FFFC0)] ++ fields))

/-- The active descriptor of that arm at a tile, with its requests so far. -/
def streaming (d : Bytes) (tile : Nat) (translated : Bool) : Desc :=
  { bytes := d, cmd := 1, job := 5, tile := tile, translated := translated, issued := 0, delivered := 0, moved := 0, xlatHalts := 0,
    hostHalts := 0, underWay := [], reads := [], writes := [] }

/-- Slot 15 of core 255 in a state, an arm waiting, and bytes at its descriptor's place. -/
def arming (v : StreamSlot) (d : Bytes) (fields : List (Nat × Nat × Nat)) (reqs : List StreamReq) : State :=
  putAt (scratchBase 255 + 0x7FFFC0) d { up with
    cmds := [arm fields], streams := { up.streams with slots := [(16 * 255 + 15, v)], requests := reqs } }

theorem test_arm :
    let s := arming StreamSlot.init (tiles []) [] []
    let busy : StreamSlot := ⟨.running, some { streaming (tiles []) 0 true with cmd := 7 }, none⟩
    let full : StreamSlot := { busy with shadow := some { streaming (tiles []) 0 false with cmd := 8 } }
    s.streamCmd? 255 0x10 = some (arm []) ∧ armOk (arm []) = true ∧ s.meetsMerge (scratchBase 255 + 0x7FFFC0) 64 = false ∧
    (s.streamSlot 255 15).active = none ∧ descOk (tiles []) s.mergeSize = true ∧
    ends (fun u => u.streamSlot 255 15 = ⟨.running, some (streaming (tiles []) 0 false), none⟩) (exec (.streamArm 0 255) s) = true ∧
    descOk (tiles [(16, 8, 0x7FFFF0)]) s.mergeSize = true ∧ descOk (tiles [(16, 8, 0x7FFFF1)]) s.mergeSize = false ∧
    ends (fun u => u.recovering) (exec (.streamArm 0 255) (arming StreamSlot.init (tiles [(16, 8, 0x7FFFF1)]) [] [])) = true ∧
    armOk (arm [(24, 8, 0x7FFFC1)]) = false ∧ armOk (arm [(24, 8, 0x800000)]) = false ∧ armOk (arm [(56, 8, 255)]) = false ∧
    ends (fun u => u.recovering) (exec (.streamArm 0 255) (arming StreamSlot.init (tiles []) [(24, 8, 0x800000)] [])) = true ∧
    ends (fun u => (u.streamSlot 255 15).active = busy.active ∧ (u.streamSlot 255 15).shadow.map (fun d => (d.bytes, d.cmd)) =
      some (tiles [], 1)) (exec (.streamArm 0 255) (arming busy (tiles []) [] [])) = true ∧
    ends (fun u => u.streams = (arming full (tiles []) [] []).streams ∧ u.num (streamKey 255 3) = 1 ∧
      u.cmds.map (fun c => (c.phase, c.scratch.headD 0)) = [(.finished, 1)]) (exec (.streamArm 0 255) (arming full (tiles []) [] [])) = true := by
  decide +kernel

/-- 1,000,000 MB/s and depths 256 and 16,777,216 (R303). -/
theorem test_regulate :
    let s (rate depth : Nat) : State := { up with cmds := [onEngine 1 5 (some ⟨.stream, 255⟩) (words [(0, 1, 0x11), (16, 4, rate), (20, 4, depth)])] }
    ends (fun u => u.regulator 255 = ⟨1000000, 256, 256000, up.now, []⟩ ∧ u.regulator 30 = Regulator.init)
      (exec (.streamRegulate 0 255) (s 1000000 256)) = true ∧
    ends (fun u => (u.regulator 255).depth = 16777216 ∧ u.cmds.map (fun c => c.phase) = [.finished])
      (exec (.streamRegulate 0 255) (s 0 16777216)) = true ∧
    ends (fun u => (u.regulator 255).wanted = [(3, 256, 7)]) (exec (.streamRegulate 0 255) { s 1 256 with streams := { up.streams with
      regulators := [(255, ⟨1, 256, 0, 7, [(3, 256, 7)]⟩)] } }) = true ∧
    ends (fun u => u.recovering) (exec (.streamRegulate 0 255) (s 1000001 256)) = true ∧
    ends (fun u => u.recovering) (exec (.streamRegulate 0 255) (s 0 255)) = true ∧
    ends (fun u => u.recovering) (exec (.streamRegulate 0 255) (s 0 16777217)) = true := by decide +kernel

/-- The last tile is translated; then its one request issues, or waits for tokens or a tag. -/
theorem test_tile_and_issue :
    let slot (b : Bool) : StreamSlot := ⟨.running, some (streaming (tiles []) 1 b), none⟩
    let s := arming (slot true) (tiles []) [] []
    let slow (n : Nat) : State := { s with streams := { s.streams with regulators := [(255, ⟨1, 256, n, up.now, []⟩)] } }
    let q : StreamReq := ⟨255, 0, 0, 0, [], .here 0, 1, false, false⟩
    let full (n : Nat) : State := arming (slot true) (tiles []) [] ((List.range n).map (fun i => { q with number := i }))
    (arm []).held = none ∧ (arm []).xl = [] ∧ (arm []).needsHost = false ∧ descTiles (tiles []) = 2 ∧ requestLength (tiles []) 1 0 = 8 ∧
    s.sideTarget 255 (streaming (tiles []) 1 true) false (descAddr (tiles []) false 1 0) = some (.here (scratchBase 255 + 0x1008)) ∧
    s.sideTarget 255 (streaming (tiles []) 1 true) true (descAddr (tiles []) true 1 0) = some (.here (scratchBase 255 + 0x2008)) ∧
    ends (fun u => (u.streamSlot 255 15).active.map (fun d => (d.translated, d.tile, d.issued, d.underWay)) =
      some (true, 1, 0, [(1, up.now)])) (exec (.streamTile 0 255 15) (arming (slot false) (tiles []) [] [])) = true ∧
    ends (fun u => u.streams.requests =
        [⟨255, 15, 1, 0, [⟨.here (scratchBase 255 + 0x1008), 0, 8, some (natLe 8 0)⟩], .here (scratchBase 255 + 0x2008), 8, false, false⟩] ∧
      Map.get 15 u.streams.turns 511 = 15)
      (exec (.streamRequestIssue 0 255 15) s) = true ∧
    ends (fun u => u.streams = s.streams) (exec (.streamRequestIssue 0 255 14) s) = true ∧
    ends (fun u => u.streams.requests.length = 1) (exec (.streamRequestIssue 0 255 15) (slow 8000)) = true ∧
    ends (fun u => u.streams.requests = [] ∧ (u.regulator 255).wanted = [(15, 8, up.now)]) (exec (.streamRequestIssue 0 255 15) (slow 7999)) = true ∧
    ((full 256).tags 255).length = 256 ∧ ((full 255).tags 255).length = 255 ∧
    ends (fun u => u.streams.requests.length = 256) (exec (.streamRequestIssue 0 255 15) (full 256)) = true ∧
    ends (fun u => u.streams.requests.length = 256) (exec (.streamRequestIssue 0 255 15) (full 255)) = true := by decide +kernel

/-- The write of a tile's one request: with another tile to come, the last one, one that an earlier write holds back (R308), and a
parity error. -/
theorem test_write_performed :
    let q (tile : Nat) (dst : Nat) : StreamReq :=
      ⟨255, 15, tile, 0, [⟨.here (scratchBase 255 + 0x1000), 0, 8, some (natLe 8 77)⟩], .here (scratchBase 255 + dst), 8, false, false⟩
    let slot (tile : Nat) : StreamSlot := ⟨.running, some (streaming (tiles []) tile false), none⟩
    let s (tile : Nat) (l : List StreamReq) := arming (slot tile) (tiles []) [] l
    (s 1 [q 0 0x2000]).mustWait (q 0 0x2000) = false ∧ (s 2 [q 0 0x2001, q 1 0x2008]).mustWait (q 1 0x2008) = true ∧
    (s 2 [q 0 0x2000, q 1 0x2008]).mustWait (q 1 0x2008) = false ∧
    ends (fun u => u.byte (scratchBase 255 + 0x2000) = 77 ∧ u.streams.requests = [] ∧ u.num (streamKey 255 2) = 8 ∧
      (u.streamSlot 255 15).active.map (fun d => d.moved) = some 8) (exec (.streamWritePerformed 0 255 15 0 0 false) (s 1 [q 0 0x2000])) = true ∧
    ends (fun u => u.byte (scratchBase 255 + 0x2008) = 77 ∧ u.streamSlot 255 15 = StreamSlot.init ∧
      u.cmds.map (fun c => c.phase) = [.finished]) (exec (.streamWritePerformed 0 255 15 1 0 false) (s 2 [q 1 0x2008])) = true ∧
    ends (fun u => u.streams = (s 2 [q 0 0x2001, q 1 0x2008]).streams)
      (exec (.streamWritePerformed 0 255 15 1 0 false) (s 2 [q 0 0x2001, q 1 0x2008])) = true ∧
    ends (fun u => u.recovering) (exec (.streamWritePerformed 0 255 15 0 0 true) (s 1 [q 0 0x2000])) = true := by decide +kernel

/-! ### Mailbox -/

/-- The mailbox's message of R40: operation, index, sub-index and type 0 for a read. -/
def mailed (op index sub : Nat) : Bytes := natLe 1 1 ++ natLe 1 op ++ natLe 2 7 ++ natLe 2 index ++ natLe 1 sub ++ natLe 9 0

/-- A read of 0x2000.05 (owner 9), and each operation's row on the same bytes. -/
theorem test_mailbox_dictionary :
    let r := ask 0x2000 5 0 []
    (mailed 1 0x2000 5).length = 16 ∧ up.serves 1 r = true ∧ bits (fieldLe (mailed 6 0 0) 1 1) 6 0 = 6 ∧
    ends (fun u => lastReply u = [1, 0x81, 7, 0, 0, 0x20, 5, 4, 0, 0, 0, 0, 4, 0, 0, 0, 9, 0, 0, 0])
      (exec (.mailboxDictionaryRequest 0 ⟨0, false⟩ true (mailed 1 0x2000 5)) up) = true := by decide +kernel

/-- The commands of the mailbox but the firmware ones, as a list. -/
def mailboxCommands : List Instr :=
  [.identifyMemoryDevice 0, .getSupportedLogs 0, .getTimestamp 0, .getEventInterruptPolicy 0, .mailboxActionStatus 0 0x2000 1,
   .getLog 0 effectsUuid 0 4, .getEventRecords 0 3, .clearEventRecords 0 3 true [], .setEventInterruptPolicy 0 [1, 2, 3, 4, 5],
   .getPoisonList 0 0 1, .setTimestamp 0 1]

/-- With the link down, before the dictionary is ready, and after a stopped start-up; both refuse nothing to the firmware commands. -/
theorem test_mailbox_turned_away :
    let off := hostAt 0
    let early : State := { up with startup := { up.startup with stage := .off } }
    let stopped : State := { up with dict := { up.dict with nums := [(0x12A001, 2), (0x310001, 2)] } }
    off.host.dlUp = false ∧ early.dictReady = false ∧ early.host.dlUp = true ∧ stopped.dictReady = true ∧ stopped.num startupKey = 2 ∧
    mailboxCommands.all (fun i => ends (fun u => u.out = []) (exec i off)) = true ∧
    mailboxCommands.all (fun i => ends (fun u => u.out = [.mailbox 6 []]) (exec i early)) = true ∧
    mailboxCommands.all (fun i => ends (fun u => u.out = [.mailbox 3 []]) (exec i stopped)) = true ∧
    ends (fun u => u.out.length = 1) (exec (.getFwInfo 0) stopped) = true := by decide +kernel

/-- One event of code 0, in whichever log an implementation keeps it; 5 bytes of policy; a timestamp at both ends of its range. -/
theorem test_mailbox_commands :
    up.host.dlUp = true ∧ up.dictReady = true ∧ up.num startupKey = 1 ∧ effectsLog.length = 60 ∧
    ends (fun u => u.out.map (fun x => match x with
      | .mailbox c _ => c
      | _ => 99) = [0]) (exec (.getLog 0 effectsUuid 56 4) up) = true ∧
    ends (fun u => u.out = [.mailbox 2 []]) (exec (.getLog 0 effectsUuid 57 4) up) = true ∧
    ends (fun u => u.mailbox.policy = [1, 2, 3, 4, 5] ∧ u.out = [.mailbox 0 []]) (exec (.setEventInterruptPolicy 0 [1, 2, 3, 4, 5]) up) = true ∧
    ends (fun u => u.mailbox.events = [] ∧ u.out = [.mailbox 0 []]) (exec (.clearEventRecords 0 3 true []) up) = true ∧
    ends (fun u => u.out = [.mailbox 2 []]) (exec (.getEventRecords 0 4) up) = true ∧
    ends (fun u => u.stampAt u.now = 1) (exec (.setTimestamp 0 1) up) = true ∧
    ends (fun u => u.stampAt u.now = 2 ^ 64 - 1) (exec (.setTimestamp 0 (2 ^ 64 - 1)) up) = true ∧
    ends (fun u => u.stampAt u.now = 0) (exec (.setTimestamp 0 0) up) = true ∧
    up.poisonRecords 0 1 = [] ∧ ends (fun u => u.out.length = 1) (exec (.getPoisonList 0 0 1) up) = true ∧
    ends (fun u => u.out = [.mailbox 0 (natLe 4 (up.num 0x200001))]) (exec (.mailboxActionStatus 0 0x2000 1) up) = true := by decide +kernel

/-- An empty transfer to the inactive slot, one to the other, and an unsupported activation. -/
theorem test_firmware :
    let b := up.inactiveSlot + 1
    (up.programSlot 0 []).1 = 0 ∧ up.startup.erasing = false ∧
    ends (fun u => u.out = [.mailbox 0 []]) (exec (.transferFw 0 2 b 0 []) up) = true ∧
    ends (fun u => u.out = [.mailbox 0 []]) (exec (.transferFw 0 3 b 0 []) up) = true ∧
    ends (fun u => u.out = [.mailbox 0x0B []]) (exec (.transferFw 0 2 (3 - b) 0 []) up) = true ∧
    ends (fun u => u.out = [.mailbox 3 []]) (exec (.activateFw 0 0 b) up) = true := by decide +kernel

/-! ### SPDM -/

/-- The board's connection at a stage, and some sessions. -/
def spdmAt (g : SpdmStage) (chain : Bool) (l : List SpdmSession) : State :=
  { up with startup := { up.startup with chainValid := chain }, spdm := ⟨{ SpdmConn.init with stage := g }, SpdmConn.init, l⟩ }

/-- Algorithms offered: Ed25519 and SHA-512, or one of them. -/
def offers (asym hash : Nat) : Bytes := natLe 6 0 ++ natLe 4 asym ++ natLe 4 hash ++ natLe 16 0

def opened (id : Nat) (done : Bool) : SpdmSession :=
  { id := id, transport := .board, established := done, transcript := [], keyUpdates := 7, exchange := 0 }

theorem test_spdm_connection :
    up.spdmUp .board = true ∧ up.spdmUp .host = true ∧
    ends (fun u => (u.conn .board).stage = .version ∧ u.out.length = 1) (exec (.spdmGetVersion 0 .board []) up) = true ∧
    ends (fun u => (u.conn .host).stage = .version ∧ (u.conn .board).stage = .start) (exec (.spdmGetVersion 0 .host []) up) = true ∧
    ends (fun u => u.out = [.spdm .board (spdmError 4)]) (exec (.spdmGetCapabilities 0 .board []) up) = true ∧
    ends (fun u => (u.conn .board).stage = .capabilities) (exec (.spdmGetCapabilities 0 .board []) (spdmAt .version true [])) = true ∧
    ends (fun u => (u.conn .board).stage = .algorithms)
      (exec (.spdmNegotiateAlgorithms 0 .board (offers 0x200 4)) (spdmAt .capabilities true [])) = true ∧
    ends (fun u => u.out = [.spdm .board (spdmError 1)])
      (exec (.spdmNegotiateAlgorithms 0 .board (offers 0x1FF 4)) (spdmAt .capabilities true [])) = true ∧
    ends (fun u => u.out = [.spdm .board (spdmError 1)])
      (exec (.spdmNegotiateAlgorithms 0 .board (offers 0x200 3)) (spdmAt .capabilities true [])) = true := by decide +kernel

/-- Without a chain (R460). With one, the answers rest on free values: the hypotheses alone, but for a fifth session. -/
theorem test_spdm_chain :
    let s := spdmAt .algorithms false []
    ends (fun u => u.out = [.spdm .board (spdmError 5)]) (exec (.spdmGetDigests 0 .board []) s) = true ∧
    ends (fun u => u.out = [.spdm .board (spdmError 5)]) (exec (.spdmGetCertificate 0 .board []) s) = true ∧
    ends (fun u => u.out = [.spdm .board (spdmError 5)]) (exec (.spdmChallenge 0 .board []) s) = true ∧
    ends (fun u => u.out = [.spdm .board (spdmError 5)]) (exec (.spdmKeyExchange 0 .board []) s) = true ∧
    (s.conn .board).stage = .algorithms ∧ (spdmAt .algorithms true []).startup.chainValid = true ∧
    ends (fun u => u.out = [.spdm .board (spdmError 3)]) (exec (.spdmKeyExchange 0 .board [])
      (spdmAt .algorithms true ([1, 2, 3, 4].map (fun i => opened (i * 65536) true)))) = true ∧
    (spdmAt .algorithms true ([1, 2, 4].map (fun i => opened (i * 65536) true))).freeSession = 3 := by decide +kernel

/-- Session 65543 of the board, established or not; key updates 1 to 3. -/
theorem test_spdm_session :
    let s (done : Bool) := spdmAt .algorithms true [opened 65543 done]
    (s true).spdmSession? .board 65543 = some (opened 65543 true) ∧ (s false).spdmSession? .board 65543 = some (opened 65543 false) ∧
    ends (fun u => u.spdm = (s true).spdm ∧ u.out.length = 1) (exec (.spdmHeartbeat 0 .board 65543) (s true)) = true ∧
    ends (fun u => (u.spdmSession? .board 65543).map (fun x => x.keyUpdates) = some 8) (exec (.spdmKeyUpdate 0 .board 65543 1 9) (s true)) = true ∧
    ends (fun u => (u.spdmSession? .board 65543).map (fun x => x.keyUpdates) = some 7) (exec (.spdmKeyUpdate 0 .board 65543 3 9) (s true)) = true ∧
    ends (fun u => u.spdm.sessions = []) (exec (.spdmEndSession 0 .board 65543) (s true)) = true ∧
    ends (fun u => u.out = [.spdm .board (spdmError 2)]) (exec (.spdmEndSession 0 .board 65542) (s true)) = true ∧
    ends (fun u => u.out = [.spdm .board (spdmError 4)]) (exec (.spdmFinish 0 .board 65543 []) (s true)) = true := by decide +kernel

/-- The expected proof is right, and one that differs in every byte is wrong, whatever the keys. -/
theorem test_spdm_finish (n : Nat) (b : Bytes) :
    sub (natLe 2 0 ++ spdmMac n b) 2 64 = spdmMac n b ∧ sub (natLe 2 0 ++ (spdmMac n b).map (· + 1)) 2 64 ≠ spdmMac n b := by
  have h : ∀ l : Bytes, l.length = 64 → sub (natLe 2 0 ++ l) 2 64 = l := fun l hl => by
    simp [sub, show natLe 2 0 = [0, 0] from rfl, hl, List.take_of_length_le]
  have hl : (spdmMac n b).length = 64 := by simp [spdmMac]
  refine ⟨h _ hl, fun e => ?_⟩
  rw [h _ (by simpa using hl)] at e
  have := congrArg (fun l => l.headD 0) e
  simp [spdmMac, List.range_succ_eq_map] at this

/-- Blocks 1 to 3 as start-up took them, and block 4 (R462). -/
theorem test_measurements :
    let s : State := { spdmAt .algorithms true [] with startup := { up.startup with measurements := [[1], [2], [3]] } }
    s.measured = [(1, [1]), (2, [2]), (3, [3]), (4, natLe 4 2)] ∧ s.named 0xFF = s.measured ∧ s.named 5 = [] ∧
    fieldLe [0, 0xFF] 1 1 = 0xFF ∧ bit (fieldLe [0, 0xFF] 0 1) 0 = false := by decide +kernel

end Sys2Proof.Tests
end

section
/-! PROOFS. Requests on their way to an object's owner (R31, R32, R35 to R37, R40 to R44): what a request that is heard changes before the
owner is asked, and what a write that the owner accepts changes after. -/
namespace Sys2Proof.Machine

/-! ### Replies and the transports -/

/-- From `s` to `u` replies have been sent, or have come to be owed: nothing else differs. -/
def Sent (s u : State) : Prop := ∃ owed out, u = { s with net := { s.net with owed := owed }, out := out }

theorem Sent.refl (s : State) : Sent s s := ⟨_, _, rfl⟩

theorem Sent.trans {a b c : State} (h : Sent a b) (k : Sent b c) : Sent a c := by
  obtain ⟨_, _, rfl⟩ := h
  obtain ⟨_, _, rfl⟩ := k
  exact ⟨_, _, rfl⟩

theorem Sent.num {s u : State} (h : Sent s u) (k : Nat) : u.num k = s.num k := by obtain ⟨_, _, rfl⟩ := h; rfl
theorem Sent.blob {s u : State} (h : Sent s u) (k : Nat) : u.blob k = s.blob k := by obtain ⟨_, _, rfl⟩ := h; rfl
theorem Sent.sessions {s u : State} (h : Sent s u) : u.net.sessions = s.net.sessions := by obtain ⟨_, _, rfl⟩ := h; rfl

theorem sent_foldl {α : Type} {f : State → α → State} (hf : ∀ s a, Sent s (f s a)) : ∀ (l : List α) (s : State), Sent s (l.foldl f s)
  | [], s => .refl s
  | a :: l, s => (hf s a).trans (sent_foldl hf l (f s a))

theorem State.sendReply_sent (s : State) (t : Transport) (parts : List Bytes) : Sent s (s.sendReply t parts) := by
  cases t
  all_goals exact sent_foldl (fun _ _ => ⟨_, _, rfl⟩) _ _

theorem State.sendOwed_sent (s : State) (t : Transport) (n : Nat) : Sent s (s.sendOwed t n) := by
  unfold State.sendOwed
  exact (sent_foldl (fun s b => s.sendReply_sent t b) _ s).trans ⟨_, _, rfl⟩

/-- An answer that is no refusal of R37, R43 or R44 counts nothing. -/
theorem State.respond_sent (s : State) (op : Nat) (r : Request) (session : Nat) {a : Answer} (h : a.status = 0) :
    Sent s (s.respond op r session a) := by
  unfold State.respond State.deliver
  have h9 : ¬ (0 : Nat) = 9 := by decide
  have hC : ¬ (0 : Nat) = 0x0C := by decide
  have hD : ¬ (0 : Nat) = 0x0D := by decide
  simp only [h, if_neg h9, if_neg hC, if_neg hD]
  split
  · exact ⟨_, _, rfl⟩
  · exact (s.sendOwed_sent _ _).trans (State.sendReply_sent _ _ _)

/-! ### A request on its way to its object -/

/-- From `t` to `v` a request has been taken in: nothing differs but the management network, what has been sent and the
dictionary's own counts (0x1083). -/
structure TakenIn (t v : State) : Prop where
  frame : ∃ dict net out, v = { t with dict := dict, net := net, out := out }
  num : ∀ k, k / 256 ≠ 0x1083 → v.num k = t.num k
  blob : ∀ k, v.blob k = t.blob k

theorem TakenIn.power {t v : State} (h : TakenIn t v) : v.power = t.power := by obtain ⟨_, _, _, rfl⟩ := h.frame; rfl
theorem TakenIn.now {t v : State} (h : TakenIn t v) : v.now = t.now := by obtain ⟨_, _, _, rfl⟩ := h.frame; rfl
theorem TakenIn.core {t v : State} (h : TakenIn t v) (c : Nat) : v.core c = t.core c := by obtain ⟨_, _, _, rfl⟩ := h.frame; rfl

theorem State.heard_sessions (t : State) (r : Request) : (t.heard r).net.sessions = t.net.sessions :=
  (t.sendOwed_sent (viaOf r) r.held).sessions

theorem State.heard_takenIn (t : State) (r : Request) : TakenIn t (t.heard r) := by
  have hs := t.sendOwed_sent (viaOf r) r.held
  refine ⟨?_, fun k hk => ?_, hs.blob⟩
  · obtain ⟨_, _, e⟩ := hs
    unfold State.heard
    rw [e]
    exact ⟨_, _, _, rfl⟩
  · refine (State.num_bump_other _ _ ?_).trans (hs.num k)
    rintro rfl
    unfold objKey at hk
    split at hk <;> omega

/-- The check of a write's session takes its sequence and no more. -/
theorem State.authWrite_takenIn {t v : State} (h : TakenIn t v) (op : Nat) (r : Request) : TakenIn t (v.authWrite op r).2 := by
  have accept : ∀ x n, TakenIn t (v.acceptIn x n) := fun x n =>
    ⟨by obtain ⟨_, _, _, rfl⟩ := h.frame; exact ⟨_, _, _, rfl⟩, h.num, h.blob⟩
  unfold State.authWrite
  cases r.via with
  | host => exact h
  | board _ => exact h
  | rack e =>
    dsimp only
    cases v.openSession e.session with
    | none => exact h
    | some x =>
      dsimp only
      repeat' split
      · exact h
      · exact h
      · exact h
      · exact accept _ _

/-- Whether the device's condition lets an object be served does not rest on what taking a request in changes. -/
theorem TakenIn.gate {t v : State} (h : TakenIn t v) (op index sub : Nat) : v.gate op index sub = t.gate op index sub := by
  have hs : v.startup = t.startup := by obtain ⟨_, _, _, rfl⟩ := h.frame; rfl
  unfold State.gate State.dictReady
  rw [hs, h.num startupKey (by decide)]

theorem State.heard_openSession (t : State) (r : Request) (id : Nat) : (t.heard r).openSession id = t.openSession id := by
  unfold State.openSession
  rw [State.heard_sessions]

/-- A write's session is judged by the sessions and rack keys, which a request that is heard leaves alone. -/
theorem State.heard_authWrite (t : State) (op : Nat) (r : Request) : ((t.heard r).authWrite op r).1 = (t.authWrite op r).1 := by
  have ha : ∀ x h, (t.heard r).authentic x op h r.msg = t.authentic x op h r.msg := fun x h => by
    unfold State.authentic State.rackKey
    rw [(t.heard_takenIn r).blob]
  unfold State.authWrite
  cases r.via with
  | host => rfl
  | board h => rfl
  | rack h =>
    simp only [State.heard_openSession, ha]
    cases t.openSession h.session with
    | none => rfl
    | some x => simp only [apply_ite Prod.fst]

/-- With a place in the order and a message that frames, a request for an object is served and answered. -/
theorem State.takeRequest_of_room {t : State} {r : Request} {op : Nat} (hroom : t.room r = true) (h1 : 1 ≤ op) (h6 : op ≤ 6)
    (hv : r.msg.version = 1) (hrack : ∀ h, r.via = .rack h → h.version = 1) (hlen : r.msg.length ≤ 1024)
    (hval : r.msg.length = r.msg.value.length) :
    t.takeRequest op r = ((t.heard r).serveObject op r).2.respond op r (sessionOf r) ((t.heard r).serveObject op r).1 := by
  have hfull : ¬ 8 ≤ ((t.sendOwed (viaOf r) r.held).owedTo (viaOf r)).length := by
    simpa [State.room] using hroom
  unfold State.takeRequest
  extract_lets m version s net s' u
  have hu : u = t.heard r := rfl
  have hversion : version = 1 := by
    show (match r.via with | .rack h => h.version | _ => 1) = 1
    split
    · exact hrack _ ‹_›
    · rfl
  rw [if_neg hfull, hu, if_neg (by simp [m, hv, hversion]), if_neg (by simp; omega), if_neg (by simp [m]; omega), if_neg (by omega)]

/-- On the rack, a message as long as its header says has no padding to take off. -/
theorem carried_eq_of_length {r : Request} (hlen : ∀ h, r.via = .rack h → h.length = 16 + r.msg.value.length) : carried r = r := by
  unfold carried
  split
  · rename_i h hr
    rw [List.take_of_length_le (by rw [hlen h hr]; omega)]
  · rfl

/-- A request for an object that is heard is served and answered. -/
theorem State.request_of_hears {t : State} {r : Request} (h : t.hears r = true) {op : Nat} (h1 : 1 ≤ op) (h6 : op ≤ 6) :
    t.request op r = ((t.heard r).serveObject op r).2.respond op r (sessionOf r) ((t.heard r).serveObject op r).1 := by
  simp only [State.hears, State.arrives, Bool.and_eq_true, decide_eq_true_eq] at h
  obtain ⟨⟨⟨⟨⟨hwhole, hv⟩, hlen⟩, hval⟩, hvia⟩, hroom⟩ := h
  unfold State.request
  cases hr : r.via with
  | host =>
    simp only [hr, Bool.and_eq_true, decide_eq_true_eq] at hvia
    obtain ⟨⟨hup, hready⟩, hnot2⟩ := hvia
    simp only [hup, hready, hnot2, hwhole, Bool.not_true, Bool.false_eq_true, if_false]
    exact State.takeRequest_of_room hroom h1 h6 hv (fun _ e => by simp [hr] at e) hlen hval
  | board b =>
    simp only [hr, Bool.and_eq_true, decide_eq_true_eq] at hvia
    obtain ⟨⟨hsupply, hent⟩, hpackets⟩ := hvia
    simp only [hsupply, hent, hpackets, hwhole, Bool.not_true, Bool.or_self, Bool.false_eq_true, if_false, ne_eq, not_true, or_self]
    exact State.takeRequest_of_room hroom h1 h6 hv (fun _ e => by simp [hr] at e) hlen hval
  | rack e =>
    simp only [hr, Bool.and_eq_true, decide_eq_true_eq] at hvia
    obtain ⟨⟨⟨hsupply, hown⟩, hversion⟩, hlength⟩ := hvia
    have h16 : decide (e.length < 16) = false := by simp [hlength]
    have hcar : carried r = r := carried_eq_of_length fun _ e' => by simp [hr] at e'; rw [← e', hlength]
    simp only [hsupply, hown, h16, hwhole, hcar, Bool.not_true, Bool.or_self, Bool.false_eq_true, if_false]
    exact State.takeRequest_of_room hroom h1 h6 hv (fun _ e' => by simp [hr] at e'; rw [← e', hversion]) hlen hval

/-! ### A write that reaches its owner -/

/-- A write that the object's owner accepts and the configuration area takes: what the owner makes of the state, durable where the object
is persistent, and an answer with the value read back. -/
theorem State.serveValue_of_owner {v w : State} {r : Request} {o : ObjRow} (hty : o.ty ≠ .action) (hstore : r.store = true)
    (how : v.ownerWrite o r.msg.index r.msg.sub r.msg.value = (0, w)) :
    v.serveValue r o =
      (⟨0, o.ty.code, r.msg.index, r.msg.sub, (if o.persistent then w.durable v else w).objValue o (objKey r.msg.index r.msg.sub)⟩,
        if o.persistent then w.durable v else w) := by
  unfold State.serveValue
  simp [hty, how, hstore]

/-- A write that passes every check but its owner's, and that the owner accepts. -/
theorem State.request_of_mayWrite {t w : State} {r : Request} {o : ObjRow} (h : t.mayWrite 2 r o = true) (hact : o.ty ≠ .action)
    (hdom : o.ty ≠ .domain) (hstore : r.store = true)
    (how : ((t.heard r).authWrite 2 r).2.ownerWrite o r.msg.index r.msg.sub r.msg.value = (0, w)) :
    ∃ a : Answer, a.status = 0 ∧
      t.request 2 r = (if o.persistent then w.durable ((t.heard r).authWrite 2 r).2 else w).respond 2 r (sessionOf r) a := by
  simp only [State.mayWrite, State.serves, Bool.and_eq_true, Bool.or_eq_true, Bool.not_eq_true', decide_eq_true_eq] at h
  obtain ⟨⟨⟨⟨⟨⟨⟨⟨⟨hhears, hgate⟩, hsession⟩, hrow⟩, hright⟩, hauth⟩, htype⟩, hlen⟩, hreserved⟩, hrange⟩ := h
  rw [State.request_of_hears hhears (by decide) (by decide)]
  have hserve : (t.heard r).serveObject 2 r = (t.heard r).serveWrite 2 r o := by
    have hopen : ¬ (sessionOf r ≠ 0 ∧ ((t.heard r).openSession (sessionOf r)).isNone = true) := by
      rw [State.heard_openSession]
      rintro ⟨h0, hn⟩
      rcases hsession with hs | hs
      · exact h0 hs
      · simp [Option.isNone_iff_eq_none.1 hn] at hs
    unfold State.serveObject
    extract_lets m g
    have hg : g = 0 := ((t.heard_takenIn r).gate ..).trans hgate
    rw [if_neg (by simp [hg]), if_neg hopen, if_neg (by decide)]
    simp only [m, hrow]
    rfl
  have hwrite : (t.heard r).serveWrite 2 r o = ((t.heard r).authWrite 2 r).2.serveValue r o := by
    have hval := State.serveValue_of_owner hact hstore how
    rw [← t.heard_authWrite] at hauth
    unfold State.serveWrite
    generalize (t.heard r).authWrite 2 r = p at hauth hval
    obtain ⟨status, v⟩ := p
    subst hauth
    simp [hright, hdom, htype, hlen, hreserved, hrange, hval]
  rw [hserve, hwrite, State.serveValue_of_owner hact hstore how]
  exact ⟨_, rfl, rfl⟩

/-- From `w`, what an owner has made of a write of an object of row `o`, to `u`, the state after the request: the configuration copies of a
persistent object, and the answer. -/
structure Answered (o : ObjRow) (w u : State) : Prop where
  frame : ∃ dict net out, u = { w with dict := dict, net := net, out := out }
  num : ∀ k, k ≠ objKey 0x1011 1 → u.num k = w.num k
  blob : ∀ k, u.blob k = w.blob k
  sessions : u.net.sessions = w.net.sessions
  count : o.persistent = true → Rose w u (objKey 0x1011 1) 1

theorem Answered.power {o : ObjRow} {w u : State} (h : Answered o w u) : u.power = w.power := by
  obtain ⟨_, _, _, rfl⟩ := h.frame; rfl
theorem Answered.core {o : ObjRow} {w u : State} (h : Answered o w u) (c : Nat) : u.core c = w.core c := by
  obtain ⟨_, _, _, rfl⟩ := h.frame; rfl

theorem answered_respond (o : ObjRow) (v w : State) (op : Nat) (r : Request) (session : Nat) {a : Answer} (h : a.status = 0) :
    Answered o w ((if o.persistent then w.durable v else w).respond op r session a) := by
  have hs := (if o.persistent then w.durable v else w).respond_sent op r session h
  generalize State.respond _ _ _ _ _ = u at hs
  by_cases hp : o.persistent = true
  · rw [if_pos hp] at hs
    refine ⟨?_, fun k hk => ?_, fun k => hs.blob k, hs.sessions, fun _ hspan => ?_⟩
    · obtain ⟨_, _, rfl⟩ := hs
      exact ⟨_, _, _, rfl⟩
    · exact (hs.num k).trans (State.num_bump_other _ _ hk)
    · exact (hs.num _).trans (State.num_bump_same _ _ _ hspan)
  · rw [if_neg hp] at hs
    refine ⟨?_, fun k _ => hs.num k, hs.blob, hs.sessions, fun h => absurd h hp⟩
    obtain ⟨_, _, rfl⟩ := hs
    exact ⟨_, _, _, rfl⟩

/-- A plain write of an object that the owner accepts, whatever a request that is taken in has changed before it. -/
theorem State.request_of_mayPut {t : State} {r : Request} {index sub : Nat} {ty : ObjType} {value : Bytes}
    (h : t.mayPut r index sub ty value = true) (hact : ty ≠ .action) (hdom : ty ≠ .domain) :
    ∃ o v, objRow index sub = some o ∧ o.ty = ty ∧ TakenIn t v ∧
      ∀ w, v.ownerWrite o index sub value = (0, w) → Answered o w (t.request 2 (aimAt r index sub ty value)) := by
  simp only [State.mayPut, Bool.and_eq_true, Option.any_eq_true, decide_eq_true_eq] at h
  obtain ⟨hstore, o, hrow, hty, hmay⟩ := h
  refine ⟨o, _, hrow, hty, State.authWrite_takenIn (t.heard_takenIn (aimAt r index sub ty value)) 2 (aimAt r index sub ty value), fun w hw => ?_⟩
  obtain ⟨a, ha, e⟩ := State.request_of_mayWrite hmay (hty ▸ hact) (hty ▸ hdom) hstore hw
  rw [e]
  exact answered_respond o _ w 2 _ _ ha

end Sys2Proof.Machine
end

section
/-! PROOFS. Writes with an effect of their own (O22): rack keys, core clock settings, the start of epochs, coolant reports. -/
namespace Sys2Proof.Machine

/-! ### What owners make of a write -/

theorem leNat_natLe_two {v : Nat} (h : v < 65536) : leNat (natLe 2 v) = v := by
  simp only [natLe, leNat, BitVec.toNat_ofNat]
  omega

theorem ownerWrite_rackKey (s : State) {o : ObjRow} (ho : o.ty = .octets) (slot : Nat) (key : Bytes) :
    s.ownerWrite o 0x5020 slot key = (0, (s.setBlob (objKey 0x5020 slot) key).closeSlotSessions slot) := by
  simp [State.ownerWrite, State.storeValue, ho]

theorem ownerWrite_coreClock (s : State) (o : ObjRow) {core mhz : Nat} (hc : core < 256) (hm : mhz < 65536) :
    s.ownerWrite o (0x1210 + core / 8) (1 + core % 8) (natLe 2 mhz) = (0, s.setClock core mhz) := by
  have hcore : 8 * (0x1210 + core / 8 - 0x1210) + (1 + core % 8 - 1) = core := by omega
  unfold State.ownerWrite
  simp only [leNat_natLe_two hm]
  rw [if_neg (by omega), if_neg (by omega), if_neg (by omega), if_pos (by omega), hcore]

theorem ownerWrite_epochsRunning (s : State) (o : ObjRow) : s.ownerWrite o 0x2100 3 (natLe 1 1) = s.epochsStart := by
  simp [State.ownerWrite, objKey, natLe, leNat]

theorem ownerWrite_coolant (s : State) (o : ObjRow) (flow : Bool) {v : Nat} (hv : v < 65536) :
    s.ownerWrite o 0x1120 (if flow then 2 else 1) (natLe 2 v) = (0, s.coolantReport flow v) := by
  cases flow <;> simp [State.ownerWrite, leNat_natLe_two hv]

/-! ### Rack keys (R44, R49) -/

theorem closeSlotSessions_slot (s : State) (slot : Nat) : ∀ x ∈ (s.closeSlotSessions slot).net.sessions, x.slot ≠ slot := by
  simp [State.closeSlotSessions]

theorem rackKey_row_persistent {slot : Nat} (h1 : 1 ≤ slot) (h8 : slot ≤ 8) {o : ObjRow} (h : objRow 0x5020 slot = some o) :
    o.persistent = true := by
  have hall : ∀ i : Fin 9, 1 ≤ i.val → (objRow 0x5020 i.val).all (fun o => o.persistent) = true := by decide +kernel
  have := hall ⟨slot, by omega⟩ h1
  rw [h] at this
  exact this

/-! ### Core clock settings (R23, R446) -/

theorem State.num_lowerVoltage_other (s : State) {cluster k : Nat} (h : k ≠ voltageKey cluster) :
    (s.lowerVoltage cluster).num k = s.num k := by
  unfold State.lowerVoltage
  split
  · exact s.num_setNum_other _ h
  · rfl

@[simp] theorem State.lowerVoltage_power (s : State) (cluster : Nat) : (s.lowerVoltage cluster).power = s.power := by
  unfold State.lowerVoltage; split <;> rfl

@[simp] theorem State.core_lowerVoltage (s : State) (cluster c : Nat) : (s.lowerVoltage cluster).core c = s.core c := by
  unfold State.lowerVoltage; split <;> rfl

@[simp] theorem State.core_requestClock (s : State) (c : Nat) : ((s.requestClock c).core c).pending =
    if s.wantedClock c = s.num (effectiveKey c) then none else some (s.wantedClock c) := by
  unfold State.requestClock
  simp

/-- A setting stands apart from the other clock objects of its core and cluster. -/
theorem clock_keys_ne_settingKey {core : Nat} (h : core < 256) : voltageKey (core / 8) ≠ settingKey core ∧
    effectiveKey core ≠ settingKey core ∧ suspectKey ⟨.core, core⟩ ≠ settingKey core ∧ effectiveKey core ≠ voltageKey (core / 8) ∧
    settingKey core ≠ voltageKey (core / 8) ∧ objKey (0x4030 + core / 8) 1 ≠ settingKey core := by
  simp only [voltageKey, settingKey, effectiveKey, suspectKey, objKey]
  omega

theorem State.num_setClock_setting (s : State) {core : Nat} (h : core < 256) (v : Nat) : (s.setClock core v).num (settingKey core) = v := by
  obtain ⟨-, -, -, -, hv, -⟩ := clock_keys_ne_settingKey h
  unfold State.setClock
  extract_lets cl w waiting
  split
  · exact State.num_setNum_same _ _ _
  · exact (State.num_lowerVoltage_other _ hv).trans (State.num_setNum_same _ _ _)

theorem State.num_setClock_effective (s : State) {core : Nat} (h : core < 256) (v : Nat) :
    (s.setClock core v).num (effectiveKey core) = s.num (effectiveKey core) := by
  obtain ⟨-, he, -, hv, -, -⟩ := clock_keys_ne_settingKey h
  unfold State.setClock
  extract_lets cl w waiting
  split
  · exact State.num_setNum_other _ _ he
  · exact (State.num_lowerVoltage_other _ hv).trans (State.num_setNum_other _ _ he)

/-- A setting that calls for more voltage than the cluster has waits, and asks for nothing yet. -/
theorem State.setClock_raises (s : State) {core v : Nat} (h : core < 256)
    (hv : s.num (voltageKey (core / 8)) < tableVoltage v + s.voltageOffset (core / 8)) :
    (core / 8, core) ∈ (s.setClock core v).power.raising ∧ (s.setClock core v).core core = s.core core := by
  obtain ⟨hvs, -, -, -, -, ho⟩ := clock_keys_ne_settingKey h
  unfold State.setClock
  extract_lets cl w waiting
  have hvolt : w.num (voltageKey cl) = s.num (voltageKey (core / 8)) := State.num_setNum_other s v hvs
  have hoff : w.voltageOffset cl = s.voltageOffset (core / 8) := State.num_setNum_other s v ho
  rw [hvolt, hoff, if_pos hv]
  exact ⟨by simp [cl], rfl⟩

/-- A setting that the cluster's voltage carries asks for the lower of itself and the core's ceiling at once. -/
theorem State.setClock_requests (s : State) {core v : Nat} (h : core < 256)
    (hv : tableVoltage v + s.voltageOffset (core / 8) ≤ s.num (voltageKey (core / 8))) :
    (∀ c, (c, core) ∉ (s.setClock core v).power.raising) ∧ ((s.setClock core v).core core).pending =
      if min v (s.ceiling core) = s.num (effectiveKey core) then none else some (min v (s.ceiling core)) := by
  obtain ⟨hvs, he, hsus, -, -, ho⟩ := clock_keys_ne_settingKey h
  have hw : (s.setNum (settingKey core) v).wantedClock core = min v (s.ceiling core) := by
    unfold State.wantedClock State.ceiling
    rw [State.num_setNum_same, State.num_setNum_other s v hsus]
  unfold State.setClock
  extract_lets cl w waiting
  have hvolt : w.num (voltageKey cl) = s.num (voltageKey (core / 8)) := State.num_setNum_other s v hvs
  have hoff : w.voltageOffset cl = s.voltageOffset (core / 8) := State.num_setNum_other s v ho
  rw [hvolt, hoff, if_neg (Nat.not_lt.2 hv)]
  refine ⟨fun c => ?_, ?_⟩
  · rw [State.lowerVoltage_power]
    simp [State.requestClock, State.setCore, waiting]
  · rw [State.core_lowerVoltage, State.core_requestClock]
    show (if w.wantedClock core = w.num (effectiveKey core) then none else some (w.wantedClock core)) = _
    rw [hw, State.num_setNum_other s v he]

/-! ### The start of epochs (R62) -/

/-- The first boundary is the earliest of the grid that is at least 1 ms ahead. -/
theorem firstBoundary_spec {o p now : Nat} (hp : 0 < p) : now + 1000000 ≤ o + firstBoundary o p now * p ∧ 1 ≤ firstBoundary o p now ∧
    (firstBoundary o p now = 1 ∨ o + (firstBoundary o p now - 1) * p < now + 1000000) := by
  unfold firstBoundary ceilDiv
  have hdiv := Nat.div_add_mod (now + 1000000 - o + p - 1) p
  have hmod := Nat.mod_lt (now + 1000000 - o + p - 1) hp
  generalize (now + 1000000 - o + p - 1) / p = q at hdiv
  rcases q with - | - | q
  · simp only [Nat.mul_zero] at hdiv
    omega
  · simp only [Nat.zero_add, Nat.mul_one, Nat.max_self, Nat.one_mul] at hdiv ⊢
    omega
  · have hk : max 1 (q + 1 + 1) = q + 1 + 1 := by omega
    have hnext : (q + 1 + 1) * p = (q + 1) * p + p := Nat.succ_mul _ _
    rw [Nat.mul_comm] at hdiv
    rw [hk, Nat.add_sub_cancel]
    omega

theorem State.signalEpochs_frame (s : State) : ∃ update fences, s.signalEpochs = { s with update := update, fences := fences } := by
  have fold : ∀ (l : List (Nat × Nat × Nat × Nat)) (s : State),
      ∃ fences, l.foldl (fun s f => s.signal f.2.2.1 f.2.2.2) s = { s with fences := fences } := by
    intro l
    induction l with
    | nil => exact fun s => ⟨_, rfl⟩
    | cons f l ih => exact fun s => (ih _).imp fun _ h => h
  unfold State.signalEpochs
  extract_lets due update w
  obtain ⟨fences, e⟩ := fold due w
  exact ⟨_, fences, e⟩

@[simp] theorem State.num_signalEpochs (s : State) (k : Nat) : s.signalEpochs.num k = s.num k := by
  obtain ⟨_, _, e⟩ := s.signalEpochs_frame
  rw [e]
  rfl

@[simp] theorem State.num_relabel (s : State) (n k : Nat) : (s.relabel n).num k = s.num k := rfl

theorem epoch_keys_ne : objKey 0x2100 3 ≠ nextBoundaryKey ∧ objKey 0x2100 3 ≠ boundaryKey ∧ objKey 0x2100 3 ≠ epochKey ∧
    epochKey ≠ nextBoundaryKey ∧ epochKey ≠ boundaryKey := by
  decide

/-- Epochs that start: running, and the first boundary at its place in the grid. -/
theorem State.epochsStart_starts {s : State} {o p k : Nat} (ht : s.tenancy = 1) (hr : s.epochsRunning = false)
    (hp : s.num (objKey 0x2100 1) * 1000 = p) (ho : s.num (objKey 0x2100 2) = o) (hk : firstBoundary o p s.now = k) :
    ∃ w, s.epochsStart = (0, w) ∧ w.epochsRunning = true ∧ w.epoch = k - 1 ∧ w.num nextBoundaryKey = o + k * p := by
  obtain ⟨h3n, h3b, h3e, hen, heb⟩ := epoch_keys_ne
  unfold State.epochsStart
  simp only [hp, ho, hk, ht, hr, ne_eq, not_true, decide_false, Bool.or_self, Bool.false_eq_true, if_false]
  refine ⟨_, rfl, ?_, ?_, ?_⟩
  · simp [State.epochsRunning, State.flag, State.setFlag, State.num_setNum_other _ _ h3n, State.num_setNum_other _ _ h3b,
      State.num_setNum_other _ _ h3e]
  · change State.num _ epochKey = _
    simp [State.num_setNum_other _ _ hen, State.num_setNum_other _ _ heb]
  · simp

/-! ### Coolant reports (R447) -/

@[simp] theorem State.deviceReport_power (s : State) (u : UnitId) (code : Nat) : (s.deviceReport u code).power = s.power :=
  State.report_power _ _

theorem State.num_deviceReport_other (s : State) (u : UnitId) (code : Nat) {k : Nat} (h : k ≠ objKey 0x4000 7) :
    (s.deviceReport u code).num k = s.num k := State.num_report_other _ _ h

theorem coolant_keys_ne (flow : Bool) : objKey 0x1120 (if flow then 2 else 1) ≠ objKey 0x1120 3 ∧
    objKey 0x1120 (if flow then 2 else 1) ≠ powerKey 2 ∧ objKey 0x1120 (if flow then 2 else 1) ≠ objKey 0x4000 7 ∧
    objKey 0x1120 3 ≠ powerKey 2 ∧ objKey 0x1120 3 ≠ objKey 0x4000 7 ∧ powerKey 2 ≠ objKey 0x4000 7 := by
  cases flow <;> decide

/-- A report is stored and reads fresh, whatever else it does. -/
theorem State.coolantReport_stores (s : State) (flow : Bool) (v : Nat) :
    (s.coolantReport flow v).num (objKey 0x1120 (if flow then 2 else 1)) = v ∧ (s.coolantReport flow v).num (objKey 0x1120 3) = 1 ∧
    (s.coolantReport flow v).power.coolantAt = some s.now := by
  obtain ⟨hf, hp, hr, hfp, hfr, -⟩ := coolant_keys_ne flow
  unfold State.coolantReport
  extract_lets w power w'
  have hv : w'.num (objKey 0x1120 (if flow then 2 else 1)) = v ∧ w'.num (objKey 0x1120 3) = 1 :=
    ⟨(State.num_setNum_other _ _ hf).trans (State.num_setNum_same _ _ _), State.num_setNum_same _ _ _⟩
  generalize (if flow then flowOk v else inletOk v) = ok
  split
  · refine ⟨?_, ?_, ?_⟩
    · rw [State.num_deviceReport_other _ _ _ hr]
      exact (State.num_setNum_other _ _ hp).trans hv.1
    · rw [State.num_deviceReport_other _ _ _ hfr]
      exact (State.num_setNum_other _ _ hfp).trans hv.2
    · rw [State.deviceReport_power]
      rfl
  · split
    · exact ⟨hv.1, hv.2, rfl⟩
    · exact ⟨hv.1, hv.2, rfl⟩

/-- A report out of its range caps the effective limit. -/
theorem State.coolantReport_caps (s : State) {flow : Bool} {v : Nat} (h : (if flow then flowOk v else inletOk v) = false) :
    (s.coolantReport flow v).power.coolantCap = true ∧ (s.coolantReport flow v).num (powerKey 2) ≤ 1000 := by
  obtain ⟨-, -, -, -, -, hr⟩ := coolant_keys_ne flow
  unfold State.coolantReport
  rw [if_pos (by rw [h]; rfl)]
  refine ⟨by rw [State.deviceReport_power]; rfl, ?_⟩
  rw [State.num_deviceReport_other _ _ _ hr]
  unfold State.capLimit
  rw [State.num_setNum_same]
  exact Nat.min_le_right _ _

/-- The objects of a core's clock are none of the dictionary's own counts, and not the count of the configuration copies. -/
theorem clock_keys_served {core : Nat} (h : core < 256) : ∀ k ∈ [settingKey core, effectiveKey core, voltageKey (core / 8),
    suspectKey ⟨.core, core⟩, objKey (0x4030 + core / 8) 1], k / 256 ≠ 0x1083 ∧ k ≠ objKey 0x1011 1 := by
  simp only [List.forall_mem_cons, voltageKey, settingKey, effectiveKey, suspectKey, objKey, List.not_mem_nil, false_implies, implies_true,
    and_true]
  omega

/-- RACK_KEY_WRITE (R44, R49). -/
theorem request_rackKey {t : State} {slot : Nat} {key : Bytes} {r : Request} (h1 : 1 ≤ slot) (h8 : slot ≤ 8)
    (h : t.mayPut r 0x5020 slot .octets key = true) :
    ∃ u, t.request 2 (aimAt r 0x5020 slot .octets key) = u ∧ u.blob (objKey 0x5020 slot) = key ∧
      (∀ x ∈ u.net.sessions, x.slot ≠ slot) ∧ Rose t u (objKey 0x1011 1) 1 := by
  obtain ⟨o, v, hrow, hty, hin, hans⟩ := State.request_of_mayPut h (by decide) (by decide)
  have A := hans _ (ownerWrite_rackKey v hty slot key)
  refine ⟨_, rfl, ?_, ?_, fun hspan => ?_⟩
  · exact (A.blob _).trans (State.blob_setBlob_same _ _ _)
  · rw [A.sessions]
    exact closeSlotSessions_slot _ _
  · have hv : v.num (objKey 0x1011 1) = t.num (objKey 0x1011 1) := hin.num _ (by decide)
    rw [← hv] at hspan ⊢
    exact A.count (rackKey_row_persistent h1 h8 hrow) hspan

/-- CORE_CLOCK_SET (R23, R446). -/
theorem request_coreClock {t : State} {core mhz : Nat} {r : Request} (hc : core < 256) (hm : mhz < 65536)
    (h : t.mayPut r (0x1210 + core / 8) (1 + core % 8) .u16 (natLe 2 mhz) = true) :
    ∃ u, t.request 2 (aimAt r (0x1210 + core / 8) (1 + core % 8) .u16 (natLe 2 mhz)) = u ∧ u.num (settingKey core) = mhz ∧
      u.num (effectiveKey core) = t.num (effectiveKey core) ∧
      (t.num (voltageKey (core / 8)) < tableVoltage mhz + t.voltageOffset (core / 8) →
        (core / 8, core) ∈ u.power.raising ∧ u.core core = t.core core) ∧
      (tableVoltage mhz + t.voltageOffset (core / 8) ≤ t.num (voltageKey (core / 8)) →
        (∀ c, (c, core) ∉ u.power.raising) ∧ (u.core core).pending =
          if min mhz (t.ceiling core) = t.num (effectiveKey core) then none else some (min mhz (t.ceiling core))) := by
  obtain ⟨o, v, -, -, hin, hans⟩ := State.request_of_mayPut h (by decide) (by decide)
  have A := hans _ (ownerWrite_coreClock v o hc hm)
  have K := clock_keys_served hc
  simp only [List.forall_mem_cons] at K
  obtain ⟨⟨-, hset⟩, ⟨heff, heff'⟩, ⟨hvolt, -⟩, ⟨hsus, -⟩, ⟨hoff, -⟩, -⟩ := K
  have hceil : v.ceiling core = t.ceiling core := by unfold State.ceiling; rw [hin.num _ hsus]
  have hoffset : v.voltageOffset (core / 8) = t.voltageOffset (core / 8) := hin.num _ hoff
  rw [← hin.num _ hvolt, ← hin.num _ heff, ← hoffset, ← hceil, ← hin.core]
  refine ⟨_, rfl, ?_, ?_, fun hlow => ?_, fun hhigh => ?_⟩
  · exact (A.num _ hset).trans (v.num_setClock_setting hc mhz)
  · exact (A.num _ heff').trans (v.num_setClock_effective hc mhz)
  · rw [A.power, A.core]
    exact v.setClock_raises hc hlow
  · rw [A.power, A.core]
    exact v.setClock_requests hc hhigh

/-- EPOCHS_START (R62). -/
theorem request_epochsStart {t : State} {r : Request} {o p k : Nat} (h : t.mayPut r 0x2100 3 .bool (natLe 1 1) = true)
    (hten : t.tenancy = 1) (hrun : t.epochsRunning = false) (hp : p = t.num (objKey 0x2100 1) * 1000)
    (ho : o = t.num (objKey 0x2100 2)) (hk : k = firstBoundary o p t.now) :
    ∃ u, t.request 2 (aimAt r 0x2100 3 .bool (natLe 1 1)) = u ∧ u.epochsRunning = true ∧ u.epoch = k - 1 ∧
      u.num nextBoundaryKey = o + k * p := by
  obtain ⟨row, v, -, -, hin, hans⟩ := State.request_of_mayPut h (by decide) (by decide)
  have hrun' : v.epochsRunning = false := by
    rw [← hrun]; unfold State.epochsRunning State.flag; rw [hin.num _ (by decide)]
  obtain ⟨w, hw, hwrun, hwepoch, hwnext⟩ := State.epochsStart_starts (s := v) (o := o) (p := p) (k := k)
    ((hin.num _ (by decide)).trans hten) hrun' (by rw [hin.num _ (by decide), hp]) (by rw [hin.num _ (by decide), ho])
    (by rw [hin.now, hk])
  have A := hans w ((ownerWrite_epochsRunning v row).trans hw)
  refine ⟨_, rfl, ?_, (A.num _ (by decide)).trans hwepoch, (A.num _ (by decide)).trans hwnext⟩
  rw [← hwrun]
  unfold State.epochsRunning State.flag
  rw [A.num _ (by decide)]

/-- COOLANT_REPORT (R447). -/
theorem request_coolant {t : State} {flow : Bool} {v : Nat} {r : Request} (hv : v < 65536)
    (h : t.mayPut r 0x1120 (if flow then 2 else 1) (if flow then .u16 else .i16) (natLe 2 v) = true) :
    ∃ u, t.request 2 (aimAt r 0x1120 (if flow then 2 else 1) (if flow then .u16 else .i16) (natLe 2 v)) = u ∧
      u.num (objKey 0x1120 (if flow then 2 else 1)) = v ∧ u.num (objKey 0x1120 3) = 1 ∧ u.power.coolantAt = some t.now ∧
      ((if flow then flowOk v else inletOk v) = false → u.power.coolantCap = true ∧ u.num (powerKey 2) ≤ 1000) := by
  obtain ⟨o, w, -, -, hin, hans⟩ := State.request_of_mayPut h (by cases flow <;> decide) (by cases flow <;> decide)
  have A := hans _ (ownerWrite_coolant w o flow hv)
  obtain ⟨hstored, hfresh, hat⟩ := w.coolantReport_stores flow v
  refine ⟨_, rfl, ?_, ?_, ?_, fun hbad => ?_⟩
  · exact (A.num _ (by cases flow <;> decide)).trans hstored
  · exact (A.num _ (by decide)).trans hfresh
  · rw [A.power, hat, hin.now]
  · obtain ⟨hcap, hlimit⟩ := w.coolantReport_caps hbad
    rw [A.power, A.num _ (by decide)]
    exact ⟨hcap, hlimit⟩

end Sys2Proof.Machine

open Sys2Proof.Machine in
/-- Settles O22: each write passes the checks of the dictionary, reaches its owner, and is answered; what the owner does with it is read off
the owner's rule. -/
theorem writesWithEffects : Obligations.WritesWithEffects := by
  unfold Obligations.WritesWithEffects
  refine ⟨?_, ?_, ?_, ?_⟩
  · rintro s t dt slot key r rfl h1 h8 hput
    obtain ⟨u, e, hu⟩ := request_rackKey h1 h8 hput
    exact ⟨u, congrArg Host.Outcome.next e, hu⟩
  · rintro s t dt core mhz r rfl hc hm hput
    obtain ⟨u, e, hu⟩ := request_coreClock hc hm hput
    exact ⟨u, congrArg Host.Outcome.next e, hu⟩
  · rintro s t dt p o k r rfl hput hten hrun hp hpos ho hk
    obtain ⟨u, e, hrunning, hepoch, hnext⟩ := request_epochsStart hput hten hrun hp ho hk
    have hgrid := firstBoundary_spec (o := o) (now := (s.reach dt r).now) hpos
    rw [← hk] at hgrid
    exact ⟨u, congrArg Host.Outcome.next e, hrunning, hepoch, hnext, hgrid⟩
  · rintro s t dt v flow r rfl hv hput
    obtain ⟨u, e, hu⟩ := request_coolant hv hput
    exact ⟨u, congrArg Host.Outcome.next e, hu⟩
end

section
/-! PROOFS. The statement on clocks and grants (O23) fails for a core outside the package. -/
namespace Sys2Proof.Machine

/-! ### A clock change that waits for a core outside the package -/

/-- Core 512, which no cluster has, waits for the voltage of cluster 0: the object of its effective clock is that of the cluster's
voltage, and holds the clock that core 512 would ask for, the 4 that the object of its
setting reads, the state of UCIe module 0. -/
def strayRaise : State :=
  ({ State.reset with power := { State.reset.power with raising := [(0, 512)] } } : State).setNum (voltageKey 0) 4

/-- The clock of a core outside the package aliases the voltage of a cluster within it. -/
theorem effectiveKey_512 : effectiveKey 512 = voltageKey 0 := rfl

theorem strayRaise_waits : strayRaise.power.raising = [(0, 512)] := rfl

theorem strayRaise_wantedClock : strayRaise.wantedClock 512 = strayRaise.num (effectiveKey 512) := by
  have hwanted : strayRaise.wantedClock 512 = 4 := by decide +kernel
  rw [hwanted, effectiveKey_512]
  exact (State.num_setNum_same _ _ _).symm

/-- VOLTAGE_SETTLED of cluster 0: the voltage takes its new value, and core 512 makes its request after that. -/
def straySettled : State :=
  let s := strayRaise.setNum (voltageKey 0) (strayRaise.calledVoltage 0)
  ({ s with power := { s.power with raising := [] } } : State).requestClock 512

theorem exec_strayRaise : exec (.voltageSettled 0 0) strayRaise = .next straySettled := rfl

theorem straySettled_pending : (straySettled.core 512).pending = some 4 := by decide +kernel

end Sys2Proof.Machine

open Sys2Proof.Machine in
/-- Refutes O23: its clause on VOLTAGE_SETTLED bounds neither the cluster nor the cores that wait for it. In `strayRaise` core 512 has the
clock it wants, so the statement has no request of it; but its effective clock is the object of cluster 0's voltage, which the
command changes first, and a request is made. -/
theorem not_clocksAndGrants : ¬ Obligations.ClocksAndGrants := by
  unfold Obligations.ClocksAndGrants
  rintro ⟨⟨hsettled, -⟩, -⟩
  obtain ⟨u, hu, -, -, hcores⟩ := hsettled strayRaise strayRaise 0 0 rfl (by rw [strayRaise_waits]; rfl)
  have hnone := hcores 512 (by rw [strayRaise_waits]; exact List.mem_singleton.2 rfl)
  rw [if_pos strayRaise_wantedClock] at hnone
  obtain rfl : straySettled = u := Host.Outcome.next.inj (exec_strayRaise.symm.trans hu)
  exact absurd (hnone.symm.trans straySettled_pending) (by decide)
end

section
/-! PROOFS. The governor (R437 to R439): what metering and the levers change, and how levers engage and are released. -/
namespace Sys2Proof.Machine

/-! ### Metering (R438, R439) -/

/-- The objects that the governor keeps beside its readings, and the count of unheld reports. -/
def governorKeys : List Nat := [powerKey 5, powerKey 7, powerKey 8, powerKey 9, powerKey 0x0A, powerKey 0x0B, powerKey 0x0D, objKey 0x4000 7]

/-- From `s` to `u` the governor has done its work: of the objects only its own differ, and of its record what the levers and the meter keep. -/
structure Governed (s u : State) : Prop where
  now : u.now = s.now
  num : ∀ k, k ∉ governorKeys → u.num k = s.num k
  power : ∃ skip good noted, u.power = { s.power with skip := skip, goodSamples := good, noted := noted }

theorem Governed.refl (s : State) : Governed s s := ⟨rfl, fun _ _ => rfl, _, _, _, rfl⟩

theorem Governed.trans {a b c : State} (h : Governed a b) (k : Governed b c) : Governed a c := by
  refine ⟨k.now.trans h.now, fun j hj => (k.num j hj).trans (h.num j hj), ?_⟩
  obtain ⟨_, _, _, e⟩ := h.power
  obtain ⟨_, _, _, e'⟩ := k.power
  rw [e', e]
  exact ⟨_, _, _, rfl⟩

theorem Governed.runStart {s u : State} (h : Governed s u) : u.power.runStart = s.power.runStart := by
  obtain ⟨_, _, _, e⟩ := h.power; rw [e]

theorem Governed.sampleMw {s u : State} (h : Governed s u) : u.power.sampleMw = s.power.sampleMw := by
  obtain ⟨_, _, _, e⟩ := h.power; rw [e]

theorem governed_setNum (s : State) {k : Nat} (v : Nat) (h : k ∈ governorKeys) : Governed s (s.setNum k v) :=
  ⟨rfl, fun _ hj => State.num_setNum_other _ _ fun e => hj (e ▸ h), _, _, _, rfl⟩

theorem governed_deviceReport (s : State) (u : UnitId) (code : Nat) : Governed s (s.deviceReport u code) :=
  ⟨State.report_now _ _, fun k hk => State.num_report_other _ _ fun e => hk (e ▸ by decide), _, _, _, State.report_power _ _⟩

/-- Metering counts the waits that end (0x1100.0D), and notes the time. -/
structure Noted (s u : State) : Prop where
  now : u.now = s.now
  startup : u.startup = s.startup
  num : ∀ k, k ≠ powerKey 0x0D → u.num k = s.num k
  power : ∃ noted, u.power = { s.power with noted := noted }

theorem Noted.refl (s : State) : Noted s s := ⟨rfl, rfl, fun _ _ => rfl, _, rfl⟩

theorem Noted.trans {a b c : State} (h : Noted a b) (k : Noted b c) : Noted a c := by
  refine ⟨k.now.trans h.now, k.startup.trans h.startup, fun j hj => (k.num j hj).trans (h.num j hj), ?_⟩
  obtain ⟨_, e⟩ := h.power
  obtain ⟨_, e'⟩ := k.power
  rw [e', e]
  exact ⟨_, rfl⟩

theorem Noted.governed {s u : State} (h : Noted s u) : Governed s u := by
  refine ⟨h.now, fun k hk => h.num k fun e => hk (e ▸ by decide), ?_⟩
  obtain ⟨_, e⟩ := h.power
  exact ⟨_, _, _, e⟩

theorem noted_foldl {α : Type} {f : State → α → State} (hf : ∀ s a, Noted s (f s a)) : ∀ (l : List α) (s : State), Noted s (l.foldl f s)
  | [], s => .refl s
  | a :: l, s => (hf s a).trans (noted_foldl hf l (f s a))

theorem State.noteMetered_noted (s : State) : Noted s s.noteMetered := by
  unfold State.noteMetered
  extract_lets one w power
  have hone : ∀ s u, Noted s (one s u) := by
    intro s u
    simp only [one]
    repeat' split
    · exact .refl s
    · exact ⟨rfl, rfl, fun _ _ => rfl, _, rfl⟩
    · exact ⟨rfl, rfl, fun _ hk => State.num_bump_other _ _ hk, _, rfl⟩
    · exact .refl s
  exact (noted_foldl hone _ s).trans ⟨rfl, rfl, fun _ _ => rfl, _, rfl⟩

/-! ### Levers (R439) -/

theorem State.num_engage_lever (s : State) (i : Nat) : (s.engage i).num (powerKey 5) =
    if s.lever i then s.num (powerKey 5) else s.num (powerKey 5) + 2 ^ i := by
  have hi : powerKey 5 ≠ powerKey (8 + i) := by simp only [powerKey, objKey]; omega
  unfold State.engage
  split
  · rfl
  · unfold State.deviceReport
    rw [State.num_report_other _ _ (by decide), State.num_bump_other _ _ hi, State.num_setNum_same]

theorem State.lever_engage_same (s : State) (i : Nat) : (s.engage i).lever i = true := by
  unfold State.lever
  rw [State.num_engage_lever]
  cases h : s.lever i with
  | true => exact h
  | false =>
    rw [if_neg (by decide), Nat.add_comm]
    unfold bit
    rw [Nat.testBit_two_pow_add_eq]
    simpa [State.lever, bit] using h

/-- A lever that engages leaves those before it alone. -/
theorem State.lever_engage_lower (s : State) {i j : Nat} (h : j < i) : (s.engage i).lever j = s.lever j := by
  unfold State.lever
  rw [State.num_engage_lever]
  split
  · rfl
  · unfold bit
    rw [Nat.add_comm, Nat.testBit_two_pow_add_gt h]

theorem State.engageTo_succ (s : State) (i : Nat) : s.engageTo (i + 1) = (s.engageTo i).engage (i + 1) := by
  unfold State.engageTo
  rw [List.range_succ, List.foldl_append]
  rfl

theorem State.lever_engageTo (s : State) : ∀ {i j : Nat}, j ≤ i → (s.engageTo i).lever j = true
  | 0, j, h => by
    obtain rfl : j = 0 := by omega
    exact s.lever_engage_same 0
  | i + 1, j, h => by
    rw [State.engageTo_succ]
    rcases Nat.lt_or_eq_of_le h with h | rfl
    · rw [State.lever_engage_lower _ h]
      exact s.lever_engageTo (by omega)
    · exact State.lever_engage_same _ _

theorem State.engage_governed (s : State) {i : Nat} (h : i ≤ 3) : Governed s (s.engage i) := by
  have hkey : powerKey (8 + i) ∈ governorKeys := (by decide : ∀ i : Fin 4, powerKey (8 + i.val) ∈ governorKeys) ⟨i, by omega⟩
  unfold State.engage
  split
  · exact .refl s
  · exact ((governed_setNum s _ (by decide)).trans (governed_setNum _ _ hkey)).trans (governed_deviceReport _ _ _)

theorem State.engageTo_governed (s : State) : ∀ {i : Nat}, i ≤ 3 → Governed s (s.engageTo i)
  | 0, h => s.engage_governed h
  | i + 1, h => by
    rw [State.engageTo_succ]
    exact (s.engageTo_governed (by omega)).trans (State.engage_governed _ h)

/-- The highest lever goes. -/
theorem State.num_release_lever (s : State) : s.release.num (powerKey 5) =
    s.num (powerKey 5) - (if s.num (powerKey 5) = 0 then 0 else 2 ^ log2 (s.num (powerKey 5))) := by
  unfold State.release leverCount
  by_cases h : s.num (powerKey 5) = 0
  · simp [h]
  · simp only [h, if_false]
    split
    · exact State.num_setNum_same _ _ _
    · exact State.num_setNum_same _ _ _

theorem State.release_governed (s : State) : Governed s s.release := by
  unfold State.release
  split
  · exact .refl s
  · split
    · exact (governed_setNum s _ (by decide)).trans ⟨rfl, fun _ _ => rfl, _, _, _, rfl⟩
    · exact governed_setNum s _ (by decide)

end Sys2Proof.Machine
end

section
/-! PROOFS. Power samples (R434, R437, R439): the readings, the run of excess and the levers that follow it. -/
namespace Sys2Proof.Machine

/-- The levers that a sample of `mw` engages (R439), before the highest may go. -/
def State.engaged (s : State) (mw : Nat) : State :=
  if s.power.runStart.isSome ∧ 1900 ≤ s.excess then s.engageTo 3
  else if s.power.runStart.isSome ∧ 1800 ≤ s.excess then s.engageTo 2
  else if (s.power.runStart.isSome ∧ 1500 ≤ s.excess) ∨ 1850000 < mw then s.engageTo 1
  else if s.power.runStart.isSome ∧ 1000 ≤ s.excess then s.engageTo 0
  else s

theorem State.engaged_governed (s : State) (mw : Nat) : Governed s (s.engaged mw) := by
  unfold State.engaged
  repeat' split
  · exact s.engageTo_governed (by decide)
  · exact s.engageTo_governed (by decide)
  · exact s.engageTo_governed (by decide)
  · exact s.engageTo_governed (by decide)
  · exact .refl s

/-- The microseconds of a run of excess at which a lever engages. -/
def leverAt : Nat → Nat
  | 0 => 1000
  | 1 => 1500
  | 2 => 1800
  | _ => 1900

/-- In a run that has lasted as long as a lever takes, the lever engages; and L3 does above 1,850 W at once. -/
theorem State.lever_engaged {s : State} {mw i : Nat} (hrun : s.power.runStart.isSome = true) (hi : i ≤ 3)
    (h : leverAt i ≤ s.excess ∨ (i = 1 ∧ 1850000 < mw)) : (s.engaged mw).lever i = true := by
  have bound : (i = 0 → 1000 ≤ s.excess) ∧ (1 ≤ i → 1500 ≤ s.excess ∨ 1850000 < mw) ∧ (2 ≤ i → 1800 ≤ s.excess) ∧
      (3 ≤ i → 1900 ≤ s.excess) := by
    match i, hi, h with
    | 0, _, h => simp only [leverAt] at h; omega
    | 1, _, h => simp only [leverAt] at h; omega
    | 2, _, h => simp only [leverAt] at h; omega
    | 3, _, h => simp only [leverAt] at h; omega
  obtain ⟨h0, h1, h2, h3⟩ := bound
  unfold State.engaged
  simp only [hrun, true_and]
  split
  · exact s.lever_engageTo hi
  · split
    · exact s.lever_engageTo (by omega)
    · split
      · exact s.lever_engageTo (by omega)
      · split
        · exact s.lever_engageTo (by omega)
        · omega

theorem State.engaged_calm {s : State} {mw : Nat} (hrun : s.power.runStart = none) (hmw : mw ≤ 1850000) : s.engaged mw = s := by
  unfold State.engaged
  simp [hrun, Nat.not_lt.2 hmw]

/-- Cycle skipping after a sample: one step more while L3 is engaged. -/
def State.skipped (s : State) : State :=
  if s.lever 1 then { s with power := { s.power with skip := min 840 (s.power.skip + 105) } } else s

theorem State.skipped_governed (s : State) : Governed s s.skipped := by
  unfold State.skipped
  split
  · exact ⟨rfl, fun _ _ => rfl, _, _, _, rfl⟩
  · exact .refl s

@[simp] theorem State.num_skipped (s : State) (k : Nat) : s.skipped.num k = s.num k := by
  unfold State.skipped
  split <;> rfl

theorem State.skipped_goodSamples (s : State) : s.skipped.power.goodSamples = s.power.goodSamples := by
  unfold State.skipped
  split <;> rfl

/-- The samples in a row at or below 95 % of the limit, with one of `mw`. -/
def State.goodAfter (s : State) (mw l : Nat) : Nat := if mw * 100 ≤ 95 * l * 1000 then s.power.goodSamples + 1 else 0

theorem State.leversAfter_eq (s : State) (mw l : Nat) : s.leversAfter mw l =
    (let u := (s.engaged mw).skipped
     if 10 ≤ u.goodAfter mw l ∧ u.power.runStart.isNone then
       ({ u with power := { u.power with goodSamples := 0 } } : State).release
     else { u with power := { u.power with goodSamples := u.goodAfter mw l } }) := rfl

theorem governed_goodSamples (s : State) (n : Nat) : Governed s { s with power := { s.power with goodSamples := n } } :=
  ⟨rfl, fun _ _ => rfl, _, _, _, rfl⟩

theorem State.leversAfter_governed (s : State) (mw l : Nat) : Governed s (s.leversAfter mw l) := by
  have h := (s.engaged_governed mw).trans (s.engaged mw).skipped_governed
  rw [State.leversAfter_eq]
  extract_lets u
  split
  · exact (h.trans (governed_goodSamples u 0)).trans (State.release_governed _)
  · exact h.trans (governed_goodSamples u _)

/-- During a run of excess no lever goes. -/
theorem State.num_leversAfter_run {s : State} (mw l : Nat) (hrun : s.power.runStart.isSome = true) :
    (s.leversAfter mw l).num (powerKey 5) = (s.engaged mw).num (powerKey 5) := by
  have h := (s.engaged_governed mw).trans (s.engaged mw).skipped_governed
  rw [State.leversAfter_eq]
  extract_lets u
  have hnot : u.power.runStart.isNone = false := by
    rw [h.runStart, ← Option.not_isSome, hrun]
    rfl
  rw [if_neg (by rw [hnot]; simp)]
  exact (s.engaged mw).num_skipped (powerKey 5)

/-- Outside a run the tenth good sample in a row takes the highest lever. -/
theorem State.num_leversAfter_calm {s : State} {mw l : Nat} (hrun : s.power.runStart = none) (hmw : mw ≤ 1850000)
    (hfit : mw * 100 ≤ 95 * l * 1000) (hgood : 9 ≤ s.power.goodSamples) : (s.leversAfter mw l).num (powerKey 5) =
      s.num (powerKey 5) - (if s.num (powerKey 5) = 0 then 0 else 2 ^ log2 (s.num (powerKey 5))) := by
  rw [State.leversAfter_eq, State.engaged_calm hrun hmw]
  extract_lets u
  have hgood' : 10 ≤ u.goodAfter mw l := by
    unfold State.goodAfter
    rw [if_pos hfit, State.skipped_goodSamples]
    omega
  have hnone : u.power.runStart.isNone = true := by rw [s.skipped_governed.runStart, hrun]; rfl
  rw [if_pos ⟨hgood', hnone⟩, State.num_release_lever]
  have hnum : ({ u with power := { u.power with goodSamples := 0 } } : State).num (powerKey 5) = s.num (powerKey 5) :=
    s.num_skipped _
  rw [hnum]

/-! ### A sample (R434, R437) -/

/-- The objects with a sample's readings in them, and the limit that the levers go by. -/
def State.readingsStored (s : State) (mv mgt vio current w : Nat) : State :=
  let s := (((s.setNum (objKey 0x1130 1) (mv % 65536)).setNum (objKey 0x1130 2) (mgt % 65536)).setNum (objKey 0x1130 3)
    (vio % 65536)).setNum (objKey 0x1130 4) (current % 65536)
  ((s.setNum (powerKey 3) w).setNum (powerKey 4) (max w (s.num (powerKey 4)))).uncapLimit

/-- What a sample of `mw` has stored before the run of excess is judged. -/
def State.sampled (s : State) (mv mgt vio current mw : Nat) : State :=
  let s := s.readingsStored mv mgt vio current (mw / 1000 % 65536)
  { s with power := { s.power with granted := 0, sampleMw := mw } }

@[simp] theorem State.sampled_now (s : State) (mv mgt vio current mw : Nat) : (s.sampled mv mgt vio current mw).now = s.now := rfl
@[simp] theorem State.sampled_power (s : State) (mv mgt vio current mw : Nat) :
    (s.sampled mv mgt vio current mw).power = { s.power with granted := 0, sampleMw := mw } := rfl
@[simp] theorem State.num_sampled (s : State) (mv mgt vio current mw k : Nat) :
    (s.sampled mv mgt vio current mw).num k = (s.readingsStored mv mgt vio current (mw / 1000 % 65536)).num k := rfl

/-- The longest run of excess so far. -/
def State.excessNoted (s : State) : State := s.setNum (powerKey 7) (max (s.num (powerKey 7)) (s.excess % 2 ^ 32))

@[simp] theorem State.excessNoted_now (s : State) : s.excessNoted.now = s.now := rfl
@[simp] theorem State.excessNoted_power (s : State) : s.excessNoted.power = s.power := rfl
theorem State.num_excessNoted_other (s : State) {k : Nat} (h : k ≠ powerKey 7) : s.excessNoted.num k = s.num k := s.num_setNum_other _ h

/-- The limit rests on the sustained limit and the caps alone. -/
theorem State.limitNow_congr {s u : State} (hs : u.power.supplyCap = s.power.supplyCap) (hc : u.power.coolantCap = s.power.coolantCap)
    (hn : u.num (powerKey 1) = s.num (powerKey 1)) : u.limitNow = s.limitNow := by
  unfold State.limitNow
  rw [hs, hc, hn]

theorem State.num_readingsStored (s : State) (mv mgt vio current w k : Nat) : (s.readingsStored mv mgt vio current w).num k =
    if k = powerKey 2 then s.limitNow else if k = powerKey 4 then max w (s.num (powerKey 4)) else if k = powerKey 3 then w
    else if k = objKey 0x1130 4 then current % 65536 else if k = objKey 0x1130 3 then vio % 65536
    else if k = objKey 0x1130 2 then mgt % 65536 else if k = objKey 0x1130 1 then mv % 65536 else s.num k := by
  unfold State.readingsStored State.uncapLimit
  extract_lets r
  have hr : ∀ j, r.num j = if j = objKey 0x1130 4 then current % 65536 else if j = objKey 0x1130 3 then vio % 65536
    else if j = objKey 0x1130 2 then mgt % 65536 else if j = objKey 0x1130 1 then mv % 65536 else s.num j := fun j => by
    simp only [r, State.num_setNum]
  have hlimit : ((r.setNum (powerKey 3) w).setNum (powerKey 4) (max w (r.num (powerKey 4)))).limitNow = s.limitNow :=
    State.limitNow_congr rfl rfl (by simp only [State.num_setNum, hr]; rfl)
  rw [hlimit]
  simp only [State.num_setNum, hr]
  rfl

/-- Judging the run of excess changes the record of that run alone. -/
theorem State.runAfter_frame (s : State) (mw l : Nat) : ∃ start calm, s.runAfter mw l =
    { s with power := { s.power with runStart := start, calmSince := calm } } := by
  by_cases h : l * 1000 < mw
  · exact ⟨_, _, if_pos h⟩
  · exact ⟨_, _, if_neg h⟩

@[simp] theorem State.num_runAfter (s : State) (mw l k : Nat) : (s.runAfter mw l).num k = s.num k := by
  obtain ⟨_, _, e⟩ := s.runAfter_frame mw l; rw [e]; rfl

theorem State.runAfter_now (s : State) (mw l : Nat) : (s.runAfter mw l).now = s.now := by
  obtain ⟨_, _, e⟩ := s.runAfter_frame mw l; rw [e]

theorem State.runAfter_sampleMw (s : State) (mw l : Nat) : (s.runAfter mw l).power.sampleMw = s.power.sampleMw := by
  obtain ⟨_, _, e⟩ := s.runAfter_frame mw l; rw [e]

theorem State.runAfter_goodSamples (s : State) (mw l : Nat) : (s.runAfter mw l).power.goodSamples = s.power.goodSamples := by
  obtain ⟨_, _, e⟩ := s.runAfter_frame mw l; rw [e]

/-- A sample above the limit begins a run of excess, or finds one under way. -/
theorem State.runAfter_over {s : State} {mw l : Nat} (h : l * 1000 < mw) :
    (s.runAfter mw l).power.runStart = some (s.power.runStart.getD s.now) := by
  unfold State.runAfter
  rw [if_pos h]

/-- A sample within the limit begins none. -/
theorem State.runAfter_calm {s : State} {mw l : Nat} (h : mw ≤ l * 1000) (hrun : s.power.runStart = none) :
    (s.runAfter mw l).power.runStart = none := by
  unfold State.runAfter
  rw [if_neg (Nat.not_lt.2 h)]
  simp [hrun]

/-- What a sample of `mw` has brought about before the levers follow: its readings, and the run of excess. -/
def State.judged (s : State) (mv mgt vio current mw : Nat) : State :=
  let a := s.noteMetered.sampled mv mgt vio current mw
  (a.runAfter mw (a.num (powerKey 2))).excessNoted

theorem State.noteMetered_limitNow (s : State) : s.noteMetered.limitNow = s.limitNow := by
  have h := s.noteMetered_noted
  obtain ⟨_, hp⟩ := h.power
  exact State.limitNow_congr (by rw [hp]) (by rw [hp]) (h.num _ (by decide))

theorem State.judged_eq (s : State) (mv mgt vio current mw : Nat) : s.judged mv mgt vio current mw =
    ((s.noteMetered.sampled mv mgt vio current mw).runAfter mw s.limitNow).excessNoted := by
  have hlimit : (s.noteMetered.sampled mv mgt vio current mw).num (powerKey 2) = s.limitNow := by
    rw [State.num_sampled, State.num_readingsStored, if_pos rfl, State.noteMetered_limitNow]
  rw [← hlimit]
  rfl

theorem State.num_judged (s : State) (mv mgt vio current mw : Nat) {k : Nat} (h : k ≠ powerKey 7) :
    (s.judged mv mgt vio current mw).num k = (s.noteMetered.readingsStored mv mgt vio current (mw / 1000 % 65536)).num k := by
  rw [State.judged_eq, State.num_excessNoted_other _ h, State.num_runAfter, State.num_sampled]

theorem State.judged_now (s : State) (mv mgt vio current mw : Nat) : (s.judged mv mgt vio current mw).now = s.now := by
  rw [State.judged_eq, State.excessNoted_now, State.runAfter_now, State.sampled_now, s.noteMetered_noted.now]

theorem State.judged_sampleMw (s : State) (mv mgt vio current mw : Nat) : (s.judged mv mgt vio current mw).power.sampleMw = mw := by
  rw [State.judged_eq, State.excessNoted_power, State.runAfter_sampleMw, State.sampled_power]

theorem State.judged_goodSamples (s : State) (mv mgt vio current mw : Nat) :
    (s.judged mv mgt vio current mw).power.goodSamples = s.power.goodSamples := by
  obtain ⟨_, hp⟩ := s.noteMetered_noted.power
  rw [State.judged_eq, State.excessNoted_power, State.runAfter_goodSamples, State.sampled_power, hp]

theorem State.judged_over {s : State} (mv mgt vio current : Nat) {mw : Nat} (h : s.limitNow * 1000 < mw) :
    (s.judged mv mgt vio current mw).power.runStart = some (s.power.runStart.getD s.now) := by
  obtain ⟨_, hp⟩ := s.noteMetered_noted.power
  rw [State.judged_eq, State.excessNoted_power, State.runAfter_over h, State.sampled_power, State.sampled_now, hp, s.noteMetered_noted.now]

theorem State.judged_calm {s : State} (mv mgt vio current : Nat) {mw : Nat} (h : mw ≤ s.limitNow * 1000)
    (hrun : s.power.runStart = none) : (s.judged mv mgt vio current mw).power.runStart = none := by
  obtain ⟨_, hp⟩ := s.noteMetered_noted.power
  rw [State.judged_eq, State.excessNoted_power]
  exact State.runAfter_calm h (by rw [State.sampled_power, hp]; exact hrun)

/-- POWER_SAMPLE: the sample is judged, and the levers follow. -/
theorem exec_powerSample {s t : State} {dt mv mgt vio current mw : Nat} (ht : s.tick dt = t) (h : t.startup.stage ≠ .off)
    (hmw : mw = mv * current / 10) : exec (.powerSample dt mv mgt vio current) s =
      .next ((t.judged mv mgt vio current mw).leversAfter mw t.limitNow).noteMetered := by
  have hlimit : (t.judged mv mgt vio current mw).num (powerKey 2) = t.limitNow := by
    rw [State.num_judged _ _ _ _ _ _ (by decide), State.num_readingsStored, if_pos rfl, State.noteMetered_limitNow]
  show execPowerSample dt mv mgt vio current s = _
  rw [← hlimit]
  subst ht hmw
  unfold execPowerSample
  rw [if_neg h]
  rfl

/-- What a sample leaves once the levers have followed, but for the levers. -/
theorem State.afterSample_governed (t : State) (mv mgt vio current mw : Nat) :
    Governed (t.judged mv mgt vio current mw) ((t.judged mv mgt vio current mw).leversAfter mw t.limitNow).noteMetered :=
  (State.leversAfter_governed _ _ _).trans (State.noteMetered_noted _).governed

theorem State.lever_noteMetered (s : State) (i : Nat) : s.noteMetered.lever i = s.lever i := by
  unfold State.lever
  rw [s.noteMetered_noted.num _ (by decide)]

/-- During a run of excess the levers stand as the sample engages them. -/
theorem State.lever_afterSample {t : State} {mv mgt vio current mw i : Nat} (hover : t.limitNow * 1000 < mw) (hi : i ≤ 3)
    (h : leverAt i ≤ (t.now - t.power.runStart.getD t.now) / 1000 ∨ (i = 1 ∧ 1850000 < mw)) :
    ((t.judged mv mgt vio current mw).leversAfter mw t.limitNow).noteMetered.lever i = true := by
  have hrun := t.judged_over mv mgt vio current hover
  have hsome : (t.judged mv mgt vio current mw).power.runStart.isSome = true := by rw [hrun]; rfl
  have hexcess : (t.judged mv mgt vio current mw).excess = (t.now - t.power.runStart.getD t.now) / 1000 := by
    unfold State.excess
    rw [hrun, State.judged_now]
  rw [State.lever_noteMetered]
  unfold State.lever
  rw [State.num_leversAfter_run _ _ hsome]
  exact State.lever_engaged hsome hi (by rw [hexcess]; exact h)

/-- A sample's readings are stored, the limit taken, and the levers follow the run of excess (R434, R437, R439). -/
theorem powerSample_acts {s t : State} {dt mv mgt vio cur mw : Nat} (ht : s.tick dt = t) (hstage : t.startup.stage ≠ .off)
    (hmw : mw = mv * cur / 10) :
    ∃ u, exec (.powerSample dt mv mgt vio cur) s = .next u ∧ u.num (objKey 0x1130 1) = mv % 65536 ∧
      u.num (objKey 0x1130 2) = mgt % 65536 ∧ u.num (objKey 0x1130 3) = vio % 65536 ∧ u.num (objKey 0x1130 4) = cur % 65536 ∧
      u.num (powerKey 3) = mw / 1000 % 65536 ∧ u.num (powerKey 4) = max (mw / 1000 % 65536) (t.num (powerKey 4)) ∧
      u.num (powerKey 2) = t.limitNow ∧ u.power.sampleMw = mw ∧
      (t.limitNow * 1000 < mw → u.power.runStart = some (t.power.runStart.getD t.now) ∧
        ∀ e, e = (t.now - t.power.runStart.getD t.now) / 1000 →
          (1900 ≤ e → u.lever 0 = true ∧ u.lever 1 = true ∧ u.lever 2 = true ∧ u.lever 3 = true) ∧
          (1800 ≤ e → u.lever 0 = true ∧ u.lever 1 = true ∧ u.lever 2 = true) ∧
          (1500 ≤ e → u.lever 0 = true ∧ u.lever 1 = true) ∧ (1000 ≤ e → u.lever 0 = true)) ∧
      (1850000 < mw → t.limitNow * 1000 < mw → u.lever 1 = true) ∧
      (t.power.runStart = none → mw ≤ 1850000 → mw * 100 ≤ 95 * t.limitNow * 1000 → 9 ≤ t.power.goodSamples →
        u.num (powerKey 5) = t.num (powerKey 5) - (if t.num (powerKey 5) = 0 then 0 else 2 ^ log2 (t.num (powerKey 5)))) := by
  have hnoted := t.noteMetered_noted
  have hgov := t.afterSample_governed mv mgt vio cur mw
  have hread : ∀ k ∉ governorKeys, (((t.judged mv mgt vio cur mw).leversAfter mw t.limitNow).noteMetered).num k =
      (t.noteMetered.readingsStored mv mgt vio cur (mw / 1000 % 65536)).num k := fun k hk =>
    (hgov.num k hk).trans (t.num_judged mv mgt vio cur mw fun e => hk (e ▸ by decide))
  simp only [State.num_readingsStored, hnoted.num (powerKey 4) (by decide), State.noteMetered_limitNow] at hread
  refine ⟨_, exec_powerSample ht hstage hmw, hread _ (by decide), hread _ (by decide), hread _ (by decide), hread _ (by decide),
    hread _ (by decide), hread _ (by decide), hread _ (by decide), hgov.sampleMw.trans (t.judged_sampleMw ..), fun hover => ⟨?_, ?_⟩, ?_, ?_⟩
  · exact hgov.runStart.trans (t.judged_over mv mgt vio cur hover)
  · rintro e rfl
    have lever : ∀ i ≤ 3, leverAt i ≤ (t.now - t.power.runStart.getD t.now) / 1000 → _ := fun i hi h =>
      State.lever_afterSample (mv := mv) (mgt := mgt) (vio := vio) (current := cur) hover hi (.inl h)
    refine ⟨fun h => ⟨lever 0 (by decide) ?_, lever 1 (by decide) ?_, lever 2 (by decide) ?_, lever 3 (by decide) h⟩,
      fun h => ⟨lever 0 (by decide) ?_, lever 1 (by decide) ?_, lever 2 (by decide) h⟩,
      fun h => ⟨lever 0 (by decide) ?_, lever 1 (by decide) h⟩, lever 0 (by decide)⟩
    all_goals exact Nat.le_trans (by decide) h
  · exact fun hhigh hover => State.lever_afterSample hover (by decide) (.inr ⟨rfl, hhigh⟩)
  · intro hrun hmax hfit hgood
    have hcalm := t.judged_calm mv mgt vio cur (mw := mw) (by omega) hrun
    have h5 : (t.judged mv mgt vio cur mw).num (powerKey 5) = t.num (powerKey 5) := by
      rw [State.num_judged _ _ _ _ _ _ (by decide), State.num_readingsStored]
      exact hnoted.num _ (by decide)
    rw [(State.noteMetered_noted _).num _ (by decide), State.num_leversAfter_calm hcalm hmax hfit (by rw [State.judged_goodSamples]; exact hgood), h5]

end Sys2Proof.Machine
end

section
/-! PROOFS. Temperatures (R269, R448, R449): the trip, and the samples of the clusters' and the stacks' sensors. -/
namespace Sys2Proof.Machine

/-! ### The thermal interlock (R449) -/

theorem State.num_clearNums (s : State) (lo hi k : Nat) : (s.clearNums lo hi).num k = if lo ≤ k ∧ k ≤ hi then dfltNum k else s.num k := by
  unfold State.clearNums State.num
  rw [get_keep]
  by_cases h : lo ≤ k ∧ k ≤ hi
  · rw [if_neg (by simp; omega), if_pos h]
  · rw [if_pos (by simp; omega), if_neg h]

/-- Losing jobs changes the state and close objects of those jobs alone. -/
theorem foldl_loseJob_num {k : Nat} : ∀ {l : List Nat} (s : State), (∀ j ∈ l, k ≠ jobStateKey j ∧ k ≠ jobCloseKey j) →
    (l.foldl State.loseJob s).num k = s.num k
  | [], _, _ => rfl
  | j :: l, s, h => by
    obtain ⟨hs, hc⟩ := h j List.mem_cons_self
    rw [List.foldl_cons, foldl_loseJob_num _ fun i hi => h i (List.mem_cons_of_mem _ hi), State.num_loseJob]
    simp [hs, hc]

theorem State.num_firmwareLog_other (s : State) (b : Bytes) {k : Nat} (h : k ≠ objKey 0x4003 1) : (s.firmwareLog b).num k = s.num k := by
  unfold State.firmwareLog
  extract_lets w
  show w.num k = s.num k
  simp only [w]
  split
  · rfl
  · exact State.num_bump_other _ _ h

/-- The state in which the regulators going off has lost every job. -/
def State.jobsLost (s : State) : State := (List.range 64).foldl State.loseJob s

/-- What the regulators going off does to the objects. -/
theorem State.num_regulatorsOff (s : State) (k : Nat) : s.regulatorsOff.num k =
    (((s.jobsLost.dropEngineState.clearNums (objKey 0x2100 3) (objKey 0x2100 7)).setNum tenancyKey 0).clearNums (objKey 0x3020 1)
      (objKey 0x3025 1)).num k := by
  unfold State.regulatorsOff
  rw [← State.jobsLost]
  generalize s.jobsLost = a
  rfl

theorem State.regulatorsOff_poweredDown (s : State) : PoweredDown s.regulatorsOff := by
  have hten : s.regulatorsOff.num tenancyKey = 0 := by
    rw [State.num_regulatorsOff, State.num_clearNums, if_neg (by decide), State.num_setNum_same]
  unfold PoweredDown
  rw [hten]
  unfold State.regulatorsOff
  rw [← State.jobsLost]
  generalize s.jobsLost = a
  exact ⟨rfl, rfl, rfl, rfl, rfl, rfl, rfl⟩

theorem State.num_dropEngineState (s : State) (k : Nat) : s.dropEngineState.num k = s.num k := rfl

/-- The objects of the stacks are none that go with the regulators. -/
theorem State.num_regulatorsOff_stack (s : State) {k : Nat} (hlo : objKey 0x2500 0 ≤ k) (hhi : k < objKey 0x3000 0) :
    s.regulatorsOff.num k = s.num k := by
  simp only [objKey] at hlo hhi
  have hlost : s.jobsLost.num k = s.num k := foldl_loseJob_num s fun j hj => by
    have := List.mem_range.1 hj
    simp only [jobStateKey, jobCloseKey, objKey]
    omega
  rw [State.num_regulatorsOff, State.num_clearNums, if_neg (by simp only [objKey]; omega),
    State.num_setNum_other _ _ (by simp only [tenancyKey, objKey]; omega), State.num_clearNums, if_neg (by simp only [objKey]; omega)]
  rw [State.num_dropEngineState, hlost]

theorem PoweredDown.of_frame {s u : State} (h : PoweredDown s) (hs : u.startup = s.startup) (hc : u.cmds = s.cmds)
    (hl : u.lookups = s.lookups) (ht : u.tables = s.tables) (hst : u.streams = s.streams) (ha : u.arith = s.arith)
    (hn : u.num tenancyKey = s.num tenancyKey) : PoweredDown u := by
  unfold PoweredDown
  rw [hs, hc, hl, ht, hst, ha, hn]
  exact h

/-- A trip is the regulators going off, with both pins, the state and the record. -/
theorem State.trip_eq {s : State} (u : UnitId) (h : s.tripped = false) : ∃ b : Bytes,
    s.trip u = (({ s.regulatorsOff with pins := { fault := true, thermTrip := true } } : State).setNum startupKey 3).firmwareLog b := by
  unfold State.trip
  rw [if_neg (by simp [h])]
  generalize s.regulatorsOff = w
  exact ⟨_, rfl⟩

/-- The trip takes the regulators off, asserts both pins and is the device's state from then on. -/
theorem State.trip_trips {s : State} (u : UnitId) (h : s.tripped = false) :
    (s.trip u).tripped = true ∧ PoweredDown (s.trip u) ∧ (s.trip u).pins = { fault := true, thermTrip := true } := by
  obtain ⟨b, e⟩ := State.trip_eq u h
  have hoff := s.regulatorsOff_poweredDown
  rw [e]
  generalize s.regulatorsOff = w at hoff
  refine ⟨?_, ?_, State.firmwareLog_pins _ _⟩
  · unfold State.tripped
    rw [State.num_firmwareLog_other _ _ (by decide), State.num_setNum_same]
    rfl
  · refine hoff.of_frame (State.firmwareLog_startup _ _) (State.firmwareLog_cmds _ _) (State.firmwareLog_lookups _ _)
      (State.firmwareLog_tables _ _) (State.firmwareLog_streams _ _) (State.firmwareLog_arith _ _) ?_
    rw [State.num_firmwareLog_other _ _ (by decide), State.num_setNum_other _ _ (by decide)]
    rfl

theorem State.num_trip_stack {s : State} (u : UnitId) (h : s.tripped = false) {k : Nat} (hlo : objKey 0x2500 0 ≤ k)
    (hhi : k < objKey 0x3000 0) : (s.trip u).num k = s.num k := by
  obtain ⟨b, e⟩ := State.trip_eq u h
  have hoff := s.num_regulatorsOff_stack hlo hhi
  rw [e, ← hoff]
  generalize s.regulatorsOff = w
  simp only [objKey] at hlo hhi
  rw [State.num_firmwareLog_other _ _ (by simp only [objKey]; omega), State.num_setNum_other _ _ (by simp only [startupKey, objKey]; omega)]
  rfl

/-! ### Sensors that have been hot -/

theorem find_put_none {α : Type} (m : Map α) (k : Nat) : Map.find (Map.put m k none) k = none := by
  induction m with
  | nil => rfl
  | cons e m ih =>
    obtain ⟨j, w⟩ := e
    have step : ∀ m : Map α, j ≠ k → Map.find ((j, w) :: m) k = Map.find m k := fun m h => by simp [Map.find, h]
    unfold Map.put
    split
    · exact ih
    · split
      · exact (step _ (Ne.symm ‹_›)).trans ih
      · exact (step _ (Ne.symm ‹_›)).trans ih

/-- A sensor that reads no longer hot has not been hot for any time. -/
theorem find_hotSince_cool (m : Map Ns) (k now : Nat) {hot : Bool} (h : hot = false) : Map.find (hotSince m k hot now) k = none := by
  subst h
  exact find_put_none m k

/-! ### Temperatures (R269, R448) -/

/-- The state after a cluster's sensor has been read: the readings, the time it has been hot, and the hottest of its die. -/
def State.logicRead (s : State) (cluster : Nat) (temp : Int) : State :=
  let s : State := { s with power := { s.power with
    logicTemps := Map.put s.power.logicTemps cluster (some temp)
    logicHot := hotSince s.power.logicHot cluster (105 < temp) s.now } }
  s.setNum (objKey (0x1110 + cluster / 4) 1) (i16 (s.hottest (cluster / 4)))

/-- The MHz withheld from a cluster after a reading. -/
def skipAfter (temp : Int) (skip : Nat) : Nat := if 100 < temp then min 840 (skip + 105) else if temp ≤ 97 then skip - 105 else skip

/-- A cluster sensor that trips the device: at 110 °C, or after 100 ms above 105 °C. -/
def State.logicTrips (s : State) (cluster : Nat) (temp : Int) : Bool :=
  110 ≤ temp || (Map.find s.power.logicHot cluster).any (fun t => t + 100000000 ≤ s.now)

theorem logicRead_tripped (s : State) {cluster : Nat} (h : cluster < 32) (temp : Int) : (s.logicRead cluster temp).tripped = s.tripped := by
  have hk : startupKey ≠ objKey (0x1110 + cluster / 4) 1 := by simp only [startupKey, objKey]; omega
  unfold State.tripped State.logicRead
  rw [State.num_setNum_other _ _ hk]
  rfl

theorem logicRead_cool (s : State) (cluster : Nat) {temp : Int} (h : temp ≤ 105) : (s.logicRead cluster temp).logicTrips cluster temp = false := by
  have hfind : Map.find (s.logicRead cluster temp).power.logicHot cluster = none :=
    find_hotSince_cool s.power.logicHot cluster s.now (decide_eq_false (by omega))
  unfold State.logicTrips
  rw [hfind]
  simp only [Option.any_none, Bool.or_false, decide_eq_false_iff_not]
  omega

/-- LOGIC_TEMP_SAMPLE of a cluster: the device trips, or the cluster's throttling takes its step. -/
theorem exec_logicTempSample {s t : State} {dt k : Nat} {temp : Int} (ht : s.tick dt = t) (hstage : t.startup.stage ≠ .off) (hk : k < 32) :
    ((t.logicRead k temp).logicTrips k temp = true ∧
      exec (.logicTempSample dt k temp) s = .next ((t.logicRead k temp).trip ⟨.cluster, k⟩)) ∨
    ((t.logicRead k temp).logicTrips k temp = false ∧ ∃ u, exec (.logicTempSample dt k temp) s = .next u ∧
      Map.get 0 u.power.clusterSkip k = skipAfter temp (Map.get 0 t.power.clusterSkip k)) := by
  subst ht
  have hexec : exec (.logicTempSample dt k temp) s = execLogicTempSample dt k temp s := rfl
  rw [hexec]
  unfold execLogicTempSample
  rw [if_neg hstage, if_neg (by omega)]
  generalize s.tick dt = t
  cases htrip : (t.logicRead k temp).logicTrips k temp with
  | true => exact .inl ⟨rfl, if_pos htrip⟩
  | false =>
    have hnot : ¬ (t.logicRead k temp).logicTrips k temp = true := by rw [htrip]; exact Bool.false_ne_true
    exact .inr ⟨rfl, _, if_neg hnot, Map.get_set_same _ _ _ _⟩

/-- LOGIC_TEMP_SAMPLE of the I/O die: stored alone. -/
theorem exec_logicTempSample_iod {s t : State} {dt k : Nat} {temp : Int} (ht : s.tick dt = t) (hstage : t.startup.stage ≠ .off)
    (hk : 32 ≤ k) : exec (.logicTempSample dt k temp) s = .next (t.setNum (objKey 0x1118 1) (i16 temp)) := by
  subst ht
  have hexec : exec (.logicTempSample dt k temp) s = execLogicTempSample dt k temp s := rfl
  rw [hexec]
  unfold execLogicTempSample
  rw [if_neg hstage, if_pos hk]

/-- The refresh rate of a stack after a reading (R269). -/
def State.refreshAfter (s : State) (stack : Nat) (temp : Int) : State :=
  if 85 < temp then s.setNum (objKey (0x2510 + stack) 2) 2 else if temp ≤ 83 then s.setNum (objKey (0x2510 + stack) 2) 1 else s

/-- The state after a stack's sensor has been read: the reading, the refresh rate and the time it has been hot. -/
def State.stackRead (s : State) (stack : Nat) (temp : Int) : State :=
  let s := (s.setNum (objKey (0x2510 + stack) 1) (i16 temp)).refreshAfter stack temp
  { s with power := { s.power with stackHot := hotSince s.power.stackHot stack (95 < temp) s.now } }

/-- A stack sensor that trips the device: at 100 °C, or after 1 s above 95 °C. -/
def State.stackTrips (s : State) (stack : Nat) (temp : Int) : Bool :=
  100 ≤ temp || (Map.find s.power.stackHot stack).any (fun t => t + 1000000000 ≤ s.now)

/-- The metering step of a stack after a reading. -/
def throttleAfter (temp : Int) (was : Nat) : Nat :=
  if 94 < temp then 2 else if 92 < temp then max was 1 else if temp ≤ 90 then 0 else was

theorem State.num_refreshAfter (s : State) (stack : Nat) (temp : Int) (k : Nat) : (s.refreshAfter stack temp).num k =
    if k = objKey (0x2510 + stack) 2 ∧ 85 < temp then 2 else if k = objKey (0x2510 + stack) 2 ∧ temp ≤ 83 then 1 else s.num k := by
  unfold State.refreshAfter
  by_cases hhigh : 85 < temp
  · simp only [hhigh, if_true, State.num_setNum, and_true, show ¬ temp ≤ 83 by omega, and_false, if_false]
  · by_cases hlow : temp ≤ 83
    · simp only [hhigh, hlow, if_true, State.num_setNum, and_true, and_false, if_false]
    · simp only [hhigh, hlow, and_false, if_false]

theorem State.num_stackRead (s : State) (stack : Nat) (temp : Int) (k : Nat) : (s.stackRead stack temp).num k =
    if k = objKey (0x2510 + stack) 2 ∧ 85 < temp then 2 else if k = objKey (0x2510 + stack) 2 ∧ temp ≤ 83 then 1
    else if k = objKey (0x2510 + stack) 1 then i16 temp else s.num k :=
  ((s.setNum (objKey (0x2510 + stack) 1) (i16 temp)).num_refreshAfter stack temp k).trans (by rw [State.num_setNum])

theorem State.refreshAfter_power (s : State) (stack : Nat) (temp : Int) : (s.refreshAfter stack temp).power = s.power := by
  unfold State.refreshAfter
  split
  · rfl
  · split <;> rfl

theorem State.stackRead_throttled (s : State) (stack : Nat) (temp : Int) :
    (s.stackRead stack temp).power.throttledStacks = s.power.throttledStacks := by
  show ((s.setNum (objKey (0x2510 + stack) 1) (i16 temp)).refreshAfter stack temp).power.throttledStacks = _
  rw [State.refreshAfter_power]
  rfl

theorem stackRead_tripped (s : State) {stack : Nat} (h : stack < 32) (temp : Int) : (s.stackRead stack temp).tripped = s.tripped := by
  unfold State.tripped
  rw [State.num_stackRead, if_neg, if_neg, if_neg]
  all_goals simp only [startupKey, objKey]; omega

theorem stackRead_cool (s : State) (stack : Nat) {temp : Int} (h : temp ≤ 95) : (s.stackRead stack temp).stackTrips stack temp = false := by
  have hfind : Map.find (s.stackRead stack temp).power.stackHot stack = none := find_hotSince_cool _ stack _ (decide_eq_false (by omega))
  unfold State.stackTrips
  rw [hfind]
  simp only [Option.any_none, Bool.or_false, decide_eq_false_iff_not]
  omega

/-- The state after a stack's controller has taken its metering step, reported where it is a step up. -/
def State.throttled (s : State) (stack : Nat) (temp : Int) : State :=
  let was := Map.get 0 s.power.throttledStacks stack
  let s := if was < throttleAfter temp was then s.deviceReport ⟨.memory, stack⟩ 0x8003 else s
  { s with power := { s.power with throttledStacks := Map.set 0 s.power.throttledStacks stack (throttleAfter temp was) } }

theorem State.throttled_step (s : State) (stack : Nat) (temp : Int) :
    Map.get 0 (s.throttled stack temp).power.throttledStacks stack = throttleAfter temp (Map.get 0 s.power.throttledStacks stack) :=
  Map.get_set_same _ _ _ _

theorem State.num_throttled (s : State) (stack : Nat) (temp : Int) {k : Nat} (h : k ≠ objKey 0x4000 7) :
    (s.throttled stack temp).num k = s.num k := by
  unfold State.throttled
  extract_lets was w power
  show w.num k = s.num k
  simp only [w]
  split
  · exact State.num_deviceReport_other _ _ _ h
  · rfl

/-- STACK_TEMP_SAMPLE: the device trips, or the stack's controller takes its metering step. -/
theorem exec_stackTempSample {s t : State} {dt k : Nat} {temp : Int} (ht : s.tick dt = t) (hk : k < 32) (hpow : t.powered = true) :
    exec (.stackTempSample dt k temp) s = .next (if (t.stackRead k temp).stackTrips k temp then (t.stackRead k temp).trip ⟨.memory, k⟩
      else (t.stackRead k temp).throttled k temp) := by
  subst ht
  have hexec : exec (.stackTempSample dt k temp) s = execStackTempSample dt k temp s := rfl
  rw [hexec, apply_ite Host.Outcome.next]
  unfold execStackTempSample
  rw [if_neg (by rw [hpow]; simp; omega)]
  rfl

/-- The objects of a stack read as the sample left them, whether the device trips or not. -/
theorem num_stackTempSample {t : State} {k : Nat} (temp : Int) (hk : k < 32) (htrip : t.tripped = false) {i : Nat} (hi : i < 256) :
    (if (t.stackRead k temp).stackTrips k temp then (t.stackRead k temp).trip ⟨.memory, k⟩
      else (t.stackRead k temp).throttled k temp).num (objKey (0x2510 + k) i) = (t.stackRead k temp).num (objKey (0x2510 + k) i) := by
  split
  · exact State.num_trip_stack _ ((stackRead_tripped t hk temp).trans htrip) (by simp only [objKey]; omega) (by simp only [objKey]; omega)
  · exact State.num_throttled _ _ _ (by simp only [objKey]; omega)

/-! ### What the samples do -/

/-- A cluster's reading trips the device or steps its throttling (R448, R449). -/
theorem logicTempSample_acts {s t : State} {dt k : Nat} {temp : Int} (ht : s.tick dt = t) (hstage : t.startup.stage ≠ .off) (hk : k < 32)
    (htrip : t.tripped = false) :
    ∃ u, exec (.logicTempSample dt k temp) s = .next u ∧
      (110 ≤ temp → u.tripped = true ∧ PoweredDown u ∧ u.pins = { fault := true, thermTrip := true }) ∧
      (temp ≤ 105 → Map.get 0 u.power.clusterSkip k =
        if 100 < temp then min 840 (Map.get 0 t.power.clusterSkip k + 105)
        else if temp ≤ 97 then Map.get 0 t.power.clusterSkip k - 105 else Map.get 0 t.power.clusterSkip k) := by
  rcases exec_logicTempSample (temp := temp) ht hstage hk with ⟨htrips, e⟩ | ⟨hcalm, u, e, hskip⟩
  · refine ⟨_, e, fun _ => State.trip_trips _ ((logicRead_tripped t hk temp).trans htrip), fun hcool => ?_⟩
    rw [logicRead_cool t k hcool] at htrips
    exact absurd htrips (by decide)
  · refine ⟨u, e, fun hhot => ?_, fun _ => hskip⟩
    simp [State.logicTrips, hhot] at hcalm

/-- A stack's reading is stored, sets its refresh rate, and throttles it or trips the device (R269, R448, R449). -/
theorem stackTempSample_acts {s t : State} {dt k : Nat} {temp : Int} (ht : s.tick dt = t) (hk : k < 32) (hpow : t.powered = true)
    (htrip : t.tripped = false) :
    ∃ u, exec (.stackTempSample dt k temp) s = .next u ∧ u.num (objKey (0x2510 + k) 1) = i16 temp ∧
      (85 < temp → u.num (objKey (0x2510 + k) 2) = 2) ∧ (temp ≤ 83 → u.num (objKey (0x2510 + k) 2) = 1) ∧
      (83 < temp → temp ≤ 85 → u.num (objKey (0x2510 + k) 2) = t.num (objKey (0x2510 + k) 2)) ∧
      (100 ≤ temp → u.tripped = true ∧ PoweredDown u) ∧
      (94 < temp → temp ≤ 95 → Map.get 0 u.power.throttledStacks k = 2) ∧ (temp ≤ 90 → Map.get 0 u.power.throttledStacks k = 0) := by
  have h1 := num_stackTempSample temp hk htrip (i := 1) (by decide)
  have h2 := num_stackTempSample temp hk htrip (i := 2) (by decide)
  have hne : objKey (0x2510 + k) 1 ≠ objKey (0x2510 + k) 2 := by simp only [objKey]; omega
  have step : temp ≤ 95 → Map.get 0 (if (t.stackRead k temp).stackTrips k temp then (t.stackRead k temp).trip ⟨.memory, k⟩
      else (t.stackRead k temp).throttled k temp).power.throttledStacks k = throttleAfter temp (Map.get 0 t.power.throttledStacks k) := by
    intro hcool
    rw [if_neg (by rw [stackRead_cool t k hcool]; exact Bool.false_ne_true), State.throttled_step, State.stackRead_throttled]
  refine ⟨_, exec_stackTempSample ht hk hpow, ?_, fun h => ?_, fun h => ?_, fun h h' => ?_, fun h => ?_, fun h h' => ?_, fun h => ?_⟩
  · rw [h1, State.num_stackRead]
    simp [hne]
  · rw [h2, State.num_stackRead, if_pos ⟨rfl, h⟩]
  · rw [h2, State.num_stackRead, if_neg (by omega), if_pos ⟨rfl, h⟩]
  · rw [h2, State.num_stackRead, if_neg (by omega), if_neg (by omega), if_neg hne.symm]
  · have htrips : (t.stackRead k temp).stackTrips k temp = true := by simp [State.stackTrips, h]
    rw [if_pos htrips]
    obtain ⟨htripped, hdown, -⟩ := State.trip_trips ⟨.memory, k⟩ ((stackRead_tripped t hk temp).trans htrip)
    exact ⟨htripped, hdown⟩
  · rw [step h', throttleAfter, if_pos h]
  · rw [step (by omega), throttleAfter, if_neg (by omega), if_neg (by omega), if_pos h]

end Sys2Proof.Machine
end

section
/-! PROOFS. The ends of the coolant's cap (R447) and the die links (R20, R28), and the statement on power and temperature (O29). -/
namespace Sys2Proof.Machine

/-! ### The end of the coolant's cap (R447) -/

/-- The limit once a cap has ended is that of the caps that are left. -/
theorem State.uncapLimit_limitNow (s : State) : s.uncapLimit.num (powerKey 2) = s.uncapLimit.limitNow := by
  have h1 : s.uncapLimit.num (powerKey 1) = s.num (powerKey 1) := State.num_setNum_other _ _ (by decide)
  have hlimit : s.uncapLimit.limitNow = s.limitNow := State.limitNow_congr rfl rfl h1
  rw [hlimit]
  exact State.num_setNum_same _ _ _

/-- The state once a coolant report is stale. -/
def State.coolantStale (s : State) : State :=
  (({ s with power := { s.power with coolantCap := false, coolantBack := none, coolantAt := none } } : State).setFlag (objKey 0x1120 3)
    false).uncapLimit

theorem exec_coolantReportStale {s t : State} {dt at_ : Nat} (ht : s.tick dt = t) (hat : t.power.coolantAt = some at_)
    (h : at_ + 5000000000 ≤ t.now) : exec (.coolantReportStale dt) s = .next t.coolantStale := by
  subst ht
  have hexec : exec (.coolantReportStale dt) s = execCoolantReportStale dt s := rfl
  rw [hexec]
  unfold execCoolantReportStale
  simp only [hat, if_pos h]
  rfl

/-- The state once the coolant's cap is taken off. -/
def State.coolantUncapped (s : State) : State :=
  ({ s with power := { s.power with coolantCap := false, coolantBack := none } } : State).uncapLimit

theorem exec_coolantCapRelease {s t : State} {dt back : Nat} (ht : s.tick dt = t) (hback : t.power.coolantBack = some back) :
    exec (.coolantCapRelease dt) s = .next (if back + 10000000000 ≤ t.now then t.coolantUncapped else t) := by
  subst ht
  have hexec : exec (.coolantCapRelease dt) s = execCoolantCapRelease dt s := rfl
  rw [hexec, apply_ite Host.Outcome.next]
  unfold execCoolantCapRelease
  simp only [hback]
  rfl

/-! ### Die-to-die links (R20, R28) -/

/-- The state objects of modules lie between those of the sensors and the retry counts. -/
theorem moduleKey_bounds {m : Nat} (h : moduleExists m = true) : objKey 0x1250 0 < moduleKey m ∧ moduleKey m < objKey 0x1259 0 := by
  have hm : m < 34 := by
    simp only [moduleExists, Bool.and_eq_true, decide_eq_true_eq] at h
    omega
  unfold moduleKey
  split
  · simp only [objKey]; omega
  · simp only [objKey]; omega

/-- The state once the retries of a report are counted. -/
def State.retriesCounted (s : State) (rx tx : Nat) : State := (s.bump (objKey 0x1259 1) rx).bump (objKey 0x1259 2) tx

theorem State.retriesCounted_rose (s : State) (rx tx : Nat) :
    Rose s (s.retriesCounted rx tx) (objKey 0x1259 1) rx ∧ Rose s (s.retriesCounted rx tx) (objKey 0x1259 2) tx := by
  have h21 : objKey 0x1259 2 ≠ objKey 0x1259 1 := by decide
  refine ⟨fun h => ?_, fun h => ?_⟩
  · exact (State.num_bump_other _ _ h21.symm).trans (State.num_bump_same _ _ _ h)
  · have hn : (s.bump (objKey 0x1259 1) rx).num (objKey 0x1259 2) = s.num (objKey 0x1259 2) := State.num_bump_other _ _ h21
    rw [← hn] at h ⊢
    exact State.num_bump_same _ _ _ h

theorem State.num_retriesCounted_other (s : State) (rx tx : Nat) {k : Nat} (h : k < objKey 0x1259 0 ∨ objKey 0x125A 0 ≤ k) :
    (s.retriesCounted rx tx).num k = s.num k := by
  simp only [objKey] at h
  exact (State.num_bump_other _ _ (by simp only [objKey]; omega)).trans (State.num_bump_other _ _ (by simp only [objKey]; omega))

theorem Rose.of_num_eq {t u v : State} {k n : Nat} (h : Rose t u k n) (hv : v.num k = u.num k) : Rose t v k n := fun hk => hv.trans (h hk)

/-- A module in one state goes to another. -/
def State.moduleMoves (s : State) (m a b : Nat) : State := if s.num (moduleKey m) = a then s.setNum (moduleKey m) b else s

/-- A module that has failed, an execution fault. -/
def State.moduleFails (s : State) (m : Nat) : State :=
  let s := s.setNum (moduleKey m) 3
  s.execFault (s.newReport ⟨.ucie, m⟩ 0x4001 4 0xFF)

/-- What the retries have come to shows in the module's state. -/
def State.retriesShow (s : State) (m : Nat) : Retries → State
  | .over => s.moduleMoves m 2 1
  | .underWay => s.moduleMoves m 1 2
  | .exhausted => s.moduleFails m

/-- UCIE_RETRY_EXHAUSTED: the retries are counted, and show. -/
theorem exec_ucieRetryExhausted {s t : State} {dt m : Nat} (rx tx : Nat) (r : Retries) (ht : s.tick dt = t) (hm : moduleExists m = true)
    (hp : t.powered = true) : exec (.ucieRetryExhausted dt m ⟨rx, tx⟩ r) s = .next ((t.retriesCounted rx tx).retriesShow m r) := by
  subst ht
  have hexec : exec (.ucieRetryExhausted dt m ⟨rx, tx⟩ r) s = execUcieRetryExhausted dt m ⟨rx, tx⟩ r s := rfl
  rw [hexec]
  unfold execUcieRetryExhausted
  rw [if_neg (by rw [hm, hp]; decide)]
  cases r <;> rfl

/-- A module's state stands apart from the retry counts. -/
theorem num_setModule_counts (s : State) {m : Nat} (hm : moduleExists m = true) (v i : Nat) :
    (s.setNum (moduleKey m) v).num (objKey 0x1259 i) = s.num (objKey 0x1259 i) := by
  obtain ⟨-, hhi⟩ := moduleKey_bounds hm
  simp only [objKey] at hhi
  exact State.num_setNum_other _ _ (by simp only [objKey]; omega)

/-- A module that moves after its retries are counted: objects alone change, the counts by what was reported. -/
theorem moduleMoves_after_count (t : State) {m : Nat} (hm : moduleExists m = true) (rx tx a b : Nat) :
    let u := (t.retriesCounted rx tx).moduleMoves m a b
    u = { t with dict := u.dict } ∧ (t.num (moduleKey m) = a → u.num (moduleKey m) = b) ∧ Rose t u (objKey 0x1259 1) rx ∧
      Rose t u (objKey 0x1259 2) tx := by
  obtain ⟨hrx, htx⟩ := t.retriesCounted_rose rx tx
  have hmod := t.num_retriesCounted_other rx tx (.inl (moduleKey_bounds hm).2)
  unfold State.moduleMoves
  split
  · exact ⟨rfl, fun _ => State.num_setNum_same _ _ _, hrx.of_num_eq (num_setModule_counts _ hm b 1),
      htx.of_num_eq (num_setModule_counts _ hm b 2)⟩
  · exact ⟨rfl, fun h => absurd (hmod.trans h) ‹_›, hrx, htx⟩

/-- A fault that comes after changes to objects alone, none of them a job's state, comes between the states before and after. -/
theorem Faulted.of_dict {t w u : State} (h : Faulted w u) (hw : ∃ d, w = { t with dict := d }) (hj : ∀ j, j < 64 → w.job j = t.job j) :
    Faulted t u := by
  obtain ⟨hjobs, hqueues, hcmds, hlookups, hslots, hrec, hfences, htables, hbytes⟩ := h
  refine ⟨fun j hlt => by rw [hjobs j hlt, hj j hlt], ?_, hcmds, hlookups, hslots, hrec, ?_, ?_, ?_⟩
  all_goals obtain ⟨d, rfl⟩ := hw
  · exact hqueues
  · exact hfences
  · exact htables
  · exact hbytes

/-- Objects below those of the jobs read the same after an execution fault. -/
theorem State.num_execFault_low (s : State) (r : Report) {k : Nat} (h : k < objKey 0x2000 0) : (s.execFault r).num k = s.num k := by
  simp only [objKey] at h
  obtain ⟨a, -, -, hsame, -, hnum, -⟩ := s.execFault_eq r
  rw [hnum k (by simp only [objKey]; omega) (by simp only [objKey]; omega) (by simp only [objKey]; omega) (by simp only [objKey]; omega)]
  exact hsame k fun j => by simp only [jobStateKey, jobCloseKey, objKey]; omega

/-- A module that fails after its retries are counted. -/
theorem moduleFails_after_count (t : State) {m : Nat} (hm : moduleExists m = true) (rx tx : Nat) :
    let u := (t.retriesCounted rx tx).moduleFails m
    Faulted t u ∧ u.num (moduleKey m) = 3 ∧ Rose t u (objKey 0x1259 1) rx ∧ Rose t u (objKey 0x1259 2) tx := by
  obtain ⟨hrx, htx⟩ := t.retriesCounted_rose rx tx
  have hlow : moduleKey m < objKey 0x1259 0 := (moduleKey_bounds hm).2
  have hjobs : ∀ j, j < 64 → ((t.retriesCounted rx tx).setNum (moduleKey m) 3).job j = t.job j := fun j _ => by
    unfold State.job
    rw [State.num_setNum_other _ _ (by simp only [jobStateKey, objKey] at hlow ⊢; omega),
      t.num_retriesCounted_other rx tx (by simp only [jobStateKey, objKey]; omega)]
  unfold State.moduleFails
  extract_lets w
  have hcounts : ∀ r i, i ≤ 2 → (w.execFault r).num (objKey 0x1259 i) = (t.retriesCounted rx tx).num (objKey 0x1259 i) := fun r i _ =>
    (w.num_execFault_low r (by simp only [objKey]; omega)).trans (num_setModule_counts _ hm 3 i)
  refine ⟨(w.execFault_faulted _).of_dict ⟨_, rfl⟩ hjobs, ?_, hrx.of_num_eq (hcounts _ 1 (by decide)),
    htx.of_num_eq (hcounts _ 2 (by decide))⟩
  exact (w.num_execFault_low _ (Nat.lt_trans hlow (by decide))).trans (State.num_setNum_same _ _ _)

/-! ### What the commands do -/

/-- The report that has gone stale ends the coolant's cap (R447). -/
theorem coolantReportStale_acts {s t : State} {dt at_ : Nat} (ht : s.tick dt = t) (hat : t.power.coolantAt = some at_)
    (h : at_ + 5000000000 ≤ t.now) :
    ∃ u, exec (.coolantReportStale dt) s = .next u ∧ u.num (objKey 0x1120 3) = 0 ∧ u.power.coolantCap = false ∧
      u.power.coolantAt = none ∧ u.num (powerKey 2) = u.limitNow :=
  ⟨_, exec_coolantReportStale ht hat h, (State.num_setNum_other _ _ (by decide)).trans (State.num_setNum_same _ _ _), rfl, rfl,
    State.uncapLimit_limitNow _⟩

/-- Ten seconds after both values are back, and not before, the coolant's cap ends (R447). -/
theorem coolantCapRelease_acts {s t : State} {dt back : Nat} (ht : s.tick dt = t) (hback : t.power.coolantBack = some back) :
    (back + 10000000000 ≤ t.now → ∃ u, exec (.coolantCapRelease dt) s = .next u ∧ u.power.coolantCap = false ∧
      u.num (powerKey 2) = u.limitNow) ∧
    (t.now < back + 10000000000 → exec (.coolantCapRelease dt) s = .next t) := by
  rw [exec_coolantCapRelease ht hback]
  refine ⟨fun h => ?_, fun h => ?_⟩
  · rw [if_pos h]
    exact ⟨_, rfl, rfl, State.uncapLimit_limitNow _⟩
  · rw [if_neg (Nat.not_le.2 h)]

/-- Retries are counted and show in the module's state; used up, they are an execution fault (R20, R28). -/
theorem ucieRetries_act {s t : State} {dt m : Nat} (rx tx : Nat) (ht : s.tick dt = t) (hm : moduleExists m = true) (hp : t.powered = true) :
    (∃ u, exec (.ucieRetryExhausted dt m ⟨rx, tx⟩ .exhausted) s = .next u ∧ Faulted t u ∧ u.num (moduleKey m) = 3 ∧
      Rose t u (objKey 0x1259 1) rx ∧ Rose t u (objKey 0x1259 2) tx) ∧
    (∃ u, exec (.ucieRetryExhausted dt m ⟨rx, tx⟩ .underWay) s = .next u ∧ u = { t with dict := u.dict } ∧
      (t.num (moduleKey m) = 1 → u.num (moduleKey m) = 2) ∧ Rose t u (objKey 0x1259 1) rx ∧ Rose t u (objKey 0x1259 2) tx) ∧
    (∃ u, exec (.ucieRetryExhausted dt m ⟨rx, tx⟩ .over) s = .next u ∧ u = { t with dict := u.dict } ∧
      (t.num (moduleKey m) = 2 → u.num (moduleKey m) = 1) ∧ Rose t u (objKey 0x1259 1) rx ∧ Rose t u (objKey 0x1259 2) tx) := by
  exact ⟨⟨_, exec_ucieRetryExhausted rx tx .exhausted ht hm hp, moduleFails_after_count t hm rx tx⟩,
    ⟨_, exec_ucieRetryExhausted rx tx .underWay ht hm hp, moduleMoves_after_count t hm rx tx 1 2⟩,
    ⟨_, exec_ucieRetryExhausted rx tx .over ht hm hp, moduleMoves_after_count t hm rx tx 2 1⟩⟩

end Sys2Proof.Machine

open Sys2Proof.Machine in
/-- Settles O29: clause by clause, the samples of the governor, of the clusters' and the stacks' sensors, the ends of the coolant's cap, and
the die links. -/
theorem powerAndTemperature : Obligations.PowerAndTemperature := by
  unfold Obligations.PowerAndTemperature
  refine ⟨?_, ⟨?_, ?_, ?_⟩, ?_, ?_, ?_⟩
  · exact fun s t dt mv mgt vio cur mw ht hstage hmw => powerSample_acts ht hstage hmw
  · exact fun s t dt k temp ht hstage hk htrip => logicTempSample_acts ht hstage hk htrip
  · exact fun s t dt k temp ht hstage hk => ⟨_, exec_logicTempSample_iod ht hstage hk, State.num_setNum_same _ _ _, rfl⟩
  · exact fun s t dt k temp ht hk hpow htrip => stackTempSample_acts ht hk hpow htrip
  · exact fun s t dt at_ ht hat h => coolantReportStale_acts ht hat h
  · exact fun s t dt back ht hback => coolantCapRelease_acts ht hback
  · exact fun s t dt m rx tx ht hm hp => ucieRetries_act rx tx ht hm hp
end

section
/-! PROOFS. What the row-merge units' work on their entries changes (R141, R143, R144): entries, the bytes they lie in, counters and reports,
and nothing that an exchange or a command goes by. -/
namespace Sys2Proof.Machine

/-! ### A table's counters -/

/-- From `t` to `u` a table has counted under `k` and is otherwise the same. -/
def Table.Counted (k : Nat) (t u : Table) : Prop :=
  ∃ counts, u = { t with counts := counts } ∧ ∀ j, j ≠ k → Map.get 0 counts j = Map.get 0 t.counts j

theorem Table.Counted.refl (k : Nat) (t : Table) : t.Counted k t := ⟨_, rfl, fun _ _ => rfl⟩

theorem Table.Counted.trans {k : Nat} {a b c : Table} (h : a.Counted k b) (h' : b.Counted k c) : a.Counted k c := by
  obtain ⟨_, rfl, hb⟩ := h
  obtain ⟨_, rfl, hc⟩ := h'
  exact ⟨_, rfl, fun j hj => (hc j hj).trans (hb j hj)⟩

theorem Table.Counted.get {k : Nat} {t u : Table} (h : t.Counted k u) {j : Nat} (hj : j ≠ k) :
    Map.get 0 u.counts j = Map.get 0 t.counts j := by
  obtain ⟨_, rfl, hc⟩ := h
  exact hc j hj

theorem Table.count_counted (t : Table) (k n : Nat) : t.Counted k (t.count k n) := ⟨_, rfl, fun _ hj => Map.get_set_other _ _ _ hj⟩

theorem State.countTable_frame (s : State) (n k a : Nat) : s.countTable n k a = { s with tables := (s.countTable n k a).tables } := by
  unfold State.countTable
  split <;> rfl

theorem State.table_countTable (s : State) (n k a m : Nat) : (s.table m).Counted k ((s.countTable n k a).table m) := by
  unfold State.countTable
  split
  · exact .refl _ _
  · by_cases hm : m = n
    · subst hm
      rw [State.table_setTable]
      exact Table.count_counted _ _ _
    · rw [State.table_setTable_other _ _ hm]
      exact .refl _ _

/-- A table's counter rises by what is counted. -/
theorem State.counts_countTable (s : State) (n k a : Nat) :
    Map.get 0 ((s.countTable n k a).table n).counts k = Map.get 0 (s.table n).counts k + a := by
  unfold State.countTable
  split
  · subst_vars; rfl
  · rw [State.table_setTable]
    exact Map.get_set_same _ _ _ _

/-! ### Objects below the counters of accesses -/

/-- The first key from 0x4000 on, where every object lies that accesses, reports and merge entries count in. -/
def countersFrom : Nat := objKey 0x4000 0

theorem State.num_bump_low (s : State) {k j : Nat} (n : Nat) (hj : countersFrom ≤ j) (hk : k < countersFrom) : (s.bump j n).num k = s.num k :=
  State.num_bump_other _ _ (by omega)

theorem State.num_report_low (s : State) (r : Report) {k : Nat} (hk : k < countersFrom) : (s.report r).num k = s.num k :=
  State.num_report_other _ _ (by simp only [countersFrom, objKey] at hk ⊢; omega)

theorem State.num_foldl_low {α : Type} {k : Nat} {f : State → α → State} (hf : ∀ s x, (f s x).num k = s.num k) :
    ∀ (l : List α) (s : State), (l.foldl f s).num k = s.num k
  | [], _ => rfl
  | x :: l, s => (State.num_foldl_low hf l (f s x)).trans (hf s x)

theorem State.num_countBytes_low (s : State) (acc : Access) (w : Bool) (a n : Nat) {k : Nat} (hk : k < countersFrom) :
    (s.countBytes acc w a n).num k = s.num k := by
  have hbytes : ∀ (s : State) (g : Nat), (s.bump (objKey (0x6500 + s.stackOf g) ((if w then 7 else 4) + acc.cls.num)) (inGranule a n g)).num k =
      s.num k := fun s g => s.num_bump_low _ (by simp only [countersFrom, objKey]; omega) hk
  unfold State.countBytes
  extract_lets t
  have ht : t.num k = s.num k := State.num_foldl_low hbytes _ _
  split
  · exact (State.num_acct_other _ _ (by simp only [countersFrom, acctKey, objKey] at hk ⊢; omega)).trans ht
  · exact ht

theorem State.num_makePending_low (s : State) (w : Nat) {k : Nat} (hk : k < countersFrom) : (s.makePending w).num k = s.num k := by
  unfold State.makePending
  extract_lets p
  split
  · rfl
  · exact State.num_report_low _ _ hk

theorem State.num_correct_low (s : State) (acct : Option Nat) (w : Nat) {k : Nat} (hk : k < countersFrom) :
    (s.correct acct w).num k = s.num k := by
  unfold State.correct
  extract_lets again t _ u
  have hu : u.num k = s.num k := (State.num_countBytes_low _ _ _ _ _ hk).trans (s.num_bump_low _ (by simp only [countersFrom, objKey]; omega) hk)
  split
  · exact (u.num_makePending_low w hk).trans hu
  · exact hu

theorem State.num_read_low (s : State) (acc : Access) (a n : Nat) {k : Nat} (hk : k < countersFrom) : (s.read acc a n).2.num k = s.num k := by
  unfold State.read
  split
  · split
    · rfl
    · split
      · exact (State.num_makePending_low _ _ hk).trans (s.num_bump_low _ (by simp only [countersFrom, objKey]; omega) hk)
      · exact (State.num_countBytes_low _ _ _ _ _ hk).trans (State.num_foldl_low (fun s w => s.num_correct_low none w hk) _ _)
  · split <;> rfl

theorem State.num_store (s : State) (a : Nat) (d : Bytes) (k : Nat) : (s.store a d).num k = s.num k := by
  rw [State.store_frame]; rfl

theorem State.num_write_low (s : State) (acc : Access) (a : Nat) (d : Bytes) {k : Nat} (hk : k < countersFrom) :
    (s.write acc a d).2.num k = s.num k := by
  unfold State.write
  extract_lets n
  split
  · split
    · rfl
    · split
      · exact (State.num_countBytes_low _ _ _ _ _ hk).trans (s.num_store a d k)
      · exact s.num_bump_low _ (by simp only [countersFrom, objKey]; omega) hk
  · split
    · rfl
    · exact s.num_store a d k

/-! ### The work -/

/-- From `s` to `u` row-merge units have worked on their entries: entries, the bytes of spilled ones, counters and reports differ, and of
a table its count of merge overflows (0x2302.06). -/
structure MergeWork (s u : State) : Prop where
  frame : ∃ dict mem integ arith tables entries delivered, u = { s with
    dict := dict, mem := mem, integ := integ, arith := arith, tables := tables
    update := { s.update with entries := entries, delivered := delivered } }
  num : ∀ k, k < countersFrom → u.num k = s.num k
  table : ∀ n, (s.table n).Counted 0x106 (u.table n)

theorem MergeWork.refl (s : State) : MergeWork s s := ⟨⟨_, _, _, _, _, _, _, rfl⟩, fun _ _ => rfl, fun _ => .refl _ _⟩

theorem MergeWork.trans {a b c : State} (h : MergeWork a b) (h' : MergeWork b c) : MergeWork a c := by
  refine ⟨?_, fun k hk => (h'.num k hk).trans (h.num k hk), fun n => (h.table n).trans (h'.table n)⟩
  obtain ⟨_, _, _, _, _, _, _, rfl⟩ := h.frame
  obtain ⟨_, _, _, _, _, _, _, rfl⟩ := h'.frame
  exact ⟨_, _, _, _, _, _, _, rfl⟩

theorem MergeWork.fabric {s u : State} (h : MergeWork s u) : u.fabric = s.fabric := by obtain ⟨_, _, _, _, _, _, _, rfl⟩ := h.frame; rfl
theorem MergeWork.now {s u : State} (h : MergeWork s u) : u.now = s.now := by obtain ⟨_, _, _, _, _, _, _, rfl⟩ := h.frame; rfl
theorem MergeWork.cmds {s u : State} (h : MergeWork s u) : u.cmds = s.cmds := by obtain ⟨_, _, _, _, _, _, _, rfl⟩ := h.frame; rfl
theorem MergeWork.runs {s u : State} (h : MergeWork s u) : u.update.runs = s.update.runs := by
  obtain ⟨_, _, _, _, _, _, _, rfl⟩ := h.frame; rfl
theorem MergeWork.chip {s u : State} (h : MergeWork s u) : u.chip = s.chip := h.num _ (by decide)

theorem MergeWork.others {s u : State} (h : MergeWork s u) (n : Nat) : u.others (u.table n) = s.others (s.table n) := by
  obtain ⟨_, ht, -⟩ := h.table n
  unfold State.others
  rw [h.chip, ht]
  rfl

theorem mergeWork_foldl {α : Type} {f : State → α → State} (hf : ∀ s a, MergeWork s (f s a)) :
    ∀ (l : List α) (s : State), MergeWork s (l.foldl f s)
  | [], s => .refl s
  | a :: l, s => (hf s a).trans (mergeWork_foldl hf l (f s a))

theorem mergeWork_bump (s : State) {k : Nat} (n : Nat) (h : countersFrom ≤ k) : MergeWork s (s.bump k n) :=
  ⟨⟨_, _, _, _, _, _, _, rfl⟩, fun _ hk => s.num_bump_low n h hk, fun _ => .refl _ _⟩

theorem countersFrom_le_unitKey (u i : Nat) : countersFrom ≤ unitKey u i := by simp only [countersFrom, unitKey, objKey]; omega

theorem mergeWork_setEntries (s : State) (u : Nat) (l : List MergeEntry) : MergeWork s (s.setEntries u l) :=
  ⟨⟨_, _, _, _, _, _, _, rfl⟩, fun _ _ => rfl, fun _ => .refl _ _⟩

theorem mergeWork_noteDelivered (s : State) (u epoch job : Nat) : MergeWork s (s.noteDelivered u epoch job) :=
  ⟨⟨_, _, _, _, _, _, _, rfl⟩, fun _ _ => rfl, fun _ => .refl _ _⟩

theorem mergeWork_noteEntries (s : State) (u : Nat) : MergeWork s (s.noteEntries u) := by
  unfold State.noteEntries
  extract_lets n
  split
  · have := countersFrom_le_unitKey u 4
    exact ⟨⟨_, _, _, _, _, _, _, rfl⟩, fun k hk => State.num_setNum_other _ _ (by omega), fun _ => .refl _ _⟩
  · exact .refl s

theorem mergeWork_countOverflow (s : State) (n a : Nat) : MergeWork s (s.countTable n 0x106 a) := by
  refine ⟨?_, fun k _ => ?_, fun m => s.table_countTable n 0x106 a m⟩
  all_goals rw [State.countTable_frame]
  · exact ⟨_, _, _, _, _, _, _, rfl⟩
  · rfl

theorem mergeWork_report (s : State) (r : Report) : MergeWork s (s.report r) := by
  refine ⟨?_, fun k hk => s.num_report_low r hk, fun n => ?_⟩
  all_goals rw [State.report_frame]
  · exact ⟨_, _, _, _, _, _, _, rfl⟩
  · exact .refl _ _

theorem mergeWork_read (s : State) (acc : Access) (a n : Nat) : MergeWork s (s.read acc a n).2 := by
  have hframe := (s.read_frame acc a n).1
  refine ⟨?_, fun k hk => s.num_read_low acc a n hk, fun m => ?_⟩
  all_goals rw [hframe]
  · exact ⟨_, _, _, _, _, _, _, rfl⟩
  · exact .refl _ _

theorem mergeWork_write (s : State) (acc : Access) (a : Nat) (d : Bytes) : MergeWork s (s.write acc a d).2 := by
  have hframe : ∃ dict mem arith, (s.write acc a d).2 = { s with dict := dict, mem := mem, arith := arith } := by
    rcases s.write_cases acc a d with ⟨t, e, ht⟩ | ⟨_, t, e, ht⟩
    · rw [e, ht, State.store_frame]
      exact ⟨_, _, _, rfl⟩
    · rw [e, ht]
      exact ⟨_, _, _, rfl⟩
  refine ⟨?_, fun k hk => s.num_write_low acc a d hk, fun m => ?_⟩
  all_goals obtain ⟨_, _, _, e⟩ := hframe; rw [e]
  · exact ⟨_, _, _, _, _, _, _, rfl⟩
  · exact .refl _ _

/-! ### Spilled entries (R144) -/

theorem mergeWork_dropEntry (s : State) (u : Nat) (e : MergeEntry) : MergeWork s (s.dropEntry u e) := mergeWork_setEntries _ _ _

theorem mergeWork_loseEntry (s : State) (u : Nat) (e : MergeEntry) : MergeWork s (s.loseEntry u e) :=
  ((mergeWork_dropEntry s u e).trans (mergeWork_countOverflow _ _ _)).trans (mergeWork_report _ _)

theorem State.readEntryAt_inArea (s : State) (u : Nat) {e : MergeEntry} (h : e.place = none) : s.readEntryAt u e = (true, s) := by
  unfold State.readEntryAt
  simp only [h]

theorem State.writeEntryAt_inArea (s : State) (u : Nat) {e : MergeEntry} (h : e.place = none) : s.writeEntryAt u e = (true, s) := by
  unfold State.writeEntryAt
  simp only [h]

theorem mergeWork_readEntryAt (s : State) (u : Nat) (e : MergeEntry) : MergeWork s (s.readEntryAt u e).2 := by
  unfold State.readEntryAt
  cases e.place with
  | none => exact .refl s
  | some a =>
    have h := mergeWork_read s applyAccess a (s.table e.table).entryBytes
    dsimp only
    split <;> rename_i heq <;> rw [heq] at h
    · exact h
    · exact h.trans (mergeWork_loseEntry _ _ _)

theorem mergeWork_writeEntryAt (s : State) (u : Nat) (e : MergeEntry) : MergeWork s (s.writeEntryAt u e).2 := by
  unfold State.writeEntryAt
  cases e.place with
  | none => exact .refl s
  | some a =>
    have h := mergeWork_write s applyAccess a (e.image (s.table e.table).entryBytes)
    dsimp only
    split <;> rename_i heq <;> rw [heq] at h
    · exact h.trans (mergeWork_bump _ _ (countersFrom_le_unitKey _ _))
    · exact h.trans (mergeWork_loseEntry _ _ _)

theorem mergeWork_makeRoom (u need : Nat) : ∀ (fuel : Nat) (s : State), MergeWork s (State.makeRoom u need fuel s)
  | 0, s => .refl s
  | fuel + 1, s => by
    unfold State.makeRoom
    split
    · exact .refl s
    · split
      · exact .refl s
      · exact ((mergeWork_setEntries _ _ _).trans (mergeWork_writeEntryAt _ _ _)).trans (mergeWork_makeRoom u need fuel _)

theorem mergeWork_moveBack (u : Nat) : ∀ (fuel : Nat) (s : State), MergeWork s (State.moveBack u fuel s)
  | 0, s => .refl s
  | fuel + 1, s => by
    unfold State.moveBack
    split
    · exact .refl s
    · rename_i e _
      split
      · exact .refl s
      · have h := mergeWork_readEntryAt s u e
        split <;> rename_i heq <;> rw [heq] at h
        · exact h.trans (mergeWork_moveBack u fuel _)
        · exact (h.trans (mergeWork_setEntries _ _ _)).trans (mergeWork_moveBack u fuel _)

/-! ### Folding, and giving up what was sealed (R141, R149) -/

theorem mergeWork_giveSealed (s : State) (u : Nat) (e : MergeEntry) : MergeWork s (s.giveSealed u e) := by
  unfold State.giveSealed
  cases e.since with
  | none => exact (mergeWork_dropEntry s u e).trans (mergeWork_moveBack _ _ _)
  | some v => exact (mergeWork_setEntries _ _ _).trans (mergeWork_writeEntryAt _ _ _)

/-- What a contribution leaves once it has been counted. -/
theorem mergeWork_counted {s : State} {u : Nat} {x : Bool × State} (h : MergeWork s x.2) :
    MergeWork s (if x.1 then (true, x.2.bump (unitKey u 1) 1) else x).2 := by
  split
  · exact h.trans (mergeWork_bump _ _ (countersFrom_le_unitKey _ _))
  · exact h

theorem mergeWork_fold (s : State) (u : Nat) (k : MergeEntry) : MergeWork s (s.fold u k).2 := by
  unfold State.fold
  extract_lets done size t e
  split
  · rename_i e _
    have h := mergeWork_readEntryAt s u e
    split <;> rename_i heq <;> rw [heq] at h
    · exact h
    · exact mergeWork_counted ((h.trans (mergeWork_setEntries _ _ _)).trans (mergeWork_writeEntryAt _ _ _))
  · have ht : MergeWork s t := mergeWork_makeRoom u size _ s
    have hopen : ∀ l, MergeWork s ((t.setEntries u l).noteEntries u) := fun l =>
      (ht.trans (mergeWork_setEntries _ _ _)).trans (mergeWork_noteEntries _ _)
    split
    · exact mergeWork_counted (x := (true, _)) (hopen _)
    · split
      · exact mergeWork_counted ((hopen _).trans (mergeWork_writeEntryAt _ _ _))
      · exact ht.trans (mergeWork_countOverflow t k.table 1)

theorem mergeWork_foldSlice (s : State) (n chip job used : Nat) (slice : Bytes) : MergeWork s (s.foldSlice n chip job used slice) := by
  refine mergeWork_foldl (fun s j => ?_) _ _
  extract_lets row v
  split
  · exact (mergeWork_fold _ _ _).trans (mergeWork_noteDelivered _ _ _ _)
  · exact .refl s

end Sys2Proof.Machine
end

section
/-! PROOFS. Gradient pushes (R135 to R139) and the folding of their contributions (R141). -/
namespace Sys2Proof.Machine

/-! ### Runs and commands in their lists -/

/-- What is found stays found, in its new form, when all that pass are given that form. -/
theorem find?_mapIf_const {α : Type} {p q : α → Bool} {a b : α} (ha : q a = true) (hb : p b = true) :
    ∀ {l : List α}, l.find? q = some b → (mapIf p (fun _ => a) l).find? q = some a
  | [], h => by simp at h
  | x :: l, h => by
    have ih := find?_mapIf_const (l := l) ha hb
    unfold mapIf at ih ⊢
    rw [List.map_cons]
    cases hp : p x with
    | true => simp [ha]
    | false =>
      cases hq : q x with
      | true =>
        obtain rfl : x = b := by simpa [hq] using h
        rw [hb] at hp
        cases hp
      | false => simpa [hq] using ih (by simpa [hq] using h)

theorem State.cmd?_setCmd {s : State} {c d : Cmd} (h : s.cmd? c.id = some d) : (s.setCmd c).cmd? c.id = some c := by
  have hd : decide (d.id = c.id) = true := List.find?_some (p := fun d : Cmd => decide (d.id = c.id)) h
  exact find?_mapIf_const (b := d) (decide_eq_true rfl) hd h

theorem State.cmd?_of_cmds {s u : State} (h : u.cmds = s.cmds) (id : Nat) : u.cmd? id = s.cmd? id := by
  unfold State.cmd?
  rw [h]

theorem State.needRanges_nil (s : State) {c : Cmd} (u : UnitId) (h : c.held = none) : s.needRanges c u [] = .ready s c := by
  unfold State.needRanges
  rw [h]
  rfl

/-! ### The end of a push or exchange -/

/-- Between `t` and `u` a push or exchange has ended: its run is gone and its command is finished. -/
structure RunEnds (c : Cmd) (t u : State) : Prop where
  mem : u.mem = t.mem
  cmd : u.cmd? c.id = some { c with phase := .finished }
  runs : u.update.runs = t.update.runs.filter (fun r => r.cmd ≠ c.id)

theorem State.endRun_noSummary (s : State) {c : Cmd} (record : Bytes) (h : c.u64 56 = 0) :
    s.endRun c record = ({ s with update := { s.update with runs := s.update.runs.filter (fun r => r.cmd ≠ c.id) } } : State).setCmd
      { c with phase := .finished } := by
  unfold State.endRun
  exact if_pos h

theorem State.endRun_ends {t s : State} {c : Cmd} (record : Bytes) (h : c.u64 56 = 0) (hc : t.cmd? c.id = some c) (hmem : s.mem = t.mem)
    (hcmds : s.cmds = t.cmds) (hruns : s.update.runs = t.update.runs) : RunEnds c t (s.endRun c record) := by
  rw [← State.cmd?_of_cmds hcmds] at hc
  rw [s.endRun_noSummary record h]
  exact ⟨hmem, State.cmd?_setCmd (c := { c with phase := .finished }) hc, congrArg (List.filter _) hruns⟩

/-! ### Gradient push -/

theorem exec_gradientPush_start {s t : State} {dt g : Nat} {c : Cmd} (ht : s.tick dt = t) (hc : t.engineCmd? ⟨.rowMerge, g⟩ 0x90 = some c)
    (hr : t.update.runs.find? (fun r => r.cmd = c.id) = none) : exec (.gradientPush dt g) s = .next (t.startPush c g) := by
  show execGradientPush dt g s = _
  simp only [execGradientPush, ht, hc, hr]

theorem exec_gradientPush_run {s t : State} {dt g : Nat} {c : Cmd} {r : PushRun} (ht : s.tick dt = t)
    (hc : t.engineCmd? ⟨.rowMerge, g⟩ 0x90 = some c) (hr : t.update.runs.find? (fun r => r.cmd = c.id) = some r) :
    exec (.gradientPush dt g) s =
      .next (if t.update.deliveries.any (fun d => d.cmd = c.id) then t else t.endRun c (pushSummary r)) := by
  show execGradientPush dt g s = _
  simp only [execGradientPush, ht, hc, hr, apply_ite Host.Outcome.next]

theorem State.startPush_illegal {t : State} {c : Cmd} (u : Nat) (h : t.tableReady c.tableNo = false ∨ c.pushOk (t.table c.tableNo) = false) :
    t.startPush c u = t.illegal c := by
  unfold State.startPush
  exact if_pos (by rcases h with h | h <;> simp [h])

theorem State.startPush_ungrouped {t : State} {c : Cmd} (u : Nat) (hready : t.tableReady c.tableNo = true)
    (hok : c.pushOk (t.table c.tableNo) = true) (hungrouped : c.grouped = false) (hsummary : c.u64 56 = 0) (hheld : c.held = none) :
    t.startPush c u = t.pushBody c u [] := by
  unfold State.startPush
  simp only [hready, hok, hungrouped, hsummary, Bool.not_true, Bool.or_self, Bool.false_eq_true, if_false, if_true, List.append_nil,
    t.needRanges_nil _ hheld, List.any_nil, Bool.not_false]

theorem pushPairs_of_bytes {c c' : Cmd} (h : c'.bytes = c.bytes) (offsets : List Nat) : pushPairs c' offsets = pushPairs c offsets := by
  unfold pushPairs Cmd.grouped Cmd.bags Cmd.u8 Cmd.u16
  rw [h]

/-- A push without bags whose pages and lists are there is admitted or refused. -/
theorem State.pushBody_reads {t x y : State} {c c' : Cmd} {u : Nat} {p : PushSums} (hungrouped : c.grouped = false)
    (hpages : t.needRanges c ⟨.rowMerge, u⟩ [(c.u64 40, (c.bags - 1) * c.u16 22 + gradBytes (t.table c.tableNo).dim c.gradFormat, false),
        (c.u64 24, c.bags * c.indexWidth, false)] = .ready x c')
    (hbytes : c'.bytes = c.bytes)
    (hgrads : x.localRange c' (c.u64 40) ((c.bags - 1) * c.u16 22 + gradBytes (t.table c.tableNo).dim c.gradFormat) = true)
    (hlist : x.localRange c' (c.u64 24) (c.bags * c.indexWidth) = true)
    (hread : x.readPush c' (t.table c.tableNo) (pushPairs c []) ⟨[], 0, []⟩ = (.ok p, y)) :
    t.pushBody c u [] = y.admitPush c' u p 0 := by
  unfold State.pushBody
  simp only [hungrouped, Bool.not_false, if_true, hpages, List.any_cons, List.any_nil, hgrads, hlist, Bool.not_true, Bool.or_self,
    Bool.false_eq_true, if_false, pushPairs_of_bytes hbytes, hread]
  rfl

/-- Where a contribution goes depends on no counter. -/
theorem State.contributionOf_countTable (s : State) (n k a m : Nat) (c : Cmd) (x : Nat × List Nat) :
    (s.countTable n k a).contributionOf c m x = s.contributionOf c m x := by
  obtain ⟨counts, ht, -⟩ := s.table_countTable n k a m
  have hnum : ∀ j, (s.countTable n k a).num j = s.num j := fun j => by rw [State.countTable_frame]; rfl
  unfold State.contributionOf State.homeRow State.owner State.stackOf State.spread State.chip State.epoch
  rw [ht]
  simp only [hnum]
  rfl

/-- What a push whose sequence is not past its table's last one does: it is refused, and ends (R138). -/
theorem State.admitPush_refused {y : State} {c : Cmd} (u : Nat) (p : PushSums) (malformed : Nat) (hsummary : c.u64 56 = 0)
    (hc : y.cmd? c.id = some c) (h : c.u32 48 ≤ Map.get 0 y.update.sequences c.tableNo) :
    RunEnds c y (y.admitPush c u p malformed) ∧ (y.admitPush c u p malformed).update.deliveries = y.update.deliveries ∧
      (y.admitPush c u p malformed).update.sequences = y.update.sequences := by
  unfold State.admitPush
  extract_lets n r s
  rw [if_pos h]
  refine ⟨State.endRun_ends _ hsummary hc ?_ ?_ ?_, ?_, ?_⟩
  case refine_4 | refine_5 => rw [State.endRun_noSummary _ _ hsummary, State.countTable_frame]; rfl
  all_goals rw [State.countTable_frame]

/-- What a push whose sequence is past its table's last one does: it is admitted, with one contribution for each row (R136, R138). -/
theorem State.admitPush_admitted {y : State} {c : Cmd} (u : Nat) (p : PushSums) (malformed : Nat)
    (h : Map.get 0 y.update.sequences c.tableNo < c.u32 48) :
    (y.admitPush c u p malformed).mem = y.mem ∧
      Map.get 0 (y.admitPush c u p malformed).update.sequences c.tableNo = c.u32 48 ∧
      (y.admitPush c u p malformed).update.deliveries = y.update.deliveries ++ p.sums.map (y.contributionOf c c.tableNo) := by
  unfold State.admitPush
  extract_lets n r s
  rw [if_neg (Nat.not_le.2 h)]
  have hs : s = { y with tables := s.tables } := by
    simp only [s]
    rw [State.countTable_frame, State.countTable_frame, State.countTable_frame, State.countTable_frame]
  have hcontribution : s.contributionOf c n = y.contributionOf c c.tableNo := by
    funext x
    simp only [s, State.contributionOf_countTable, n]
  clear_value s
  refine ⟨?_, Map.get_set_same _ _ _ _, ?_⟩
  · show s.mem = _
    rw [hs]
  · show s.update.deliveries ++ p.sums.map (s.contributionOf c n) = _
    rw [hcontribution, hs]

/-- A push of R135 to R138: its fields, its sequence and its contributions. -/
theorem gradientPush_starts {s t : State} {dt g : Nat} {c : Cmd} (ht : s.tick dt = t) (hc : t.engineCmd? ⟨.rowMerge, g⟩ 0x90 = some c)
    {x y : State} {c' : Cmd} {p : PushSums} (hr : t.update.runs.find? (fun r => r.cmd = c.id) = none) (hready : t.tableReady c.tableNo = true)
    (hok : c.pushOk (t.table c.tableNo) = true) (hungrouped : c.grouped = false) (hsummary : c.u64 56 = 0) (hheld : c.held = none)
    (hpages : t.needRanges c ⟨.rowMerge, g⟩ [(c.u64 40, (c.bags - 1) * c.u16 22 + gradBytes (t.table c.tableNo).dim c.gradFormat, false),
        (c.u64 24, c.bags * c.indexWidth, false)] = .ready x c')
    (hbytes : c'.bytes = c.bytes)
    (hgrads : x.localRange c' (c.u64 40) ((c.bags - 1) * c.u16 22 + gradBytes (t.table c.tableNo).dim c.gradFormat) = true)
    (hlist : x.localRange c' (c.u64 24) (c.bags * c.indexWidth) = true)
    (hread : x.readPush c' (t.table c.tableNo) (pushPairs c []) ⟨[], 0, []⟩ = (.ok p, y)) (hc' : y.cmd? c'.id = some c') :
    ∃ u, exec (.gradientPush dt g) s = .next u ∧ u.mem = y.mem ∧
      (c.u32 48 ≤ Map.get 0 y.update.sequences c.tableNo → u.update.deliveries = y.update.deliveries ∧
        u.update.sequences = y.update.sequences ∧ u.cmd? c'.id = some { c' with phase := .finished }) ∧
      (Map.get 0 y.update.sequences c.tableNo < c.u32 48 → Map.get 0 u.update.sequences c.tableNo = c.u32 48 ∧
        u.update.deliveries = y.update.deliveries ++ p.sums.map (y.contributionOf c' c.tableNo)) := by
  have hexec : exec (.gradientPush dt g) s = .next (y.admitPush c' g p 0) := by
    rw [exec_gradientPush_start ht hc hr, State.startPush_ungrouped g hready hok hungrouped hsummary hheld,
      State.pushBody_reads hungrouped hpages hbytes hgrads hlist hread]
  have htable : c'.tableNo = c.tableNo := by unfold Cmd.tableNo Cmd.u16; rw [hbytes]
  have hseq : c'.u32 48 = c.u32 48 := by unfold Cmd.u32; rw [hbytes]
  have hsummary' : c'.u64 56 = 0 := by unfold Cmd.u64 at hsummary ⊢; rwa [hbytes]
  rw [← htable, ← hseq]
  by_cases h : c'.u32 48 ≤ Map.get 0 y.update.sequences c'.tableNo
  · obtain ⟨hends, hdeliveries, hsequences⟩ := State.admitPush_refused g p 0 hsummary' hc' h
    exact ⟨_, hexec, hends.mem, fun _ => ⟨hdeliveries, hsequences, hends.cmd⟩, fun h' => absurd h (by omega)⟩
  · obtain ⟨hmem, hsequence, hdeliveries⟩ := State.admitPush_admitted (y := y) (c := c') g p 0 (by omega)
    exact ⟨_, hexec, hmem, fun h' => absurd h' h, fun _ => ⟨hsequence, hdeliveries⟩⟩

/-! ### Folding (R141) -/

@[simp] theorem State.entriesOf_setEntries (s : State) (u : Nat) (l : List MergeEntry) : (s.setEntries u l).entriesOf u = l :=
  Map.get_set_same _ _ _ _

theorem State.entriesOf_setEntries_other (s : State) {u v : Nat} (l : List MergeEntry) (h : v ≠ u) :
    (s.setEntries u l).entriesOf v = s.entriesOf v := Map.get_set_other _ _ _ h

theorem MergeEntry.same_congr {e k : MergeEntry} (h : e.same k = true) (x : MergeEntry) : x.same e = x.same k := by
  simp only [MergeEntry.same, Bool.and_eq_true, decide_eq_true_eq] at h
  obtain ⟨⟨⟨⟨htable, hkind⟩, hepoch⟩, hchip⟩, hrow⟩ := h
  simp only [MergeEntry.same, htable, hkind, hepoch, hchip, hrow]

/-- A contribution to an entry of the merge area that no exchange has sealed is added to its sum. -/
theorem State.fold_adds {s : State} {u : Nat} {k e : MergeEntry} (he : (s.entriesOf u).find? (fun x => x.same k) = some e)
    (hplace : e.place = none) (htaken : e.taken = none) :
    s.fold u k = (true, (s.setEntries u ((s.entriesOf u).filter (fun x => !x.same k) ++
      [{ e with sum := addRows e.sum k.sum, since := none }])).bump (unitKey u 1) 1) := by
  have hsame : ∀ x : MergeEntry, x.same e = x.same k := MergeEntry.same_congr (List.find?_some (p := fun x : MergeEntry => x.same k) he)
  unfold State.fold
  simp only [he, s.readEntryAt_inArea u hplace, htaken, hsame, Option.isSome_none, Bool.false_eq_true, if_false]
  rw [State.writeEntryAt_inArea _ _ (by exact hplace)]
  rfl

/-- A contribution of a row without an entry opens one, where the merge area has room. -/
theorem State.fold_opens {s : State} {u : Nat} {k : MergeEntry} (hnew : (s.entriesOf u).find? (fun x => x.same k) = none)
    (hroom : s.areaUsed u + (s.table k.table).entryBytes ≤ s.mergeSize) :
    s.fold u k = (true, ((s.setEntries u (s.entriesOf u ++
      [{ k with sum := addRows (k.sum.map (fun _ => 0)) k.sum, place := none }])).noteEntries u).bump (unitKey u 1) 1) := by
  have hstays : ∀ n, State.makeRoom u (s.table k.table).entryBytes (n + 1) s = s := fun n => by
    unfold State.makeRoom
    exact if_pos hroom
  unfold State.fold
  simp only [hnew, hstays, if_pos hroom, if_true]

theorem State.noteEntries_mem_update (s : State) (u : Nat) : (s.noteEntries u).mem = s.mem ∧ (s.noteEntries u).update = s.update := by
  unfold State.noteEntries
  extract_lets n
  split <;> exact ⟨rfl, rfl⟩

/-- The entry of a contribution to a row whose home is this package. -/
def State.homeEntry (s : State) (d : Contribution) : MergeEntry := ⟨d.table, .home, d.epoch, s.chip, d.row, d.values, none, none, none⟩

/-- A contribution leaves those on their way. -/
def State.contributionTaken (s : State) (d : Contribution) : State :=
  { s with update := { s.update with deliveries := s.update.deliveries.erase d } }

/-- The state once the delivery of a contribution has been counted for its table, its job and its push. -/
def State.deliveryCounted (s : State) (u : Nat) (d : Contribution) (folded : Bool) : State :=
  let s := (s.countTable d.table 0x103 1).noteDelivered u d.epoch d.job
  { s with update := { s.update with
    runs := mapIf (fun r => r.cmd = d.cmd)
      (fun r => { r with contributions := r.contributions + 1, overflow := r.overflow + (if folded then 0 else 1) }) s.update.runs } }

theorem State.deliveryCounted_keeps (s : State) (u : Nat) (d : Contribution) (folded : Bool) :
    (s.deliveryCounted u d folded).mem = s.mem ∧ (s.deliveryCounted u d folded).update.deliveries = s.update.deliveries ∧
      (s.deliveryCounted u d folded).update.entries = s.update.entries := by
  unfold State.deliveryCounted State.noteDelivered
  rw [State.countTable_frame]
  exact ⟨rfl, rfl, rfl⟩

/-- The next contribution for a unit is delivered and folded. -/
theorem exec_contributionFold {s t : State} {dt g : Nat} {d : Contribution} (ht : s.tick dt = t)
    (hd : t.update.deliveries.find? (fun d => d.unit = g) = some d) (hhome : d.home = true) {w : State}
    (hfold : (t.contributionTaken d).fold g (t.homeEntry d) = (true, w)) :
    exec (.contributionFold dt g) s = .next (w.deliveryCounted g d true) := by
  show execContributionFold dt g s = _
  simp only [execContributionFold, ht, hd, hhome, if_true]
  exact congrArg (fun x : Bool × State => Host.Outcome.next (x.2.deliveryCounted g d x.1)) hfold

theorem contributionFold_adds {s t : State} {dt g : Nat} {d : Contribution} {e : MergeEntry} (ht : s.tick dt = t)
    (hd : t.update.deliveries.find? (fun d => d.unit = g) = some d) (hhome : d.home = true)
    (he : (t.entriesOf g).find? (fun x => x.same (t.homeEntry d)) = some e) (hplace : e.place = none) (htaken : e.taken = none) :
    ∃ u, exec (.contributionFold dt g) s = .next u ∧ u.mem = t.mem ∧ u.update.deliveries = t.update.deliveries.erase d ∧
      u.entriesOf g = (t.entriesOf g).filter (fun x => !x.same (t.homeEntry d)) ++
        [{ e with sum := List.zipWith f32Add e.sum d.values, since := none }] := by
  have hexec := exec_contributionFold ht hd hhome (State.fold_adds (s := t.contributionTaken d) he hplace htaken)
  obtain ⟨hmem, hdeliveries, hentries⟩ := State.deliveryCounted_keeps (((t.contributionTaken d).setEntries g _).bump (unitKey g 1) 1) g d true
  exact ⟨_, hexec, hmem, hdeliveries, (congrArg (Map.get [] · g) hentries).trans (State.entriesOf_setEntries _ _ _)⟩

theorem contributionFold_opens {s t : State} {dt g : Nat} {d : Contribution} (ht : s.tick dt = t)
    (hd : t.update.deliveries.find? (fun d => d.unit = g) = some d) (hhome : d.home = true)
    (hnew : (t.entriesOf g).find? (fun x => x.same (t.homeEntry d)) = none)
    (hroom : t.areaUsed g + (t.table d.table).entryBytes ≤ t.mergeSize) :
    ∃ u, exec (.contributionFold dt g) s = .next u ∧ u.mem = t.mem ∧ u.update.deliveries = t.update.deliveries.erase d ∧
      u.entriesOf g = t.entriesOf g ++ [{ t.homeEntry d with sum := d.values.map (fun v => f32Add 0 v) }] := by
  have hexec := exec_contributionFold ht hd hhome (State.fold_opens (s := t.contributionTaken d) hnew hroom)
  obtain ⟨hmem, hdeliveries, hentries⟩ := State.deliveryCounted_keeps
    ((((t.contributionTaken d).setEntries g _).noteEntries g).bump (unitKey g 1) 1) g d true
  have hsum : addRows (d.values.map (fun _ => 0)) d.values = d.values.map (fun v => f32Add 0 v) := by
    unfold addRows
    rw [List.zipWith_map_left, List.zipWith_self]
  obtain ⟨hnotedMem, hnotedUpdate⟩ := State.noteEntries_mem_update ((t.contributionTaken d).setEntries g _) g
  refine ⟨_, hexec, hmem.trans hnotedMem, hdeliveries.trans (congrArg Update.deliveries hnotedUpdate), ?_⟩
  rw [← hsum]
  exact (congrArg (Map.get [] · g) (hentries.trans (congrArg Update.entries hnotedUpdate))).trans (State.entriesOf_setEntries _ _ _)

end Sys2Proof.Machine
end

section
/-! PROOFS. Update exchanges (R146 to R150): what is sealed, the slices handed to the channel, the end, and the slices that arrive. -/
namespace Sys2Proof.Machine

/-! ### Sealing (R149) -/

/-- An entry of which an exchange has sealed all that it holds. -/
def MergeEntry.sealFor (m : MergeEntry) (cmd : Nat) : MergeEntry := { m with taken := some (cmd, m.sum), since := none }

/-- A unit seals one of its entries for an exchange. -/
def State.sealOne (s : State) (cmd : Nat) (x : Nat × MergeEntry) : State :=
  s.setEntries x.1 (mapIf (fun m => m.same x.2) (fun m => m.sealFor cmd) (s.entriesOf x.1))

theorem MergeEntry.same_refl (m : MergeEntry) : m.same m = true := by simp [MergeEntry.same]

theorem mem_mapIf_self {α : Type} {p : α → Bool} {f : α → α} {a : α} {l : List α} (h : a ∈ l) :
    a ∈ mapIf p f l ∨ f a ∈ mapIf p f l := by
  have hm := List.mem_map_of_mem (f := fun a => if p a then f a else a) h
  split at hm
  · exact .inr hm
  · exact .inl hm

theorem State.sealOne_seals (s : State) (cmd g : Nat) {m : MergeEntry} (h : m ∈ s.entriesOf g) :
    m.sealFor cmd ∈ (s.sealOne cmd (g, m)).entriesOf g := by
  have hm := List.mem_map_of_mem (f := fun a : MergeEntry => if a.same m then a.sealFor cmd else a) h
  rw [if_pos m.same_refl] at hm
  unfold State.sealOne
  rwa [State.entriesOf_setEntries]

/-- Sealing an entry leaves every entry as it was, or seals it. -/
theorem State.sealOne_entry (s : State) (cmd : Nat) (x : Nat × MergeEntry) (g : Nat) {m : MergeEntry} (h : m ∈ s.entriesOf g) :
    m ∈ (s.sealOne cmd x).entriesOf g ∨ m.sealFor cmd ∈ (s.sealOne cmd x).entriesOf g := by
  unfold State.sealOne
  by_cases hg : g = x.1
  · subst hg
    rw [State.entriesOf_setEntries]
    exact mem_mapIf_self h
  · rw [State.entriesOf_setEntries_other _ _ hg]
    exact .inl h

/-- What has been sealed stays so: sealing it again changes nothing. -/
theorem State.sealFor_mem_foldl (cmd g : Nat) {m : MergeEntry} : ∀ (l : List (Nat × MergeEntry)) (s : State),
    m.sealFor cmd ∈ s.entriesOf g → m.sealFor cmd ∈ (l.foldl (State.sealOne · cmd ·) s).entriesOf g
  | [], _, h => h
  | x :: l, s, h => State.sealFor_mem_foldl cmd g l _ ((s.sealOne_entry cmd x g h).elim id id)

/-- Every entry chosen is sealed. -/
theorem State.foldl_sealOne_seals (cmd g : Nat) {m : MergeEntry} (l : List (Nat × MergeEntry)) (s : State) (hl : (g, m) ∈ l)
    (h : m ∈ s.entriesOf g) : m.sealFor cmd ∈ (l.foldl (State.sealOne · cmd ·) s).entriesOf g := by
  induction l generalizing s with
  | nil => cases hl
  | cons x l ih =>
    rcases List.mem_cons.1 hl with rfl | hl
    · exact State.sealFor_mem_foldl cmd g l _ (s.sealOne_seals cmd g h)
    · rcases s.sealOne_entry cmd x g h with h | h
      · exact ih _ hl h
      · exact State.sealFor_mem_foldl cmd g l _ h

/-- A fold that writes entries alone. -/
theorem foldl_entries {α : Type} {f : State → α → State} (hf : ∀ s x, ∃ e, f s x = { s with update := { s.update with entries := e } }) :
    ∀ (l : List α) (s : State), ∃ e, l.foldl f s = { s with update := { s.update with entries := e } }
  | [], s => ⟨s.update.entries, rfl⟩
  | x :: l, s => by
    obtain ⟨_, hx⟩ := hf s x
    obtain ⟨_, hl⟩ := foldl_entries hf l (f s x)
    exact ⟨_, by rw [List.foldl_cons, hl, hx]⟩

/-- The outbound entries that an exchange seals: for each destination, those that nothing has sealed, up to its capacity. -/
def State.chosenFor (s : State) (c : Cmd) (n : Nat) : List (Nat × MergeEntry) :=
  (s.others (s.table n)).flatMap fun k =>
    (((s.outbound n).filter (fun x => x.2.taken.isNone)).filter (fun x => x.2.chip = k)).take c.updateCapacity

/-- Without spilled entries, what is chosen is sealed and counted. -/
theorem State.sealEntries_eq {s : State} {c : Cmd} {r : PushRun} (h : ∀ x ∈ s.outbound r.table, x.2.place = none) :
    s.sealEntries c r = ((s.chosenFor c r.table).foldl (State.sealOne · c.id ·) s).setPush { r with
      sent := (s.chosenFor c r.table).length
      left := ((s.outbound r.table).filter (fun x => x.2.taken.isNone)).length - (s.chosenFor c r.table).length } := by
  have hread : (s.outbound r.table).foldl (fun s x => (s.readEntryAt x.1 x.2).2) s = s := by
    generalize s.outbound r.table = l at h
    induction l with
    | nil => rfl
    | cons x l ih =>
      rw [List.foldl_cons, s.readEntryAt_inArea x.1 (h x List.mem_cons_self)]
      exact ih fun y hy => h y (List.mem_cons_of_mem _ hy)
  unfold State.sealEntries
  simp only [hread]
  rfl

/-! ### Starting an exchange -/

theorem exec_updateExchange_start {s t : State} {dt g : Nat} {c : Cmd} (ht : s.tick dt = t) (hc : t.engineCmd? ⟨.rowMerge, g⟩ 0x91 = some c)
    (hr : t.update.runs.find? (fun r => r.cmd = c.id) = none) : exec (.updateExchange dt g) s = .next (t.startExchange c g) := by
  show execUpdateExchange dt g s = _
  simp only [execUpdateExchange, ht, hc, hr]

theorem State.startExchange_illegal {t : State} {c : Cmd} (u : Nat)
    (h : t.tableReady c.tableNo = false ∨ c.updateCapacity = 0 ∨ c.u64 56 % 32 ≠ 0) : t.startExchange c u = t.illegal c := by
  unfold State.startExchange
  exact if_pos (by rcases h with h | h | h <;> simp [h])

theorem State.startExchange_stamps {t : State} {c : Cmd} (u : Nat) (hready : t.tableReady c.tableNo = true) (hcap : c.updateCapacity ≠ 0)
    (hsummary : c.u64 56 = 0) (hheld : c.held = none) : t.startExchange c u = t.stampExchange c u := by
  unfold State.startExchange
  simp only [hready, hcap, hsummary, Bool.not_true, decide_false, Bool.or_self, Bool.false_eq_true, if_false, if_true, Nat.zero_mod, ne_eq,
    not_true, t.needRanges_nil _ hheld, List.any_nil]

/-- The run of an exchange as it is stamped. -/
def State.exchangeRunOf (s : State) (c : Cmd) (u : Nat) : PushRun := { s.newRun c u c.tableNo true with number := c.updateNo }

/-- The state in which the run of an exchange has been entered. -/
def State.runEntered (s : State) (c : Cmd) (u : Nat) : State :=
  { s.setCmd { c with armed := true } with update := { s.update with runs := s.update.runs ++ [s.exchangeRunOf c u] } }

theorem State.stampExchange_of_run {t w : State} {c : Cmd} {u : Nat} {r : PushRun}
    (hseal : (t.runEntered c u).sealEntries { c with armed := true } (t.exchangeRunOf c u) = w)
    (hr : w.update.runs.find? (fun r => r.cmd = c.id) = some r) : t.stampExchange c u = w.handExchange { c with armed := true } r := by
  subst hseal
  unfold State.stampExchange
  extract_lets run run' c' x y s
  have hs : s.update.runs.find? (fun r => r.cmd = c'.id) = some r := hr
  rw [hs]
  rfl

/-- A stamped exchange has its run, and has sealed what it chose (R149). -/
theorem State.stampExchange_seals {t : State} {c : Cmd} (u : Nat) (hr : t.update.runs.find? (fun r => r.cmd = c.id) = none)
    (hplace : ∀ x ∈ t.outbound c.tableNo, x.2.place = none) :
    ∃ (w : State) (r : PushRun), w.update.runs.find? (fun r => r.cmd = c.id) = some r ∧
      t.stampExchange c u = w.handExchange { c with armed := true } r ∧ r.stamp = t.now ∧ r.epoch = t.epoch ∧ r.handed = false ∧
      w.mem = t.mem ∧ w.fabric = t.fabric ∧
      ∀ g m, m ∈ t.entriesOf g → (g, m) ∈ t.chosenFor c c.tableNo → m.sealFor c.id ∈ w.entriesOf g := by
  have hseal := State.sealEntries_eq (s := t.runEntered c u) (c := { c with armed := true }) (r := t.exchangeRunOf c u) hplace
  obtain ⟨e, he⟩ := foldl_entries (f := (State.sealOne · c.id ·)) (fun s x => ⟨_, rfl⟩) (t.chosenFor c c.tableNo) (t.runEntered c u)
  have hfind : ((t.runEntered c u).update.runs.find? (fun r => r.cmd = c.id)) = some (t.exchangeRunOf c u) := by
    show (t.update.runs ++ [t.exchangeRunOf c u]).find? _ = _
    rw [List.find?_append, hr]
    simp [State.exchangeRunOf, State.newRun]
  let r : PushRun := { t.exchangeRunOf c u with
    sent := (t.chosenFor c c.tableNo).length
    left := ((t.outbound c.tableNo).filter (fun x => x.2.taken.isNone)).length - (t.chosenFor c c.tableNo).length }
  let w : State := ((t.chosenFor c c.tableNo).foldl (State.sealOne · c.id ·) (t.runEntered c u)).setPush r
  have hrun : w.update.runs.find? (fun r => r.cmd = c.id) = some r := by
    show (mapIf _ _ ((t.chosenFor c c.tableNo).foldl (State.sealOne · c.id ·) (t.runEntered c u)).update.runs).find? _ = _
    rw [he]
    exact find?_mapIf_const (b := t.exchangeRunOf c u) (decide_eq_true rfl) (decide_eq_true rfl) hfind
  refine ⟨w, r, hrun, ?_, rfl, rfl, rfl, ?_, ?_, fun g m hm hchosen => ?_⟩
  · exact State.stampExchange_of_run hseal hrun
  · show ((t.chosenFor c c.tableNo).foldl (State.sealOne · c.id ·) (t.runEntered c u)).mem = _
    rw [he]
    rfl
  · show ((t.chosenFor c c.tableNo).foldl (State.sealOne · c.id ·) (t.runEntered c u)).fabric = _
    rw [he]
    rfl
  · exact State.foldl_sealOne_seals c.id g _ (t.runEntered c u) hchosen hm

/-! ### The channel and the slices (R149, R363) -/

/-- An exchange that neither holds its channel nor waits for it begins to wait. -/
theorem State.handExchange_waits {t : State} {c : Cmd} (r : PushRun) (hrunning : c.scratch.headD 0 ≠ 1)
    (hfree : t.holdsChannel c.updateChannel .update c.id = false) (hnew : ∀ o ∈ (t.channel c.updateChannel).waiting, o.owner ≠ c.id) :
    (t.handExchange c r).mem = t.mem ∧ (t.handExchange c r).update = t.update ∧
      ((t.handExchange c r).channel c.updateChannel).waiting =
        (t.channel c.updateChannel).waiting ++ [⟨.update, c.updateNo % 65536, c.id, t.now⟩] := by
  have hnone : (t.channel c.updateChannel).waiting.any (fun o => o.kind = .update && o.owner = c.id) = false := by
    rw [List.any_eq_false]
    intro o ho
    simp [hnew o ho]
  have hask : t.handExchange c r = (t.setChannel c.updateChannel { t.channel c.updateChannel with
      waiting := (t.channel c.updateChannel).waiting ++ [⟨.update, c.updateNo % 65536, c.id, t.now⟩] }).setCmd { c with unwatched := true } := by
    unfold State.handExchange State.askChannel
    simp only [if_neg hrunning, hfree, hnone, Bool.or_self, Bool.false_eq_true, if_false]
  rw [hask]
  exact ⟨rfl, rfl, congrArg Channel.waiting (State.channel_setChannel t _ _)⟩

/-- Offers made one by one are queued in their order. -/
theorem foldl_offer_outgoing (o : State → Nat → Outgoing) (ho : ∀ s x k, o (s.offer x) k = o s k) : ∀ (l : List Nat) (s : State),
    (l.foldl (fun s k => s.offer (o s k)) s).fabric.outgoing = s.fabric.outgoing ++ l.map (o s)
  | [], s => (List.append_nil _).symm
  | k :: l, s => by
    rw [List.foldl_cons, foldl_offer_outgoing o ho l, List.map_cons, funext (ho s (o s k))]
    exact List.append_assoc _ _ _

/-- The slice of an update exchange for another member, of what has been sealed. -/
def State.sliceFor (s : State) (c : Cmd) (n epoch : Nat) (mine : List (Nat × MergeEntry × List Nat)) (k : Nat) : Outgoing :=
  ⟨c.updateChannel, k, c.updateNo, 0, [], updateSlice c.updateNo n s.chip epoch
    ((mine.filter (fun x => x.2.1.chip = k)).map (fun x => (x.2.1.row, x.2.2))), c.job, false, s.now⟩

theorem State.handSlices_fabric {t w : State} {c : Cmd} {r : PushRun}
    (hw : (t.sealedBy r.table c.id).foldl (fun s x => s.giveSealed x.1 x.2.1) t = w) :
    (t.handSlices c r).fabric = ((w.others (w.table r.table)).foldl
      (fun s k => s.offer (s.sliceFor c r.table r.epoch (t.sealedBy r.table c.id) k)) w).fabric := by
  subst hw
  show (State.countTable _ _ _ _).fabric = _
  rw [State.countTable_frame]
  rfl

/-- An exchange that holds its channel hands each other member its slice. -/
theorem State.handExchange_hands {t : State} {c : Cmd} (r : PushRun) (hrunning : c.scratch.headD 0 ≠ 1)
    (hholds : t.holdsChannel c.updateChannel .update c.id = true) :
    (t.handExchange c r).fabric.outgoing =
      t.fabric.outgoing ++ (t.others (t.table r.table)).map (t.sliceFor c r.table r.epoch (t.sealedBy r.table c.id)) := by
  obtain ⟨w, hw⟩ : ∃ w, (t.sealedBy r.table c.id).foldl (fun s x => s.giveSealed x.1 x.2.1) t = w := ⟨_, rfl⟩
  have hgiven : MergeWork t w :=
    hw ▸ mergeWork_foldl (fun s (x : Nat × MergeEntry × List Nat) => mergeWork_giveSealed s x.1 x.2.1) _ _
  have hslice : w.sliceFor c r.table r.epoch (t.sealedBy r.table c.id) = t.sliceFor c r.table r.epoch (t.sealedBy r.table c.id) := by
    unfold State.sliceFor
    rw [hgiven.chip, hgiven.now]
  unfold State.handExchange
  rw [if_neg hrunning, if_pos hholds, State.handSlices_fabric hw,
    foldl_offer_outgoing (fun s => s.sliceFor c r.table r.epoch (t.sealedBy r.table c.id)) (fun _ _ _ => rfl), hslice, hgiven.fabric,
    hgiven.others]

/-! ### The end of an exchange (R150) -/

theorem exec_updateExchange_run {s t : State} {dt g : Nat} {c : Cmd} {r : PushRun} (ht : s.tick dt = t)
    (hc : t.engineCmd? ⟨.rowMerge, g⟩ 0x91 = some c) (hr : t.update.runs.find? (fun r => r.cmd = c.id) = some r) :
    exec (.updateExchange dt g) s =
      .next (if r.handed = false then t.handExchange c r else if t.exchangeDone c r then t.endExchange c r else t) := by
  show execUpdateExchange dt g s = _
  simp only [execUpdateExchange, ht, hc, hr, Bool.not_eq_true']

theorem exec_updateExchangeTimeout_run {s t : State} {dt g : Nat} {c : Cmd} {r : PushRun} (ht : s.tick dt = t)
    (hc : t.engineCmd? ⟨.rowMerge, g⟩ 0x91 = some c) (hr : t.update.runs.find? (fun r => r.cmd = c.id) = some r) :
    exec (.updateExchangeTimeout dt g) s = .next (if t.now < r.deadline then t else t.expireExchange c r) := by
  show execUpdateExchangeTimeout dt g s = _
  simp only [execUpdateExchangeTimeout, ht, hc, hr]

theorem State.freeChannel_frame (s : State) (ch : Nat) (kind : OpKind) (owner : Nat) :
    ∃ dict fabric, s.freeChannel ch kind owner = { s with dict := dict, fabric := fabric } := by
  unfold State.freeChannel
  extract_lets v
  split
  · split <;> exact ⟨_, _, rfl⟩
  · exact ⟨_, _, rfl⟩

theorem State.endExchange_ends {t s : State} {c : Cmd} (r : PushRun) (h : c.u64 56 = 0) (hc : t.cmd? c.id = some c) (hmem : s.mem = t.mem)
    (hcmds : s.cmds = t.cmds) (hruns : s.update.runs = t.update.runs) : RunEnds c t (s.endExchange c r) := by
  obtain ⟨_, _, hfree⟩ := s.freeChannel_frame c.updateChannel .update c.id
  unfold State.endExchange
  rw [hfree]
  exact State.endRun_ends _ h hc hmem hcmds hruns

/-- A timeout ends the exchange, whether it had its channel or not. -/
theorem State.expireExchange_ends {t : State} {c : Cmd} (r : PushRun) (h : c.u64 56 = 0) (hc : t.cmd? c.id = some c) :
    RunEnds c t (t.expireExchange c r) := by
  unfold State.expireExchange
  extract_lets n gone s r' w
  have hs : s = { t with tables := s.tables } := t.countTable_frame _ _ _
  split
  · refine State.endExchange_ends _ h hc ?_ ?_ ?_ <;> rw [hs]
  · obtain ⟨e, he⟩ : ∃ e, w = { s with update := { s.update with entries := e } } := foldl_entries (fun s x => ⟨_, rfl⟩) _ _
    refine State.endExchange_ends _ h hc ?_ ?_ ?_
    all_goals
      rw [State.countTable_frame]
      unfold State.leaveChannel
      rw [he, hs]
      rfl

/-- Every slice gone and come: the exchange has handed its own over. -/
theorem State.handed_of_exchangeDone {t : State} {c : Cmd} {r : PushRun} (h : t.exchangeDone c r = true) : r.handed = true := by
  simp only [State.exchangeDone, Bool.and_eq_true] at h
  exact h.1.1

/-! ### Slices that arrive (R149, R150) -/

/-- A slice of another epoch is counted. -/
def State.skewNoted (s : State) (b : Bytes) : State := if fieldLe b 16 8 = s.epoch then s else s.countTable (sliceTable b) 0x10E 1

theorem State.skewNoted_frame (s : State) (b : Bytes) : s.skewNoted b = { s with tables := (s.skewNoted b).tables } := by
  unfold State.skewNoted
  split
  · rfl
  · exact s.countTable_frame _ _ _

theorem State.counts_skewNoted (s : State) (b : Bytes) (n : Nat) {k : Nat} (hk : k ≠ 0x10E) :
    Map.get 0 ((s.skewNoted b).table n).counts k = Map.get 0 (s.table n).counts k := by
  unfold State.skewNoted
  split
  · rfl
  · exact (s.table_countTable _ _ _ n).get hk

/-- The entries of a slice that are there. -/
def sliceEntries (T : Table) (b : Bytes) : Nat := min (fieldLe b 8 4) ((b.length - 32) / (8 + 4 * T.dim))

/-- A slice of a table that takes none here is discarded. -/
theorem exec_updateSliceArrive_unready {s t : State} {dt ch : Nat} {b : Bytes} (ht : s.tick dt = t)
    (h : (t.table (sliceTable b)).state ≠ .ready ∨ (t.table (sliceTable b)).trainable = false) :
    exec (.updateSliceArrive dt ch b) s = .next t := by
  show execUpdateSliceArrive dt ch b s = _
  simp only [execUpdateSliceArrive, ht]
  exact if_pos (by rcases h with h | h <;> simp [h])

/-- A slice of an exchange that runs here is folded once for each member. -/
theorem exec_updateSliceArrive_run {s t : State} {dt ch : Nat} {b : Bytes} {r : PushRun} (ht : s.tick dt = t)
    (hready : (t.table (sliceTable b)).state = .ready) (htrains : (t.table (sliceTable b)).trainable = true)
    (hr : t.updateRun ch (sliceTable b) (sliceNumber b) = some r) :
    exec (.updateSliceArrive dt ch b) s = .next (if sliceChip b ∈ r.heard then t else
      ((t.foldSlice (sliceTable b) (sliceChip b) (((t.cmd? r.cmd).map (fun c => c.job)).getD 0) (sliceEntries (t.table (sliceTable b)) b)
        b).skewNoted b).setPush
          { r with received := r.received + sliceEntries (t.table (sliceTable b)) b, heard := r.heard ++ [sliceChip b] }) := by
  show execUpdateSliceArrive dt ch b s = _
  simp only [execUpdateSliceArrive, ht, hready, htrains, hr, ne_eq, not_true, decide_false, Bool.not_true, Bool.or_self, Bool.false_eq_true,
    if_false, List.contains_iff_mem, apply_ite Host.Outcome.next]
  rfl

/-- A slice of an exchange that has passed here is folded as late; one of an exchange to come stays at its sender. -/
theorem exec_updateSliceArrive_noRun {s t : State} {dt ch : Nat} {b : Bytes} (ht : s.tick dt = t)
    (hready : (t.table (sliceTable b)).state = .ready) (htrains : (t.table (sliceTable b)).trainable = true)
    (hr : t.updateRun ch (sliceTable b) (sliceNumber b) = none) :
    exec (.updateSliceArrive dt ch b) s = .next ((t.reachedBy ch (sliceTable b) (sliceNumber b)).elim t fun j =>
      ((t.foldSlice (sliceTable b) (sliceChip b) j (sliceEntries (t.table (sliceTable b)) b) b).countTable (sliceTable b) 0x10D
        1).skewNoted b) := by
  show execUpdateSliceArrive dt ch b s = _
  simp only [execUpdateSliceArrive, ht, hready, htrains, hr, ne_eq, not_true, decide_false, Bool.not_true, Bool.or_self, Bool.false_eq_true,
    if_false]
  cases t.reachedBy ch (sliceTable b) (sliceNumber b) <;> rfl

/-- The run of an exchange, once it has been given another form, is found in that form. -/
theorem State.updateRun_setPush {t s : State} {ch n number : Nat} {r r' : PushRun} (hruns : s.update.runs = t.update.runs)
    (hcmds : s.cmds = t.cmds) (hr : t.updateRun ch n number = some r) (hcmd : r'.cmd = r.cmd) (hexchange : r'.exchange = r.exchange)
    (htable : r'.table = r.table) (hnumber : r'.number = r.number) : (s.setPush r').updateRun ch n number = some r' := by
  have hfound := List.find?_some hr
  have hcmd? : ∀ id, (s.setPush r').cmd? id = t.cmd? id := State.cmd?_of_cmds hcmds
  unfold State.updateRun
  simp only [hcmd?]
  show (mapIf (fun x => x.cmd = r'.cmd) (fun _ => r') s.update.runs).find? _ = _
  rw [hruns]
  refine find?_mapIf_const (b := r) ?_ (decide_eq_true hcmd.symm) hr
  simpa only [hcmd, hexchange, htable, hnumber] using hfound

theorem updateSliceArrive_run {s t : State} {dt ch : Nat} {b : Bytes} {r : PushRun} (ht : s.tick dt = t)
    (hready : (t.table (sliceTable b)).state = .ready) (htrains : (t.table (sliceTable b)).trainable = true)
    (hr : t.updateRun ch (sliceTable b) (sliceNumber b) = some r) (hnew : sliceChip b ∉ r.heard) :
    ∃ u, exec (.updateSliceArrive dt ch b) s = .next u ∧ u.updateRun ch (sliceTable b) (sliceNumber b) = some { r with
      received := r.received + sliceEntries (t.table (sliceTable b)) b, heard := r.heard ++ [sliceChip b] } := by
  refine ⟨_, (exec_updateSliceArrive_run ht hready htrains hr).trans (by rw [if_neg hnew]), ?_⟩
  have hfold := mergeWork_foldSlice t (sliceTable b) (sliceChip b) (((t.cmd? r.cmd).map (fun c => c.job)).getD 0)
    (sliceEntries (t.table (sliceTable b)) b) b
  generalize State.foldSlice _ _ _ _ _ _ = w at hfold
  refine State.updateRun_setPush ?_ ?_ hr rfl rfl rfl rfl
  all_goals rw [State.skewNoted_frame]
  · exact hfold.runs
  · exact hfold.cmds

theorem updateSliceArrive_late {s t : State} {dt ch j : Nat} {b : Bytes} (ht : s.tick dt = t)
    (hready : (t.table (sliceTable b)).state = .ready) (htrains : (t.table (sliceTable b)).trainable = true)
    (hr : t.updateRun ch (sliceTable b) (sliceNumber b) = none) (hj : t.reachedBy ch (sliceTable b) (sliceNumber b) = some j) :
    ∃ u, exec (.updateSliceArrive dt ch b) s = .next u ∧
      Map.get 0 (u.table (sliceTable b)).counts 0x10D = Map.get 0 (t.table (sliceTable b)).counts 0x10D + 1 := by
  have hexec := exec_updateSliceArrive_noRun ht hready htrains hr
  rw [hj] at hexec
  refine ⟨_, hexec, ?_⟩
  have hfold := mergeWork_foldSlice t (sliceTable b) (sliceChip b) j (sliceEntries (t.table (sliceTable b)) b) b
  dsimp only [Option.elim]
  rw [State.counts_skewNoted _ _ _ (by decide), State.counts_countTable, (hfold.table _).get (by decide)]

end Sys2Proof.Machine
end

section
/-! PROOFS. Train configure (R166), and gradient pushes, folds and update exchanges together (O54). -/
namespace Sys2Proof.Machine

/-! ### Train configure -/

theorem exec_trainConfigure_illegal {s t : State} {dt g : Nat} {c : Cmd} (ht : s.tick dt = t)
    (hc : t.engineCmd? ⟨.rowMerge, g⟩ 0x92 = some c) (h : t.tableReady c.tableNo = false ∨ (t.table c.tableNo).trainable = false) :
    exec (.trainConfigure dt g) s = .next (t.illegal c) := by
  show execTrainConfigure dt g s = _
  simp only [execTrainConfigure, ht, hc]
  exact if_pos (by rcases h with h | h <;> simp [h])

theorem exec_trainConfigure_ready {s t x : State} {dt g : Nat} {c c' : Cmd} (ht : s.tick dt = t)
    (hc : t.engineCmd? ⟨.rowMerge, g⟩ 0x92 = some c) (hready : t.tableReady c.tableNo = true)
    (htrains : (t.table c.tableNo).trainable = true) (hstatus : c.u64 56 % 16 = 0) (hlow : bits (c.u64 40) 20 0 = 0)
    (hpages : t.needRanges c ⟨.rowMerge, g⟩ (statusRange (c.u64 56)) = .ready x c') (hok : x.statusOk c' = true) :
    exec (.trainConfigure dt g) s = .next (x.trainConfigure c') := by
  show execTrainConfigure dt g s = _
  simp only [execTrainConfigure, ht, hc, hready, htrains, hstatus, hlow, hpages, hok, ne_eq, not_true, decide_false, Bool.not_true,
    Bool.or_self, Bool.false_eq_true, if_false, if_true]

theorem State.trainConfigure_badFields {x : State} {c : Cmd} (h : c.trainOk = false) : x.trainConfigure c = x.adminEnd c 2 0 := by
  unfold State.trainConfigure
  simp only [h, Bool.not_false, if_true]

theorem State.trainConfigure_overBudget {x : State} {c : Cmd} (h : c.trainOk = true) (hbudget : 3 * x.num (objKey 0x2100 1) ≤ 4 * c.u32 28) :
    x.trainConfigure c = x.adminEnd c 0x0B 0 := by
  unfold State.trainConfigure
  simp only [h, Bool.not_true, Bool.false_eq_true, if_false, if_pos hbudget]

theorem State.trainConfigure_sets {x : State} {c : Cmd} (h : c.trainOk = true) (hbudget : 4 * c.u32 28 < 3 * x.num (objKey 0x2100 1))
    (hspill : bit (c.u8 18) 0 = false) : x.trainConfigure c = (x.setTable c.tableNo { x.table c.tableNo with
      rate := c.u32 20, epsilon := c.u32 24, budget := c.u32 28, channel := bits (c.u8 19) 3 0 }).adminEnd c 0 0 := by
  unfold State.trainConfigure
  simp only [h, hspill, Bool.not_true, Bool.not_false, Bool.false_eq_true, if_false, if_true, if_neg (Nat.not_le.2 hbudget)]

theorem Cmd.trainOk_of_bytes {c c' : Cmd} (h : c'.bytes = c.bytes) : c'.trainOk = c.trainOk := by
  unfold Cmd.trainOk Cmd.u8 Cmd.u32 Cmd.u64
  rw [h]

theorem trainConfigure_acts {s t x : State} {dt g : Nat} {c c' : Cmd} (ht : s.tick dt = t)
    (hc : t.engineCmd? ⟨.rowMerge, g⟩ 0x92 = some c) (hready : t.tableReady c.tableNo = true)
    (htrains : (t.table c.tableNo).trainable = true) (hstatus : c.u64 56 % 16 = 0) (hlow : bits (c.u64 40) 20 0 = 0)
    (hpages : t.needRanges c ⟨.rowMerge, g⟩ (statusRange (c.u64 56)) = .ready x c') (hok : x.statusOk c' = true)
    (hbytes : c'.bytes = c.bytes) :
    (c.trainOk = false → exec (.trainConfigure dt g) s = .next (x.adminEnd c' 2 0)) ∧
    (c.trainOk = true → 3 * x.num (objKey 0x2100 1) ≤ 4 * c.u32 28 → exec (.trainConfigure dt g) s = .next (x.adminEnd c' 0x0B 0)) ∧
    (c.trainOk = true → 4 * c.u32 28 < 3 * x.num (objKey 0x2100 1) → bit (c.u8 18) 0 = false →
      exec (.trainConfigure dt g) s = .next ((x.setTable c.tableNo { x.table c.tableNo with
        rate := c.u32 20, epsilon := c.u32 24, budget := c.u32 28, channel := bits (c.u8 19) 3 0 }).adminEnd c' 0 0)) := by
  have hfields : c'.trainOk = c.trainOk ∧ c'.tableNo = c.tableNo ∧ (∀ i, c'.u32 i = c.u32 i) ∧ (∀ i, c'.u8 i = c.u8 i) := by
    unfold Cmd.tableNo Cmd.u16 Cmd.u32 Cmd.u8
    rw [Cmd.trainOk_of_bytes hbytes, hbytes]
    exact ⟨rfl, rfl, fun _ => rfl, fun _ => rfl⟩
  obtain ⟨htrainOk, htable, hu32, hu8⟩ := hfields
  rw [exec_trainConfigure_ready ht hc hready htrains hstatus hlow hpages hok, ← htrainOk, ← htable]
  simp only [← hu32, ← hu8]
  exact ⟨fun h => congrArg _ (State.trainConfigure_badFields h), fun h hb => congrArg _ (State.trainConfigure_overBudget h hb),
    fun h hb hspill => congrArg _ (State.trainConfigure_sets h hb hspill)⟩

/-! ### Pushes and exchanges that run -/

/-- A push that runs waits for its contributions, and then ends (R139). -/
theorem gradientPush_runs {s t : State} {dt g : Nat} {c : Cmd} {r : PushRun} (ht : s.tick dt = t)
    (hc : t.engineCmd? ⟨.rowMerge, g⟩ 0x90 = some c) (hr : t.update.runs.find? (fun r => r.cmd = c.id) = some r) :
    (t.update.deliveries.any (fun d => d.cmd = c.id) = true → exec (.gradientPush dt g) s = .next t) ∧
    (t.update.deliveries.any (fun d => d.cmd = c.id) = false → c.u64 56 = 0 → t.cmd? c.id = some c →
      ∃ u, exec (.gradientPush dt g) s = .next u ∧ u.mem = t.mem ∧ u.cmd? c.id = some { c with phase := .finished } ∧
        u.update.runs = t.update.runs.filter (fun r => r.cmd ≠ c.id)) := by
  rw [exec_gradientPush_run ht hc hr]
  refine ⟨fun h => by rw [if_pos h], fun h hsummary hcmd => ?_⟩
  have hends := State.endRun_ends (pushSummary r) hsummary hcmd rfl rfl rfl
  rw [if_neg (by rw [h]; exact Bool.false_ne_true)]
  exact ⟨_, rfl, hends.mem, hends.cmd, hends.runs⟩

/-- An exchange that starts is an illegal operation, or is stamped and seals (R147, R149). -/
theorem updateExchange_starts {s t : State} {dt g : Nat} {c : Cmd} (ht : s.tick dt = t) (hc : t.engineCmd? ⟨.rowMerge, g⟩ 0x91 = some c)
    (hr : t.update.runs.find? (fun r => r.cmd = c.id) = none) (hready : t.tableReady c.tableNo = true) (hcap : c.updateCapacity ≠ 0)
    (hsummary : c.u64 56 = 0) (hheld : c.held = none) (hplace : ∀ x ∈ t.outbound c.tableNo, x.2.place = none) :
    ∃ (w : State) (r : PushRun), w.update.runs.find? (fun r => r.cmd = c.id) = some r ∧ exec (.updateExchange dt g) s = .next
        (w.handExchange { c with armed := true } r) ∧ r.stamp = t.now ∧ r.epoch = t.epoch ∧ r.handed = false ∧ w.mem = t.mem ∧
      w.fabric = t.fabric ∧
      ∀ k ∈ t.others (t.table c.tableNo), ∀ g' m, m ∈ t.entriesOf g' →
        (g', m) ∈ (((t.outbound c.tableNo).filter (fun x => x.2.taken.isNone)).filter (fun x => x.2.chip = k)).take
          c.updateCapacity →
        { m with taken := some (c.id, m.sum), since := none } ∈ w.entriesOf g' := by
  obtain ⟨w, r, hrun, hstamp, hnow, hepoch, hhanded, hmem, hfabric, hsealed⟩ := State.stampExchange_seals (c := c) g hr hplace
  refine ⟨w, r, hrun, ?_, hnow, hepoch, hhanded, hmem, hfabric, fun k hk g' m hm hchosen => ?_⟩
  · rw [exec_updateExchange_start ht hc hr, State.startExchange_stamps g hready hcap hsummary hheld, hstamp]
  · exact hsealed g' m hm (List.mem_flatMap.2 ⟨k, hk, hchosen⟩)

/-- An exchange that runs is handed over, waits for slices, and ends with the last of them or at its timeout (R149, R150). -/
theorem updateExchange_runs {s t : State} {dt g : Nat} {c : Cmd} {r : PushRun} (ht : s.tick dt = t)
    (hc : t.engineCmd? ⟨.rowMerge, g⟩ 0x91 = some c) (hr : t.update.runs.find? (fun r => r.cmd = c.id) = some r) (hsummary : c.u64 56 = 0)
    (hcmd : t.cmd? c.id = some c) :
    (r.handed = false → exec (.updateExchange dt g) s = .next (t.handExchange c r)) ∧
    (r.handed = true → t.exchangeDone c r = false → exec (.updateExchange dt g) s = .next t) ∧
    (t.exchangeDone c r = true → ∃ u, exec (.updateExchange dt g) s = .next u ∧ u.mem = t.mem ∧
      u.cmd? c.id = some { c with phase := .finished } ∧ u.update.runs = t.update.runs.filter (fun r => r.cmd ≠ c.id)) ∧
    (t.now < r.deadline → exec (.updateExchangeTimeout dt g) s = .next t) ∧
    (r.deadline ≤ t.now → ∃ u, exec (.updateExchangeTimeout dt g) s = .next u ∧ u.mem = t.mem ∧
      u.cmd? c.id = some { c with phase := .finished } ∧ u.update.runs = t.update.runs.filter (fun r => r.cmd ≠ c.id)) := by
  rw [exec_updateExchange_run ht hc hr, exec_updateExchangeTimeout_run ht hc hr]
  refine ⟨fun h => by rw [if_pos h], fun h hdone => by simp [h, hdone], fun hdone => ?_, fun h => by rw [if_pos h], fun h => ?_⟩
  · have hends := State.endExchange_ends r hsummary hcmd rfl rfl rfl
    rw [if_neg (by rw [State.handed_of_exchangeDone hdone]; decide), if_pos hdone]
    exact ⟨_, rfl, hends.mem, hends.cmd, hends.runs⟩
  · have hends := State.expireExchange_ends r hsummary hcmd
    rw [if_neg (Nat.not_lt.2 h)]
    exact ⟨_, rfl, hends.mem, hends.cmd, hends.runs⟩

end Sys2Proof.Machine

open Sys2Proof.Machine in
/-- Settles O54: clause by clause, gradient pushes, the fold of a contribution, update exchanges, the slices that arrive and train configure.
The clauses on exchanges rest on the model's own reading where the manual is silent: a summary address that is no multiple of 32 is illegal
(notes/assumptions/124.md), and entries are sealed at the stamp, before the channel is held (notes/assumptions/32.md, 122.md). -/
theorem updatesAreFolded : Obligations.UpdatesAreFolded := by
  unfold Obligations.UpdatesAreFolded
  refine ⟨fun s t dt g c ht hc => ⟨?_, ?_, ?_⟩, fun s t dt g d k ht hd hhome hk => ?_, fun s t dt g c ht hc => ⟨fun hr => ⟨?_, ?_⟩, ?_, ?_⟩,
    fun s t dt ch b T ht hT => ?_, fun s t x dt g c c' ht hc => ⟨?_, ?_⟩⟩
  · exact fun hr h => ⟨_, (exec_gradientPush_start ht hc hr).trans (congrArg _ (State.startPush_illegal g h)), State.illegal_faulted _ _⟩
  · exact fun x y c' p hr hready hok hungrouped hsummary hheld hpages hbytes hgrads hlist hread hc' =>
      gradientPush_starts ht hc hr hready hok hungrouped hsummary hheld hpages hbytes hgrads hlist hread hc'
  · exact fun r hr => gradientPush_runs ht hc hr
  · subst hk
    exact ⟨fun e he hplace htaken => contributionFold_adds ht hd hhome he hplace htaken,
      fun hnew hroom => contributionFold_opens ht hd hhome hnew hroom⟩
  · exact fun h => ⟨_, (exec_updateExchange_start ht hc hr).trans (congrArg _ (State.startExchange_illegal g h)), State.illegal_faulted _ _⟩
  · exact fun hready hcap hsummary hheld _ hplace => updateExchange_starts ht hc hr hready hcap hsummary hheld hplace
  · exact fun r _ hrunning => ⟨fun hfree hnew => State.handExchange_waits r hrunning hfree hnew,
      fun hholds => State.handExchange_hands r hrunning hholds⟩
  · exact fun r hr hsummary hcmd => updateExchange_runs ht hc hr hsummary hcmd
  · subst hT
    refine ⟨fun h => exec_updateSliceArrive_unready ht h, fun r hready htrains hr => ⟨fun hheard => ?_, fun hnew => ?_⟩,
      fun hready htrains hr => ⟨fun hnot => ?_, fun j hj => ?_⟩⟩
    · rw [exec_updateSliceArrive_run ht hready htrains hr, if_pos hheard]
    · exact updateSliceArrive_run ht hready htrains hr hnew
    · rw [exec_updateSliceArrive_noRun ht hready htrains hr, hnot, Option.elim]
    · exact updateSliceArrive_late ht hready htrains hr hj
  · exact fun h => ⟨_, exec_trainConfigure_illegal ht hc h, State.illegal_faulted _ _⟩
  · exact fun hready htrains hstatus hlow hpages hok hbytes => trainConfigure_acts ht hc hready htrains hstatus hlow hpages hok hbytes
end

section
/-! PROOFS. The matrix engine (R169 to R197): a scratchpad without uncorrectable words takes every access of the array, and what a pass, the
drain of a block and the end of a command change. -/
namespace Sys2Proof.Machine

/-! ### A scratchpad without uncorrectable words -/

theorem isStacked_of_scratchBase_le {core a : Nat} (h : scratchBase core ≤ a) : isStacked a = false := by
  refine decide_eq_false ?_
  simp only [stackedBytes, scratchBase] at *
  omega

theorem State.read_clean {s : State} (acc : Access) {a : Nat} (n : Nat) (hs : s.mem.sramBad = []) (ha : isStacked a = false) :
    (s.read acc a n).1 = .ok (s.bytes a n) := by
  simp [s.read_result, ha, State.firstSramBad, hs]

theorem State.write_clean {s : State} (acc : Access) {a : Nat} (d : Bytes) (hs : s.mem.sramBad = []) (ha : isStacked a = false) :
    s.write acc a d = (.ok [], s.store a d) := by
  simp [State.write, ha, hs]

theorem State.store_sramBad {s : State} (a : Nat) (d : Bytes) (hs : s.mem.sramBad = []) : (s.store a d).mem.sramBad = [] := by
  simp [State.store, hs]

theorem State.readLines_clean {s : State} {core base : Nat} (stride len : Nat) (hs : s.mem.sramBad = []) (hb : scratchBase core ≤ base) :
    ∀ n, ∃ l, s.readLines base stride len n = .ok l
  | 0 => ⟨[], rfl⟩
  | n + 1 => by
    obtain ⟨l, hl⟩ := State.readLines_clean stride len hs hb n
    have hr := s.read_clean ⟨.c1, none⟩ len hs (isStacked_of_scratchBase_le (Nat.le_add_right_of_le (k := n * stride) hb))
    exact ⟨_, by simp only [State.readLines, hl, hr]; rfl⟩

theorem State.readVectors_clean {s : State} (core : Nat) (x : MatrixCmd) (r o : Nat) (hs : s.mem.sramBad = []) :
    ∃ v, s.readVectors core x r o = .ok v := by
  have hr (a n : Nat) := s.read_clean ⟨.c1, none⟩ n hs (isStacked_of_scratchBase_le (Nat.le_add_right (scratchBase core) a))
  unfold State.readVectors
  simp only [hr]
  cases x.bias <;> cases x.rowShifts <;> cases x.colShifts <;> exact ⟨_, rfl⟩

/-- A line is written as it stands, whether or not it is merged into a longer one. -/
theorem State.writeLine_clean {s : State} {core a : Nat} (merge : Bool) (d : Bytes) (hs : s.mem.sramBad = [])
    (ha : scratchBase core ≤ a) : s.writeLine merge a d = (none, s.store a d) := by
  have hline : scratchBase core ≤ (a + d.length) / 64 * 64 := by simp only [scratchBase] at *; omega
  have hr := s.read_clean ⟨.c1, none⟩ 64 hs (isStacked_of_scratchBase_le hline)
  unfold State.writeLine
  simp only [s.write_clean _ d hs (isStacked_of_scratchBase_le ha), hr, ← apply_ite MemResult.ok]

/-! ### What the array's work leaves alone -/

theorem matrixKey_inj {core i j : Nat} : matrixKey core i = matrixKey core j ↔ i = j := by
  simp only [matrixKey, objKey]; omega

theorem matrixKey_ne {i j : Nat} (core : Nat) (h : i ≠ j) : matrixKey core i ≠ matrixKey core j := mt matrixKey_inj.1 h

/-- From `s` to `u` an array has worked: no command has changed, no uncorrectable word has come, and the passes and stalls counted for its
core (0x6300.01 and .04) are the same. -/
structure ArrayWork (core : Nat) (s u : State) : Prop where
  cmds : u.cmds = s.cmds
  clean : s.mem.sramBad = [] → u.mem.sramBad = []
  passes : u.num (matrixKey core 1) = s.num (matrixKey core 1)
  stalls : u.num (matrixKey core 4) = s.num (matrixKey core 4)

theorem ArrayWork.refl (core : Nat) (s : State) : ArrayWork core s s := ⟨rfl, id, rfl, rfl⟩

theorem ArrayWork.trans {core : Nat} {a b c : State} (h : ArrayWork core a b) (k : ArrayWork core b c) : ArrayWork core a c :=
  ⟨k.cmds.trans h.cmds, fun hs => k.clean (h.clean hs), k.passes.trans h.passes, k.stalls.trans h.stalls⟩

theorem arrayWork_bump {core k : Nat} (s : State) (n : Nat) (h1 : matrixKey core 1 ≠ k) (h4 : matrixKey core 4 ≠ k) :
    ArrayWork core s (s.bump k n) := ⟨rfl, id, s.num_bump_other n h1, s.num_bump_other n h4⟩

theorem arrayWork_count {i : Nat} (core : Nat) (s : State) (n : Nat) (h1 : 1 ≠ i) (h4 : 4 ≠ i) :
    ArrayWork core s (s.bump (matrixKey core i) n) := arrayWork_bump s n (matrixKey_ne core h1) (matrixKey_ne core h4)

theorem arrayWork_countPackage {i : Nat} (core : Nat) (s : State) (n : Nat) (hi : i < 256) :
    ArrayWork core s (s.bump (objKey 0x2400 i) n) :=
  arrayWork_bump s n (by simp only [matrixKey, objKey]; omega) (by simp only [matrixKey, objKey]; omega)

theorem arrayWork_store (core : Nat) (s : State) (a : Nat) (d : Bytes) : ArrayWork core s (s.store a d) :=
  ⟨by rw [State.store_frame], s.store_sramBad a d, s.num_store a d _, s.num_store a d _⟩

theorem State.writeLines_clean {core base : Nat} (merge : Bool) (hb : scratchBase core ≤ base) :
    ∀ (l : List (Nat × Bytes)) {s : State}, s.mem.sramBad = [] →
      ∃ u, s.writeLines merge base l = (none, u) ∧ ∀ k, ArrayWork k s u
  | [], s, _ => ⟨s, rfl, fun k => .refl k s⟩
  | (o, d) :: l, s, hs => by
    obtain ⟨u, hu, hwork⟩ := State.writeLines_clean merge hb l (s.store_sramBad (base + o) d hs)
    refine ⟨u, ?_, fun k => (arrayWork_store k s _ d).trans (hwork k)⟩
    simp only [State.writeLines, s.writeLine_clean merge d hs (Nat.le_add_right_of_le (k := o) hb), hu]

theorem arrayWork_countOutputs (core : Nat) (s : State) (n m : Nat) : ArrayWork core s (s.countOutputs core n m) :=
  (((arrayWork_count core s n (by decide) (by decide)).trans (arrayWork_countPackage core _ n (by decide))).trans
    (arrayWork_count core _ m (by decide) (by decide))).trans (arrayWork_countPackage core _ m (by decide))

/-! ### Tiles and passes (R174, R177, R178) -/

@[simp] theorem State.bank_setBank (s : State) (i : Nat) (b : Bank) : (s.setBank i b).bank i = b := Map.get_set_same _ _ _ _
theorem State.bank_setBank_other (s : State) {i j : Nat} (b : Bank) (h : j ≠ i) : (s.setBank i b).bank j = s.bank j :=
  Map.get_set_other _ _ _ h

/-- Bank `pick` of a core becomes its active one. -/
def State.pickBank (s : State) (core pick : Nat) : State :=
  (s.setBank (2 * core) { s.bank (2 * core) with active := pick = 0 }).setBank (2 * core + 1)
    { s.bank (2 * core + 1) with active := pick = 1 }

/-- The tile in the idle bank is used there, and that bank becomes active. -/
theorem State.useTile_hit_one {t : State} {core o k : Nat} {x : MatrixCmd} (hactive : (t.bank (2 * core)).active = true)
    (h0 : (t.bank (2 * core)).sameTile (x.tileRecord o k) = false) (h1 : (t.bank (2 * core + 1)).sameTile (x.tileRecord o k) = true) :
    t.useTile core x o k = (.ok (t.bank (2 * core + 1)), (t.pickBank core 1).bump (matrixKey core 6) 1) := by
  simp [State.useTile, State.pickBank, hactive, h0, h1]

theorem State.loadTile_clean {s : State} (core : Nat) (x : MatrixCmd) (o k : Nat) (hs : s.mem.sramBad = []) :
    ∃ b, s.loadTile core x o k = .ok b := by
  obtain ⟨l, hl⟩ := s.readLines_clean (x.wStride * 64) (x.tileRecord o k).lineBytes hs
    (Nat.le_add_right (scratchBase core) (x.tileRecord o k).first) (x.tileRecord o k).lines
  exact ⟨_, by simp only [State.loadTile, hl]; rfl⟩

/-- A tile is used from its bank or loaded: either changes banks and counts alone. -/
theorem State.useTile_clean {s : State} (core : Nat) (x : MatrixCmd) (o k : Nat) (hs : s.mem.sramBad = []) :
    ∃ b u, s.useTile core x o k = (.ok b, u) ∧ u.mem = s.mem ∧ ArrayWork core s u := by
  obtain ⟨b, hb⟩ := s.loadTile_clean core x o k hs
  unfold State.useTile
  extract_lets b0 b1 r idle hit pick u
  have hu : ArrayWork core s u := ⟨rfl, id, rfl, rfl⟩
  cases hit with
  | some i => exact ⟨_, _, rfl, rfl, hu.trans (arrayWork_count core u 1 (by decide) (by decide))⟩
  | none =>
    simp only [hb]
    have hset : ArrayWork core u (u.setBank (2 * core + pick) b) := ⟨rfl, id, rfl, rfl⟩
    exact ⟨_, _, rfl, rfl, (hu.trans hset).trans (arrayWork_count core _ 1 (by decide) (by decide))⟩

theorem State.readActs_clean {s : State} (core : Nat) (x : MatrixCmd) (r k : Nat) (hs : s.mem.sramBad = []) :
    ∃ a, s.readActs core x r k = .ok a := by
  unfold State.readActs
  refine s.readLines_clean (core := core) _ _ hs ?_ _
  rw [Nat.add_assoc, Nat.add_assoc]
  exact Nat.le_add_right _ _

/-- From `s` to `u` a pass of a run has been carried out and counted. -/
structure PassDone (run run' : MatrixRun) (s u : State) : Prop where
  pass : run'.pass = run.pass + 1
  cmd : run'.cmd = run.cmd
  core : run'.core = run.core
  mem : u.mem = s.mem
  cmds : u.cmds = s.cmds
  passes : Rose s u (matrixKey run.core 1) 1
  stalls : u.num (matrixKey run.core 4) = s.num (matrixKey run.core 4)

theorem State.countPass_passes (s : State) (core : Nat) (x : MatrixCmd) (a : List Bytes) (b : Bank) (p : Nat × Nat × Nat) :
    Rose s (s.countPass core x a b p) (matrixKey core 1) 1 := fun h =>
  (State.num_bump_other _ _ (matrixKey_ne core (j := 3) (by decide))).trans
    ((State.num_bump_other _ _ (matrixKey_ne core (j := 2) (by decide))).trans (s.num_bump_same _ 1 h))

theorem State.countPass_stalls (s : State) (core : Nat) (x : MatrixCmd) (a : List Bytes) (b : Bank) (p : Nat × Nat × Nat) :
    (s.countPass core x a b p).num (matrixKey core 4) = s.num (matrixKey core 4) :=
  (State.num_bump_other _ _ (matrixKey_ne core (j := 3) (by decide))).trans
    ((State.num_bump_other _ _ (matrixKey_ne core (j := 2) (by decide))).trans (s.num_bump_other 1 (matrixKey_ne core (by decide))))

theorem State.runPass_clean {s : State} (x : MatrixCmd) (run : MatrixRun) (p : Nat × Nat × Nat) (hs : s.mem.sramBad = []) :
    ∃ run' u, s.runPass x run p = (.ok run', u) ∧ PassDone run run' s u := by
  obtain ⟨b, y, htile, hmem, hwork⟩ := s.useTile_clean run.core x p.2.1 p.2.2 hs
  obtain ⟨a, hacts⟩ := y.readActs_clean run.core x p.1 p.2.2 (hwork.clean hs)
  refine ⟨{ run with pass := run.pass + 1, acc := x.pass a b p (if x.opens p then [] else run.acc) }, y.countPass run.core x a b p, ?_,
    rfl, rfl, rfl, hmem, hwork.cmds, fun h => ?_, (y.countPass_stalls ..).trans hwork.stalls⟩
  · simp only [State.runPass, htile, hacts]
  · rw [← hwork.passes] at h ⊢
    exact y.countPass_passes run.core x a b p h

/-! ### The run of a command and its end -/

/-- The first of the commands running on an array (R182). -/
theorem State.matrixCmd?_first {t : State} {core op : Nat} {c : Cmd} (h : t.matrixCmd? core op = some c) :
    c ∈ t.cmds ∧ c.opcode = op ∧ ∀ d ∈ t.cmds, d.unit = some ⟨.matrix, core⟩ → d.phase = .running → c.started ≤ d.started := by
  unfold State.matrixCmd? at h
  extract_lets l at h
  obtain ⟨hfind, hop⟩ := Option.filter_eq_some_iff.1 h
  obtain ⟨hall, -⟩ := List.find?_eq_some_iff_append.1 hfind
  refine ⟨(List.mem_filter.1 (List.mem_of_find?_eq_some hfind)).1, by simpa using hop, fun d hd hunit hphase => ?_⟩
  have hle := List.all_eq_true.1 hall d (List.mem_filter.2 ⟨hd, by simp [hunit, hphase]⟩)
  simp only [Bool.or_eq_true, Bool.and_eq_true, decide_eq_true_eq] at hle
  rcases hle with hlt | ⟨heq, -⟩
  · exact Nat.le_of_lt hlt
  · exact Nat.le_of_eq heq

theorem State.matrixRun_cmd (t : State) (c : Cmd) (core : Nat) : (t.matrixRun c core).cmd = c.id := by
  unfold State.matrixRun
  cases h : t.arith.passes.find? (fun r => r.cmd = c.id) with
  | none => rfl
  | some r => simpa using List.find?_some h

theorem State.matrixRun_setMatrixRun (s : State) {c : Cmd} {r : MatrixRun} (core : Nat) (h : r.cmd = c.id) :
    (s.setMatrixRun r).matrixRun c core = r := by
  have hnone : (s.arith.passes.filter (fun x => x.cmd ≠ r.cmd)).find? (fun r => r.cmd = c.id) = none :=
    List.find?_eq_none.2 fun x hx => by simpa [h] using (List.mem_filter.1 hx).2
  simp only [State.matrixRun, State.setMatrixRun, List.find?_append, hnone, Option.none_or]
  simp [h]

theorem State.cmd?_matrixDone {s : State} {c : Cmd} (h : s.cmd? c.id = some c) :
    (s.matrixDone c).cmd? c.id = some { c with phase := .finished } :=
  State.cmd?_setCmd (c := { c with phase := .finished }) h

/-! ### The drain (R186 to R188, R192) -/

/-- Lines at the same places and of the same lengths. -/
def SameShape (l k : List (Nat × Bytes)) : Prop := l.map (fun x => (x.1, x.2.length)) = k.map (fun x => (x.1, x.2.length))

theorem Config.length_freeBytes (k n : Nat) : (Config.freeBytes k n).length = n := by simp [Config.freeBytes]

/-- From `s` to `u` free values have been drawn, and nothing else. -/
def Drew (s u : State) : Prop := ∃ n, u = { s with free := n }

theorem Drew.trans {a b c : State} (h : Drew a b) (k : Drew b c) : Drew a c := by
  obtain ⟨_, rfl⟩ := h
  obtain ⟨n, rfl⟩ := k
  exact ⟨n, rfl⟩

theorem Drew.mem {s u : State} (h : Drew s u) : u.mem = s.mem := by obtain ⟨_, rfl⟩ := h; rfl

theorem Drew.arrayWork {s u : State} (h : Drew s u) (core : Nat) : ArrayWork core s u := by
  obtain ⟨_, rfl⟩ := h
  exact ⟨rfl, id, rfl, rfl⟩

/-- One more undefined line, of the place and length of `x`. -/
def drawLine (r : List (Nat × Bytes) × State) (x : Nat × Bytes) : List (Nat × Bytes) × State :=
  (r.1 ++ [(x.1, (r.2.drawBytes x.2.length).1)], (r.2.drawBytes x.2.length).2)

theorem State.freeLines_eq_foldl (s : State) (l : List (Nat × Bytes)) : s.freeLines l = l.foldl drawLine ([], s) := rfl

theorem foldl_drawLine : ∀ (l : List (Nat × Bytes)) (r : List (Nat × Bytes) × State),
    ∃ k, SameShape k l ∧ (l.foldl drawLine r).1 = r.1 ++ k ∧ Drew r.2 (l.foldl drawLine r).2
  | [], r => ⟨[], rfl, (List.append_nil _).symm, r.2.free, rfl⟩
  | x :: l, r => by
    obtain ⟨k, hk, hlines, hdrew⟩ := foldl_drawLine l (drawLine r x)
    refine ⟨(x.1, (r.2.drawBytes x.2.length).1) :: k, ?_, ?_, .trans ⟨_, rfl⟩ hdrew⟩
    · simpa [SameShape, State.drawBytes, Config.length_freeBytes] using hk
    · rw [List.foldl_cons, hlines, drawLine, List.append_assoc, List.singleton_append]

/-- Undefined lines take free values alone, and have the places and lengths of those they stand for. -/
theorem State.freeLines_drawn (s : State) (l : List (Nat × Bytes)) : SameShape (s.freeLines l).1 l ∧ Drew s (s.freeLines l).2 := by
  obtain ⟨k, hk, hlines, hdrew⟩ := foldl_drawLine l ([], s)
  rw [s.freeLines_eq_foldl, hlines]
  exact ⟨hk, hdrew⟩

/-- The results of a drain stand ready to be written in `w`: those of the block, or free values where the output meets an operand. -/
structure DrainReady (s : State) (x : MatrixCmd) (r o : Nat) (rows : List (List (Nat × Stored) × Int)) (w : State)
    (lines shifts : List (Nat × Bytes)) : Prop where
  drawn : Drew s w
  linesShape : SameShape lines (x.outLines r o rows)
  shiftsShape : SameShape shifts (x.shiftLine r rows)
  defined : x.overlaps x.outRanges = false → w = s ∧ lines = x.outLines r o rows ∧ shifts = x.shiftLine r rows

/-- What a drain does once its results stand ready: they are written, and counted. -/
def State.writeDrained (w : State) (x : MatrixCmd) (core : Nat) (lines shifts : List (Nat × Bytes)) (nonFinite saturated : Nat) :
    Option Nat × State :=
  match w.writeLines x.column (scratchBase core) lines with
  | (some e, s) => (some e, s)
  | (none, s) =>
    match s.writeLines false (scratchBase core) shifts with
    | (some e, s) => (some e, s)
    | (none, s) => (none, s.countOutputs core nonFinite saturated)

theorem State.writeDrained_none {w y z : State} {x : MatrixCmd} {core : Nat} {lines shifts : List (Nat × Bytes)} (n m : Nat)
    (hlines : w.writeLines x.column (scratchBase core) lines = (none, y))
    (hshifts : y.writeLines false (scratchBase core) shifts = (none, z)) :
    w.writeDrained x core lines shifts n m = (none, z.countOutputs core n m) := by
  simp only [State.writeDrained, hlines, hshifts]

theorem State.drainBlock_eq {s : State} {x : MatrixCmd} {core r o : Nat} {v : Vectors} (acc : List (List (Nat × Bool)))
    (hv : s.readVectors core x r o = .ok v) : ∃ w lines shifts n m, DrainReady s x r o (x.drain v acc) w lines shifts ∧
      s.drainBlock x core r o acc = w.writeDrained x core lines shifts n m := by
  unfold State.drainBlock
  simp only [hv]
  cases hmeets : x.overlaps x.outRanges with
  | false => exact ⟨s, _, _, _, _, ⟨⟨s.free, rfl⟩, rfl, rfl, fun _ => ⟨rfl, rfl, rfl⟩⟩, rfl⟩
  | true =>
    obtain ⟨hl, hdrew⟩ := s.freeLines_drawn (x.outLines r o (x.drain v acc))
    obtain ⟨hk, hdrew'⟩ := (s.freeLines (x.outLines r o (x.drain v acc))).2.freeLines_drawn (x.shiftLine r (x.drain v acc))
    simp only [if_true]
    refine ⟨_, _, _, _, _, ⟨(hdrew.trans hdrew').trans ⟨_, rfl⟩, hl, hk, fun h => ?_⟩, rfl⟩
    rw [hmeets] at h
    cases h

/-- The drain of a block writes its results and is counted. -/
theorem State.drainBlock_clean {s : State} (x : MatrixCmd) (core r o : Nat) (acc : List (List (Nat × Bool))) (hs : s.mem.sramBad = []) :
    ∃ u, s.drainBlock x core r o acc = (none, u) ∧ ArrayWork core s u := by
  obtain ⟨v, hv⟩ := s.readVectors_clean core x r o hs
  obtain ⟨w, lines, shifts, n, m, hready, hdrain⟩ := State.drainBlock_eq acc hv
  have hdrawn := hready.drawn.arrayWork core
  obtain ⟨y, hy, hlines⟩ := State.writeLines_clean x.column (Nat.le_refl (scratchBase core)) lines (hdrawn.clean hs)
  obtain ⟨z, hz, hshifts⟩ := State.writeLines_clean false (Nat.le_refl (scratchBase core)) shifts ((hlines core).clean (hdrawn.clean hs))
  exact ⟨_, hdrain.trans (State.writeDrained_none n m hy hz),
    hdrawn.trans ((hlines core).trans ((hshifts core).trans (arrayWork_countOutputs core z n m)))⟩

/-! ### What follows a pass -/

/-- The step of a run after a pass, its block drained: the run stands where the pass has left it, or its command has ended. -/
def State.runOn (s : State) (c : Cmd) (run : MatrixRun) (passes : Nat) : State :=
  if run.pass < passes then s.setMatrixRun run else s.matrixDone c

theorem State.runOn_mem (s : State) (c : Cmd) (run : MatrixRun) (n : Nat) : (s.runOn c run n).mem = s.mem := by
  unfold State.runOn; split <;> rfl

theorem State.num_runOn (s : State) (c : Cmd) (run : MatrixRun) (n k : Nat) : (s.runOn c run n).num k = s.num k := by
  unfold State.runOn; split <;> rfl

theorem State.runOn_continues {s : State} {c : Cmd} {run : MatrixRun} {n : Nat} (core : Nat) (hcmd : run.cmd = c.id) (h : run.pass < n)
    (hc : s.cmd? c.id = some c) : (s.runOn c run n).cmd? c.id = some c ∧ (s.runOn c run n).matrixRun c core = run := by
  rw [State.runOn, if_pos h]
  exact ⟨hc, s.matrixRun_setMatrixRun core hcmd⟩

theorem State.runOn_ends {s : State} {c : Cmd} {run : MatrixRun} {n : Nat} (h : n ≤ run.pass) (hc : s.cmd? c.id = some c) :
    (s.runOn c run n).cmd? c.id = some { c with phase := .finished } := by
  rw [State.runOn, if_neg (Nat.not_lt.2 h)]
  exact State.cmd?_matrixDone hc

theorem State.afterPass_open {t : State} {x : MatrixCmd} {q : Nat × Nat × Nat} (c : Cmd) (run : MatrixRun) (h : x.closes q = false) :
    t.afterPass c x run q = t.runOn c run x.passes.length := by
  simp [State.afterPass, State.runOn, h]

theorem State.afterPass_drained {t u : State} {x : MatrixCmd} {run : MatrixRun} {q : Nat × Nat × Nat} (c : Cmd) (h : x.closes q = true)
    (hdrain : t.drainBlock x run.core q.1 q.2.1 run.acc = (none, u)) : t.afterPass c x run q = u.runOn c run x.passes.length := by
  simp [State.afterPass, State.runOn, h, hdrain]

/-- A block that is complete drains: its results are written, and nothing else of memory. -/
theorem State.afterPass_drains (t : State) (c : Cmd) (x : MatrixCmd) (run : MatrixRun) {q : Nat × Nat × Nat} {v : Vectors}
    (hcloses : x.closes q = true) (hv : t.readVectors run.core x q.1 q.2.1 = .ok v) :
    ∃ w lines shifts, DrainReady t x q.1 q.2.1 (x.drain v run.acc) w lines shifts ∧
      ∀ y z, w.writeLines x.column (scratchBase run.core) lines = (none, y) →
        y.writeLines false (scratchBase run.core) shifts = (none, z) → (t.afterPass c x run q).mem = z.mem := by
  obtain ⟨w, lines, shifts, n, m, hready, hdrain⟩ := State.drainBlock_eq run.acc hv
  refine ⟨w, lines, shifts, hready, fun y z hy hz => ?_⟩
  rw [State.afterPass_drained c hcloses (hdrain.trans (State.writeDrained_none n m hy hz)), State.runOn_mem]
  rfl

/-- With no uncorrectable word a pass is followed by a drain where one is due, and by the next pass or the end. -/
theorem State.afterPass_clean {t : State} (c : Cmd) (x : MatrixCmd) (run : MatrixRun) (q : Nat × Nat × Nat) (hs : t.mem.sramBad = []) :
    ∃ u, t.afterPass c x run q = u.runOn c run x.passes.length ∧ ArrayWork run.core t u := by
  cases h : x.closes q with
  | false => exact ⟨t, State.afterPass_open c run h, .refl _ t⟩
  | true =>
    obtain ⟨u, hu, hwork⟩ := t.drainBlock_clean x run.core q.1 q.2.1 run.acc hs
    exact ⟨u, State.afterPass_drained c h hu, hwork⟩

/-! ### Matrix multiply -/

theorem exec_matrixMultiply_faults {s t : State} {dt core stalls : Nat} {parity : Bool} {c : Cmd} (ht : s.tick dt = t)
    (hc : t.matrixCmd? core 0x30 = some c) (h : c.matrix.ok = false ∨ parity = true) :
    ∃ u, exec (.matrixMultiply dt core stalls parity) s = .next u ∧ Faulted t u := by
  have hexec : exec (.matrixMultiply dt core stalls parity) s = execMatrixMultiply dt core stalls parity s := rfl
  rw [hexec]
  cases hok : c.matrix.ok with
  | false => exact ⟨_, by simp [execMatrixMultiply, ht, hc, hok], t.illegal_faulted c⟩
  | true =>
    obtain rfl : parity = true := by simpa [hok] using h
    exact ⟨_, by simp [execMatrixMultiply, ht, hc, hok], t.parityFault_faulted c ⟨.matrix, core⟩⟩

theorem exec_matrixMultiply_pass {s t x : State} {dt core stalls : Nat} {c : Cmd} {run' : MatrixRun} {q : Nat × Nat × Nat}
    (ht : s.tick dt = t) (hc : t.matrixCmd? core 0x30 = some c) (hok : c.matrix.ok = true)
    (hq : c.matrix.passes[(t.matrixRun c core).pass]? = some q)
    (hpass : (t.bump (matrixKey core 4) stalls).runPass c.matrix (t.matrixRun c core) q = (.ok run', x)) :
    exec (.matrixMultiply dt core stalls false) s = .next (x.afterPass c c.matrix run' q) := by
  show execMatrixMultiply dt core stalls false s = _
  simp [execMatrixMultiply, ht, hc, hok, hq, hpass]

/-- A pass at which the array is held for a feeder (R175) counts itself and the cycles held. -/
theorem State.runPass_stalled {t : State} {core : Nat} (x : MatrixCmd) {run : MatrixRun} (p : Nat × Nat × Nat) (stalls : Nat)
    (hs : t.mem.sramBad = []) (hcore : run.core = core) :
    ∃ run' u, (t.bump (matrixKey core 4) stalls).runPass x run p = (.ok run', u) ∧ run'.pass = run.pass + 1 ∧ run'.cmd = run.cmd ∧
      run'.core = core ∧ u.mem = t.mem ∧ u.cmds = t.cmds ∧ Rose t u (matrixKey core 1) 1 ∧ Rose t u (matrixKey core 4) stalls := by
  obtain ⟨run', u, hpass, hdone⟩ := State.runPass_clean (s := t.bump (matrixKey core 4) stalls) x run p hs
  obtain ⟨hcount, hcmd, hcore', hmem, hcmds, hpasses, hstalls⟩ := hdone
  subst hcore
  have hother : (t.bump (matrixKey run.core 4) stalls).num (matrixKey run.core 1) = t.num (matrixKey run.core 1) :=
    t.num_bump_other _ (matrixKey_ne _ (by decide))
  refine ⟨run', u, hpass, hcount, hcmd, hcore', hmem, hcmds, fun h => ?_, fun h => hstalls.trans (t.num_bump_same _ _ h)⟩
  rw [← hother] at h ⊢
  exact hpasses h

theorem matrixMultiply_runs {s t : State} {dt core stalls : Nat} {c : Cmd} {run : MatrixRun} {q : Nat × Nat × Nat} (ht : s.tick dt = t)
    (hc : t.matrixCmd? core 0x30 = some c) (hrun : run = t.matrixRun c core) (hok : c.matrix.ok = true) (hs : t.mem.sramBad = [])
    (hcmd : t.cmd? c.id = some c) (hcore : run.core = core) (hq : c.matrix.passes[run.pass]? = some q) :
    ∃ u x run', exec (.matrixMultiply dt core stalls false) s = .next u ∧
      (t.bump (matrixKey core 4) stalls).runPass c.matrix run q = (.ok run', x) ∧ u = x.afterPass c c.matrix run' q ∧
      x.mem = t.mem ∧ Rose t u (matrixKey core 1) 1 ∧ Rose t u (matrixKey core 4) stalls ∧
      (run.pass + 1 < c.matrix.passes.length → u.cmd? c.id = some c ∧ u.matrixRun c core = run' ∧ run'.pass = run.pass + 1) ∧
      (c.matrix.passes.length ≤ run.pass + 1 → u.cmd? c.id = some { c with phase := .finished }) := by
  obtain ⟨run', x, hpass, hcount, hid, hcore', hmem, hcmds, hpasses, hstalls⟩ := t.runPass_stalled c.matrix q stalls hs hcore
  obtain ⟨w, hafter, hwork⟩ := State.afterPass_clean (t := x) c c.matrix run' q (hmem ▸ hs)
  rw [hcore'] at hwork
  have hc' : w.cmd? c.id = some c := by rwa [State.cmd?_of_cmds (hwork.cmds.trans hcmds)]
  subst hrun
  refine ⟨_, x, run', exec_matrixMultiply_pass ht hc hok hq hpass, hpass, rfl, hmem, ?_⟩
  rw [hafter, ← hcount]
  exact ⟨hpasses.of_num_eq ((w.num_runOn ..).trans hwork.passes), hstalls.of_num_eq ((w.num_runOn ..).trans hwork.stalls),
    fun h => (State.runOn_continues core (hid.trans (t.matrixRun_cmd c core)) h hc').imp_right fun hrun => ⟨hrun, rfl⟩,
    fun h => State.runOn_ends h hc'⟩

/-! ### Capture (R195) and weight-bank read (R196) -/

theorem exec_matrixCapture_faults {s t : State} {dt core stalls : Nat} {parity : Bool} {c : Cmd} (ht : s.tick dt = t)
    (hc : t.matrixCmd? core 0xD0 = some c)
    (h : c.matrix.codesOk = false ∨ c.matrix.operandsOk = false ∨ c.matrix.captured.getLast?.all c.matrix.captureOk = false ∨
      parity = true) : ∃ u, exec (.matrixCapture dt ⟨core, stalls, parity⟩) s = .next u ∧ Faulted t u := by
  have hexec : exec (.matrixCapture dt ⟨core, stalls, parity⟩) s = execMatrixCapture dt ⟨core, stalls, parity⟩ s := rfl
  rw [hexec]
  cases hok : c.matrix.codesOk && c.matrix.operandsOk && c.matrix.captured.getLast?.all c.matrix.captureOk with
  | false => exact ⟨_, by simp [execMatrixCapture, ht, hc, hok], t.illegal_faulted c⟩
  | true =>
    obtain ⟨⟨hcodes, hoperands⟩, hplace⟩ := by simpa only [Bool.and_eq_true] using hok
    obtain rfl : parity = true := by simpa [hcodes, hoperands, hplace] using h
    exact ⟨_, by simp [execMatrixCapture, ht, hc, hok], t.parityFault_faulted c ⟨.matrix, core⟩⟩

theorem exec_matrixCapture_pass {s t x : State} {dt core stalls : Nat} {c : Cmd} {run' : MatrixRun} {q : Nat × Nat × Nat}
    (ht : s.tick dt = t) (hc : t.matrixCmd? core 0xD0 = some c) (hcodes : c.matrix.codesOk = true) (hoperands : c.matrix.operandsOk = true)
    (hplace : c.matrix.captured.getLast?.all c.matrix.captureOk = true)
    (hq : c.matrix.captured[(t.matrixRun c core).pass]? = some q)
    (hpass : (t.bump (matrixKey core 4) stalls).runPass c.matrix (t.matrixRun c core) q = (.ok run', x)) :
    exec (.matrixCapture dt ⟨core, stalls, false⟩) s = .next (x.afterCapture c c.matrix run' q) := by
  show execMatrixCapture dt ⟨core, stalls, false⟩ s = _
  simp [execMatrixCapture, ht, hc, hcodes, hoperands, hplace, hq, hpass]

/-- The ranges that a capture writes after pass `q`. -/
def MatrixCmd.captureRanges (x : MatrixCmd) (q : Nat × Nat × Nat) : List (Nat × Nat) :=
  (List.range (x.rowsIn q.1)).map (fun i => (x.output + i * x.outStride * 64, x.rawLine q))

/-- After its stop pass a capture writes the raw block, or free values where that meets an operand, and its command ends. -/
theorem State.afterCapture_last {t : State} {x : MatrixCmd} {run : MatrixRun} (c : Cmd) (q : Nat × Nat × Nat) (hs : t.mem.sramBad = [])
    (hlast : x.captured.length ≤ run.pass) :
    ∃ u : State, t.afterCapture c x run q = u.matrixDone c ∧ u.cmds = t.cmds ∧ (x.overlaps (x.captureRanges q) = false →
      u.mem = (t.writeLines false (scratchBase run.core) (x.rawBlock run.acc)).2.mem) := by
  have hwrite := fun (l : List (Nat × Bytes)) {s : State} (hs : s.mem.sramBad = []) =>
    State.writeLines_clean false (Nat.le_refl (scratchBase run.core)) l hs
  unfold State.afterCapture
  rw [if_neg (Nat.not_lt.2 hlast)]
  cases hmeets : x.overlaps (x.captureRanges q) with
  | false =>
    obtain ⟨u, hu, hwork⟩ := hwrite (x.rawBlock run.acc) hs
    refine ⟨u, ?_, (hwork run.core).cmds, fun _ => by rw [hu]⟩
    unfold MatrixCmd.captureRanges at hmeets
    simp [hmeets, hu]
  | true =>
    have hdrew := (t.freeLines_drawn (x.rawBlock run.acc)).2.arrayWork run.core
    obtain ⟨u, hu, hwork⟩ := hwrite (t.freeLines (x.rawBlock run.acc)).1 (hdrew.clean hs)
    refine ⟨u, ?_, (hwork run.core).cmds.trans hdrew.cmds, fun h => by cases h⟩
    unfold MatrixCmd.captureRanges at hmeets
    simp [hmeets, hu]

theorem matrixCapture_runs {s t : State} {dt core stalls : Nat} {c : Cmd} {run : MatrixRun} {q : Nat × Nat × Nat} (ht : s.tick dt = t)
    (hc : t.matrixCmd? core 0xD0 = some c) (hrun : run = t.matrixRun c core) (hcodes : c.matrix.codesOk = true)
    (hoperands : c.matrix.operandsOk = true) (hplace : c.matrix.captured.getLast?.all c.matrix.captureOk = true)
    (hs : t.mem.sramBad = []) (hcmd : t.cmd? c.id = some c) (hcore : run.core = core) (hq : c.matrix.captured[run.pass]? = some q) :
    ∃ u x run', exec (.matrixCapture dt ⟨core, stalls, false⟩) s = .next u ∧
      (t.bump (matrixKey core 4) stalls).runPass c.matrix run q = (.ok run', x) ∧ x.mem = t.mem ∧
      (run.pass + 1 < c.matrix.captured.length → u.mem = t.mem ∧ u.cmd? c.id = some c ∧ u.matrixRun c core = run') ∧
      (c.matrix.captured.length ≤ run.pass + 1 → u.cmd? c.id = some { c with phase := .finished } ∧
        (c.matrix.overlaps (c.matrix.captureRanges q) = false →
          u.mem = (x.writeLines false (scratchBase core) (c.matrix.rawBlock run'.acc)).2.mem)) := by
  obtain ⟨run', x, hpass, hcount, hid, hcore', hmem, hcmds, -, -⟩ := t.runPass_stalled c.matrix q stalls hs hcore
  have hc' : x.cmd? c.id = some c := by rwa [State.cmd?_of_cmds hcmds]
  subst hrun
  refine ⟨_, x, run', exec_matrixCapture_pass ht hc hcodes hoperands hplace hq hpass, hpass, hmem, ?_⟩
  rw [← hcount]
  refine ⟨fun h => ?_, fun h => ?_⟩
  · rw [State.afterCapture, if_pos h]
    exact ⟨hmem, hc', x.matrixRun_setMatrixRun core (hid.trans (t.matrixRun_cmd c core))⟩
  · obtain ⟨u, hu, hucmds, humem⟩ := State.afterCapture_last c q (hmem ▸ hs) h
    rw [hu, ← hcore']
    exact ⟨State.cmd?_matrixDone (by rwa [State.cmd?_of_cmds hucmds]), humem⟩

theorem exec_weightBankRead_faults {s t : State} {dt core : Nat} {parity : Bool} {c : Cmd} (ht : s.tick dt = t)
    (hc : t.matrixCmd? core 0xD1 = some c) (h : offsetOk (c.u32 36) = false ∨ 0x800000 < c.u32 36 + 8224 ∨ parity = true) :
    ∃ u, exec (.weightBankRead dt ⟨core, parity⟩) s = .next u ∧ Faulted t u := by
  have hexec : exec (.weightBankRead dt ⟨core, parity⟩) s = execWeightBankRead dt ⟨core, parity⟩ s := rfl
  rw [hexec]
  by_cases hplace : (!offsetOk (c.u32 36)) = true ∨ 0x800000 < c.u32 36 + 8224
  · exact ⟨_, by simp only [execWeightBankRead, ht, hc, if_pos hplace], t.illegal_faulted c⟩
  · obtain rfl : parity = true := by
      rcases h with h | h | h
      · exact absurd (.inl (by rw [h]; rfl)) hplace
      · exact absurd (.inr h) hplace
      · exact h
    exact ⟨_, by simp only [execWeightBankRead, ht, hc, if_neg hplace, if_true], t.parityFault_faulted c ⟨.matrix, core⟩⟩

/-- Both banks of a core and their records as lines from an offset on (R196). -/
def State.bankLines (t : State) (core o : Nat) : List (Nat × Bytes) :=
  [(o, sub (t.bank (2 * core)).bytes 0 4096), (o + 4096, sub (t.bank (2 * core + 1)).bytes 0 4096),
    (o + 8192, (t.bank (2 * core)).record ++ (t.bank (2 * core + 1)).record)]

theorem weightBankRead_writes {s t : State} {dt core : Nat} {c : Cmd} (ht : s.tick dt = t) (hc : t.matrixCmd? core 0xD1 = some c)
    (hoffset : offsetOk (c.u32 36) = true) (hroom : c.u32 36 + 8224 ≤ 0x800000) (hs : t.mem.sramBad = [])
    (hcmd : t.cmd? c.id = some c) : ∃ u, exec (.weightBankRead dt ⟨core, false⟩) s = .next u ∧
      u.cmd? c.id = some { c with phase := .finished } ∧
      u.mem = (t.writeLines false (scratchBase core) (t.bankLines core (c.u32 36))).2.mem := by
  obtain ⟨w, hw, hwork⟩ := State.writeLines_clean false (Nat.le_refl (scratchBase core)) (t.bankLines core (c.u32 36)) hs
  have hexec : exec (.weightBankRead dt ⟨core, false⟩) s = .next (w.matrixDone c) := by
    show execWeightBankRead dt ⟨core, false⟩ s = _
    unfold State.bankLines at hw
    simp [execWeightBankRead, ht, hc, hoffset, Nat.not_lt.2 hroom, hw]
  exact ⟨_, hexec, State.cmd?_matrixDone (by rwa [State.cmd?_of_cmds (hwork core).cmds]), by rw [hw]; rfl⟩

end Sys2Proof.Machine

open Sys2Proof.Machine in
/-- Settles O56: the command that started first, a multiply pass by pass, its drain, the tile found in the idle bank, a capture and a
weight-bank read. Where the scratchpad holds no uncorrectable word no access of the array faults. -/
theorem matrixCommands : Obligations.MatrixCommands := by
  unfold Obligations.MatrixCommands
  refine ⟨fun t core op c hc => State.matrixCmd?_first hc, fun s t dt core stalls parity c run ht _ hc hrun => ⟨?_, ?_⟩,
    fun t c x run q v hcloses hv => ?_, fun t core o k x hactive h0 h1 => ?_,
    fun s t dt core stalls parity c run ht _ hc hrun => ⟨?_, ?_⟩, fun s t dt core parity c ht _ hc => ⟨?_, ?_⟩⟩
  · exact fun h => exec_matrixMultiply_faults ht hc h
  · intro q hok hparity hs hcmd hcore hq
    subst hparity
    exact matrixMultiply_runs ht hc hrun hok hs hcmd hcore hq
  · obtain ⟨w, lines, shifts, hready, hmem⟩ := t.afterPass_drains c x run hcloses hv
    exact ⟨w, lines, shifts, hready.drawn.mem, hready.linesShape, hready.shiftsShape,
      fun h => ⟨congrArg State.free (hready.defined h).1, (hready.defined h).2⟩, hmem⟩
  · refine ⟨_, State.useTile_hit_one hactive h0 h1, fun h => State.num_bump_same _ _ _ h, rfl, ?_, ?_⟩
    · exact congrArg Bank.active (State.bank_setBank _ _ _)
    · exact congrArg Bank.active ((State.bank_setBank_other _ _ (by omega)).trans (State.bank_setBank _ _ _))
  · exact fun h => exec_matrixCapture_faults ht hc h
  · intro q hcodes hoperands hplace hparity hs hcmd hcore hq
    subst hparity
    exact matrixCapture_runs ht hc hrun hcodes hoperands hplace hs hcmd hcore hq
  · exact fun h => exec_weightBankRead_faults ht hc h
  · intro hoffset hroom hparity hs hcmd
    subst hparity
    exact weightBankRead_writes ht hc hoffset hroom hs hcmd
end

section
/-! PROOFS. What every command and every step keeps (`Keeps`), and with it memory's canonical form (R252, R258). -/
namespace Sys2Proof.Machine

/-- Every command that answers a next state keeps: row by row of the table, as its meaning does. -/
theorem exec_keeps (i : Instr) (s : State) : Outcome.all (Keeps s) (exec i s) :=
  match i with
  | .suppliesValid dt => execSuppliesValid_keeps dt (.refl s)
  | .startupStageComplete dt outcome => execStartupStageComplete_keeps dt outcome (.refl s)
  | .startupUsable dt => execStartupUsable_keeps dt (.refl s)
  | .trialTimeout dt => execTrialTimeout_keeps dt (.refl s)
  | .supplyLoss dt main => execSupplyLoss_keeps dt main (.refl s)
  | .vmgtLoss dt => execVmgtLoss_keeps dt (.refl s)
  | .supplyOutOfRange dt absolute => execSupplyOutOfRange_keeps dt absolute (.refl s)
  | .supplyRestored dt within => execSupplyRestored_keeps dt within (.refl s)
  | .perstDeassert dt => execPerstDeassert_keeps dt (.refl s)
  | .restart dt arg request => execRestart_keeps dt arg request (.refl s)
  | .objectRead dt request => execObjectRead_keeps dt request (.refl s)
  | .objectWrite dt request => execObjectWrite_keeps dt request (.refl s)
  | .objectDescribe dt request => execObjectDescribe_keeps dt request (.refl s)
  | .objectEnumerate dt request => execObjectEnumerate_keeps dt request (.refl s)
  | .segmentRead dt request => execSegmentRead_keeps dt request (.refl s)
  | .segmentWrite dt request => execSegmentWrite_keeps dt request (.refl s)
  | .sessionOpen dt request => execSessionOpen_keeps dt request (.refl s)
  | .sessionProve dt request => execSessionProve_keeps dt request (.refl s)
  | .sessionClose dt request => execSessionClose_keeps dt request (.refl s)
  | .sessionIdleTimeout dt session => execSessionIdleTimeout_keeps dt session (.refl s)
  | .foreignFrameDiscard arrival => execForeignFrameDiscard_keeps arrival (.refl s)
  | .plcaChangeApply dt => execPlcaChangeApply_keeps dt (.refl s)
  | .rackKeyWrite dt slot key request => execRackKeyWrite_keeps dt slot key request (.refl s)
  | .i3cEntdaa dt address => execI3cEntdaa_keeps dt address (.refl s)
  | .restoreDefaults dt arg request => execRestoreDefaults_keeps dt arg request (.refl s)
  | .coreClockSet dt core mhz request => execCoreClockSet_keeps dt core mhz request (.refl s)
  | .voltageSettled dt cluster => execVoltageSettled_keeps dt cluster (.refl s)
  | .clockChangeApply dt core => execClockChangeApply_keeps dt core (.refl s)
  | .clockRelockDone dt core => execClockRelockDone_keeps dt core (.refl s)
  | .tenancyStart dt owner request => execTenancyStart_keeps dt owner request (.refl s)
  | .tenancyEnd dt arg request => execTenancyEnd_keeps dt arg request (.refl s)
  | .tenancyEndDrained dt => execTenancyEndDrained_keeps dt (.refl s)
  | .tenancyEndComplete dt => execTenancyEndComplete_keeps dt (.refl s)
  | .jobOpen dt job arg request => execJobOpen_keeps dt job arg request (.refl s)
  | .jobClose dt job arg request => execJobClose_keeps dt job arg request (.refl s)
  | .jobCloseComplete dt job => execJobCloseComplete_keeps dt job (.refl s)
  | .accountingSnapshot dt account request => execAccountingSnapshot_keeps dt account request (.refl s)
  | .epochsStart dt running request => execEpochsStart_keeps dt running request (.refl s)
  | .boundaryCommit dt => execBoundaryCommit_keeps dt (.refl s)
  | .syncInEdge dt => execSyncInEdge_keeps dt (.refl s)
  | .windowDecide dt => execWindowDecide_keeps dt (.refl s)
  | .epochBoundary dt => execEpochBoundary_keeps dt (.refl s)
  | .applyTableStart dt unit table => execApplyTableStart_keeps dt unit table (.refl s)
  | .applyRow dt unit => execApplyRow_keeps dt unit (.refl s)
  | .applyBudgetExpire dt unit table => execApplyBudgetExpire_keeps dt unit table (.refl s)
  | .slotRelease dt table => execSlotRelease_keeps dt table (.refl s)
  | .refreshSlotReceive dt table row tier slot => execRefreshSlotReceive_keeps dt table row tier slot (.refl s)
  | .refreshMarkerReceive dt table chip unit => execRefreshMarkerReceive_keeps dt table chip unit (.refl s)
  | .timeMessageReceive dt port t2 t3 => execTimeMessageReceive_keeps dt port t2 t3 (.refl s)
  | .alignmentLoss dt => execAlignmentLoss_keeps dt (.refl s)
  | .tableCreate dt engine => execTableCreate_keeps dt engine (.refl s)
  | .tableInitComplete dt table => execTableInitComplete_keeps dt table (.refl s)
  | .tableDestroy dt engine => execTableDestroy_keeps dt engine (.refl s)
  | .tableDestroyComplete dt table => execTableDestroyComplete_keeps dt table (.refl s)
  | .tableLoad dt engine => execTableLoad_keeps dt engine (.refl s)
  | .tableRead dt engine => execTableRead_keeps dt engine (.refl s)
  | .tableSwap dt engine => execTableSwap_keeps dt engine (.refl s)
  | .tableReplicate dt engine => execTableReplicate_keeps dt engine (.refl s)
  | .tablePin dt engine => execTablePin_keeps dt engine (.refl s)
  | .epochFence dt engine => execEpochFence_keeps dt engine (.refl s)
  | .epochRead dt engine => execEpochRead_keeps dt engine (.refl s)
  | .tableSnapshot dt table request => execTableSnapshot_keeps dt table request (.refl s)
  | .lookup dt command => execLookup_keeps dt command (.refl s)
  | .shardedLookup dt command => execShardedLookup_keeps dt command (.refl s)
  | .rowReadReturn dt command read => execRowReadReturn_keeps dt command read (.refl s)
  | .requestSliceArrive dt channel slice => execRequestSliceArrive_keeps dt channel slice (.refl s)
  | .returnSliceArrive dt channel slice => execReturnSliceArrive_keeps dt channel slice (.refl s)
  | .exchangeTimeout dt command => execExchangeTimeout_keeps dt command (.refl s)
  | .gradientPush dt unit => execGradientPush_keeps dt unit (.refl s)
  | .contributionFold dt unit => execContributionFold_keeps dt unit (.refl s)
  | .updateExchange dt unit => execUpdateExchange_keeps dt unit (.refl s)
  | .updateSliceArrive dt channel slice => execUpdateSliceArrive_keeps dt channel slice (.refl s)
  | .updateExchangeTimeout dt unit => execUpdateExchangeTimeout_keeps dt unit (.refl s)
  | .trainConfigure dt unit => execTrainConfigure_keeps dt unit (.refl s)
  | .matrixMultiply dt core stalls parity => execMatrixMultiply_keeps dt core stalls parity (.refl s)
  | .matrixCapture dt turn => execMatrixCapture_keeps dt turn (.refl s)
  | .weightBankRead dt turn => execWeightBankRead_keeps dt turn (.refl s)
  | .vectorRun dt core => execVectorRun_keeps dt core (.refl s)
  | .laneProgramRun dt core => execLaneProgramRun_keeps dt core (.refl s)
  | .laneProgramLoad dt core => execLaneProgramLoad_keeps dt core (.refl s)
  | .vectorGroup dt core holds parity => execVectorGroup_keeps dt core holds parity (.refl s)
  | .streamArm dt core => execStreamArm_keeps dt core (.refl s)
  | .streamRegulate dt core => execStreamRegulate_keeps dt core (.refl s)
  | .streamTile dt core slot => execStreamTile_keeps dt core slot (.refl s)
  | .streamRequestIssue dt core slot => execStreamRequestIssue_keeps dt core slot (.refl s)
  | .streamWritePerformed dt core slot tile number parity => execStreamWritePerformed_keeps dt core slot tile number parity (.refl s)
  | .queueEnable dt queue value => execQueueEnable_keeps dt queue value (.refl s)
  | .queueDisable dt queue value => execQueueDisable_keeps dt queue value (.refl s)
  | .registerWrite dt offset value width => execRegisterWrite_keeps dt offset value width (.refl s)
  | .doorbell dt queue value whole => execDoorbell_keeps dt queue value whole (.refl s)
  | .slotFetch dt queue => execSlotFetch_keeps dt queue (.refl s)
  | .slotReread dt queue => execSlotReread_keeps dt queue (.refl s)
  | .commandFetch dt queue => execCommandFetch_keeps dt queue (.refl s)
  | .commandStart dt kind num => execCommandStart_keeps dt kind num (.refl s)
  | .commandComplete dt command => execCommandComplete_keeps dt command (.refl s)
  | .launchComplete dt queue => execLaunchComplete_keeps dt queue (.refl s)
  | .queueDrainDone dt queue => execQueueDrainDone_keeps dt queue (.refl s)
  | .noOp dt command => execNoOp_keeps dt command (.refl s)
  | .fenceSignal dt command => execFenceSignal_keeps dt command (.refl s)
  | .fenceWait dt command => execFenceWait_keeps dt command (.refl s)
  | .fenceWaitTimeout dt command => execFenceWaitTimeout_keeps dt command (.refl s)
  | .tagInvalidate dt command => execTagInvalidate_keeps dt command (.refl s)
  | .hostFence dt command => execHostFence_keeps dt command (.refl s)
  | .barrier dt command => execBarrier_keeps dt command (.refl s)
  | .fenceValueWrite dt fence value whole => execFenceValueWrite_keeps dt fence value whole (.refl s)
  | .queueSnapshot dt queue request => execQueueSnapshot_keeps dt queue request (.refl s)
  | .floorIntervalEnd dt kind num => execFloorIntervalEnd_keeps dt kind num (.refl s)
  | .watchdogExpiry dt command => execWatchdogExpiry_keeps dt command (.refl s)
  | .recoveryComplete dt failed => execRecoveryComplete_keeps dt failed (.refl s)
  | .trnInval dt value => execTrnInval_keeps dt value (.refl s)
  | .trnInvalOverrunClear dt tag => execTrnInvalOverrunClear_keeps dt tag (.refl s)
  | .invalidateTag dt tag request => execInvalidateTag_keeps dt tag request (.refl s)
  | .invalidationComplete dt tag => execInvalidationComplete_keeps dt tag (.refl s)
  | .walkComplete dt cluster tag page => execWalkComplete_keeps dt cluster tag page (.refl s)
  | .trnResume dt value => execTrnResume_keeps dt value (.refl s)
  | .migrationGo dt value => execMigrationGo_keeps dt value (.refl s)
  | .migrationComplete dt => execMigrationComplete_keeps dt (.refl s)
  | .scrubStep dt stack finding => execScrubStep_keeps dt stack finding (.refl s)
  | .retireNow dt page request => execRetireNow_keeps dt page request (.refl s)
  | .stackTempSample dt stack temp => execStackTempSample_keeps dt stack temp (.refl s)
  | .sramScrub dt address struck => execSramScrub_keeps dt address struck (.refl s)
  | .recorderStart dt => execRecorderStart_keeps dt (.refl s)
  | .digestRegionRead dt group => execDigestRegionRead_keeps dt group (.refl s)
  | .digestMessageReceive dt group index => execDigestMessageReceive_keeps dt group index (.refl s)
  | .digestTimeout dt group => execDigestTimeout_keeps dt group (.refl s)
  | .verifyDigest dt pair => execVerifyDigest_keeps dt pair (.refl s)
  | .verifyValueReceive dt pair seq => execVerifyValueReceive_keeps dt pair seq (.refl s)
  | .verifyTimeout dt pair => execVerifyTimeout_keeps dt pair (.refl s)
  | .declareWindow dt code request => execDeclareWindow_keeps dt code request (.refl s)
  | .testDeferralExpire dt code => execTestDeferralExpire_keeps dt code (.refl s)
  | .iftStart dt code => execIftStart_keeps dt code (.refl s)
  | .iftComplete dt code runs => execIftComplete_keeps dt code runs (.refl s)
  | .clearSuspicion dt arg request => execClearSuspicion_keeps dt arg request (.refl s)
  | .powerSample dt mv mgt vio current => execPowerSample_keeps dt mv mgt vio current (.refl s)
  | .fennelGrant dt die => execFennelGrant_keeps dt die (.refl s)
  | .engineClockGate dt kind num => execEngineClockGate_keeps dt kind num (.refl s)
  | .logicTempSample dt cluster temp => execLogicTempSample_keeps dt cluster temp (.refl s)
  | .coolantReport dt flow value request => execCoolantReport_keeps dt flow value request (.refl s)
  | .coolantReportStale dt => execCoolantReportStale_keeps dt (.refl s)
  | .coolantCapRelease dt => execCoolantCapRelease_keeps dt (.refl s)
  | .ucieRetryExhausted dt number counts retries => execUcieRetryExhausted_keeps dt number counts retries (.refl s)
  | .varxLinkUp dt port => execVarxLinkUp_keeps dt port (.refl s)
  | .varxLinkDown dt port lockLost => execVarxLinkDown_keeps dt port lockLost (.refl s)
  | .varxRetrain dt port trained => execVarxRetrain_keeps dt port trained (.refl s)
  | .sequencedFrameReceive dt port corrected uncorrectable frame =>
    execSequencedFrameReceive_keeps dt port corrected uncorrectable frame (.refl s)
  | .acknowledgeReceive dt port kind value => execAcknowledgeReceive_keeps dt port kind value (.refl s)
  | .creditReceive dt port dest source channel number index => execCreditReceive_keeps dt port dest source channel number index (.refl s)
  | .beaconTimer dt port => execBeaconTimer_keeps dt port (.refl s)
  | .beaconReceive dt port serial partnerPort candidate hops settled coords shape present =>
    execBeaconReceive_keeps dt port serial partnerPort candidate hops settled coords shape present (.refl s)
  | .discoveryReport dt port chip serial => execDiscoveryReport_keeps dt port chip serial (.refl s)
  | .reportResend dt => execReportResend_keeps dt (.refl s)
  | .rootLossTimeout dt => execRootLossTimeout_keeps dt (.refl s)
  | .remoteRequestReceive dt source request owner write offset length data =>
    execRemoteRequestReceive_keeps dt source request owner write offset length data (.refl s)
  | .remoteResponseReceive dt request status data => execRemoteResponseReceive_keeps dt request status data (.refl s)
  | .remoteRequestTimeout dt request => execRemoteRequestTimeout_keeps dt request (.refl s)
  | .allReduce dt command => execAllReduce_keeps dt command (.refl s)
  | .reduceScatter dt command => execReduceScatter_keeps dt command (.refl s)
  | .allGather dt command => execAllGather_keeps dt command (.refl s)
  | .channelAcquire dt channel => execChannelAcquire_keeps dt channel (.refl s)
  | .channelWaitTimeout dt channel owner => execChannelWaitTimeout_keeps dt channel owner (.refl s)
  | .collectiveChunk dt command => execCollectiveChunk_keeps dt command (.refl s)
  | .collectiveDataReceive dt port channel number format elements axes phase segment chunk data =>
    execCollectiveDataReceive_keeps dt port channel number format elements axes phase segment chunk data (.refl s)
  | .collectiveTimeout dt command => execCollectiveTimeout_keeps dt command (.refl s)
  | .hostLinkUp dt width rate => execHostLinkUp_keeps dt width rate (.refl s)
  | .hostLinkLoss dt perst => execHostLinkLoss_keeps dt perst (.refl s)
  | .linkRecovery dt replays => execLinkRecovery_keeps dt replays (.refl s)
  | .hdmCommit dt base => execHdmCommit_keeps dt base (.refl s)
  | .hostAttach dt => execHostAttach_keeps dt (.refl s)
  | .hostClearLog dt => execHostClearLog_keeps dt (.refl s)
  | .hostMemRead dt address length => execHostMemRead_keeps dt address length (.refl s)
  | .hostMemWrite dt address data uio => execHostMemWrite_keeps dt address data uio (.refl s)
  | .peerMemRequest dt address => execPeerMemRequest_keeps dt address (.refl s)
  | .hostReadData dt read error data => execHostReadData_keeps dt read error data (.refl s)
  | .hostGoReceive dt number error => execHostGoReceive_keeps dt number error (.refl s)
  | .hostSnoop dt address => execHostSnoop_keeps dt address (.refl s)
  | .vectorSend dt vector => execVectorSend_keeps dt vector (.refl s)
  | .mailboxDictionaryRequest dt medium store payload => execMailboxDictionaryRequest_keeps dt medium store payload (.refl s)
  | .mailboxActionStatus dt index sub => execMailboxActionStatus_keeps dt index sub (.refl s)
  | .identifyMemoryDevice dt => execIdentifyMemoryDevice_keeps dt (.refl s)
  | .getSupportedLogs dt => execGetSupportedLogs_keeps dt (.refl s)
  | .getLog dt uuid offset length => execGetLog_keeps dt uuid offset length (.refl s)
  | .getEventRecords dt log => execGetEventRecords_keeps dt log (.refl s)
  | .clearEventRecords dt log all handles => execClearEventRecords_keeps dt log all handles (.refl s)
  | .getEventInterruptPolicy dt => execGetEventInterruptPolicy_keeps dt (.refl s)
  | .setEventInterruptPolicy dt policy => execSetEventInterruptPolicy_keeps dt policy (.refl s)
  | .getPoisonList dt address length => execGetPoisonList_keeps dt address length (.refl s)
  | .getTimestamp dt => execGetTimestamp_keeps dt (.refl s)
  | .setTimestamp dt timestamp => execSetTimestamp_keeps dt timestamp (.refl s)
  | .getFwInfo dt => execGetFwInfo_keeps dt (.refl s)
  | .transferFw dt action slot offset data => execTransferFw_keeps dt action slot offset data (.refl s)
  | .activateFw dt action slot => execActivateFw_keeps dt action slot (.refl s)
  | .slotErase dt request => execSlotErase_keeps dt request (.refl s)
  | .slotEraseComplete dt => execSlotEraseComplete_keeps dt (.refl s)
  | .slotActivate dt request => execSlotActivate_keeps dt request (.refl s)
  | .commitSecurityVersion dt version request => execCommitSecurityVersion_keeps dt version request (.refl s)
  | .spdmGetVersion dt transport body => execSpdmGetVersion_keeps dt transport body (.refl s)
  | .spdmGetCapabilities dt transport body => execSpdmGetCapabilities_keeps dt transport body (.refl s)
  | .spdmNegotiateAlgorithms dt transport body => execSpdmNegotiateAlgorithms_keeps dt transport body (.refl s)
  | .spdmGetDigests dt transport body => execSpdmGetDigests_keeps dt transport body (.refl s)
  | .spdmGetCertificate dt transport body => execSpdmGetCertificate_keeps dt transport body (.refl s)
  | .spdmChallenge dt transport body => execSpdmChallenge_keeps dt transport body (.refl s)
  | .spdmGetMeasurements dt transport body => execSpdmGetMeasurements_keeps dt transport body (.refl s)
  | .spdmKeyExchange dt transport body => execSpdmKeyExchange_keeps dt transport body (.refl s)
  | .spdmFinish dt transport session body => execSpdmFinish_keeps dt transport session body (.refl s)
  | .spdmHeartbeat dt transport session => execSpdmHeartbeat_keeps dt transport session (.refl s)
  | .spdmKeyUpdate dt transport session op tag => execSpdmKeyUpdate_keeps dt transport session op tag (.refl s)
  | .spdmEndSession dt transport session => execSpdmEndSession_keeps dt transport session (.refl s)
  | .vmgtValid dt => execVmgtValid_keeps dt (.refl s)
  | .regulatorsSwitchOn dt => execRegulatorsSwitchOn_keeps dt (.refl s)
  | .configurationRequest dt field write value => execConfigurationRequest_keeps dt field write value (.refl s)
  | .ideKmMessage dt session stream step => execIdeKmMessage_keeps dt session stream step (.refl s)
  | .syncOutPulseEnd dt => execSyncOutPulseEnd_keeps dt (.refl s)
  | .timeMessageSend dt => execTimeMessageSend_keeps dt (.refl s)

/-- A step keeps all that `Keeps` says of the state in which the front command has left the queue. -/
theorem step_keeps {s t : State} (h : step s = .next t) : Keeps { s with pending := s.pending.tail } t := by
  unfold step at h
  split at h
  case h_1 hempty =>
    cases h
    exact ⟨by rw [hempty]; rfl, List.prefix_refl _, Nat.le_refl _, Nat.le_refl _, Nat.le_refl _, id⟩
  case h_2 c rest hfront =>
    have hexec := exec_keeps c { s with pending := rest }
    rw [h] at hexec
    rw [hfront]
    exact hexec

end Sys2Proof.Machine

open Sys2Proof.Machine in
/-- Settles O4: the canonical form of memory is one of the things that `Keeps` holds a step to. -/
theorem everyStepKeepsMemoryCanonical : Obligations.EveryStepKeepsMemoryCanonical :=
  fun _ _ hwf hstep => (step_keeps hstep).mem hwf
end

section
/-! PROOFS. Writes and reads at a local offset (R258 to R268, R405): which outcome each range calls for, and what it leaves. -/
namespace Sys2Proof.Machine

/-! ### Writes (R258, R268) -/

theorem State.write_retired {s : State} {a : Nat} {d : Bytes} (acc : Access) (hstacked : isStacked a = true)
    (hretired : s.meetsRetired a d.length = true) : s.write acc a d = (.bad 0x1003, s) := by
  simp [State.write, hstacked, hretired]

theorem State.write_partWords {s : State} {a : Nat} {d : Bytes} (acc : Access) (hstacked : isStacked a = true)
    (hretired : s.meetsRetired a d.length = false) (hpart : wholeWords a d.length = false) :
    s.write acc a d = (.bad 0x1002, s.bump (objKey (0x6500 + s.stackOf a) 3) 1) := by
  simp [State.write, hstacked, hretired, hpart]

theorem State.write_wholeWords {s : State} {a : Nat} {d : Bytes} (acc : Access) (hstacked : isStacked a = true)
    (hretired : s.meetsRetired a d.length = false) (hwhole : wholeWords a d.length = true) :
    s.write acc a d = (.ok [], (s.store a d).countBytes acc true a d.length) := by
  simp [State.write, hstacked, hretired, hwhole]

@[simp] theorem State.byte_countBytes (s : State) (acc : Access) (w : Bool) (a n b : Nat) :
    (s.countBytes acc w a n).byte b = s.byte b := State.byte_of_cells (by rw [State.countBytes_mem]) b

/-! ### Reads (R260 to R268, R405) -/

/-- That a page becomes pending changes no object but the count of reports that found no room. -/
theorem State.num_makePending_other (s : State) (w : Nat) {k : Nat} (h : k ≠ objKey 0x4000 7) : (s.makePending w).num k = s.num k := by
  unfold State.makePending
  extract_lets p
  split
  · rfl
  · exact State.num_report_other _ _ h

/-- The uncorrectable word that a read meets is counted for its stack (0x6500 + s .02). -/
theorem State.foundBad_rose (s : State) (w : Nat) : Rose s (s.foundBad w) (objKey (0x6500 + s.stackOf w) 2) 1 := fun h => by
  unfold State.foundBad
  rw [State.num_makePending_other _ _ (by simp only [objKey]; omega), State.num_bump_same _ _ _ h]

theorem State.read_retired {s : State} {a n : Nat} (acc : Access) (hstacked : isStacked a = true) (hretired : s.meetsRetired a n = true) :
    s.read acc a n = (.bad 0x1003, s) := by
  simp [State.read, hstacked, hretired]

theorem State.read_firstBad {s : State} {a n w : Nat} (acc : Access) (hstacked : isStacked a = true)
    (hretired : s.meetsRetired a n = false) (hbad : s.firstBad a n = some w) : s.read acc a n = (.bad 0x1001, s.foundBad w) := by
  simp [State.read, hstacked, hretired, hbad]

end Sys2Proof.Machine

open Sys2Proof.Machine in
/-- Settles O8: the bytes after a store, and a write to stacked memory by the three cases of R258 and R268. -/
theorem writesToMemory : Obligations.WritesToMemory := by
  unfold Obligations.WritesToMemory
  refine ⟨State.byte_store, fun s acc a d hstacked => ⟨State.write_retired acc hstacked, State.write_partWords acc hstacked,
    fun hretired hwhole => ⟨_, State.write_wholeWords acc hstacked hretired hwhole, fun b => ?_⟩⟩⟩
  rw [State.byte_countBytes, State.byte_store]

open Sys2Proof.Machine in
/-- Settles O9: no byte changes, and the answer is that of the first case that holds, in the order in which a read looks for a retired
page and for uncorrectable words. -/
theorem readsOfMemory : Obligations.ReadsOfMemory := by
  unfold Obligations.ReadsOfMemory
  refine fun s acc a n => ⟨State.byte_of_cells (s.read_frame acc a n).2, State.read_retired acc, ?_, ?_, ?_, ?_⟩
  · intro hstacked hretired w hbad
    rw [State.read_firstBad acc hstacked hretired hbad]
    exact ⟨rfl, s.foundBad_rose w, State.makePending_page _ w⟩
  · intro hstacked hretired hgood
    simp [State.read_result, hstacked, hretired, hgood]
  · intro hsram hbad
    obtain ⟨w, hw⟩ := Option.isSome_iff_exists.1 hbad
    simp [State.read, hsram, hw]
  · intro hsram hgood
    simp [State.read, hsram, hgood]
end

section
/-! PROOFS. What the code of a word answers (R257), and the scrubbers of stacked memory (R264 to R266) and of SRAM (R405). -/
namespace Sys2Proof.Machine

/-! ### What the code of a word answers (R257) -/

theorem foldl_toggle_of_nodup : ∀ (l acc : List Nat), (acc ++ l).Nodup →
    l.foldl (fun l b => if l.contains b then l.filter (· ≠ b) else l ++ [b]) acc = acc ++ l
  | [], acc, _ => (List.append_nil acc).symm
  | b :: l, acc, h => by
    have hb : b ∉ acc := fun hm => (List.nodup_append.1 h).2.2 b hm b (List.mem_cons_self ..) rfl
    rw [List.foldl_cons, if_neg (by simpa using hb), foldl_toggle_of_nodup l _ (by simpa using h), List.append_assoc]
    rfl

/-- Distinct bits that go wrong in a word that had none are its wrong bits. -/
theorem toggle_nil {l : List Nat} (h : l.Nodup) : toggle [] l = l := foldl_toggle_of_nodup l [] h

theorem State.mem_bad_spoilWord (s : State) (w : Nat) : w ∈ (s.spoilWord w).mem.bad := mem_insertAsc.2 (.inl rfl)

section
variable {t : State} {w : Nat} (haligned : w % 32 = 0) (hstacked : isStacked w = true) (hgood : w ∉ t.mem.bad)
include haligned hstacked hgood

/-- One wrong bit in a word without any: correctable, and kept with its place. -/
theorem State.upset_flip_one (b : Nat) (hclean : Map.find t.mem.flips w = none) :
    t.upset (.flip w [b]) = { t with mem := { t.mem with flips := Map.put t.mem.flips w (some b) } } := by
  simp [State.upset, haligned, hstacked, hgood, hclean, toggle]

/-- Two wrong bits, or several on one data pin, in a word without any: uncorrectable. -/
theorem State.upset_flip_spoils {l : List Nat} (hclean : Map.find t.mem.flips w = none) (hdistinct : l.Nodup) (hmany : 2 ≤ l.length)
    (hdetected : l.length = 2 ∨ onePin l = true) : w ∈ (t.upset (.flip w l)).mem.bad := by
  have hspoil : t.upset (.flip w l) = t.spoilWord w := by
    match l with
    | b :: c :: l => simpa [State.upset, haligned, hstacked, hgood, hclean, toggle_nil hdistinct] using
        fun h2 h1 => absurd hdetected (by simp [h2, h1])
  rw [hspoil]
  exact t.mem_bad_spoilWord w

/-- A read that returns a word whose address differs in one or two bits: uncorrectable. -/
theorem State.upset_misread_spoils {v : Nat} (hother : v ≠ w)
    (hnear : bitsApart (codeAddress t.spread w) (codeAddress t.spread v) ≤ 2) : w ∈ (t.upset (.misread w v)).mem.bad := by
  have hspoil : t.upset (.misread w v) = t.spoilWord w := by
    simp [State.upset, haligned, hstacked, hgood, hother.symm, hnear]
  rw [hspoil]
  exact t.mem_bad_spoilWord w

end

/-! ### What an upset leaves alone -/

theorem State.store_scrubPos (s : State) (a : Nat) (d : Bytes) : (s.store a d).mem.scrubPos = s.mem.scrubPos := by
  simp [State.store]

/-- What happens to code words changes no object and moves no scrubber. -/
def Struck (t u : State) : Prop := u.dict = t.dict ∧ u.mem.scrubPos = t.mem.scrubPos

theorem Struck.beyondCode {t s : State} (h : Struck t s) (w : Nat) (d : Bytes) : Struck t (s.beyondCode w d) := by
  obtain ⟨hdict, hpos⟩ := h
  unfold State.beyondCode State.drawNat
  dsimp only
  split
  · exact ⟨hdict, hpos⟩
  · exact ⟨by rw [State.store_frame]; exact hdict, (State.store_scrubPos _ _ _).trans hpos⟩

theorem Struck.upset {t s : State} (h : Struck t s) (u : Upset) : Struck t (s.upset u) := by
  cases u with
  | flip w which =>
    unfold State.upset
    dsimp only
    split
    · exact h
    · split
      · exact h
      · exact h
      · split
        · exact h
        · exact Struck.beyondCode (s := (s.drawBytes 32).2) h _ _
  | misread w other =>
    unfold State.upset
    dsimp only
    split
    · exact h
    · split
      · exact h
      · exact h.beyondCode _ _

theorem struck_foldl (l : List Upset) (t : State) : Struck t (l.foldl State.upset t) :=
  all_foldl (fun _ u h => h.upset u) l ⟨rfl, rfl⟩

/-! ### What a read of the scrubber leaves alone (R265) -/

/-- Of memory, a page that becomes pending changes the lists of pages alone. -/
theorem State.makePending_mem (s : State) (w : Nat) : (s.makePending w).mem = { s.mem with
    pendingPages := (s.makePending w).mem.pendingPages, olderRetired := (s.makePending w).mem.olderRetired
    olderPending := (s.makePending w).mem.olderPending, newestLists := (s.makePending w).mem.newestLists } := by
  unfold State.makePending
  extract_lets p
  split
  · rfl
  · rw [State.report_mem]; rfl

/-- Between `s` and `u` memory keeps its bytes, its uncorrectable words and the places of its scrubbers. -/
structure SameWords (s u : State) : Prop where
  cells : u.mem.cells = s.mem.cells
  bad : u.mem.bad = s.mem.bad
  scrubPos : u.mem.scrubPos = s.mem.scrubPos

theorem SameWords.trans {s u v : State} (h : SameWords s u) (k : SameWords u v) : SameWords s v :=
  ⟨k.cells.trans h.cells, k.bad.trans h.bad, k.scrubPos.trans h.scrubPos⟩

theorem sameWords_of_mem {s u : State} (h : u.mem = s.mem) : SameWords s u := ⟨by rw [h], by rw [h], by rw [h]⟩

theorem sameWords_makePending (s : State) (w : Nat) : SameWords s (s.makePending w) :=
  ⟨by rw [State.makePending_mem], by rw [State.makePending_mem], by rw [State.makePending_mem]⟩

theorem sameWords_countBytes (s : State) (acc : Access) (w : Bool) (a n : Nat) : SameWords s (s.countBytes acc w a n) :=
  sameWords_of_mem (State.countBytes_mem _ _ _ _ _)

theorem sameWords_bump (s : State) (k n : Nat) : SameWords s (s.bump k n) := sameWords_of_mem (State.bump_mem _ _ _)

theorem sameWords_report (s : State) (r : Report) : SameWords s (s.report r) := sameWords_of_mem (State.report_mem _ _)

theorem sameWords_correct (s : State) (acct : Option Nat) (w : Nat) : SameWords s (s.correct acct w) := by
  unfold State.correct
  extract_lets again t _ u
  have ht : SameWords s t := sameWords_of_mem (State.countBytes_mem _ _ _ _ _)
  have hu : SameWords s u := ⟨ht.cells, ht.bad, ht.scrubPos⟩
  split
  · exact hu.trans (sameWords_makePending u w)
  · exact hu

theorem sameWords_scrubRead (s : State) (k w : Nat) : SameWords s (s.scrubRead k w) := by
  unfold State.scrubRead
  extract_lets t
  have ht : SameWords s t := sameWords_countBytes _ _ _ _ _
  split
  · exact ((ht.trans (sameWords_bump _ _ _)).trans (sameWords_report _ _)).trans (sameWords_makePending _ w)
  · split
    · exact ht.trans (sameWords_correct _ _ _)
    · exact ht

/-- The scrubber comes to a code word: it reads it, unless its page is retired (R264). -/
def State.scrubVisit (s : State) (k w : Nat) : State := if s.meetsRetired w 32 then s else s.scrubRead k w

theorem State.scrubVisit_retired {s : State} {w : Nat} (k : Nat) (h : s.meetsRetired w 32 = true) : s.scrubVisit k w = s := if_pos h

theorem State.scrubVisit_of_in {s : State} {w : Nat} (k : Nat) (h : s.meetsRetired w 32 = false) :
    s.scrubVisit k w = s.scrubRead k w := if_neg (by simp [h])

theorem sameWords_scrubVisit (s : State) (k w : Nat) : SameWords s (s.scrubVisit k w) := by
  unfold State.scrubVisit
  split
  · exact sameWords_of_mem rfl
  · exact sameWords_scrubRead _ _ _

/-! ### What the scrubber finds (R264 to R266) -/

/-- The bytes of an access are counted at subindices from 4 on. -/
theorem State.num_countBytes_other (s : State) (acc : Access) (w : Bool) (a n : Nat) {k : Nat} (hk : k % 256 < 4) :
    (s.countBytes acc w a n).num k = s.num k := by
  have hcls : acc.cls.num ≤ 2 := by cases acc.cls <;> decide
  unfold State.countBytes
  extract_lets t
  have ht : t.num k = s.num k := State.num_foldl_low (fun s g => s.num_bump_other _ (by simp only [objKey]; split <;> omega)) _ _
  split
  · exact (State.num_acct_other _ _ (by simp only [acctKey, objKey]; split <;> omega)).trans ht
  · exact ht

theorem State.stackOf_congr {s t : State} (h : t.num (objKey 0x2500 1) = s.num (objKey 0x2500 1)) (a : Nat) :
    t.stackOf a = s.stackOf a := by
  unfold State.stackOf State.spread; rw [h]

/-- A correction is counted for the word's stack (0x6500 + s .01). -/
theorem State.correct_rose (s : State) (acct : Option Nat) (w : Nat) :
    Rose s (s.correct acct w) (objKey (0x6500 + s.stackOf w) 1) 1 := fun h => by
  unfold State.correct
  extract_lets again t _ u
  have hu : u.num (objKey (0x6500 + s.stackOf w) 1) = s.num (objKey (0x6500 + s.stackOf w) 1) + 1 :=
    (State.num_countBytes_other _ _ _ _ _ (by simp only [objKey]; omega)).trans (State.num_bump_same _ _ _ h)
  split
  · rw [State.num_makePending_other _ _ (by simp only [objKey]; omega), hu]
  · exact hu

/-- A correction is listed with its time (R266). -/
theorem State.correct_listed (s : State) (acct : Option Nat) (w : Nat) : (w, s.now) ∈ (s.correct acct w).mem.corrected := by
  unfold State.correct
  extract_lets again t _ u
  have ht : t.now = s.now := by simp only [t]; rw [State.countBytes_frame]; rfl
  have hu : (w, s.now) ∈ u.mem.corrected := by simp [u, ht]
  split
  · rw [State.makePending_mem]; exact hu
  · exact hu

theorem State.scrubRead_bad {s : State} {w : Nat} (k : Nat) (h : w ∈ s.mem.bad) :
    w / 0x200000 ∈ (s.scrubRead k w).mem.pendingPages ∨ w / 0x200000 ∈ (s.scrubRead k w).mem.retired := by
  simp only [State.scrubRead, State.countBytes_mem, List.contains_iff_mem, h, if_true]
  exact State.makePending_page _ w

theorem State.scrubRead_flip {s : State} {w : Nat} (k : Nat) (hgood : w ∉ s.mem.bad) (hflip : (Map.find s.mem.flips w).isSome = true) :
    s.scrubRead k w = (s.countBytes ⟨.c2, some 64⟩ false w 32).correct (some 64) w := by
  simp [State.scrubRead, hgood, hflip]

theorem State.scrubRead_clean {s : State} {w : Nat} (k : Nat) (hgood : w ∉ s.mem.bad) (hclean : Map.find s.mem.flips w = none) :
    s.scrubRead k w = s.countBytes ⟨.c2, some 64⟩ false w 32 := by
  simp [State.scrubRead, hgood, hclean]

/-! ### The step of a scrubber (R264) -/

/-- Within a pass the scrubber of a stack goes one code word on. -/
theorem State.scrubNext_within {s : State} {k i : Nat} (hi : Map.get 0 s.mem.scrubPos k = i) (h : i + 1 < wordsPerStack) :
    s.scrubNext k = { s with mem := { s.mem with scrubPos := Map.set 0 s.mem.scrubPos k (i + 1) } } := by
  simp [State.scrubNext, hi, h]

/-- The step of the scrubber of stack `k` at code word `i` of its pass, within the pass: what has happened is taken in and the floor
counted (`v`), and the scrubber comes to the word. -/
theorem exec_scrubStep {s t v : State} {dt k n w i : Nat} {l : List Upset} (ht : s.tick dt = t) (hk : k < 32) (hpower : t.powered = true)
    (husable : t.startup.stage = .usable) (hi : i = Map.get 0 t.mem.scrubPos k) (hpass : i + 1 < wordsPerStack)
    (hw : w = scrubWord t.spread k i) (hv : v = (l.foldl State.upset t).bump (objKey (0x6500 + k) 0x0A) n) :
    exec (.scrubStep dt k ⟨l, n⟩) s = .next { v.scrubVisit k w with
      mem := { (v.scrubVisit k w).mem with scrubPos := Map.set 0 v.mem.scrubPos k (i + 1) } } := by
  obtain ⟨hdict, hpos⟩ := struck_foldl l t
  have hspread : v.spread = t.spread := by
    rw [hv]
    refine (State.num_bump_other _ _ (by simp only [objKey]; omega)).trans ?_
    unfold State.num
    rw [hdict]
    rfl
  have hvi : Map.get 0 v.mem.scrubPos k = i := by rw [hv, hi, ← hpos]; rfl
  have hvisit := (sameWords_scrubVisit v k w).scrubPos
  have hexec : exec (.scrubStep dt k ⟨l, n⟩) s = .next ((v.scrubVisit k w).scrubNext k) := by
    show execScrubStep dt k ⟨l, n⟩ s = _
    simp only [execScrubStep, ht, hpower, husable, ← hv, hspread, hvi, ← hw, State.scrubVisit]
    simp [Nat.not_le.2 hk]
  rw [hexec, State.scrubNext_within (by rw [hvisit]; exact hvi) hpass, hvisit]

/-- What a correctable word leaves once the scrubber has come to it: a correction, counted and listed with its time. -/
theorem State.scrubVisit_flip {s : State} {w : Nat} (k : Nat) (hin : s.meetsRetired w 32 = false) (hgood : w ∉ s.mem.bad)
    (hflip : (Map.find s.mem.flips w).isSome = true) :
    Rose s (s.scrubVisit k w) (objKey (0x6500 + s.stackOf w) 1) 1 ∧ (w, s.now) ∈ (s.scrubVisit k w).mem.corrected := by
  have hread : s.scrubVisit k w = (s.countBytes ⟨.c2, some 64⟩ false w 32).correct (some 64) w := by
    rw [State.scrubVisit_of_in k hin, State.scrubRead_flip k hgood hflip]
  have hnow : (s.countBytes ⟨.c2, some 64⟩ false w 32).now = s.now := by rw [State.countBytes_frame]
  have hrose := (s.countBytes ⟨.c2, some 64⟩ false w 32).correct_rose (some 64) w
  rw [hread]
  refine ⟨?_, hnow ▸ State.correct_listed _ _ _⟩
  unfold Rose at hrose ⊢
  rwa [State.stackOf_congr (s.num_countBytes_other _ _ _ _ (by decide)),
    s.num_countBytes_other _ _ _ _ (by simp only [objKey]; omega)] at hrose

/-! ### The SRAM scrubber (R405) -/

section
variable {s t v : State} {dt a : Nat} {l : List Nat} (ht : s.tick dt = t) (hsram : isSram (a / 8 * 8) = true) (hpower : t.powered = true)
  (hv : v = { t with mem := { t.mem with
    sramBad := ((l.map (fun a => a / 8 * 8)).filter isSram).foldl (fun l a => insertAsc a l) t.mem.sramBad } })
include ht hsram hpower hv

/-- At a word that is sound or recorded already, the struck words are taken in (`v`), and that is all. -/
theorem exec_sramScrub_quiet (h : a / 8 * 8 ∈ v.mem.sramBad → a / 8 * 8 ∈ t.mem.sramSeen) : exec (.sramScrub dt a l) s = .next v := by
  subst hv
  show execSramScrub dt a l s = _
  simp only [execSramScrub, ht, hpower, hsram]
  simpa using fun hbad hnew => absurd (h hbad) hnew

/-- An uncorrectable word that is not yet recorded is, and is reported. -/
theorem exec_sramScrub_records (hbad : a / 8 * 8 ∈ v.mem.sramBad) (hnew : a / 8 * 8 ∉ t.mem.sramSeen) :
    ∃ r : Report, exec (.sramScrub dt a l) s = .next
      (({ v with mem := { v.mem with sramSeen := insertAsc (a / 8 * 8) t.mem.sramSeen } } : State).report r) := by
  subst hv
  have hcontains := List.contains_iff_mem.2 hbad
  have hmissing : t.mem.sramSeen.contains (a / 8 * 8) = false := by simpa using hnew
  show ∃ r, execSramScrub dt a l s = _
  simp only [execSramScrub, ht, hpower, hsram, hmissing, Bool.not_true, Bool.or_self, Bool.false_eq_true, if_false]
  rw [if_pos (by simpa using hcontains)]
  exact ⟨_, rfl⟩

end

end Sys2Proof.Machine

open Sys2Proof.Machine in
/-- Settles O43: the code's answers, the step of a stack's scrubber by what it finds at its word, and the SRAM scrubber. -/
theorem scrubbersFindErrors : Obligations.ScrubbersFindErrors := by
  unfold Obligations.ScrubbersFindErrors
  refine ⟨fun t w haligned hstacked hgood => ⟨?_, ?_, ?_, ?_⟩, ?_, ?_⟩
  · exact State.upset_flip_one haligned hstacked hgood
  · exact fun b c hclean hbc => State.upset_flip_spoils haligned hstacked hgood hclean (by simpa using hbc) (Nat.le_refl 2) (.inl rfl)
  · exact fun l hclean hdistinct hmany hpin => State.upset_flip_spoils haligned hstacked hgood hclean hdistinct hmany (.inr hpin)
  · exact fun v => State.upset_misread_spoils haligned hstacked hgood
  · intro s t v dt k n w i l ht hk hpower husable hi hpass hw hv
    have hsame := sameWords_scrubVisit v k w
    have hexec := exec_scrubStep ht hk hpower husable hi hpass hw hv
    refine ⟨_, hexec, Sys2Proof.Map.get_set_same _ _ _ _, State.byte_of_cells hsame.cells,
      hsame.bad, fun hretired => ?_, fun hin => ⟨fun hbad => ?_, fun hgood hflip => ?_, fun hgood hclean => ?_⟩⟩
    · rw [State.scrubVisit_retired k hretired]
      exact ⟨rfl, rfl⟩
    · rw [State.scrubVisit_of_in k hin]
      exact State.scrubRead_bad k hbad
    · obtain ⟨hrose, hlisted⟩ := State.scrubVisit_flip k hin hgood hflip
      exact ⟨hrose, List.any_eq_true.2 ⟨_, hlisted, by simp⟩⟩
    · rw [State.scrubVisit_of_in k hin, State.scrubRead_clean k hgood hclean, State.countBytes_mem]
  · rintro s t v dt a w l ht rfl hsram hpower hv
    refine ⟨fun _ hseen => exec_sramScrub_quiet ht hsram hpower hv fun _ => hseen, fun hbad hnew => ?_,
      fun hgood => exec_sramScrub_quiet ht hsram hpower hv fun h => absurd h hgood⟩
    obtain ⟨r, hr⟩ := exec_sramScrub_records ht hsram hpower hv hbad hnew
    refine ⟨_, hr, ?_, ?_, State.byte_of_cells ?_⟩
    · rw [State.report_mem]; exact hbad
    · rw [State.report_mem]; exact mem_insertAsc.2 (.inl rfl)
    · rw [State.report_mem, hv]
end
